-- ==== Sys2Proof/Word.lean ====
section
/-!
DEFINITION. The word types of the Z384 and the plain bit-field arithmetic on them (R2, R16 to R19):
a field `[hi:lo]` of a word is read as a natural number, and a record is assembled from fields the same way.
-/
namespace Sys2Proof

/-- One byte of memory. -/
abbrev Byte := BitVec 8
/-- One lane element of a vector register, or one code word (R16). -/
abbrev W32 := BitVec 32
/-- One scalar register, one address, one record word (R20, R179). -/
abbrev W64 := BitVec 64
/-- One bit per logical lane, lane L at bit L (R120, R123). -/
abbrev LaneMask := BitVec 1024

/-- Field `[hi:lo]` of a number, both ends included (R2). -/
def bits (w hi lo : Nat) : Nat := w / 2 ^ lo % 2 ^ (hi + 1 - lo)

/-- One bit of a number as a Bool. -/
def bitAt (w i : Nat) : Bool := w / 2 ^ i % 2 == 1

/-- 1 for true, 0 for false: a one-bit field of a record. -/
def b2n (b : Bool) : Nat := if b then 1 else 0

/-- The bits of one field that a mask of the lanes below n covers. -/
def lowMask (n : Nat) : LaneMask := BitVec.ofNat 1024 (2 ^ n - 1)

end Sys2Proof
end

