-- ==== Sys2Proof/Syntax.lean ====
section
/-!
DEFINITION. The syntax of the Z384: operands, modifiers and ONE constructor for every row of the opcode table.
The first part of the table are the instructions of Forms A, B and C (R36, R38, R39); CLAUSE_START is the Form H
word (R19); the remaining rows are the indivisible steps that the engines, the firmware, the links and the host
take ("What each step holds"), whose parameters say which object the step is about and what the outside decided.
-/
namespace Sys2Proof

/-! ## Operands -/

/-- The register codes 0 to 125 of R20. -/
inductive Reg where
  | v (n : Fin 96)
  | s (n : Fin 24)
  | z
  | lid
  | vl
  | pw
  | tix
  | gix
  deriving DecidableEq, Repr

/-- A source register field: a register, or code 126 with its literal word (R20, R24). -/
inductive Src where
  | reg (r : Reg)
  | lit (w : BitVec 32)
  deriving DecidableEq, Repr

/-- mod3[1:0] of an integer instruction (R37); on a scalar destination `i` and `n` are `.i64` and `.n64`. -/
inductive IntTy where
  | i | n | p16 | p8
  deriving DecidableEq, Repr

/-- mod3 of an integer instruction: `.c` and the type (R37). -/
structure IntMod where
  cc : Bool
  ty : IntTy
  deriving DecidableEq, Repr

/-- mod3[1:0] of a floating instruction (R37, R97). -/
inductive FTy where
  | f32 | f16x2 | bf16x2
  deriving DecidableEq, Repr

/-- mod3 of a floating instruction (R97). -/
structure FMod where
  cc : Bool
  ty : FTy
  deriving DecidableEq, Repr

/-- The condition codes of R76, in code order. -/
inductive Cond where
  | eq | ne | lt | ge | le | gt | lo | hs | ls | hi | mi | pl | vs | vc | al | nv
  deriving DecidableEq, Repr

/-- The functions of FSFU (R103). -/
inductive Sfu where
  | rcp | rsq | exp2 | log2 | sin | cos
  deriving DecidableEq, Repr

/-- The rounding modes of CVT (R106). -/
inductive Rm where
  | rne | rz | rdn | rup | rna
  deriving DecidableEq, Repr

/-- The signedness of IDOT4 (R96). -/
inductive DotK where
  | ss | uu | su
  deriving DecidableEq, Repr

/-- The element type of FDOT2 (R112). -/
inductive FDotK where
  | f16 | bf16
  deriving DecidableEq, Repr

/-- The modes of SHFL (R142). -/
inductive ShflMode where
  | idx | up | down | xor
  deriving DecidableEq, Repr

/-- The functions of VOTE (R142); only `.ballot` has the operand b. -/
inductive VoteFn where
  | any | all | ballot (b : Src) | count | eq
  deriving DecidableEq, Repr

/-- The access widths of R40. -/
inductive Width where
  | n8 | i8 | n16 | i16 | b32 | b64
  deriving DecidableEq, Repr

/-- The operations of ATOM and ATOM64 (R187). -/
inductive AtomOp where
  | add | min | max | and | or | xor | swap | cas
  deriving DecidableEq, Repr

/-- The kinds of FENCE (R242). -/
inductive FenceKind where
  | ar | acq | rel
  deriving DecidableEq, Repr

/-- The tile levels TALLOC names (R164, R172). -/
inductive TileLevel where
  | l0 | l1 | l2
  deriving DecidableEq, Repr

/-- The qualifiers of TRD (R172). -/
inductive TrdQ where
  | keep | take | peek
  deriving DecidableEq, Repr

/-- The qualifiers of TWR (R172). -/
inductive TwrQ where
  | fill | put | raw
  deriving DecidableEq, Repr

/-- The kinds a SETSHAPE requests (R157). -/
inductive ReqKind where
  | vec | tile | mat
  deriving DecidableEq, Repr

/-- The grant policies (R153). -/
inductive Pol where
  | fit | exact | onepass
  deriving DecidableEq, Repr

/-- The accumulation modes of MMA (R205). -/
inductive MmaMode where
  | acc | ovw
  deriving DecidableEq, Repr

/-- The operations of PICK (R262). -/
inductive PickOp where
  | set | clr | emit
  deriving DecidableEq, Repr

/-- The system register number of RDSR and WRSR: in the word, or in a scalar (R300). -/
inductive SysNum where
  | imm (n : BitVec 14)
  | ind (a : Src)
  deriving DecidableEq, Repr

/-- The kinds of TLBINV (R321). -/
inductive TlbK where
  | page | range | ctx | all
  deriving DecidableEq, Repr

/-- The kinds of DEADRG (R329). -/
inductive DeadK where
  | dead | live | count
  deriving DecidableEq, Repr

/-- A Form H word below its class bits (R19). The reserved values stand, for CLAUSE_START checks them (R26). -/
structure Header where
  wait : BitVec 12
  setA : BitVec 4
  setB : BitVec 4
  len  : BitVec 4
  bt   : BitVec 2
  hint : BitVec 2
  rsv  : BitVec 2
  deriving DecidableEq, Repr

/-! ## What the outside decides in a step that is no instruction -/

/-- What a home does with a request that reaches it (R189, R325, R326, R338, R339). -/
inductive HomeOutcome where
  | perform         -- performed
  | park            -- into the home fault queue (R325)
  | nack            -- found a full queue (R268)
  | error           -- an uncorrectable error is found (R326, R339)
  deriving DecidableEq, Repr

/-- How the next element of a copy ends (R196). -/
inductive LandOutcome where
  | land            -- its bytes land
  | uncorrectable   -- an uncorrectable error is consumed on the read
  deriving DecidableEq, Repr

/-- A Kazeg flit as its receiver sees it (R335): the header word of bytes 0 to 7, the 240 bytes of payload, and the trailer word of bytes
248 to 255. -/
structure Flit where
  header  : BitVec 64
  payload : BitVec 1920
  trailer : BitVec 64
  deriving DecidableEq, Repr

/-- A Kazeg scale-up port or a memory port, by its number (R334). -/
inductive PortId where
  | kazeg (p : Nat)
  | memory (m : Nat)
  deriving DecidableEq, Repr

/-- What a request of the host names, with the TAG of its message, which the answer carries (R360). -/
structure Tagged (α : Type) where
  tag : Nat
  val : α
  deriving DecidableEq, Repr

/-- Where an image to restore stands: at an offset of the keep store, or at an address of a context (R315, R363). -/
structure ImagePlace where
  keep : Bool
  ctx  : Nat
  addr : Nat
  deriving DecidableEq, Repr

/-- A firmware image as its boot finds it: its bytes, the public key it comes with, its ECDSA signature, and its SVN (R367). -/
structure FwImage where
  bytes : List (BitVec 8)
  key   : Nat
  r     : List (BitVec 8)
  s     : List (BitVec 8)
  svn   : Nat
  deriving DecidableEq, Repr

/-- A firmware core to reload, and its image (R361). -/
structure FwReload where
  fw    : Nat
  image : FwImage
  deriving DecidableEq, Repr

/-! ## The instructions and the steps -/

inductive Instr where
  -- Form A, integer (R81 to R93)
  | add (m : IntMod) (d : Reg) (a b : Src)
  | sub (m : IntMod) (d : Reg) (a b : Src)
  | addc (m : IntMod) (d : Reg) (a b : Src)
  | subb (m : IntMod) (d : Reg) (a b : Src)
  | mul (m : IntMod) (d : Reg) (a b : Src)
  | mulh (m : IntMod) (d : Reg) (a b : Src)
  | mad (m : IntMod) (d : Reg) (a b : Src)
  | div (m : IntMod) (d : Reg) (a b : Src)
  | rem (m : IntMod) (d : Reg) (a b : Src)
  | min (m : IntMod) (d : Reg) (a b : Src)
  | max (m : IntMod) (d : Reg) (a b : Src)
  | absd (m : IntMod) (d : Reg) (a b : Src)
  | and (m : IntMod) (d : Reg) (a b : Src)
  | or (m : IntMod) (d : Reg) (a b : Src)
  | xor (m : IntMod) (d : Reg) (a b : Src)
  | andn (m : IntMod) (d : Reg) (a b : Src)
  | shl (m : IntMod) (d : Reg) (a b : Src)
  | shr (m : IntMod) (d : Reg) (a b : Src)
  | sar (m : IntMod) (d : Reg) (a b : Src)
  | rot (m : IntMod) (d : Reg) (a b : Src)
  | bfe (m : IntMod) (d : Reg) (a b : Src)
  | bfi (m : IntMod) (d : Reg) (a b : Src)
  | popc (m : IntMod) (d : Reg) (a : Src)
  | clz (m : IntMod) (d : Reg) (a : Src)
  | brev (m : IntMod) (d : Reg) (a : Src)
  | cmp (t : IntTy) (a b : Src)
  | sel (c : Cond) (d : Reg) (a b : Src)
  | mov (m : IntMod) (d : Reg) (a : Src)
  | ext (m : IntMod) (d : Reg) (a b : Src)
  | adds (m : IntMod) (d : Reg) (a b : Src)
  | subs (m : IntMod) (d : Reg) (a b : Src)
  -- Form A, floating (R97 to R112)
  | fadd (m : FMod) (d : Reg) (a b : Src)
  | fsub (m : FMod) (d : Reg) (a b : Src)
  | fmul (m : FMod) (d : Reg) (a b : Src)
  | ffma (m : FMod) (d : Reg) (a b : Src)
  | fmin (m : FMod) (d : Reg) (a b : Src)
  | fmax (m : FMod) (d : Reg) (a b : Src)
  | fcmp (t : FTy) (a b : Src)
  | fdiv (m : FMod) (d : Reg) (a b : Src)
  | fsqrt (m : FMod) (d : Reg) (a : Src)
  | fsfu (f : Sfu) (d : Reg) (a : Src)
  | fclass (t : FTy) (d : Reg) (a : Src)
  | cvt (r : Rm) (c : Fin 16) (d : Reg) (a : Src)
  | dadd (cc : Bool) (d : Reg) (a b : Src)
  | dmul (cc : Bool) (d : Reg) (a b : Src)
  | dfma (cc : Bool) (d : Reg) (a b : Src)
  | dcmp (a b : Src)
  | quant (t : FTy) (d : Reg) (a b : Src)
  | deq (t : FTy) (d : Reg) (a b : Src)
  | pack (d : Reg) (a : Src)
  | unpk (d : Reg) (a : Src)
  | idot4 (k : DotK) (d : Reg) (a b : Src)
  | fdot2 (k : FDotK) (d : Reg) (a b : Src)
  -- Form A, cross-lane (R141 to R147)
  | shfl (m : ShflMode) (d : Reg) (a b : Src)
  | vote (f : VoteFn) (d : Reg) (a : Src)
  | rdfirst (d : Reg) (a : Src)
  | rdlane (d : Reg) (a b : Src)
  | wrlane (d : Reg) (a b : Src)
  | ccmovRd (d : Reg)
  | ccmovWr (a : Src)
  -- Form B (R94, R95, R125, R136, R64, R69, R298, R185)
  | addi (d : Reg) (a : Src) (imm : BitVec 11)
  | andi (d : Reg) (a : Src) (imm : BitVec 11)
  | ori (d : Reg) (a : Src) (imm : BitVec 11)
  | xori (d : Reg) (a : Src) (imm : BitVec 11)
  | shli (d : Reg) (a : Src) (sh : BitVec 6)
  | shri (d : Reg) (a : Src) (sh : BitVec 6)
  | sari (d : Reg) (a : Src) (sh : BitVec 6)
  | cmpi (a : Src) (imm : BitVec 11)
  | movi (d : Reg) (imm : BitVec 11)
  | movhi (d : Reg) (a : Src) (h : BitVec 11)
  | brc (c : Cond) (off : BitVec 11)
  | jmp (off : BitVec 11)
  | call (off : BitVec 11)
  | ret
  | joinat (off : BitVec 11)
  | join
  | loop (a : Src) (len : BitVec 7) (stepw : BitVec 32)
  | winbase (k : BitVec 11)
  | curve (d : Reg) (p : BitVec 3) (acc : BitVec 6)
  | mhint (n : BitVec 11)
  | trap (n : BitVec 11)
  | brkpt (n : BitVec 11)
  | exit
  | nop
  | lds (d : Reg) (a : Src) (imm : BitVec 11)
  | sts (x : Src) (a : Src) (imm : BitVec 11)
  | ldf (d : Reg) (imm : BitVec 11)
  | jmpr (a : Src) (off : BitVec 11)
  -- Form C, memory and tiles (R172, R181 to R191, R242, R247)
  | ld (w : Width) (d : Reg) (a b : Src)
  | st (w : Width) (x : Src) (a b : Src)
  | ldacq (w : Width) (d : Reg) (a : Src) (obs : BitVec 7)
  | strel (w : Width) (x : Src) (a : Src) (obs : BitVec 7)
  | ldstr (w : Width) (d : Reg) (a b : Src)
  | ststr (w : Width) (x : Src) (a b : Src)
  | atom (o : AtomOp) (d : Reg) (a : Src) (obs : BitVec 7)
  | atom64 (o : AtomOp) (d : Reg) (a : Src) (obs : BitVec 7)
  | pref (forWrite : Bool) (a b : Src)
  | fence (k : FenceKind) (obs : BitVec 7)
  | qfence (wait : Bool) (qm : BitVec 7)
  | talloc (full : Bool) (l : TileLevel) (d : Reg) (sh : Fin 4)
  | tfree (a : Src)
  | trd (wide : Bool) (q : TrdQ) (d : Reg) (a b : Src)
  | twr (wide : Bool) (q : TwrQ) (x : Src) (a b : Src)
  | tstat (d : Reg) (a : Src)
  | copy (xf : Bool) (cq : Fin 4) (a b : Src)
  -- Form C, shapes and matrices (R157, R158, R201, R205, R212)
  | setshape (k : ReqKind) (d : Reg) (a : Src) (p : Pol) (sh : Fin 4)
  | rdshape (d : Reg) (sh : Fin 4)
  | gang (a : Src)
  | mma (g : Bool) (sh : Fin 4) (d : BitVec 7) (a b : Src) (mode : MmaMode) (idx fmt : BitVec 7)
  | mdrain (addTo : Bool) (sh : Fin 4) (d : Src) (a b : Src)
  | mzero (sh : Fin 4) (a : Src)
  -- Form C, barriers and queues (R226, R262, R332)
  | binit (d : Reg) (a b : Src)
  | barv (wait : Bool) (d : Reg) (a : Src)
  | bexp (a b : Src)
  | bwait (d : Reg) (a b : Src)
  | btest (d : Reg) (a b : Src)
  | bstat (hiHalf : Bool) (d : Reg) (a : Src)
  | enq (d : Reg) (a : Src)
  | cont (a : Src)
  | pusht (d : Reg) (a : Src)
  | popt (d : Reg)
  | steal (d : Reg) (a : Src)
  | pick (o : PickOp) (d a : Src) (b : Option Src)
  | scan (a : Src) (b : Option Src)
  -- Form C, system (R300, R304, R305, R314, R321, R329, R366, R67, R232)
  | rdsr (d : Reg) (n : SysNum)
  | wrsr (x : Src) (n : SysNum)
  | dbgrd (pair : Bool) (d : Reg) (a : Src)
  | dbgwr (d : Reg) (a b : Src)
  | tresume (kill : Bool) (d : Reg) (a : Src)
  | evsel (die : Bool) (a b : Src)
  | evrd (die : Bool) (d : Reg) (a : Src)
  | ckpt (d : Reg) (a b : Src)
  | tlbinv (k : TlbK) (d a b : Src)
  | deadrg (k : DeadK) (d : Reg) (a b : Src)
  | rdcurve (d : Reg)
  | binv (a : Src)
  -- the clause header (R19, R26) and the steps of the engines and of the outside
  | clauseStart (h : Header)
  | loadComplete (op : Nat)
  | atomicComplete (op : Nat)
  | trdComplete (op : Nat) (bad : List Nat)
  | joinBlockUpdate (j : Nat)
  | granuleWaitEnd (tid : Nat)
  | granuleWaitTimeout (tid : Nat)
  | tileRestore (tile granule : Nat)
  | copyStallEnd (tid : Nat)
  | copyAcknowledge (cp : Nat)
  | copyBegin (cp : Nat)
  | copyLand (cp elem : Nat) (o : LandOutcome)
  | barrierWaitWake (tid : Nat)
  | barrierTimeout (tid : Nat)
  | rendezvousTimeout (tid : Nat)
  | mqOperationBegin (core : Nat)
  | mmaComplete (op : Nat) (err : Bool)
  | mdrainComplete (op : Nat) (bad : List Nat)
  | mzeroComplete (op : Nat)
  | matrixRampupEnd (core : Nat)
  | matrixHoldExpiry (core : Nat)
  | matrixRampdnEnd (core : Nat)
  | mhintExpiry (tid : Nat)
  | emulationComplete (tid : Nat)
  | emulationTimeout (tid : Nat) (reported : Bool)
  | fenceWaitEnd (tid : Nat)
  | qfenceWaitEnd (tid : Nat)
  | curveDecision (core : Nat)
  | curveDecisionAbandon (core : Nat)
  | curveRampStart (core : Nat)
  | curveRampEnd (core : Nat)
  | dispatchPop (core : Nat)
  | groupRelease (gid : Nat)
  | decantComplete (die entry : Nat) (failed : Bool)
  | balancerQueueMove (ctx region die idx toDie : Nat)
  | balancerMoveMark (gid toCore : Nat)
  | balancerMoveSwap (gid : Nat)
  | balancerMoveTimeout (gid : Nat)
  | handlerStart (core : Nat)
  | handlerWatchdogEscalation (core : Nat)
  | faultRepairComplete (f : Nat)
  | faultRepairTimeout (f : Nat)
  | faultRecordReply (f : Nat) (ok : Bool)
  | atsTranslationCompletion (f : Nat) (host : Option Nat)
  | priPageResponse (f : Nat) (ok : Bool)
  | atsInvalidateRequest (ctx page count : Nat)
  | redundantCommitCompare (tid : Nat)
  | redundantWaitTimeout (tid : Nat)
  | preemptionSwap (core : Nat)
  | swapResume (core : Nat)
  | bankSpill (core : Nat)
  | bankLoad (core image : Nat)
  | bankRetention (core bank : Nat)
  | ckptImageWrite (core : Nat)
  | ckptTimeout (core : Nat)
  | memoryRequestAtHome (op lane : Nat) (o : HomeOutcome)
  | homeFaultReplay (home : Nat)
  | internalQueueResend (core home : Nat)
  | scanCommandExecute (cmd : Nat) (picked : List Nat)
  | pickCommandExecute (die : Nat)
  | channelRetirementRequest (channel : Tagged Nat)
  | channelCopyDone
  | channelSwitch
  | hostSubmit (tag ctx addr die : Nat)
  | objectLoad (tag ctx addr : Nat) (acceptDownlevel requireSigned : Bool)
  | objectUnload (tag ctx code : Nat)
  | contextCreate (tag ctx pasid root : Nat) (regions : List (Nat × Nat)) (rootRegion : Nat)
  | contextDestroy (tag ctx : Nat)
  | svnRaise (counter value : Nat) (signedOk : Tagged Bool)
  | decodeTableUpdate (signedOk : Tagged Bool)
  | keyInstall (keyid key : Nat) (signedOk : Tagged Bool)
  | keyRemove (keyid : Nat) (signedOk : Tagged Bool)
  | imageRestore (core : Nat) (place : Tagged ImagePlace)
  | correlationRecordPeriodic (core : Nat)
  | firmwareHeartbeatLapse (fw : Nat)
  | recoveryRead (addr : Tagged Nat)
  | recoveryWrite (addr : Tagged Nat) (x : BitVec 64)
  | recoveryPlace (ctx : Tagged Nat) (addr die : Nat)
  | recoveryReset (core : Tagged FwReload)
  | recoveryThaw
  | getVersion (tag : Nat)
  | getCapabilities (tag : Nat)
  | negotiateAlgorithms (tag : Nat)
  | getDigests (tag : Nat)
  | getCertificate (tag : Nat)
  | challenge (tag nonce : Nat)
  | getMeasurements (tag block : Nat)
  | powerLoss
  | reset (sec : FwImage) (others : List FwImage)
  | portEnable (p : PortId)
  | portDisable (p : PortId)
  | trainingAttemptEnd (p : PortId) (ok : Bool) (peer : Nat)
  | portLockLoss (p : PortId)
  | flitReceive (p : PortId) (f : Flit)
  | peerHoldRelease (op lane : Nat)
  | peerWindowWrite (w : Nat) (w0 w1 : BitVec 64)
  | linkcfgWrite (x : BitVec 64)
  | msixUnmask (vec : Nat)
  | deviceRegisterWrite (addr : Nat) (x : BitVec 64)
  | tileSpill (tile : Nat)
  | doeDiscovery (index : Nat)
  | mailboxRead (mb : Nat)
  deriving DecidableEq, Repr

/-! ## How many words an instruction takes (R25) -/

/-- A literal source takes one extension word (R24). -/
def Src.words : Src → Nat
  | .reg _ => 0
  | .lit _ => 1

/-- The extension words of an optional source field. -/
def Src.optWords : Option Src → Nat
  | none => 0
  | some x => x.words

end Sys2Proof
end

