-- ==== Sys2Proof/WellFormed.lean ====
section
/-!
DEFINITION. Which terms of `Instr` an encoding exists for, as far as the types of their fields do not say it already:
the type an integer instruction admits (R37, R82), the conditions SEL can hold (R92), the fields of the MMA operand
word (R205) and of the LOOP step word (R137). A step that is no instruction has no encoding and is always well formed.
-/
namespace Sys2Proof

/-- A register code that is of scalar class as a destination (R20, R21). -/
def Reg.scalarDest : Reg → Bool
  | .v _ | .lid => false
  | .s _ | .z | .vl | .pw | .tix | .gix => true

/-- A type of two or four elements (R42). -/
def IntTy.packed : IntTy → Bool
  | .i | .n => false
  | .p16 | .p8 => true

/-- The type of an integer instruction with packed forms: not packed on a scalar destination (R37). -/
def IntMod.okPacked (m : IntMod) (d : Reg) : Bool := !(m.ty.packed && d.scalarDest)

/-- The type of an integer instruction with no packed forms (R82). -/
def IntMod.okPlain (m : IntMod) : Bool := !m.ty.packed

/-- One half of a LOOP step word: zero, or a non-zero increment (R137). -/
def stepHalfOk (h : Nat) : Bool := h == 0 || h % 256 != 0

/-- Both entries of a LOOP step word (R137). -/
def stepWordOk (w : W32) : Bool := stepHalfOk (w.toNat % 65536) && stepHalfOk (w.toNat / 65536)

/-- The source class of a code that CMP's `.p16` and `.p8` need (R91): `lid` counts as a vector. -/
def Src.vecClass : Src → Bool
  | .reg (.v _) | .reg .lid => true
  | _ => false

/-- The instruction has an encoding. -/
def Instr.wf : Instr → Bool
  | .add m d _ _ | .sub m d _ _ | .mul m d _ _ | .mulh m d _ _ | .mad m d _ _ | .min m d _ _ | .max m d _ _
  | .absd m d _ _ | .and m d _ _ | .or m d _ _ | .xor m d _ _ | .andn m d _ _ | .shl m d _ _ | .shr m d _ _
  | .sar m d _ _ | .rot m d _ _ | .adds m d _ _ | .subs m d _ _ => m.okPacked d
  | .popc m d _ | .clz m d _ | .brev m d _ | .mov m d _ => m.okPacked d
  | .addc m _ _ _ | .subb m _ _ _ | .div m _ _ _ | .rem m _ _ _ | .bfe m _ _ _ | .bfi m _ _ _ | .ext m _ _ _ => m.okPlain
  | .cmp t a b => !t.packed || a.vecClass || b.vecClass
  | .sel c _ _ _ => match c with
    | .eq | .ne | .lt | .ge | .le | .gt | .lo | .hs => true
    | _ => false
  | .loop _ _ w => stepWordOk w
  | .mma g _ d _ _ _ idx fmt => d.toNat != 127 && fmt.toNat != 127 && (if g then idx.toNat != 127 else idx.toNat == 0)
  | _ => true

end Sys2Proof
end

