-- ==== Sys2Proof/Decode.lean ====
section
/-!
DEFINITION. The decoder, total on any words, and after it the encoder. A word that is not an instruction is refused by
name: ILLEGAL before RESERVED-FIELD (R33, R34). The fields of a word are natural numbers, taken out here once
(R17, R18, R19); extension words follow in the order of R25. A word of class 0b11 is a header wherever it stands (R31),
so it always decodes to `clauseStart`: the values it may not hold are checked when the clause starts (R26, R391).
-/
namespace Sys2Proof

/-- Why a word is refused (R33), or that the words given end before the instruction's extension words. -/
inductive DecErr where
  | illegal | reserved | short
  deriving DecidableEq, Repr

/-! ## Fields and codes -/

/-- The register of a code (R20); none for 126 and 127. -/
def Reg.ofCode (c : Nat) : Option Reg :=
  if h : c < 96 then some (.v ⟨c, h⟩)
  else if h : c - 96 < 24 then some (.s ⟨c - 96, h⟩)
  else match c - 120 with
    | 0 => some .z
    | 1 => some .lid
    | 2 => some .vl
    | 3 => some .pw
    | 4 => some .tix
    | 5 => some .gix
    | _ => none

/-- The code of a register (R20). -/
def Reg.code : Reg → Nat
  | .v n => n.val
  | .s n => 96 + n.val
  | .z => 120
  | .lid => 121
  | .vl => 122
  | .pw => 123
  | .tix => 124
  | .gix => 125

/-- The code of a source field (R20). -/
def Src.code : Src → Nat
  | .reg r => r.code
  | .lit _ => 126

/-- The literal words of a source field (R24). -/
def Src.lits : Src → List W32
  | .reg _ => []
  | .lit w => [w]

/-- The code of an optional source field; an absent one holds zero. -/
def Src.optCode : Option Src → Nat
  | none => 0
  | some x => x.code

/-- The literal words of an optional source field. -/
def Src.optLits : Option Src → List W32
  | none => []
  | some x => x.lits

/-- A source field, with the words that remain after its literal word (R24, R25). -/
def srcField (c : Nat) (x : List W32) : Option (Src × List W32) :=
  if c = 126 then
    match x with
    | w :: r => some (.lit w, r)
    | [] => none
  else
    match Reg.ofCode c with
    | some r => some (.reg r, x)
    | none => none

/-- A source field's code that raises ILLEGAL (R33). -/
def badS (c : Nat) : Bool := c == 127

/-- A destination field's code that raises ILLEGAL (R24, R33). -/
def badD (c : Nat) : Bool := c == 126 || c == 127

/-- A destination code of scalar class, for the types R37 refuses. -/
def scalarCode (c : Nat) : Bool := Nat.ble 96 c && c != 121

/-- A source code of vector class (R20, R91). -/
def vecCode (c : Nat) : Bool := Nat.blt c 96 || c == 121

/-- The outcome of one opcode: ILLEGAL first, then RESERVED-FIELD (R34), then the instruction. -/
def outcome (ill rsv : Bool) (i : Option Instr) : Except DecErr Instr :=
  if ill then .error .illegal
  else if rsv then .error .reserved
  else match i with
    | some j => .ok j
    | none => .error .short

/-- Two source fields, a before b (R25). -/
def src2 (a b : Nat) (x : List W32) (f : Src → Src → Instr) : Option Instr :=
  match srcField a x with
  | some (p, x1) =>
    match srcField b x1 with
    | some (q, _) => some (f p q)
    | none => none
  | none => none

/-- One source field. -/
def src1 (a : Nat) (x : List W32) (f : Src → Instr) : Option Instr :=
  match srcField a x with
  | some (p, _) => some (f p)
  | none => none

/-- Three source fields, d before a before b (R25). -/
def src3 (d a b : Nat) (x : List W32) (f : Src → Src → Src → Instr) : Option Instr :=
  match srcField d x with
  | some (p, x1) => src2 a b x1 (f p)
  | none => none

/-- A destination register. -/
def dst (d : Nat) (f : Reg → Option Instr) : Option Instr :=
  match Reg.ofCode d with
  | some r => f r
  | none => none

/-- mod3[1:0] of an integer instruction (R37). -/
def IntTy.ofCode (m : Nat) : IntTy :=
  match m with
  | 0 => .i
  | 1 => .n
  | 2 => .p16
  | _ => .p8

/-- The code of an integer type (R37). -/
def IntTy.code : IntTy → Nat
  | .i => 0
  | .n => 1
  | .p16 => 2
  | .p8 => 3

/-- mod3[1:0] of a floating instruction (R37). -/
def FTy.ofCode (m : Nat) : FTy :=
  match m with
  | 0 => .f32
  | 1 => .f16x2
  | _ => .bf16x2

/-- The code of a floating type (R37). -/
def FTy.code : FTy → Nat
  | .f32 => 0
  | .f16x2 => 1
  | .bf16x2 => 2

/-- The condition of a code (R76). -/
def Cond.ofCode (c : Nat) : Cond :=
  match c with
  | 0 => .eq
  | 1 => .ne
  | 2 => .lt
  | 3 => .ge
  | 4 => .le
  | 5 => .gt
  | 6 => .lo
  | 7 => .hs
  | 8 => .ls
  | 9 => .hi
  | 10 => .mi
  | 11 => .pl
  | 12 => .vs
  | 13 => .vc
  | 14 => .al
  | _ => .nv

/-- The code of a condition (R76). -/
def Cond.code : Cond → Nat
  | .eq => 0
  | .ne => 1
  | .lt => 2
  | .ge => 3
  | .le => 4
  | .gt => 5
  | .lo => 6
  | .hs => 7
  | .ls => 8
  | .hi => 9
  | .mi => 10
  | .pl => 11
  | .vs => 12
  | .vc => 13
  | .al => 14
  | .nv => 15

/-- mod3 of a load or store (R40). -/
def Width.ofCode (m : Nat) : Width :=
  match m with
  | 0 => .n8
  | 1 => .i8
  | 2 => .n16
  | 3 => .i16
  | 4 => .b32
  | _ => .b64

/-- The code of a width (R40). -/
def Width.code : Width → Nat
  | .n8 => 0
  | .i8 => 1
  | .n16 => 2
  | .i16 => 3
  | .b32 => 4
  | .b64 => 5

/-- mod3 of an atomic (R187). -/
def AtomOp.ofCode (m : Nat) : AtomOp :=
  match m with
  | 0 => .add
  | 1 => .min
  | 2 => .max
  | 3 => .and
  | 4 => .or
  | 5 => .xor
  | 6 => .swap
  | _ => .cas

/-- The code of an atomic operation (R187). -/
def AtomOp.code : AtomOp → Nat
  | .add => 0
  | .min => 1
  | .max => 2
  | .and => 3
  | .or => 4
  | .xor => 5
  | .swap => 6
  | .cas => 7

/-- mod3 of FSFU (R103). -/
def Sfu.ofCode (m : Nat) : Sfu :=
  match m with
  | 0 => .rcp
  | 1 => .rsq
  | 2 => .exp2
  | 3 => .log2
  | 4 => .sin
  | _ => .cos

/-- The code of a special function (R103). -/
def Sfu.code : Sfu → Nat
  | .rcp => 0
  | .rsq => 1
  | .exp2 => 2
  | .log2 => 3
  | .sin => 4
  | .cos => 5

/-- mod3 of CVT (R106). -/
def Rm.ofCode (m : Nat) : Rm :=
  match m with
  | 0 => .rne
  | 1 => .rz
  | 2 => .rdn
  | 3 => .rup
  | _ => .rna

/-- The code of a rounding mode (R106). -/
def Rm.code : Rm → Nat
  | .rne => 0
  | .rz => 1
  | .rdn => 2
  | .rup => 3
  | .rna => 4

/-- mod3[0] and [2:1] as Bools and numbers. -/
def flagOf (n : Nat) : Bool := n == 1

/-! ## Form A (R36) -/

/-- ADD and its like: packed types on a vector destination only (R82). -/
def intPacked (f : IntMod → Reg → Src → Src → Instr) (m d a b : Nat) (x : List W32) : Except DecErr Instr :=
  outcome (badD d || badS a || badS b || (Nat.ble 2 (m % 4) && scalarCode d)) false
    (dst d fun r => src2 a b x (f ⟨flagOf (m / 4), IntTy.ofCode (m % 4)⟩ r))

/-- ADDC and its like: no packed type (R82). -/
def intPlain (f : IntMod → Reg → Src → Src → Instr) (m d a b : Nat) (x : List W32) : Except DecErr Instr :=
  outcome (badD d || badS a || badS b || Nat.ble 2 (m % 4)) false
    (dst d fun r => src2 a b x (f ⟨flagOf (m / 4), IntTy.ofCode (m % 4)⟩ r))

/-- POPC and its like: field b unused (R82). -/
def intUnary (f : IntMod → Reg → Src → Instr) (m d a b : Nat) (x : List W32) : Except DecErr Instr :=
  outcome (badD d || badS a || (Nat.ble 2 (m % 4) && scalarCode d)) (b != 0)
    (dst d fun r => src1 a x (f ⟨flagOf (m / 4), IntTy.ofCode (m % 4)⟩ r))

/-- FADD and its like (R97). -/
def fpBinary (f : FMod → Reg → Src → Src → Instr) (m d a b : Nat) (x : List W32) : Except DecErr Instr :=
  outcome (badD d || badS a || badS b || m % 4 == 3) false
    (dst d fun r => src2 a b x (f ⟨flagOf (m / 4), FTy.ofCode (m % 4)⟩ r))

/-- DADD and its like: mod3[1:0] must be 00 (R109). -/
def dpBinary (f : Bool → Reg → Src → Src → Instr) (m d a b : Nat) (x : List W32) : Except DecErr Instr :=
  outcome (badD d || badS a || badS b || m % 4 != 0) false
    (dst d fun r => src2 a b x (f (flagOf (m / 4)) r))

/-- QUANT and DEQ: a type and no `.c` (R110). -/
def lgBinary (f : FTy → Reg → Src → Src → Instr) (m d a b : Nat) (x : List W32) : Except DecErr Instr :=
  outcome (badD d || badS a || badS b || m % 4 == 3) (m / 4 != 0)
    (dst d fun r => src2 a b x (f (FTy.ofCode (m % 4)) r))

/-- PACK and UNPK: mod3[1:0] must be 00 (R111). -/
def packUnary (f : Reg → Src → Instr) (m d a b : Nat) (x : List W32) : Except DecErr Instr :=
  outcome (badD d || badS a || m % 4 != 0) (m / 4 != 0 || b != 0) (dst d fun r => src1 a x (f r))

/-- SHFL's mode (R142). -/
def ShflMode.ofCode (m : Nat) : ShflMode :=
  match m with
  | 0 => .idx
  | 1 => .up
  | 2 => .down
  | _ => .xor

/-- The code of SHFL's mode (R142). -/
def ShflMode.code : ShflMode → Nat
  | .idx => 0
  | .up => 1
  | .down => 2
  | .xor => 3

/-- IDOT4's kind (R96). -/
def DotK.ofCode (m : Nat) : DotK :=
  match m with
  | 0 => .ss
  | 1 => .uu
  | _ => .su

/-- The code of IDOT4's kind (R96). -/
def DotK.code : DotK → Nat
  | .ss => 0
  | .uu => 1
  | .su => 2

/-- FDOT2's kind (R112). -/
def FDotK.ofCode (m : Nat) : FDotK :=
  match m with
  | 1 => .f16
  | _ => .bf16

/-- The code of FDOT2's kind (R112). -/
def FDotK.code : FDotK → Nat
  | .f16 => 1
  | .bf16 => 2

/-- VOTE (R142). -/
def decVote (m d a b : Nat) (x : List W32) : Except DecErr Instr :=
  match m with
  | 0 => outcome (badD d || badS a) (b != 0) (dst d fun r => src1 a x fun p => .vote .any r p)
  | 1 => outcome (badD d || badS a) (b != 0) (dst d fun r => src1 a x fun p => .vote .all r p)
  | 2 => outcome (badD d || badS a || badS b) false (dst d fun r => src2 a b x fun p q => .vote (.ballot q) r p)
  | 3 => outcome (badD d || badS a) (b != 0) (dst d fun r => src1 a x fun p => .vote .count r p)
  | 4 => outcome (badD d || badS a) (b != 0) (dst d fun r => src1 a x fun p => .vote .eq r p)
  | _ => .error .illegal

/-- CCMOV (R142): the two operations are two rows of the table. -/
def decCcmov (m d a b : Nat) (x : List W32) : Except DecErr Instr :=
  match m with
  | 0 => outcome (badD d) (a != 0 || b != 0) (dst d fun r => some (.ccmovRd r))
  | 1 => outcome (badS a) (d != 0 || b != 0) (src1 a x fun p => .ccmovWr p)
  | _ => .error .illegal

/-- A Form A word by its fields (R17, R36). -/
def decodeA (op m d a b : Nat) (x : List W32) : Except DecErr Instr :=
  match op with
  | 0x00 => intPacked .add m d a b x
  | 0x01 => intPacked .sub m d a b x
  | 0x02 => intPlain .addc m d a b x
  | 0x03 => intPlain .subb m d a b x
  | 0x04 => intPacked .mul m d a b x
  | 0x05 => intPacked .mulh m d a b x
  | 0x06 => intPacked .mad m d a b x
  | 0x07 => intPlain .div m d a b x
  | 0x08 => intPlain .rem m d a b x
  | 0x09 => intPacked .min m d a b x
  | 0x0A => intPacked .max m d a b x
  | 0x0B => intPacked .absd m d a b x
  | 0x0C => intPacked .and m d a b x
  | 0x0D => intPacked .or m d a b x
  | 0x0E => intPacked .xor m d a b x
  | 0x0F => intPacked .andn m d a b x
  | 0x10 => intPacked .shl m d a b x
  | 0x11 => intPacked .shr m d a b x
  | 0x12 => intPacked .sar m d a b x
  | 0x13 => intPacked .rot m d a b x
  | 0x14 => intPlain .bfe m d a b x
  | 0x15 => intPlain .bfi m d a b x
  | 0x16 => intUnary .popc m d a b x
  | 0x17 => intUnary .clz m d a b x
  | 0x18 => intUnary .brev m d a b x
  | 0x19 => outcome (badS a || badS b || (Nat.ble 2 (m % 4) && !vecCode a && !vecCode b)) (m / 4 != 0 || d != 0)
      (src2 a b x (.cmp (IntTy.ofCode (m % 4))))
  | 0x1A => outcome (badD d || badS a || badS b) false (dst d fun r => src2 a b x (.sel (Cond.ofCode m) r))
  | 0x1B => intUnary .mov m d a b x
  | 0x1C => intPlain .ext m d a b x
  | 0x1D => intPacked .adds m d a b x
  | 0x1E => intPacked .subs m d a b x
  | 0x20 => fpBinary .fadd m d a b x
  | 0x21 => fpBinary .fsub m d a b x
  | 0x22 => fpBinary .fmul m d a b x
  | 0x23 => fpBinary .ffma m d a b x
  | 0x24 => fpBinary .fmin m d a b x
  | 0x25 => fpBinary .fmax m d a b x
  | 0x26 => outcome (badS a || badS b || m % 4 == 3) (m / 4 != 0 || d != 0) (src2 a b x (.fcmp (FTy.ofCode (m % 4))))
  | 0x27 => fpBinary .fdiv m d a b x
  | 0x28 => outcome (badD d || badS a || m % 4 == 3) (b != 0)
      (dst d fun r => src1 a x (.fsqrt ⟨flagOf (m / 4), FTy.ofCode (m % 4)⟩ r))
  | 0x29 => outcome (badD d || badS a || Nat.ble 6 m) (b != 0) (dst d fun r => src1 a x (.fsfu (Sfu.ofCode m) r))
  | 0x2A => outcome (badD d || badS a || m % 4 == 3) (m / 4 != 0 || b != 0)
      (dst d fun r => src1 a x (.fclass (FTy.ofCode (m % 4)) r))
  | 0x2B => outcome (badD d || badS a || Nat.ble 5 m) (b % 8 != 0)
      (dst d fun r => src1 a x (.cvt (Rm.ofCode m) (Fin.ofNat 16 (b / 8)) r))
  | 0x2C => dpBinary .dadd m d a b x
  | 0x2D => dpBinary .dmul m d a b x
  | 0x2E => dpBinary .dfma m d a b x
  | 0x2F => outcome (badS a || badS b || m % 4 != 0) (m / 4 != 0 || d != 0) (src2 a b x .dcmp)
  | 0x30 => lgBinary .quant m d a b x
  | 0x31 => lgBinary .deq m d a b x
  | 0x32 => packUnary .pack m d a b x
  | 0x33 => packUnary .unpk m d a b x
  | 0x34 => outcome (badD d || badS a || badS b || m % 4 == 3) (m / 4 != 0)
      (dst d fun r => src2 a b x (.idot4 (DotK.ofCode (m % 4)) r))
  | 0x35 => outcome (badD d || badS a || badS b || m % 4 == 0 || m % 4 == 3) (m / 4 != 0)
      (dst d fun r => src2 a b x (.fdot2 (FDotK.ofCode (m % 4)) r))
  | 0x38 => outcome (badD d || badS a || badS b || Nat.ble 4 m) false
      (dst d fun r => src2 a b x (.shfl (ShflMode.ofCode m) r))
  | 0x39 => decVote m d a b x
  | 0x3A => outcome (badD d || badS a) (m != 0 || b != 0) (dst d fun r => src1 a x (.rdfirst r))
  | 0x3B => outcome (badD d || badS a || badS b) (m != 0) (dst d fun r => src2 a b x (.rdlane r))
  | 0x3C => outcome (badD d || badS a || badS b) (m != 0) (dst d fun r => src2 a b x (.wrlane r))
  | 0x3D => decCcmov m d a b x
  | _ => .error .illegal

/-! ## Form B (R38) -/

/-- ADDI and its like: every field used (R94). -/
def immBinary (f : Reg → Src → BitVec 11 → Instr) (d a imm : Nat) (x : List W32) : Except DecErr Instr :=
  outcome (badD d || badS a) false (dst d fun r => src1 a x fun p => f r p (BitVec.ofNat 11 imm))

/-- SHLI and its like: imm11[10:6] must be zero (R94). -/
def immShift (f : Reg → Src → BitVec 6 → Instr) (d a imm : Nat) (x : List W32) : Except DecErr Instr :=
  outcome (badD d || badS a) (imm / 64 != 0) (dst d fun r => src1 a x fun p => f r p (BitVec.ofNat 6 imm))

/-- An instruction whose only field is imm11 (R125, R298). -/
def immOnly (f : BitVec 11 → Instr) (d a imm : Nat) : Except DecErr Instr :=
  outcome false (d != 0 || a != 0) (some (f (BitVec.ofNat 11 imm)))

/-- An instruction with no field (R125). -/
def noField (i : Instr) (d a imm : Nat) : Except DecErr Instr :=
  outcome false (d != 0 || a != 0 || imm != 0) (some i)

/-- LOOP: the step word comes before a's literal word (R25, R136, R137). -/
def decLoop (d a imm : Nat) (x : List W32) : Except DecErr Instr :=
  match x with
  | w :: r => outcome (badS a) (d != 0 || imm / 128 != 0 || !stepWordOk w)
      (src1 a r fun p => .loop p (BitVec.ofNat 7 imm) w)
  | [] => outcome (badS a) (d != 0 || imm / 128 != 0) none

/-- A Form B word by its fields (R18, R38). -/
def decodeB (op d a imm : Nat) (x : List W32) : Except DecErr Instr :=
  match op with
  | 0x00 => immBinary .addi d a imm x
  | 0x01 => immBinary .andi d a imm x
  | 0x02 => immBinary .ori d a imm x
  | 0x03 => immBinary .xori d a imm x
  | 0x04 => immShift .shli d a imm x
  | 0x05 => immShift .shri d a imm x
  | 0x06 => immShift .sari d a imm x
  | 0x07 => outcome (badS a) (d != 0) (src1 a x fun p => .cmpi p (BitVec.ofNat 11 imm))
  | 0x08 => outcome (badD d) (a != 0) (dst d fun r => some (.movi r (BitVec.ofNat 11 imm)))
  | 0x09 => immBinary .movhi d a imm x
  | 0x0A => outcome false (d / 16 != 0 || a != 0) (some (.brc (Cond.ofCode (d % 16)) (BitVec.ofNat 11 imm)))
  | 0x0B => immOnly .jmp d a imm
  | 0x0C => immOnly .call d a imm
  | 0x0D => noField .ret d a imm
  | 0x0E => immOnly .joinat d a imm
  | 0x0F => noField .join d a imm
  | 0x10 => decLoop d a imm x
  | 0x11 => immOnly .winbase d a imm
  | 0x12 => outcome (badD d) (a != 0 || imm / 512 != 0)
      (dst d fun r => some (.curve r (BitVec.ofNat 3 (imm / 64)) (BitVec.ofNat 6 imm)))
  | 0x13 => immOnly .mhint d a imm
  | 0x14 => immOnly .trap d a imm
  | 0x15 => immOnly .brkpt d a imm
  | 0x16 => noField .exit d a imm
  | 0x17 => noField .nop d a imm
  | 0x18 => immBinary .lds d a imm x
  | 0x19 => outcome (badS d || badS a) false (src2 d a x fun p q => .sts p q (BitVec.ofNat 11 imm))
  | 0x1A => outcome (badD d) (a != 0) (dst d fun r => some (.ldf r (BitVec.ofNat 11 imm)))
  | 0x1B => outcome (badS a) (d != 0) (src1 a x fun p => .jmpr p (BitVec.ofNat 11 imm))
  | _ => .error .illegal

/-! ## Form C (R39) -/

/-- LD and LDSTR (R181). -/
def loadC (f : Width → Reg → Src → Src → Instr) (m d a b : Nat) (x : List W32) : Except DecErr Instr :=
  outcome (badD d || badS a || badS b || Nat.ble 6 m) false (dst d fun r => src2 a b x (f (Width.ofCode m) r))

/-- ST and STSTR: d is a source (R181). -/
def storeC (f : Width → Src → Src → Src → Instr) (m d a b : Nat) (x : List W32) : Except DecErr Instr :=
  outcome (badS d || badS a || badS b || Nat.ble 6 m) false (src3 d a b x (f (Width.ofCode m)))

/-- ATOM and ATOM64: b is the observer mask (R187). -/
def atomC (f : AtomOp → Reg → Src → BitVec 7 → Instr) (m d a b : Nat) (x : List W32) : Except DecErr Instr :=
  outcome (badD d || badS a) false (dst d fun r => src1 a x fun p => f (AtomOp.ofCode m) r p (BitVec.ofNat 7 b))

/-- An instruction with a destination and two sources, mod3 zero. -/
def dabC (f : Reg → Src → Src → Instr) (m d a b : Nat) (x : List W32) : Except DecErr Instr :=
  outcome (badD d || badS a || badS b) (m != 0) (dst d fun r => src2 a b x (f r))

/-- An instruction with a destination and one source, mod3 and b zero. -/
def daC (f : Reg → Src → Instr) (m d a b : Nat) (x : List W32) : Except DecErr Instr :=
  outcome (badD d || badS a) (m != 0 || b != 0) (dst d fun r => src1 a x (f r))

/-- An instruction with one source, d, b and mod3 zero. -/
def aC (f : Src → Instr) (m d a b : Nat) (x : List W32) : Except DecErr Instr :=
  outcome (badS a) (m != 0 || d != 0 || b != 0) (src1 a x f)

/-- An instruction with a destination only. -/
def dC (f : Reg → Instr) (m d a b : Nat) : Except DecErr Instr :=
  outcome (badD d) (m != 0 || a != 0 || b != 0) (dst d fun r => some (f r))

/-- An instruction with a flag in mod3[0], a destination and one source (R226, R304, R366). -/
def flagDa (f : Bool → Reg → Src → Instr) (m d a b : Nat) (x : List W32) : Except DecErr Instr :=
  outcome (badD d || badS a) (m / 2 != 0 || b != 0) (dst d fun r => src1 a x (f (flagOf (m % 2)) r))

/-- TRD's qualifier (R172). -/
def TrdQ.ofCode (m : Nat) : TrdQ :=
  match m with
  | 0 => .keep
  | 1 => .take
  | _ => .peek

/-- The code of TRD's qualifier (R172). -/
def TrdQ.code : TrdQ → Nat
  | .keep => 0
  | .take => 1
  | .peek => 2

/-- TWR's qualifier (R172). -/
def TwrQ.ofCode (m : Nat) : TwrQ :=
  match m with
  | 0 => .fill
  | 1 => .put
  | _ => .raw

/-- The code of TWR's qualifier (R172). -/
def TwrQ.code : TwrQ → Nat
  | .fill => 0
  | .put => 1
  | .raw => 2

/-- TALLOC's level (R172). -/
def TileLevel.ofCode (m : Nat) : TileLevel :=
  match m with
  | 0 => .l0
  | 1 => .l1
  | _ => .l2

/-- The code of TALLOC's level (R172). -/
def TileLevel.code : TileLevel → Nat
  | .l0 => 0
  | .l1 => 1
  | .l2 => 2

/-- FENCE's kind (R242). -/
def FenceKind.ofCode (m : Nat) : FenceKind :=
  match m with
  | 0 => .ar
  | 1 => .acq
  | _ => .rel

/-- The code of FENCE's kind (R242). -/
def FenceKind.code : FenceKind → Nat
  | .ar => 0
  | .acq => 1
  | .rel => 2

/-- SETSHAPE's kind (R157). -/
def ReqKind.ofCode (m : Nat) : ReqKind :=
  match m with
  | 0 => .vec
  | 1 => .tile
  | _ => .mat

/-- The code of SETSHAPE's kind (R157). -/
def ReqKind.code : ReqKind → Nat
  | .vec => 0
  | .tile => 1
  | .mat => 2

/-- SETSHAPE's policy (R157). -/
def Pol.ofCode (m : Nat) : Pol :=
  match m with
  | 0 => .fit
  | 1 => .exact
  | _ => .onepass

/-- The code of a policy (R150, R157). -/
def Pol.code : Pol → Nat
  | .fit => 0
  | .exact => 1
  | .onepass => 2

/-- PICK's operation (R262). -/
def PickOp.ofCode (m : Nat) : PickOp :=
  match m with
  | 0 => .set
  | 1 => .clr
  | _ => .emit

/-- The code of PICK's operation (R262). -/
def PickOp.code : PickOp → Nat
  | .set => 0
  | .clr => 1
  | .emit => 2

/-- TLBINV's kind (R321). -/
def TlbK.ofCode (m : Nat) : TlbK :=
  match m with
  | 0 => .page
  | 1 => .range
  | 2 => .ctx
  | _ => .all

/-- The code of TLBINV's kind (R321). -/
def TlbK.code : TlbK → Nat
  | .page => 0
  | .range => 1
  | .ctx => 2
  | .all => 3

/-- DEADRG's kind (R329). -/
def DeadK.ofCode (m : Nat) : DeadK :=
  match m with
  | 0 => .dead
  | 1 => .live
  | _ => .count

/-- The code of DEADRG's kind (R329). -/
def DeadK.code : DeadK → Nat
  | .dead => 0
  | .live => 1
  | .count => 2

/-- MMA's mode (R205). -/
def MmaMode.ofCode (m : Nat) : MmaMode :=
  match m with
  | 0 => .acc
  | _ => .ovw

/-- The code of MMA's mode (R205). -/
def MmaMode.code : MmaMode → Nat
  | .acc => 0
  | .ovw => 1

/-- MMA: the operand word comes first (R25, R205). A d of 126 takes no literal word, since an instruction has at most
three extension words (R25). -/
def decMma (m d a b : Nat) (x : List W32) : Except DecErr Instr :=
  match x with
  | w :: r =>
    let g := flagOf (m / 4)
    let mode := w.toNat / 16384 % 4
    let idx := w.toNat / 128 % 128
    let fmt := w.toNat % 128
    outcome (badS d || badS a || badS b || Nat.ble 2 mode || badS fmt || (g && badS idx))
      (w.toNat / 65536 != 0 || (!g && idx != 0))
      (src2 a b r fun p q => .mma g (Fin.ofNat 4 m) (BitVec.ofNat 7 d) p q (MmaMode.ofCode mode) (BitVec.ofNat 7 idx)
        (BitVec.ofNat 7 fmt))
  | [] => outcome (badS d || badS a || badS b) false none

/-- PICK: d and a are sources, and b with `.b` (R262). -/
def decPick (m d a b : Nat) (x : List W32) : Except DecErr Instr :=
  if Nat.ble 4 m then
    outcome (badS d || badS a || badS b || m % 4 == 3) false
      (src3 d a b x fun p q r => .pick (PickOp.ofCode (m % 4)) p q (some r))
  else
    outcome (badS d || badS a || m % 4 == 3) (b != 0)
      (src2 d a x fun p q => .pick (PickOp.ofCode (m % 4)) p q none)

/-- SCAN: b is a source with `.b` only (R332). -/
def decScan (m d a b : Nat) (x : List W32) : Except DecErr Instr :=
  if Nat.ble 4 m then
    outcome (badS a || badS b) (m % 4 != 0 || d != 0) (src2 a b x fun p q => .scan p (some q))
  else
    outcome (badS a) (m % 4 != 0 || d != 0 || b != 0) (src1 a x fun p => .scan p none)

/-- RDSR: the number stands in the word, or in a scalar a (R300). -/
def decRdsr (m d a b : Nat) (x : List W32) : Except DecErr Instr :=
  if m % 2 == 1 then
    outcome (badD d || badS a) (m / 2 != 0 || b != 0) (dst d fun r => src1 a x fun p => .rdsr r (.ind p))
  else
    outcome (badD d) (m / 2 != 0) (dst d fun r => some (.rdsr r (.imm (BitVec.ofNat 14 (a * 128 + b)))))

/-- WRSR: d is a source (R300). -/
def decWrsr (m d a b : Nat) (x : List W32) : Except DecErr Instr :=
  if m % 2 == 1 then
    outcome (badS d || badS a) (m / 2 != 0 || b != 0) (src2 d a x fun p q => .wrsr p (.ind q))
  else
    outcome (badS d) (m / 2 != 0) (src1 d x fun p => .wrsr p (.imm (BitVec.ofNat 14 (a * 128 + b))))

/-- A Form C word by its fields (R17, R39). -/
def decodeC (op m d a b : Nat) (x : List W32) : Except DecErr Instr :=
  match op with
  | 0x00 => loadC .ld m d a b x
  | 0x01 => storeC .st m d a b x
  | 0x02 => outcome (badD d || badS a || Nat.ble 6 m) false
      (dst d fun r => src1 a x fun p => .ldacq (Width.ofCode m) r p (BitVec.ofNat 7 b))
  | 0x03 => outcome (badS d || badS a || Nat.ble 6 m) false
      (src2 d a x fun p q => .strel (Width.ofCode m) p q (BitVec.ofNat 7 b))
  | 0x04 => loadC .ldstr m d a b x
  | 0x05 => storeC .ststr m d a b x
  | 0x06 => atomC .atom m d a b x
  | 0x07 => atomC .atom64 m d a b x
  | 0x08 => outcome (badS a || badS b || Nat.ble 2 m) (d != 0) (src2 a b x (.pref (flagOf m)))
  | 0x09 => outcome (m % 4 == 3) (m / 4 != 0 || d != 0 || a != 0)
      (some (.fence (FenceKind.ofCode (m % 4)) (BitVec.ofNat 7 b)))
  | 0x0A => outcome (Nat.ble 2 m) (d != 0 || a != 0) (some (.qfence (flagOf m) (BitVec.ofNat 7 b)))
  | 0x0B => outcome (badD d || m % 4 == 3) (a != 0 || b / 4 != 0)
      (dst d fun r => some (.talloc (flagOf (m / 4)) (TileLevel.ofCode (m % 4)) r (Fin.ofNat 4 b)))
  | 0x0C => aC .tfree m d a b x
  | 0x0D => outcome (badD d || badS a || badS b || m % 4 == 3) false
      (dst d fun r => src2 a b x (.trd (flagOf (m / 4)) (TrdQ.ofCode (m % 4)) r))
  | 0x0E => outcome (badS d || badS a || badS b || m % 4 == 3) false
      (src3 d a b x (.twr (flagOf (m / 4)) (TwrQ.ofCode (m % 4))))
  | 0x0F => daC .tstat m d a b x
  | 0x10 => outcome (badS a || badS b) (d != 0) (src2 a b x (.copy (flagOf (m / 4)) (Fin.ofNat 4 m)))
  | 0x11 => outcome (badD d || badS a || m % 4 == 3 || b / 4 % 4 == 3) (m / 4 != 0 || b / 16 != 0)
      (dst d fun r => src1 a x fun p =>
        .setshape (ReqKind.ofCode (m % 4)) r p (Pol.ofCode (b / 4 % 4)) (Fin.ofNat 4 b))
  | 0x12 => outcome (badD d) (m != 0 || a != 0 || b / 4 != 0) (dst d fun r => some (.rdshape r (Fin.ofNat 4 b)))
  | 0x13 => aC .gang m d a b x
  | 0x14 => decMma m d a b x
  | 0x15 => outcome (badS d || badS a || badS b) false (src3 d a b x (.mdrain (flagOf (m / 4)) (Fin.ofNat 4 m)))
  | 0x16 => outcome (badS a) (m / 4 != 0 || d != 0 || b != 0) (src1 a x (.mzero (Fin.ofNat 4 m)))
  | 0x17 => dabC .binit m d a b x
  | 0x18 => flagDa .barv m d a b x
  | 0x19 => outcome (badS a || badS b) (m != 0 || d != 0) (src2 a b x .bexp)
  | 0x1A => dabC .bwait m d a b x
  | 0x1B => dabC .btest m d a b x
  | 0x1C => flagDa .bstat m d a b x
  | 0x1D => daC .enq m d a b x
  | 0x1E => aC .cont m d a b x
  | 0x1F => daC .pusht m d a b x
  | 0x20 => dC .popt m d a b
  | 0x21 => daC .steal m d a b x
  | 0x22 => decPick m d a b x
  | 0x23 => decScan m d a b x
  | 0x24 => decRdsr m d a b x
  | 0x25 => decWrsr m d a b x
  | 0x26 => flagDa .dbgrd m d a b x
  | 0x27 => dabC .dbgwr m d a b x
  | 0x28 => outcome (badD d || badS a || Nat.ble 2 m) (b != 0) (dst d fun r => src1 a x (.tresume (flagOf m) r))
  | 0x29 => outcome (badS a || badS b) (m / 2 != 0 || d != 0) (src2 a b x (.evsel (flagOf (m % 2))))
  | 0x2A => flagDa .evrd m d a b x
  | 0x2B => dabC .ckpt m d a b x
  | 0x2C => outcome (badS d || badS a || badS b || Nat.ble 4 m) false (src3 d a b x (.tlbinv (TlbK.ofCode m)))
  | 0x2D => outcome (badD d || badS a || badS b || Nat.ble 3 m) false (dst d fun r => src2 a b x (.deadrg (DeadK.ofCode m) r))
  | 0x2E => dC .rdcurve m d a b
  | 0x2F => aC .binv m d a b x
  | _ => .error .illegal

/-! ## The decoder -/

/-- A Form H word (R19). -/
def decodeH (w : Nat) : Instr :=
  .clauseStart
    { wait := BitVec.ofNat 12 (bits w 29 18), setA := BitVec.ofNat 4 (bits w 17 14), setB := BitVec.ofNat 4 (bits w 13 10),
      len := BitVec.ofNat 4 (bits w 9 6), bt := BitVec.ofNat 2 (bits w 5 4), hint := BitVec.ofNat 2 (bits w 3 2),
      rsv := BitVec.ofNat 2 (bits w 1 0) }

/-- The instruction that starts with a word, whose extension words are the first of those that follow it. -/
def decodeWord (w : Nat) (x : List W32) : Except DecErr Instr :=
  match bits w 31 30 with
  | 0 => decodeA (bits w 29 24) (bits w 23 21) (bits w 20 14) (bits w 13 7) (bits w 6 0) x
  | 1 => decodeB (bits w 29 25) (bits w 24 18) (bits w 17 11) (bits w 10 0) x
  | 2 => decodeC (bits w 29 24) (bits w 23 21) (bits w 20 14) (bits w 13 7) (bits w 6 0) x
  | _ => .ok (decodeH w)

/-- The instruction at the head of a list of code words. -/
def decode : List W32 → Except DecErr Instr
  | [] => .error .short
  | w :: x => decodeWord w.toNat x

/-! ## The encoder -/

/-- A Form A or Form C word (R17). -/
def asmAC (cls op m d a b : Nat) : W32 :=
  BitVec.ofNat 32 (cls * 2 ^ 30 + op * 2 ^ 24 + m * 2 ^ 21 + d * 2 ^ 14 + a * 2 ^ 7 + b)

/-- A Form B word (R18). -/
def asmB (op d a imm : Nat) : W32 := BitVec.ofNat 32 (2 ^ 30 + op * 2 ^ 25 + d * 2 ^ 18 + a * 2 ^ 11 + imm)

/-- mod3 of an integer instruction (R37). -/
def IntMod.code (m : IntMod) : Nat := b2n m.cc * 4 + m.ty.code

/-- mod3 of a floating instruction (R97). -/
def FMod.code (m : FMod) : Nat := b2n m.cc * 4 + m.ty.code

/-- A Form A instruction with a destination and two sources. -/
def encA (op m : Nat) (d : Reg) (a b : Src) : List W32 := asmAC 0 op m d.code a.code b.code :: (a.lits ++ b.lits)

/-- A Form A instruction with a destination and one source. -/
def encA1 (op m : Nat) (d : Reg) (a : Src) (b : Nat) : List W32 := asmAC 0 op m d.code a.code b :: a.lits

/-- A Form A instruction with no destination. -/
def encA0 (op m : Nat) (a b : Src) : List W32 := asmAC 0 op m 0 a.code b.code :: (a.lits ++ b.lits)

/-- A Form B instruction with a destination, a source and an immediate. -/
def encB (op : Nat) (d : Reg) (a : Src) (imm : Nat) : List W32 := asmB op d.code a.code imm :: a.lits

/-- A Form C instruction with a destination and two sources. -/
def encC (op m : Nat) (d : Reg) (a b : Src) : List W32 := asmAC 2 op m d.code a.code b.code :: (a.lits ++ b.lits)

/-- A Form C instruction with a destination and one source. -/
def encC1 (op m : Nat) (d : Reg) (a : Src) (b : Nat) : List W32 := asmAC 2 op m d.code a.code b :: a.lits

/-- A Form C instruction whose d is a source. -/
def encC3 (op m : Nat) (d a b : Src) : List W32 :=
  asmAC 2 op m d.code a.code b.code :: (d.lits ++ (a.lits ++ b.lits))

/-- The words of an instruction, literal and operand words included (R25); a step that is no instruction has none. -/
def encode : Instr → List W32
  | .add m d a b => encA 0x00 m.code d a b
  | .sub m d a b => encA 0x01 m.code d a b
  | .addc m d a b => encA 0x02 m.code d a b
  | .subb m d a b => encA 0x03 m.code d a b
  | .mul m d a b => encA 0x04 m.code d a b
  | .mulh m d a b => encA 0x05 m.code d a b
  | .mad m d a b => encA 0x06 m.code d a b
  | .div m d a b => encA 0x07 m.code d a b
  | .rem m d a b => encA 0x08 m.code d a b
  | .min m d a b => encA 0x09 m.code d a b
  | .max m d a b => encA 0x0A m.code d a b
  | .absd m d a b => encA 0x0B m.code d a b
  | .and m d a b => encA 0x0C m.code d a b
  | .or m d a b => encA 0x0D m.code d a b
  | .xor m d a b => encA 0x0E m.code d a b
  | .andn m d a b => encA 0x0F m.code d a b
  | .shl m d a b => encA 0x10 m.code d a b
  | .shr m d a b => encA 0x11 m.code d a b
  | .sar m d a b => encA 0x12 m.code d a b
  | .rot m d a b => encA 0x13 m.code d a b
  | .bfe m d a b => encA 0x14 m.code d a b
  | .bfi m d a b => encA 0x15 m.code d a b
  | .popc m d a => encA1 0x16 m.code d a 0
  | .clz m d a => encA1 0x17 m.code d a 0
  | .brev m d a => encA1 0x18 m.code d a 0
  | .cmp t a b => encA0 0x19 t.code a b
  | .sel c d a b => encA 0x1A c.code d a b
  | .mov m d a => encA1 0x1B m.code d a 0
  | .ext m d a b => encA 0x1C m.code d a b
  | .adds m d a b => encA 0x1D m.code d a b
  | .subs m d a b => encA 0x1E m.code d a b
  | .fadd m d a b => encA 0x20 m.code d a b
  | .fsub m d a b => encA 0x21 m.code d a b
  | .fmul m d a b => encA 0x22 m.code d a b
  | .ffma m d a b => encA 0x23 m.code d a b
  | .fmin m d a b => encA 0x24 m.code d a b
  | .fmax m d a b => encA 0x25 m.code d a b
  | .fcmp t a b => encA0 0x26 t.code a b
  | .fdiv m d a b => encA 0x27 m.code d a b
  | .fsqrt m d a => encA1 0x28 m.code d a 0
  | .fsfu f d a => encA1 0x29 f.code d a 0
  | .fclass t d a => encA1 0x2A t.code d a 0
  | .cvt r c d a => encA1 0x2B r.code d a (c.val * 8)
  | .dadd cc d a b => encA 0x2C (b2n cc * 4) d a b
  | .dmul cc d a b => encA 0x2D (b2n cc * 4) d a b
  | .dfma cc d a b => encA 0x2E (b2n cc * 4) d a b
  | .dcmp a b => encA0 0x2F 0 a b
  | .quant t d a b => encA 0x30 t.code d a b
  | .deq t d a b => encA 0x31 t.code d a b
  | .pack d a => encA1 0x32 0 d a 0
  | .unpk d a => encA1 0x33 0 d a 0
  | .idot4 k d a b => encA 0x34 k.code d a b
  | .fdot2 k d a b => encA 0x35 k.code d a b
  | .shfl m d a b => encA 0x38 m.code d a b
  | .vote .any d a => encA1 0x39 0 d a 0
  | .vote .all d a => encA1 0x39 1 d a 0
  | .vote (.ballot b) d a => encA 0x39 2 d a b
  | .vote .count d a => encA1 0x39 3 d a 0
  | .vote .eq d a => encA1 0x39 4 d a 0
  | .rdfirst d a => encA1 0x3A 0 d a 0
  | .rdlane d a b => encA 0x3B 0 d a b
  | .wrlane d a b => encA 0x3C 0 d a b
  | .ccmovRd d => [asmAC 0 0x3D 0 d.code 0 0]
  | .ccmovWr a => asmAC 0 0x3D 1 0 a.code 0 :: a.lits
  | .addi d a imm => encB 0x00 d a imm.toNat
  | .andi d a imm => encB 0x01 d a imm.toNat
  | .ori d a imm => encB 0x02 d a imm.toNat
  | .xori d a imm => encB 0x03 d a imm.toNat
  | .shli d a sh => encB 0x04 d a sh.toNat
  | .shri d a sh => encB 0x05 d a sh.toNat
  | .sari d a sh => encB 0x06 d a sh.toNat
  | .cmpi a imm => asmB 0x07 0 a.code imm.toNat :: a.lits
  | .movi d imm => [asmB 0x08 d.code 0 imm.toNat]
  | .movhi d a h => encB 0x09 d a h.toNat
  | .brc c off => [asmB 0x0A c.code 0 off.toNat]
  | .jmp off => [asmB 0x0B 0 0 off.toNat]
  | .call off => [asmB 0x0C 0 0 off.toNat]
  | .ret => [asmB 0x0D 0 0 0]
  | .joinat off => [asmB 0x0E 0 0 off.toNat]
  | .join => [asmB 0x0F 0 0 0]
  | .loop a len w => asmB 0x10 0 a.code len.toNat :: w :: a.lits
  | .winbase k => [asmB 0x11 0 0 k.toNat]
  | .curve d p acc => [asmB 0x12 d.code 0 (p.toNat * 64 + acc.toNat)]
  | .mhint n => [asmB 0x13 0 0 n.toNat]
  | .trap n => [asmB 0x14 0 0 n.toNat]
  | .brkpt n => [asmB 0x15 0 0 n.toNat]
  | .exit => [asmB 0x16 0 0 0]
  | .nop => [asmB 0x17 0 0 0]
  | .lds d a imm => encB 0x18 d a imm.toNat
  | .sts x a imm => asmB 0x19 x.code a.code imm.toNat :: (x.lits ++ a.lits)
  | .ldf d imm => [asmB 0x1A d.code 0 imm.toNat]
  | .jmpr a off => asmB 0x1B 0 a.code off.toNat :: a.lits
  | .ld w d a b => encC 0x00 w.code d a b
  | .st w x a b => encC3 0x01 w.code x a b
  | .ldacq w d a obs => encC1 0x02 w.code d a obs.toNat
  | .strel w x a obs => asmAC 2 0x03 w.code x.code a.code obs.toNat :: (x.lits ++ a.lits)
  | .ldstr w d a b => encC 0x04 w.code d a b
  | .ststr w x a b => encC3 0x05 w.code x a b
  | .atom o d a obs => encC1 0x06 o.code d a obs.toNat
  | .atom64 o d a obs => encC1 0x07 o.code d a obs.toNat
  | .pref k a b => asmAC 2 0x08 (b2n k) 0 a.code b.code :: (a.lits ++ b.lits)
  | .fence k obs => [asmAC 2 0x09 k.code 0 0 obs.toNat]
  | .qfence k qm => [asmAC 2 0x0A (b2n k) 0 0 qm.toNat]
  | .talloc z l d sh => [asmAC 2 0x0B (b2n z * 4 + l.code) d.code 0 sh.val]
  | .tfree a => asmAC 2 0x0C 0 0 a.code 0 :: a.lits
  | .trd w q d a b => encC 0x0D (b2n w * 4 + q.code) d a b
  | .twr w q x a b => encC3 0x0E (b2n w * 4 + q.code) x a b
  | .tstat d a => encC1 0x0F 0 d a 0
  | .copy xf cq a b => asmAC 2 0x10 (b2n xf * 4 + cq.val) 0 a.code b.code :: (a.lits ++ b.lits)
  | .setshape k d a p sh => encC1 0x11 k.code d a (p.code * 4 + sh.val)
  | .rdshape d sh => [asmAC 2 0x12 0 d.code 0 sh.val]
  | .gang a => asmAC 2 0x13 0 0 a.code 0 :: a.lits
  | .mma g sh d a b mode idx fmt =>
      asmAC 2 0x14 (b2n g * 4 + sh.val) d.toNat a.code b.code ::
        BitVec.ofNat 32 (mode.code * 16384 + idx.toNat * 128 + fmt.toNat) :: (a.lits ++ b.lits)
  | .mdrain add sh d a b => encC3 0x15 (b2n add * 4 + sh.val) d a b
  | .mzero sh a => asmAC 2 0x16 sh.val 0 a.code 0 :: a.lits
  | .binit d a b => encC 0x17 0 d a b
  | .barv w d a => encC1 0x18 (b2n w) d a 0
  | .bexp a b => asmAC 2 0x19 0 0 a.code b.code :: (a.lits ++ b.lits)
  | .bwait d a b => encC 0x1A 0 d a b
  | .btest d a b => encC 0x1B 0 d a b
  | .bstat h d a => encC1 0x1C (b2n h) d a 0
  | .enq d a => encC1 0x1D 0 d a 0
  | .cont a => asmAC 2 0x1E 0 0 a.code 0 :: a.lits
  | .pusht d a => encC1 0x1F 0 d a 0
  | .popt d => [asmAC 2 0x20 0 d.code 0 0]
  | .steal d a => encC1 0x21 0 d a 0
  | .pick o d a (some b) => encC3 0x22 (4 + o.code) d a b
  | .pick o d a none => asmAC 2 0x22 o.code d.code a.code 0 :: (d.lits ++ a.lits)
  | .scan a (some b) => asmAC 2 0x23 4 0 a.code b.code :: (a.lits ++ b.lits)
  | .scan a none => asmAC 2 0x23 0 0 a.code 0 :: a.lits
  | .rdsr d (.imm n) => [asmAC 2 0x24 0 d.code (n.toNat / 128) (n.toNat % 128)]
  | .rdsr d (.ind a) => encC1 0x24 1 d a 0
  | .wrsr x (.imm n) => asmAC 2 0x25 0 x.code (n.toNat / 128) (n.toNat % 128) :: x.lits
  | .wrsr x (.ind a) => asmAC 2 0x25 1 x.code a.code 0 :: (x.lits ++ a.lits)
  | .dbgrd p d a => encC1 0x26 (b2n p) d a 0
  | .dbgwr d a b => encC 0x27 0 d a b
  | .tresume k d a => encC1 0x28 (b2n k) d a 0
  | .evsel k a b => asmAC 2 0x29 (b2n k) 0 a.code b.code :: (a.lits ++ b.lits)
  | .evrd k d a => encC1 0x2A (b2n k) d a 0
  | .ckpt d a b => encC 0x2B 0 d a b
  | .tlbinv k d a b => encC3 0x2C k.code d a b
  | .deadrg k d a b => encC 0x2D k.code d a b
  | .rdcurve d => [asmAC 2 0x2E 0 d.code 0 0]
  | .binv a => asmAC 2 0x2F 0 0 a.code 0 :: a.lits
  | .clauseStart h =>
      [BitVec.ofNat 32 (3 * 2 ^ 30 + h.wait.toNat * 2 ^ 18 + h.setA.toNat * 2 ^ 14 + h.setB.toNat * 2 ^ 10 +
        h.len.toNat * 2 ^ 6 + h.bt.toNat * 2 ^ 4 + h.hint.toNat * 2 ^ 2 + h.rsv.toNat)]
  | _ => []

/-- The instruction has words: it is a row of the table that an agent executes. -/
def Instr.encoded (i : Instr) : Bool := !(encode i).isEmpty

/-! ## How many words an instruction takes, by its first word alone (R24, R25) -/

/-- The source fields d, a and b of a Form A opcode. -/
def sourcesA (op m : Nat) : Bool × Bool × Bool :=
  match op with
  | 0x1F | 0x36 | 0x37 | 0x3E | 0x3F => (false, false, false)
  | 0x16 | 0x17 | 0x18 | 0x1B | 0x28 | 0x29 | 0x2A | 0x2B | 0x32 | 0x33 | 0x3A => (false, true, false)
  | 0x39 => (false, true, m == 2)
  | 0x3D => (false, m == 1, false)
  | _ => (false, true, true)

/-- The source fields d and a of a Form B opcode. -/
def sourcesB (op : Nat) : Bool × Bool × Bool :=
  match op with
  | 0x00 | 0x01 | 0x02 | 0x03 | 0x04 | 0x05 | 0x06 | 0x07 | 0x09 | 0x10 | 0x18 | 0x1B => (false, true, false)
  | 0x19 => (true, true, false)
  | _ => (false, false, false)

/-- The source fields d, a and b of a Form C opcode. -/
def sourcesC (op m : Nat) : Bool × Bool × Bool :=
  match op with
  | 0x00 | 0x04 | 0x08 | 0x0D | 0x10 | 0x14 | 0x17 | 0x19 | 0x1A | 0x1B | 0x27 | 0x29 | 0x2B | 0x2D => (false, true, true)
  | 0x01 | 0x05 | 0x0E | 0x15 | 0x2C => (true, true, true)
  | 0x02 | 0x06 | 0x07 | 0x0C | 0x0F | 0x11 | 0x13 | 0x16 | 0x18 | 0x1C | 0x1D | 0x1E | 0x1F | 0x21 | 0x26 | 0x28 | 0x2A
  | 0x2F => (false, true, false)
  | 0x03 => (true, true, false)
  | 0x22 => (true, true, Nat.ble 4 m)
  | 0x23 => (false, true, Nat.ble 4 m)
  | 0x24 => (false, m % 2 == 1, false)
  | 0x25 => (true, m % 2 == 1, false)
  | _ => (false, false, false)

/-- One word for each source field that holds 126. -/
def litCount (f : Bool × Bool × Bool) (d a b : Nat) : Nat :=
  b2n (f.1 && d == 126) + b2n (f.2.1 && a == 126) + b2n (f.2.2 && b == 126)

/-- The words of the instruction that starts with a word: the word, the operand word of MMA or the step word of LOOP, and
its literal words (R25). A header takes one. -/
def wordSpan (x : W32) : Nat :=
  let w := x.toNat
  match bits w 31 30 with
  | 0 => 1 + litCount (sourcesA (bits w 29 24) (bits w 23 21)) (bits w 20 14) (bits w 13 7) (bits w 6 0)
  | 1 => 1 + b2n (bits w 29 25 == 0x10) + litCount (sourcesB (bits w 29 25)) (bits w 24 18) (bits w 17 11) 0
  | 2 => 1 + b2n (bits w 29 24 == 0x14) +
      litCount (sourcesC (bits w 29 24) (bits w 23 21)) (bits w 20 14) (bits w 13 7) (bits w 6 0)
  | _ => 1

/-- How many words an instruction takes. -/
def Instr.words (i : Instr) : Nat := (encode i).length

/-! ## The decoder on bytes -/

/-- A little-endian word of four bytes (R16). -/
def wordOfBytes (b0 b1 b2 b3 : Byte) : W32 :=
  BitVec.ofNat 32 (b0.toNat + b1.toNat * 2 ^ 8 + b2.toNat * 2 ^ 16 + b3.toNat * 2 ^ 24)

/-- The whole words of a byte string. -/
def wordsOfBytes : List Byte → List W32
  | b0 :: b1 :: b2 :: b3 :: r => wordOfBytes b0 b1 b2 b3 :: wordsOfBytes r
  | _ => []

/-- The bytes of a code word in memory (R16). -/
def bytesOfWord (w : W32) : List Byte :=
  [BitVec.ofNat 8 w.toNat, BitVec.ofNat 8 (w.toNat / 2 ^ 8), BitVec.ofNat 8 (w.toNat / 2 ^ 16), BitVec.ofNat 8 (w.toNat / 2 ^ 24)]

/-- The four words of the longest instruction, numbered as the opcode table numbers bits: word k holds bits
`[32k+31:32k]`, and the bits from nbits on are zero. -/
def tableWords (nbits w : Nat) : List W32 :=
  let v := w % 2 ^ nbits
  [BitVec.ofNat 32 v, BitVec.ofNat 32 (v / 2 ^ 32), BitVec.ofNat 32 (v / 2 ^ 64), BitVec.ofNat 32 (v / 2 ^ 96)]

/-- The instruction that the decoder reads from the bits of an opcode-table row, laid out as bytes in memory. -/
def decodeTableWord (nbits w : Nat) : Option Instr :=
  match decode (wordsOfBytes ((tableWords nbits w).flatMap bytesOfWord)) with
  | .ok i => some i
  | .error _ => none

end Sys2Proof
end

