-- ==== Sys2Proof/Config.lean ====
section
/-!
DEFINITION. What an implementation fixes: the figures of the curve points (R60) and of the core (R7), and the FREE VALUES,
which the spec leaves open. A free value is a constant with no body: nothing can be proved of what it is, so a claim
about the machine is true whatever it is. Log entries 6, 9, 10, 15, 16 and 27 name each of them.
-/
namespace Sys2Proof.Config

/-! ## Free values -/

/-- A result of FSFU that R104 does not give exactly. R103: the same bits for the same input at every point and on both
classes, so it is a function of the function and the input alone (log entry 15). -/
opaque fsfu : Sfu → W32 → W32

/-- Which of the allowed outcomes occurs, where the spec allows several and no step's argument says it: by the count of
steps taken so far and the number of the choice within the step (log entry 6). -/
opaque choice : Nat → Nat → Nat

/-- A number that the spec gives no value for, by the count of steps taken so far and its number within the step (log entry 6). -/
opaque value : Nat → Nat → W64

/-- The address at which the residual of a decant cache entry stands (R287 RPC; log entry 9). -/
opaque residualBase : Nat → W64

/-- The SHA-384 digest (R273, R286; the spec names the function and does not define it, log entry 16). -/
opaque sha384 : List Byte → BitVec 384

/-- Whether an ECDSA P-384 signature verifies: the key, the digest, r and s (R273; log entry 16). -/
opaque ecdsaOk : Nat → BitVec 384 → List Byte → List Byte → Bool

/-- The public keys that a SEC image carries for the other images, whose format R367 leaves open (log entry 16). -/
opaque imageKeys : List Byte → List Nat

/-- The OP of a message, by its place among those of the model: R360 gives no numbers (log entry 29). -/
opaque opCode : Nat → BitVec 16

/-- The clock of the firmware cores in MHz, which the spec does not give (log entry 29). -/
opaque fwMhz : Nat

/-- The payload of a request's flit, whose format R335 leaves internal (log entry 27). -/
opaque flitPayload : Nat → Nat → BitVec 1920

/-- What an SPDM response carries beyond its name (R369; log entry 16). -/
opaque spdmBody : Nat → List W64

/-! ## The curve table (R60) -/

/-- Lanes per pass at a point, for class F or class T. -/
def pw (cp : Nat) (classT : Bool) : Nat :=
  match cp with
  | 0 => 16
  | 1 => 32
  | 2 => 64
  | 3 => 128
  | 4 => if classT then 144 else 192
  | _ => if classT then 192 else 256

/-- The clock in MHz (R60, R67). -/
def mhz (cp : Nat) : Nat :=
  match cp with
  | 0 => 2600
  | 1 => 2200
  | 2 => 1600
  | 3 => 1100
  | 4 => 800
  | _ => 600

/-- Native MMA rows. -/
def natM (cp : Nat) : Nat :=
  match cp with
  | 0 => 32
  | 1 | 2 | 3 => 64
  | 4 => 96
  | _ => 128

/-- Native MMA columns. -/
def natN (cp : Nat) (classT : Bool) : Nat :=
  match cp with
  | 0 => 64
  | 1 => if classT then 48 else 64
  | 2 => if classT then 72 else 96
  | _ => if classT then 96 else 128

/-- The ALU latency in cycles. -/
def aluLat (cp : Nat) : Nat :=
  match cp with
  | 0 | 1 => 4
  | 2 | 3 => 3
  | _ => 2

/-- The TRD latency in cycles. -/
def trdLat (cp : Nat) : Nat :=
  match cp with
  | 0 => 14
  | 1 => 12
  | 2 => 10
  | 3 => 8
  | 4 => 6
  | _ => 5

/-- The tier-1 load latency in cycles. -/
def loadLat (cp : Nat) : Nat :=
  match cp with
  | 0 => 1560
  | 1 => 1320
  | 2 => 960
  | 3 => 660
  | 4 => 480
  | _ => 360

/-! ## Sizes (R5, R7, R8, R10) -/

def coresPerDie : Nat := 48
def nCores : Nat := 384
def nDies : Nat := 8
def slotsPerBank : Nat := 16
def groupsPerBank : Nat := 4
def regFileBytes : Nat := 1048576
def l0Bytes : Nat := 1048576
def l1Bytes : Nat := 262144
def poolBytes : Nat := 67108864
def barEntries : Nat := 2048
def copyLimit : Nat := 32
def dequeLimit : Nat := 64
def mailboxLimit : Nat := 8
def reserveEntries : Nat := 384
def homeQueueLimit : Nat := 256
def decantBytes : Nat := 8388608
def portWindow : Nat := 64
def sendWindow : Nat := 32

end Sys2Proof.Config
end

