-- ==== Sys2Proof/Machine/State.lean ====
section
/-!
DEFINITION. The state of the machine: everything the spec gives the Z384, as plain data. Each object of the spec (team,
group, tile, barrier, queue, context, page, link, firmware) has its record; objects that come and go stand in
association lists under numbers of the model's own. A register file, a condition-code array, a flag set and a memory
are lists of (key, value) pairs in which an unlisted key reads zero (Sys2Proof/Machine/Sparse.lean keeps the canonical form).
-/
namespace Sys2Proof.Machine

/-! ## Small types -/

/-- The privilege levels of R41. -/
inductive Level where
  | program | handler | system
  deriving DecidableEq, Repr

/-- A party: a team, the control thread of a context on a core (R294), a requester of the host (R250), or a party in a peer
package (R249). The first two execute instructions. -/
inductive Agent where
  | none
  | team (tid : Nat)
  | ctl (core ctx : Nat)
  | host (req : Nat)
  | peer (pkg party : Nat)
  deriving DecidableEq, Repr

/-- What a pending memory operation does at its home. -/
inductive PendKind where
  | load (w : Width)
  | store
  | atomic (o : AtomOp) (wide : Bool)
  | trd (wide : Bool)
  | addOn (int : Bool)
  | drain
  deriving DecidableEq, Repr

/-- A request of the host or of a peer to this package's memory (R249, R250, R342): a read, write, atomic or add-on-store of n bytes.
`ordered` is a posted write with Relaxed Ordering clear, or a peer's STREL or write after a FENCE `.rel`; `obs` is the mask of the
latter. -/
structure OutReq where
  ag      : Agent
  kind    : PendKind
  addr    : Nat
  n       : Nat
  x       : W64
  y       : W64
  ordered : Bool
  obs     : BitVec 7
  deriving DecidableEq, Repr

/-- One entry of the schedule that a state carries: a step of an engine or of the outside, a change of the team that issues, or the
passing of n cycles on a core; and what the outside does that is no step of the opcode table: a request of the host or a peer, an
uncorrectable error that arises in a line of device memory (R326), units that the MEM firmware frees to another owner (R328), microseconds
that pass and a firmware core's heartbeat (R361), the ring of R362 named and read by the host, PTM switched, and the host's aperture of
device memory set (R342). -/
inductive Turn where
  | event (i : Instr)
  | turn (a : Agent)
  | pass (core n : Nat)
  | outside (r : OutReq)
  | decay (line : Nat)
  | elapse (us : Nat)
  | beat (fw : Nat)
  | nameRing (base size : Nat)
  | takeRing (n : Nat)
  | ptm (on : Bool)
  | free (lo hi : Nat)
  | aperture (base gib : Nat)
  deriving DecidableEq, Repr

/-- A place in code: a virtual address, or a byte offset in the residual of a decant cache entry (R283). -/
inductive Loc where
  | code (a : W64)
  | resid (k off : Nat)
  deriving DecidableEq, Repr

/-- The trap causes of R35. -/
inductive Cause where
  | illegal | reservedField | emulated | operand | window | stack | shape | shapeStale | formatDiverge | gang
  | tile | page | fetch | protect | align | barrierTimeout | barrierScope | queue | brk | trap | uncorrectable
  | redundancy | priv
  deriving DecidableEq, Repr

/-- The states of a team (R115). -/
inductive TeamSt where
  | carved | ready | waiting | parked | stopped | draining | retired
  deriving DecidableEq, Repr

/-- The kinds of token (R123, R124). -/
inductive TokKind where
  | empty | join | path | ret | trap
  deriving DecidableEq, Repr

/-- A token of the reconvergence stack or of the trap slot (R123). -/
structure Token where
  kind : TokKind
  pc   : Loc
  mask : LaneMask
  deriving DecidableEq, Repr

/-- The kinds of shape (R149). -/
inductive ShapeKind where
  | none | vec | tile | mat
  deriving DecidableEq, Repr

/-- A shape register (R149, R150). -/
structure Shape where
  kind  : ShapeKind
  pol   : Pol
  short : Bool
  stale : Bool
  clt   : Bool
  cp    : Nat
  gsz   : Nat
  d0    : Nat
  d1    : Nat
  d2    : Nat
  deriving DecidableEq, Repr

/-- The loop state (R140) and the loop buffer that the body was loaded into (R138). -/
structure LoopSt where
  start : Loc
  len   : Nat
  stepw : W32
  c     : Nat
  p     : Nat
  buf   : List W32
  deriving DecidableEq, Repr

/-- The clause context (R398) with the header that branch offsets count from (R31) and the clause's end.
`inside` says that the next word stands inside the clause and need not be a header; `brk` holds the breakpoint registers
as they were when the clause started (R299). -/
structure ClauseCtx where
  hdr    : Option Loc
  fin    : Option Loc
  setA   : Nat
  setB   : Nat
  issued : Nat
  inside : Bool
  brk    : List (Nat × W64)
  deriving DecidableEq, Repr

/-- Which barrier entry is meant (R217): a group id, or the shared entry of that number in `State.bars`. -/
inductive BarRef where
  | group (gid id : Nat)
  | shared (k : Nat)
  deriving DecidableEq, Repr

/-- What a team that is not able to issue waits for (R115), and what it needs to go on. `used` holds the cycles that a wait at a
commit has counted while its count stands still (R313); `res` the status that a completion gave a barrier wait (R230). -/
inductive Wait where
  | none
  | clause (h : Header) (long : Nat)
  | curve (d : Reg) (p acc : Nat)
  | setshape (i : Instr)
  | barrier (b : BarRef) (phase n : Nat) (d : Reg) (res : Option Nat)
  | granule (i : Instr) (tile : Nat)
  | rendezvous (i : Instr)
  | copyStall (i : Instr)
  | fence (k : FenceKind) (obs : BitVec 7) (ops : List Nat)
  | order (ops : List Nat)
  | qfence (ops : List Nat)
  | tlbinv (i : Instr) (ops : List Nat) (removed : Bool)
  | load (op n : Nat)
  | emul (i : Instr) (lanes : LaneMask)
  | commit (i : Instr) (used : Option Nat)
  | ckpt (n : Nat)
  deriving DecidableEq, Repr

/-- An error that has arrived for a team and is not yet delivered (R297, R327). -/
structure ErrRec where
  cause : Cause
  flag  : Option Nat
  mask  : LaneMask
  addr  : W64
  oppc  : W64
  deriving DecidableEq, Repr

/-- The trap with which a team stopped (R293, R295). `after` says that TRESUME continues at the word after (R298), `skip`
that it passes a registered breakpoint once (R299), `store` that it replays a store's faulting lanes (R180), `late` that it
was delivered from an operation issued before (R62, R327), `atFw` that the MEM firmware has it (R293). -/
structure TrapRec where
  cause : Cause
  after : Bool
  skip  : Bool
  store : Bool
  pc    : Loc
  addr  : W64
  info  : Nat
  count : Nat
  oppc  : W64
  diag  : List W64
  pend  : Option Cause
  ovf   : Bool
  late  : Bool
  atFw  : Bool
  deriving DecidableEq, Repr

/-- Where an access goes once it is translated (R10, R320, R337): device memory, host memory, a peer (its window's ports, and
2^52 × the peer's package number + the remote address), a device register, or a tile. -/
inductive Target where
  | dev (pa : Nat)
  | host (a : Nat)
  | peer (ports key : Nat)
  | reg (pa : Nat)
  | tile (t off : Nat)
  deriving DecidableEq, Repr

/-- A write that a REDUNDANT team holds at its home (R312): the number of the operation in issue order, and the write. -/
structure HeldWrite where
  seq   : Nat
  va    : Nat
  tgt   : Target
  bytes : List Byte
  deriving DecidableEq, Repr

/-- A release (R240): its mask, the party and where it stood (R239), and the operations that happen before it, itself included. -/
structure Release where
  mask : BitVec 7
  who  : Agent
  gid  : Nat
  die  : Nat
  core : Nat
  set  : List Nat
  deriving DecidableEq, Repr

/-- A write performed in memory (R237): when, by the clock of `State.clock`; where; the bytes that stood there before; the operation and
the party; whether it is strong (R243) or an atomic; and the releases that a read of it acquires (R240). -/
structure PastWrite where
  time   : Nat
  space  : Nat
  addr   : Nat
  old    : List Byte
  op     : Nat
  ag     : Agent
  strong : Bool
  atomic : Bool
  rels   : List Release
  deriving DecidableEq, Repr

/-- A team (R113), or the control thread's own state, which R294 gives as a team of one lane: `ctl` marks it.
`vregs` is keyed by 1024 × allotment register + lane; `relAt` is the place of the team's release, 8 × class + point (R150). `own` holds
the team's operations in issue order; `hb` the operations that happen before its next access by an acquire (R241); `seen` the latest time
at which it has read each byte (R237); `latent` the releases that its plain reads have met, for a FENCE `.acq` (R240); and `fences` each
FENCE `.rel` or `.ar` with its mask and what happens before it (R242); and `posts` the engine operations that it has posted, each with the
bit of its queue in a QFENCE mask (R246). -/
structure Team where
  ctl     : Bool
  level   : Level
  gid     : Nat
  tix     : Nat
  slot    : Nat
  tw      : Nat
  allot   : Nat
  st      : TeamSt
  wait    : Wait
  since   : Nat
  pc      : Loc
  clause  : ClauseCtx
  vregs   : List (Nat × W32)
  sregs   : List (Nat × W64)
  cc      : List (Nat × BitVec 4)
  flags   : List (Nat × BitVec 3)
  fpflags : BitVec 5
  sh0     : Shape
  sh1     : Shape
  sh2     : Shape
  sh3     : Shape
  winBase : Nat
  active  : LaneMask
  exited  : LaneMask
  fault   : LaneMask
  stack   : List Token
  trapTok : Token
  loop    : Option LoopSt
  gang    : BitVec 16
  pending : Option ErrRec
  pendOvf : Bool
  trap    : Option TrapRec
  fromDrain : Bool
  errs    : List ErrRec
  replay  : Option LaneMask
  bpSkip  : Bool
  arrived : Option Nat
  hint    : Nat
  hintAt  : Nat
  hb      : List Nat
  own     : List Nat
  seen    : List (Nat × Nat)
  latent  : List Release
  fences  : List (BitVec 7 × List Nat)
  posts   : List (Nat × Nat)
  held    : List HeldWrite
  relAt   : Nat
  deriving DecidableEq, Repr

/-! ## Groups, launches and queues -/

/-- Where a group stands: in a bank of a core, or in a cellar image (R119). -/
inductive Place where
  | bank (core b : Nat)
  | cellar (image : Nat)
  deriving DecidableEq, Repr

/-- The states of a group after its record leaves the queue (R119). -/
inductive GroupSt where
  | carving | running | swapped
  deriving DecidableEq, Repr

/-- An OPEN barrier entry (R220), the teams counted in its phase, the accesses that its present phase and each completed
one, in order, release (R224), and the teams that began to wait, in order (R234). -/
structure Barrier where
  expB    : Nat
  cntB    : Nat
  expA    : Nat
  cntA    : Nat
  phase   : Nat
  scope   : Nat
  err     : Nat
  lastErr : Nat
  arr     : List Nat
  rel     : List Nat
  done    : List (List Nat)
  wq      : List Nat
  deriving DecidableEq, Repr

/-- A group (R116 to R119): its record's values, its storage, and what a swap or a move needs to know of it. `hb` holds the accesses of its
teams that have retired, with what happens before them (R259). -/
structure Group where
  launch   : Nat
  ctx      : Nat
  region   : Nat
  gix      : Nat
  st       : GroupSt
  place    : Place
  slot     : Nat
  teams    : List Nat
  frame    : W64
  join     : W64
  nb       : Nat
  bars     : List (Nat × Barrier)
  l0       : Nat
  l1       : Nat
  foot     : Nat
  cpLo     : Nat
  cpHi     : Nat
  heldLo   : Nat
  heldHi   : Nat
  residuals : List Nat
  mark     : Option (Nat × Nat)
  commited : Bool
  partner  : Option Nat
  copyIdx  : Nat
  hb       : List Nat
  deriving DecidableEq, Repr

/-- A launch: one posted record (R256), whose groups share die and package objects. -/
structure Launch where
  ctx    : Nat
  region : Nat
  die    : Nat
  task   : List W64
  left   : Nat
  live   : Nat
  hb     : List Nat
  deriving DecidableEq, Repr

/-- An entry of a run queue (R260): the instances `next` to `hi - 1` of a launch still to be dispatched, and its slot in the ring. -/
structure QEntry where
  launch  : Nat
  next    : Nat
  hi      : Nat
  reserve : Bool
  slot    : Nat
  deriving DecidableEq, Repr

/-- The run queue of one region on one die (R260); `tail` counts the entries that its ring has taken. -/
structure RunQueue where
  ctx     : Nat
  region  : Nat
  die     : Nat
  tail    : Nat
  entries : List QEntry
  deriving DecidableEq, Repr

/-- A join update still to be performed at its home (R258, R259). `deaf`: the waiter's record cannot be read for good. -/
structure JoinUpd where
  ctx    : Nat
  region : Nat
  die    : Nat
  addr   : W64
  after  : List Nat
  deaf   : Bool
  deriving DecidableEq, Repr

/-- A shared barrier of die or package scope (R217, R218). -/
structure SharedBar where
  launch : Nat
  die    : Nat
  id     : Nat
  home   : Nat
  b      : Barrier
  deriving DecidableEq, Repr

/-! ## Tiles and engines -/

/-- A tile (R164 to R166): its owner, geometry, bytes, full granules (bit g), and the granules still in the cellar. `ctx` and `region`
are those whose budget it counts in (R165); `rels` holds, by byte, the releases that an acquire of what an atomic wrote there takes (R240). -/
structure Tile where
  gid       : Option Nat
  launch    : Nat
  ctx       : Nat
  region    : Nat
  die       : Nat
  level     : Nat
  handle    : Nat
  rows      : Nat
  rb        : Nat
  bytes     : List (Nat × Byte)
  full      : Nat
  releasing : Bool
  cellar    : Nat
  rels      : List (Nat × Release)
  deriving DecidableEq, Repr

/-- Where the results of a pending operation go: nowhere, a scalar, one vector register, or a pair, by allotment register. -/
inductive DstReg where
  | none
  | scalar (n : Nat)
  | vec (r : Nat)
  | pair (r : Nat)
  deriving DecidableEq, Repr

/-- How far one lane of a pending operation is (R268, R325, R326, R338); `refused` is a peer's refusal. -/
inductive LaneSt where
  | sent | parked (k : Nat) | nacked | held | done | failed | refused
  deriving DecidableEq, Repr

/-- One lane's access of a pending operation: `via` is the port that carries its request (R338, R340), and `put` says that its result
stands in the destination already (R29). -/
structure LaneAcc where
  lane : Nat
  va   : W64
  tgt  : Target
  n    : Nat
  x    : W64
  y    : W64
  st   : LaneSt
  res  : W64
  via  : Option PortId
  put  : Bool
  deriving DecidableEq, Repr

/-- A memory operation that has issued and is not yet complete (R27, R189, R214, R238). `after` lists the earlier
operations that must be performed before any lane of this one (R240 to R247), `obs` is a strong access's mask (R239), and `fences` the
masks and sets of its party's earlier release fences (R240). `twin` is the other copy's team, which an atomic of a REDUNDANT group answers
too (R313). -/
structure PendOp where
  ag     : Agent
  gid    : Nat
  ctx    : Nat
  core   : Nat
  kind   : PendKind
  acq    : Bool
  rel    : Bool
  lanes  : List LaneAcc
  flag   : Option Nat
  dst    : DstReg
  pc     : W64
  obs    : BitVec 7
  fences : List (BitVec 7 × List Nat)
  after  : List Nat
  killed : Bool
  twin   : Option Nat
  deriving DecidableEq, Repr

/-- How far a copy is (R191 to R199). -/
inductive CopySt where
  | posted | ready | begun
  deriving DecidableEq, Repr

/-- A bulk copy in flight (R191 to R199); `src`, `dst` and `idx` are the tiles that its locations and its index array named when its
record was read, and `hdr` is the source header of a dequantise copy, read before anything moves (R195). -/
structure CopyOp where
  core   : Nat
  q      : Nat
  ag     : Agent
  gid    : Nat
  ctx    : Nat
  xf     : Bool
  addr   : W64
  launch : Nat
  bar    : BarRef
  flag   : Nat
  st     : CopySt
  pat    : List W64
  src    : Option Nat
  dst    : Option Nat
  idx    : Option Nat
  hdr    : List W64
  err    : Nat
  landed : List Nat
  after  : List Nat
  pc     : W64
  deriving DecidableEq, Repr

/-- The kinds of matrix operation (R200). -/
inductive MqKind where
  | mma (mode : MmaMode) | mdrain (addTo int : Bool) | mzero
  deriving DecidableEq, Repr

/-- One team's part of a matrix operation: its accumulator tile, its rows of A, the bytes its accumulator held at issue with the
results of earlier operations put in (R171, R200), and the flag it counts on. -/
structure MqPart where
  tid   : Nat
  gid   : Nat
  pc    : W64
  flag  : Option Nat
  live  : LaneMask
  acc   : Nat
  rows  : List Nat
  acc0  : List (Nat × Byte)
  deriving DecidableEq, Repr

/-- A matrix operation in MQ (R200, R207, R213), with the dimensions it latched; `a0` and `b0` are its operands' bytes at issue with
the results of earlier operations put in, `latchA` and `latchB` say that it reads only those (R210). -/
structure MqOp where
  core  : Nat
  bank  : Nat
  ctx   : Nat
  gid   : Nat
  kind  : MqKind
  m     : Nat
  n     : Nat
  k     : Nat
  g     : Nat
  fmt   : W32
  a     : Nat
  b     : Nat
  a0    : List (Nat × Byte)
  b0    : List (Nat × Byte)
  latchA : Bool
  latchB : Bool
  dest  : List Target
  loc   : W64
  pitch : Nat
  parts : List MqPart
  begun : Bool
  at_   : Nat
  after : List Nat
  deriving DecidableEq, Repr

/-- A command in a Picker queue or in SQ (R267, R333). -/
inductive CmdKind where
  | set (idx : Nat) | clr (idx : Nat) | emit | scan
  deriving DecidableEq, Repr

/-- How a scan stands to its source (R333): a fault on it is not known, is with the MEM firmware, or could not be repaired. -/
inductive SrcSt where
  | open | faulted | refused
  deriving DecidableEq, Repr

/-- A Picker or scan command (R266, R267, R332). `fail` is the error with which it ends, where its word 4 is still to be written. -/
structure EngCmd where
  core   : Nat
  level  : Level
  die    : Nat
  gid    : Nat
  ctx    : Nat
  region : Nat
  kind   : CmdKind
  desc   : W64
  bar    : Option BarRef
  after  : List Nat
  src    : SrcSt
  fail   : Option Nat
  deriving DecidableEq, Repr

/-! ## Cores and dies -/

/-- The states of a bank (R306). -/
inductive BankSt where
  | empty | active | ready | spilling | loading
  deriving DecidableEq, Repr

/-- What the control thread handles (R294, R295, R397): the team, its group and that group's frame pointer, the trap record, the
diagnostic record, and whether a TRESUME has resumed the team (R296). -/
structure Handling where
  tid   : Nat
  gid   : Nat
  frame : W64
  trec  : List W64
  diag  : List W64
  since : Nat
  resumed : Bool
  deriving DecidableEq, Repr

/-- One bank of a core (R306): the context in it and the state that a swap exchanges with it. A deque entry carries the accesses
that happen before its push (R265); the owner's end is the list's end. `joins` says what stands before later operations of the
queues of a mask: the joins that QFENCE placed (R247), and each operation before those posted after it to its own queue (R246). -/
structure Bank where
  st       : BankSt
  ctx      : Option Nat
  point    : Nat
  deque    : List (W64 × List Nat)
  trapQ    : List Nat
  handling : Option Handling
  evSrc    : List (Nat × W64)
  evCnt    : List (Nat × W64)
  since    : Nat
  retained : Bool
  joins    : List (Nat × List Nat)
  deriving DecidableEq, Repr

/-- The states of the matrix engine (R68). -/
inductive MatSt where
  | idle | rampup | active | hold | rampdn
  deriving DecidableEq, Repr

/-- A curve move of a core (R66): decided, or on its ramp, to a point; `notice` is COUNT when notice was given. -/
structure Move where
  dest     : Nat
  notice   : Nat
  ramping  : Bool
  deriving DecidableEq, Repr

/-- A checkpoint in progress on a core (R314). -/
structure CkptSt where
  ctx   : Nat
  d     : Reg
  addr  : W64
  size  : Nat
  since : Nat
  deriving DecidableEq, Repr

/-- A core: its point, cycle counter, banks, matrix engine, the moves and swaps in progress on it, the back-off of its requests
(R268), and the COUNT from which a swap is due because a kill has emptied its ACTIVE bank (R386). -/
structure CoreSt where
  point   : Nat
  count   : Nat
  act     : Nat
  bank0   : Bank
  bank1   : Bank
  mat     : MatSt
  matAt   : Nat
  move    : Option Move
  swap    : Option Nat
  ckpt    : Option CkptSt
  corrSeq : Nat
  backoff : List (Nat × W64)
  swapDue : Option Nat
  deriving DecidableEq, Repr

/-- A die: its event counters, the dispatcher's counters (R261), and its Picker queue. -/
structure DieSt where
  evSrc : List (Nat × W64)
  evCnt : List (Nat × W64)
  prioN : List (Nat × W64)
  lastR : List (Nat × W64)
  deriving DecidableEq, Repr

/-- The states of a decant cache entry (R286). -/
inductive DecSt where
  | decanting | valid | stale
  deriving DecidableEq, Repr

/-- The inputs of the decant cache key (R286). -/
structure DecKey where
  obj    : BitVec 384
  entry  : Nat
  smask  : BitVec 256
  bytes  : List Byte
  dtgen  : Nat
  svnIdx : Nat
  svn    : Nat
  place  : Nat
  deriving DecidableEq, Repr

/-- An entry of a die's decant cache (R286, R287). `exits` are the words of the residual at which a team goes on in the original code, and
`loops` gives, for a word in an unrolled pass of a LOOP, the loop state of the original code there, its body's start counted from the code
section (R282, R283). -/
structure DecEntry where
  die    : Nat
  key    : DecKey
  st     : DecSt
  placed : Bool
  code   : W64
  words  : List W32
  back   : List Nat
  folded : List Nat
  exits  : List Nat
  loops  : List (Nat × LoopSt)
  used   : Nat
  frame  : W64
  ctx    : Nat
  deriving DecidableEq, Repr

/-- A frame whose static pages are mapped read-only for a launch (R280). -/
structure RoFrame where
  ctx    : Nat
  launch : Nat
  frame  : W64
  smask  : BitVec 256
  deriving DecidableEq, Repr

/-! ## Contexts, objects and pages -/

/-- A loaded code object (R269 to R276). -/
structure ObjRec where
  ctx     : Nat
  code    : W64
  size    : Nat
  digest  : BitVec 384
  svnIdx  : Nat
  svn     : Nat
  down    : Bool
  signed  : Bool
  revoked : Bool
  smask   : BitVec 256
  cmap    : Nat
  deriving DecidableEq, Repr

/-- A context (R290) with its region table (R254), its breakpoint registers (R299) and its completion vector (R343). -/
structure CtxRec where
  pasid      : Nat
  root       : Nat
  closing    : Bool
  rootRegion : Nat
  regions    : List (Nat × Nat)
  brk        : List (Nat × W64)
  vector     : Nat
  deriving DecidableEq, Repr

/-- A translation held by a TLB, a walker cache or an engine's translation cache (R321): the leaf found, by page base and size. -/
structure TlbEntry where
  ctx  : Nat
  page : Nat
  size : Nat
  pa   : Nat
  host : Bool
  sys  : Bool
  x    : Bool
  w    : Bool
  deriving DecidableEq, Repr

/-- A translation that ATS returned (R320). -/
structure AtcEntry where
  ctx  : Nat
  page : Nat
  host : Nat
  deriving DecidableEq, Repr

/-- Where a repairable fault stands with the MEM firmware (R320). -/
inductive FaultSt where
  | walking | atsWait | priWait | sysWait | refused
  deriving DecidableEq, Repr

/-- A translation fault with the MEM firmware (R293, R320): of an agent, or of the engine operation with a number. -/
structure FaultRec where
  ag    : Agent
  eng   : Option Nat
  region : Nat
  ctx   : Nat
  va    : W64
  st    : FaultSt
  since : Nat
  core  : Nat
  deriving DecidableEq, Repr

/-- The state of a channel retirement (R330). -/
inductive RetireSt where
  | none | copying (ch : Nat) | draining (ch : Nat)
  deriving DecidableEq, Repr

/-- A context image: in a cellar area, where its groups stay listed (R306), or a copy that a checkpoint wrote at `loc` or the
power-loss sequence wrote to the keep store (R315, R316), with its bytes as written. -/
structure Image where
  core     : Nat
  ctx      : Nat
  cellar   : Bool
  bank     : Bank
  ctl      : Option Team
  loc      : Option W64
  raw      : List Byte
  teams    : List (Nat × Team)
  groups   : List (Nat × Group)
  tiles    : List (Nat × Tile)
  launches : List (Nat × Launch)
  decants  : List (Nat × DecEntry)
  mqs      : List (Nat × MqOp)
  deriving DecidableEq, Repr

/-! ## Links, firmware and the host -/

/-- The states of a port (R334). -/
inductive PortSt where
  | down | training | active | retrain | failed
  deriving DecidableEq, Repr

/-- A flit that a port keeps until it is acknowledged (R336): its SEQ, the flit as sent, how often it has been resent (R334),
whether it has been sent at all, the lane that its request is for, and the window of its request with the ACTIVE ports at the send
(R338). -/
structure SentFlit where
  seq     : Nat
  flit    : Flit
  resends : Nat
  sent    : Bool
  req     : Option (Nat × Nat)
  win     : Option Nat
  ports   : Nat
  deriving DecidableEq, Repr

/-- A Kazeg or memory port (R334, R336, R341): its status, the next SEQ it sends and expects, the unacknowledged flits: the first 64 are
its replay window, the others are held; and the answer it owes its partner. -/
structure Port where
  st      : PortSt
  en      : Bool
  fails   : Nat
  replays : Nat
  peer    : Nat
  txSeq   : Nat
  rxSeq   : Nat
  unacked : List SentFlit
  nakOwed : Bool
  ackOwed : Bool
  deriving DecidableEq, Repr

/-- What a firmware message says (R360); the spec gives no OP numbers. -/
inductive MsgOp where
  | submitStatus | loadStatus | unloadStatus | created | destroyed | svnStatus | dtStatus | keyStatus | restoreStatus | recoveryStatus
  | faultRecord | killReport | errReport | joinReport | readData | placeStatus | retireStatus | version | capabilities
  | algorithms | digests | certificate | challenge | measurements | discovery | bootReport
  deriving DecidableEq, Repr

/-- A firmware message (R360): word 0's fields, and what the rest of it carries: up to seven words, in a message of a mailbox. -/
structure Msg where
  op   : MsgOp
  snd  : Nat
  rcv  : Nat
  tag  : Nat
  body : List W64
  deriving DecidableEq, Repr

/-- A correlation record (R362). -/
structure CorrRec where
  kind  : Nat
  cp    : Nat
  core  : Nat
  ctx   : Nat
  count : Nat
  ptmt  : W64
  seq   : Nat
  deriving DecidableEq, Repr

/-- An entry of the keep store's directory (R363), with its data's offset in the store and their CRC-32C. -/
structure KeepEntry where
  kind  : Nat
  off   : Nat
  crc   : W32
  trunc : Bool
  ctx   : Nat
  image : Option Nat
  base  : W64
  size  : Nat
  bytes : List (Nat × Byte)
  deriving DecidableEq, Repr

/-- What a hung firmware core owes (R359, R361): a message of its own to send, with the MSI-X vector to raise, a fault domain to kill, or a
correlation record to write. -/
inductive Owed where
  | message (mb : Nat) (vec : Option Nat) (m : Msg)
  | kill (ctx dom : Nat)
  | corr (r : CorrRec)
  deriving DecidableEq, Repr

/-- The firmware complex and what it holds (R359 to R369): `inbox` keeps the request messages of a mailbox whose reader is hung (R361), `unsent`
the messages whose sender has found a mailbox full (R360), with each such mailbox's back-off in cycles of the firmware's clock and the cycle at
which it ends in `backoff` (R268), `got` the words of the message that the host has taken last, `secKeys` the keys that the SEC image carries
(R367), and `owed` the work of a hung core, by core; `now` counts microseconds, `beats` when each core's heartbeat was last written and `corrAt`
when each core last wrote a periodic correlation record; `corr` lists the records written; the ring of R362 has its base, its size in records, and
how many records have been written and taken; `store` is the keep store's bytes (R363). -/
structure Firmware where
  halted   : Option Nat
  powered  : Bool
  frozen   : Bool
  hung     : List Nat
  mbox     : List (Nat × List Msg)
  inbox    : List (Nat × List Instr)
  unsent   : List (Nat × Msg)
  backoff  : List (Nat × (Nat × Nat))
  got      : List W64
  secKeys  : List Nat
  owed     : List (Nat × Owed)
  now      : Nat
  beats    : List (Nat × Nat)
  keys     : List (Nat × Nat)
  svn      : List (Nat × W64)
  dtgen    : Nat
  msixOpen : List Nat
  msixPend : List Nat
  msixSent : List Nat
  corr     : List CorrRec
  corrAt   : List (Nat × Nat)
  ringBase : Nat
  ringSize : Nat
  ringPut  : Nat
  ringGot  : Nat
  ptm      : Bool
  keep     : List KeepEntry
  store    : List (Nat × Byte)
  gen      : Nat
  deriving DecidableEq, Repr

/-- What is fixed at manufacture or by the modules attached (R9, R12): it differs from part to part. `t2cap` is the capacity in GiB of the
module at each memory port, 0 where none is listed; `keyHash` is the key hash held in fuses (R367). -/
structure Part where
  stepping : BitVec 8
  classT   : BitVec 8
  t2ports  : BitVec 16
  t2cap    : List (Nat × Nat)
  keyHash  : BitVec 384
  deriving DecidableEq, Repr

/-! ## The machine -/

/-- The whole machine. `cur` is the agent that issues next; `agenda` is the schedule of what happens before it does;
`nextId` numbers new objects; `freeN` counts the free values taken; `clock` counts the writes performed in memory, `past` lists them, the
latest first (R237), `order` gives for an operation those that happen before it (R241), and `sfences` lists the FENCE `.ar` in S
(R243); `seen` holds the latest time at which a party that is no team has read each byte, by the party's number (R237); `retired` holds each
retired channel with the T1SIZE that stood before, the latest first (R330); `bar2` is the host's aperture of device memory: its base, and its
size in GiB (R342). -/
structure State where
  cur      : Agent
  agenda   : List Turn
  nextId   : Nat
  freeN    : Nat
  clock    : Nat
  past     : List PastWrite
  order    : List (Nat × List Nat)
  sfences  : List Release
  seen     : List (Nat × List (Nat × Nat))
  part     : Part
  mem      : List Host.Cell
  hostMem  : List Host.Cell
  peerMem  : List Host.Cell
  devRegs  : List (Nat × W64)
  poison   : List Nat
  dead     : List (Nat × Nat)
  t1size   : Nat
  retire   : RetireSt
  retired  : List (Nat × Nat)
  tlb      : List TlbEntry
  atc      : List AtcEntry
  teams    : List (Nat × Team)
  ctls     : List (Nat × Team)
  groups   : List (Nat × Group)
  launches : List (Nat × Launch)
  queues   : List RunQueue
  joins    : List (Nat × JoinUpd)
  bars     : List (Nat × SharedBar)
  tiles    : List (Nat × Tile)
  pend     : List (Nat × PendOp)
  copies   : List (Nat × CopyOp)
  mqs      : List (Nat × MqOp)
  cmds     : List (Nat × EngCmd)
  cores    : List (Nat × CoreSt)
  dies     : List (Nat × DieSt)
  decants  : List (Nat × DecEntry)
  roFrames : List RoFrame
  ctxs     : List (Nat × CtxRec)
  objs     : List (Nat × ObjRec)
  faults   : List (Nat × FaultRec)
  images   : List (Nat × Image)
  kports   : List (Nat × Port)
  mports   : List (Nat × Port)
  windows  : List (Nat × (W64 × W64))
  linkcfg  : BitVec 10
  bar2     : Nat × Nat
  fw       : Firmware
  deriving DecidableEq, Repr

/-! ## What stops the machine -/

/-- A step that the spec says ends the run of the part. Every trap of R35 is a next state, not a fault. -/
inductive Fault where
  /-- Raised by every step once the boot has halted (R367: "Any failure halts boot"). Safe: the part runs nothing. -/
  | bootHalted (stage : Nat)
  /-- Raised by every step once the power-loss sequence has ended (R316). Safe: the part runs nothing. -/
  | powerOff
  deriving DecidableEq, Repr

/-- A step for which the machine has no meaning in that state. -/
inductive Refusal where
  /-- An arm of `exec` whose instruction has no meaning yet. Safe: nothing is claimed of it. -/
  | notModelled (mnemonic : String)
  /-- An instruction with no agent to execute it: `cur` names no team and no control thread. Safe: no agent, no effect. -/
  | noAgent
  deriving DecidableEq, Repr

/-! ## Reset -/

/-- A shape register of kind none (R150). -/
def Shape.none : Shape :=
  { kind := .none, pol := .fit, short := false, stale := false, clt := false, cp := 0, gsz := 0, d0 := 0, d1 := 0, d2 := 0 }

/-- An empty bank (R306). -/
def Bank.init (st : BankSt) : Bank :=
  { st := st, ctx := none, point := 1, deque := [], trapQ := [], handling := none, evSrc := [], evCnt := [],
    since := 0, retained := false, joins := [] }

/-- A core after reset: at CP1 (R60), COUNT 0 (R71), its matrix engine IDLE (R68), its banks EMPTY (R306). -/
def CoreSt.init : CoreSt :=
  { point := 1, count := 0, act := 0, bank0 := Bank.init .empty, bank1 := Bank.init .empty, mat := .idle, matAt := 0,
    move := none, swap := none, ckpt := none, corrSeq := 0, backoff := [], swapDue := none }

/-- A die after reset. -/
def DieSt.init : DieSt := { evSrc := [], evCnt := [], prioN := [], lastR := [] }

/-- A port after reset: DOWN (R334). -/
def Port.init : Port :=
  { st := .down, en := false, fails := 0, replays := 0, peer := 0, txSeq := 0, rxSeq := 0, unacked := [],
    nakOwed := false, ackOwed := false }

/-- The firmware complex after a boot that succeeded (R367). -/
def Firmware.init : Firmware :=
  { halted := none, powered := true, frozen := false, hung := [], mbox := [], inbox := [], unsent := [], backoff := [], got := [], secKeys := [], owed := [], now := 0, beats := [], keys := [],
    svn := [], dtgen := 0, msixOpen := [], msixPend := [], msixSent := [], corr := [], corrAt := [], ringBase := 0, ringSize := 0,
    ringPut := 0, ringGot := 0, ptm := false, keep := [], store := [], gen := 0 }

/-- The part that `State.reset` describes (DESIGN CHOICE, log 3): stepping 0, compute dies 6 and 7 of class T, no tier-2 module. -/
def Part.init : Part := { stepping := 0, classT := 0xC0, t2ports := 0, t2cap := [], keyHash := 0 }

/-- The machine right after reset. A core, die, port, window or mailbox that is not listed stands at its reset value. -/
def State.reset : State :=
  { cur := .none, agenda := [], nextId := 1, freeN := 0, clock := 0, past := [], order := [], sfences := [], seen := [], part := Part.init, mem := [], hostMem := [], peerMem := [],
    devRegs := [], poison := [], dead := [], t1size := 1024, retire := .none, retired := [], tlb := [], atc := [], teams := [],
    ctls := [], groups := [], launches := [], queues := [], joins := [], bars := [], tiles := [], pend := [],
    copies := [], mqs := [], cmds := [], cores := [], dies := [], decants := [], roFrames := [], ctxs := [], objs := [],
    faults := [], images := [], kports := [], mports := [], windows := [], linkcfg := 0, bar2 := (0, 1), fw := Firmware.init }

end Sys2Proof.Machine
end

