-- ==== Sys2Proof/Machine/Sparse.lean ====
section
/-!
DEFINITION. The two ways in which State holds things by number: an association list, whose unlisted keys hold nothing, and
a sparse store of words, whose unlisted keys read zero. Both are kept with keys strictly rising, and a sparse store
lists no zero, so that equal contents are equal data.
-/
namespace Sys2Proof.Machine

/-! ## Association lists -/

/-- What is listed under a key. -/
def alook {α : Type} (k : Nat) : List (Nat × α) → Option α
  | [] => none
  | (k', v) :: r => if k = k' then some v else alook k r

/-- The list without a key. -/
def adel {α : Type} (k : Nat) : List (Nat × α) → List (Nat × α)
  | [] => []
  | (k', v) :: r => if k = k' then adel k r else (k', v) :: adel k r

/-- The list with an entry put before the first greater key. -/
def ains {α : Type} (k : Nat) (v : α) : List (Nat × α) → List (Nat × α)
  | [] => [(k, v)]
  | (k', v') :: r => if k < k' then (k, v) :: (k', v') :: r else (k', v') :: ains k v r

/-- The list with a key set. -/
def aset {α : Type} (k : Nat) (v : α) (m : List (Nat × α)) : List (Nat × α) := ains k v (adel k m)

/-- What is listed under a key, or a default. -/
def agetD {α : Type} (d : α) (k : Nat) (m : List (Nat × α)) : α :=
  match alook k m with
  | some v => v
  | none => d

/-- Every entry changed by a function of its key and value. -/
def amap {α : Type} (f : Nat → α → α) (m : List (Nat × α)) : List (Nat × α) := m.map fun e => (e.1, f e.1 e.2)

/-- The entries that satisfy a condition. -/
def afilter {α : Type} (p : Nat → α → Bool) (m : List (Nat × α)) : List (Nat × α) := m.filter fun e => p e.1 e.2

/-- The first key whose entry satisfies a condition. -/
def afind {α : Type} (p : Nat → α → Bool) : List (Nat × α) → Option (Nat × α)
  | [] => none
  | (k, v) :: r => if p k v then some (k, v) else afind p r

/-- Whether some entry satisfies a condition. -/
def aany {α : Type} (p : Nat → α → Bool) (m : List (Nat × α)) : Bool := m.any fun e => p e.1 e.2

/-- How many entries satisfy a condition. -/
def acount {α : Type} (p : Nat → α → Bool) (m : List (Nat × α)) : Nat := (afilter p m).length

/-- Keys strictly rising from a bound on. -/
def risingFrom {α : Type} (lo : Nat) : List (Nat × α) → Bool
  | [] => true
  | (k, _) :: r => Nat.ble lo k && risingFrom (k + 1) r

/-! ## Sparse stores -/

/-- The word under a key: zero where none is listed. -/
def sget {w : Nat} (m : List (Nat × BitVec w)) (k : Nat) : BitVec w :=
  match alook k m with
  | some v => v
  | none => 0

/-- The store with a word written: a zero is not listed. -/
def sset {w : Nat} (m : List (Nat × BitVec w)) (k : Nat) (v : BitVec w) : List (Nat × BitVec w) :=
  if v = 0 then adel k m else aset k v m

/-- The store with the words of a list of keys and values written in order. -/
def ssetAll {w : Nat} (m : List (Nat × BitVec w)) : List (Nat × BitVec w) → List (Nat × BitVec w)
  | [] => m
  | (k, v) :: r => ssetAll (sset m k v) r

/-- The store with the keys from lo to hi - 1 cleared. -/
def sclear {w : Nat} (m : List (Nat × BitVec w)) (lo hi : Nat) : List (Nat × BitVec w) :=
  m.filter fun e => !(Nat.ble lo e.1 && Nat.blt e.1 hi)

/-- The canonical form: keys strictly rising, and no entry equal to what an unlisted key reads as. -/
def swf {w : Nat} (m : List (Nat × BitVec w)) : Bool := risingFrom 0 m && m.all fun e => e.2 != 0

/-- A value of n bytes, little-endian, from a byte function (R42). -/
def leValue (f : Nat → Byte) : Nat → Nat → Nat
  | _, 0 => 0
  | a, n + 1 => (f a).toNat + 256 * leValue f (a + 1) n

/-- The n bytes of a value, little-endian (R42). -/
def leBytes (x : Nat) : Nat → List Byte
  | 0 => []
  | n + 1 => BitVec.ofNat 8 x :: leBytes (x / 256) n

/-- A store of bytes with a byte string written from an address on. -/
def putBytes (m : List (Nat × Byte)) : Nat → List Byte → List (Nat × Byte)
  | _, [] => m
  | a, b :: r => putBytes (sset m a b) (a + 1) r

/-- The bytes from an address on. -/
def getBytes (f : Nat → Byte) : Nat → Nat → List Byte
  | _, 0 => []
  | a, n + 1 => f a :: getBytes f (a + 1) n

/-- The canonical form of a memory. -/
abbrev Memory.wf (m : List Host.Cell) : Prop := swf m = true

end Sys2Proof.Machine
end

