-- ==== Sys2Proof/Machine/Memory.lean ====
section
/-!
DEFINITION. Physical memory (R10, R322, R326, R328), the page-table walk (R317 to R320), and the check and translation of
one lane's address (R179, R180). Bytes are kept by physical address; an unlisted byte reads zero (log entry 4).
-/
namespace Sys2Proof.Machine

/-! ## Dead units and poison -/

/-- A 4 KiB unit is dead (R328). -/
def deadHas (d : List (Nat × Nat)) (u : Nat) : Bool := d.any fun r => Nat.ble r.1 u && Nat.blt u r.2

/-- The dead units with lo to hi - 1 taken out. -/
def deadDel (d : List (Nat × Nat)) (lo hi : Nat) : List (Nat × Nat) :=
  d.flatMap fun r =>
    (if r.1 < min r.2 lo then [(r.1, min r.2 lo)] else []) ++ (if max r.1 hi < r.2 then [(max r.1 hi, r.2)] else [])

/-- An interval put in its place. -/
def deadIns (lo hi : Nat) : List (Nat × Nat) → List (Nat × Nat)
  | [] => [(lo, hi)]
  | r :: rest => if lo < r.1 then (lo, hi) :: r :: rest else r :: deadIns lo hi rest

/-- The dead units with lo to hi - 1 put in. -/
def deadAdd (d : List (Nat × Nat)) (lo hi : Nat) : List (Nat × Nat) := deadIns lo hi (deadDel d lo hi)

/-- How many units from lo to hi - 1 are dead (R329). -/
def deadCount (d : List (Nat × Nat)) (lo hi : Nat) : Nat :=
  d.foldl (fun n r => n + (min r.2 hi - max r.1 lo)) 0

/-- One byte of device memory: a dead unit reads zero (R328). -/
def State.byte (s : State) (pa : Nat) : Byte := if deadHas s.dead (pa / 4096) then 0 else sget s.mem pa

/-- The poisoned lines without those of the units from lo to hi - 1, whose bytes read zero. -/
def poisonDel (p : List Nat) (lo hi : Nat) : List Nat := p.filter fun l => !(Nat.ble (64 * lo) l && Nat.blt l (64 * hi))

/-- The performed writes without those in the units from lo to hi - 1, of which nothing older is to be read. -/
def pastDel (p : List PastWrite) (lo hi : Nat) : List PastWrite :=
  p.filter fun w => !(w.space == 0 && Nat.ble (lo * 4096) w.addr && Nat.blt w.addr (hi * 4096))

/-- The units from lo to hi - 1 dead: their contents are gone (R328). -/
def State.killUnits (s : State) (lo hi : Nat) : State :=
  { s with dead := deadAdd s.dead lo hi, mem := sclear s.mem (lo * 4096) (hi * 4096), poison := poisonDel s.poison lo hi
           past := pastDel s.past lo hi }

/-- The units from lo to hi - 1 live and zero (R329). -/
def State.reviveUnits (s : State) (lo hi : Nat) : State :=
  { s with dead := deadDel s.dead lo hi, mem := sclear s.mem (lo * 4096) (hi * 4096), poison := poisonDel s.poison lo hi
           past := pastDel s.past lo hi }

/-- A unit live, and zero if it was dead, before an access writes to it (R328). -/
def State.touchUnit (s : State) (u : Nat) : State := if deadHas s.dead u then s.reviveUnits u (u + 1) else s

/-- A byte string written to device memory: the units it touches become live first (R328), and an aligned 64-byte
write clears the poison of its line (R326). -/
def State.writeDev (s : State) (pa : Nat) (bs : List Byte) : State :=
  let s1 := (s.touchUnit (pa / 4096)).touchUnit ((pa + bs.length - 1) / 4096)
  { s1 with
    mem := putBytes s1.mem pa bs
    poison := if pa % 64 = 0 ∧ bs.length = 64 then s1.poison.filter fun l => l != pa / 64 else s1.poison }

/-- Some byte of a range of device memory is poisoned (R326). -/
def State.poisoned (s : State) (pa n : Nat) : Bool :=
  s.poison.any fun l => Nat.ble (pa / 64) l && Nat.ble l ((pa + n - 1) / 64)

/-! ## Targets -/

/-- A tile's byte: a RELEASING or absent tile has none to a program, but engines still reach its storage (R166). -/
def State.tileByte (s : State) (t off : Nat) : Byte :=
  match alook t s.tiles with
  | some x => sget x.bytes off
  | none => 0

/-! ## Device registers (R10, R337, R341) -/

/-- The codes of a port's state (R341). -/
def PortSt.code (p : PortSt) : Nat :=
  match p with
  | .down => 0
  | .training => 1
  | .active => 2
  | .retrain => 3
  | .failed => 4

/-- A port's status register (R341). -/
def Port.status (p : Port) : W64 :=
  BitVec.ofNat 64 (p.replays * 2 ^ 32 + p.peer % 1024 * 2 ^ 22 + p.fails * 2 ^ 4 + b2n p.en * 2 ^ 3 + p.st.code)

/-- EN written in a port's status register (R334, R341): 1 takes a port from DOWN to TRAINING, 0 takes it to DOWN. -/
def Port.setEn (p : Port) (en : Bool) : Port :=
  if en then (if p.st = .down then { p with st := .training, en := true, fails := 0 } else { p with en := true })
  else { p with st := .down, en := false }

/-- Which device register an 8-byte aligned address is. -/
inductive DevReg where
  | linkcfg | kport (p : Nat) | mport (m : Nat) | window (w : Nat) (hi : Bool) | plain
  deriving DecidableEq, Repr

/-- The registers of R337 and R341 by their addresses; every other one has no behaviour of its own. -/
def devReg (pa : Nat) : DevReg :=
  if pa = 0xF000000008000 then .linkcfg
  else if 0xF000000010000 ≤ pa ∧ pa < 0xF000000010100 then .kport ((pa - 0xF000000010000) / 8)
  else if 0xF000000010100 ≤ pa ∧ pa < 0xF000000010180 then .mport ((pa - 0xF000000010100) / 8)
  else if 0xF000000100000 ≤ pa ∧ pa < 0xF000000100000 + 16 * 3808 then
    .window ((pa - 0xF000000100000) / 16) (pa / 8 % 2 == 1)
  else .plain

/-- A device register as it reads. -/
def State.regRaw (s : State) (pa : Nat) : W64 :=
  match devReg pa with
  | .linkcfg => s.linkcfg.setWidth 64
  | .kport p => (agetD Port.init p s.kports).status
  | .mport m => (agetD Port.init m s.mports).status
  | .window w hi => if hi then (agetD (0, 0) w s.windows).2 else (agetD (0, 0) w s.windows).1
  | .plain => sget s.devRegs pa

/-- A device register written: LINKCFG while every Kazeg port is DOWN, EN of a port, a window descriptor with no reserved
bit set, or a register that keeps what is written (R10, R337, R341). -/
def State.writeReg (s : State) (pa : Nat) (x : W64) : State :=
  match devReg pa with
  | .linkcfg => if aany (fun _ p => p.st != .down) s.kports then s else { s with linkcfg := x.setWidth 10 }
  | .kport p => { s with kports := aset p ((agetD Port.init p s.kports).setEn (bitAt x.toNat 3)) s.kports }
  | .mport m => { s with mports := aset m ((agetD Port.init m s.mports).setEn (bitAt x.toNat 3)) s.mports }
  | .window w hi =>
    let d := agetD (0, 0) w s.windows
    if hi then (if bits x.toNat 63 32 = 0 then { s with windows := aset w (d.1, x) s.windows } else s)
    else if bits x.toNat 39 0 = 0 then { s with windows := aset w (x, d.2) s.windows } else s
  | .plain => { s with devRegs := sset s.devRegs pa x }

/-! ## Reading and writing a target -/

/-- Byte i of a target. -/
def State.tgtByte (s : State) (t : Target) (i : Nat) : Byte :=
  match t with
  | .dev pa => s.byte (pa + i)
  | .host a => sget s.hostMem (a + i)
  | .peer _ k => sget s.peerMem (k + i)
  | .reg pa => BitVec.ofNat 8 ((s.regRaw (pa / 8 * 8)).toNat / 2 ^ (8 * ((pa + i) % 8)))
  | .tile tk off => s.tileByte tk (off + i)

/-- The n bytes of a target, as one little-endian value (R42). -/
def State.tgtValue (s : State) (t : Target) (n : Nat) : Nat := leValue (s.tgtByte t) 0 n

/-- The releases that a tile's bytes carry after n of them are written (R240): the write's own, and, of an atomic, what they carried. -/
def Tile.relsAfter (x : Tile) (off n : Nat) (atomic : Bool) (rels : List Release) : List (Nat × Release) :=
  ((List.range n).flatMap fun i => rels.map fun r => (off + i, r)) ++
    x.rels.filter fun e => atomic || Nat.blt e.1 off || Nat.ble (off + n) e.1

/-- Bytes of a tile written by what is no atomic. -/
def Tile.put (x : Tile) (off : Nat) (bs : List Byte) : Tile := { x with bytes := putBytes x.bytes off bs, rels := x.relsAfter off bs.length false [] }

/-- A byte string written to a target. A tile's granules keep their state: the engine or instruction says it (R168). -/
def State.writeTgt (s : State) (t : Target) (bs : List Byte) : State :=
  match t with
  | .dev pa => s.writeDev pa bs
  | .host a => { s with hostMem := putBytes s.hostMem a bs }
  | .peer _ k => { s with peerMem := putBytes s.peerMem k bs }
  | .reg pa =>
      let old := (s.regRaw (pa / 8 * 8)).toNat
      let k := pa % 8
      let mask := (2 ^ (8 * bs.length) - 1) * 2 ^ (8 * k)
      let x := leValue (fun i => bs.getD i 0) 0 bs.length * 2 ^ (8 * k)
      s.writeReg (pa / 8 * 8) (BitVec.ofNat 64 (old - Nat.land old mask + Nat.land x mask))
  | .tile tk off =>
      match alook tk s.tiles with
      | some x => { s with tiles := aset tk (x.put off bs) s.tiles }
      | none => s

/-- The space and the address of a target: the spaces 0 to 2 are memory. -/
def Target.key (t : Target) : Nat × Nat :=
  match t with
  | .dev pa => (0, pa)
  | .host a => (1, a)
  | .peer _ k => (2, k)
  | .reg pa => (3, pa)
  | .tile tk off => (4 + tk, off)

/-! ## The coherence order (R237)

The writes to memory take effect one after another; `State.clock` counts them. A read takes effect at one time, not before the latest write
that it must see: it returns what each of its bytes held then, so that it returns the bytes of one write (log entry 11). -/

/-- A performed write covers a byte. -/
def PastWrite.covers (w : PastWrite) (space addr : Nat) : Bool :=
  w.space == space && Nat.ble w.addr addr && Nat.blt addr (w.addr + w.old.length)

/-- A performed write shares a byte with n bytes from an address. -/
def PastWrite.meets (w : PastWrite) (space addr n : Nat) : Bool :=
  w.space == space && Nat.blt w.addr (addr + n) && Nat.blt addr (w.addr + w.old.length)

/-- A byte as it stood at a time: `b` with every later write undone, the latest first. -/
def undo (space addr time : Nat) : List PastWrite → Byte → Byte
  | [], b => b
  | w :: r, b =>
    if w.time ≤ time then b
    else undo space addr time r (if w.covers space addr then w.old.getD (addr - w.addr) 0 else b)

/-- Byte i of a target as it stood at a time. -/
def State.tgtByteAt (s : State) (time : Nat) (t : Target) (i : Nat) : Byte :=
  if t.key.1 < 3 then undo t.key.1 (t.key.2 + i) time s.past (s.tgtByte t i) else s.tgtByte t i

/-- The operations that happen before an access ordered after some (R241): those, and all that happens before them. -/
def State.closure (s : State) (after : List Nat) : List Nat := after ++ after.flatMap fun k => (alook k s.order).getD []

/-- The key of a byte of memory in a list of what a party has read. -/
def seenKey (t : Target) (i : Nat) : Nat := t.key.1 * 2 ^ 80 + t.key.2 + i

/-- n bytes of a target read at a time (R237). -/
def noteSeen (seen : List (Nat × Nat)) (t : Target) (n time : Nat) : List (Nat × Nat) :=
  if t.key.1 < 3 ∧ 0 < time then
    (List.range n).foldl (fun m i => aset (seenKey t i) (max time (agetD 0 (seenKey t i) m)) m) seen
  else seen

/-- The latest write that a read of n bytes must see (R237, R241, R243): one that happens before it, the reader's own latest, what
the reader has seen of a byte, and, for a strong read, the latest strong write. -/
def State.readFloor (s : State) (a : Agent) (seen : List (Nat × Nat)) (after : List Nat) (strong : Bool) (t : Target) (n : Nat) : Nat :=
  let c := s.closure after
  let w := s.past.find? fun w => w.meets t.key.1 t.key.2 n &&
    (c.contains w.op || (w.ag == a && a != .none) || (strong && w.strong))
  let f := match w with
    | some w => w.time
    | none => 0
  (List.range n).foldl (fun m i => max m (agetD 0 (seenKey t i) seen)) f

/-- The time at which a read takes effect, from its floor on: the part chooses (log entry 11). -/
def State.readTime (s : State) (floor k : Nat) : Nat := floor + Config.choice s.freeN (2 ^ 61 + k) % (s.clock + 1 - floor)

/-- The writes whose bytes a read at a time returns, out of a list, the latest first; `bs` are the bytes still to be found. -/
def sourcesOf (space time : Nat) : List PastWrite → List Nat → List PastWrite
  | [], _ => []
  | w :: r, bs =>
    if w.time ≤ time ∧ (bs.any fun b => w.covers space b) = true then w :: sourcesOf space time r (bs.filter fun b => !w.covers space b)
    else sourcesOf space time r bs

/-- The writes whose bytes a read of a target returns at a time. -/
def State.sources (s : State) (time : Nat) (t : Target) (n : Nat) : List PastWrite :=
  sourcesOf t.key.1 time s.past ((List.range n).map fun i => t.key.2 + i)

/-- The releases that stand in the coherence order of a location: an atomic carries them on (R240). -/
def State.relsAt (s : State) (t : Target) (n : Nat) : List Release :=
  s.past.flatMap fun w => if w.meets t.key.1 t.key.2 n then w.rels else []

/-- A write performed in memory: it takes its place in the coherence order (R237). A register or a tile has none; a tile's bytes carry the
write's releases (R240). -/
def State.writeAs (s : State) (op : Nat) (a : Agent) (strong atomic : Bool) (rels : List Release) (t : Target) (bs : List Byte) : State :=
  if t.key.1 < 3 then
    let w : PastWrite := {
      time := s.clock + 1, space := t.key.1, addr := t.key.2, old := (List.range bs.length).map fun i => s.tgtByte t i
      op := op, ag := a, strong := strong, atomic := atomic, rels := if atomic then rels ++ s.relsAt t bs.length else rels }
    { s.writeTgt t bs with clock := s.clock + 1, past := w :: (s.writeTgt t bs).past }
  else
    match t with
    | .tile k off =>
      match alook k s.tiles with
      | some x => { s with tiles := aset k { x.put off bs with rels := x.relsAfter off bs.length atomic rels } s.tiles }
      | none => s
    | _ => s.writeTgt t bs

/-- The releases that a read of n bytes of a target at a time meets (R240): those of the writes whose bytes it returns. -/
def State.relsRead (s : State) (time : Nat) (t : Target) (n : Nat) : List Release :=
  match t with
  | .tile k off =>
    match alook k s.tiles with
    | some x => (x.rels.filter fun e => Nat.ble off e.1 && Nat.blt e.1 (off + n)).map fun e => e.2
    | none => []
  | _ => (s.sources time t n).flatMap fun w => w.rels

/-- A target moved by a number of bytes. -/
def Target.plus (t : Target) (n : Nat) : Target :=
  match t with
  | .dev pa => .dev (pa + n)
  | .host a => .host (a + n)
  | .peer p k => .peer p (k + n)
  | .reg pa => .reg (pa + n)
  | .tile tk off => .tile tk (off + n)

/-! ## Ranges and windows (R10, R337) -/

/-- The descriptor of a peer window: zero where none is listed (R337). -/
def State.window (s : State) (w : Nat) : W64 × W64 := agetD (0, 0) w s.windows

/-- The ranges of R10, with the two tiers of R9. -/
inductive Range where
  | tier1 | tier2 | hole | peer (w : Nat) | reg
  deriving DecidableEq, Repr

/-- The capacity in GiB of the module at a memory port: at most 1 TiB, and zero where none is attached (R9). -/
def Part.capacity (p : Part) (port : Nat) : Nat := if bitAt p.t2ports.toNat port then min 1024 (agetD 0 port p.t2cap) else 0

/-- The tier-2 capacity of the memory ports below one, in GiB. -/
def Part.below (p : Part) : Nat → Nat
  | 0 => 0
  | n + 1 => p.below n + p.capacity n

/-- The installed tier-2 capacity in GiB (R12). -/
def Part.t2size (p : Part) : Nat := p.below 16

/-- The range of a physical address, as populated now (R10, R13, R330). -/
def State.range (s : State) (pa : Nat) : Range :=
  if pa < 0x10000000000 then (if pa < s.t1size * 2 ^ 30 then .tier1 else .hole)
  else if pa < 0x100000000000 then .hole
  else if pa < 0x200000000000 then (if pa < 0x100000000000 + s.part.t2size * 2 ^ 30 then .tier2 else .hole)
  else if pa < 0xF000000000000 then .peer ((pa - 0x200000000000) / 2 ^ 40)
  else if pa < 0x10000000000000 then .reg
  else .hole

/-- The channel of a tier-1 address (R322) after a list of retirements, the latest first: each unit of a retired channel reaches the
donor unit of its rank, both in ascending PA (R330). -/
def channelOf (pa : Nat) : List (Nat × Nat) → Nat
  | [] => Nat.xor (bits pa 19 12) (bits pa 27 20)
  | (c, size) :: r =>
    if channelOf pa r = c then
      let rank := ((List.range (pa / 4096)).filter fun u => channelOf (4096 * u) r == c).length
      let base := (size - 4) * 2 ^ 18
      let donors := ((List.range (2 ^ 20)).map fun i => base + i).filter fun u =>
        let d := channelOf (4096 * u) r
        d != c && !r.any fun e => e.1 == d
      channelOf (4096 * donors.getD rank 0) r
    else channelOf pa r

/-- The home of a device address: a channel 0 to 255 (R322), or 256 + the memory port whose capacity it lies in, the ports' capacities
joined end to end in ascending order (R323). -/
def State.home (s : State) (pa : Nat) : Nat :=
  if pa < 0x100000000000 then channelOf pa s.retired
  else 256 + ((List.range 16).find? fun p => Nat.blt pa (0x100000000000 + s.part.below (p + 1) * 2 ^ 30)).getD 15

/-! ## The walk (R317 to R319) -/

/-- How a walk ends. -/
inductive Walk where
  | invalid
  | malformed
  | leaf (e : TlbEntry)
  deriving DecidableEq, Repr

/-- The number of low address bits below a level's index. -/
def levelShift (l : Nat) : Nat :=
  match l with
  | 0 => 16
  | 1 => 21
  | 2 => 30
  | _ => 39

/-- The index of a virtual address at a level (R317). -/
def levelIndex (l va : Nat) : Nat :=
  match l with
  | 0 => bits va 20 16
  | 1 => bits va 29 21
  | 2 => bits va 38 30
  | _ => bits va 55 39

/-- The alignment of the table that a table entry at a level names (R317). -/
def tableAlign (l : Nat) : Nat := if l ≤ 1 then 256 else 4096

/-- An entry's reserved bits are not all zero (R318). -/
def pteRsv (e : Nat) : Bool := bits e 63 52 != 0 || bitAt e 7 || bitAt e 2

/-- The page-table entry at a physical address. -/
def State.pte (s : State) (pa : Nat) : Nat := leValue (fun i => s.byte i) pa 8

/-- A leaf entry at a level. -/
def leafOf (ctx l va e : Nat) : Walk :=
  let size := 2 ^ levelShift l
  let pa := bits e 51 8 * 256
  if pteRsv e || l == 3 || (if bitAt e 6 then pa != 0 else pa % size != 0) then .malformed
  else .leaf { ctx := ctx, page := va / size * size, size := size, pa := pa, host := bitAt e 6, sys := bitAt e 5,
               x := bitAt e 4, w := bitAt e 3 }

/-- A walk from a table at a level down (R317, R319). -/
def State.walkAt (s : State) (ctx va : Nat) : Nat → Nat → Walk
  | 0, tb =>
    let e := s.pte (tb + 8 * levelIndex 0 va)
    match e % 4 with
    | 0 => .invalid
    | 2 => leafOf ctx 0 va e
    | _ => .malformed
  | l + 1, tb =>
    let e := s.pte (tb + 8 * levelIndex (l + 1) va)
    match e % 4 with
    | 0 => .invalid
    | 1 =>
      let next := bits e 51 8 * 256
      if pteRsv e || bits e 6 2 != 0 || next % tableAlign (l + 1) != 0 then .malformed
      else s.walkAt ctx va l next
    | 2 => leafOf ctx (l + 1) va e
    | _ => .malformed

/-- A walk of a context's tables from the root. -/
def State.walk (s : State) (ctx va : Nat) : Walk :=
  match alook ctx s.ctxs with
  | some c => s.walkAt ctx va 3 c.root
  | none => .invalid

/-- The entries that a walk from a table at a level reads, by their addresses (R317). -/
def State.walkReadsAt (s : State) (va : Nat) : Nat → Nat → List Nat
  | 0, tb => [tb + 8 * levelIndex 0 va]
  | l + 1, tb =>
    let a := tb + 8 * levelIndex (l + 1) va
    let e := s.pte a
    a :: (if e % 4 = 1 then s.walkReadsAt va l (bits e 51 8 * 256) else [])

/-- The entries that a walk of a context's tables reads. -/
def State.walkReads (s : State) (ctx va : Nat) : List Nat :=
  match alook ctx s.ctxs with
  | some c => s.walkReadsAt va 3 c.root
  | none => []

/-- A cached translation that covers an address. -/
def State.cached (s : State) (ctx va : Nat) : Option TlbEntry :=
  s.tlb.find? fun e => e.ctx == ctx && Nat.ble e.page va && Nat.blt va (e.page + e.size)

/-- The translation an access uses: the tables' own, or a different one still cached (R321). -/
def State.translate (s : State) (ctx va : Nat) : Walk :=
  match s.cached ctx va with
  | none => s.walk ctx va
  | some e =>
    if s.walk ctx va = .leaf e then .leaf e
    else if Config.choice s.freeN (2 ^ 60 + va) % 2 = 1 then .leaf e else s.walk ctx va

/-- The state with a translation that an access used cached (R321, R317). -/
def State.cache (s : State) (ctx va : Nat) : State :=
  match s.cached ctx va, s.walk ctx va with
  | none, .leaf e => { s with tlb := e :: s.tlb }
  | _, _ => s

/-! ## Read-only and executable pages (R280, R396) -/

/-- A page holds a byte of the code section of a loaded object (R396). -/
def State.codePage (s : State) (ctx lo hi : Nat) : Bool :=
  aany (fun _ o => o.ctx == ctx && Nat.blt o.code.toNat hi && Nat.blt lo (o.code.toNat + o.size)) s.objs

/-- A page holds a static byte of a frame that a DECANT record has mapped (R280). -/
def State.framePage (s : State) (ctx lo hi : Nat) : Bool :=
  s.roFrames.any fun f => f.ctx == ctx &&
    ((List.range 256).any fun i => bitAt f.smask.toNat i && Nat.ble lo (f.frame.toNat + i) && Nat.blt (f.frame.toNat + i) hi)

/-! ## One access -/

/-- Why an address cannot be accessed. `page` is repairable (R319). -/
inductive AccErr where
  | protect | page | dead
  deriving DecidableEq, Repr

/-- What an access is, for the checks of R10, R180 and R319. -/
structure Acc where
  ctx   : Nat
  level : Level
  write : Bool
  deriving DecidableEq, Repr

/-- Some port of a set is TRAINING, RETRAIN or ACTIVE (R338). -/
def State.anyPort (s : State) (ports : Nat) : Bool :=
  (List.range 32).any fun p => bitAt ports p &&
    (match (agetD Port.init p s.kports).st with
     | .training | .retrain | .active => true
     | _ => false)

/-- Some port of a set is ACTIVE (R338). -/
def State.activePort (s : State) (ports : Nat) : Bool :=
  (List.range 32).any fun p => bitAt ports p && (agetD Port.init p s.kports).st == .active

/-- The target of a physical address, or its fault. A window with no port that can carry the access gives `dead`,
which is UNCORRECTABLE (R338), as does a memory port that has FAILED (R340). -/
def State.physical (s : State) (a : Acc) (pa : Nat) : Except AccErr Target :=
  match s.range pa with
  | .tier1 => .ok (.dev pa)
  | .tier2 => if (agetD Port.init (s.home pa - 256) s.mports).st = .failed then .error .dead else .ok (.dev pa)
  | .hole => .error .protect
  | .reg => if a.level = .system then .ok (.reg pa) else .error .protect
  | .peer w =>
    let d := s.window w
    if !bitAt d.1.toNat 63 || (a.write && !bitAt d.1.toNat 62) then .error .protect
    else if !s.anyPort (bits d.2.toNat 31 0) then .error .dead
    else
      let rpa := bits d.1.toNat 61 50 * 2 ^ 40 + pa % 2 ^ 40
      if rpa < 0x10000000000 ∨ (0x100000000000 ≤ rpa ∧ rpa < 0x200000000000) then
        .ok (.peer (bits d.2.toNat 31 0) (bits d.1.toNat 49 40 * 2 ^ 52 + rpa))
      else .error .protect

/-- The target of a virtual address of 56 bits (R317 to R320), with PROTECT found before PAGE where both are possible. -/
def State.access (s : State) (a : Acc) (va : Nat) : Except AccErr Target :=
  match s.translate a.ctx va with
  | .invalid => .error .page
  | .malformed => .error .protect
  | .leaf e =>
    if (a.write && !e.w) || (e.sys && a.level == .program) then .error .protect
    else if a.write && a.level != .system &&
        (s.codePage a.ctx e.page (e.page + e.size) || s.framePage a.ctx e.page (e.page + e.size)) then .error .protect
    else if e.host then
      match s.atc.find? fun t => t.ctx == a.ctx && t.page == va / 65536 with
      | some t => .ok (.host (t.host + va % 65536))
      | none => .error .page
    else s.physical a (e.pa + (va - e.page))

/-- Why a code word cannot be fetched; `true` says that the fault is repairable (R319). -/
abbrev FetchErr := Bool

/-- The target of a fetch at a virtual address (R319, R396). -/
def State.fetchAt (s : State) (ctx : Nat) (level : Level) (va : Nat) : Except FetchErr Target :=
  if 2 ^ 56 ≤ va then .error false
  else
  match s.translate ctx va with
  | .invalid => .error true
  | .malformed => .error false
  | .leaf e =>
    if (e.sys && level == .program) || !(e.x || s.codePage ctx e.page (e.page + e.size)) then .error false
    else if e.host then
      match s.atc.find? fun t => t.ctx == ctx && t.page == va / 65536 with
      | some t => .ok (.host (t.host + va % 65536))
      | none => .error true
    else
      match s.physical { ctx := ctx, level := level, write := false } (e.pa + (va - e.page)) with
      | .ok t => .ok t
      | .error _ => .error false

/-- The code word at a virtual address. -/
def State.fetchWord (s : State) (ctx : Nat) (level : Level) (va : Nat) : Except FetchErr W32 :=
  match s.fetchAt ctx level va with
  | .ok t => .ok (BitVec.ofNat 32 (s.tgtValue t 4))
  | .error e => .error e

/-! ## Reads by engines and firmware -/

/-- n bytes at a virtual address, byte by byte through the translation; none where one cannot be read. -/
def State.readVirt (s : State) (a : Acc) : Nat → Nat → Except AccErr (List Byte)
  | _, 0 => .ok []
  | va, n + 1 =>
    match s.access a va with
    | .error e => .error e
    | .ok t =>
      match s.readVirt a (va + 1) n with
      | .error e => .error e
      | .ok r => .ok (s.tgtByte t 0 :: r)

/-- The little-endian 64-bit words of a byte string. -/
def words64 : List Byte → List W64
  | b0 :: b1 :: b2 :: b3 :: b4 :: b5 :: b6 :: b7 :: r =>
    BitVec.ofNat 64 (leValue (fun i => [b0, b1, b2, b3, b4, b5, b6, b7].getD i 0) 0 8) :: words64 r
  | _ => []

/-- n 64-bit words at a virtual address. An 8-byte aligned word lies in one page, so one translation serves it. -/
def State.readWords (s : State) (a : Acc) : Nat → Nat → Except AccErr (List W64)
  | _, 0 => .ok []
  | va, n + 1 =>
    match s.access a va with
    | .error e => .error e
    | .ok t =>
      match s.readWords a (va + 8) n with
      | .error e => .error e
      | .ok r => .ok (BitVec.ofNat 64 (s.tgtValue t 8) :: r)

/-! ## Reads by parties that are no team (R237) -/

/-- The numbers of the parties that are no team: an engine of a core's copy queue, the Picker of a die, the scan units, of which each byte
has one, the Decanter and the dispatcher of a die, and a requester of the host or of a peer. -/
def copyParty (core q : Nat) : Nat := 4 * core + q
def pickParty (die : Nat) : Nat := 1600 + die
def scanParty : Nat := 1616
def decantParty (die : Nat) : Nat := 1632 + die
def joinParty (die : Nat) : Nat := 1648 + die
def Agent.party (a : Agent) : Nat :=
  match a with
  | .host r => 4096 + 2 * r
  | .peer p k => 4097 + 2 * (p + 1024 * k)
  | .none | .team _ | .ctl _ _ => 0

/-- What a party that is no team has read of each byte. -/
def State.seenOf (s : State) (p : Nat) : List (Nat × Nat) := agetD [] p s.seen

/-- The time at which a party's read of n bytes of a target takes effect, after some operations: the part chooses, from what it must see on. -/
def State.timeBy (s : State) (p : Nat) (after : List Nat) (t : Target) (n k : Nat) : Nat :=
  s.readTime (s.readFloor .none (s.seenOf p) after false t n) k

/-- n bytes of a target, as a party reads them after some operations. -/
def State.valueBy (s : State) (p : Nat) (after : List Nat) (t : Target) (n k : Nat) : Nat := leValue (s.tgtByteAt (s.timeBy p after t n k) t) 0 n

/-- One read of a party: its target, its bytes, and its number among the choices of the step. -/
abbrev PartyRead := Target × Nat × Nat

/-- What a party has read in one step, noted. -/
def State.noteReads (s : State) (p : Nat) (after : List Nat) (l : List PartyRead) : State :=
  { s with seen := aset p (l.foldl (fun m r => noteSeen m r.1 r.2.1 (s.timeBy p after r.1 r.2.1 r.2.2)) (s.seenOf p)) s.seen }

/-- n bytes of a target that a party has read at a time. -/
def State.sawAt (s : State) (p : Nat) (t : Target) (n time : Nat) : State := { s with seen := aset p (noteSeen (s.seenOf p) t n time) s.seen }

/-- The bytes of 64-bit words, little-endian. -/
def wordBytes (ws : List W64) : List Byte := ws.flatMap fun w => leBytes w.toNat 8

end Sys2Proof.Machine
end

