-- ==== Sys2Proof/Machine/Place.lean ====
section
/-!
DEFINITION. A team placed with given code words as the next it fetches (log entry 2): context 1 with its page tables, one
group on core 0, and a team in slot 0 inside a clause.
-/
namespace Sys2Proof.Machine

/-- The placed code's address, virtual and physical. -/
def placeAddr : Nat := 0x10000

/-- The placed context's root table, and the table its first entry names. -/
def placeRoot : Nat := 0x100000
def placeTable : Nat := 0x200000

/-- A page-table entry written. -/
def State.putEntry (s : State) (pa x : Nat) : State := { s with mem := putBytes s.mem pa (leBytes x 8) }

/-- The placed team: as R114 gives a released team of TW 32 with 32 registers, inside a clause whose flags are f0 and f1. -/
def placeTeam (classT : Bool) : Team :=
  { ctl := false, level := .program, gid := 1, tix := 0, slot := 0, tw := 32, allot := 32, st := .ready, wait := .none
    since := 0, pc := .code (BitVec.ofNat 64 placeAddr)
    clause := { hdr := some (.code (BitVec.ofNat 64 placeAddr)), fin := none, setA := 0, setB := 1, issued := 0
                inside := true, brk := [] }
    vregs := [], sregs := [], cc := [], flags := [], fpflags := 0
    sh0 := { Shape.none with kind := .vec, clt := classT, cp := 1, gsz := 1, d0 := 32 }
    sh1 := { Shape.none with clt := classT, cp := 1 }, sh2 := { Shape.none with clt := classT, cp := 1 }
    sh3 := { Shape.none with clt := classT, cp := 1 }
    winBase := 0, active := lowMask 32, exited := 0, fault := 0, stack := []
    trapTok := { kind := .empty, pc := .code 0, mask := 0 }, loop := none, gang := 0, pending := none, pendOvf := false
    trap := none, fromDrain := false, errs := [], replay := none, bpSkip := false, arrived := none, hint := 0, hintAt := 0
    hb := [], own := [], seen := [], latent := [], fences := [], posts := [], held := [], relAt := 8 * b2n classT + 1 }

/-- The placed group and launch. -/
def placeGroup : Group :=
  { launch := 1, ctx := 1, region := 0, gix := 0, st := .running, place := .bank 0 0, slot := 0, teams := [1], frame := 0
    join := 0, nb := 0, bars := [], l0 := 0, l1 := 0, foot := 4096, cpLo := 0, cpHi := 5, heldLo := 0, heldHi := 5
    residuals := [], mark := none, commited := false, partner := none, copyIdx := 0, hb := [] }

/-- Code words stored at the placed address, and the team that fetches there made current. -/
def State.placeWords (s : State) (ws : List W32) : State :=
  let s1 : State := { s with
    ctxs := aset 1 { pasid := 0, root := placeRoot, closing := false, rootRegion := 0, regions := [], brk := [], vector := 4 } s.ctxs
    teams := aset 1 (placeTeam (bitAt s.part.classT.toNat 0)) s.teams
    groups := aset 1 placeGroup s.groups
    launches := aset 1 { ctx := 1, region := 0, die := 0, task := [], left := 0, live := 1, hb := [] } s.launches
    nextId := max s.nextId 2
    cores := aset 0 { CoreSt.init with bank0 := { Bank.init .active with ctx := some 1 } } s.cores
    tlb := [], agenda := [], cur := .team 1
    fw := { s.fw with halted := none, powered := true } }
  -- the root entry names the table; the table's first entry is a leaf of 1 GiB at 0, writable and executable (R317, R318)
  let s2 := (s1.putEntry placeRoot (placeTable + 1)).putEntry placeTable (2 + 8 + 16)
  { s2 with mem := putBytes s2.mem placeAddr (ws.flatMap bytesOfWord) }

end Sys2Proof.Machine
end

