-- ==== Sys2Proof/Machine/Flags.lean ====
section
/-!
DEFINITION. Condition codes (R75 to R77) and the results of the integer and logic operations with the carry and overflow
each forms (R83 to R90). An element is a natural number below 2^w; an operation computes exactly and narrows at the end.
-/
namespace Sys2Proof.Machine

/-! ## Nibbles -/

/-- A nibble: N in bit 3, Z in bit 2, C in bit 1, V in bit 0 (R75). -/
def nibble (n z c v : Bool) : BitVec 4 := BitVec.ofNat 4 (8 * b2n n + 4 * b2n z + 2 * b2n c + b2n v)

def nibN (x : BitVec 4) : Bool := bitAt x.toNat 3
def nibZ (x : BitVec 4) : Bool := bitAt x.toNat 2
def nibC (x : BitVec 4) : Bool := bitAt x.toNat 1
def nibV (x : BitVec 4) : Bool := bitAt x.toNat 0

/-- The test of a condition code on a nibble (R76). -/
def condTest (c : Cond) (x : BitVec 4) : Bool :=
  match c with
  | .eq => nibZ x
  | .ne => !nibZ x
  | .lt => nibN x != nibV x
  | .ge => nibN x == nibV x
  | .le => nibZ x || nibN x != nibV x
  | .gt => !nibZ x && nibN x == nibV x
  | .lo => !nibC x
  | .hs => nibC x
  | .ls => !nibC x || nibZ x
  | .hi => nibC x && !nibZ x
  | .mi => nibN x
  | .pl => !nibN x
  | .vs => nibV x
  | .vc => !nibV x
  | .al => true
  | .nv => false

/-! ## Elements -/

/-- The result of an operation on one element, with its carry and overflow. -/
structure IntRes where
  val : Nat
  c   : Bool
  v   : Bool
  deriving DecidableEq, Repr

/-- The nibble of an element's result (R77): N its top bit, Z whether it is 0. -/
def IntRes.nib (w : Nat) (r : IntRes) : BitVec 4 := nibble (bitAt r.val (w - 1)) (r.val == 0) r.c r.v

/-- An element as a signed number. -/
def sInt (w a : Nat) : Int := if a < 2 ^ (w - 1) then (a : Int) else (a : Int) - 2 ^ w

/-- An element as its type reads it. -/
def tInt (signed : Bool) (w a : Nat) : Int := if signed then sInt w a else (a : Int)

/-- The element of an exact result: it wraps modulo 2^w. -/
def narrow (w : Nat) (x : Int) : Nat := (x % 2 ^ w).toNat

/-- An exact value fits the type. -/
def fits (signed : Bool) (w : Nat) (x : Int) : Bool :=
  if signed then decide (-(2 ^ (w - 1) : Int) ≤ x) && decide (x < 2 ^ (w - 1)) else decide (0 ≤ x) && decide (x < 2 ^ w)

/-- A result with carry and overflow 0. -/
def plain (x : Nat) : IntRes := { val := x, c := false, v := false }

/-- What an operation reads of one element: its width, whether its type is signed, its operands, the old value of the
destination, and the C of the nibble. -/
structure IntIn where
  w      : Nat
  signed : Bool
  a      : Nat
  b      : Nat
  d      : Nat
  cin    : Bool
  deriving DecidableEq, Repr

/-- ADD and ADDC (R83, R77). -/
def aluAdd (w a b cin : Nat) : IntRes :=
  { val := (a + b + cin) % 2 ^ w, c := Nat.ble (2 ^ w) (a + b + cin), v := !fits true w (sInt w a + sInt w b + cin) }

/-- SUB, SUBB and CMP: C means no borrow (R83, R77). -/
def aluSub (w a b bin : Nat) : IntRes :=
  { val := narrow w ((a : Int) - b - bin), c := Nat.ble (b + bin) a, v := !fits true w (sInt w a - sInt w b - bin) }

/-- A value clamped to the range of a type (R84). -/
def clampInt (signed : Bool) (w : Nat) (x : Int) : Int :=
  if signed then max (-(2 ^ (w - 1) : Int)) (min x (2 ^ (w - 1) - 1)) else max 0 (min x (2 ^ w - 1))

/-- ADDS and SUBS (R84, R77). -/
def aluSat (signed : Bool) (w : Nat) (x : Int) : IntRes :=
  { val := narrow w (clampInt signed w x), c := false, v := !fits signed w x }

def opAdd (i : IntIn) : IntRes := aluAdd i.w i.a i.b 0
def opSub (i : IntIn) : IntRes := aluSub i.w i.a i.b 0
def opAddc (i : IntIn) : IntRes := aluAdd i.w i.a i.b (b2n i.cin)
def opSubb (i : IntIn) : IntRes := aluSub i.w i.a i.b (1 - b2n i.cin)
def opAdds (i : IntIn) : IntRes := aluSat i.signed i.w (tInt i.signed i.w i.a + tInt i.signed i.w i.b)
def opSubs (i : IntIn) : IntRes := aluSat i.signed i.w (tInt i.signed i.w i.a - tInt i.signed i.w i.b)

/-- MUL (R85). -/
def opMul (i : IntIn) : IntRes :=
  let p := tInt i.signed i.w i.a * tInt i.signed i.w i.b
  { val := narrow i.w p, c := false, v := !fits i.signed i.w p }

/-- MULH (R85): floor of the product over 2^w. -/
def opMulh (i : IntIn) : IntRes :=
  plain (narrow i.w (Int.fdiv (tInt i.signed i.w i.a * tInt i.signed i.w i.b) (2 ^ i.w)))

/-- MAD (R85). -/
def opMad (i : IntIn) : IntRes :=
  let p := tInt i.signed i.w i.a * tInt i.signed i.w i.b + tInt i.signed i.w i.d
  { val := narrow i.w p, c := false, v := !fits i.signed i.w p }

/-- The quotient, the remainder and V of DIV and REM (R86). -/
def divRem (i : IntIn) : Nat × Nat × Bool :=
  if i.b = 0 then (2 ^ i.w - 1, i.a, true)
  else if i.signed ∧ i.a = 2 ^ (i.w - 1) ∧ i.b = 2 ^ i.w - 1 then (2 ^ (i.w - 1), 0, true)
  else
    let x := tInt i.signed i.w i.a
    let y := tInt i.signed i.w i.b
    (narrow i.w (Int.tdiv x y), narrow i.w (Int.tmod x y), false)

def opDiv (i : IntIn) : IntRes := { val := (divRem i).1, c := false, v := (divRem i).2.2 }
def opRem (i : IntIn) : IntRes := { val := (divRem i).2.1, c := false, v := (divRem i).2.2 }

/-- MIN, MAX and ABSD (R87). -/
def opMin (i : IntIn) : IntRes := plain (if tInt i.signed i.w i.a ≤ tInt i.signed i.w i.b then i.a else i.b)
def opMax (i : IntIn) : IntRes := plain (if tInt i.signed i.w i.a ≤ tInt i.signed i.w i.b then i.b else i.a)
def opAbsd (i : IntIn) : IntRes := plain (tInt i.signed i.w i.a - tInt i.signed i.w i.b).natAbs

/-- The logic operations (R87). -/
def opAnd (i : IntIn) : IntRes := plain (Nat.land i.a i.b)
def opOr (i : IntIn) : IntRes := plain (Nat.lor i.a i.b)
def opXor (i : IntIn) : IntRes := plain (Nat.xor i.a i.b)
def opAndn (i : IntIn) : IntRes := plain (Nat.land i.a (2 ^ i.w - 1 - i.b))

/-- The shifts by an amount (R88). -/
def shlBy (w a k : Nat) : Nat := if k < w then a * 2 ^ k % 2 ^ w else 0
def shrBy (w a k : Nat) : Nat := if k < w then a / 2 ^ k else 0
def sarBy (w a k : Nat) : Nat :=
  if k < w then narrow w (Int.fdiv (sInt w a) (2 ^ k)) else if bitAt a (w - 1) then 2 ^ w - 1 else 0
def rotBy (w a k : Nat) : Nat :=
  let r := k % w
  (a * 2 ^ r + a / 2 ^ (w - r)) % 2 ^ w

/-- The amount is bits [7:0] of b (R88). -/
def opShl (i : IntIn) : IntRes := plain (shlBy i.w i.a (i.b % 256))
def opShr (i : IntIn) : IntRes := plain (shrBy i.w i.a (i.b % 256))
def opSar (i : IntIn) : IntRes := plain (sarBy i.w i.a (i.b % 256))
def opRot (i : IntIn) : IntRes := plain (rotBy i.w i.a (i.b % 256))

/-- The low k bits of a value extended to an element, 1 ≤ k (R89, R90). -/
def extendBits (signed : Bool) (w k x : Nat) : Nat :=
  let f := x % 2 ^ k
  if signed && bitAt f (k - 1) then 2 ^ w - 2 ^ k + f else f

/-- BFE (R89). -/
def opBfe (i : IntIn) : IntRes :=
  let p := i.b % 256
  let n := i.b / 256 % 256
  if n = 0 ∨ i.w ≤ p then plain 0
  else plain (extendBits i.signed i.w (min n (i.w - p)) (i.a / 2 ^ p))

/-- BFI (R89). -/
def opBfi (i : IntIn) : IntRes :=
  let p := i.b % 256
  let n := i.b / 256 % 256
  if n = 0 ∨ i.w ≤ p then plain i.d
  else
    let k := min n (i.w - p)
    let mask := (2 ^ k - 1) * 2 ^ p
    plain (i.d - Nat.land i.d mask + Nat.land (i.a * 2 ^ p) mask)

/-- The number of set bits below a width. -/
def popCount (x : Nat) : Nat → Nat
  | 0 => 0
  | n + 1 => b2n (bitAt x n) + popCount x n

/-- The number of zero bits above the highest set bit (R89). -/
def leadZeros (x : Nat) : Nat → Nat
  | 0 => 0
  | n + 1 => if bitAt x n then 0 else 1 + leadZeros x n

/-- The bits of a value in reverse order (R89). -/
def revBits (x w : Nat) : Nat → Nat
  | 0 => 0
  | n + 1 => b2n (bitAt x n) * 2 ^ (w - 1 - n) + revBits x w n

def opPopc (i : IntIn) : IntRes := plain (popCount i.a i.w)
def opClz (i : IntIn) : IntRes := plain (leadZeros i.a i.w)
def opBrev (i : IntIn) : IntRes := plain (revBits i.a i.w i.w)

/-- EXT (R90). -/
def opExt (i : IntIn) : IntRes :=
  let k := i.b % 256
  if k = 0 then plain 0 else if i.w ≤ k then plain i.a else plain (extendBits i.signed i.w k i.a)

/-- MOV (R93). -/
def opMov (i : IntIn) : IntRes := plain i.a

/-! ## Lanes of a type -/

/-- The element width and count of a type on a 32-bit lane, and whether it is signed (R42, R81). -/
def intElem (t : IntTy) : Nat × Nat × Bool :=
  match t with
  | .i => (32, 1, true)
  | .n => (32, 1, false)
  | .p16 => (16, 2, true)
  | .p8 => (8, 4, true)

/-- Element j of a lane value (R42). -/
def elemOf (w x j : Nat) : Nat := x / 2 ^ (w * j) % 2 ^ w

/-- The results of the elements of a lane, element 0 first. -/
def laneElems (op : IntIn → IntRes) (t : IntTy) (a b d : W32) (cin : Bool) : List IntRes :=
  let (w, n, sg) := intElem t
  (List.range n).map fun j =>
    op { w := w, signed := sg, a := elemOf w a.toNat j, b := elemOf w b.toNat j, d := elemOf w d.toNat j, cin := cin }

/-- The lane value of its elements' results (R42): a packed element never carries into its neighbour. -/
def packElems (w : Nat) : List IntRes → Nat
  | [] => 0
  | r :: rest => r.val % 2 ^ w + 2 ^ w * packElems w rest

/-- The nibble of a lane (R77): N and C from the most significant element, Z when every result is 0, V when any sets it. -/
def combineNib (w : Nat) (rs : List IntRes) : BitVec 4 :=
  match rs.getLast? with
  | none => 0
  | some top => nibble (bitAt top.val (w - 1)) (rs.all fun r => r.val == 0) top.c (rs.any fun r => r.v)

end Sys2Proof.Machine
end

