-- ==== Sys2Proof/Machine/Fp.lean ====
section
/-!
DEFINITION. Floating arithmetic (R43, R44): formats, exact values, rounding with the FPFLAGS each result raises, and the
operations over them. A finite value is a sign, a natural number and a power of two; every operation computes exactly
(quotients and roots with a sticky bit) and rounds once.
-/
namespace Sys2Proof.Machine

/-! ## Formats and values -/

/-- A binary interchange format: exponent bits, fraction bits (R43). -/
structure Fmt where
  eb : Nat
  mb : Nat
  deriving DecidableEq, Repr

def Fmt.f64 : Fmt := { eb := 11, mb := 52 }
def Fmt.f32 : Fmt := { eb := 8, mb := 23 }
def Fmt.f16 : Fmt := { eb := 5, mb := 10 }
def Fmt.bf16 : Fmt := { eb := 8, mb := 7 }

/-- The bias (R43). -/
def Fmt.bias (f : Fmt) : Nat := 2 ^ (f.eb - 1) - 1

/-- The pattern of +infinity. -/
def Fmt.inf (f : Fmt) : Nat := (2 ^ f.eb - 1) * 2 ^ f.mb

/-- The canonical NaN (R43). -/
def Fmt.nan (f : Fmt) : Nat := f.inf + 2 ^ (f.mb - 1)

/-- The sign bit. -/
def Fmt.signBit (f : Fmt) : Nat := 2 ^ (f.eb + f.mb)

/-- The exponent of the least quantum: a subnormal is a multiple of 2^qmin. -/
def Fmt.qmin (f : Fmt) : Int := 1 - (f.bias : Int) - f.mb

/-- What a pattern stands for. `fin s m e` is (-1)^s × m × 2^e. -/
inductive FpVal where
  | nan (sig : Bool)
  | inf (s : Bool)
  | fin (s : Bool) (m : Nat) (e : Int)
  deriving DecidableEq, Repr

/-- The value of a pattern (R43). -/
def Fmt.decode (f : Fmt) (x : Nat) : FpVal :=
  let s := bitAt x (f.eb + f.mb)
  let ex := x / 2 ^ f.mb % 2 ^ f.eb
  let fr := x % 2 ^ f.mb
  if ex = 2 ^ f.eb - 1 then (if fr = 0 then .inf s else .nan (!bitAt fr (f.mb - 1)))
  else if ex = 0 then .fin s fr f.qmin
  else .fin s (2 ^ f.mb + fr) (f.qmin + ex - 1)

/-! ## Flags -/

/-- FPFLAGS bits: NX, UF, OF, DZ, NV (R45). -/
def fpFlags (nx uf ovf dz nv : Bool) : BitVec 5 :=
  BitVec.ofNat 5 (16 * b2n nx + 8 * b2n uf + 4 * b2n ovf + 2 * b2n dz + b2n nv)

def flNone : BitVec 5 := 0
def flNV : BitVec 5 := 1
def flDZ : BitVec 5 := 2
def flNX : BitVec 5 := 16
def flOFNX : BitVec 5 := 20
def flUFNX : BitVec 5 := 24

/-- A pattern and the flags it raises. -/
structure FpOut where
  x  : Nat
  fl : BitVec 5
  deriving DecidableEq, Repr

/-- An exact result. -/
def FpOut.exact (x : Nat) : FpOut := { x := x, fl := 0 }

/-! ## Rounding (R44, R106, R108) -/

/-- Whether a kept quotient is rounded up: the rest is `rem` of 2^sh, with more below it when `sticky`. -/
def roundsUp (rm : Rm) (s : Bool) (keep rem sh : Nat) (sticky : Bool) : Bool :=
  let half := 2 ^ sh / 2
  let inexact := rem != 0 || sticky
  match rm with
  | .rne => sh != 0 && (Nat.blt half rem || (rem == half && (sticky || keep % 2 == 1)))
  | .rz => false
  | .rdn => s && inexact
  | .rup => !s && inexact
  | .rna => sh != 0 && Nat.ble half rem

/-- m × 2^e, with more below it when `sticky`, kept as a multiple of 2^q. -/
def roundAt (rm : Rm) (s : Bool) (m : Nat) (e q : Int) (sticky : Bool) : Nat × Bool :=
  if q ≤ e then (m * 2 ^ (e - q).toNat, sticky)
  else
    let sh := (q - e).toNat
    let keep := m / 2 ^ sh
    let rem := m % 2 ^ sh
    (keep + b2n (roundsUp rm s keep rem sh sticky), rem != 0 || sticky)

/-- What an overflow gives (R44, R108). -/
def Fmt.overflow (f : Fmt) (rm : Rm) (s : Bool) : FpOut :=
  let toInf : Bool := match rm with
    | .rne | .rna => true
    | .rz => false
    | .rdn => s
    | .rup => !s
  { x := b2n s * f.signBit + (if toInf then f.inf else f.inf - 1), fl := flOFNX }

/-- (-1)^s × m × 2^e rounded to the format; `sticky` says that the exact value is a little larger in magnitude (R44). -/
def Fmt.roundTo (f : Fmt) (rm : Rm) (s : Bool) (m : Nat) (e : Int) (sticky : Bool) : FpOut :=
  if m = 0 then { x := b2n s * f.signBit, fl := if sticky then flUFNX else flNone }
  else
    let top : Int := (Nat.log2 m : Int) + e
    let q := max (top - f.mb) f.qmin
    let (keep, inexact) := roundAt rm s m e q sticky
    let body := (q - f.qmin).toNat * 2 ^ f.mb + keep
    if f.inf ≤ body then f.overflow rm s
    else
      let emin : Int := f.qmin + f.mb
      let (free, _) := roundAt rm s m e (top - f.mb) sticky
      let tiny := decide (top < emin) && !(decide (top = emin - 1) && free == 2 ^ (f.mb + 1))
      { x := b2n s * f.signBit + body, fl := fpFlags inexact (tiny && inexact) false false false }

/-- A NaN result: canonical, invalid when an input was signalling or the operation itself is (R44). -/
def Fmt.nanOut (f : Fmt) (nv : Bool) : FpOut := { x := f.nan, fl := if nv then flNV else flNone }

/-- An infinite result. -/
def Fmt.infOut (f : Fmt) (s : Bool) : FpOut := .exact (b2n s * f.signBit + f.inf)

/-- A zero result. -/
def Fmt.zeroOut (f : Fmt) (s : Bool) : FpOut := .exact (b2n s * f.signBit)

/-- A value is a signalling NaN. -/
def FpVal.sig (v : FpVal) : Bool :=
  match v with
  | .nan b => b
  | _ => false

/-- A value is a NaN. -/
def FpVal.isNan (v : FpVal) : Bool :=
  match v with
  | .nan _ => true
  | _ => false

/-- A signed multiple of 2^e. -/
def signedOf (s : Bool) (m : Nat) : Int := if s then -(m : Int) else (m : Int)

/-- A finite value as a multiple of 2^q, for q not above its exponent. -/
def scaled (s : Bool) (m : Nat) (e q : Int) : Int := signedOf s m * 2 ^ (e - q).toNat

/-- The exact sum of two finite values rounded: an exact zero is +0 unless both terms are -0 (R44, R101). -/
def Fmt.sumOut (f : Fmt) (rm : Rm) (s1 : Bool) (m1 : Nat) (e1 : Int) (s2 : Bool) (m2 : Nat) (e2 : Int) : FpOut :=
  let q := min e1 e2
  let x := scaled s1 m1 e1 q + scaled s2 m2 e2 q
  if x = 0 then f.zeroOut (s1 && s2 && m1 == 0 && m2 == 0)
  else f.roundTo rm (decide (x < 0)) x.natAbs q false

/-! ## Operations -/

/-- a + b. -/
def Fmt.add (f : Fmt) (a b : Nat) : FpOut :=
  match f.decode a, f.decode b with
  | .nan p, v => f.nanOut (p || v.sig)
  | u, .nan q => f.nanOut (u.sig || q)
  | .inf s, .inf t => if s = t then f.infOut s else f.nanOut true
  | .inf s, .fin _ _ _ => f.infOut s
  | .fin _ _ _, .inf t => f.infOut t
  | .fin s m e, .fin t n k => f.sumOut .rne s m e t n k

/-- -a. -/
def Fmt.neg (f : Fmt) (a : Nat) : Nat := if bitAt a (f.eb + f.mb) then a - f.signBit else a + f.signBit

/-- a - b: a NaN b keeps its kind. -/
def Fmt.sub (f : Fmt) (a b : Nat) : FpOut := f.add a (f.neg b)

/-- a × b. -/
def Fmt.mul (f : Fmt) (a b : Nat) : FpOut :=
  match f.decode a, f.decode b with
  | .nan p, v => f.nanOut (p || v.sig)
  | u, .nan q => f.nanOut (u.sig || q)
  | .inf s, .inf t => f.infOut (s != t)
  | .inf s, .fin t n _ => if n = 0 then f.nanOut true else f.infOut (s != t)
  | .fin s m _, .inf t => if m = 0 then f.nanOut true else f.infOut (s != t)
  | .fin s m e, .fin t n k => f.roundTo .rne (s != t) (m * n) (e + k) false

/-- a × b + c, rounded once (R101): infinity × 0 is invalid even when c is a quiet NaN. -/
def Fmt.fma (f : Fmt) (a b c : Nat) : FpOut :=
  let u := f.decode a
  let v := f.decode b
  let w := f.decode c
  let zeroInf : Bool := match u, v with
    | .inf _, .fin _ n _ => n == 0
    | .fin _ m _, .inf _ => m == 0
    | _, _ => false
  if u.isNan || v.isNan || w.isNan then f.nanOut (u.sig || v.sig || w.sig || zeroInf)
  else if zeroInf then f.nanOut true
  else
    match u, v, w with
    | .fin s m e, .fin t n k, .fin r p j => f.sumOut .rne (s != t) (m * n) (e + k) r p j
    | .fin _ _ _, .fin _ _ _, .inf r => f.infOut r
    | .inf s, .inf t, .inf r => if (s != t) = r then f.infOut r else f.nanOut true
    | .inf s, .fin t _ _, .inf r => if (s != t) = r then f.infOut r else f.nanOut true
    | .fin s _ _, .inf t, .inf r => if (s != t) = r then f.infOut r else f.nanOut true
    | .inf s, .inf t, .fin _ _ _ => f.infOut (s != t)
    | .inf s, .fin t _ _, .fin _ _ _ => f.infOut (s != t)
    | .fin s _ _, .inf t, .fin _ _ _ => f.infOut (s != t)
    | _, _, _ => f.nanOut false

/-- The quotient of two positive naturals to at least p bits below its top, with a sticky bit: (q, e) with value near q × 2^e. -/
def quotBits (p m n : Nat) : Nat × Int × Bool :=
  let k := p + 3 + Nat.log2 n
  let x := m * 2 ^ k
  (x / n, -(k : Int), x % n != 0)

/-- a ÷ b, correctly rounded (R100, R101). -/
def Fmt.div (f : Fmt) (a b : Nat) : FpOut :=
  match f.decode a, f.decode b with
  | .nan p, v => f.nanOut (p || v.sig)
  | u, .nan q => f.nanOut (u.sig || q)
  | .inf _, .inf _ => f.nanOut true
  | .inf s, .fin t _ _ => f.infOut (s != t)
  | .fin s _ _, .inf t => f.zeroOut (s != t)
  | .fin s m e, .fin t n k =>
    if n = 0 then
      if m = 0 then f.nanOut true else { x := b2n (s != t) * f.signBit + f.inf, fl := flDZ }
    else
      let (q, j, st) := quotBits f.mb m n
      f.roundTo .rne (s != t) q (e - k + j) st

/-- The square root of a positive value m × 2^e to at least p + 2 bits, with a sticky bit. -/
def rootBits (p m : Nat) (e : Int) : Nat × Int × Bool :=
  let k := p + 4
  let odd := (e % 2).toNat
  let x := m * 2 ^ (2 * k + odd)
  let r := Nat.sqrt x
  (r, (e - odd) / 2 - k, r * r != x)

/-- √a, correctly rounded (R100, R101). -/
def Fmt.sqrt (f : Fmt) (a : Nat) : FpOut :=
  match f.decode a with
  | .nan p => f.nanOut p
  | .inf s => if s then f.nanOut true else f.infOut false
  | .fin s m e =>
    if m = 0 then f.zeroOut s
    else if s then f.nanOut true
    else
      let (r, j, st) := rootBits f.mb m e
      f.roundTo .rne false r j st

/-! ## Comparison (R98, R101, R102) -/

/-- The outcomes of a comparison (R98). -/
inductive FpCmp where
  | less | equal | greater | unordered
  deriving DecidableEq, Repr

/-- The nibble of an outcome (R98). -/
def FpCmp.nib (c : FpCmp) : BitVec 4 :=
  match c with
  | .less => 0x8
  | .equal => 0x6
  | .greater => 0x2
  | .unordered => 0x3

/-- The comparison of two values; the zeros compare equal. -/
def FpVal.cmp (u v : FpVal) : FpCmp :=
  match u, v with
  | .nan _, _ => .unordered
  | _, .nan _ => .unordered
  | .inf s, .inf t => if s = t then .equal else if s then .less else .greater
  | .inf s, .fin _ _ _ => if s then .less else .greater
  | .fin _ _ _, .inf t => if t then .greater else .less
  | .fin s m e, .fin t n k =>
    let q := min e k
    let x := scaled s m e q
    let y := scaled t n k q
    if x < y then .less else if x = y then .equal else .greater

/-- The comparison of two patterns; only a signalling NaN is invalid (R102). -/
def Fmt.cmp (f : Fmt) (a b : Nat) : FpCmp × BitVec 5 :=
  let u := f.decode a
  let v := f.decode b
  (u.cmp v, if u.sig || v.sig then flNV else flNone)

/-- A result compared with +0 (R98). -/
def Fmt.cmpZero (f : Fmt) (x : Nat) : FpCmp := (f.decode x).cmp (.fin false 0 0)

/-- minimumNumber and maximumNumber (R101): -0 is less than +0; one NaN gives the other operand. -/
def Fmt.minMax (f : Fmt) (wantMax : Bool) (a b : Nat) : FpOut :=
  let u := f.decode a
  let v := f.decode b
  let nv := if u.sig || v.sig then flNV else flNone
  if u.isNan && v.isNan then { x := f.nan, fl := nv }
  else if u.isNan then { x := b, fl := nv }
  else if v.isNan then { x := a, fl := nv }
  else
    let aLess : Bool := match u.cmp v with
      | .less => true
      | .equal => bitAt a (f.eb + f.mb)
      | _ => false
    { x := if aLess != wantMax then a else b, fl := nv }

/-! ## Classes (R105) -/

/-- The class mask of a pattern (R105). -/
def Fmt.classMask (f : Fmt) (x : Nat) : Nat :=
  match f.decode x with
  | .nan sig => if sig then 2 ^ 8 else 2 ^ 9
  | .inf s => if s then 2 ^ 0 else 2 ^ 7
  | .fin s m _ =>
    if m = 0 then (if s then 2 ^ 3 else 2 ^ 4)
    else if m < 2 ^ f.mb then (if s then 2 ^ 2 else 2 ^ 5)
    else (if s then 2 ^ 1 else 2 ^ 6)

/-! ## Conversion (R106 to R108) -/

/-- Float to integer: rounded per rm, clamped with NV outside the range, NX when rounding changed it (R108). -/
def Fmt.toInt (f : Fmt) (rm : Rm) (signed : Bool) (a : Nat) : FpOut :=
  let lo : Int := if signed then -(2 ^ 31) else 0
  let hi : Int := if signed then 2 ^ 31 - 1 else 2 ^ 32 - 1
  match f.decode a with
  | .nan _ => { x := 0, fl := flNV }
  | .inf s => { x := narrow 32 (if s then lo else hi), fl := flNV }
  | .fin s m e =>
    let (keep, inexact) := roundAt rm s m e 0 false
    let v := signedOf s keep
    if v < lo then { x := narrow 32 lo, fl := flNV }
    else if hi < v then { x := narrow 32 hi, fl := flNV }
    else { x := narrow 32 v, fl := if inexact then flNX else flNone }

/-- Integer to float (R108): zero is +0. -/
def Fmt.ofInt (f : Fmt) (rm : Rm) (x : Int) : FpOut := f.roundTo rm (decide (x < 0)) x.natAbs 0 false

/-- Float to float, rounded per rm (R108). -/
def Fmt.convert (src dst : Fmt) (rm : Rm) (a : Nat) : FpOut :=
  match src.decode a with
  | .nan sig => dst.nanOut sig
  | .inf s => dst.infOut s
  | .fin s m e => dst.roundTo rm s m e false

/-! ## Special functions (R103, R104) -/

/-- The magnitude is a power of two: its exponent (R104). -/
def powerOfTwo (m : Nat) (e : Int) : Option Int := if m = 2 ^ Nat.log2 m then some ((Nat.log2 m : Int) + e) else none

/-- The result that the part chooses: any finite pattern within the error bound, which `ok` decides; the rounded pattern `x` is
always within it (log entry 15). The flags are those of an inexact result: NX, and UF when it is tiny (R104). -/
def sfuPick (fn : Sfu) (a x : Nat) (ok : Nat → Bool) : FpOut :=
  let y := (Config.fsfu fn (BitVec.ofNat 32 a)).toNat
  let z := if Nat.blt (y % 2 ^ 31) Fmt.f32.inf && ok y then y else x
  { x := z, fl := if z % 2 ^ 31 < 2 ^ 23 then flUFNX else flNX }

/-- The magnitude of a finite FP32 pattern as a multiple of 2^-149. -/
def f32Units (y : Nat) : Nat :=
  match Fmt.f32.decode y with
  | .fin _ m e => m * 2 ^ (e + 149).toNat
  | _ => 0

/-- The ulp of a finite FP32 pattern as a multiple of 2^-149. -/
def f32Ulp (y : Nat) : Nat := 2 ^ (max 1 (y / 2 ^ 23 % 256) - 1)

/-- A finite FP32 pattern as a multiple of 2^-200. -/
def f32Fixed (y : Nat) : Int := signedOf (bitAt y 31) (f32Units y * 2 ^ 51)

/-- The result within `b` of a value that lies from `lo` to `hi`, all of them multiples of 2^-200; without `b` within 2 ulp. It is within
the bound of every value from `lo` to `hi` (log entry 15). -/
def sfuNear (fn : Sfu) (a : Nat) (lo hi : Int) (b : Option Int) : FpOut :=
  let x := (Fmt.f32.roundTo .rne (decide (lo < 0)) lo.natAbs (-200) true).x
  let d := match b with
    | some n => n
    | none => 2 * (f32Ulp (x % 2 ^ 31) * 2 ^ 51 : Nat)
  sfuPick fn a x fun y => decide (hi - d ≤ f32Fixed y) && decide (f32Fixed y ≤ lo + d)

/-- The absolute bound 2^-22 of R103, as a multiple of 2^-200. -/
def sfuAbs : Option Int := some (2 ^ 178)

/-- A finite value as a multiple of 2^-128, rounded down. -/
def fixed128 (s : Bool) (m : Nat) (e : Int) : Int :=
  if -128 ≤ e then signedOf s m * 2 ^ (e + 128).toNat else Int.fdiv (signedOf s m) (2 ^ (-(e + 128)).toNat)

/-- 2^f for a fraction f of 128 bits, as a multiple of 2^-128 and a little below it: the root of 2^b times the same for the bits
below b, for the upper 64 bits. -/
def exp2Frac (f : Nat) : Nat :=
  ((List.range 64).map fun i => 64 + i).foldl (fun r i => Nat.sqrt (r * 2 ^ (128 + b2n (bitAt f i)))) (2 ^ 128)

/-- 64 bits of the logarithm to base 2 of x, a multiple of 2^-192 from 1 up to 2, by squaring. -/
def log2Frac : Nat → Nat → Nat → Nat
  | 0, _, l => l
  | n + 1, x, l =>
    let y := x * x / 2 ^ 192
    if 2 ^ 193 ≤ y then log2Frac n (y / 2) (2 * l + 1) else log2Frac n y (2 * l)

/-- π², as a multiple of 2^-256. -/
def piSquare : Nat := 314159265358979323846264338327950288419716939937510 ^ 2 * 2 ^ 256 / 10 ^ 100

/-- cos(π·r) for r a multiple of 2^-128, as a multiple of 2^-200: the cosine of the 2^48th part of the angle, doubled 48 times. -/
def cosPi (r : Int) : Int :=
  let k := (r % 2 ^ 129).toNat
  let c0 : Int := 2 ^ 256 - (piSquare * k * k / 2 ^ (256 + 96 + 1) : Nat)
  (List.range 48).foldl (fun c _ => 2 * c * c / 2 ^ 256 - 2 ^ 256) c0 / 2 ^ 56

/-- rcp (R103, R104). -/
def sfuRcp (a : Nat) : FpOut :=
  match Fmt.f32.decode a with
  | .nan sig => Fmt.f32.nanOut sig
  | .inf s => Fmt.f32.zeroOut s
  | .fin s m e =>
    if m = 0 then { x := b2n s * 2 ^ 31 + Fmt.f32.inf, fl := flDZ }
    else
      let (q, j, st) := quotBits 23 1 m
      let x := Fmt.f32.roundTo .rne s q (j - e) st
      if st = false ∧ 2 ^ 23 ≤ x.x % 2 ^ 31 then x
      else if x.x % 2 ^ 31 = Fmt.f32.inf then x
      else
        -- |y - 1/a| ≤ 1 ulp, in multiples of 2^-149: y is Y, 1/a is 2^149 / (m × 2^e)
        let lhs (y : Nat) : Nat := y * m * 2 ^ (max e 0).toNat
        let one : Nat := 2 ^ (149 + (max (-e) 0).toNat)
        sfuPick .rcp a x.x fun y =>
          let u := f32Units y
          let k := f32Ulp (x.x % 2 ^ 31)
          bitAt y 31 == s && Nat.ble (lhs (u - k)) one && Nat.ble one (lhs (u + k))

/-- rsq (R103, R104). -/
def sfuRsq (a : Nat) : FpOut :=
  match Fmt.f32.decode a with
  | .nan sig => Fmt.f32.nanOut sig
  | .inf s => if s then Fmt.f32.nanOut true else Fmt.f32.zeroOut false
  | .fin s m e =>
    if m = 0 then { x := b2n s * 2 ^ 31 + Fmt.f32.inf, fl := flDZ }
    else if s then Fmt.f32.nanOut true
    else
      let (r, j, st) := rootBits 40 m e
      let (q, i, st2) := quotBits 60 1 r
      let x := Fmt.f32.roundTo .rne false q (i - j) (st || st2)
      if st = false && st2 = false then x
      else
        -- y - 2 ulp ≤ 1/√a ≤ y + 2 ulp, by squares: (Y × 2^-149)² × m × 2^e against 1
        let sq (y : Nat) : Nat := y * y * m * 2 ^ (max e 0).toNat
        let one : Nat := 2 ^ (298 + (max (-e) 0).toNat)
        sfuPick .rsq a x.x fun y =>
          let u := f32Units y
          let k := 2 * f32Ulp (x.x % 2 ^ 31)
          !bitAt y 31 && Nat.ble (sq (u - k)) one && Nat.ble one (sq (u + k))

/-- A finite value is an integer: that integer. -/
def fpInteger (s : Bool) (m : Nat) (e : Int) : Option Int :=
  if 0 ≤ e then some (signedOf s (m * 2 ^ e.toNat))
  else if m % 2 ^ (-e).toNat = 0 then some (signedOf s (m / 2 ^ (-e).toNat)) else none

/-- exp2 (R103, R104). -/
def sfuExp2 (a : Nat) : FpOut :=
  match Fmt.f32.decode a with
  | .nan sig => Fmt.f32.nanOut sig
  | .inf s => if s then Fmt.f32.zeroOut false else Fmt.f32.infOut false
  | .fin s m e =>
    if !s && (Fmt.f32.decode a).cmp (.fin false 128 0) != .less then { x := Fmt.f32.inf, fl := flOFNX }
    else
      let f := fixed128 s m e
      let i := Int.fdiv f (2 ^ 128)
      let near : FpOut :=
        if i < -200 then sfuNear .exp2 a 0 1 none
        else
          let lo : Nat := exp2Frac (f % 2 ^ 128).toNat * 2 ^ (i + 200).toNat / 2 ^ 128
          sfuNear .exp2 a (lo : Int) ((lo + lo / 2 ^ 60 + 1 : Nat) : Int) none
      match fpInteger s m e with
      | some k => if -126 ≤ k then Fmt.f32.roundTo .rne false 1 k false else near
      | none => near

/-- log2 (R103, R104). -/
def sfuLog2 (a : Nat) : FpOut :=
  match Fmt.f32.decode a with
  | .nan sig => Fmt.f32.nanOut sig
  | .inf s => if s then Fmt.f32.nanOut true else Fmt.f32.infOut false
  | .fin s m e =>
    if m = 0 then { x := 2 ^ 31 + Fmt.f32.inf, fl := flDZ }
    else if s then Fmt.f32.nanOut true
    else
      match powerOfTwo m e with
      | some k => .exact (Fmt.f32.ofInt .rne k).x
      | none =>
        let p := Nat.log2 m
        let lo := (((p : Int) + e) * 2 ^ 64 + log2Frac 64 (m * 2 ^ 192 / 2 ^ p) 0) * 2 ^ 136
        let x := FpVal.fin s m e
        sfuNear .log2 a lo (lo + 2 ^ 137) (if x.cmp (.fin false 1 (-1)) != .less && x.cmp (.fin false 2 0) != .greater then sfuAbs else none)

/-- sin(π·a) (R103, R104). -/
def sfuSin (a : Nat) : FpOut :=
  match Fmt.f32.decode a with
  | .nan sig => Fmt.f32.nanOut sig
  | .inf _ => Fmt.f32.nanOut true
  | .fin s m e =>
    match fpInteger s m e, fpInteger s m (e + 1) with
    | some _, _ => Fmt.f32.zeroOut s
    | none, some k => .exact (if (k - 1) / 2 % 2 = 0 then 0x3F800000 else 0xBF800000)
    | none, none =>
      let c := cosPi (fixed128 s m e - 2 ^ 127)
      sfuNear .sin a (c - 2 ^ 140) (c + 2 ^ 140) sfuAbs

/-- cos(π·a) (R103, R104). -/
def sfuCos (a : Nat) : FpOut :=
  match Fmt.f32.decode a with
  | .nan sig => Fmt.f32.nanOut sig
  | .inf _ => Fmt.f32.nanOut true
  | .fin s m e =>
    match fpInteger s m e, fpInteger s m (e + 1) with
    | some k, _ => .exact (if k % 2 = 0 then 0x3F800000 else 0xBF800000)
    | none, some _ => Fmt.f32.zeroOut false
    | none, none =>
      let c := cosPi (fixed128 s m e)
      sfuNear .cos a (c - 2 ^ 140) (c + 2 ^ 140) sfuAbs

/-- The function of FSFU (R103). -/
def sfuEval (fn : Sfu) (a : Nat) : FpOut :=
  match fn with
  | .rcp => sfuRcp a
  | .rsq => sfuRsq a
  | .exp2 => sfuExp2 a
  | .log2 => sfuLog2 a
  | .sin => sfuSin a
  | .cos => sfuCos a

end Sys2Proof.Machine
end

