-- ==== Sys2Proof/Machine/Port.lean ====
section
/-!
DEFINITION. The ports (R334 to R341): the layout of a flit, the replay window of a sender, and the port that carries a request.
-/
namespace Sys2Proof.Machine

/-! ## Flits (R335) -/

/-- A field of a flit's header word. -/
def flitSeq (f : Flit) : Nat := bits f.header.toNat 63 52

/-- The last SEQ that the flit's sender has received in order. -/
def flitAck (f : Flit) : Nat := bits f.header.toNat 51 40

/-- The flit's TYPE. -/
def flitType (f : Flit) : Nat := bits f.header.toNat 39 36

/-- Bytes 0 to 247 of a flit, over which its CRC runs. -/
def flitCovered (f : Flit) : List Byte := leBytes f.header.toNat 8 ++ leBytes f.payload.toNat 240

/-- A flit that a receiver treats as corrupt: a bad CRC, a reserved TYPE or a reserved bit. -/
def flitCorrupt (f : Flit) : Bool :=
  crc32c (flitCovered f) != f.trailer.setWidth 32 || Nat.ble 5 (flitType f) || bits f.header.toNat 35 0 != 0 || bits f.trailer.toNat 63 32 != 0

/-- A flit with its CRC. -/
def flitMake (seq ack type : Nat) (payload : BitVec 1920) : Flit :=
  let f : Flit := { header := BitVec.ofNat 64 (seq % 4096 * 2 ^ 52 + ack % 4096 * 2 ^ 40 + type % 16 * 2 ^ 36), payload := payload, trailer := 0 }
  { f with trailer := (crc32c (flitCovered f)).setWidth 64 }

/-! ## The sender (R334, R336) -/

/-- The flits of the replay window, those that have not been sent yet sent now; the flits behind it stay held. -/
def sendWindow : Nat → List SentFlit → List SentFlit
  | 0, l => l
  | _, [] => []
  | n + 1, f :: r => { f with sent := true } :: sendWindow n r

/-- A request (TYPE 1) or a response (TYPE 2) put into a port's queue under the next SEQ: sent while the window of 64 has room, held
otherwise. -/
def Port.sendFlit (p : Port) (type : Nat) (payload : BitVec 1920) (req : Option (Nat × Nat)) (win : Option Nat) (ports : Nat) : Port :=
  { p with
    txSeq := (p.txSeq + 1) % 4096
    unacked := sendWindow Config.portWindow (p.unacked ++ [{ seq := p.txSeq, flit := flitMake p.txSeq (p.rxSeq + 4095) type payload, resends := 0
                                                             sent := false, req := req, win := win, ports := ports }]) }

/-- The flits of a window sent again, from one on, each counted in REPLAYS and in its own resends. -/
def resendAll (l : List SentFlit) : List SentFlit := l.map fun f => if f.sent then { f with resends := f.resends + 1 } else f

/-- A port that has sent its window again; REPLAYS saturates (R334, R341). -/
def Port.resend (p : Port) : Port :=
  { p with
    unacked := resendAll p.unacked
    replays := min (2 ^ 32 - 1) (p.replays + (p.unacked.filter fun f => f.sent).length) }

/-- A port in RETRAIN enters TRAINING at once (R334). -/
def Port.retrain (p : Port) : Port := { p with st := .training, fails := 0 }

/-- A port whose training has succeeded: the window is sent again, and with it what had waited for room. -/
def Port.trained (p : Port) (peer : Nat) : Port :=
  let q := ({ p with unacked := p.unacked.map fun f => { f with resends := 0 } } : Port).resend
  { q with st := .active, fails := 0, peer := peer, unacked := sendWindow Config.portWindow q.unacked }

/-! ## The receiver's answers (R336) -/

/-- The flits after a cumulative ACK, where the sent ones hold it. -/
def ackUpTo (ack : Nat) : List SentFlit → Option (List SentFlit)
  | [] => none
  | f :: r => if f.sent then (if f.seq = ack then some r else ackUpTo ack r) else none

/-- The ACK of a flit taken: what it covers leaves the window. -/
def Port.takeAck (p : Port) (ack : Nat) : Port :=
  match ackUpTo ack p.unacked with
  | some r => { p with unacked := r }
  | none => p

/-- What has waited for room in the window follows into it, and is sent. -/
def Port.fill (p : Port) : Port := if p.st = .active then { p with unacked := sendWindow Config.portWindow p.unacked } else p

/-- A NAK taken: every flit sent after its ACK is sent again, and a flit's eighth resend without an acknowledgement makes the port retrain. -/
def Port.takeNak (p : Port) : Port :=
  let q := p.resend
  if q.unacked.any fun f => Nat.ble 8 f.resends then q.retrain else q

/-- The SEQ of a flit that carries a request or a response: the next expected one is accepted and acknowledged, and any other is
dropped and answered with a NAK. -/
def Port.takeSeq (p : Port) (seq : Nat) : Port :=
  if seq = p.rxSeq then { p with rxSeq := (p.rxSeq + 1) % 4096, ackOwed := true } else { p with nakOwed := true }

/-- A flit received by an ACTIVE port. -/
def Port.receive (p : Port) (f : Flit) : Port :=
  if flitCorrupt f then { p with nakOwed := true }
  else
    let q := p.takeAck (flitAck f)
    match flitType f with
    | 1 | 2 => q.fill.takeSeq (flitSeq f)
    | 4 => q.takeNak.fill
    | _ => q.fill

/-! ## Which port carries a request (R338, R340) -/

/-- A port. -/
def State.port (s : State) (p : PortId) : Port :=
  match p with
  | .kazeg k => agetD Port.init k s.kports
  | .memory m => agetD Port.init m s.mports

/-- A port replaced. -/
def State.setPort (s : State) (p : PortId) (x : Port) : State :=
  match p with
  | .kazeg k => { s with kports := aset k x s.kports }
  | .memory m => { s with mports := aset m x s.mports }

/-- The ACTIVE ports of a set, as a set. -/
def State.activeSet (s : State) (ports : Nat) : Nat :=
  (List.range 32).foldl (fun n p => if bitAt ports p && (agetD Port.init p s.kports).st == .active then n + 2 ^ p else n) 0

/-- The port that carries a request: of a window's ACTIVE ports, ascending, the one that the remote address picks (R338), or the
memory port of a tier-2 address (R340). -/
def State.portOf (s : State) (t : Target) : Option PortId :=
  match t with
  | .peer ports k =>
    let a := (List.range 32).filter fun p => bitAt (s.activeSet ports) p
    (a[bits k 19 12 % max 1 a.length]?).map PortId.kazeg
  | .dev pa => if 256 ≤ s.home pa then some (.memory (s.home pa - 256)) else none
  | _ => none

/-- The window that a request is for, as its PORTS field and peer name it (R338). -/
def Target.window (t : Target) : Option Nat :=
  match t with
  | .peer ports k => some (ports + 2 ^ 32 * (k / 2 ^ 40))
  | _ => none

/-- The PORTS field of a target's window; 0 for what is no peer's. -/
def Target.ports (t : Target) : Nat :=
  match t with
  | .peer ports _ => ports
  | _ => 0

/-- Some request of a window sent under another set of ACTIVE ports is still unacknowledged, so its new requests are held (R338). What a
FAILED port has not delivered completes with an error, and holds nothing (R339). -/
def State.setChanged (s : State) (t : Target) : Bool :=
  match t.window with
  | some w => aany (fun _ p => p.st != .failed && p.unacked.any fun f => f.win == some w && f.ports != s.activeSet t.ports) s.kports
  | none => false

/-- The state of the port that carries a target's requests, or ACTIVE where none does; a window whose ports are all DOWN or FAILED carries
nothing (R338). -/
def State.carrier (s : State) (t : Target) : PortSt :=
  match t with
  | .peer ports _ => if s.activePort ports then .active else if s.anyPort ports then .training else .failed
  | x => match s.portOf x with
    | some p => (s.port p).st
    | none => .active

/-- A port has room in its replay window. -/
def Port.room (p : Port) : Bool := Nat.blt p.unacked.length Config.portWindow

/-- A request's flit sent by the port that carries it, where the port is ACTIVE (R336); the request's payload is internal (R335). -/
def State.sendOn (s : State) (t : Target) (req : Option (Nat × Nat)) : State :=
  match s.portOf t with
  | some p =>
    if (s.port p).st = .active then
      s.setPort p ((s.port p).sendFlit 1 (Config.flitPayload s.freeN (s.port p).txSeq) req t.window (s.activeSet t.ports))
    else s
  | none => s

/-- The flits of some requests that are no lanes of an operation. -/
def State.sendReqs (s : State) (l : List Target) : State := l.foldl (fun (st : State) t => st.sendOn t none) s

/-- The flits of a page walk: one for each entry that it reads in tier 2 (R340). -/
def State.sendWalk (s : State) (ctx va : Nat) : State := s.sendReqs ((s.walkReads ctx va).map Target.dev)

/-- The ACTIVE port that leads to a peer (R341). -/
def State.peerPort (s : State) (pkg : Nat) : Option PortId :=
  ((List.range 32).find? fun k => (s.port (.kazeg k)).st == .active && (s.port (.kazeg k)).peer == pkg).map PortId.kazeg

/-- The response to a peer's request sent (R335, R336); none where no ACTIVE port leads to the peer. Another requester's needs no flit. -/
def State.respond (s : State) (a : Agent) : Option State :=
  match a with
  | .peer pkg _ => (s.peerPort pkg).map fun p => s.setPort p ((s.port p).sendFlit 2 (Config.flitPayload s.freeN (s.port p).txSeq) none none 0)
  | .none | .team _ | .ctl _ _ | .host _ => some s

end Sys2Proof.Machine
end

