-- ==== Sys2Proof/Machine/Regions.lean ====
section
/-!
DEFINITION. Regions (R253 to R255): the region control block read from memory, the values in force at a region, and the
fault domain of a region (R291). RCB addresses are virtual addresses of the context, read at system level, since RCB
pages are system pages (R255).
-/
namespace Sys2Proof.Machine

/-- A region control block (R253), or the values in force at a region (R254). -/
structure Rcb where
  addr   : Nat
  parent : Nat
  id     : Nat
  ovr    : Nat
  wdog   : Nat
  prio   : Nat
  cpHi   : Nat
  cpLo   : Nat
  fd     : Bool
  idem   : Bool
  red    : Bool
  mov    : Bool
  crp    : Bool
  cores  : Nat
  bars   : Nat
  qent   : Nat
  vrfb   : Nat
  scrb   : Nat
  handler : Nat
  qarea  : Nat
  celBase : Nat
  celSize : Nat
  keep   : List W64
  rsvOk  : Bool
  deriving DecidableEq, Repr

/-- The word of a list, as a number; zero past its end. -/
def wordN (ws : List W64) (i : Nat) : Nat := (ws.getD i 0).toNat

/-- The fields of R253 in the 32 words of a block. -/
def Rcb.parse (addr : Nat) (ws : List W64) : Rcb :=
  let w1 := wordN ws 1
  { addr := addr, parent := wordN ws 0, id := bits w1 63 48, ovr := bits w1 47 32, wdog := bits w1 31 16,
    prio := bits w1 15 12, cpHi := bits w1 11 9, cpLo := bits w1 8 6, fd := bitAt w1 5, idem := bitAt w1 4,
    red := bitAt w1 3, mov := bitAt w1 2, crp := bitAt w1 1, cores := bits (wordN ws 2) 63 48,
    bars := bits (wordN ws 2) 47 32, qent := bits (wordN ws 2) 31 0, vrfb := bits (wordN ws 3) 63 32,
    scrb := bits (wordN ws 3) 31 0, handler := wordN ws 4, qarea := wordN ws 5, celBase := wordN ws 6,
    celSize := wordN ws 7, keep := (ws.drop 8).take 8,
    rsvOk := !bitAt w1 0 && bits w1 47 44 == 0 && (ws.drop 16).all fun w => w == 0 }

/-- The block at an address of a context. -/
def State.rcbAt (s : State) (ctx addr : Nat) : Option Rcb :=
  match s.readWords { ctx := ctx, level := .system, write := false } addr 32 with
  | .ok ws => some (Rcb.parse addr ws)
  | .error _ => none

/-- A block with the fields it does not own taken from the values in force at its parent (R254). -/
def Rcb.inherit (r p : Rcb) : Rcb :=
  let own := fun i => bitAt r.ovr i
  { r with
    cores := if own 0 then r.cores else p.cores
    bars := if own 1 then r.bars else p.bars
    qent := if own 2 then r.qent else p.qent
    vrfb := if own 3 then r.vrfb else p.vrfb
    scrb := if own 4 then r.scrb else p.scrb
    prio := if own 5 then r.prio else p.prio
    cpLo := if own 6 then max r.cpLo p.cpLo else p.cpLo
    cpHi := if own 6 then min r.cpHi p.cpHi else p.cpHi
    wdog := if own 7 then r.wdog else p.wdog
    idem := if own 8 then r.idem else p.idem
    red := if own 8 then r.red else p.red
    mov := if own 8 then r.mov else p.mov
    crp := if own 8 then r.crp else p.crp
    handler := if own 9 then r.handler else p.handler
    celBase := if own 10 then r.celBase else p.celBase
    celSize := if own 10 then r.celSize else p.celSize
    keep := if own 11 then r.keep else p.keep }

/-- The values in force at the block at an address, by at most `fuel` parents. -/
def State.inForceAt (s : State) (ctx : Nat) : Nat → Nat → Option Rcb
  | 0, _ => none
  | fuel + 1, addr =>
    match s.rcbAt ctx addr with
    | none => none
    | some r =>
      if r.parent = 0 then some r
      else
        match s.inForceAt ctx fuel r.parent with
        | none => none
        | some p => some (r.inherit p)

/-- The address of a region's block, from the context's region table (R254). -/
def State.regionAddr (s : State) (ctx region : Nat) : Option Nat :=
  match alook ctx s.ctxs with
  | some c => alook region c.regions
  | none => none

/-- The number of regions of a context: no chain of parents is longer. -/
def State.regionFuel (s : State) (ctx : Nat) : Nat :=
  match alook ctx s.ctxs with
  | some c => c.regions.length + 1
  | none => 0

/-- The values in force at a region, whether or not its block is valid. -/
def State.inForce (s : State) (ctx region : Nat) : Option Rcb :=
  match s.regionAddr ctx region with
  | some a => s.inForceAt ctx (s.regionFuel ctx) a
  | none => none

/-- A block is valid by its values in force (R254). -/
def Rcb.valid (r : Rcb) : Bool := r.rsvOk && Nat.ble r.cpLo r.cpHi && Nat.ble r.cpHi 5 && r.wdog != 0

/-- The values in force at a valid region. -/
def State.region (s : State) (ctx region : Nat) : Option Rcb :=
  match s.inForce ctx region with
  | some r => if r.valid then some r else none
  | none => none

/-- The watchdog of a region, in cycles (R79): its units of 1,024 cycles. A region whose block cannot be read has the
largest bound, 65,535 units (DESIGN CHOICE, log entry 21). -/
def State.wdogCycles (s : State) (ctx region : Nat) : Nat :=
  match s.inForce ctx region with
  | some r => 1024 * r.wdog
  | none => 1024 * 65535

/-- The chain of block addresses from a block up to the root. -/
def State.chainAt (s : State) (ctx : Nat) : Nat → Nat → List Nat
  | 0, _ => []
  | fuel + 1, addr =>
    match s.rcbAt ctx addr with
    | none => [addr]
    | some r => if r.parent = 0 then [addr] else addr :: s.chainAt ctx fuel r.parent

/-- The block addresses of a region and its ancestors, the region's own first. -/
def State.chain (s : State) (ctx region : Nat) : List Nat :=
  match s.regionAddr ctx region with
  | some a => s.chainAt ctx (s.regionFuel ctx) a
  | none => []

/-- The first block of a chain that is a fault domain: one with FD set, or the last, which is the root (R291). -/
def State.domainIn (s : State) (ctx : Nat) : List Nat → Nat
  | [] => 0
  | [a] => a
  | a :: r =>
    match s.rcbAt ctx a with
    | some b => if b.fd then a else s.domainIn ctx r
    | none => s.domainIn ctx r

/-- The fault domain of a region, by the address of its block (R291). -/
def State.domain (s : State) (ctx region : Nat) : Nat := s.domainIn ctx (s.chain ctx region)

/-- A region is another or a descendant of it (R263). -/
def State.descends (s : State) (ctx region anc : Nat) : Bool :=
  match s.regionAddr ctx anc with
  | some a => (s.chain ctx region).contains a
  | none => false

end Sys2Proof.Machine
end

