-- ==== Sys2Proof/Machine/Ops.lean ====
section
/-!
DEFINITION. The named operations over the state: who executes and where, a team's lanes, the end of an instruction, the
retirement and the killing of groups, TAKING A TRAP (R293) and the return from one (R305).
-/
namespace Sys2Proof.Machine

/-! ## Cores, banks and dies -/

/-- A core; one not listed stands at its reset value. -/
def State.core (s : State) (c : Nat) : CoreSt := agetD CoreSt.init c s.cores

/-- A core replaced. -/
def State.setCore (s : State) (c : Nat) (x : CoreSt) : State := { s with cores := aset c x s.cores }

/-- A core changed by a function. -/
def State.modCore (s : State) (c : Nat) (f : CoreSt → CoreSt) : State := s.setCore c (f (s.core c))

/-- A bank of a core. -/
def CoreSt.bank (x : CoreSt) (b : Nat) : Bank := if b = 0 then x.bank0 else x.bank1

/-- A bank of a core replaced. -/
def CoreSt.setBank (x : CoreSt) (b : Nat) (k : Bank) : CoreSt := if b = 0 then { x with bank0 := k } else { x with bank1 := k }

/-- The active bank of a core. -/
def CoreSt.active (x : CoreSt) : Bank := x.bank x.act

/-- The active bank changed by a function. -/
def CoreSt.modActive (x : CoreSt) (f : Bank → Bank) : CoreSt := x.setBank x.act (f x.active)

/-- A die; one not listed stands at its reset value. -/
def State.die (s : State) (d : Nat) : DieSt := agetD DieSt.init d s.dies

/-- The die of a core (R5). -/
def dieOf (core : Nat) : Nat := core / Config.coresPerDie

/-- A core is on a die of class T (R6). -/
def State.classT (s : State) (core : Nat) : Bool := bitAt s.part.classT.toNat (dieOf core)

/-- The lanes per pass of a core now (R20, R60). -/
def State.pw (s : State) (core : Nat) : Nat := Config.pw (s.core core).point (s.classT core)

/-- Counters of a bank or die counting one source moved on by n (R365); counters are 64 bits and wrap. -/
def bumpCounters (k : Nat) (src cnt : List (Nat × W64)) (code n : Nat) : List (Nat × W64) :=
  (List.range k).foldl (fun m i => if (sget src i).toNat = code then sset m i (sget m i + BitVec.ofNat 64 n) else m) cnt

/-- A core event of R365 counted n times in the active bank. -/
def State.coreEvent (s : State) (c code n : Nat) : State :=
  s.modCore c fun x => x.modActive fun b => { b with evCnt := bumpCounters 8 b.evSrc b.evCnt code n }

/-- A core event of a context counted n times, while that context is ACTIVE on the core (R365). -/
def State.ctxEvent (s : State) (c ctx code n : Nat) : State :=
  if (s.core c).active.ctx = some ctx then s.coreEvent c code n else s

/-- A die event of R365 counted n times. -/
def State.dieEvent (s : State) (d code n : Nat) : State :=
  let x := s.die d
  { s with dies := aset d { x with evCnt := bumpCounters 16 x.evSrc x.evCnt code n } s.dies }

/-- A walk of the tables that has been taken: counted on the die (R365), and its entries read through the ports (R340). -/
def State.walked (s : State) (ctx die va : Nat) : State := (s.dieEvent die 18 1).sendWalk ctx va

/-! ## Agents -/

/-- The key of a control thread's own state. -/
def ctlKey (core ctx : Nat) : Nat := core * 65536 + ctx

/-- The host or a peer (R249, R250). -/
def Agent.outside (a : Agent) : Bool :=
  match a with
  | .host _ | .peer _ _ => true
  | .none | .team _ | .ctl _ _ => false

/-- The number of a team; a control thread has none. -/
def Agent.tid (a : Agent) : Nat :=
  match a with
  | .team k => k
  | .none | .ctl _ _ | .host _ | .peer _ _ => 0

/-- A team or control thread. -/
def State.agent (s : State) (a : Agent) : Option Team :=
  match a with
  | .none | .host _ | .peer _ _ => none
  | .team tid => alook tid s.teams
  | .ctl c x => alook (ctlKey c x) s.ctls

/-- A team or control thread replaced. -/
def State.setAgent (s : State) (a : Agent) (t : Team) : State :=
  match a with
  | .none | .host _ | .peer _ _ => s
  | .team tid => { s with teams := aset tid t s.teams }
  | .ctl c x => { s with ctls := aset (ctlKey c x) t s.ctls }

/-- The agent that issues next replaced. -/
def State.setCur (s : State) (a : Agent) : State := { s with cur := a }

/-- The core of a place; a group in a cellar stands on none, read as core 0. -/
def Place.core (p : Place) : Nat :=
  match p with
  | .bank c _ => c
  | .cellar _ => 0

/-- The die on which a group stands; for one in a cellar, that of the core whose image it is in (R164, R218). -/
def State.groupDie (s : State) (g : Group) : Nat :=
  match g.place with
  | .bank c _ => dieOf c
  | .cellar i => match alook i s.images with
    | some m => dieOf m.core
    | none => 0

/-- The core on which an agent stands. -/
def State.agentCore (s : State) (a : Agent) : Nat :=
  match a with
  | .none | .host _ | .peer _ _ => 0
  | .ctl c _ => c
  | .team tid =>
    match alook tid s.teams with
    | some t =>
      match alook t.gid s.groups with
      | some g => g.place.core
      | none => 0
    | none => 0

/-- Where an agent executes and for whom: its core, die, context, group, region and the numbers R20 gives it. -/
structure Env where
  ag     : Agent
  core   : Nat
  die    : Nat
  ctx    : Nat
  gid    : Nat
  launch : Nat
  region : Nat
  frame  : W64
  clt    : Bool
  cp     : Nat
  pw     : Nat
  tix    : Nat
  gix    : Nat
  ctl    : Bool
  free   : Nat
  deriving DecidableEq, Repr

/-- The surroundings of an agent. A control thread acts for the team whose trap it handles (R397); its `tix` and `gix`
read 0 (R294). -/
def State.env (s : State) (a : Agent) : Env :=
  let core := s.agentCore a
  let base : Env := {
    ag := a, core := core, die := dieOf core, ctx := 0, gid := 0, launch := 0, region := 0, frame := 0
    clt := s.classT core, cp := (s.core core).point, pw := s.pw core, tix := 0, gix := 0, ctl := false, free := s.freeN }
  let ofGroup (e : Env) (gid : Nat) : Env :=
    match alook gid s.groups with
    | some g => { e with gid := gid, launch := g.launch, region := g.region, frame := g.frame, gix := g.gix, ctx := g.ctx }
    | none => e
  match a with
  | .none | .host _ | .peer _ _ => base
  | .team tid =>
    match alook tid s.teams with
    | some t => { ofGroup base t.gid with tix := t.tix }
    | none => base
  | .ctl c x =>
    let e := { base with ctx := x, ctl := true }
    match (s.core c).active.handling with
    | some h => { e with region := bits (h.trec.getD 0 0).toNat 63 48, frame := h.frame }
    | none => e

/-- The group of an agent. -/
def State.groupOf (s : State) (a : Agent) : Option (Nat × Group) :=
  match s.agent a with
  | some t => if t.ctl then none else (alook t.gid s.groups).map fun g => (t.gid, g)
  | none => none

/-! ## Lanes -/

/-- VL of sh0 (R72). -/
def Team.vl (t : Team) : Nat := t.sh0.d0

/-- The live lanes (R72, R120): mask bit set, below VL, neither exited nor faulted. -/
def Team.live (t : Team) : LaneMask := t.active &&& lowMask (min t.vl t.tw) &&& ~~~t.exited &&& ~~~t.fault

/-- The lanes of a mask below n, in ascending order. -/
def lanesOf (m : LaneMask) (n : Nat) : List Nat := (List.range n).filter fun l => m.getLsbD l

/-- The live lanes in ascending order. -/
def Team.liveLanes (t : Team) : List Nat := lanesOf t.live t.tw

/-- A mask of a list of lanes. -/
def maskOf (ls : List Nat) : LaneMask := ls.foldl (fun m l => m ||| BitVec.ofNat 1024 (2 ^ l)) 0

/-- How many lanes a mask holds. -/
def maskCount (m : LaneMask) : Nat := popCount m.toNat 1024

/-- The slot of a lane: the number of live lanes below it (R121, R122). -/
def Team.slotOf (t : Team) (l : Nat) : Nat := popCount t.live.toNat l

/-- The nibble of the first live lane, or 0 (R78). -/
def Team.firstNib (t : Team) : BitVec 4 :=
  match t.liveLanes with
  | l :: _ => sget t.cc l
  | [] => 0

/-! ## Program counter and clause -/

/-- A place n bytes on. -/
def Loc.plus (l : Loc) (n : Nat) : Loc :=
  match l with
  | .code a => .code (a + BitVec.ofNat 64 n)
  | .resid k o => .resid k (o + n)

/-- A place moved by a signed number of bytes. -/
def Loc.move (l : Loc) (n : Int) : Loc :=
  match l with
  | .code a => .code (a + BitVec.ofInt 64 n)
  | .resid k o => .resid k (o + n).toNat

/-- A clause context with nothing in it: the next word must be a header (R31). -/
def ClauseCtx.empty : ClauseCtx := { hdr := none, fin := none, setA := 15, setB := 15, issued := 0, inside := false, brk := [] }

/-- A team at a place outside any clause: the word there must be a header (R31). -/
def Team.at (t : Team) (l : Loc) : Team := { t with pc := l, clause := ClauseCtx.empty, bpSkip := false, replay := none }

/-- The places in a body of its instructions, in words from its start; headers and extension words are not counted (R137). Extension
words that pass their clause's end are taken on across the next header: the spec gives only that clause's own end (R26; DESIGN CHOICE, log
entry 72). -/
def bodyPlaces : Nat → Nat → List W32 → List Nat
  | 0, _, _ => []
  | _, _, [] => []
  | fuel + 1, at_, w :: r =>
    if w.toNat / 2 ^ 30 = 3 then bodyPlaces fuel (at_ + 1) r
    else at_ :: bodyPlaces fuel (at_ + wordSpan w) (r.drop (wordSpan w - 1))

/-- The entries of a step word: index, selector and increment; an entry of all zeros is unused (R137). -/
def stepEntries (w : W32) : List (Nat × Nat × Int) :=
  let entry (h : Nat) : List (Nat × Nat × Int) :=
    if h = 0 then [] else [(bits h 15 10, bits h 9 8, sInt 8 (h % 256))]
  entry (w.toNat % 65536) ++ entry (w.toNat / 65536)

/-- Where field a stands in a word: Form B has it at [17:11] (R17, R18). -/
def fieldA (w : Nat) : Nat := if w / 2 ^ 30 = 1 then bits w 17 11 else bits w 13 7

/-- The value steps after a pass: sign_extend(INC) is added to the scalar named in field a (R139), as the body was loaded, whatever another
entry renames (DESIGN CHOICE, log entry 51). -/
def LoopSt.stepScalars (l : LoopSt) (sregs : List (Nat × W64)) : List (Nat × W64) :=
  let places := bodyPlaces l.len 0 l.buf
  (stepEntries l.stepw).foldl (fun m e =>
    if e.2.1 = 3 then
      let r := fieldA ((l.buf.getD (places.getD e.1 0) 0).toNat) - 96
      sset m r (sget m r + BitVec.ofInt 64 e.2.2)
    else m) sregs

/-- The end of an instruction of n words with no transfer of control: the next word; at the clause's end the next word
must be a header (R31); at the body's end the next pass begins, or the loop ends (R139). In a clause that a written PC entered (R398) the
last instruction's extension words may pass the clause's end; the word after them then runs in the old context (DESIGN CHOICE, log
entry 53). -/
def Team.advance (t : Team) (n : Nat) : Team :=
  let pc := t.pc.plus (4 * n)
  let t1 := { t with
    pc := pc
    bpSkip := false
    replay := none
    clause := if t.clause.fin = some pc then ClauseCtx.empty else { t.clause with inside := true } }
  match t.loop with
  | none => t1
  | some l =>
    if pc = l.start.plus (4 * l.len) then
      let sregs := l.stepScalars t1.sregs
      if l.p + 1 < l.c then
        { t1 with sregs := sregs, pc := l.start, clause := ClauseCtx.empty, loop := some { l with p := l.p + 1 } }
      else { t1 with sregs := sregs, clause := ClauseCtx.empty, loop := none }
    else t1

/-! ## Objects, messages and reports -/

/-- What PF1 returns to the host: its DOE's and its recovery mailbox's answers, kept beside the 16 mailboxes (log entry 28). -/
def pf1 : Nat := 16

/-- The number of a message's OP among those of the model. -/
def MsgOp.num (o : MsgOp) : Nat :=
  match o with
  | .submitStatus => 0
  | .loadStatus => 1
  | .unloadStatus => 2
  | .created => 3
  | .destroyed => 4
  | .svnStatus => 5
  | .dtStatus => 6
  | .keyStatus => 7
  | .restoreStatus => 8
  | .recoveryStatus => 9
  | .faultRecord => 10
  | .killReport => 11
  | .errReport => 12
  | .joinReport => 13
  | .readData => 14
  | .placeStatus => 15
  | .retireStatus => 16
  | .version => 17
  | .capabilities => 18
  | .algorithms => 19
  | .digests => 20
  | .certificate => 21
  | .challenge => 22
  | .measurements => 23
  | .discovery => 24
  | .bootReport => 25

/-- Word 0 of a message (R360): OP, sender, receiver and TAG. -/
def Msg.word0 (m : Msg) : W64 :=
  BitVec.ofNat 64 ((Config.opCode m.op.num).toNat * 2 ^ 48 + m.snd % 256 * 2 ^ 40 + m.rcv % 256 * 2 ^ 32 + m.tag % 2 ^ 32)

/-- The eight words of a message. -/
def Msg.words (m : Msg) : List W64 := m.word0 :: (List.range 7).map fun i => m.body.getD i 0

/-- The cycle of the firmware cores' clock. -/
def State.fwCycle (s : State) : Nat := s.fw.now * Config.fwMhz

/-- A message put into a mailbox of 8 (R360). A sender that finds it full is refused, and keeps the message to send it again in order, after a
back-off that starts at 64 cycles (R268). -/
def State.send (s : State) (mb : Nat) (m : Msg) : State :=
  if Nat.blt (agetD [] mb s.fw.mbox).length Config.mailboxLimit && !(s.fw.unsent.any fun e => e.1 == mb) then
    { s with fw := { s.fw with mbox := aset mb (agetD [] mb s.fw.mbox ++ [m]) s.fw.mbox } }
  else { s with fw := { s.fw with
    unsent := s.fw.unsent ++ [(mb, m)]
    backoff := if (alook mb s.fw.backoff).isSome then s.fw.backoff else aset mb (64, s.fwCycle + 64) s.fw.backoff } }

/-- An MSI-X vector raised: a masked one sets its pending bit (R343). -/
def State.msix (s : State) (v : Nat) : State :=
  if s.fw.msixOpen.contains v then { s with fw := { s.fw with msixSent := s.fw.msixSent ++ [v] } }
  else { s with fw := { s.fw with msixPend := if s.fw.msixPend.contains v then s.fw.msixPend else s.fw.msixPend ++ [v] } }

/-- A firmware core is up: it has not hung and the part has power (R361). -/
def State.fwUp (s : State) (k : Nat) : Bool := !s.fw.hung.contains k

/-- A request message to a firmware core that has hung: its mailbox of 8 holds it, in order, or refuses the sender (R360, R361). -/
def State.hold (s : State) (mb : Nat) (i : Instr) : Option State :=
  let q := agetD [] mb s.fw.inbox
  if q.length < Config.mailboxLimit then some { s with fw := { s.fw with inbox := aset mb (q ++ [i]) s.fw.inbox } } else none

/-- What a firmware core sends by a mailbox with an MSI-X vector; a hung core owes it (R359, R361). -/
def State.fwSend (s : State) (core mb : Nat) (vec : Option Nat) (m : Msg) : State :=
  if s.fwUp core then
    match vec with
    | some v => (s.send mb m).msix v
    | none => s.send mb m
  else { s with fw := { s.fw with owed := s.fw.owed ++ [(core, .message mb vec m)] } }

/-- A report of the ERR firmware in mailbox 12 with its vector (R291, R339, R343, R360). -/
def State.report (s : State) (op : MsgOp) (vec : Nat) (body : List W64) : State :=
  s.fwSend 3 12 (some vec) { op := op, snd := 3, rcv := 0, tag := 0, body := body }

/-- A target lies in a tile. -/
def Target.inTile (g : Target) (t : Nat) : Bool :=
  match g with
  | .tile k _ => k == t
  | _ => false

/-- A matrix operation names a tile. -/
def MqOp.names (m : MqOp) (t : Nat) : Bool := m.a == t || m.b == t || (m.parts.any fun p => p.acc == t) || m.dest.any fun g => g.inTile t

/-- An engine operation names a tile (R166). -/
def State.tileInUse (s : State) (t : Nat) : Bool :=
  aany (fun _ m => m.names t) s.mqs ||
  aany (fun _ c => c.src == some t || c.dst == some t || c.idx == some t) s.copies

/-- Tiles that are RELEASING and that no engine operation names any more are FREE (R166). -/
def State.sweepTiles (s : State) : State :=
  { s with tiles := afilter (fun k t => !t.releasing || s.tileInUse k) s.tiles }

/-- The tiles that satisfy a condition go to RELEASING (R166). -/
def State.releaseTiles (s : State) (p : Nat → Tile → Bool) : State :=
  { s with tiles := amap (fun k t => if p k t then { t with releasing := true } else t) s.tiles }.sweepTiles

/-- A lane's request has ended: performed, or in error. -/
def LaneSt.over (x : LaneSt) : Bool :=
  match x with
  | .done | .failed | .refused => true
  | .sent | .parked _ | .nacked | .held => false

/-- Pending operations of a group or team whose effect is not yet performed, by their numbers. -/
def State.pendingOf (s : State) (p : PendOp → Bool) : List Nat :=
  (afilter (fun _ o => p o && o.lanes.any fun l => !l.st.over) s.pend).map fun e => e.1

/-- A group of a launch lives on a die. -/
def State.launchOnDie (s : State) (launch d : Nat) : Bool :=
  aany (fun _ g => g.launch == launch && s.groupDie g == d) s.groups

/-- A wait on a shared entry that is released ends with status 0x20, as by a BINV, and acquires nothing (R230). -/
def Team.barGone (t : Team) (gone : Nat → Bool) : Team :=
  match t.wait with
  | .barrier (.shared k) p n d none => if gone k then { t with wait := .barrier (.shared k) p n d (some 0x20) } else t
  | _ => t

/-- The shared entries that satisfy a condition released, and the waits on them ended (R218, R230). -/
def State.dropBars (s : State) (p : SharedBar → Bool) : State :=
  { s with
    bars := afilter (fun _ b => !p b) s.bars
    teams := amap (fun _ t => t.barGone fun k => aany (fun j b => j == k && p b) s.bars) s.teams }

/-- What goes when no group of a launch is left on a die: its level-2 tiles and die-scope barriers there; and when none is
left at all, its package-scope barriers, and, where no instance is still queued, its read-only frames and the launch (R164, R218, R280).
An instance that is still queued holds no barrier (DESIGN CHOICE, log entry 66). -/
def State.endLaunch (s : State) (launch d : Nat) : State :=
  let s1 := if s.launchOnDie launch d then s else
    (s.releaseTiles fun _ t => t.gid == none && t.launch == launch && t.die == d).dropBars fun b =>
      b.launch == launch && b.b.scope == 1 && b.die == d
  if aany (fun _ g => g.launch == launch) s1.groups then s1
  else
    match alook launch s1.launches with
    | some l =>
      let s2 := s1.dropBars fun b => b.launch == launch
      if l.left = 0 then
        { s2 with launches := adel launch s2.launches, roFrames := s2.roFrames.filter fun f => f.launch != launch }
      else s2
    | none => s1

/-- A bank that a context leaves for good is EMPTY (R290, R310). -/
def Bank.leave (b : Bank) (ctx count : Nat) : Bank := if b.ctx = some ctx then { Bank.init .empty with point := b.point, since := count } else b

/-- What a core holds of a context that is GONE: nothing (R290). -/
def CoreSt.leave (x : CoreSt) (ctx : Nat) : CoreSt :=
  { x with
    bank0 := x.bank0.leave ctx x.count, bank1 := x.bank1.leave ctx x.count
    ckpt := if x.ckpt.any fun k => k.ctx == ctx then none else x.ckpt }

/-- A CLOSING context of which no group, queued record, code object or cellar image is left is GONE, its banks EMPTY (R290), a handler that
runs in one of them with it. -/
def State.closeContext (s : State) (ctx : Nat) : State :=
  match alook ctx s.ctxs with
  | some c =>
    if c.closing && !aany (fun _ g => g.ctx == ctx) s.groups && !(s.queues.any fun q => q.ctx == ctx && !q.entries.isEmpty)
        && !aany (fun _ o => o.ctx == ctx) s.objs && !aany (fun _ i => i.cellar && i.ctx == ctx) s.images then
      { s with ctxs := adel ctx s.ctxs, tlb := s.tlb.filter fun e => e.ctx != ctx
               ctls := afilter (fun k _ => k % 65536 != ctx) s.ctls
               cur := match s.cur with
                 | .ctl c x => if x = ctx then .none else .ctl c x
                 | a => a
               cores := amap (fun _ x => x.leave ctx) s.cores }
    else s
  | none => s

/-- A decant cache entry that is STALE and has no user left is removed (R286). -/
def State.sweepDecants (s : State) : State :=
  { s with decants := afilter (fun k e => e.st != .stale || aany (fun _ g => g.residuals.contains k) s.groups) s.decants }

/-- A READY or SPILLING bank of a killed context in which no group is left is EMPTY (R310). -/
def State.emptyBank (s : State) (ctx c b : Nat) : State :=
  let x := s.core c
  let k := x.bank b
  if k.ctx = some ctx ∧ (k.st = .ready ∨ k.st = .spilling) ∧ !aany (fun _ g => g.place == .bank c b) s.groups then
    { s with ctls := adel (ctlKey c ctx) s.ctls }.setCore c (x.setBank b (k.leave ctx x.count))
  else s

/-- What a context that is killed held in banks not active and in cellars, where no group of another domain is left there, is discarded,
its deques with it (R265, R310); a kill of a mere domain discards groups alone (R291). -/
def State.discardBanks (s : State) (ctx : Nat) : State :=
  let s1 : State := { s with
    images := afilter (fun k i => !(i.cellar && i.ctx == ctx) || aany (fun _ g => g.place == .cellar k) s.groups) s.images }
  s1.cores.foldl (fun (st : State) (e : Nat × CoreSt) => (st.emptyBank ctx e.1 0).emptyBank ctx e.1 1) s1

/-- What a release of a team covers (R224, R240, R263): its earlier accesses, and what happens before them. -/
def Team.released (t : Team) : List Nat := t.hb ++ t.own

/-- A group leaves the machine: its storage is released and its launch ends where it was the last (R119, R166, R218).
`joined` says whether it retires, with a join update to come (R258), or is killed (R291). -/
def State.dropGroup (s : State) (gid : Nat) (joined : Bool) : State :=
  match alook gid s.groups with
  | none => s
  | some g =>
    let d := s.groupDie g
    let s1 := { s with
      groups := adel gid s.groups
      teams := afilter (fun _ t => t.gid != gid) s.teams
      launches := match alook g.launch s.launches with
        | some l => aset g.launch { l with live := l.live - 1 } s.launches
        | none => s.launches }
    let s2 := if joined && g.join != 0 && (g.partner.isNone || !aany (fun k _ => some k == g.partner) s1.groups) then
        { s1 with
          joins := aset s1.nextId { ctx := g.ctx, region := g.region, die := d, addr := g.join
                                    after := g.hb ++ ((afilter (fun _ t => t.gid == gid) s.teams).flatMap fun e => e.2.released) ++
                                      s1.pendingOf fun o => o.gid == gid
                                    deaf := false } s1.joins
          nextId := s1.nextId + 1 }
      else s1
    ((s2.releaseTiles fun _ t => t.gid == some gid).endLaunch g.launch d).sweepDecants.closeContext g.ctx

/-- A DRAINING team whose every flag is clear retires, and its group with its last team (R115, R119, R132). -/
def State.drainEnd (s : State) (tid : Nat) : State :=
  match alook tid s.teams with
  | some t =>
    if t.st = .draining ∧ t.flags = [] ∧ t.errs = [] then
      let s1 := { s with
        teams := adel tid s.teams
        groups := match alook t.gid s.groups with
          | some g => aset t.gid { g with hb := g.hb ++ t.released } s.groups
          | none => s.groups }
      if aany (fun _ u => u.gid == t.gid) s1.teams then s1 else s1.dropGroup t.gid true
    else s
  | none => s

/-! ## Killing a fault domain (R291, R292, R386) -/

/-- The copies of killed groups: discarded, or stopped at an element boundary (R292). -/
def State.killCopies (s : State) (dead : Nat → Bool) : State :=
  { s with copies := afilter (fun _ c => !dead c.gid) s.copies }

/-- The matrix operations of killed groups: one not begun is discarded, but for a plain MDRAIN, which has issued and
whose writes are not held (R292, R312). -/
def State.killMqs (s : State) (dead : Nat → Bool) : State :=
  { s with mqs := afilter (fun _ m => m.begun || !dead m.gid || (match m.kind with
      | .mdrain false _ => (match alook m.gid s.groups with
        | some g => g.partner.isNone
        | none => true)
      | _ => false)) s.mqs }

/-- A killed group's access is still performed: what it stores or adds, and a load or atomic lane that its home has accepted (R292). -/
def PendOp.survives (o : PendOp) (l : LaneAcc) : Bool :=
  match o.kind, l.st with
  | .load _, .sent | .load _, .nacked | .load _, .held | .atomic _ _, .sent | .atomic _ _, .nacked | .atomic _ _, .held => false
  | _, _ => true

/-- An operation whose register results are discarded. -/
def PendOp.silent (o : PendOp) : PendOp := { o with killed := true, flag := none, dst := .none, twin := none }

/-- The requests of killed groups: those that still count are performed at their homes, their register results discarded (R292). -/
def State.killPend (s : State) (dead : Nat → Bool) : State :=
  { s with pend := amap (fun _ o => if dead o.gid then { o.silent with lanes := o.lanes.filter fun l => o.survives l } else o) s.pend }

/-- The operations of a group that has ended: they are all performed, their register results discarded (R264). -/
def State.discardResults (s : State) (gid : Nat) : State := { s with pend := amap (fun _ o => if o.gid = gid then o.silent else o) s.pend }

/-- A bank in which killed teams had traps queued (R386). A handler run in progress goes on to its EXIT (R305). -/
def Bank.forget (b : Bank) (gone : Nat → Bool) : Bank := { b with trapQ := b.trapQ.filter fun t => !gone t }

/-- The queued traps and the faults of teams that are gone (R386). -/
def State.forgetTeams (s : State) (gone : Nat → Bool) : State :=
  { s with
    faults := afilter (fun _ f => !(match f.ag with
      | .team t => gone t
      | _ => false)) s.faults
    cores := amap (fun _ x => { x with bank0 := x.bank0.forget gone, bank1 := x.bank1.forget gone }) s.cores
    images := amap (fun _ i => { i with bank := i.bank.forget gone }) s.images }

/-- The teams of the groups that satisfy a condition. -/
def State.teamsOf (s : State) (dead : Nat → Bool) : List Nat := (afilter (fun _ t => dead t.gid) s.teams).map fun e => e.1

/-- A swap is due in the next cycle of a core whose ACTIVE bank a kill has left without a group while the other bank holds a context (R386). -/
def State.markSwap (s : State) (cores : List Nat) : State :=
  cores.foldl (fun (st : State) c =>
    let x := st.core c
    if x.active.st = .active ∧ (x.bank (1 - x.act)).st = .ready ∧ !aany (fun _ g => g.place == .bank c x.act) st.groups then
      st.setCore c { x with swapDue := some (x.count + 1) }
    else st) s

/-- The kill of a fault domain, package-wide: queued records discarded, groups killed, their storage released, the kill
reported (R291). The region tree and its budgets stay (R392). -/
def State.killNow (s : State) (ctx dom : Nat) : State :=
  let inDom (region : Nat) : Bool := s.domain ctx region == dom
  let doomed := (afilter (fun _ g => g.ctx == ctx && inDom g.region) s.groups).map fun e => e.1
  let dead (g : Nat) : Bool := doomed.contains g
  let gone := s.teamsOf dead
  let cores := (afilter (fun k _ => dead k) s.groups).filterMap fun e => match e.2.place with
    | .bank c _ => some c
    | .cellar _ => none
  let s1 := { s with
    launches := amap (fun k l =>
      if l.ctx == ctx && inDom l.region then
        { l with left := l.left - ((s.queues.flatMap fun (q : RunQueue) => if q.ctx == ctx then q.entries else []).foldl
            (fun n (e : QEntry) => if e.launch == k then n + (e.hi - e.next) else n) 0) } else l) s.launches
    queues := s.queues.map fun (q : RunQueue) => if q.ctx == ctx && inDom q.region then { q with entries := [] } else q }
  let s2 := (((s1.forgetTeams gone.contains).killCopies dead).killMqs dead).killPend dead
  let s3 := s2.launches.foldl (fun (st : State) (e : Nat × Launch) =>
    if e.2.left = 0 ∧ !aany (fun _ g => g.launch == e.1) st.groups then st.endLaunch e.1 0 else st)
    (doomed.foldl (fun (st : State) g => st.dropGroup g false) s2)
  let root := (s.chain ctx (match alook ctx s.ctxs with
    | some c => c.rootRegion
    | none => 0)).getLastD 0
  let s4 := if dom == root then
      { s3 with ctxs := match alook ctx s3.ctxs with
          | some c => aset ctx { c with closing := true } s3.ctxs
          | none => s3.ctxs }.discardBanks ctx |>.closeContext ctx
    else s3
  (s4.markSwap cores).report .killReport 3 [BitVec.ofNat 64 ctx, BitVec.ofNat 64 dom]

/-- A kill is the ERR firmware's to perform (R359): while that core is hung it is owed, and what needs it waits (R361). -/
def State.killDomain (s : State) (ctx dom : Nat) : State :=
  if s.fwUp 3 then s.killNow ctx dom else { s with fw := { s.fw with owed := s.fw.owed ++ [(3, .kill ctx dom)] } }

/-- The fault domain of a team's group killed (R291). -/
def State.killTeamDomain (s : State) (tid : Nat) : State :=
  match alook tid s.teams with
  | some t =>
    match alook t.gid s.groups with
    | some g => s.killDomain g.ctx (s.domain g.ctx g.region)
    | none => s
  | none => s

/-! ## Taking a trap (R293) -/

/-- A trap as an instruction raises it. No mask means every live lane (DEDUCED, log entry 8). `store` marks a store
that raises PAGE; `repair` a fault that goes to the MEM firmware first; `err` the delivery of an error that had arrived
(R327). `pc` is the place of the trap where it is not the team's (R26), and `count` the COUNT of a watchdog's expiry (R384). -/
structure Trap where
  cause  : Cause
  mask   : Option LaneMask := none
  addr   : W64 := 0
  info   : Option Nat := none
  oppc   : W64 := 0
  diag   : List W64 := []
  after  : Bool := false
  skip   : Bool := false
  store  : Bool := false
  repair : Bool := false
  err    : Bool := false
  pc     : Option Loc := none
  count  : Option Nat := none
  deriving DecidableEq, Repr

/-- The cause codes of R35. -/
def Cause.code (c : Cause) : Nat :=
  match c with
  | .illegal => 0x01
  | .reservedField => 0x02
  | .emulated => 0x03
  | .operand => 0x04
  | .window => 0x05
  | .stack => 0x06
  | .shape => 0x08
  | .shapeStale => 0x09
  | .formatDiverge => 0x0A
  | .gang => 0x0B
  | .tile => 0x0C
  | .page => 0x10
  | .fetch => 0x11
  | .protect => 0x12
  | .align => 0x13
  | .barrierTimeout => 0x18
  | .barrierScope => 0x19
  | .queue => 0x1A
  | .brk => 0x20
  | .trap => 0x21
  | .uncorrectable => 0x28
  | .redundancy => 0x29
  | .priv => 0x30

/-- An empty token (R123). -/
def Token.empty : Token := { kind := .empty, pc := .code 0, mask := 0 }

/-- The loop state that the original code would hold at a place of a residual, in an unrolled pass of a LOOP (R282, R283); its body's start is
counted from the code section. -/
def State.unrolledAt (s : State) (l : Loc) : Option LoopSt :=
  match l with
  | .code _ => none
  | .resid k o => (alook k s.decants).bind fun d => alook (o / 4) d.loops

/-- A trap in an unrolled pass of a LOOP, whose pass is its INFO as in the original code (R283, R295). -/
def State.inPass (s : State) (t : Team) (x : Trap) : Trap :=
  match t.loop, x.info with
  | none, none => { x with info := (s.unrolledAt (x.pc.getD t.pc)).map fun q => q.p }
  | _, _ => x

/-- A team as a trap leaves it: STOPPED at its PC, the fault mask set, the TRAP token in the trap slot (R30, R293 steps 1 to 3). -/
def Team.stop (t : Team) (x : Trap) (count : Nat) (pend : Option Cause) (ovf : Bool) : Team :=
  let pc := x.pc.getD t.pc
  { t with
    st := .stopped
    pc := pc
    wait := .none
    fault := match x.mask with
      | some m => m
      | none => t.live
    trapTok := { kind := .trap, pc := pc, mask := t.active }
    fromDrain := t.st == .draining
    errs := if x.err then [] else t.errs
    trap := some
      { cause := x.cause, after := x.after, skip := x.skip, store := x.store, pc := pc, addr := x.addr
        info := match x.info with
          | some n => n
          | none => match t.loop with
            | some l => l.p
            | none => 0
        count := count, oppc := x.oppc, diag := x.diag, pend := pend, ovf := ovf, late := x.err, atFw := x.repair } }

/-- The trap queue of the bank, or of the cellar image, that holds a group changed by a function. -/
def State.modTrapQ (s : State) (gid : Nat) (f : List Nat → List Nat) : State :=
  match alook gid s.groups with
  | some g =>
    match g.place with
    | .bank c b => s.modCore c fun x => x.setBank b { x.bank b with trapQ := f (x.bank b).trapQ }
    | .cellar i =>
      match alook i s.images with
      | some m => { s with images := aset i { m with bank := { m.bank with trapQ := f m.bank.trapQ } } s.images }
      | none => s
  | none => s

/-- Of two traps raised in one cycle, that of the first team's slot stands before that of the second's (R384). -/
def State.trapBefore (s : State) (tid k : Nat) : Bool :=
  match alook tid s.teams, alook k s.teams with
  | some t, some u => Nat.blt t.slot u.slot && (match t.trap, u.trap with
    | some x, some y => x.count == y.count
    | _, _ => false)
  | _, _ => false

/-- A trap put at the end of a queue, before those that end it and were raised in the same cycle in higher team slots (R384). -/
def queueIn (before : Nat → Bool) (tid : Nat) (q : List Nat) : List Nat :=
  let n := q.length - (q.reverse.takeWhile before).length
  q.take n ++ tid :: q.drop n

/-- A trap put into the queue of the bank, or of the cellar image, that holds the team's group (R293 step 5, R384). -/
def State.queueTrap (s : State) (tid gid : Nat) : State := s.modTrapQ gid (queueIn (s.trapBefore tid) tid)

/-- An address lies in a host page (R318). -/
def State.hostPage (s : State) (ctx va : Nat) : Bool :=
  match s.translate ctx va with
  | .leaf e => e.host
  | _ => false

/-- A fault taken by the MEM firmware (R293 step 4, R320), after the walk that met it (R365): a host page waits for ATS, a device page has its
fault record posted to system software. -/
def State.fwFault (s : State) (a : Agent) (ctx : Nat) (va : W64) (core : Nat) : State :=
  let h := s.hostPage ctx (va.toNat % 2 ^ 56)
  let st : FaultSt := bif h then .atsWait else .sysWait
  let f : FaultRec := { ag := a, eng := none, region := (s.env a).region, ctx := ctx, va := va, st := st, since := (s.core core).count, core := core }
  let s1 : State := { s.walked ctx (dieOf core) (va.toNat % 2 ^ 56) with faults := aset s.nextId f s.faults, nextId := s.nextId + 1 }
  bif h then s1
  else s1.fwSend 2 12 (some 2) { op := .faultRecord, snd := 2, rcv := 0, tag := s.nextId, body := [BitVec.ofNat 64 ctx, va] }

/-- A repairable fault of an engine operation, taken by the MEM firmware; the operation waits for its repair (R196, R320). -/
def State.engFault (s : State) (op ctx region core : Nat) (va : W64) : State :=
  let h := s.hostPage ctx (va.toNat % 2 ^ 56)
  let st : FaultSt := bif h then .atsWait else .sysWait
  let f : FaultRec := {
    ag := .none, eng := some op, region := region, ctx := ctx, va := va, st := st, since := (s.core core).count, core := core }
  let s1 : State := { s.walked ctx (dieOf core) (va.toNat % 2 ^ 56) with faults := aset s.nextId f s.faults, nextId := s.nextId + 1 }
  bif h then s1
  else s1.fwSend 2 12 (some 2) { op := .faultRecord, snd := 2, rcv := 0, tag := s.nextId, body := [BitVec.ofNat 64 ctx, va] }

/-- An engine operation waits for the repair of a fault. -/
def State.engWaits (s : State) (op : Nat) : Bool := aany (fun _ f => f.eng == some op) s.faults

/-- The team of the other copy of a REDUNDANT group with the same `tix` (R312). -/
def State.partnerTeam (s : State) (tid : Nat) : Option Nat :=
  match alook tid s.teams with
  | some t =>
    match (alook t.gid s.groups).bind fun g => g.partner with
    | some p => (alook p s.groups).bind fun g => g.teams[t.tix]?
    | none => none
  | none => none

/-- A team's partner is resident and not STOPPED, so that a wait at a commit counts against the watchdog (R313). -/
def State.partnerCounts (s : State) (tid : Nat) : Bool :=
  match s.partnerTeam tid with
  | some k =>
    match alook k s.teams with
    | some u => u.st != .stopped && (match alook u.gid s.groups with
      | some g => (match g.place with
        | .bank _ _ => true
        | .cellar _ => false)
      | none => false)
    | none => true
  | none => true

/-- The count of a team that waits at a commit, stopped or going on as its partner stands (R313). -/
def State.recount (s : State) (tid : Nat) : State :=
  match alook tid s.teams with
  | some t =>
    let c := (s.core (s.agentCore (.team tid))).count
    match t.wait with
    | .commit i none => if s.partnerCounts tid then s else { s with teams := aset tid { t with wait := .commit i (some (c - t.since)) } s.teams }
    | .commit i (some n) => if s.partnerCounts tid then { s with teams := aset tid { t with wait := .commit i none, since := c - n } s.teams } else s
    | _ => s
  | none => s

/-- The count of a team's partner looked at again. -/
def State.recountPartner (s : State) (tid : Nat) : State :=
  match s.partnerTeam tid with
  | some k => s.recount k
  | none => s

/-- The walk that ended in a PROTECT or an unrepairable FETCH taken (R365): its leaf, where it found one, is cached. -/
def State.trapWalk (s : State) (ctx core : Nat) (x : Trap) : State :=
  let va := x.addr.toNat
  if (x.cause = .protect ∨ x.cause = .fetch) ∧ x.repair = false ∧ x.err = false ∧ va < 2 ^ 56 ∧ (s.cached ctx va).isNone = true then
    (s.walked ctx (dieOf core) va).cache ctx va
  else s

/-- A team stopped by a trap. `pend` and `ovf` go into the record of a trap delivered from the pending slot (R297). -/
def State.stopTeamWith (s : State) (tid : Nat) (x : Trap) (pend : Option Cause) (ovf : Bool) : State :=
  match alook tid s.teams with
  | none => s
  | some t =>
    let core := s.agentCore (.team tid)
    let ctx := match alook t.gid s.groups with
      | some g => g.ctx
      | none => 0
    let s1 := { s with teams := aset tid (t.stop (s.inPass t x) (x.count.getD (s.core core).count) pend ovf) s.teams }
    let s2 := if x.repair then s1.fwFault (.team tid) ctx x.addr core else (s1.trapWalk ctx core x).queueTrap tid t.gid
    (s2.ctxEvent core ctx 8 1).recountPartner tid

/-- A team stopped by a trap (R293). -/
def State.stopTeam (s : State) (tid : Nat) (x : Trap) : State := s.stopTeamWith tid x none false

/-- The bank of a core that holds a context: the active one, or the other. -/
def State.bankOf (s : State) (c ctx : Nat) : Option Nat :=
  let x := s.core c
  if (x.bank x.act).ctx = some ctx then some x.act
  else if (x.bank (1 - x.act)).ctx = some ctx then some (1 - x.act) else none

/-- What the control thread of a context on a core handles, in the bank that holds the context (R306). -/
def State.handlingOf (s : State) (c ctx : Nat) : Option Handling := (s.bankOf c ctx).bind fun b => ((s.core c).bank b).handling

/-- The handler run of a context on a core is over: the control thread takes the next queued trap. -/
def State.endRun (s : State) (c ctx : Nat) : State :=
  let s1 : State := match s.bankOf c ctx with
    | some b => s.modCore c fun y => { y.setBank b { y.bank b with handling := none } with
        ckpt := if y.ckpt.any fun (k : CkptSt) => k.ctx == ctx then none else y.ckpt }
    | none => s
  { s1 with
    cur := if s.cur = Agent.ctl c ctx then Agent.none else s.cur
    ctls := match alook (ctlKey c ctx) s1.ctls with
      | some t => aset (ctlKey c ctx) { t with st := .retired, wait := .none } s1.ctls
      | none => s1.ctls }.closeContext ctx

/-- The control thread stopped with a trap condition, which counts as a trap taken (R365; DEDUCED, log entry 64). -/
def State.stopCtl (s : State) (c ctx : Nat) (x : Trap) : State :=
  match alook (ctlKey c ctx) s.ctls with
  | some t => ({ s with ctls := aset (ctlKey c ctx) (t.stop x (s.core c).count none false) s.ctls } : State).trapWalk ctx c x |>.ctxEvent c ctx 8 1
  | none => s

/-- The fault domain of the team that a handler run handles is killed, be the team retired since, and the run ends (R296). -/
def State.endHandled (s : State) (c ctx : Nat) : State :=
  match s.handlingOf c ctx with
  | some h => (s.killDomain ctx (s.domain ctx (bits (h.trec.getD 0 0).toNat 63 48))).endRun c ctx
  | none => s

/-- A trap condition in the control thread escalates: the fault domain of the handled team is killed, be the team retired
since, and the handler run ends (R296). A repairable fault goes to the MEM firmware first. -/
def State.escalate (s : State) (c ctx : Nat) (x : Trap) : State :=
  if x.repair then
    match alook (ctlKey c ctx) s.ctls with
    | some _ => (s.stopCtl c ctx x).fwFault (.ctl c ctx) ctx x.addr c
    | none => s
  else (s.stopCtl c ctx x).endHandled c ctx

/-- TAKING A TRAP: the agent that executes stops with it (R293), or its trap escalates (R296). -/
def takeTrap (s : State) (x : Trap) : State :=
  match s.cur with
  | .none | .host _ | .peer _ _ => s
  | .team tid => s.stopTeam tid x
  | .ctl c ctx => s.escalate c ctx x

/-- A trap taken by a given agent, which need not be the one that issues. -/
def State.trapAt (s : State) (a : Agent) (x : Trap) : State :=
  match a with
  | .none | .host _ | .peer _ _ => s
  | .team tid => s.stopTeam tid x
  | .ctl c ctx => s.escalate c ctx x

/-! ## The return from a trap (R305, R297) -/

/-- A team as TRESUME resumes it: the mask of the trap slot, the slot cleared, the PC the saved one or the word after. -/
def Team.resume (t : Team) : Team :=
  let r := t.trap
  let t1 := { t with
    st := if t.fromDrain then .draining else .ready
    active := t.trapTok.mask &&& ~~~t.exited &&& lowMask t.tw
    trapTok := Token.empty
    fault := 0
    fromDrain := false
    trap := none }
  match r with
  | some x =>
    if x.after then t1.advance 1
    else { t1 with replay := if x.store then some t.fault else none, bpSkip := x.skip }
  | none => t1

/-- A stopped team resumed; one whose pending-trap slot is full stops again at the resumed PC (R297). -/
def State.resumeTeam (s : State) (tid : Nat) : State :=
  match alook tid s.teams with
  | none => s
  | some t =>
    let t1 := t.resume
    match t1.pending with
    | none => ({ s with teams := aset tid t1 s.teams } : State).recountPartner tid |>.drainEnd tid
    | some e =>
      let s1 := { s with teams := aset tid { t1 with pending := none, pendOvf := false } s.teams }
      s1.stopTeamWith tid { cause := e.cause, mask := some e.mask, addr := e.addr, oppc := e.oppc, err := true } (some e.cause) t.pendOvf

/-! ## The frame of a meaning -/

/-- An instruction executed by the agent that is current, as a function of its surroundings and its own state that
changes only the latter. `n` is the instruction's length in words; the trap of a failing one is taken. -/
def runAgent (s : State) (n : Nat) (f : Env → Team → Except Trap Team) : Host.Outcome State Fault Refusal :=
  match s.agent s.cur with
  | none => .refused .noAgent
  | some t =>
    match f (s.env s.cur) t with
    | .ok t' => .next (s.setAgent s.cur (t'.advance n))
    | .error x => .next (takeTrap s x)

/-- An instruction that changes more than its agent: it gives the whole next state, the agent's advance included. -/
def runState (s : State) (f : Env → Team → Except Trap State) : Host.Outcome State Fault Refusal :=
  match s.agent s.cur with
  | none => .refused .noAgent
  | some t =>
    match f (s.env s.cur) t with
    | .ok s' => .next s'
    | .error x => .next (takeTrap s x)

/-- A step that is no instruction: it happens, or, where it has no occasion in this state, nothing does (log entry 1). -/
def runEvent (s : State) (r : Option State) : Host.Outcome State Fault Refusal := .next (r.getD s)

/-- A condition without which an instruction traps. -/
def need (c : Bool) (x : Trap) : Except Trap Unit := if c then .ok () else .error x

/-- A trap of a cause that names every live lane. -/
def Trap.of (c : Cause) : Trap := { cause := c }

end Sys2Proof.Machine
end

