-- ==== Sys2Proof/Machine/Operands.lean ====
section
/-!
DEFINITION. Every operand form (R20 to R24): the class of a register code, what a source gives a lane or the scalar datapath,
how a result is written, the checks of R20 to R23 and of R155, and the one form of the arithmetic instructions (R21, R74,
R78, R81, R97): per live lane for a vector destination, once for a scalar one.
-/
namespace Sys2Proof.Machine

/-! ## Classes and checks -/

/-- A register of vector class (R20); in the control thread `lid` is of scalar class (R294). -/
def isVecReg (t : Team) (r : Reg) : Bool :=
  match r with
  | .v _ => true
  | .lid => !t.ctl
  | _ => false

/-- A source of vector class. -/
def isVec (t : Team) (x : Src) : Bool :=
  match x with
  | .reg r => isVecReg t r
  | .lit _ => false

/-- The allotment register of a window code (R22). -/
def Team.reg (t : Team) (n : Nat) : Nat := 32 * t.winBase + n

/-- A window code names a register of the allotment (R22). The control thread has none (R294). -/
def Team.inWindow (t : Team) (n : Nat) : Bool := !t.ctl && Nat.blt (t.reg n) t.allot

/-- A register may be read: a vector code must lie in the allotment (R22). -/
def okReg (t : Team) (r : Reg) : Bool :=
  match r with
  | .v n => t.inWindow n.val
  | _ => true

/-- A source may be read (R22). -/
def okSrc (t : Team) (x : Src) : Bool :=
  match x with
  | .reg r => okReg t r
  | .lit _ => true

/-- A destination may be written (R20, R22). -/
def okDst (t : Team) (r : Reg) : Bool :=
  match r with
  | .v n => t.inWindow n.val
  | .s _ | .z => true
  | .lid | .vl | .pw | .tix | .gix => false

/-- A destination of vector class. -/
def isVecDst (r : Reg) : Bool :=
  match r with
  | .v _ => true
  | _ => false

/-- A scalar destination or `z`. -/
def isScaDst (r : Reg) : Bool :=
  match r with
  | .s _ | .z => true
  | _ => false

/-- OPERAND where a source or destination may not stand (R20 to R23). -/
def needOperand (c : Bool) : Except Trap Unit := need c (Trap.of .operand)

/-- The sources may be read. -/
def checkSrcs (t : Team) (xs : List Src) : Except Trap Unit := needOperand (xs.all fun x => okSrc t x)

/-- The sources are of scalar class. -/
def checkScalars (t : Team) (xs : List Src) : Except Trap Unit :=
  needOperand (xs.all fun x => okSrc t x && !isVec t x)

/-- The check of sh0 that every per-lane instruction makes (R155): SHAPE for a wrong kind, SHAPE-STALE for a stale grant,
naming the lanes that would have been live. -/
def checkSh0 (t : Team) : Except Trap Unit :=
  if t.sh0.kind != .vec then .error (Trap.of .shape)
  else if t.sh0.stale then .error (Trap.of .shapeStale)
  else .ok ()

/-- The level an instruction requires (R41). -/
def levelRank (l : Level) : Nat :=
  match l with
  | .program => 0
  | .handler => 1
  | .system => 2

/-- PRIV below the level an instruction requires (R34, R41). -/
def checkLevel (t : Team) (l : Level) : Except Trap Unit := need (Nat.ble (levelRank l) (levelRank t.level)) (Trap.of .priv)

/-! ## Reading -/

/-- A scalar register or special scalar, 64 bits (R20). -/
def regScalar (e : Env) (t : Team) (r : Reg) : W64 :=
  match r with
  | .v _ => 0
  | .s n => sget t.sregs n.val
  | .z => 0
  | .lid => 0
  | .vl => BitVec.ofNat 64 t.vl
  | .pw => BitVec.ofNat 64 e.pw
  | .tix => BitVec.ofNat 64 e.tix
  | .gix => BitVec.ofNat 64 e.gix

/-- A scalar source with a literal sign-extended (`sx`) or zero-extended (R24). -/
def srcScalarX (e : Env) (t : Team) (sx : Bool) (x : Src) : W64 :=
  match x with
  | .reg r => regScalar e t r
  | .lit w => if sx then w.signExtend 64 else w.setWidth 64

/-- A scalar source with a literal sign-extended: every scalar operand but those R24 excepts. -/
def srcScalar (e : Env) (t : Team) (x : Src) : W64 := srcScalarX e t true x

/-- A 32-bit lane of a source: a scalar is broadcast by its low half (R21), a literal as it stands (R24). -/
def srcLane (e : Env) (t : Team) (x : Src) (l : Nat) : W32 :=
  match x with
  | .lit w => w
  | .reg (.v n) => sget t.vregs (1024 * t.reg n.val + l)
  | .reg .lid => BitVec.ofNat 32 l
  | .reg r => (regScalar e t r).setWidth 32

/-- The old value of a destination as a 32-bit lane; `z` reads 0 (R85). -/
def dstLane (e : Env) (t : Team) (d : Reg) (l : Nat) : W32 := srcLane e t (.reg d) l

/-- Even window codes name pairs (R23). -/
def evenCode (r : Reg) : Bool :=
  match r with
  | .v n => n.val % 2 == 0
  | _ => true

/-- A 64-bit lane: a register pair, or a scalar broadcast whole (R23, R109). -/
def srcLane64 (e : Env) (t : Team) (x : Src) (l : Nat) : W64 :=
  match x with
  | .reg (.v n) =>
      BitVec.ofNat 64 ((sget t.vregs (1024 * t.reg n.val + l)).toNat
        + 2 ^ 32 * (sget t.vregs (1024 * t.reg (n.val + 1) + l)).toNat)
  | .reg .lid => BitVec.ofNat 64 l
  | .reg r => regScalar e t r
  | .lit w => w.signExtend 64

/-- A vector code of a pair: even, with both registers in the allotment; `lid` names no pair (R22, R23). -/
def okPair (t : Team) (r : Reg) : Bool :=
  match r with
  | .v n => n.val % 2 == 0 && t.inWindow (n.val + 1)
  | .lid => t.ctl
  | _ => true

/-- A source of a 64-bit operand (R23). -/
def okPairSrc (t : Team) (x : Src) : Bool :=
  match x with
  | .reg r => okPair t r
  | .lit _ => true

/-- A destination of a 64-bit operand (R23). -/
def okPairDst (t : Team) (r : Reg) : Bool := okDst t r && okPair t r

/-! ## Writing -/

/-- A scalar register written; `z` discards (R20). -/
def Team.writeScalar (t : Team) (r : Reg) (x : W64) : Team :=
  match r with
  | .s n => { t with sregs := sset t.sregs n.val x }
  | _ => t

/-- One allotment register written in some lanes. -/
def Team.writeLanes (t : Team) (r : Nat) (ls : List Nat) (f : Nat → W32) : Team :=
  { t with vregs := ssetAll t.vregs (ls.map fun l => (1024 * r + l, f l)) }

/-- The nibbles of some lanes written. -/
def Team.writeNibs (t : Team) (ls : List Nat) (f : Nat → BitVec 4) : Team :=
  { t with cc := ssetAll t.cc (ls.map fun l => (l, f l)) }

/-- FPFLAGS with flags added: they are sticky (R45). -/
def Team.addFp (t : Team) (f : BitVec 5) : Team := { t with fpflags := t.fpflags ||| f }

/-! ## The form of an arithmetic instruction -/

/-- What one lane produces: its value, its nibble and the FPFLAGS bits it raises. -/
structure LaneRes where
  x   : W64
  nib : BitVec 4
  fl  : BitVec 5
  deriving DecidableEq, Repr

/-- A lane result without flags. -/
def LaneRes.int (x : Nat) (nib : BitVec 4) : LaneRes := { x := BitVec.ofNat 64 x, nib := nib, fl := 0 }

/-- The lane results of an instruction written: 32 bits to a register, or 64 to a pair (`pair`), nibbles with `cc`, flags
always (R73, R75, R45). -/
def Team.applyLanes (t : Team) (d : Option Nat) (pair cc : Bool) (f : Nat → LaneRes) : Team :=
  let ls := t.liveLanes
  let t1 := match d with
    | none => t
    | some r =>
      let t0 := t.writeLanes r ls fun l => (f l).x.setWidth 32
      if pair then t0.writeLanes (r + 1) ls fun l => BitVec.ofNat 32 ((f l).x.toNat / 2 ^ 32) else t0
  let t2 := if cc then t1.writeNibs ls fun l => (f l).nib else t1
  t2.addFp (ls.foldl (fun m l => m ||| (f l).fl) 0)

/-- The result of a scalar instruction written: the register, and with `cc` the nibble into every live lane (R74, R78). -/
def Team.applyScalar (t : Team) (d : Option Reg) (cc : Bool) (r : LaneRes) : Team :=
  let t1 := match d with
    | none => t
    | some x => t.writeScalar x r.x
  let t2 := if cc then t1.writeNibs t.liveLanes fun _ => r.nib else t1
  t2.addFp r.fl

/-- What an arithmetic instruction is, besides its operation: whether it writes codes, and whether its operands are
64 bits wide in a vector (R23). -/
structure Form where
  cc    : Bool
  pair  : Bool
  deriving DecidableEq, Repr

/-- The allotment register of a vector destination. -/
def Team.dstReg (t : Team) (d : Reg) : Option Nat :=
  match d with
  | .v n => some (t.reg n.val)
  | _ => none

/-- An arithmetic instruction with a destination (R21, R81, R97): OPERAND checks, then per live lane after the check of
sh0, or once. `sca` and `vec` give the results from the state before the instruction. -/
def arith (fm : Form) (d : Reg) (xs : List Src) (sca : Env → Team → LaneRes) (vec : Env → Team → Nat → LaneRes)
    (e : Env) (t : Team) : Except Trap Team := do
  checkSrcs t xs
  needOperand (okDst t d)
  if fm.pair then
    needOperand (okPairDst t d && xs.all fun x => okPairSrc t x)
  if isVecDst d then
    checkSh0 t
    .ok (t.applyLanes (t.dstReg d) fm.pair fm.cc (vec e t))
  else
    needOperand (!(xs.any fun x => isVec t x))
    .ok (t.applyScalar (some d) fm.cc (sca e t))

/-- An instruction that writes only codes (CMP, CMPI, FCMP, DCMP): per live lane when a source is of vector class, once
when every source is of scalar class (R91, R94, R102, R109). -/
def compare (pair : Bool) (xs : List Src) (sca : Env → Team → LaneRes) (vec : Env → Team → Nat → LaneRes)
    (e : Env) (t : Team) : Except Trap Team := do
  checkSrcs t xs
  if pair then
    needOperand (xs.all fun x => okPairSrc t x)
  if xs.any fun x => isVec t x then
    checkSh0 t
    .ok (t.applyLanes none pair true (vec e t))
  else
    .ok (t.applyScalar none true (sca e t))

end Sys2Proof.Machine
end

