-- ==== Sys2Proof/Machine/Fetch.lean ====
section
/-!
DEFINITION. Where code words come from: memory through the fetch rules (R319, R396), the residual of the team's group (R283,
R287), or the loop buffer (R138); the places of branches and tokens (R31, R126); and the shape of a clause (R26, R27).
-/
namespace Sys2Proof.Machine

/-- The words of a residual (R283). -/
def State.residual (s : State) (k : Nat) : List W32 :=
  match alook k s.decants with
  | some d => d.words
  | none => []

/-- The address by which a place is known to a record or register: RPC for a residual (R287; log entry 9). -/
def State.addrOf (_s : State) (l : Loc) : W64 :=
  match l with
  | .code a => a
  | .resid k o => Config.residualBase k + BitVec.ofNat 64 o

/-- CODE of a group's task record (R256). -/
def State.codeOf (s : State) (gid : Nat) : W64 :=
  match alook gid s.groups with
  | some g => match alook g.launch s.launches with
    | some l => l.task.getD 0 0
    | none => 0
  | none => 0

/-- The original PC of a place of a group's team, through the back-map for a residual (R287). -/
def State.origPc (s : State) (gid : Nat) (l : Loc) : W64 :=
  match l with
  | .code a => a
  | .resid k o =>
    match alook k s.decants with
    | some d => s.codeOf gid + BitVec.ofNat 64 (4 * d.back.getD (o / 4) 0)
    | none => 0

/-- A place in a residual at which the team goes on in the original code, taken there: where control leaves the code section, of which the
residual holds no copy (log entry 30). -/
def State.exitOf (s : State) (gid : Nat) (l : Loc) : Loc :=
  match l with
  | .code a => .code a
  | .resid k o =>
    match alook k s.decants with
    | some d => if d.exits.contains (o / 4) then .code (s.origPc gid l) else l
    | none => l

/-- A team at such a place, outside a loop's body, stands in the original code. -/
def Team.outOf (t : Team) (s : State) : Team :=
  match t.loop with
  | none => { t with pc := s.exitOf t.gid t.pc }
  | some _ => t

/-- The breakpoint registers of a context (R299). -/
def State.breakpoints (s : State) (ctx : Nat) : List (Nat × W64) :=
  match alook ctx s.ctxs with
  | some c => c.brk
  | none => []

/-- The enabled breakpoint register that an original PC matches (R299). -/
def breakAt (brk : List (Nat × W64)) (pc : W64) : Option Nat :=
  (brk.find? fun b => bitAt b.2.toNat 63 && bits b.2.toNat 55 0 == pc.toNat % 2 ^ 56).map fun b => b.1

/-- FETCH of a word (R126, R319). A fault that the MEM firmware can repair goes to it first. -/
def fetchTrap (a : W64) (repair : Bool) : Trap := { cause := .fetch, addr := a, repair := repair }

/-- The word at a place, for an agent: none past the end of a residual. -/
def State.wordAt (s : State) (e : Env) (t : Team) (l : Loc) : Except Trap (Option W32) :=
  match s.exitOf t.gid l with
  | .code a =>
    match s.fetchWord e.ctx t.level a.toNat with
    | .ok w => .ok (some w)
    | .error r => .error (fetchTrap a r)
  | .resid k o => .ok ((s.residual k)[o / 4]?)

/-- How many words a place lies after another, where it does and by no more than a bound. -/
def Loc.wordsFrom (l base : Loc) (bound : Nat) : Option Nat :=
  (List.range bound).find? fun n => base.plus (4 * n) = l

/-- The word that an agent executes at a place: from the loop buffer inside the body (R138). -/
def State.codeWord (s : State) (e : Env) (t : Team) (l : Loc) : Except Trap (Option W32) :=
  match t.loop with
  | none => s.wordAt e t l
  | some q =>
    match l.wordsFrom q.start q.len with
    | some n => .ok q.buf[n]?
    | none => s.wordAt e t l

/-- n words from a place on; a word past the end of a residual ends the list. -/
def State.codeWords (s : State) (e : Env) (t : Team) (l : Loc) : Nat → Except Trap (List W32)
  | 0 => .ok []
  | n + 1 =>
    match s.codeWord e t l with
    | .error x => .error x
    | .ok none => .ok []
    | .ok (some w) =>
      match s.codeWords e t (l.plus 4) n with
      | .error x => .error x
      | .ok r => .ok (w :: r)

/-- The extension words of an instruction that issues: FETCH is raised at the PC of the word that could not be fetched (R26). -/
def State.extWords (s : State) (e : Env) (t : Team) (l : Loc) : Nat → Except Trap (List W32)
  | 0 => .ok []
  | n + 1 =>
    match s.codeWord e t l with
    | .error x => .error { x with pc := some l }
    | .ok none => .ok []
    | .ok (some w) =>
      match s.extWords e t (l.plus 4) n with
      | .error x => .error x
      | .ok r => .ok (w :: r)

/-- A word of class 0b11 is a header (R19, R31). -/
def isHeader (w : W32) : Bool := w.toNat / 2 ^ 30 == 3

/-- A transfer of control goes only to a clause header (R31, R126). -/
def needHeader (s : State) (e : Env) (t : Team) (l : Loc) : Except Trap Unit := do
  match ← s.codeWord e t l with
  | some w => need (isHeader w) (Trap.of .illegal)
  | none => .error (Trap.of .illegal)

/-! ## Instructions that a clause must treat apart (R26, R27) -/

/-- The long-latency instructions (R27). -/
def Instr.longLatency (i : Instr) : Bool :=
  match i with
  | .ld .. | .ldacq .. | .ldstr .. | .atom .. | .atom64 .. | .trd .. | .mma .. | .mdrain .. | .copy .. => true
  | _ => false

/-- What a clause is made of: long-latency instructions, whether a control transfer stands before the end, a word of class
0b11 in an instruction position, and whether the extension words fit (R26). -/
structure ClauseForm where
  long  : Nat
  early : Bool
  head  : Bool
  fits  : Bool
  deriving DecidableEq, Repr

/-- The op6 or op5 field and class of an instruction word say which operation it is, whatever its other fields hold. The
long-latency and control-transfer operations of R26 and R27 by their opcodes (R38, R39). -/
def wordLong (w : W32) : Bool :=
  w.toNat / 2 ^ 30 == 2 && [0x00, 0x02, 0x04, 0x06, 0x07, 0x0D, 0x10, 0x14, 0x15].contains (bits w.toNat 29 24)

/-- The control transfers and LOOP by their opcodes (R26, R38). -/
def wordEnds (w : W32) : Bool :=
  w.toNat / 2 ^ 30 == 1 && [0x0A, 0x0B, 0x0C, 0x0D, 0x0F, 0x10, 0x16, 0x1B].contains (bits w.toNat 29 25)

/-- JOINAT by its opcode. -/
def wordJoinat (w : W32) : Bool := w.toNat / 2 ^ 30 == 1 && bits w.toNat 29 25 == 0x0E

/-- The words of a clause after its header read instruction by instruction (R26). -/
def clauseForm : Nat → List W32 → ClauseForm
  | 0, _ => { long := 0, early := false, head := false, fits := true }
  | _, [] => { long := 0, early := false, head := false, fits := true }
  | fuel + 1, w :: r =>
    let n := wordSpan w
    let f := clauseForm fuel (r.drop (n - 1))
    { long := b2n (wordLong w) + f.long
      early := f.early || (wordEnds w && Nat.blt (n - 1) r.length)
      head := f.head || isHeader w
      fits := f.fits && Nat.ble (n - 1) r.length }

end Sys2Proof.Machine
end

