-- ==== Sys2Proof/Machine/Control.lean ====
section
/-!
DEFINITION. The clause header (R26 to R28), the control-flow, window and exit instructions and LOOP (R125 to R140), and the
renaming that LOOP applies to the words of its body.
-/
namespace Sys2Proof.Machine

/-- An instruction that moves its agent itself: the agent's next state is what `f` gives. -/
def runMove (s : State) (f : Env → Team → Except Trap Team) : Host.Outcome State Fault Refusal :=
  runState s fun e t =>
    match f e t with
    | .ok t' => .ok (s.setAgent s.cur t')
    | .error x => .error x

/-! ## The clause header (R26, R28) -/

/-- The count of a flag f0 to f11 (R28). -/
def Team.flag (t : Team) (f : Nat) : Nat := (sget t.flags f).toNat

/-- The header's own fields are allowed (R26): `hint` is ignored (R33). -/
def Header.ok (h : Header) : Bool :=
  h.rsv == 0 && !(Nat.ble 12 h.setA.toNat && Nat.blt h.setA.toNat 15) && !(Nat.ble 12 h.setB.toNat && Nat.blt h.setB.toNat 15)
    && h.bt != 3

/-- What a clause adds to a flag: one for setA, one for setB, as far as it has long-latency instructions (R27, R28). -/
def Header.adds (h : Header) (long f : Nat) : Nat :=
  b2n (Nat.ble 1 long && h.setA.toNat == f) + b2n (Nat.ble 2 long && h.setB.toNat == f)

/-- The condition of R28 for a clause to start. -/
def Team.clauseOpen (t : Team) (h : Header) (long : Nat) : Bool :=
  (List.range 12).all fun f => (!bitAt h.wait.toNat f || t.flag f == 0) && Nat.ble (t.flag f + Sys2Proof.Machine.Header.adds h long f) 7

/-- The checks of R26: the header's fields, the fetch of every word, then the form of the clause. The spec gives no order between them where a
clause meets several (DESIGN CHOICE, log entry 62). -/
def clauseForms (s : State) (h : Header) (e : Env) (t : Team) : Except Trap ClauseForm := do
  need (Sys2Proof.Machine.Header.ok h) (Trap.of .reservedField)
  let n := h.len.toNat + 1
  let ws ← s.codeWords e t (t.pc.plus 4) n
  need (ws.length == n) (Trap.of .illegal)
  let f := clauseForm n ws
  need (f.fits && !f.head && !f.early && Nat.ble f.long 2) (Trap.of .illegal)
  need (!(Nat.ble 1 f.long && h.setA == 15) && !(Nat.ble 2 f.long && h.setB == 15)) (Trap.of .illegal)
  .ok f

/-- The checks of R26; a trap of them has INFO 0, as R391 says, even in a loop body (DEDUCED against R295; log entry 49). -/
def clauseCheck (s : State) (h : Header) (e : Env) (t : Team) : Except Trap ClauseForm :=
  match clauseForms s h e t with
  | .ok f => .ok f
  | .error x => .error { x with info := some 0 }

/-- A clause started at the agent's PC. -/
def Team.startClause (t : Team) (h : Header) (brk : List (Nat × W64)) : Team :=
  let t1 := { t with clause := {
    hdr := some t.pc, fin := some (t.pc.plus (4 * (h.len.toNat + 2))), setA := h.setA.toNat, setB := h.setB.toNat, issued := 0
    inside := true, brk := brk } }
  { t1 with pc := t.pc.plus 4, bpSkip := false, replay := none, st := if t.st = .waiting then .ready else t.st, wait := .none }

/-- An error that has arrived, delivered (R327). -/
def ErrRec.deliver (x : ErrRec) : Trap :=
  { cause := x.cause, mask := some x.mask, addr := x.addr, oppc := x.oppc, err := true }

/-- UNCORRECTABLE at the header of a clause that waits on the flag of an operation that failed (R327). -/
def needNoErr (t : Team) (h : Header) : Except Trap Unit :=
  match t.errs.find? fun x => match x.flag with
    | some f => bitAt h.wait.toNat f
    | none => false with
  | some x => .error x.deliver
  | none => .ok ()

/-- The long-latency instructions of a clause; none where its checks fail, for then only its wait holds it back. -/
def formLong (r : Except Trap ClauseForm) : Nat :=
  match r with
  | .ok f => f.long
  | .error _ => 0

/-- CLAUSE_START (R26 to R28): the clause's wait, then its checks (R391). -/
def execClauseStart (h : Header) (s : State) : Host.Outcome State Fault Refusal :=
  runMove s fun e t => do
    let r := clauseCheck s h e t
    if t.clauseOpen h (formLong r) then
      let _ ← r
      needNoErr t h
      .ok (t.startClause h (s.breakpoints e.ctx))
    else .ok { t with st := .waiting, wait := .clause h (formLong r) }

/-! ## The stack (R123, R124, R132) -/

/-- A push; STACK at depth 32 (R124). -/
def Team.push (t : Team) (k : Token) : Except Trap Team := do
  need (Nat.blt t.stack.length 32) (Trap.of .stack)
  .ok { t with stack := k :: t.stack }

/-- The unwinding of R132: the place to go on at, or none when every lane has exited. -/
def unwind (exited : LaneMask) : List Token → Option (Token × List Token)
  | [] => none
  | k :: r => if k.mask &&& ~~~exited = 0 then unwind exited r else some (k, r)

/-- A team with every lane exited enters DRAINING (R132). -/
def Team.drain (t : Team) : Team := { t with st := .draining, wait := .none, stack := [], active := 0 }

/-- The team after an unwinding from a stack (R132); the token's PC must be a header (R126). A token's mask counts below TW only (R120). -/
def unwindTo (s : State) (e : Env) (t : Team) (stack : List Token) : Except Trap Team := do
  match unwind (t.exited ||| ~~~lowMask t.tw) stack with
  | some (k, r) =>
    needHeader s e t k.pc
    .ok { t.at k.pc with stack := r, active := k.mask &&& ~~~t.exited &&& lowMask t.tw }
  | none => .ok t.drain

/-- A token popped: its lanes that have not exited go on at its PC, or the stack unwinds (R129, R130). -/
def popTo (s : State) (e : Env) (t : Team) : Except Trap Team := unwindTo s e t t.stack

/-- The teams of a group that wait at a rendezvous whose gang names a team raise GANG (R203). -/
def State.gangGone (s : State) (gid tix : Nat) : State :=
  s.teams.foldl (fun (st : State) (e : Nat × Team) =>
    match e.2.wait with
    | .rendezvous _ => if e.2.gid = gid ∧ bitAt e.2.gang.toNat tix then st.stopTeam e.1 (Trap.of .gang) else st
    | _ => st) s

/-- What follows when a team has entered DRAINING: its gang's rendezvous end, and it retires if every flag is clear (R132). -/
def State.afterDrain (s : State) (a : Agent) : State :=
  match a with
  | .team tid =>
    match alook tid s.teams with
    | some t => if t.st = .draining then (s.gangGone t.gid t.tix).drainEnd tid else s
    | none => s
  | _ => s

/-- An instruction that unwinds the stack. -/
def runUnwind (s : State) (f : Env → Team → Except Trap Team) : Host.Outcome State Fault Refusal :=
  runState s fun e t =>
    match f e t with
    | .ok t' => .ok ((s.setAgent s.cur t').afterDrain s.cur)
    | .error x => .error x

/-! ## Branches (R125 to R131) -/

/-- The place from which branch offsets count: the header of the instruction's own clause (R31). A written PC with no
governing header has none (R398); the base is then a free value (log entry 10). -/
def Team.branchBase (e : Env) (t : Team) : Loc :=
  match t.clause.hdr with
  | some l => l
  | none => .code (Config.value e.free 0)

/-- The target of a branch. -/
def Team.target (e : Env) (t : Team) (off : BitVec 11) : Loc := (t.branchBase e).move (4 * off.toInt)

/-- The live lanes whose nibble satisfies a condition (R127). -/
def Team.taken (t : Team) (c : Cond) : LaneMask := maskOf (t.liveLanes.filter fun l => condTest c (sget t.cc l))

/-- BRC (R127). A bad target is found before a full stack (DESIGN CHOICE, log entry 52). -/
def execBrc (c : Cond) (off : BitVec 11) (s : State) : Host.Outcome State Fault Refusal :=
  runMove s fun e t => do
    checkSh0 t
    let taken := t.taken c
    let rest := t.live &&& ~~~taken
    let target := t.target e off
    if taken = 0 then .ok (t.advance 1)
    else if rest = 0 then
      needHeader s e t target
      .ok (t.at target)
    else
      needHeader s e t target
      let t1 ← t.push { kind := .path, pc := t.pc.plus 4, mask := rest }
      .ok { t1.at target with active := t.active &&& ~~~rest }

/-- JMP (R128). -/
def execJmp (off : BitVec 11) (s : State) : Host.Outcome State Fault Refusal :=
  runMove s fun e t => do
    needHeader s e t (t.target e off)
    .ok (t.at (t.target e off))

/-- A scalar operand that must be s0 to s23, `z` or a literal (R128, R138). -/
def plainScalar (x : Src) : Bool :=
  match x with
  | .reg (.s _) | .reg .z | .lit _ => true
  | _ => false

/-- JMPR (R128). -/
def execJmpr (a : Src) (off : BitVec 11) (s : State) : Host.Outcome State Fault Refusal :=
  runMove s fun e t => do
    needOperand (plainScalar a)
    let target := srcScalar e t a + BitVec.ofInt 64 (4 * off.toInt)
    need (target.toNat % 4 == 0) { cause := .align, addr := target }
    needHeader s e t (.code target)
    .ok (t.at (.code target))

/-- CALL (R130). A bad target is found before a full stack (DESIGN CHOICE, log entry 52). -/
def execCall (off : BitVec 11) (s : State) : Host.Outcome State Fault Refusal :=
  runMove s fun e t => do
    needHeader s e t (t.target e off)
    let t1 ← t.push { kind := .ret, pc := t.pc.plus 4, mask := t.active }
    .ok (t1.at (t.target e off))

/-- RET (R130). -/
def execRet (s : State) : Host.Outcome State Fault Refusal :=
  runUnwind s fun e t => do
    need (match t.stack with
      | k :: _ => k.kind == .ret
      | [] => false) (Trap.of .stack)
    popTo s e t

/-- JOINAT (R129). -/
def execJoinat (off : BitVec 11) (s : State) : Host.Outcome State Fault Refusal :=
  runAgent s 1 fun e t => t.push { kind := .join, pc := t.target e off, mask := t.active }

/-- JOIN (R129; the last row of R383 tells another end, log entry 74). -/
def execJoin (s : State) : Host.Outcome State Fault Refusal :=
  runUnwind s fun e t => do
    need (match t.stack with
      | k :: _ => k.kind == .path || k.kind == .join
      | [] => false) (Trap.of .stack)
    popTo s e t

/-- NOP (R133). -/
def execNop (s : State) : Host.Outcome State Fault Refusal := runAgent s 1 fun _ t => .ok t

/-- A window base is valid (R22). -/
def windowOk (allot k : Nat) : Bool := Nat.ble (32 * k + min 96 allot) allot

/-- WINBASE (R134). -/
def execWinbase (k : BitVec 11) (s : State) : Host.Outcome State Fault Refusal :=
  runAgent s 1 fun _ t => do
    need (windowOk t.allot k.toNat) (Trap.of .window)
    .ok { t with winBase := k.toNat }

/-! ## LOOP (R136 to R140) -/

/-- The register fields d, a and b of a word, whether sources or destinations. -/
def regFields (x : W32) : Bool × Bool × Bool :=
  let w := x.toNat
  match bits w 31 30 with
  | 0 =>
    let op := bits w 29 24
    let f := sourcesA op (bits w 23 21)
    (!([0x19, 0x1F, 0x26, 0x2F, 0x36, 0x37, 0x3E, 0x3F].contains op) && !(op == 0x3D && bits w 23 21 == 1), f.2.1, f.2.2)
  | 1 =>
    let op := bits w 29 25
    let f := sourcesB op
    ([0, 1, 2, 3, 4, 5, 6, 8, 9, 0x12, 0x18, 0x19, 0x1A].contains op, f.2.1, false)
  | 2 =>
    let op := bits w 29 24
    let f := sourcesC op (bits w 23 21)
    (Nat.blt op 0x30 && !([0x08, 0x09, 0x0A, 0x0C, 0x10, 0x13, 0x16, 0x19, 0x1E, 0x23, 0x29, 0x2F].contains op), f.2.1, f.2.2)
  | _ => (false, false, false)

/-- Where a field of a selector stands: its lowest bit (R17, R18). -/
def fieldAt (x : W32) (sel : Nat) : Nat :=
  if bits x.toNat 31 30 = 1 then (if sel = 0 then 18 else 11)
  else if sel = 0 then 14 else if sel = 1 then 7 else 0

/-- The code in a field. -/
def fieldCode (x : W32) (sel : Nat) : Nat := x.toNat / 2 ^ fieldAt x sel % 128

/-- A step entry is one the body admits (R138): its index, and its field. -/
def entryOk (places : List Nat) (body : List W32) (n : Nat × Nat × Int) : Bool :=
  match places[n.1]? with
  | none => false
  | some k =>
    let w := body.getD k 0
    let f := regFields w
    match n.2.1 with
    | 0 => f.1 && Nat.blt (fieldCode w 0) 120
    | 1 => f.2.1 && Nat.blt (fieldCode w 1) 120
    | 2 => f.2.2 && Nat.blt (fieldCode w 2) 120
    | _ => f.2.1 && Nat.ble 96 (fieldCode w 1) && Nat.blt (fieldCode w 1) 120

/-- The body is a sequence of whole clauses (R138): a header, its words, and again, up to the end exactly. -/
def bodyClauses : Nat → List W32 → Bool
  | 0, _ => false
  | _, [] => true
  | fuel + 1, w :: r =>
    isHeader w && Nat.ble (bits w.toNat 9 6 + 1) r.length && bodyClauses fuel (r.drop (bits w.toNat 9 6 + 1))

/-- The checks of a loaded body (R138). -/
def bodyOk (len : Nat) (stepw : W32) (body : List W32) : Bool :=
  let places := bodyPlaces len 0 body
  body.length == len && bodyClauses len body &&
    (places.all fun k => !wordEnds (body.getD k 0) && !wordJoinat (body.getD k 0)) &&
    (stepEntries stepw).all fun n => entryOk places body n

/-- LOOP (R136 to R139): the body is loaded and checked, and the first pass begins, or none runs. Of its traps ILLEGAL comes before OPERAND,
and both before FETCH (R34); a body that cannot be fetched whole is not looked into (DESIGN CHOICE, log entry 50). -/
def execLoop (a : Src) (len : BitVec 7) (stepw : W32) (s : State) : Host.Outcome State Fault Refusal :=
  runMove s fun e t => do
    let start := t.pc.plus (4 * (2 + a.words))
    need (len != 0) (Trap.of .illegal)
    match s.codeWords e t start len.toNat with
    | .error x =>
      needOperand (plainScalar a)
      .error x
    | .ok body =>
      need (bodyOk len.toNat stepw body) (Trap.of .illegal)
      needOperand (plainScalar a)
      let c := (srcScalar e t a).toNat % 2 ^ 32
      if c = 0 then .ok { t.at (start.plus (4 * len.toNat)) with loop := none }
      else .ok { t.at start with loop := some { start := start, len := len.toNat, stepw := stepw, c := c, p := 0, buf := body } }

/-- A word of the body as a pass runs it (R139): in each renamed field, code + p × INC; and whether every code stays in its class. One that
leaves it is left as it stands. Two entries that rename one field add their increments, the class looked at after each (DESIGN CHOICE, log
entry 51). -/
def LoopSt.renamed (q : LoopSt) (k : Nat) (w : W32) : W32 × Bool :=
  let places := bodyPlaces q.len 0 q.buf
  (stepEntries q.stepw).foldl (fun (acc : W32 × Bool) n =>
    if places[n.1]? = some k ∧ n.2.1 ≠ 3 then
      let x := acc.1
      let old := fieldCode x n.2.1
      let new : Int := (old : Int) + (q.p : Int) * n.2.2
      let inClass := if old < 96 then decide (0 ≤ new) && decide (new < 96) else decide (96 ≤ new) && decide (new < 120)
      if inClass then (BitVec.ofNat 32 (x.toNat - old * 2 ^ fieldAt x n.2.1 + new.toNat * 2 ^ fieldAt x n.2.1), acc.2) else (x, false)
    else acc) (w, true)

/-- A word of the body as a pass runs it; none where a code leaves its class. -/
def LoopSt.rename (q : LoopSt) (k : Nat) (w : W32) : Option W32 :=
  let r := q.renamed k w
  if r.2 then some r.1 else none

end Sys2Proof.Machine
end

