-- ==== Sys2Proof/Machine/Issue.lean ====
section
/-!
DEFINITION. The issue of an agent's next word: the breakpoint check (R299), the fetch (R31, R126), the renaming of LOOP
(R139), the decoder's traps (R33, R34), the long-latency checks of R398, what the issue costs (R62), and the round-robin
by which the next ready agent of the core follows (R62, R293).
-/
namespace Sys2Proof.Machine

/-! ## Cost (R62, R71, R365) -/

/-- An instruction that is executed per lane: its vector destination or its vector sources make it so (R21, R62, R267). -/
def perLane (t : Team) (i : Instr) : Bool :=
  match i with
  | .add _ d _ _ | .sub _ d _ _ | .addc _ d _ _ | .subb _ d _ _ | .mul _ d _ _ | .mulh _ d _ _ | .mad _ d _ _ | .div _ d _ _
  | .rem _ d _ _ | .min _ d _ _ | .max _ d _ _ | .absd _ d _ _ | .and _ d _ _ | .or _ d _ _ | .xor _ d _ _ | .andn _ d _ _
  | .shl _ d _ _ | .shr _ d _ _ | .sar _ d _ _ | .rot _ d _ _ | .bfe _ d _ _ | .bfi _ d _ _ | .popc _ d _ | .clz _ d _
  | .brev _ d _ | .sel _ d _ _ | .mov _ d _ | .ext _ d _ _ | .adds _ d _ _ | .subs _ d _ _ => isVecDst d
  | .fadd _ d _ _ | .fsub _ d _ _ | .fmul _ d _ _ | .ffma _ d _ _ | .fmin _ d _ _ | .fmax _ d _ _ | .fdiv _ d _ _
  | .fsqrt _ d _ | .fsfu _ d _ | .fclass _ d _ | .cvt _ _ d _ | .dadd _ d _ _ | .dmul _ d _ _ | .dfma _ d _ _
  | .quant _ d _ _ | .deq _ d _ _ | .pack d _ | .unpk d _ => isVecDst d
  | .addi d _ _ | .andi d _ _ | .ori d _ _ | .xori d _ _ | .shli d _ _ | .shri d _ _ | .sari d _ _ | .movi d _
  | .movhi d _ _ => isVecDst d
  | .cmp _ a b | .fcmp _ a b | .dcmp a b => isVec t a || isVec t b
  | .cmpi a _ => isVec t a
  | .idot4 .. | .fdot2 .. | .shfl .. | .vote .. | .rdfirst .. | .ccmovRd .. | .ccmovWr .. | .brc .. => true
  | .ld _ d a b | .ldstr _ d a b => isVecDst d || isVec t a || isVec t b
  | .st _ x a b | .ststr _ x a b => isVec t x || isVec t a || isVec t b
  | .ldacq _ d a _ => isVecDst d || isVec t a
  | .strel _ x a _ => isVec t x || isVec t a
  | .atom _ d a _ | .atom64 _ d a _ => isVecDst d || isVec t a
  | .pref _ a b => isVec t a || isVec t b
  | .trd _ _ d a b => isVecDst d || isVec t a || isVec t b
  | .twr _ _ x a b => isVec t x || isVec t a || isVec t b
  | .pick _ _ a _ => isVec t a
  | _ => false

/-- What a pass of an instruction costs in issue cycles (R62). -/
def passCycles (i : Instr) : Nat :=
  match i with
  | .fdiv .. | .fsqrt .. | .fsfu .. => 4
  | .dadd .. | .dmul .. | .dfma .. | .dcmp .. => 8
  | _ => 1

/-- The passes of an instruction: ⌈n/pw⌉ for n live lanes (R121). -/
def passes (e : Env) (t : Team) (i : Instr) : Nat :=
  if perLane t i then (maskCount t.live + e.pw - 1) / e.pw else 0

/-- The issue cycles of an instruction that does not trap (R62): a header costs none. -/
def issueCost (e : Env) (t : Team) (i : Instr) : Nat :=
  match i with
  | .clauseStart _ => 0
  | .brc c _ =>
    let taken := t.taken c
    max 1 (passes e t i) + (if taken != 0 && taken != t.live then 2 else 0)
  | _ => max 1 (passCycles i * passes e t i)

/-! ## Who may issue (R62, R115, R293) -/

/-- No team and no control thread of a core issues: a ramp, a decided move or a swap, or one that is due (R66, R307, R386). -/
def CoreSt.held (x : CoreSt) : Bool := x.move.isSome || x.swap.isSome || x.ckpt.isSome || x.swapDue.isSome

/-- An agent is able to issue: READY, in the active bank of a core that is not held. -/
def State.canIssue (s : State) (a : Agent) : Bool :=
  match s.agent a with
  | none => false
  | some t =>
    t.st == .ready && !(s.core (s.agentCore a)).held &&
      (match a with
       | .none | .host _ | .peer _ _ => false
       | .ctl c x => (s.core c).active.ctx == some x && (s.core c).active.handling.isSome
       | .team _ => match alook t.gid s.groups with
         | some g => g.place == .bank (s.agentCore a) (s.core (s.agentCore a)).act
         | none => false)

/-- The agents of a core's active bank by slot, the control thread after slot 15 (R293). -/
def State.slots (s : State) (core : Nat) : List (Nat × Agent) :=
  let x := s.core core
  let ts := (afilter (fun _ t => match alook t.gid s.groups with
    | some g => g.place == .bank core x.act
    | none => false) s.teams).map fun e => (e.2.slot, Agent.team e.1)
  match x.active.ctx with
  | some c => ts ++ [(16, Agent.ctl core c)]
  | none => ts

/-- The agent of least slot from a slot on that is able to issue. -/
def State.nextFrom (s : State) (core lo : Nat) : Option Agent :=
  ((List.range 17).filter fun k => Nat.ble lo k).findSome? fun k =>
    ((s.slots core).find? fun e => e.1 == k && s.canIssue e.2).map fun e => e.2

/-- The round-robin of R62: the next ready agent of the core after a slot, or the same again. -/
def State.rotate (s : State) (core slot : Nat) : State :=
  match s.nextFrom core (slot + 1) with
  | some a => { s with cur := a }
  | none =>
    match s.nextFrom core 0 with
    | some a => { s with cur := a }
    | none => s

/-! ## The word to issue -/

/-- The trap of a decoder's error (R33). -/
def DecErr.trap (d : DecErr) : Trap :=
  match d with
  | .reserved => Trap.of .reservedField
  | .illegal | .short => Trap.of .illegal

/-- The breakpoint registers that stand for a word: those of its clause's start, or the present ones at a header or in
a clause that a written PC entered (R299). -/
def State.brkFor (s : State) (e : Env) (t : Team) (header : Bool) : List (Nat × W64) :=
  if header || t.clause.hdr.isNone then s.breakpoints e.ctx else t.clause.brk

/-- The flag that the next long-latency instruction of the clause counts on (R27, R398). -/
def Team.nextFlag (t : Team) : Nat := if t.clause.issued = 0 then t.clause.setA else t.clause.setB

/-- A long-latency instruction is the third or later of its clause, or its flag is 15: ILLEGAL (R398). -/
def longIllegal (t : Team) (w : W32) : Bool := wordLong w && !(Nat.blt t.clause.issued 2 && t.nextFlag != 15)

/-- The checks of R398 for a long-latency instruction. -/
def longCheck (t : Team) (w : W32) : Except Trap Unit := do
  need (!longIllegal t w) (Trap.of .illegal)
  need (!(wordLong w && Nat.ble 12 t.nextFlag)) (Trap.of .reservedField)

/-- A LOOP word has a condition of R138 that raises ILLEGAL: no body, or one, fetched whole, that the LOOP does not admit. -/
def loopIllegal (s : State) (e : Env) (t : Team) (w : W32) (ext : List W32) : Bool :=
  w.toNat / 2 ^ 30 == 1 && bits w.toNat 29 25 == 0x10 &&
    (let len := w.toNat % 128
     len == 0 || (match s.codeWords e t (t.pc.plus (4 * wordSpan w)) len with
       | .ok body => !bodyOk len (ext.headD 0) body
       | .error _ => false))

/-- A word decoded, or its trap: ILLEGAL before RESERVED-FIELD, also where R398 or R138 raises it (R34). -/
def decodeAt (s : State) (e : Env) (t : Team) (w : W32) (ext : List W32) : Except Trap Instr :=
  match decode (w :: ext) with
  | .ok i => .ok i
  | .error d =>
    if d = .reserved ∧ (longIllegal t w || loopIllegal s e t w ext) = true then .error (Trap.of .illegal)
    else .error (Sys2Proof.Machine.DecErr.trap d)

/-- The number of a system register that an instruction names (R300); none where its operand is of no scalar class. -/
def sysNumber (e : Env) (t : Team) (n : SysNum) : Option Nat :=
  match n with
  | .imm k => some k.toNat
  | .ind a => match checkScalars t [a] with
    | .ok _ => some ((srcScalar e t a).toNat % 2 ^ 14)
    | .error _ => none

/-- The level that an instruction requires, as its own meaning checks it (R34, R301, R304, R321, R329, R366), and whether only a control thread
executes it. -/
def needLevel (e : Env) (t : Team) (i : Instr) : Level × Bool :=
  match i with
  | .tlbinv .. | .deadrg .. | .evsel true .. | .evrd true .. => (.system, false)
  | .ckpt .. | .dbgrd .. | .dbgwr .. | .tresume .. => (.handler, true)
  | .rdsr _ n | .wrsr _ n => (if (sysNumber e t n).any fun k => Nat.ble 0x100 k then .handler else .program, false)
  | _ => (.program, false)

/-- The level of an instruction checked before its operands (R34). -/
def checkNeed (e : Env) (t : Team) (i : Instr) : Except Trap Unit := do
  let l := needLevel e t i
  checkLevel t l.1
  need (!l.2 || t.ctl) (Trap.of .priv)

/-- The instruction that an agent issues next, from its PC, or the trap it takes there. A rename that leaves its class is OPERAND, after the
instruction's own PRIV (R34, R139). -/
def issueWord (s : State) (e : Env) (t : Team) : Except Trap Instr := do
  match ← s.codeWord e t t.pc with
  | none => .error (Trap.of .illegal)
  | some w =>
    need (t.clause.inside || isHeader w) (Trap.of .illegal)
    match (if t.bpSkip then none else breakAt (s.brkFor e t (isHeader w)) (s.origPc t.gid t.pc)) with
    | some k => .error { cause := .brk, info := some k, skip := true }
    | none =>
      let ext ← s.extWords e t (t.pc.plus 4) (wordSpan w - 1)
      let i0 ← decodeAt s e t w ext
      longCheck t w
      match t.loop with
      | none => .ok i0
      | some q =>
        match t.pc.wordsFrom q.start q.len with
        | none => .ok i0
        | some k =>
          let r := if isHeader w then (w, true) else q.renamed k w
          let i ← decodeAt s e t r.1 ext
          if r.2 then .ok i
          else
            checkNeed e t i
            .error (Trap.of .operand)

/-- A long-latency instruction waits until its flag has room (R28; log entry 22). -/
def Team.flagFull (t : Team) (i : Instr) : Bool :=
  Sys2Proof.Machine.Instr.longLatency i && t.flag t.nextFlag == 7

end Sys2Proof.Machine
end

