-- ==== Sys2Proof/Machine/Pending.lean ====
section
/-!
DEFINITION. Memory operations between their issue and their completion (R27, R180, R188, R189, R237 to R251, R325 to R327,
R338): the check of each lane's address, the order in which lanes may be performed, what a home does with a lane, and how
results and errors reach the team.
-/
namespace Sys2Proof.Machine

/-! ## Widths (R40) -/

/-- The bytes of a width. -/
def Width.bytes (w : Width) : Nat :=
  match w with
  | .n8 | .i8 => 1
  | .n16 | .i16 => 2
  | .b32 => 4
  | .b64 => 8

/-- A loaded value extended to 64 bits: a vector lane takes the low 32. -/
def Width.extend (w : Width) (x : Nat) : W64 :=
  match w with
  | .i8 => BitVec.ofInt 64 (sInt 8 (x % 2 ^ 8))
  | .i16 => BitVec.ofInt 64 (sInt 16 (x % 2 ^ 16))
  | _ => BitVec.ofNat 64 x

/-! ## Tiles by handle (R164, R166) -/

/-- The ALLOCATED tile that a handle names for a group or, at level 2, for its launch on the die. -/
def State.tileOf (s : State) (gid launch die h : Nat) : Option (Nat × Tile) :=
  afind (fun _ t => !t.releasing && t.handle == h && (t.gid == some gid || (t.gid == none && t.launch == launch && t.die == die)))
    s.tiles

/-- The size of a tile in bytes (R165). -/
def Tile.size (t : Tile) : Nat := t.rows * t.rb

/-! ## The check of addresses (R179, R180, R189, R338) -/

/-- Why a lane's address cannot be accessed, in the order of R180; `dead` is the UNCORRECTABLE of R338. -/
inductive AddrErr where
  | align | protect | dead | tile | page
  deriving DecidableEq, Repr

/-- What an access is. -/
structure AccKind where
  write  : Bool
  atomic : Bool
  n      : Nat
  deriving DecidableEq, Repr

/-- The target of one lane's address, or why there is none. -/
def State.laneTarget (s : State) (e : Env) (t : Team) (k : AccKind) (a : W64) : Except AddrErr Target :=
  if a.toNat % k.n ≠ 0 then .error .align
  else
    match a.toNat / 2 ^ 56 with
    | 0 =>
      match s.access { ctx := e.ctx, level := t.level, write := k.write } a.toNat with
      | .ok g => .ok g
      | .error .protect => .error .protect
      | .error .page => .error .page
      | .error .dead => .error .dead
    | 255 =>
      if k.atomic then
        match s.tileOf e.gid e.launch e.die (bits a.toNat 55 48) with
        | some (tk, x) =>
          if bits a.toNat 47 32 = 0 ∧ x.level ≠ 1 ∧ bits a.toNat 31 0 + k.n ≤ x.size then .ok (.tile tk (bits a.toNat 31 0))
          else .error .tile
        | none => .error .tile
      else .error .tile
    | _ => .error .protect

/-- The cause of an address error (R35). -/
def AddrErr.cause (x : AddrErr) : Cause :=
  match x with
  | .align => .align
  | .protect => .protect
  | .dead => .uncorrectable
  | .tile => .tile
  | .page => .page

/-- A lane, its address, and its target or error. -/
structure LaneTgt where
  lane : Nat
  va   : W64
  r    : Except AddrErr Target

/-- A lane met an error. -/
def LaneTgt.meets (l : LaneTgt) (x : AddrErr) : Bool :=
  match l.r with
  | .error y => y == x
  | .ok _ => false

/-- The first cause that any lane meets (R180). -/
def firstErr (ls : List LaneTgt) : Option AddrErr :=
  [AddrErr.align, .protect, .dead, .tile, .page].find? fun x => ls.any fun l => l.meets x

/-- The trap of an address error: the lanes that meet it, for an instruction that executes per lane, and the address of
the lowest (R180, R295). -/
def addrTrap (ls : List LaneTgt) (x : AddrErr) (perLane : Bool) : Trap :=
  let bad := ls.filter fun l => l.meets x
  { cause := x.cause
    mask := if perLane then some (maskOf (bad.map fun l => l.lane)) else none
    addr := if x = .tile then 0 else match bad with
      | l :: _ => l.va
      | [] => 0
    repair := x == .page }

/-- The lanes that have a target, as accesses. -/
def okLanes (n : Nat) (ls : List LaneTgt) (x y : Nat → W64) : List LaneAcc :=
  ls.filterMap fun l =>
    match l.r with
    | .ok g => some { lane := l.lane, va := l.va, tgt := g, n := n, x := x l.lane, y := y l.lane, st := .sent, res := 0, via := none, put := false }
    | .error _ => none

/-! ## Order (R237 to R248) -/

/-- A lane is still to be performed. -/
def LaneAcc.isOpen (l : LaneAcc) : Bool := !l.st.over

/-- An operation has a lane still to be performed. -/
def PendOp.isOpen (o : PendOp) : Bool := o.lanes.any fun l => l.isOpen

/-- An operation is still to be performed. -/
def State.opOpen (s : State) (k : Nat) : Bool :=
  match alook k s.pend with
  | some o => o.isOpen
  | none => false

/-- A strong access (R239, R243). -/
def PendOp.strong (o : PendOp) : Bool := o.acq || o.rel

/-- Two accesses share a byte. -/
def overlap (t u : Target) (n m : Nat) : Bool :=
  t.key.1 == u.key.1 && Nat.blt t.key.2 (u.key.2 + m) && Nat.blt u.key.2 (t.key.2 + n)

/-- Two accesses lie in one aligned 64 bytes (R248). -/
def sameLine (t u : Target) : Bool := t.key.1 == u.key.1 && t.key.2 / 64 == u.key.2 / 64

/-- The home of a target: a channel or memory port, or, for what lies outside the part, a number of its own. -/
def State.homeOf (s : State) (t : Target) : Nat :=
  match t with
  | .dev pa => s.home pa
  | .host _ => 272
  | .reg _ => 273
  | .tile _ _ => 274
  | .peer _ k => 275 + k / 2 ^ 52

/-- What must be performed before an operation that an agent issues now: what happens before it by an earlier acquire
(R241); for a release also every earlier access of the agent (R240); for a strong access every earlier strong access
(R243). -/
def State.before (s : State) (a : Agent) (t : Team) (acq rel : Bool) : List Nat :=
  t.hb ++ (if rel then t.own else if acq then s.pendingOf fun o => o.ag == a && o.strong else [])

/-- The accesses that a tile access must wait for, since it is performed at its issue (R244): an open acquire of its party, and, for a
release, every access of it that is still open (R240, R241). -/
def State.stillOpen (s : State) (a : Agent) (t : Team) (rel : Bool) : List Nat :=
  (t.hb.filter fun k => s.opOpen k) ++ (if rel then s.pendingOf fun o => o.ag == a else [])

/-- The party of an operation, where it stood when the operation issued, as the maker of a release or of an acquire (R239). -/
def PendOp.party (o : PendOp) (mask : BitVec 7) (set : List Nat) : Release :=
  { mask := mask, who := o.ag, gid := o.gid, die := dieOf o.core, core := o.core, set := set }

/-- The party of an agent, where it stands now. -/
def State.party (s : State) (a : Agent) (mask : BitVec 7) (set : List Nat) : Release :=
  let core := s.agentCore a
  let gid := match s.agent a with
    | some t => t.gid
    | none => 0
  { mask := mask, who := a, gid := gid, die := dieOf core, core := core, set := set }

/-- A party's mask covers another party (R239). A peer's bit P names the parties of this package; a host's request names every party. -/
def Release.covers (x y : Release) : Bool :=
  match x.who, y.who with
  | .host _, _ => true
  | .peer p _, .peer q _ => p == q || x.mask.getLsbD 5
  | .peer _ _, .host _ => x.mask.getLsbD 6
  | .peer _ _, _ => x.mask.getLsbD 5
  | _, .host _ => x.mask.getLsbD 6
  | _, .peer _ _ => x.mask.getLsbD 5
  | .team _, .team _ => x.mask.getLsbD 2 || (x.mask.getLsbD 1 && x.die == y.die) || (x.mask.getLsbD 0 && x.gid == y.gid)
  | .team _, .ctl _ _ => x.mask.getLsbD 2 || (x.mask.getLsbD 1 && x.die == y.die) || (x.mask.getLsbD 0 && x.core == y.core)
  | .ctl _ _, .team _ => x.mask.getLsbD 2 || (x.mask.getLsbD 1 && x.die == y.die)
  | .ctl _ _, .ctl _ _ => x.mask.getLsbD 2 || (x.mask.getLsbD 1 && x.die == y.die) || (x.mask.getLsbD 0 && x.core == y.core)
  | _, _ => false

/-- Two masks are inclusive for each other's party (R240, R243). -/
def Release.mutual (x y : Release) : Bool := x.covers y && y.covers x

/-- What an acquire takes from the releases that its read has met (R240). -/
def acquired (me : Release) (rels : List Release) : List Nat := (rels.filter fun r => r.mutual me).flatMap fun r => r.set

/-- What happens before an engine operation that a team posts: its accesses before each FENCE whose mask has the engine's bit, with what
happens before them (R246): bit 3 for copies, Picker and scan commands, bit 4 for matrix operations. -/
def Team.fenced (t : Team) (bit : Nat) : List Nat := (t.fences.filter fun f => f.1.getLsbD bit).flatMap fun f => f.2

/-- What happens before an operation entered: what is ordered before an engine operation when it begins, or what an acquire has taken. -/
def State.addOrder (s : State) (id : Nat) (set : List Nat) : State :=
  { s with order := aset id ((alook id s.order).getD [] ++ set) s.order }

/-- New requests to the retired units of a channel that is DRAINING are NACKed (R330). -/
def State.drainingAt (s : State) (t : Target) : Bool :=
  match s.retire, t with
  | .draining c, .dev pa => Nat.blt pa ((s.t1size - 4) * 2 ^ 30) && s.home pa == c
  | _, _ => false

/-- An atomic or an add-on-store. -/
def PendKind.updates (k : PendKind) : Bool :=
  match k with
  | .atomic _ _ | .addOn _ => true
  | .load _ | .store | .trd _ | .drain => false

/-- An add-on-store. -/
def PendKind.addsOn (k : PendKind) : Bool :=
  match k with
  | .addOn _ => true
  | .load _ | .store | .atomic _ _ | .trd _ | .drain => false

/-- A lane waits in a home fault queue. -/
def LaneSt.isParked (x : LaneSt) : Bool :=
  match x with
  | .parked _ => true
  | .sent | .nacked | .held | .done | .failed | .refused => false

/-- A home has accepted an element of an add-on-store. -/
def PendOp.started (o : PendOp) : Bool := o.lanes.any fun l => l.st == .done || l.st.isParked

/-- An add-on-store that homes have accepted in some elements and that is still open in others: no other update of its bytes comes between
(R214). -/
def PendOp.half (o : PendOp) : Bool := o.kind.addsOn && o.isOpen && o.started

/-- What the matrix engine of a core sends, and not the core itself (R268). -/
def PendKind.ofEngine (k : PendKind) : Bool :=
  match k with
  | .addOn _ | .drain => true
  | .load _ | .store | .atomic _ _ | .trd _ => false

/-- Two operations have one sender: a core, or its matrix engine. What the host and the peers send has none here (log entry 63). -/
def PendOp.sameSender (o p : PendOp) : Bool := Nat.blt o.core Config.nCores && o.core == p.core && o.kind.ofEngine == p.kind.ofEngine

/-- A request of an operation's sender to a home that has been sent and is not yet accepted (R268). -/
def State.waitsAt (s : State) (o : PendOp) (home : Nat) (p : PendOp) (m : LaneAcc) : Bool :=
  o.sameSender p && (m.st == .sent || m.st == .nacked) && s.homeOf m.tgt == home

/-- How many requests of its sender to its home stand before a lane of an operation, sent and not yet accepted (R268). -/
def State.sentBefore (s : State) (id : Nat) (o : PendOp) (l : LaneAcc) : Nat :=
  s.pend.foldl (fun n e => n + (e.2.lanes.filter fun m => s.waitsAt o (s.homeOf l.tgt) e.2 m &&
    (Nat.blt e.1 id || (e.1 == id && Nat.blt m.lane l.lane))).length) 0

/-- A request is parked on the 64 bytes of a target (R248). -/
def State.parkedOn (s : State) (t : Target) : Bool :=
  aany (fun _ p => p.lanes.any fun m => m.st.isParked && sameLine m.tgt t) s.pend

/-- An access of a target that is no lane of an operation must wait: behind a request parked on its 64 bytes (R248), while its channel is
DRAINING (R330), or for the port that carries it (R336, R338, R340). A FAILED port gives its error elsewhere. -/
def State.blocked (s : State) (t : Target) : Bool :=
  s.parkedOn t || s.drainingAt t || (match s.carrier t with
    | .active => (match s.portOf t with
      | some p => !(s.port p).room || s.setChanged t
      | none => false)
    | .failed => false
    | .down | .training | .retrain => true)

/-- A walk of the tables must wait for what it reads; an address whose translation is cached takes none. -/
def State.walkBlocked (s : State) (ctx va : Nat) : Bool :=
  (s.cached ctx va).isNone && (s.walkReads ctx va).any fun pa => s.blocked (.dev pa)

/-- An earlier access of an operation's agent to one of a lane's bytes is still open (R237). -/
def State.behindOwn (s : State) (id : Nat) (o : PendOp) (l : LaneAcc) : Bool :=
  aany (fun k p => k < id && p.ag == o.ag && o.ag != .none && p.lanes.any fun m => m.isOpen && overlap m.tgt l.tgt m.n l.n) s.pend

/-- Another add-on-store is half performed on one of a lane's bytes (R214). -/
def State.behindHalf (s : State) (id : Nat) (l : LaneAcc) : Bool :=
  aany (fun k p => k != id && p.half && p.lanes.any fun m => overlap m.tgt l.tgt m.n l.n) s.pend

/-- A request of an earlier lane of the sender to the same home was NACKed, and everything after it waits for the resend (R268). -/
def State.behindNack (s : State) (id : Nat) (o : PendOp) (l : LaneAcc) : Bool :=
  aany (fun k p => o.sameSender p && p.lanes.any fun m => m.st == .nacked && s.homeOf m.tgt == s.homeOf l.tgt &&
    (Nat.blt k id || (k == id && Nat.blt m.lane l.lane))) s.pend

/-- The home would take a lane of an operation: what it is ordered after is performed, no earlier access of the same agent to one of its
bytes and no lower lane of the same store is still open (R183, R237), fewer than 32 requests of its sender to the home stand before it
unaccepted and none of those was NACKed (R268), no other request is parked on its 64 bytes (R248), and no add-on-store is half performed on
bytes that it updates (R214). An add-on-store begins only when all its elements may be performed. -/
def State.mayReach (s : State) (id : Nat) (o : PendOp) (l : LaneAcc) : Bool :=
  (o.after.all fun k => !s.opOpen k) && !s.behindOwn id o l &&
  !(o.kind == .store && o.lanes.any fun m => m.isOpen && Nat.blt m.lane l.lane && overlap m.tgt l.tgt m.n l.n) &&
  !s.behindNack id o l && Nat.blt (s.sentBefore id o l) Config.sendWindow && !s.parkedOn l.tgt &&
  !(o.kind.updates && s.behindHalf id l) &&
  (!o.kind.addsOn || o.started || o.lanes.all fun x => !s.behindOwn id o x && !s.behindHalf id x)

/-- An earlier operation's request of the sender to the home, which the home would take, has not been accepted yet: requests of one sender
reach a home in the order sent (R268). -/
def State.behindSent (s : State) (id : Nat) (o : PendOp) (l : LaneAcc) : Bool :=
  aany (fun k p => Nat.blt k id && o.sameSender p && p.lanes.any fun m =>
    m.st == .sent && s.homeOf m.tgt == s.homeOf l.tgt && s.mayReach k p m) s.pend

/-- A lane of an operation may be performed. -/
def State.canPerform (s : State) (id : Nat) (o : PendOp) (l : LaneAcc) : Bool := s.mayReach id o l && !s.behindSent id o l

/-! ## Performing a lane (R183, R188, R189, R214, R326, R328) -/

/-- The byte that a held write of a team gives a target (R312). -/
def heldByte (held : List HeldWrite) (t : Target) (i : Nat) : Option Byte :=
  held.foldl (fun b h =>
    if h.tgt.key.1 == t.key.1 && Nat.ble h.tgt.key.2 (t.key.2 + i) && Nat.blt (t.key.2 + i) (h.tgt.key.2 + h.bytes.length) then
      h.bytes[t.key.2 + i - h.tgt.key.2]?
    else b) none

/-- The writes that an agent holds, of those that it issued before an operation (R237, R312). -/
def State.heldBy (s : State) (a : Agent) (id : Nat) : List HeldWrite :=
  match s.agent a with
  | some t => t.held.filter fun h => Nat.blt h.seq id
  | none => []

/-- What a party has read of each byte (R237). -/
def State.seenBy (s : State) (a : Agent) : List (Nat × Nat) :=
  match s.agent a with
  | some t => t.seen
  | none => if a.outside then s.seenOf a.party else []

/-- The time at which a lane of a load takes effect (R237, R241, R243). -/
def State.laneTime (s : State) (o : PendOp) (l : LaneAcc) : Nat :=
  s.readTime (s.readFloor o.ag (s.seenBy o.ag) o.after o.strong l.tgt l.n) l.lane

/-- The value that a lane of a load reads: what stands at its time, under the agent's own earlier held writes (R312). -/
def State.readFor (s : State) (id : Nat) (o : PendOp) (l : LaneAcc) : Nat :=
  let held := s.heldBy o.ag id
  leValue (fun i => match heldByte held l.tgt i with
    | some b => b
    | none => s.tgtByteAt (s.laneTime o l) l.tgt i) 0 l.n

/-- A party has read n bytes at a time, from writes that carry releases: an acquire takes those that its mask and theirs allow, and every
read leaves them for a later FENCE `.acq`, whose mask may be wider (R237, R240). -/
def State.noteRead (s : State) (id : Nat) (o : PendOp) (t : Target) (n time : Nat) : State :=
  let rels := s.relsRead time t n
  let s1 := if o.acq && !rels.isEmpty then s.addOrder id (acquired (o.party o.obs []) rels) else s
  match s1.agent o.ag with
  | some x => s1.setAgent o.ag { x with seen := noteSeen x.seen t n time, latent := x.latent ++ rels }
  | none =>
    if o.ag.outside then { s1 with seen := aset o.ag.party (noteSeen (s1.seenOf o.ag.party) t n time) s1.seen } else s1

/-- The releases that a write of an operation carries (R240): its own, where it is one, and those of its party's earlier FENCEs. -/
def State.relsOf (s : State) (id : Nat) (o : PendOp) : List Release :=
  (if o.rel then [o.party o.obs (id :: s.closure o.after)] else []) ++ o.fences.map fun f => o.party f.1 (id :: s.closure f.2)

/-- The new value of an atomic (R188): the old value, the operand, and the desired value of `.cas`. -/
def atomicNew (o : AtomOp) (w old x y : Nat) : Nat :=
  match o with
  | .add => (old + x) % 2 ^ w
  | .min => if sInt w old ≤ sInt w x then old else x
  | .max => if sInt w old ≤ sInt w x then x else old
  | .and => Nat.land old x
  | .or => Nat.lor old x
  | .xor => Nat.xor old x
  | .swap => x
  | .cas => if old = x then y else old

/-- A 32-bit add-on-store (R214): an FP32 sum rounded to nearest even, or a sum modulo 2^32. -/
def addOnNew (int : Bool) (old x : Nat) : Nat := if int then (old + x) % 2 ^ 32 else (Fmt.f32.add old x).x

/-- A touch of poisoned bytes fails the lane (R326). -/
def State.tgtPoisoned (s : State) (t : Target) (n : Nat) : Bool :=
  match t with
  | .dev pa => s.poisoned pa n
  | _ => false

/-- A lane's write performed (R237). -/
def State.writeLane (s : State) (id : Nat) (o : PendOp) (l : LaneAcc) (x : Nat) : State :=
  s.writeAs id o.ag o.strong (match o.kind with
    | .atomic _ _ | .addOn _ => true
    | _ => false) (s.relsOf id o) l.tgt (leBytes x l.n)

/-- One lane performed at its home: the state, and the lane with its result. -/
def State.performLane (s : State) (id : Nat) (o : PendOp) (l : LaneAcc) : State × LaneAcc :=
  match o.kind with
  | .load _ =>
    if s.tgtPoisoned l.tgt l.n then (s, { l with st := .failed })
    else (s.noteRead id o l.tgt l.n (s.laneTime o l), { l with st := .done, res := BitVec.ofNat 64 (s.readFor id o l) })
  | .store | .drain => (s.writeLane id o l l.x.toNat, { l with st := .done })
  | .atomic a _ =>
    if s.tgtPoisoned l.tgt l.n then (s, { l with st := .failed })
    else
      let w := 8 * l.n
      let old := s.tgtValue l.tgt l.n
      ((s.noteRead id o l.tgt l.n s.clock).writeLane id o l (atomicNew a w old (l.x.toNat % 2 ^ w) (l.y.toNat % 2 ^ w)),
        { l with st := .done, res := BitVec.ofNat 64 old })
  | .addOn int =>
    if s.tgtPoisoned l.tgt l.n then (s, { l with st := .failed })
    else (s.writeLane id o l (addOnNew int (s.tgtValue l.tgt l.n) (l.x.toNat % 2 ^ 32)), { l with st := .done })
  | .trd _ => (s, { l with st := .done })

/-- An operation with one lane replaced. -/
def PendOp.setLane (o : PendOp) (l : LaneAcc) : PendOp :=
  { o with lanes := o.lanes.map fun m => if m.lane = l.lane then l else m }

/-- An operation that only reads. -/
def PendKind.loads (k : PendKind) : Bool :=
  match k with
  | .load _ => true
  | .store | .atomic _ _ | .trd _ | .addOn _ | .drain => false

/-- An operation put back; a store with no lane left is over (R27), and so is what a party outside has asked for, but for a read. -/
def State.putOp (s : State) (id : Nat) (o : PendOp) : State :=
  if (o.kind == .store || (o.ag.outside && !o.kind.loads)) && !o.isOpen then { s with pend := adel id s.pend } else { s with pend := aset id o s.pend }

/-- The results of an operation's performed lanes written to their destination, but for those that stand there already (R23, R29, R40,
R188). -/
def Team.putResults (t : Team) (dst : DstReg) (kind : PendKind) (lanes : List LaneAcc) : Team :=
  let ok := lanes.filter fun l => l.st == .done && !l.put
  let value (l : LaneAcc) : W64 := match kind with
    | .load w => Width.extend w l.res.toNat
    | _ => l.res
  match dst with
  | .none => t
  | .scalar n => match ok with
    | l :: _ => { t with sregs := sset t.sregs n (value l) }
    | [] => t
  | .vec r => { t with vregs := ssetAll t.vregs (ok.map fun l => (1024 * r + l.lane, (value l).setWidth 32)) }
  | .pair r =>
    { t with vregs := ssetAll t.vregs (ok.flatMap fun l =>
        [(1024 * r + l.lane, (value l).setWidth 32), (1024 * (r + 1) + l.lane, BitVec.ofNat 32 ((value l).toNat / 2 ^ 32))]) }

/-- A performed lane's result put into an agent's destination. -/
def State.putLane (s : State) (a : Agent) (o : PendOp) (l : LaneAcc) : State :=
  match s.agent a with
  | some t => s.setAgent a (t.putResults o.dst o.kind [l])
  | none => s

/-- A performed lane's result written to its destination at once, where the part chooses so: until the operation is over, a register
reads, lane for lane, as before or as after it, and a later write stands or is overwritten (R29). Of an atomic of a REDUNDANT group it is
written in both copies (R313). -/
def State.putEarly (s : State) (o : PendOp) (l : LaneAcc) : State × LaneAcc :=
  if l.st = .done ∧ o.dst ≠ .none ∧ Config.choice s.freeN (2 ^ 62 + l.lane) % 2 = 1 then
    let s1 := s.putLane o.ag o l
    (match o.twin with
      | some tid => s1.putLane (.team tid) o l
      | none => s1, { l with put := true })
  else (s, l)

/-- A lane of a listed operation performed. -/
def State.performAt (s : State) (id : Nat) (o : PendOp) (l : LaneAcc) : State :=
  let r := s.performLane id o l
  let q := r.1.putEarly o r.2
  q.1.putOp id (o.setLane q.2)

/-! ## Issue -/

/-- A count on the flag that the clause gives the next long-latency instruction (R27, R398). -/
def Team.countOn (t : Team) : Team :=
  { t with flags := sset t.flags t.nextFlag (sget t.flags t.nextFlag + 1), clause := { t.clause with issued := t.clause.issued + 1 } }

/-- A long-latency instruction with no live lane is counted and uncounted at once (R27). -/
def Team.countOff (t : Team) : Team := { t with clause := { t.clause with issued := t.clause.issued + 1 } }

/-- A walk of the tables is taken, and its leaf cached (R321, R365). -/
def State.useTlb (s : State) (ctx die va : Nat) : State :=
  if (s.cached ctx va).isSome then s else (s.walked ctx die va).cache ctx va

/-- The translations of a context that a list of addresses used on a die. -/
def State.walksFor (s : State) (ctx die : Nat) (vas : List W64) : State :=
  vas.foldl (fun (st : State) a => if a.toNat < 2 ^ 56 then st.useTlb ctx die a.toNat else st) s

/-- The translations that a list of an agent's addresses used. -/
def State.useAll (s : State) (e : Env) (vas : List W64) : State := s.walksFor e.ctx e.die vas

/-- An address in each page of n bytes from an address on, whatever the pages' sizes (R317). -/
def pageSpan (a : W64) (n : Nat) : List W64 :=
  if n = 0 then [] else (List.range ((n + 65535) / 65536 + 1)).map fun i => a + BitVec.ofNat 64 (min (65536 * i) (n - 1))

/-- A group has reached a commit (R311). -/
def State.committed (s : State) (gid : Nat) : State :=
  match alook gid s.groups with
  | some g => { s with groups := aset gid { g with commited := true } s.groups }
  | none => s

/-- How a lane starts: one for a peer is held while no port of its window is ACTIVE, or while requests sent under another set of ACTIVE
ports are unacknowledged (R338); another goes by the port that carries its target (R340). -/
def State.startLane (s : State) (l : LaneAcc) : LaneAcc :=
  match l.tgt with
  | .peer ports _ => if s.activePort ports && !s.setChanged l.tgt then { l with via := s.portOf l.tgt } else { l with st := .held }
  | .dev _ => if s.carrier l.tgt = .active then { l with via := s.portOf l.tgt } else l
  | _ => l

/-- The flits of some lanes' requests of an operation, one for each lane (log entry 27). -/
def State.sendFlits (s : State) (id : Nat) (ls : List LaneAcc) : State :=
  ls.foldl (fun (st : State) l => if l.st = .sent then st.sendOn l.tgt (some (id, l.lane)) else st) s

/-- An operation posted by an agent: it is listed under the next number among the agent's own, and an acquire stands before every later
access of the agent (R240). `t` is the agent's state after the instruction. -/
def State.post (s : State) (e : Env) (t : Team) (o : PendOp) : State :=
  let s1 := s.useAll e (o.lanes.map fun l => l.va)
  let t1 := { t with hb := t.hb ++ (if o.acq then [s1.nextId] else []), own := t.own ++ [s1.nextId] }
  let ls := o.lanes.map fun l => if l.isOpen then s.startLane l else l
  let s2 : State := { s1 with pend := aset s1.nextId { o with lanes := ls } s1.pend, nextId := s1.nextId + 1 }
  (s2.sendFlits s1.nextId ls).setAgent e.ag t1

/-- The operation of an instruction that an agent issues now; `obs` is a strong access's mask. -/
def State.newOp (s : State) (e : Env) (t : Team) (kind : PendKind) (acq rel : Bool) (obs : BitVec 7) (lanes : List LaneAcc)
    (flag : Option Nat) (dst : DstReg) : PendOp :=
  { ag := e.ag, gid := e.gid, ctx := e.ctx, core := e.core, kind := kind, acq := acq, rel := rel, lanes := lanes
    flag := flag, dst := dst, pc := s.origPc t.gid t.pc, obs := obs, fences := t.fences, after := s.before e.ag t acq rel
    killed := false, twin := none }

/-! ## REDUNDANT groups (R312) -/

/-- The agent belongs to a group that has a partner copy. -/
def State.inCopy (s : State) (e : Env) : Bool :=
  match alook e.gid s.groups with
  | some g => !e.ctl && g.partner.isSome
  | none => false

/-- A target is a tile's. -/
def Target.isTile (t : Target) : Bool :=
  match t with
  | .tile _ _ => true
  | _ => false

/-- Stores held at their home, in lane order. -/
def State.holdStores (s : State) (lanes : List LaneAcc) : List HeldWrite :=
  lanes.map fun l => { seq := s.nextId, va := l.va.toNat, tgt := l.tgt, bytes := leBytes l.x.toNat l.n }

/-- An engine's write put into its place among the held writes: issue order, then ascending address (R312). -/
def insertHeld (w : HeldWrite) : List HeldWrite → List HeldWrite
  | [] => [w]
  | h :: r => if w.seq < h.seq ∨ (w.seq = h.seq ∧ w.va < h.va) then w :: h :: r else h :: insertHeld w r

/-- A store's lanes issued: posted, or, for memory, held where the group is REDUNDANT, with their translations used (R321). -/
def State.issueStore (s : State) (e : Env) (t : Team) (rel : Bool) (obs : BitVec 7) (lanes : List LaneAcc) : State :=
  if lanes.isEmpty then s.setAgent e.ag t
  else if s.inCopy e then
    let t1 : Team := { t with held := t.held ++ s.holdStores (lanes.filter fun l => !l.tgt.isTile), own := t.own ++ [s.nextId] }
    let s1 : State := { s.useAll e (lanes.map fun l => l.va) with nextId := s.nextId + 1 }
    match lanes.filter fun l => l.tgt.isTile with
    | [] => s1.setAgent e.ag t1
    | ts => s1.post e t1 (s1.newOp e t .store false rel obs ts none .none)
  else s.post e t (s.newOp e t .store false rel obs lanes none .none)

/-! ## Completion (R27, R327) -/

/-- A team whose wait has come to be satisfied is READY again (R28). -/
def Team.wake (t : Team) : Team :=
  match t.st, t.wait with
  | .waiting, .clause h long => if t.clauseOpen h long then { t with st := .ready, wait := .none } else t
  | _, _ => t

/-- A flag uncounted (R27). -/
def Team.uncount (t : Team) (f : Option Nat) : Team :=
  match f with
  | some k => ({ t with flags := sset t.flags k (sget t.flags k - 1) } : Team).wake
  | none => t

/-- An error put into the pending-trap slot; a further one while it is full only sets its overflow bit (R297). -/
def Team.pendErr (t : Team) (x : ErrRec) : Team :=
  match t.pending with
  | none => { t with pending := some x }
  | some _ => { t with pendOvf := true }

/-- An uncorrectable error that an operation has consumed arrives for its agent (R327). -/
def State.deliver (s : State) (a : Agent) (x : ErrRec) : State :=
  match s.agent a with
  | none => s
  | some t =>
    match t.st with
    | .stopped => s.setAgent a (t.pendErr x)
    | .draining =>
      match a with
      | .team tid => s.stopTeam tid { cause := x.cause, mask := some x.mask, addr := x.addr, oppc := x.oppc }
      | _ => s
    | _ => if t.errs.isEmpty then s.setAgent a { t with errs := [x] } else s.setAgent a (t.pendErr x)

/-- A lane of a listed operation failed, or was refused by a peer (R327, R338, R339). A store that failed is reported by the ERR firmware; a
refused one, which counts on no flag, is PROTECT in its team, which takes it as it takes an error that no flag announces (R327; log entry
65). -/
def State.failLane (s : State) (id : Nat) (o : PendOp) (l : LaneAcc) (how : LaneSt) : State :=
  let s1 := s.putOp id (o.setLane { l with st := how })
  if o.kind != .store then s1
  else if how = .refused then
    if o.killed then s1 else s1.deliver o.ag { cause := .protect, flag := none, mask := maskOf [l.lane], addr := l.va, oppc := o.pc }
  else s1.report .errReport 1 [l.va]

/-- The error of the lanes of an operation that failed, if any (R327), or that a peer refused, which is PROTECT (R338). -/
def PendOp.error (o : PendOp) : Option ErrRec :=
  let of (c : Cause) (x : LaneSt) : Option ErrRec :=
    match o.lanes.filter fun l => l.st == x with
    | [] => none
    | l :: r => some { cause := c, flag := o.flag, mask := maskOf ((l :: r).map fun m => m.lane), addr := l.va, oppc := o.pc }
  (of .protect .refused).orElse fun _ => of .uncorrectable .failed

/-- A team that has nothing left to wait for in DRAINING retires. -/
def State.settle (s : State) (a : Agent) : State :=
  match a with
  | .team tid => s.drainEnd tid
  | _ => s

/-- Results written, the flag uncounted, an error delivered, and a DRAINING team retired (R27, R132, R327). -/
def State.finishOp (s : State) (a : Agent) (o : PendOp) : State :=
  match s.agent a with
  | none => s
  | some t =>
    let s1 := s.setAgent a ((t.putResults o.dst o.kind o.lanes).uncount o.flag)
    match o.error with
    | some x => (s1.deliver a x).settle a
    | none => s1.settle a

/-- An LDS or LDF that holds its team: the value written and the team goes on after it, or UNCORRECTABLE at its PC (R185,
R326). -/
def State.finishHeld (s : State) (a : Agent) (o : PendOp) (n : Nat) : State :=
  match s.agent a with
  | none => s
  | some t =>
    let t1 := { t with st := .ready, wait := .none }
    match o.error with
    | some x => (s.setAgent a t1).trapAt a { cause := x.cause, addr := x.addr }
    | none => s.setAgent a ((t1.putResults o.dst o.kind o.lanes).advance n)

end Sys2Proof.Machine
end

