-- ==== Sys2Proof/Machine/Mem.lean ====
section
/-!
DEFINITION. Loads, stores and atomics (R179 to R190), and the steps by which they are performed and complete
(MEMORY_REQUEST_AT_HOME, HOME_FAULT_REPLAY, INTERNAL_QUEUE_RESEND, PEER_HOLD_RELEASE, LOAD_COMPLETE, ATOMIC_COMPLETE).
-/
namespace Sys2Proof.Machine

/-! ## Operands (R179, R181, R185) -/

/-- An address operand: s0 to s23, `z`, a literal, or an even vector pair (R179). -/
def okAddr (t : Team) (a : Src) : Bool :=
  match a with
  | .reg (.v n) => okPair t (.v n)
  | x => plainScalar x

/-- The address of a lane (R179): b's low 32 bits are a signed offset. -/
def laneAddr (e : Env) (t : Team) (a b : Src) (l : Nat) : W64 := srcLane64 e t a l + (srcLane e t b l).signExtend 64

/-- The lanes an access acts on: the live ones, or one for an instruction that executes once (R181). -/
def memLanes (t : Team) (per : Bool) : List Nat := if per then t.liveLanes else [0]

/-- Where a result goes. -/
def dstOf (t : Team) (d : Reg) (pair : Bool) : DstReg :=
  match d with
  | .v n => if pair then .pair (t.reg n.val) else .vec (t.reg n.val)
  | .s n => .scalar n.val
  | _ => .none

/-- The lanes of an access with their targets. -/
def lanesTgt (s : State) (e : Env) (t : Team) (k : AccKind) (ls : List Nat) (addr : Nat → W64) : List LaneTgt :=
  ls.map fun l => { lane := l, va := addr l, r := s.laneTarget e t k (addr l) }

/-! ## Loads (R181, R182) -/

/-- A load: its checks, then its lanes posted on a flag, or counted and uncounted at once with no live lane (R27, R180). -/
def loadForm (w : Width) (d : Reg) (a b : Src) (obs : BitVec 7) (acq : Bool) (n : Nat) (s : State) (e : Env) (t : Team) :
    Except Trap State := do
  checkSrcs t [b]
  needOperand (okAddr t a && okDst t d && (w != .b64 || okPairDst t d))
  needOperand (isVecDst d || !(isVec t a || isVec t b))
  needOperand (!acq || obs != 0)
  if isVecDst d then
    checkSh0 t
  let k : AccKind := { write := false, atomic := false, n := Width.bytes w }
  let ls := lanesTgt s e t k (memLanes t (isVecDst d)) (laneAddr e t a b)
  match firstErr ls with
  | some x => .error (addrTrap ls x (isVecDst d))
  | none =>
    if ls.isEmpty then .ok (s.setAgent e.ag (t.countOff.advance n))
    else
      .ok (s.post e (t.countOn.advance n)
        (s.newOp e t (.load w) acq false obs (okLanes k.n ls (fun _ => 0) (fun _ => 0)) (some t.nextFlag)
          (dstOf t d (w == .b64))))

/-- LD (R181). -/
def execLd (w : Width) (d : Reg) (a b : Src) (s : State) : Host.Outcome State Fault Refusal :=
  runState s (loadForm w d a b 0 false (1 + a.words + b.words) s)

/-- LDSTR: as LD (R184). -/
def execLdstr (w : Width) (d : Reg) (a b : Src) (s : State) : Host.Outcome State Fault Refusal :=
  runState s (loadForm w d a b 0 false (1 + a.words + b.words) s)

/-- LDACQ: an acquire (R182, R240). -/
def execLdacq (w : Width) (d : Reg) (a : Src) (obs : BitVec 7) (s : State) : Host.Outcome State Fault Refusal :=
  runState s (loadForm w d a (.reg .z) obs true (1 + a.words) s)

/-! ## Stores (R181 to R183) -/

/-- The data of a store: the low bits of a scalar or lane, or 64 bits from a scalar or pair (R181). -/
def storeData (e : Env) (t : Team) (w : Width) (x : Src) (l : Nat) : W64 :=
  if w = .b64 then srcLane64 e t x l else (srcLane e t x l).setWidth 64

/-- A store: its checks, then its lanes. A store that meets PAGE performs the lanes outside the fault mask and traps; a
replayed one performs only the lanes of the fault mask (R180). -/
def storeForm (w : Width) (x a b : Src) (obs : BitVec 7) (rel : Bool) (n : Nat) (s : State) (e : Env) (t : Team) :
    Except Trap State := do
  checkSrcs t [x, b]
  needOperand (okAddr t a && (w != .b64 || okPairSrc t x))
  needOperand (!rel || obs != 0)
  let per := isVec t x || isVec t a || isVec t b
  if per then
    checkSh0 t
  let k : AccKind := { write := true, atomic := false, n := Width.bytes w }
  let todo := (memLanes t per).filter fun l => match t.replay with
    | some m => !per || m.getLsbD l
    | none => true
  let ls := lanesTgt s e t k todo (laneAddr e t a b)
  let lanes := okLanes k.n ls (storeData e t w x) (fun _ => 0)
  match firstErr ls with
  | none => .ok (s.issueStore e (t.advance n) rel obs lanes)
  | some .page =>
    let tr := { addrTrap ls .page per with store := per }
    if per then .ok ((s.issueStore e t rel obs lanes).trapAt e.ag tr) else .error tr
  | some c => .error (addrTrap ls c per)

/-- ST (R181). -/
def execSt (w : Width) (x a b : Src) (s : State) : Host.Outcome State Fault Refusal :=
  runState s (storeForm w x a b 0 false (1 + x.words + a.words + b.words) s)

/-- STSTR: as ST (R184). -/
def execStstr (w : Width) (x a b : Src) (s : State) : Host.Outcome State Fault Refusal :=
  runState s (storeForm w x a b 0 false (1 + x.words + a.words + b.words) s)

/-! ## Commits (R311, R313) -/

/-- A team of a REDUNDANT group waits at a commit until its partner reaches the same point (R313). -/
def State.holdCommit (s : State) (e : Env) (t : Team) (i : Instr) : State :=
  (s.setAgent e.ag { t with st := .waiting, wait := .commit i none, since := (s.core e.core).count }).recount e.ag.tid

/-- An instruction that is a commit: its traps come first; in a REDUNDANT group it takes effect at the comparison. -/
def runCommit (i : Instr) (s : State) (f : State → Env → Team → Except Trap State) : Host.Outcome State Fault Refusal :=
  runState s fun e t =>
    match f s e t with
    | .error x => .error x
    | .ok s' => .ok (if s.inCopy e then s.holdCommit e t i else s')

/-- STREL: a release and a commit (R182, R240, R311). -/
def strelForm (w : Width) (x a : Src) (obs : BitVec 7) (s : State) (e : Env) (t : Team) : Except Trap State := do
  let s1 ← storeForm w x a (.reg .z) obs true (1 + x.words + a.words) s e t
  .ok (s1.committed e.gid)

/-- STREL (R181). -/
def execStrel (w : Width) (x a : Src) (obs : BitVec 7) (s : State) : Host.Outcome State Fault Refusal :=
  runCommit (.strel w x a obs) s (strelForm w x a obs)

/-! ## LDS, STS, LDF (R185) and PREF (R186) -/

/-- A scalar load that holds its team until the value is written. -/
def holdLoad (d : Reg) (addr : W64) (n : Nat) (s : State) (e : Env) (t : Team) : Except Trap State := do
  needOperand (isScaDst d)
  let ls := lanesTgt s e t { write := false, atomic := false, n := 8 } [0] (fun _ => addr)
  match firstErr ls with
  | some x => .error (addrTrap ls x false)
  | none =>
    .ok (s.post e { t with st := .waiting, wait := .load s.nextId n }
      (s.newOp e t (.load .b64) false false 0 (okLanes 8 ls (fun _ => 0) (fun _ => 0)) none (dstOf t d false)))

/-- LDS. -/
def execLds (d : Reg) (a : Src) (imm : BitVec 11) (s : State) : Host.Outcome State Fault Refusal :=
  runState s fun e t => do
    checkScalars t [a]
    holdLoad d (srcScalar e t a + BitVec.ofInt 64 (8 * imm.toInt)) (1 + a.words) s e t

/-- LDF: from the frame pointer of the group's record, or, in the control thread, of the handled team's group (R397). -/
def execLdf (d : Reg) (imm : BitVec 11) (s : State) : Host.Outcome State Fault Refusal :=
  runState s fun e t => holdLoad d (e.frame + BitVec.ofNat 64 (8 * imm.toNat)) 1 s e t

/-- STS. -/
def execSts (x a : Src) (imm : BitVec 11) (s : State) : Host.Outcome State Fault Refusal :=
  runState s fun e t => do
    checkScalars t [a]
    needOperand (plainScalar x)
    let addr := srcScalar e t a + BitVec.ofInt 64 (8 * imm.toInt)
    let ls := lanesTgt s e t { write := true, atomic := false, n := 8 } [0] (fun _ => addr)
    match firstErr ls with
    | some c => .error (addrTrap ls c false)
    | none =>
      .ok (s.issueStore e (t.advance (1 + x.words + a.words)) false 0
        (okLanes 8 ls (fun _ => srcScalar e t x) (fun _ => 0)))

/-- PREF changes nothing but the place of its team (R186). -/
def execPref (_w : Bool) (a b : Src) (s : State) : Host.Outcome State Fault Refusal :=
  runAgent s (1 + a.words + b.words) fun _ t => do
    checkSrcs t [b]
    needOperand (okAddr t a)
    if isVec t a || isVec t b then
      checkSh0 t
    .ok t

/-! ## Atomics (R187 to R189) -/

/-- An atomic's operand and result registers (R187). -/
def okAtomDst (o : AtomOp) (wide : Bool) (t : Team) (d : Reg) : Bool :=
  match d with
  | .v n =>
    if wide then
      if o = .cas then n.val % 4 == 0 && t.inWindow (n.val + 3) else okPair t d
    else if o = .cas then okPair t d else t.inWindow n.val
  | .s _ | .z => !(wide && o == .cas)
  | _ => false

/-- A pair of allotment registers as 64 bits. -/
def pairLane (t : Team) (r l : Nat) : W64 :=
  BitVec.ofNat 64 ((sget t.vregs (1024 * r + l)).toNat + 2 ^ 32 * (sget t.vregs (1024 * (r + 1) + l)).toNat)

/-- The operand of a lane: x, or the expected and desired values of `.cas`. -/
def atomOperands (o : AtomOp) (wide : Bool) (e : Env) (t : Team) (d : Reg) (l : Nat) : W64 × W64 :=
  match d with
  | .v n =>
    let r := t.reg n.val
    if wide then (pairLane t r l, if o = .cas then pairLane t (r + 2) l else 0)
    else ((sget t.vregs (1024 * r + l)).setWidth 64, if o = .cas then (sget t.vregs (1024 * (r + 1) + l)).setWidth 64 else 0)
  | x =>
    let v := regScalar e t x
    if wide then (v, 0) else ((v.setWidth 32).setWidth 64, BitVec.ofNat 64 (v.toNat / 2 ^ 32))

/-- A list in an order that the part chooses (R188, R169). -/
def shuffle {α : Type} (free : Nat) : Nat → List α → List α
  | 0, l => l
  | k + 1, l =>
    let i := if l.length ≤ 1 then 0 else Config.choice free k % l.length
    match l[i]? with
    | some x => x :: shuffle free k (l.eraseIdx i)
    | none => []

/-- The granule of a tile access restored from the cellar before it acts (R308). -/
def State.restoreAt (s : State) (t : Target) : State :=
  match t with
  | .tile tk off =>
    match alook tk s.tiles with
    | some x => { s with tiles := aset tk { x with cellar := x.cellar - Nat.land x.cellar (2 ^ (off / 16)) } s.tiles }
    | none => s
  | _ => s

/-- The granules of a byte range (R165). -/
def granulesOf (off n : Nat) : List Nat :=
  if n = 0 then [] else (List.range ((off + n - 1) / 16 - off / 16 + 1)).map fun k => off / 16 + k

/-- What a matrix operation took of an operand at issue, moved on to the present contents of some granules: the engine reads each granule
once between issue and its last step, so it sees a write or does not (R210); `all` says that it must see them. -/
def seeGranules (x : Tile) (free k : Nat) (all : Bool) (at0 : List (Nat × Byte)) (gs : List Nat) : List (Nat × Byte) :=
  gs.foldl (fun m g => if all || Config.choice free (2 ^ 59 + k * 2 ^ 20 + g) % 2 == 1 then
    putBytes m (16 * g) (getBytes (fun i => sget x.bytes i) (16 * g) 16) else m) at0

/-- Bytes of a tile have been written: the matrix operations in their queues whose operand the tile is may see them (R210), and those
joined behind the writing operation do (R246, R247). -/
def State.operandSeen (s : State) (by_ : Option Nat) (t off n : Nat) : State :=
  match alook t s.tiles with
  | none => s
  | some x => { s with mqs := amap (fun k m =>
      let all := match by_ with
        | some op => m.after.contains op
        | none => false
      { m with
        a0 := if m.a = t ∧ m.latchA = false then seeGranules x s.freeN (2 * k) all m.a0 (granulesOf off n) else m.a0
        b0 := if m.b = t ∧ m.latchB = false then seeGranules x s.freeN (2 * k + 1) all m.b0 (granulesOf off n) else m.b0 }) s.mqs }

/-- A party waits, and executes its instruction again, until some of its accesses are performed (R240, R241, R244). -/
def State.waitOrder (s : State) (e : Env) (t : Team) (ops : List Nat) : State :=
  s.setAgent e.ag { t with st := .waiting, wait := .order ops }

/-- The tile lanes of an atomic performed when it issues (R244, R245), the memory lanes left for their homes. -/
def State.performTiles (s : State) (o : PendOp) : State × PendOp :=
  (shuffle s.freeN o.lanes.length (o.lanes.filter fun l => l.tgt.isTile)).foldl (fun (acc : State × PendOp) l =>
    let r := (acc.1.restoreAt l.tgt).performLane s.nextId o l
    let q := r.1.putEarly o r.2
    (match l.tgt with
      | .tile k off => q.1.operandSeen none k off l.n
      | _ => q.1, acc.2.setLane q.2)) (s, o)

/-- The operation of an atomic that issues; a mask makes it an acquire and a release (R187). -/
def State.atomOp (s : State) (e : Env) (t : Team) (o : AtomOp) (wide : Bool) (d : Reg) (obs : BitVec 7) (ls : List LaneTgt) : PendOp :=
  let n := if wide then 8 else 4
  s.newOp e t (.atomic o wide) (obs != 0) (obs != 0) obs (okLanes n ls (fun l => (atomOperands o wide e t d l).1) (fun l => (atomOperands o wide e t d l).2))
    (some t.nextFlag) (dstOf t d wide)

/-- An atomic (R188). -/
def atomForm (o : AtomOp) (wide : Bool) (d : Reg) (a : Src) (obs : BitVec 7) (s : State) (e : Env) (t : Team) :
    Except Trap State := do
  needOperand (okAddr t a && okAtomDst o wide t d && (isVecDst d || !isVec t a))
  if isVecDst d then
    checkSh0 t
  let n := 1 + a.words
  let k : AccKind := { write := true, atomic := true, n := if wide then 8 else 4 }
  let ls := lanesTgt s e t k (memLanes t (isVecDst d)) (laneAddr e t a (.reg .z))
  match firstErr ls with
  | some x => .error (addrTrap ls x (isVecDst d))
  | none =>
    let s0 := s.committed e.gid
    let open_ := s.stillOpen e.ag t (obs != 0)
    if ls.isEmpty then .ok (s0.setAgent e.ag (t.countOff.advance n))
    else if !open_.isEmpty && (ls.any fun l => match l.r with
        | .ok g => g.isTile
        | .error _ => false) then .ok (s.waitOrder e t open_)
    else
      let r := s0.performTiles (s.atomOp e t o wide d obs ls)
      .ok (r.1.post e (((r.1.agent e.ag).getD t).countOn.advance n) r.2)

/-- ATOM (R187). -/
def execAtom (o : AtomOp) (d : Reg) (a : Src) (obs : BitVec 7) (s : State) : Host.Outcome State Fault Refusal :=
  runCommit (.atom o d a obs) s (atomForm o false d a obs)

/-- ATOM64 (R187). -/
def execAtom64 (o : AtomOp) (d : Reg) (a : Src) (obs : BitVec 7) (s : State) : Host.Outcome State Fault Refusal :=
  runCommit (.atom64 o d a obs) s (atomForm o true d a obs)

/-! ## Completion -/

/-- A core is on a ramp: a trap that a completing operation raises waits for its end (R66). -/
def State.ramping (s : State) (core : Nat) : Bool :=
  match (s.core core).move with
  | some m => m.ramping
  | none => false

/-- A write of the device to host memory that came before an operation is still to be performed. -/
def State.hostWriteBefore (s : State) (id : Nat) : Bool :=
  aany (fun k o => Nat.blt k id && o.kind == .store && o.lanes.any fun l => l.isOpen && l.tgt.key.1 == 1) s.pend

/-- An operation of a kind that is performed in every lane, and not held back by a ramp; the completion of a host's read does not pass earlier
posted writes (R250). -/
def State.complete? (s : State) (id : Nat) (p : PendKind → Bool) : Option PendOp :=
  match alook id s.pend with
  | some o =>
    let core := s.agentCore o.ag
    if p o.kind && !o.isOpen && !(o.error.isSome && s.ramping core) && !(o.ag.outside && s.hostWriteBefore id) then some o else none
  | none => none

/-- LOAD_COMPLETE (R27, R185, R326, R327). -/
def execLoadComplete (op : Nat) (s : State) : Host.Outcome State Fault Refusal :=
  runEvent s do
    let o ← s.complete? op fun k => match k with
      | .load _ => true
      | _ => false
    let s1 : State := { s with pend := adel op s.pend }
    if o.killed then some s1
    else
      match s.agent o.ag with
      | none => some s1
      | some t =>
        match t.st, t.wait with
        | .waiting, .load k n => if k = op then some (s1.finishHeld o.ag o n) else some (s1.finishOp o.ag o)
        | _, _ => some (s1.finishOp o.ag o)

/-- ATOMIC_COMPLETE (R27, R188, R313). -/
def execAtomicComplete (op : Nat) (s : State) : Host.Outcome State Fault Refusal :=
  runEvent s do
    let o ← s.complete? op fun k => match k with
      | .atomic _ _ => true
      | _ => false
    let s1 : State := { s with pend := adel op s.pend }
    if o.killed then some s1
    else
      let s2 := s1.finishOp o.ag o
      match o.twin with
      | some tid => some (s2.finishOp (.team tid) o)
      | none => some s2

/-! ## At the homes (R189, R268, R325, R326, R331, R338, R339) -/

/-- The requests parked at a home (R325). -/
def State.parkedAt (s : State) (home : Nat) : List (Nat × Nat × Nat) :=
  s.pend.flatMap fun e => e.2.lanes.filterMap fun l =>
    match l.st with
    | .parked k => if s.homeOf l.tgt = home then some (k, e.1, l.lane) else none
    | _ => none

/-- The back-off of a sender towards a home after a NACK: 64 cycles, doubling up to 4,096 (R268). It is kept with the COUNT
at which it ends. -/
def CoreSt.nacked (x : CoreSt) (home : Nat) : CoreSt :=
  let old := (sget x.backoff (2 * home)).toNat
  let b := if old = 0 then 64 else min 4096 (2 * old)
  { x with backoff := sset (sset x.backoff (2 * home) (BitVec.ofNat 64 b)) (2 * home + 1) (BitVec.ofNat 64 (x.count + b)) }

/-- A request accepted: the back-off starts afresh once no NACKed request of the core to the home is left. -/
def State.accepted (s : State) (core home : Nat) : State :=
  if Config.nCores ≤ core then s
  else if aany (fun _ o => o.core == core && o.lanes.any fun l => l.st == .nacked && s.homeOf l.tgt == home) s.pend then s
  else s.modCore core fun x => { x with backoff := sset (sset x.backoff (2 * home) 0) (2 * home + 1) 0 }

/-- A line poisoned at its home (R326). -/
def State.addPoison (s : State) (line : Nat) : State :=
  if s.poison.contains line then s else { s with poison := line :: s.poison }

/-- The lanes of an operation read memory. -/
def PendKind.reads (k : PendKind) : Bool :=
  match k with
  | .load _ | .atomic _ _ | .addOn _ => true
  | .store | .trd _ | .drain => false

/-- The flit of a lane's request, where a port keeps it. -/
def State.flitOf (s : State) (p : PortId) (id lane : Nat) : Option SentFlit :=
  (s.port p).unacked.find? fun f => f.req == some (id, lane)

/-- A lane's request taken to its home: at once where no port lies between; else by an ACTIVE port, once its flit is among those sent. A
tier-2 request that found its port not ACTIVE is sent now (R336, R338, R340). -/
def State.carry (s : State) (id : Nat) (l : LaneAcc) : Option State :=
  match l.via with
  | some p =>
    if (s.port p).st = .active ∧ ((s.flitOf p id l.lane).all fun f => f.sent) = true then some s else none
  | none =>
    match s.portOf l.tgt with
    | some p => if (s.port p).st = .active ∧ (s.port p).room = true then some (s.sendOn l.tgt (some (id, l.lane))) else none
    | none => if l.tgt.window.isSome then none else some s

/-- The port that carries a lane's request, or is to carry it, is FAILED (R339, R340). -/
def State.portFailed (s : State) (l : LaneAcc) : Bool :=
  match l.via, l.tgt with
  | some p, _ => (s.port p).st == .failed
  | none, .dev _ => (match s.portOf l.tgt with
    | some p => (s.port p).st == .failed
    | none => false)
  | none, _ => false

/-- A lane whose request a FAILED port cannot deliver fails; a store that might have been performed at the peer may have been so all the same,
once (R339). -/
def State.undelivered (s : State) (id : Nat) (o : PendOp) (l : LaneAcc) : State :=
  (if o.kind == .store && l.tgt.window.isSome && s.canPerform id o l && Config.choice s.freeN (2 ^ 63) % 2 == 1 then
    s.writeLane id o l l.x.toNat else s).failLane id o l .failed

/-- A request that reaches its home. -/
def State.requestAt (s : State) (id lane : Nat) (o : HomeOutcome) : Option State := do
  let op ← alook id s.pend
  let l ← op.lanes.find? fun l => l.lane == lane
  let home := s.homeOf l.tgt
  if o = .error ∧ s.portFailed l = true ∧ (l.st = .sent ∨ l.st.isParked = true) then some (s.undelivered id op l)
  else if l.st != .sent || !s.canPerform id op l then none
  else
    match o with
    | .perform =>
      if s.drainingAt l.tgt then none
      else do
        let s1 ← s.carry id l
        let s2 ← s1.respond op.ag
        some ((s2.performAt id op l).accepted op.core home)
    | .park =>
      match l.tgt with
      | .dev _ =>
        if s.drainingAt l.tgt || Nat.ble Config.homeQueueLimit (s.parkedAt home).length then none
        else some ({ s.putOp id (op.setLane { l with st := .parked s.nextId }) with nextId := s.nextId + 1 }.accepted op.core home)
      | _ => none
    | .nack =>
      if l.tgt.isTile || op.ag.outside then none
      else some ((s.putOp id (op.setLane { l with st := .nacked })).modCore op.core fun x => x.nacked home)
    | .error =>
      match l.tgt with
      | .dev pa => if op.kind.reads && !s.drainingAt l.tgt && !deadHas s.dead (pa / 4096) then some ((s.addPoison (pa / 64)).failLane id op l .failed) else none
      | .peer _ k => if Nat.ble 0x100000000000 (k % 2 ^ 52) then (s.carry id l).map fun s1 => s1.failLane id op l .refused else none
      | _ => none

/-- MEMORY_REQUEST_AT_HOME (R189, R325, R326). -/
def execMemoryRequestAtHome (op lane : Nat) (o : HomeOutcome) (s : State) : Host.Outcome State Fault Refusal :=
  runEvent s (s.requestAt op lane o)

/-- The parked requests of a home performed in their parked order (R325). -/
def State.replayHome (s : State) (home : Nat) : State :=
  ((s.parkedAt home).foldl (fun (m : List (Nat × Nat × Nat)) k => ains k.1 k.2 m) []).foldl (fun (st : State) k =>
    match alook k.2.1 st.pend with
    | some op =>
      match op.lanes.find? fun l => l.lane == k.2.2 with
      | some l => match (st.carry k.2.1 l).bind fun s1 => s1.respond op.ag with
        | some s1 => s1.performAt k.2.1 op l
        | none => st
      | none => st
    | none => st) s

/-- A home of tier 1 replays at any time, one of tier 2 once its port is ACTIVE (R340). -/
def State.homeUp (s : State) (home : Nat) : Bool := Nat.blt home 256 || (s.port (.memory (home - 256))).st == .active

/-- HOME_FAULT_REPLAY (R325). -/
def execHomeFaultReplay (home : Nat) (s : State) : Host.Outcome State Fault Refusal :=
  runEvent s (if (s.parkedAt home).isEmpty || !s.homeUp home then none else some (s.replayHome home))

/-- A sender that found a mailbox full sends its first message again, once its back-off is over (R268, R360): a mailbox with room takes it, and
one that is full refuses it again, which doubles the back-off up to 4,096 cycles. -/
def State.mailResend (s : State) (mb : Nat) : Option State := do
  let e ← s.fw.unsent.find? fun e => e.1 == mb
  let b := agetD (64, 0) mb s.fw.backoff
  if s.fwCycle < b.2 then none
  else if (agetD [] mb s.fw.mbox).length < Config.mailboxLimit then
    let rest := s.fw.unsent.erase e
    some { s with fw := { s.fw with
      mbox := aset mb (agetD [] mb s.fw.mbox ++ [e.2]) s.fw.mbox, unsent := rest
      backoff := if rest.any fun x => x.1 == mb then aset mb (64, b.2) s.fw.backoff else adel mb s.fw.backoff } }
  else
    let n := min 4096 (2 * b.1)
    some { s with fw := { s.fw with backoff := aset mb (n, s.fwCycle + n) s.fw.backoff } }

/-- INTERNAL_QUEUE_RESEND (R268): the sender resends, in order, from the entry that was NACKed. Numbers from 384 on stand for the senders of
the firmware's mailboxes (R360). -/
def execInternalQueueResend (core home : Nat) (s : State) : Host.Outcome State Fault Refusal :=
  let held (o : PendOp) (l : LaneAcc) : Bool := o.core == core && l.st == .nacked && s.homeOf l.tgt == home
  runEvent s
    (if Config.nCores ≤ core then s.mailResend (core - Config.nCores)
    else if aany (fun _ o => o.lanes.any fun l => held o l) s.pend ∧ (sget (s.core core).backoff (2 * home + 1)).toNat ≤ (s.core core).count then
      some { s with pend := amap (fun _ o => { o with
        lanes := o.lanes.map fun l => if held o l then { l with st := .sent } else l }) s.pend }
    else none)

/-- PEER_HOLD_RELEASE (R338). -/
def execPeerHoldRelease (op lane : Nat) (s : State) : Host.Outcome State Fault Refusal :=
  runEvent s do
    let o ← alook op s.pend
    let l ← o.lanes.find? fun l => l.lane == lane && l.st == .held
    match l.tgt with
    | .peer ports _ =>
      if s.activePort ports then
        (if s.setChanged l.tgt then none
        else
          let m := { l with st := .sent, via := s.portOf l.tgt }
          some ((s.putOp op (o.setLane m)).sendFlits op [m]))
      else if s.anyPort ports then none
      else some (s.failLane op o l .failed)
    | _ => none

end Sys2Proof.Machine
end

