-- ==== Sys2Proof/Machine/Watch.lean ====
section
/-!
DEFINITION. What the waits of the machine share: the watchdog's expiry (R79, R384), the diagnostic record (R235), and an
instruction that a waiting team issues again.
-/
namespace Sys2Proof.Machine

/-! ## Where a team stands -/

/-- The group of a team. -/
def State.groupAt (s : State) (gid : Nat) : Option Group := alook gid s.groups

/-- A team stands in the active bank of its core. -/
def State.inActive (s : State) (tid : Nat) : Bool :=
  match alook tid s.teams with
  | some t =>
    match alook t.gid s.groups with
    | some g => g.place == .bank g.place.core (s.core g.place.core).act
    | none => false
  | none => false

/-- A team stands in the active bank of a core that lets its teams issue. -/
def State.mayIssue (s : State) (tid : Nat) : Bool := s.inActive tid && !(s.core (s.agentCore (.team tid))).held

/-- COUNT of an agent's core. -/
def State.countOf (s : State) (a : Agent) : Nat := (s.core (s.agentCore a)).count

/-- The watchdog of a team's region, in cycles. -/
def State.wdogOf (s : State) (a : Agent) : Nat := s.wdogCycles (s.env a).ctx (s.env a).region

/-- A wait that began at a COUNT of the core of a team in its active bank has outlasted the watchdog (R384). From
a swap to its end no wait of the core counts: each starts afresh when the core issues again (R170, R307). -/
def State.expired (s : State) (tid since : Nat) : Bool :=
  s.inActive tid && (s.core (s.agentCore (.team tid))).swap.isNone &&
    Nat.ble (since + s.wdogOf (.team tid)) (s.countOf (.team tid))

/-- The COUNT at which a team's wait expires (R384). -/
def State.expiry (s : State) (tid since : Nat) : Nat := since + s.wdogOf (.team tid)

/-! ## The diagnostic record (R235) -/

/-- What a diagnostic record says of a wait, besides the trapping team's own place. -/
structure Diag where
  kind   : Nat
  phase  : Nat := 0
  id     : Nat := 0
  scope  : Nat := 0
  cntb   : Nat := 0
  expb   : Nat := 0
  arr    : Nat := 0
  cnta   : Nat := 0
  expa   : Nat := 0
  start  : Nat
  expiry : Nat
  off    : Nat := 0
  gang   : Nat := 0
  home   : Nat

/-- The teams of a group that are DRAINING or RETIRED, by `tix` (R235 EXITMASK). -/
def State.exitMask (s : State) (g : Group) : Nat :=
  (List.range g.teams.length).foldl (fun m i =>
    match alook (g.teams.getD i 0) s.teams with
    | some t => if t.st = .draining ∨ t.st = .retired then m + 2 ^ i else m
    | none => m + 2 ^ i) 0

/-- The teams of a group that a list holds, by `tix`. -/
def tixMask (g : Group) (tids : List Nat) : Nat :=
  (List.range g.teams.length).foldl (fun m i => if tids.contains (g.teams.getD i 0) then m + 2 ^ i else m) 0

/-- The sixteen words of a diagnostic record (R235). -/
def Diag.words (s : State) (d : Diag) (t : Team) (g : Group) : List W64 :=
  let n (x : Nat) : W64 := BitVec.ofNat 64 x
  [n (d.phase * 2 ^ 32 + d.id * 2 ^ 16 + d.scope * 2 ^ 8 + d.kind),
   n (d.cntb * 2 ^ 32 + d.expb),
   n (s.exitMask g * 2 ^ 48 + d.arr * 2 ^ 32 + d.cnta * 2 ^ 16 + d.expa),
   n d.start, n d.expiry,
   n (d.off * 2 ^ 32 + d.gang * 2 ^ 16 + t.tix),
   s.origPc t.gid t.pc, s.addrOf t.pc,
   n (d.home * 2 ^ 16 + s.wdogCycles g.ctx g.region / 1024)] ++ List.replicate 7 0

/-- A team stopped by a watchdog, with its diagnostic record. -/
def State.watchTrap (s : State) (tid : Nat) (x : Trap) (d : Diag) : State :=
  match alook tid s.teams with
  | some t =>
    match alook t.gid s.groups with
    | some g => s.stopTeam tid { x with diag := d.words s t g }
    | none => s
  | none => s

/-! ## An instruction issued again -/

/-- A waiting team issues the instruction it waits at again, by its form: READY first, as its wait is over. -/
def State.reissue (s : State) (a : Agent) (f : State → Env → Team → Except Trap State) : State :=
  match s.agent a with
  | none => s
  | some t =>
    let t1 : Team := { t with st := .ready, wait := .none }
    let s1 := s.setAgent a t1
    match f s1 (s1.env a) t1 with
    | .ok s2 => s2
    | .error x => s1.trapAt a x

/-- A team READY again at the word it waited at. -/
def State.release (s : State) (tid : Nat) : State :=
  match alook tid s.teams with
  | some t => { s with teams := aset tid { t with st := .ready, wait := .none } s.teams }
  | none => s

/-- A team that goes on after the word it waited at, with a scalar written. -/
def State.goOn (s : State) (tid : Nat) (d : Reg) (x : W64) (n : Nat) : State :=
  match alook tid s.teams with
  | some t =>
    { s with teams := aset tid (({ t with st := .ready, wait := .none } : Team).writeScalar d x |>.advance n) s.teams }
  | none => s

end Sys2Proof.Machine
end

