-- ==== Sys2Proof/Machine/Budget.lean ====
section
/-!
DEFINITION. What the budgets of regions count (R165, R218, R254): cores, barrier entries, queue entries, register-file bytes and
scratch bytes, each at every block of a chain that has the budget as its own.
-/
namespace Sys2Proof.Machine

/-- The blocks of a chain that have budget field i as their own, with the block; the root has every field (R254). -/
def State.owners (s : State) (ctx region i : Nat) : List (Nat × Rcb) :=
  (s.chain ctx region).filterMap fun a =>
    match s.rcbAt ctx a with
    | some r => if r.parent == 0 || bitAt r.ovr i then some (a, r) else none
    | none => none

/-- A region lies in the subtree of a block. -/
def State.inSubtree (s : State) (ctx region addr : Nat) : Bool := (s.chain ctx region).contains addr

/-- A tile's size as it counts: rounded up to 1 KiB (R165). -/
def Tile.occupied (t : Tile) : Nat := (t.size + 1023) / 1024 * 1024

/-- A sum over a list. -/
def sumOf {α : Type} (f : α → Nat) (l : List α) : Nat := l.foldl (fun n x => n + f x) 0

/-- A group stands in a bank. -/
def Group.resident (g : Group) : Bool :=
  match g.place with
  | .bank _ _ => true
  | .cellar _ => false

/-- The resident groups of the subtree of a block. -/
def State.groupsIn (s : State) (ctx addr : Nat) : List (Nat × Group) :=
  s.groups.filter fun e => e.2.ctx == ctx && e.2.resident && s.inSubtree ctx e.2.region addr

/-- Scratch bytes in use in the subtree of a block (R165). -/
def State.scratchUsed (s : State) (ctx addr : Nat) : Nat :=
  sumOf (fun e => e.2.l0 + e.2.l1) (s.groupsIn ctx addr) +
  sumOf (fun e => if e.2.gid == none && e.2.ctx == ctx && s.inSubtree ctx e.2.region addr then Tile.occupied e.2 else 0) s.tiles

/-- n more scratch bytes fit the budgets of a region (R165, R254). -/
def State.scratchFits (s : State) (ctx region n : Nat) : Bool :=
  (s.owners ctx region 4).all fun o => Nat.ble (s.scratchUsed ctx o.1 + n) o.2.scrb

/-- Register-file bytes in use in the subtree of a block. -/
def State.regBytesUsed (s : State) (ctx addr : Nat) : Nat := sumOf (fun e => e.2.foot) (s.groupsIn ctx addr)

/-- n more register-file bytes fit (R254). -/
def State.regBytesFit (s : State) (ctx region n : Nat) : Bool :=
  (s.owners ctx region 3).all fun o => Nat.ble (s.regBytesUsed ctx o.1 + n) o.2.vrfb

/-- Barrier entries in use in the subtree of a block (R218): a group's until it retires or is killed, in a cellar too; and the shared ones. -/
def State.barsUsed (s : State) (ctx addr : Nat) : Nat :=
  sumOf (fun (e : Nat × Group) => if e.2.ctx == ctx && s.inSubtree ctx e.2.region addr then e.2.nb else 0) s.groups +
  sumOf (fun e => match alook e.2.launch s.launches with
    | some l => if l.ctx == ctx && s.inSubtree ctx l.region addr then 1 else 0
    | none => 0) s.bars

/-- n more barrier entries fit (R218, R254). -/
def State.barsFit (s : State) (ctx region n : Nat) : Bool :=
  (s.owners ctx region 1).all fun o => Nat.ble (s.barsUsed ctx o.1 + n) o.2.bars

/-- A list without its repeats. -/
def nub (l : List Nat) : List Nat := l.foldr (fun x r => if r.contains x then r else x :: r) []

/-- The cores on which the subtree of a block holds groups. -/
def State.coresUsed (s : State) (ctx addr : Nat) : List Nat := nub ((s.groupsIn ctx addr).map fun e => e.2.place.core)

/-- A group more on a core fits the budgets of cores (R254). -/
def State.coreFits (s : State) (ctx region core : Nat) : Bool :=
  (s.owners ctx region 0).all fun o =>
    Nat.ble ((s.coresUsed ctx o.1).length + b2n (!(s.coresUsed ctx o.1).contains core)) o.2.cores

/-- The entries of the QENT class that the queues of the subtree of a block hold on a die (R260). -/
def State.queueUsed (s : State) (ctx die addr : Nat) : Nat :=
  sumOf (fun (q : RunQueue) => if q.ctx == ctx && q.die == die && s.inSubtree ctx q.region addr then
    (q.entries.filter fun e => !e.reserve).length else 0) s.queues

/-- One more entry of the QENT class fits the budgets of queue entries on a die (R254, R263). -/
def State.queueFits (s : State) (ctx region die : Nat) : Bool :=
  (s.owners ctx region 2).all fun o => Nat.blt (s.queueUsed ctx die o.1) o.2.qent

end Sys2Proof.Machine
end

