-- ==== Sys2Proof/Machine/Tile.lean ====
section
/-!
DEFINITION. Tiles (R164 to R178): TALLOC, TFREE, TRD, TWR, TSTAT, the wait for granules, and the cellar engine's spills and
restores (R308).
-/
namespace Sys2Proof.Machine

/-! ## TALLOC (R164, R165, R167, R173) -/

/-- The lowest number of a range that a list does not hold. -/
def lowestFree (used : List Nat) (lo n : Nat) : Option Nat := ((List.range n).map fun k => lo + k).find? fun h => !used.contains h

/-- The handles in use, RELEASING ones among them (R166), of a group, or of a launch on a die. -/
def State.usedHandles (s : State) (p : Tile → Bool) : List Nat := (afilter (fun _ t => p t) s.tiles).map fun e => e.2.handle

/-- The bytes of the tiles that satisfy a condition, as they count. -/
def State.occupiedBy (s : State) (p : Tile → Bool) : Nat := sumOf (fun e => if p e.2 then Tile.occupied e.2 else 0) s.tiles

/-- The level's number. -/
def TileLevel.num (l : TileLevel) : Nat :=
  match l with
  | .l0 => 0
  | .l1 => 1
  | .l2 => 2

/-- Every granule of a tile, as a set. -/
def Tile.allGranules (t : Tile) : Nat := 2 ^ (t.size / 16) - 1

/-- A new tile: zero, its granules empty or full (R167, R168). -/
def newTile (e : Env) (l : TileLevel) (h rows rb : Nat) (full : Bool) : Tile :=
  let t : Tile := {
    gid := if l = .l2 then none else some e.gid, launch := e.launch, ctx := e.ctx, region := e.region, die := e.die, level := TileLevel.num l, handle := h
    rows := rows, rb := rb, bytes := [], rels := [], full := 0, releasing := false, cellar := 0 }
  if full then { t with full := t.allGranules } else t

/-- The handle that TALLOC gives for a group or launch (R164). -/
def State.freeHandle (s : State) (e : Env) (l : TileLevel) : Option Nat :=
  match l with
  | .l2 => lowestFree (s.usedHandles fun t => t.gid == none && t.launch == e.launch && t.die == e.die) 192 63
  | _ => lowestFree (s.usedHandles fun t => t.gid == some e.gid) 0 192

/-- A tile of n bytes fits (R165). -/
def State.tileFits (s : State) (e : Env) (l : TileLevel) (n : Nat) : Bool :=
  let own (k : Nat) : Nat := s.occupiedBy fun t => t.gid == some e.gid && t.level == k
  match l, alook e.gid s.groups with
  | .l0, some g => Nat.ble (own 0 + n) g.l0
  | .l1, some g => Nat.ble (own 1 + n) g.l1
  | .l2, _ => Nat.ble (s.occupiedBy (fun t => t.level == 2 && t.die == e.die) + n) Config.poolBytes &&
      s.scratchFits e.ctx e.region n
  | _, none => false

/-- A shape register. -/
def Team.shape (t : Team) (n : Fin 4) : Shape :=
  match n with
  | 0 => t.sh0
  | 1 => t.sh1
  | 2 => t.sh2
  | 3 => t.sh3

/-- TALLOC (R173). -/
def execTalloc (full : Bool) (l : TileLevel) (d : Reg) (sh : Fin 4) (s : State) : Host.Outcome State Fault Refusal :=
  runState s fun e t => do
    needOperand (isScaDst d && !t.ctl)
    let q := t.shape sh
    need (q.kind == .tile) (Trap.of .shape)
    match s.freeHandle e l with
    | none => .ok (s.setAgent e.ag ((t.writeScalar d 0x1FF).advance 1))
    | some h =>
      let x := newTile e l h q.d0 q.d1 full
      if s.tileFits e l x.occupied then
        .ok ({ s with tiles := aset s.nextId x s.tiles, nextId := s.nextId + 1 }.setAgent e.ag
          ((t.writeScalar d (BitVec.ofNat 64 h)).advance 1))
      else .ok (s.setAgent e.ag ((t.writeScalar d (if l = .l2 then 0x3FF else 0x2FF)).advance 1))

/-! ## The granule wait (R168 to R170, R308) -/

/-- What TRD and TWR need of a granule before they issue. -/
inductive Need where
  | full | empty | none
  deriving DecidableEq, Repr

/-- A granule is in the state that an instruction needs: one in the cellar reads as empty (R170). -/
def Tile.granuleOk (x : Tile) (n : Need) (g : Nat) : Bool :=
  match n with
  | .full => bitAt x.full g && !bitAt x.cellar g
  | .empty => !bitAt x.full g || bitAt x.cellar g
  | .none => true

/-- The granules of a segment of `rows` rows of n elements (R204, R209). -/
def Tile.segment (x : Tile) (rows n : Nat) : List Nat := (List.range rows).flatMap fun j => granulesOf (j * x.rb) (4 * n)

/-- A granule of a tile belongs to a segment whose MMA or MZERO has not completed (R209, R213). -/
def State.mqOwes (s : State) (k : Nat) (x : Tile) (g : Nat) : Bool :=
  aany (fun _ m => match m.kind with
    | .mma _ => m.parts.any fun p => p.acc == k && (x.segment p.rows.length m.n).contains g
    | .mzero => m.a == k && (x.segment m.m m.n).contains g
    | .mdrain _ _ => false) s.mqs

/-- A granule is ready for an instruction: a TRD that needs it full waits for every operation that is to write it, and a TWR writes to it at
once while one is (R209, R213). -/
def State.granuleReady (s : State) (k : Nat) (x : Tile) (n : Need) (g : Nat) : Bool :=
  match n with
  | .full => x.granuleOk .full g && !s.mqOwes k x g
  | .empty => x.granuleOk .empty g || s.mqOwes k x g
  | .none => true

/-- A set of granules put in or taken out. -/
def setBits (m : Nat) (gs : List Nat) : Nat := gs.foldl (fun x g => Nat.lor x (2 ^ g)) m
def clearBits (m : Nat) (gs : List Nat) : Nat := gs.foldl (fun x g => x - Nat.land x (2 ^ g)) m

/-- A tile with granules restored from the cellar (R308). -/
def Tile.restore (x : Tile) (gs : List Nat) : Tile := { x with cellar := clearBits x.cellar gs }

/-- The accesses of a TRD or TWR: each lane with its offset. -/
def tileLanes (e : Env) (t : Team) (b : Src) (per : Bool) : List (Nat × Nat) :=
  (memLanes t per).map fun l => (l, (srcLane e t b l).toNat)

/-- The checks of R176 that come before the wait. -/
def tileCheck (s : State) (e : Env) (t : Team) (a : Src) (per : Bool) (w : Nat) (ls : List (Nat × Nat)) :
    Except Trap (Nat × Tile) := do
  let bad (p : Nat → Bool) : List (Nat × Nat) := ls.filter fun l => p l.2
  let mask (b : List (Nat × Nat)) : Option LaneMask := if per then some (maskOf (b.map fun l => l.1)) else none
  match s.tileOf e.gid e.launch e.die (srcScalar e t a).toNat with
  | none => .error (Trap.of .tile)
  | some (k, x) =>
    let ba := bad fun o => o % w != 0
    need ba.isEmpty { cause := .align, mask := mask ba, addr := BitVec.ofNat 64 ((ba.headD (0, 0)).2) }
    let bt := bad fun o => Nat.blt x.size (o + w)
    need bt.isEmpty { cause := .tile, mask := mask bt }
    .ok (k, x)

/-- A team that begins to wait for granules. -/
def State.waitGranule (s : State) (e : Env) (t : Team) (i : Instr) (k : Nat) : State :=
  s.setAgent e.ag { t with st := .waiting, wait := .granule i k, since := (s.core e.core).count }

/-- A tile reference as the address of a lane (R179). -/
def tileAddr (h off : Nat) : W64 := BitVec.ofNat 64 (0xFF * 2 ^ 56 + h * 2 ^ 48 + off)

/-! ## TRD and TWR (R175, R176) -/

/-- What a TRD needs of its granules (R168). -/
def TrdQ.need (q : TrdQ) : Need :=
  match q with
  | .keep | .take => .full
  | .peek => .none

/-- The lanes of a TRD whose values stand in its destination at once, as the part chooses (R29). -/
def State.putSome (s : State) (id : Nat) (o : PendOp) : State :=
  let r := o.lanes.foldl (fun (acc : State × PendOp) l =>
    let q := acc.1.putEarly o l
    (q.1, acc.2.setLane q.2)) (s, o)
  { r.1 with pend := aset id r.2 r.1.pend }

/-- TRD: performed at its issue, after every open acquire of its team (R241, R244). -/
def trdForm (wide : Bool) (q : TrdQ) (d : Reg) (a b : Src) (s : State) (e : Env) (t : Team) : Except Trap State := do
  checkScalars t [a]
  checkSrcs t [b]
  needOperand (okDst t d && (!wide || okPairDst t d) && (isVecDst d || !isVec t b))
  if isVecDst d then
    checkSh0 t
  let w := if wide then 8 else 4
  let ls := tileLanes e t b (isVecDst d)
  let (k, x) ← tileCheck s e t a (isVecDst d) w ls
  let n := 1 + a.words + b.words
  let gs := ls.map fun l => l.2 / 16
  if ls.isEmpty then .ok (s.setAgent e.ag (t.countOff.advance n))
  else if !(s.stillOpen e.ag t false).isEmpty then .ok (s.waitOrder e t (s.stillOpen e.ag t false))
  else if gs.all fun g => s.granuleReady k x (TrdQ.need q) g then
    let x1 := x.restore gs
    let x2 := if q = .take then { x1 with full := clearBits x1.full gs } else x1
    let lanes := ls.map fun l => ({
      lane := l.1, va := tileAddr x.handle l.2, tgt := .tile k l.2, n := w, x := 0, y := 0, st := .done
      res := BitVec.ofNat 64 (leValue (fun i => sget x.bytes i) l.2 w), via := none, put := false } : LaneAcc)
    let s1 : State := { s with tiles := aset k x2 s.tiles }
    let o := s1.newOp e t (.trd wide) false false 0 lanes (some t.nextFlag) (dstOf t d wide)
    .ok ((s1.post e (t.countOn.advance n) o).putSome s1.nextId o)
  else .ok (s.waitGranule e t (.trd wide q d a b) k)

/-- TRD (R175). -/
def execTrd (wide : Bool) (q : TrdQ) (d : Reg) (a b : Src) (s : State) : Host.Outcome State Fault Refusal :=
  runState s (trdForm wide q d a b s)

/-- What a TWR needs of its granules (R168). -/
def TwrQ.need (q : TwrQ) : Need :=
  match q with
  | .put => .empty
  | .fill | .raw => .none

/-- TWR: lanes in ascending order, so that the highest-numbered lane's bytes stand. -/
def twrForm (wide : Bool) (q : TwrQ) (x a b : Src) (s : State) (e : Env) (t : Team) : Except Trap State := do
  checkScalars t [a]
  checkSrcs t [x, b]
  needOperand (!wide || okPairSrc t x)
  let per := isVec t x || isVec t b
  if per then
    checkSh0 t
  let w := if wide then 8 else 4
  let ls := tileLanes e t b per
  let (k, y) ← tileCheck s e t a per w ls
  let gs := ls.map fun l => l.2 / 16
  if !ls.isEmpty && !(s.stillOpen e.ag t false).isEmpty then .ok (s.waitOrder e t (s.stillOpen e.ag t false))
  else if gs.all fun g => s.granuleReady k y (TwrQ.need q) g then
    let data (l : Nat) : Nat := if wide then (srcLane64 e t x l).toNat else (srcLane e t x l).toNat
    let y1 := y.restore gs
    let y2 : Tile := { ls.foldl (fun (u : Tile) (l : Nat × Nat) => u.put l.2 (leBytes (data l.1) w)) y1 with
      full := if q = .raw then y1.full else setBits y1.full gs }
    let s1 := ls.foldl (fun (st : State) (l : Nat × Nat) => st.operandSeen none k l.2 w) { s with tiles := aset k y2 s.tiles }
    .ok (s1.setAgent e.ag (t.advance (1 + x.words + a.words + b.words)))
  else .ok (s.waitGranule e t (.twr wide q x a b) k)

/-- TWR (R175). -/
def execTwr (wide : Bool) (q : TwrQ) (x a b : Src) (s : State) : Host.Outcome State Fault Refusal :=
  runState s (twrForm wide q x a b s)

/-- TRD_COMPLETE (R27, R326): lanes found in error are not written, and the error is delivered. -/
def execTrdComplete (op : Nat) (bad : List Nat) (s : State) : Host.Outcome State Fault Refusal :=
  runEvent s do
    let o ← alook op s.pend
    let o1 : PendOp := { o with
      lanes := o.lanes.map fun l => if bad.contains l.lane then { l with st := .failed } else l }
    if (match o.kind with
        | .trd _ => true
        | _ => false) && !(o1.error.isSome && s.ramping (s.agentCore o.ag)) then
      let s1 : State := { s with pend := adel op s.pend }
      some (if o.killed then s1 else s1.finishOp o.ag o1)
    else none

/-! ## TFREE and TSTAT (R174, R177) -/

/-- The teams that wait for granules of a tile end their wait with TILE (R170). -/
def State.endGranuleWaits (s : State) (k : Nat) : State :=
  s.teams.foldl (fun (st : State) (e : Nat × Team) =>
    match e.2.wait with
    | .granule _ j => if j = k then st.stopTeam e.1 (Trap.of .tile) else st
    | _ => st) s

/-- TFREE (R174). -/
def execTfree (a : Src) (s : State) : Host.Outcome State Fault Refusal :=
  runState s fun e t => do
    checkScalars t [a]
    match s.tileOf e.gid e.launch e.die (srcScalar e t a).toNat with
    | none => .error (Trap.of .tile)
    | some (k, _) =>
      .ok (((s.setAgent e.ag (t.advance (1 + a.words))).endGranuleWaits k).releaseTiles fun j _ => j == k)

/-- The record of a tile (R177). A granule still in the cellar counts as it was spilled: NFULL does not wait for its restore (DESIGN CHOICE,
log entry 54). -/
def Tile.record (x : Tile) (pend : Bool) : W64 :=
  BitVec.ofNat 64 (2 ^ 63 + x.level * 2 ^ 61 + b2n pend * 2 ^ 60 + popCount x.full (x.size / 16) * 2 ^ 41 + x.rows * 2 ^ 30
    + x.rb * 2 ^ 17 + x.handle)

/-- TSTAT (R177). -/
def execTstat (d : Reg) (a : Src) (s : State) : Host.Outcome State Fault Refusal :=
  runAgent s (1 + a.words) fun e t => do
    checkScalars t [a]
    needOperand (isScaDst d)
    match s.tileOf e.gid e.launch e.die (srcScalar e t a).toNat with
    | none => .ok (t.writeScalar d 0)
    | some (k, x) => .ok (t.writeScalar d (x.record (s.tileInUse k)))

/-! ## The ends of a granule wait (R169, R170) -/

/-- The form of an instruction that waits for granules. -/
def granuleForm (i : Instr) : Option (State → Env → Team → Except Trap State) :=
  match i with
  | .trd wide q d a b => some (trdForm wide q d a b)
  | .twr wide q x a b => some (twrForm wide q x a b)
  | _ => none

/-- A team waits for granules. -/
def State.granuleWaiter (s : State) (tid : Nat) : Bool :=
  match alook tid s.teams with
  | some t => t.st == .waiting && (match t.wait with
      | .granule _ _ => true
      | _ => false)
  | none => false

/-- GRANULE_WAIT_END (R169): the instruction issues, its granules being ready. -/
def execGranuleWaitEnd (tid : Nat) (s : State) : Host.Outcome State Fault Refusal :=
  runEvent s do
    let t ← alook tid s.teams
    match t.st, t.wait with
    | .waiting, .granule i _ =>
      let f ← granuleForm i
      let s1 := s.reissue (.team tid) f
      if s.mayIssue tid && !s1.granuleWaiter tid then some s1 else none
    | _, _ => none

/-- The offsets and the need of a waiting TRD or TWR. -/
def granuleNeeds (e : Env) (t : Team) (i : Instr) : List (Nat × Nat) × Need × Bool :=
  match i with
  | .trd _ q d _ b => (tileLanes e t b (isVecDst d), TrdQ.need q, isVecDst d)
  | .twr _ q x _ b => (tileLanes e t b (isVec t x || isVec t b), TwrQ.need q, isVec t x || isVec t b)
  | _ => ([], .none, false)

/-- BARRIER-TIMEOUT, the fault mask naming the lanes whose granules were not ready (R170). -/
def State.granuleTimeout (s : State) (tid : Nat) : Option State := do
  let t ← alook tid s.teams
  match t.st, t.wait with
  | .waiting, .granule i k =>
    let x ← alook k s.tiles
    let e := s.env (.team tid)
    let (ls, n, per) := granuleNeeds e t i
    let bad := ls.filter fun l => !s.granuleReady k x n (l.2 / 16)
    if s.expired tid t.since && !bad.isEmpty then
      some (s.watchTrap tid
        { cause := .barrierTimeout, mask := if per then some (maskOf (bad.map fun l => l.1)) else none
          count := some (s.expiry tid t.since) }
        { kind := 1, id := x.handle, start := t.since, expiry := s.expiry tid t.since, home := e.core
          off := (bad.foldl (fun (m : Nat) l => min m (l.2 / 16)) (x.size / 16)) * 16 })
    else none
  | _, _ => none

/-- GRANULE_WAIT_TIMEOUT. -/
def execGranuleWaitTimeout (tid : Nat) (s : State) : Host.Outcome State Fault Refusal := runEvent s (s.granuleTimeout tid)

/-! ## The cellar engine (R308) -/

/-- The bytes at a level that the tiles of a core hold outside the cellar. -/
def State.levelHeld (s : State) (core level : Nat) : Nat :=
  sumOf (fun (e : Nat × Tile) =>
    match e.2.gid with
    | some gid =>
      match alook gid s.groups with
      | some g => if e.2.level == level && g.resident && g.place.core == core then
          16 * (e.2.size / 16 - popCount e.2.cellar (e.2.size / 16)) else 0
      | none => 0
    | none => 0) s.tiles

/-- The place of a tile's group. -/
def State.tilePlace (s : State) (x : Tile) : Option Place :=
  match x.gid with
  | some gid => (alook gid s.groups).map fun g => g.place
  | none => none

/-- TILE_RESTORE: a granule of a tile of the active bank, where its level has room. -/
def execTileRestore (tile granule : Nat) (s : State) : Host.Outcome State Fault Refusal :=
  runEvent s do
    let x ← alook tile s.tiles
    let p ← s.tilePlace x
    match p with
    | .bank c b =>
      if b == (s.core c).act && bitAt x.cellar granule &&
          Nat.ble (s.levelHeld c x.level + 16) (if x.level = 0 then Config.l0Bytes else Config.l1Bytes) then
        some { s with tiles := aset tile (x.restore [granule]) s.tiles }
      else none
    | .cellar _ => none

/-- TILE_SPILL: a tile of a bank that is not active, moved to the cellar, once no matrix operation that has begun names it (R216). -/
def execTileSpill (tile : Nat) (s : State) : Host.Outcome State Fault Refusal :=
  runEvent s do
    let x ← alook tile s.tiles
    let p ← s.tilePlace x
    match p with
    | .bank c b =>
      if b != (s.core c).act && x.cellar != x.allGranules && !aany (fun _ m => m.begun && m.names tile) s.mqs then
        some { s with tiles := aset tile { x with cellar := x.allGranules } s.tiles }
      else none
    | .cellar _ => none

end Sys2Proof.Machine
end

