-- ==== Sys2Proof/Machine/Shape.lean ====
section
/-!
DEFINITION. Shapes and grants (R149 to R159), gangs (R201), and RDCURVE (R67).
-/
namespace Sys2Proof.Machine

/-! ## Gangs (R201, R152) -/

/-- The gang size: the bits set in the gang register, or 1 with no gang (R152). -/
def Team.gangSize (t : Team) : Nat := if t.gang = 0 then 1 else popCount t.gang.toNat 16

/-- The rank of a team in its gang (R201). -/
def Team.rank (t : Team) : Nat := popCount t.gang.toNat t.tix

/-- The team count of a group. -/
def State.teamCount (s : State) (gid : Nat) : Nat :=
  match alook gid s.groups with
  | some g => g.teams.length
  | none => 0

/-- The conditions of R201 on a gang's mask. -/
def gangOk (m tix teams : Nat) : Bool :=
  Nat.blt m (2 ^ 16) && (m == 0 ||
    (Nat.ble 2 (popCount m 16) && Nat.ble (popCount m 16) 6 && bitAt m tix && Nat.blt m (2 ^ teams)))

/-- GANG (R201). -/
def execGang (a : Src) (s : State) : Host.Outcome State Fault Refusal :=
  runAgent s (1 + a.words) fun e t => do
    checkScalars t [a]
    needOperand (!t.ctl)
    let m := (srcScalar e t a).toNat
    needOperand (gangOk m t.tix (s.teamCount e.gid))
    .ok { t with gang := BitVec.ofNat 16 m }

/-! ## Grants (R152, R153) -/

/-- The inputs of a grant besides the request and policy: point, class, TW and gang size (R152). -/
structure GrantAt where
  cp  : Nat
  clt : Bool
  tw  : Nat
  g   : Nat
  deriving DecidableEq, Repr

/-- The dimensions of a request or grant. -/
structure Dims where
  d0 : Nat
  d1 : Nat
  d2 : Nat
  deriving DecidableEq, Repr

/-- One dimension of a matrix grant (R153 dim). -/
def grantDim (r nat max : Nat) : Nat := if r < nat then r else nat * (min r max / nat)

/-- The dimensions that a request value gives (R152). -/
def reqDims (k : ReqKind) (x : W64) : Dims :=
  let n := x.toNat
  match k with
  | .vec => { d0 := bits n 15 0, d1 := 0, d2 := 0 }
  | .tile => { d0 := bits n 15 0, d1 := bits n 31 16, d2 := 0 }
  | .mat => { d0 := bits n 15 0, d1 := bits n 31 16, d2 := bits n 47 32 }

/-- A vector grant (R153). -/
def grantVec (w : GrantAt) (r : Dims) (p : Pol) : Option Dims :=
  let vl := if p = .onepass then min (min r.d0 w.tw) (Config.pw w.cp w.clt) else min r.d0 w.tw
  if p = .exact ∧ vl < r.d0 then none else some { d0 := vl, d1 := 0, d2 := 0 }

/-- A tile grant (R153). -/
def grantTile (r : Dims) (p : Pol) : Option Dims :=
  let rows := min r.d0 1024
  let bytes := min (16 * ((r.d1 + 15) / 16)) 4096
  if p = .onepass ∨ r.d0 = 0 ∨ r.d1 = 0 ∨ (p = .exact ∧ (rows < r.d0 ∨ bytes < r.d1)) then none
  else some { d0 := rows, d1 := bytes, d2 := 0 }

/-- A matrix grant (R153). -/
def grantMat (w : GrantAt) (r : Dims) (p : Pol) : Option Dims :=
  let natM := Config.natM w.cp
  let natN := Config.natN w.cp w.clt
  let m0 := grantDim r.d0 natM (natM * w.g)
  let m := if 1 < w.g then w.g * (m0 / w.g) else m0
  let d : Dims := { d0 := m, d1 := grantDim r.d1 natN (2 * natN), d2 := grantDim r.d2 16 512 }
  if p = .onepass ∨ r.d0 = 0 ∨ r.d1 = 0 ∨ r.d2 = 0 ∨ m = 0 ∨ (p = .exact ∧ d ≠ r) then none else some d

/-- The grant of R153; none where it raises SHAPE. -/
def grant (w : GrantAt) (k : ReqKind) (r : Dims) (p : Pol) : Option Dims :=
  match k with
  | .vec => grantVec w r p
  | .tile => grantTile r p
  | .mat => grantMat w r p

/-- A granted dimension is below its request (R153 SHORT). -/
def isShort (r d : Dims) : Bool := Nat.blt d.d0 r.d0 || Nat.blt d.d1 r.d1 || Nat.blt d.d2 r.d2

/-- The kind of a request as a shape's kind. -/
def ReqKind.shape (k : ReqKind) : ShapeKind :=
  match k with
  | .vec => .vec
  | .tile => .tile
  | .mat => .mat

/-- The place and team of a grant. -/
def grantAt (e : Env) (t : Team) : GrantAt := { cp := e.cp, clt := e.clt, tw := t.tw, g := t.gangSize }

/-- The shape that a grant makes (R157). -/
def shapeOf (w : GrantAt) (k : ReqKind) (p : Pol) (r d : Dims) : Shape :=
  { kind := ReqKind.shape k, pol := p, short := isShort r d, stale := false, clt := w.clt, cp := w.cp
    gsz := if k = .mat then w.g else 1, d0 := d.d0, d1 := d.d1, d2 := d.d2 }

/-- The value that SETSHAPE writes to d (R157). -/
def Shape.granted (x : Shape) : W64 := BitVec.ofNat 64 (b2n x.short * 2 ^ 63 + x.d2 * 2 ^ 32 + x.d1 * 2 ^ 16 + x.d0)

/-- A shape register written. -/
def Team.setShape (t : Team) (n : Fin 4) (x : Shape) : Team :=
  match n with
  | 0 => { t with sh0 := x }
  | 1 => { t with sh1 := x }
  | 2 => { t with sh2 := x }
  | 3 => { t with sh3 := x }

/-! ## SETSHAPE and RDSHAPE (R157, R158) -/

/-- A team's group is marked for a balancer move (R161). -/
def State.marked (s : State) (gid : Nat) : Bool :=
  match alook gid s.groups with
  | some g => g.mark.isSome
  | none => false

/-- SETSHAPE (R157). -/
def setshapeForm (k : ReqKind) (d : Reg) (a : Src) (p : Pol) (sh : Fin 4) (s : State) (e : Env) (t : Team) :
    Except Trap State := do
  checkScalars t [a]
  needOperand (isScaDst d && !t.ctl)
  need (k == .vec || sh != 0) (Trap.of .shape)
  let w := grantAt e t
  let r := reqDims k (srcScalarX e t false a)
  match grant w k r p with
  | none => .error (Trap.of .shape)
  | some g =>
    let x := shapeOf w k p r g
    .ok (s.setAgent e.ag (((t.setShape sh x).writeScalar d x.granted).advance (1 + a.words)))

/-- SETSHAPE is held before it executes while its team's group is marked for a move (R161). -/
def execSetshape (k : ReqKind) (d : Reg) (a : Src) (p : Pol) (sh : Fin 4) (s : State) : Host.Outcome State Fault Refusal :=
  runState s fun e t =>
    if !t.ctl && s.marked e.gid then
      .ok (s.setAgent e.ag { t with st := .waiting, wait := .setshape (.setshape k d a p sh) })
    else setshapeForm k d a p sh s e t

/-- The kinds of R150. -/
def ShapeKind.code (k : ShapeKind) : Nat :=
  match k with
  | .none => 0
  | .vec => 1
  | .tile => 2
  | .mat => 3

/-- The policies of R150. -/
def Pol.code (p : Pol) : Nat :=
  match p with
  | .fit => 0
  | .exact => 1
  | .onepass => 2

/-- The record of a shape register (R150). -/
def Shape.record (x : Shape) : W64 :=
  BitVec.ofNat 64 (b2n x.stale * 2 ^ 63 + b2n x.short * 2 ^ 62 + x.kind.code * 2 ^ 60 + Pol.code x.pol * 2 ^ 58
    + b2n x.clt * 2 ^ 57 + x.cp * 2 ^ 54 + x.gsz * 2 ^ 51 + x.d2 * 2 ^ 32 + x.d1 * 2 ^ 16 + x.d0)

/-- RDSHAPE (R158). -/
def execRdshape (d : Reg) (sh : Fin 4) (s : State) : Host.Outcome State Fault Refusal :=
  runAgent s 1 fun _ t => do
    needOperand (isScaDst d)
    .ok (t.writeScalar d (t.shape sh).record)

/-! ## Staleness (R151, R154) -/

/-- A shape as it stands at a place: stale where the grant depended on another (R154). A matrix grant whose gang size differs is stale on a
return to the same class and point too, as R154's second bullet says and R163's last sentence does not (DESIGN CHOICE, log entry 73). -/
def Shape.check (x : Shape) (cp : Nat) (clt : Bool) (g : Nat) : Shape :=
  let depends := match x.kind with
    | .mat => true
    | .vec => x.pol == .onepass
    | .tile | .none => false
  if depends && (x.cp != cp || x.clt != clt || (x.kind == .mat && x.gsz != g)) then { x with stale := true } else x

/-- A team's shapes checked at a place. -/
def Team.checkShapes (t : Team) (cp : Nat) (clt : Bool) : Team :=
  let f (x : Shape) : Shape := x.check cp clt t.gangSize
  { t with sh0 := f t.sh0, sh1 := f t.sh1, sh2 := f t.sh2, sh3 := f t.sh3 }

/-- The shapes of the teams in a bank of a core checked at the core's place. -/
def State.checkBank (s : State) (core b : Nat) : State :=
  { s with teams := amap (fun _ t =>
      match alook t.gid s.groups with
      | some g => if g.place == .bank core b then t.checkShapes (s.core core).point (s.classT core) else t
      | none => t) s.teams }

/-! ## RDCURVE (R67) -/

/-- RDCURVE's record. -/
def curveRecord (e : Env) : W64 :=
  BitVec.ofNat 64 (Config.natN e.cp e.clt * 2 ^ 48 + Config.natM e.cp * 2 ^ 32 + e.pw * 2 ^ 16 + Config.mhz e.cp * 2 ^ 4
    + b2n e.clt * 2 ^ 3 + e.cp)

/-- RDCURVE. -/
def execRdcurve (d : Reg) (s : State) : Host.Outcome State Fault Refusal :=
  runAgent s 1 fun e t => do
    needOperand (isScaDst d)
    .ok (t.writeScalar d (curveRecord e))

end Sys2Proof.Machine
end

