-- ==== Sys2Proof/Machine/Curve.lean ====
section
/-!
DEFINITION. The curve point (R60 to R71): CURVE, the core's decision and ramp, the states of the matrix engine (R68) and MHINT
(R69).
-/
namespace Sys2Proof.Machine

/-! ## CURVE and the decision (R64, R65) -/

/-- CURVE: the team waits at it (R65). -/
def execCurve (d : Reg) (p : BitVec 3) (acc : BitVec 6) (s : State) : Host.Outcome State Fault Refusal :=
  runState s fun e t => do
    needOperand (isScaDst d && !t.ctl)
    needOperand (Nat.blt p.toNat 6 && acc != 0 && bitAt acc.toNat p.toNat)
    .ok (s.setAgent e.ag { t with
      st := .waiting, wait := .curve d p.toNat acc.toNat, since := (s.core e.core).count })

/-- The teams of the active bank of a core. -/
def State.activeTeams (s : State) (core : Nat) : List (Nat × Team) :=
  s.teams.filter fun e => match alook e.2.gid s.groups with
    | some g => g.place == .bank core (s.core core).act
    | none => false

/-- A CURVE that a team waits at: its destination, P and A. -/
def Team.curveWait (t : Team) : Option (Reg × Nat × Nat) :=
  match t.st, t.wait with
  | .waiting, .curve d p a => some (d, p, a)
  | _, _ => none

/-- A team waits at a CURVE. -/
def Team.atCurve (t : Team) : Bool := t.curveWait.isSome

/-- The teams of a core that wait at a CURVE. -/
def State.curveTeams (s : State) (core : Nat) : List (Nat × Team) := (s.activeTeams core).filter fun e => e.2.atCurve

/-- The one that has waited longest: notice stands from its arrival (R66). -/
def firstWaiter (l : List (Nat × Team)) : Option (Nat × Team) :=
  l.foldl (fun m e => match m with
    | none => some e
    | some f => if e.2.since < f.2.since then some e else some f) none

/-- The one in the lowest team slot. -/
def lowestSlot (l : List (Nat × Team)) : Option (Nat × Team) :=
  l.foldl (fun m e => match m with
    | none => some e
    | some f => if e.2.slot < f.2.slot then some e else some f) none

/-- The points from lo to hi as a mask. -/
def rangeMask (lo hi : Nat) : Nat := (List.range 6).foldl (fun m i => if lo ≤ i ∧ i ≤ hi then m + 2 ^ i else m) 0

/-- The candidates of R65: what every waiting team accepts, within every resident group's held range, without CP0 on class T. -/
def State.curveCands (s : State) (core : Nat) : Nat :=
  let x := s.core core
  let a := (s.curveTeams core).foldl (fun m e => match e.2.curveWait with
    | some w => Nat.land m w.2.2
    | none => m) 63
  let b := s.groups.foldl (fun (m : Nat) (e : Nat × Group) =>
    if e.2.place == .bank core x.act then Nat.land m (rangeMask e.2.heldLo e.2.heldHi) else m) a
  if s.classT core then Nat.land b 62 else b

/-- The point that R65 chooses. -/
def State.curveChoice (s : State) (core : Nat) : Nat :=
  let x := (s.core core).point
  let c := s.curveCands core
  if c = 0 then x
  else
    let p := match lowestSlot (s.curveTeams core) with
      | some e => match e.2.curveWait with
        | some w => w.2.1
        | none => x
      | none => x
    if bitAt c p then p else ((List.range 6).find? fun i => bitAt c i).getD x

/-- The outcome written to a team's d, and the team past its CURVE (R65). -/
def Team.endCurve (t : Team) (x : Nat) : Team :=
  match t.curveWait with
  | some w =>
    (({ t with st := .ready, wait := .none } : Team).writeScalar w.1
      (BitVec.ofNat 64 (b2n (x != w.2.1) * 2 ^ 63 + x))).advance 1
  | none => t

/-- Every team of a core that waits at a CURVE goes on with a point. -/
def State.endCurves (s : State) (core x : Nat) : State :=
  (s.curveTeams core).foldl (fun (st : State) e => { st with teams := aset e.1 (e.2.endCurve x) st.teams }) s

/-- A core in no move and no swap: a handler that runs, or its CKPT, neither delays a decision nor blocks it (R65). -/
def CoreSt.still (x : CoreSt) : Bool := x.move.isNone && x.swap.isNone

/-- A core in no move, swap or checkpoint. -/
def CoreSt.settled (x : CoreSt) : Bool := x.still && x.ckpt.isNone

/-- Every resident team of the active bank has exited or waits at a CURVE, and came to it within the watchdog, counted from the first team's
arrival (R65). A team that is CARVED is resident, and the decision waits for it (DESIGN CHOICE, log entry 70). Where the teams' groups are of
different regions, it is the first team's region whose watchdog counts (DESIGN CHOICE, log entry 58). -/
def State.curveMet (s : State) (core : Nat) (f : Nat × Team) : Bool :=
  (s.activeTeams core).all fun e => e.2.st == .draining || (e.2.atCurve && Nat.blt e.2.since (s.expiry f.1 f.2.since))

/-- CURVE_DECISION (R65). The teams go on at once where the core stays at its point, else when the move ends (R66). -/
def execCurveDecision (core : Nat) (s : State) : Host.Outcome State Fault Refusal :=
  runEvent s do
    let f ← firstWaiter (s.curveTeams core)
    if (s.core core).still && s.curveMet core f then
      let x := s.curveChoice core
      if x = (s.core core).point then some (s.endCurves core x)
      else some (s.modCore core fun y => { y with move := some { dest := x, notice := f.2.since, ramping := false } })
    else none

/-- The teams were not all waiting within the watchdog (R65). -/
def State.curveAbandon (s : State) (core : Nat) : Option State := do
  let f ← firstWaiter (s.curveTeams core)
  if (s.core core).still && s.expired f.1 f.2.since && !s.curveMet core f then some (s.endCurves core (s.core core).point) else none

/-- CURVE_DECISION_ABANDON. -/
def execCurveDecisionAbandon (core : Nat) (s : State) : Host.Outcome State Fault Refusal := runEvent s (s.curveAbandon core)

/-! ## Correlation records (R362) -/

/-- The four words of a correlation record (R362). -/
def CorrRec.words (r : CorrRec) : List W64 :=
  [BitVec.ofNat 64 (r.kind * 2 ^ 56 + r.cp * 2 ^ 48 + r.core * 2 ^ 16 + r.ctx), BitVec.ofNat 64 r.count, r.ptmt, BitVec.ofNat 64 r.seq]

/-- The ring of R362 has room for a record: it has been named, and the host has taken enough of it. -/
def Firmware.ringRoom (f : Firmware) : Bool := Nat.blt (f.ringPut - f.ringGot) f.ringSize

/-- A record written to the ring by SCHED, where it has room; else it is dropped. -/
def State.writeCorr (s : State) (r : CorrRec) : State :=
  if s.fw.ringRoom then
    let s1 := s.writeAs 0 .none false false [] (.host (s.fw.ringBase + 32 * (s.fw.ringPut % s.fw.ringSize))) (wordBytes r.words)
    { s1 with fw := { s1.fw with corr := s1.fw.corr ++ [r], ringPut := s1.fw.ringPut + 1 } }
  else s

/-- A correlation record of a core: 1 ramp end, 2 swap, 3 periodic. A full ring, or none, drops it, and SEQ moves on; while SCHED is hung it is
owed (R359, R361). PTM's local time is a free value (log entry 6), and 0 while PTM is disabled. -/
def State.correlate (s : State) (core kind : Nat) : State :=
  let x := s.core core
  let r : CorrRec := {
    kind := kind, cp := x.point, core := core, ctx := x.active.ctx.getD 0, count := x.count
    ptmt := if s.fw.ptm then Config.value s.freeN 1 else 0, seq := x.corrSeq }
  let s1 := s.setCore core { x with corrSeq := x.corrSeq + 1 }
  if s.fwUp 1 then s1.writeCorr r else { s1 with fw := { s1.fw with owed := s1.fw.owed ++ [(1, .corr r)] } }

/-! ## The ramp (R66) -/

/-- A core has an operation in its matrix queue. One that a swap saved before it began is not there (R216). -/
def State.mqBusy (s : State) (core : Nat) : Bool :=
  aany (fun _ m => m.core == core && (m.begun || ((s.core core).swap.isNone && (match alook m.gid s.groups with
    | some g => g.place == .bank core (s.core core).act
    | none => true)))) s.mqs

/-- An operation of a core's matrix queue waits to begin (R68): of the active bank, or of a group that was killed. -/
def State.mqWaiting (s : State) (core : Nat) : Bool :=
  (s.core core).swap.isNone && aany (fun _ m => m.core == core && !m.begun && (match alook m.gid s.groups with
    | some g => g.place == .bank core (s.core core).act
    | none => true)) s.mqs

/-- The declarations of a bank's teams dropped (R69). -/
def State.dropHints (s : State) (core b : Nat) : State :=
  { s with teams := amap (fun _ t =>
      match alook t.gid s.groups with
      | some g => if g.place == .bank core b then { t with hint := 0 } else t
      | none => t) s.teams }

/-- The engine as step 2 of a move leaves it, once the core's operations have completed (R66): IDLE, with no declaration held (R69). -/
def State.engineIdle (s : State) (core : Nat) : State :=
  if (s.core core).mat = .idle then s
  else (s.modCore core fun y => { y with mat := .idle, matAt := y.count }).dropHints core (s.core core).act

/-- CURVE_RAMP_START (R66): the notice, which PWR takes (R359), has stood 5 µs and the matrix engine is idle. -/
def execCurveRampStart (core : Nat) (s : State) : Host.Outcome State Fault Refusal :=
  runEvent s do
    let x := s.core core
    let m ← x.move
    if s.fwUp 5 && !m.ramping && !s.mqBusy core && Nat.ble (m.notice + 5 * Config.mhz x.point) x.count then
      some (((s.engineIdle core).modCore core fun y => { y with move := some { m with ramping := true } }).dropHints core x.act)
    else none

/-- CURVE_RAMP_END (R66, R71): the point changes, shapes are checked against it, the teams that waited at a CURVE go on (R65), and a
correlation record is written. -/
def execCurveRampEnd (core : Nat) (s : State) : Host.Outcome State Fault Refusal :=
  runEvent s do
    let x := s.core core
    let m ← x.move
    if m.ramping then
      let s1 := s.modCore core fun y => { y with point := m.dest, move := none }
      some (((s1.checkBank core x.act).endCurves core m.dest).correlate core 1)
    else none

/-! ## The matrix engine (R68, R69) -/

/-- An arrival or a declaration at the engine (R68): IDLE goes to RAMPUP; an arrival takes HOLD to ACTIVE. -/
def CoreSt.arrive (x : CoreSt) (op : Bool) : CoreSt :=
  match x.mat with
  | .idle => { x with mat := .rampup, matAt := x.count }
  | .hold => if op then { x with mat := .active, matAt := x.count } else x
  | .rampup | .active | .rampdn => x

/-- A team of the active bank of a core holds a declaration (R69). -/
def State.hinted (s : State) (core : Nat) : Bool := (s.activeTeams core).any fun e => Nat.blt 0 e.2.hint

/-- MHINT (R69). The control thread issues no MMA and holds no declaration. -/
def execMhint (n : BitVec 11) (s : State) : Host.Outcome State Fault Refusal :=
  runState s fun e t =>
    if t.ctl then .ok (s.setAgent e.ag (t.advance 1))
    else
      let s1 := s.setAgent e.ag { t.advance 1 with hint := n.toNat, hintAt := (s.core e.core).count }
      .ok (if n = 0 then s1 else s1.modCore e.core fun x => x.arrive false)

/-- MHINT_EXPIRY (R69). -/
def execMhintExpiry (tid : Nat) (s : State) : Host.Outcome State Fault Refusal :=
  runEvent s do
    let t ← alook tid s.teams
    if Nat.blt 0 t.hint && s.inActive tid && Nat.ble (t.hintAt + 4096) (s.countOf (.team tid)) then
      some { s with teams := aset tid { t with hint := 0 } s.teams }
    else none

/-- MATRIX_RAMPUP_END (R68). -/
def execMatrixRampupEnd (core : Nat) (s : State) : Host.Outcome State Fault Refusal :=
  runEvent s (
    let x := s.core core
    if x.mat = .rampup ∧ x.matAt + 64 ≤ x.count then
      some (s.modCore core fun y => { y with mat := if s.mqWaiting core then .active else .hold, matAt := x.matAt + 64 })
    else none)

/-- MATRIX_HOLD_EXPIRY (R68): the 128 cycles count from HOLD's first cycle; a declaration that held HOLD beyond them and ends lets RAMPDN
begin at once (DESIGN CHOICE, log entry 59). -/
def execMatrixHoldExpiry (core : Nat) (s : State) : Host.Outcome State Fault Refusal :=
  runEvent s (
    let x := s.core core
    if x.mat = .hold ∧ x.matAt + 128 ≤ x.count ∧ s.hinted core = false ∧ s.mqWaiting core = false then
      some (s.modCore core fun y => { y with mat := .rampdn, matAt := x.count })
    else none)

/-- MATRIX_RAMPDN_END (R68): an operation that arrived in RAMPDN, or a declaration held, starts a full RAMPUP, of which the cycles that have
passed since are fillers already (R365). -/
def execMatrixRampdnEnd (core : Nat) (s : State) : Host.Outcome State Fault Refusal :=
  runEvent s (
    let x := s.core core
    if x.mat = .rampdn ∧ x.matAt + 32 ≤ x.count then
      let up := s.mqWaiting core || s.hinted core
      some ((s.modCore core fun y => { y with mat := if up then .rampup else .idle, matAt := x.matAt + 32 }).coreEvent core 4
        (if up then min 64 (x.count - (x.matAt + 32)) else 0))
    else none)

end Sys2Proof.Machine
end

