-- ==== Sys2Proof/Machine/Integer.lean ====
section
/-!
DEFINITION. The integer and logic instructions of Forms A and B (05_lanes_integer.md, R79 to R96): one meaning each over
the shared forms of Operands and the operations of Flags. IDOT4 parks its team (R79, R96, R278).
-/
namespace Sys2Proof.Machine

/-- One lane of an integer instruction at a type (R81). -/
def intLaneRes (op : IntIn → IntRes) (t : IntTy) (a b d : W32) (cin : Bool) : LaneRes :=
  let rs := laneElems op t a b d cin
  let w := (intElem t).1
  .int (packElems w rs) (combineNib w rs)

/-- The 64-bit operation on the scalar datapath (R81). -/
def intScalarRes (op : IntIn → IntRes) (t : IntTy) (a b d : W64) (cin : Bool) : LaneRes :=
  let r := op { w := 64, signed := t == .i, a := a.toNat, b := b.toNat, d := d.toNat, cin := cin }
  .int r.val (r.nib 64)

/-- A literal of a Form A integer instruction is sign-extended under `.i64` and zero-extended under `.n64` (R24). -/
def intSx (t : IntTy) : Bool := t == .i

/-- A Form A integer instruction (R81). A packed type on a scalar destination raises ILLEGAL (R37). -/
def intForm (op : IntIn → IntRes) (m : IntMod) (d : Reg) (a b : Src) (e : Env) (t : Team) : Except Trap Team := do
  need (!(m.ty.packed && d.scalarDest)) (Trap.of .illegal)
  arith { cc := m.cc, pair := false } d [a, b]
    (fun e t => intScalarRes op m.ty (srcScalarX e t (intSx m.ty) a) (srcScalarX e t (intSx m.ty) b) (regScalar e t d)
      (nibC t.firstNib))
    (fun e t l => intLaneRes op m.ty (srcLane e t a l) (srcLane e t b l) (dstLane e t d l) (nibC (sget t.cc l)))
    e t

/-- A Form A integer instruction without packed types: 10 and 11 raise ILLEGAL on either class (R82). -/
def intFormPlain (op : IntIn → IntRes) (m : IntMod) (d : Reg) (a b : Src) (e : Env) (t : Team) : Except Trap Team := do
  need (!m.ty.packed) (Trap.of .illegal)
  intForm op m d a b e t

/-- A Form A integer instruction executed. -/
def runInt (op : IntIn → IntRes) (m : IntMod) (d : Reg) (a b : Src) (s : State) : Host.Outcome State Fault Refusal :=
  runAgent s (1 + a.words + b.words) (intForm op m d a b)

/-- A Form A integer instruction without packed types executed. -/
def runIntPlain (op : IntIn → IntRes) (m : IntMod) (d : Reg) (a b : Src) (s : State) : Host.Outcome State Fault Refusal :=
  runAgent s (1 + a.words + b.words) (intFormPlain op m d a b)

/-- A unary Form A integer instruction executed. -/
def runInt1 (op : IntIn → IntRes) (m : IntMod) (d : Reg) (a : Src) (s : State) : Host.Outcome State Fault Refusal :=
  runAgent s (1 + a.words) (intForm op m d a (.reg .z))

/-! ## Form A (R82 to R93) -/

/-- ADD (R83). -/
def execAdd (m : IntMod) (d : Reg) (a b : Src) (s : State) := runInt opAdd m d a b s
/-- SUB (R83). -/
def execSub (m : IntMod) (d : Reg) (a b : Src) (s : State) := runInt opSub m d a b s
/-- ADDC (R83). -/
def execAddc (m : IntMod) (d : Reg) (a b : Src) (s : State) := runIntPlain opAddc m d a b s
/-- SUBB (R83). -/
def execSubb (m : IntMod) (d : Reg) (a b : Src) (s : State) := runIntPlain opSubb m d a b s
/-- MUL (R85). -/
def execMul (m : IntMod) (d : Reg) (a b : Src) (s : State) := runInt opMul m d a b s
/-- MULH (R85). -/
def execMulh (m : IntMod) (d : Reg) (a b : Src) (s : State) := runInt opMulh m d a b s
/-- MAD (R85). -/
def execMad (m : IntMod) (d : Reg) (a b : Src) (s : State) := runInt opMad m d a b s
/-- DIV (R86). -/
def execDiv (m : IntMod) (d : Reg) (a b : Src) (s : State) := runIntPlain opDiv m d a b s
/-- REM (R86). -/
def execRem (m : IntMod) (d : Reg) (a b : Src) (s : State) := runIntPlain opRem m d a b s
/-- MIN (R87). -/
def execMin (m : IntMod) (d : Reg) (a b : Src) (s : State) := runInt opMin m d a b s
/-- MAX (R87). -/
def execMax (m : IntMod) (d : Reg) (a b : Src) (s : State) := runInt opMax m d a b s
/-- ABSD (R87). -/
def execAbsd (m : IntMod) (d : Reg) (a b : Src) (s : State) := runInt opAbsd m d a b s
/-- AND (R87). -/
def execAnd (m : IntMod) (d : Reg) (a b : Src) (s : State) := runInt opAnd m d a b s
/-- OR (R87). -/
def execOr (m : IntMod) (d : Reg) (a b : Src) (s : State) := runInt opOr m d a b s
/-- XOR (R87). -/
def execXor (m : IntMod) (d : Reg) (a b : Src) (s : State) := runInt opXor m d a b s
/-- ANDN (R87). -/
def execAndn (m : IntMod) (d : Reg) (a b : Src) (s : State) := runInt opAndn m d a b s
/-- SHL (R88). -/
def execShl (m : IntMod) (d : Reg) (a b : Src) (s : State) := runInt opShl m d a b s
/-- SHR (R88). -/
def execShr (m : IntMod) (d : Reg) (a b : Src) (s : State) := runInt opShr m d a b s
/-- SAR (R88). -/
def execSar (m : IntMod) (d : Reg) (a b : Src) (s : State) := runInt opSar m d a b s
/-- ROT (R88). -/
def execRot (m : IntMod) (d : Reg) (a b : Src) (s : State) := runInt opRot m d a b s
/-- BFE (R89). -/
def execBfe (m : IntMod) (d : Reg) (a b : Src) (s : State) := runIntPlain opBfe m d a b s
/-- BFI (R89). -/
def execBfi (m : IntMod) (d : Reg) (a b : Src) (s : State) := runIntPlain opBfi m d a b s
/-- POPC (R89). -/
def execPopc (m : IntMod) (d : Reg) (a : Src) (s : State) := runInt1 opPopc m d a s
/-- CLZ (R89). -/
def execClz (m : IntMod) (d : Reg) (a : Src) (s : State) := runInt1 opClz m d a s
/-- BREV (R89). -/
def execBrev (m : IntMod) (d : Reg) (a : Src) (s : State) := runInt1 opBrev m d a s
/-- MOV (R93). -/
def execMov (m : IntMod) (d : Reg) (a : Src) (s : State) := runInt1 opMov m d a s
/-- EXT (R90). -/
def execExt (m : IntMod) (d : Reg) (a b : Src) (s : State) := runIntPlain opExt m d a b s
/-- ADDS (R84). -/
def execAdds (m : IntMod) (d : Reg) (a b : Src) (s : State) := runInt opAdds m d a b s
/-- SUBS (R84). -/
def execSubs (m : IntMod) (d : Reg) (a b : Src) (s : State) := runInt opSubs m d a b s

/-- CMP (R91): codes only; packed types are ILLEGAL when both sources are of scalar class. -/
def execCmp (ty : IntTy) (a b : Src) (s : State) : Host.Outcome State Fault Refusal :=
  runAgent s (1 + a.words + b.words) fun e t => do
    need (!(ty.packed && !isVec t a && !isVec t b)) (Trap.of .illegal)
    compare false [a, b]
      (fun e t => intScalarRes opSub ty (srcScalarX e t (intSx ty) a) (srcScalarX e t (intSx ty) b) 0 false)
      (fun e t l => intLaneRes opSub ty (srcLane e t a l) (srcLane e t b l) 0 false) e t

/-- SEL (R92): no codes written; on the scalar datapath the nibble of the first live lane decides (R78). -/
def execSel (c : Cond) (d : Reg) (a b : Src) (s : State) : Host.Outcome State Fault Refusal :=
  runAgent s (1 + a.words + b.words)
    (arith { cc := false, pair := false } d [a, b]
      (fun e t => .int (if condTest c t.firstNib then srcScalar e t a else srcScalar e t b).toNat 0)
      (fun e t l => .int (if condTest c (sget t.cc l) then srcLane e t a l else srcLane e t b l).toNat 0))

/-! ## Form B (R94, R95) -/

/-- A Form B instruction: 64 bits once, or `.i32` per live lane (R18, R94). `k` is the immediate as both see it. -/
def immForm (op : IntIn → IntRes) (d : Reg) (a : Src) (k : Int) : Env → Team → Except Trap Team :=
  arith { cc := false, pair := false } d [a]
    (fun e t => intScalarRes op .i (srcScalar e t a) (BitVec.ofInt 64 k) 0 false)
    (fun e t l => intLaneRes op .i (srcLane e t a l) (BitVec.ofInt 32 k) 0 false)

/-- A Form B instruction executed. -/
def runImm (op : IntIn → IntRes) (d : Reg) (a : Src) (k : Int) (s : State) : Host.Outcome State Fault Refusal :=
  runAgent s (1 + a.words) (immForm op d a k)

/-- ADDI (R94). -/
def execAddi (d : Reg) (a : Src) (imm : BitVec 11) (s : State) := runImm opAdd d a imm.toInt s
/-- ANDI (R94). -/
def execAndi (d : Reg) (a : Src) (imm : BitVec 11) (s : State) := runImm opAnd d a imm.toInt s
/-- ORI (R94). -/
def execOri (d : Reg) (a : Src) (imm : BitVec 11) (s : State) := runImm opOr d a imm.toInt s
/-- XORI (R94). -/
def execXori (d : Reg) (a : Src) (imm : BitVec 11) (s : State) := runImm opXor d a imm.toInt s
/-- SHLI (R94, R88). -/
def execShli (d : Reg) (a : Src) (sh : BitVec 6) (s : State) := runImm opShl d a sh.toNat s
/-- SHRI (R94, R88). -/
def execShri (d : Reg) (a : Src) (sh : BitVec 6) (s : State) := runImm opShr d a sh.toNat s
/-- SARI (R94, R88). -/
def execSari (d : Reg) (a : Src) (sh : BitVec 6) (s : State) := runImm opSar d a sh.toNat s

/-- CMPI (R94). -/
def execCmpi (a : Src) (imm : BitVec 11) (s : State) : Host.Outcome State Fault Refusal :=
  runAgent s (1 + a.words)
    (compare false [a]
      (fun e t => intScalarRes opSub .i (srcScalar e t a) (BitVec.ofInt 64 imm.toInt) 0 false)
      (fun e t l => intLaneRes opSub .i (srcLane e t a l) (BitVec.ofInt 32 imm.toInt) 0 false))

/-- MOVI (R94). -/
def execMovi (d : Reg) (imm : BitVec 11) (s : State) : Host.Outcome State Fault Refusal :=
  runAgent s 1
    (arith { cc := false, pair := false } d []
      (fun _ _ => .int (BitVec.ofInt 64 imm.toInt).toNat 0)
      (fun _ _ _ => .int (BitVec.ofInt 32 imm.toInt).toNat 0))

/-- MOVHI (R95): imm11 is unsigned. -/
def execMovhi (d : Reg) (a : Src) (h : BitVec 11) (s : State) : Host.Outcome State Fault Refusal :=
  runAgent s (1 + a.words)
    (arith { cc := false, pair := false } d [a]
      (fun e t => .int (h.toNat * 2 ^ 32 + (srcScalar e t a).toNat % 2 ^ 32) 0)
      (fun e t l => .int (h.toNat * 2 ^ 21 + (srcLane e t a l).toNat % 2 ^ 21) 0))

/-! ## IDOT4 (R96, R79, R278) -/

/-- An emulated instruction at its issue: the team is PARKED at it (R79, R278). A scalar-class destination raises OPERAND. -/
def parkForm (i : Instr) (d : Reg) (a b : Src) (count : Nat) (t : Team) : Except Trap Team := do
  checkSrcs t [a, b]
  needOperand (okDst t d && isVecDst d)
  checkSh0 t
  .ok { t with st := .parked, wait := .emul i t.live, since := count }

/-- An emulated instruction issued: the agent stays at its PC until the result is written. -/
def runPark (i : Instr) (d : Reg) (a b : Src) (s : State) : Host.Outcome State Fault Refusal :=
  runState s fun e t => do
    let t' ← parkForm i d a b (s.core e.core).count t
    .ok (s.setAgent s.cur t')

/-- IDOT4 (R96). -/
def execIdot4 (k : DotK) (d : Reg) (a b : Src) (s : State) : Host.Outcome State Fault Refusal :=
  runPark (.idot4 k d a b) d a b s

/-- One lane of IDOT4: the exact sum modulo 2^32 (R96). -/
def idot4Lane (k : DotK) (d a b : W32) : W32 :=
  let sa : Bool := match k with
    | .uu => false
    | .ss | .su => true
  let sb : Bool := match k with
    | .ss => true
    | .uu | .su => false
  let terms := (List.range 4).map fun j => tInt sa 8 (elemOf 8 a.toNat j) * tInt sb 8 (elemOf 8 b.toNat j)
  BitVec.ofInt 32 (terms.foldl (fun x y => x + y) (d.toNat : Int))

end Sys2Proof.Machine
end

