-- ==== Sys2Proof/Machine/Lg.lean ====
section
/-!
DEFINITION. The logarithmic formats (R46 to R50), the keyed Hadamard rotation (R55, R56), the products of an MMA (R51) and
the dot-product order (R57, R58) with the flags it raises (R59). Every value is an exact sign × natural × power of two.
-/
namespace Sys2Proof.Machine

/-! ## Formats (R46, R47, R49) -/

/-- LG6 or LG8. -/
inductive Lg where
  | lg6 | lg8
  deriving DecidableEq, Repr

/-- The sign bit's place, which is also the width of m (R46). -/
def Lg.sb (f : Lg) : Nat :=
  match f with
  | .lg6 => 5
  | .lg8 => 7

/-- Steps per octave K. -/
def Lg.k (f : Lg) : Nat :=
  match f with
  | .lg6 => 4
  | .lg8 => 8

/-- The bias. -/
def Lg.bias (f : Lg) : Nat :=
  match f with
  | .lg6 => 16
  | .lg8 => 64

/-- The largest m. -/
def Lg.mmax (f : Lg) : Nat := 2 ^ f.sb - 1

/-- T8 of R47. -/
def lgT8 : List Nat := [0x800000, 0x8B95C2, 0x9837F0, 0xA5FED7, 0xB504F3, 0xC5672A, 0xD744FD, 0xEAC0C7]

/-- T of R47: T6[f] is T8[2f]. -/
def Lg.t (f : Lg) (i : Nat) : Nat := lgT8.getD (i * (8 / f.k)) 0

/-- 2^23 + MID of R49. -/
def Lg.mid (f : Lg) (i : Nat) : Nat :=
  match f with
  | .lg6 => [0x8C1BF9, 0xA69E72, 0xC624F8, 0xEBA27F].getD i 0
  | .lg8 => [0x85CAE1, 0x91E6DA, 0x9F1B64, 0xAD81E5, 0xBD360F, 0xCE5614, 0xE102E2, 0xF56064].getD i 0

/-- FLUSH of R49. -/
def Lg.flush (f : Lg) : FpVal :=
  match f with
  | .lg6 => .fin false 0x9837F1 (-28)
  | .lg8 => .fin false 0x8B95C2 (-32)

/-- q, split as e and f (R46). -/
def Lg.split (f : Lg) (m : Nat) : Int × Nat :=
  let q : Int := (m : Int) - f.bias
  (Int.fdiv q f.k, (q % (f.k : Int)).toNat)

/-- The value of code m ≥ 1 with E = 0 (R46). -/
def Lg.codeValue (f : Lg) (s : Bool) (m : Nat) : FpVal :=
  let p := f.split m
  .fin s (f.t p.2) (p.1 - 23)

/-- A finite value times 2^E. -/
def FpVal.scale (v : FpVal) (e : Int) : FpVal :=
  match v with
  | .fin s m k => .fin s m (k + e)
  | x => x

/-- A value without its sign. -/
def FpVal.abs (v : FpVal) : FpVal :=
  match v with
  | .fin _ m k => .fin false m k
  | .inf _ => .inf false
  | .nan b => .nan b

/-- A value negated. -/
def FpVal.neg (v : FpVal) : FpVal :=
  match v with
  | .fin s m k => .fin (!s) m k
  | .inf s => .inf (!s)
  | .nan b => .nan b

/-- The value that a code stands for, with scale exponent E (R46). NaR is a NaN. -/
def Lg.decode (f : Lg) (c : Nat) (e : Int) : FpVal :=
  let m := c % 2 ^ f.sb
  let s := bitAt c f.sb
  if m = 0 then (if s then .nan true else .fin false 0 0) else (f.codeValue s m).scale e

/-! ## Encoding (R48) -/

/-- The boundary between codes m and m + 1. -/
def Lg.thr (f : Lg) (m : Nat) : FpVal :=
  let p := f.split m
  .fin false (f.mid p.2) (p.1 - 23)

/-- u ≤ v for values that are no NaN. -/
def FpVal.le (u v : FpVal) : Bool :=
  match u.cmp v with
  | .less | .equal => true
  | _ => false

/-- The search of R48: the code for y, from m on. -/
def Lg.search (f : Lg) (y : FpVal) : Nat → Nat → Nat
  | 0, m => m
  | fuel + 1, m => if m < f.mmax ∧ (f.thr m).le y then f.search y fuel (m + 1) else m

/-- The code of a value with scale exponent E (R48), and the flags of QUANT (R110). -/
def Lg.encode (f : Lg) (x : FpVal) (e : Int) : FpOut :=
  match x with
  | .nan _ => { x := 2 ^ f.sb, fl := flNV }
  | .inf _ => { x := 2 ^ f.sb, fl := flNV }
  | .fin s n k =>
    let y := FpVal.fin false n (k - e)
    if !f.flush.le y then { x := 0, fl := if n = 0 then flNone else flUFNX }
    else
      let m := f.search y f.mmax 1
      let above := (f.codeValue false f.mmax).cmp y == .less
      let fl := if above then flOFNX else if (f.codeValue false m).cmp y == .equal then flNone else flNX
      { x := b2n s * 2 ^ f.sb + m, fl := fl }

/-! ## The keyed Hadamard rotation (R55, R56) -/

/-- sign_bit of R55, modulo 2^64. -/
def signBit (seed : W64) (k n : Nat) : Bool :=
  let blk := k / n
  let z0 : W64 := seed + BitVec.ofNat 64 (blk * 2 ^ 20) + BitVec.ofNat 64 (k - n * blk)
  let z1 := (z0 ^^^ (z0 >>> 30)) * 0xBF58476D1CE4E5B9
  let z2 := (z1 ^^^ (z1 >>> 27)) * 0x94D049BB133111EB
  (z2 ^^^ (z2 >>> 31)).getLsbD 63

/-- The block size of an HBLK code (R52). -/
def hblkSize (h : Nat) : Nat :=
  match h with
  | 1 => 16
  | 2 => 64
  | 3 => 256
  | _ => 0

/-- log2 of √n for a block size. -/
def hblkShift (n : Nat) : Int := if n = 16 then 2 else if n = 64 then 3 else 4

/-- The exact sum of finite values, as an integer multiple of 2^q with q the least exponent. -/
def exactSum (vs : List FpVal) : Int × Int :=
  let q := vs.foldl (fun m v => match v with
    | .fin _ _ e => min m e
    | _ => m) 0
  (vs.foldl (fun a v => match v with
    | .fin s m e => a + scaled s m e q
    | _ => a) 0, q)

/-- A finite value of an integer multiple of 2^q. -/
def finOf (x q : Int) : FpVal := .fin (decide (x < 0)) x.natAbs q

/-- A value that is no finite number. -/
def FpVal.special (v : FpVal) : Bool :=
  match v with
  | .fin _ _ _ => false
  | _ => true

/-- One block of the transform of R56: y[j] from u, exactly; a block with a value that is no number has none at all. -/
def hadamardBlock (n : Nat) (us : List FpVal) : List FpVal :=
  if us.any fun v => v.special then us.map fun _ => .nan false
  else (List.range n).map fun j =>
    let p := exactSum ((us.zip (List.range n)).map fun u => if popCount (Nat.land u.2 j) 8 % 2 = 1 then u.1.neg else u.1)
    finOf p.1 (p.2 - hblkShift n)

/-- A row rotated before quantisation (R56). -/
def hadamardRow (seed : W64) (n : Nat) : Nat → Nat → List FpVal → List FpVal
  | 0, _, _ => []
  | fuel + 1, g, xs =>
    let us := ((xs.take n).zip (List.range n)).map fun u => if signBit seed (g + u.2) n then u.1.neg else u.1
    hadamardBlock n us ++ hadamardRow seed n fuel (g + n) (xs.drop n)

/-- A row rotated back after dequantisation: the same formula, then the signs (R56). A sum of exactly zero is +0, which a sign bit turns into
-0 (DESIGN CHOICE, log entry 57). -/
def hadamardBack (seed : W64) (n : Nat) : Nat → Nat → List FpVal → List FpVal
  | 0, _, _ => []
  | fuel + 1, g, xs =>
    let ys := hadamardBlock n (xs.take n)
    (ys.zip (List.range n)).map (fun u => if signBit seed (g + u.2) n then u.1.neg else u.1) ++
      hadamardBack seed n fuel (g + n) (xs.drop n)

/-! ## Products (R51) -/

/-- An element format of a format word (R52). -/
inductive ElFmt where
  | f32 | f16 | bf16 | i8 | n8 | lg6 | lg8
  deriving DecidableEq, Repr

/-- AFMT and BFMT (R52). -/
def ElFmt.ofCode (c : Nat) : Option ElFmt :=
  match c with
  | 0 => some .f32
  | 1 => some .f16
  | 2 => some .bf16
  | 3 => some .i8
  | 4 => some .n8
  | 5 => some .lg6
  | 6 => some .lg8
  | _ => none

/-- An integer format. -/
def ElFmt.isInt (f : ElFmt) : Bool :=
  match f with
  | .i8 | .n8 => true
  | _ => false

/-- The LG format of an element format. -/
def ElFmt.lg (f : ElFmt) : Option Lg :=
  match f with
  | .lg6 => some .lg6
  | .lg8 => some .lg8
  | _ => none

/-- The value of an operand that is no integer, with E = 0 (R51). -/
def ElFmt.value (f : ElFmt) (x : Nat) : FpVal :=
  match f with
  | .f32 => Fmt.f32.decode x
  | .f16 => Fmt.f16.decode x
  | .bf16 => Fmt.bf16.decode x
  | .lg6 => Lg.lg6.decode x 0
  | .lg8 => Lg.lg8.decode x 0
  | .i8 | .n8 => .fin false 0 0

/-- The integer of an i8 or n8 operand (R42). -/
def ElFmt.int (f : ElFmt) (x : Nat) : Int :=
  match f with
  | .i8 => sInt 8 (x % 256)
  | _ => (x % 256 : Nat)

/-- An exact product; infinity × 0 is invalid (R44). -/
def FpVal.mul (u v : FpVal) : FpVal :=
  match u, v with
  | .nan p, w => .nan (p || w.sig)
  | w, .nan q => .nan (w.sig || q)
  | .inf s, .inf t => .inf (s != t)
  | .inf s, .fin t n _ => if n = 0 then .nan true else .inf (s != t)
  | .fin s m _, .inf t => if m = 0 then .nan true else .inf (s != t)
  | .fin s m e, .fin t n k => .fin (s != t) (m * n) (e + k)

/-- q in the LG8 domain (R51). -/
def Lg.q8 (f : Lg) (c : Nat) : Int :=
  let q : Int := ((c % 2 ^ f.sb : Nat) : Int) - f.bias
  match f with
  | .lg6 => 2 * q
  | .lg8 => q

/-- A product of two floating or LG operands, with the scale exponent S (R51). -/
def mmaProduct (fa fb : ElFmt) (a b : Nat) (sc : Int) : FpVal :=
  match fa.lg, fb.lg with
  | some la, some lb =>
    let u := la.decode a 0
    let v := lb.decode b 0
    match u, v with
    | .fin s m _, .fin t n _ =>
      if m = 0 ∨ n = 0 then .fin (s != t) 0 0
      else
        let q := la.q8 a + lb.q8 b
        .fin (s != t) (lgT8.getD (q % 8).toNat 0) (Int.fdiv q 8 - 23 + sc)
    | _, _ => u.mul v
  | _, _ => ((fa.value a).mul (fb.value b)).scale sc

/-! ## The dot-product order (R57, R58) -/

/-- floor(log2 |t|) of a non-zero finite term. -/
def FpVal.top (v : FpVal) : Option Int :=
  match v with
  | .fin _ m e => if m = 0 then none else some ((Nat.log2 m : Int) + e)
  | _ => none

/-- The greatest of a list of exponents. -/
def maxTop (vs : List FpVal) : Option Int :=
  vs.foldl (fun m v => match m, v.top with
    | none, x => x
    | x, none => x
    | some x, some y => some (max x y)) none

/-- A term truncated to a multiple of 2^q: the multiple, and whether a bit was discarded (R57). -/
def FpVal.window (v : FpVal) (q : Int) : Int × Bool :=
  match v with
  | .fin s m e =>
    if q ≤ e then (signedOf s (m * 2 ^ (e - q).toNat), false)
    else (signedOf s (m / 2 ^ (q - e).toNat), m % 2 ^ (q - e).toNat != 0)
  | _ => (0, false)

/-- A term is -0. -/
def FpVal.negZero (v : FpVal) : Bool :=
  match v with
  | .fin s m _ => s && m == 0
  | _ => false

/-- A term is an infinity of a sign. -/
def FpVal.isInf (v : FpVal) (s : Bool) : Bool :=
  match v with
  | .inf t => t == s
  | _ => false

/-- The windowed sum of one group, rounded once to FP32 (R57, R58), with the flags of R59. -/
def groupSum (vs : List FpVal) : FpOut :=
  let pos := vs.any fun v => v.isInf false
  let neg := vs.any fun v => v.isInf true
  let nv := (vs.any fun v => v.sig) || (pos && neg)
  if (vs.any fun v => v.isNan) || (pos && neg) then Fmt.f32.nanOut nv
  else if pos || neg then Fmt.f32.infOut neg
  else
    match maxTop vs with
    | none => Fmt.f32.zeroOut (vs.all fun v => v.negZero)
    | some emax =>
      let q := emax - 48
      let x : Int := vs.foldl (fun (a : Int) v => a + (v.window q).1) 0
      let lost := if vs.any fun v => (v.window q).2 then flNX else flNone
      if x = 0 then { x := 0, fl := lost }
      else
        let r := Fmt.f32.roundTo .rne (decide (x < 0)) x.natAbs q false
        { r with fl := r.fl ||| lost }

/-- dot of R57: groups of 16 products, each rounded. -/
def dotFloat : Nat → Nat → List FpVal → FpOut
  | 0, c, _ => { x := c, fl := 0 }
  | _, c, [] => { x := c, fl := 0 }
  | fuel + 1, c, p :: ps =>
    let r := groupSum (Fmt.f32.decode c :: (p :: ps).take 16)
    let r2 := dotFloat fuel r.x ((p :: ps).drop 16)
    { r2 with fl := r.fl ||| r2.fl }

/-- The integer dot product: the exact sum modulo 2^32 (R58). -/
def dotInt (c : W32) (ps : List Int) : W32 := BitVec.ofInt 32 (ps.foldl (fun x y => x + y) (c.toNat : Int))

end Sys2Proof.Machine
end

