-- ==== Sys2Proof/Machine/Float.lean ====
section
/-!
DEFINITION. The floating and narrow instructions (06_lanes_float.md, R97 to R112): one meaning each over the shared forms of
Operands and the arithmetic of Fp and Lg. FDOT2 parks its team (R112, R278).
-/
namespace Sys2Proof.Machine

/-! ## Elements of a lane (R43, R97) -/

/-- The format, width and number of elements of a floating type. -/
def fElem (t : FTy) : Fmt × Nat × Nat :=
  match t with
  | .f32 => (Fmt.f32, 32, 1)
  | .f16x2 => (Fmt.f16, 16, 2)
  | .bf16x2 => (Fmt.bf16, 16, 2)

/-- The nibble of a lane from its elements' outcomes, element 0 first (R98). -/
def fNib (cs : List FpCmp) : BitVec 4 :=
  match cs.getLast? with
  | none => 0
  | some top => nibble (nibN top.nib) (cs.all fun c => c == .equal) (nibC top.nib) (cs.any fun c => c == .unordered)

/-- The lane value of its elements' patterns (R42). -/
def packNats (w : Nat) : List Nat → Nat
  | [] => 0
  | x :: r => x % 2 ^ w + 2 ^ w * packNats w r

/-- The union of the flags of results. -/
def flagsOf (rs : List FpOut) : BitVec 5 := rs.foldl (fun m r => m ||| r.fl) 0

/-- One lane of a floating instruction with a floating result: each element computed, rounded and flagged (R97). -/
def fLane (op : Fmt → Nat → Nat → Nat → FpOut) (t : FTy) (a b d : W32) : LaneRes :=
  let (f, w, n) := fElem t
  let rs := (List.range n).map fun j => op f (elemOf w a.toNat j) (elemOf w b.toNat j) (elemOf w d.toNat j)
  { x := BitVec.ofNat 64 (packNats w (rs.map fun r => r.x)), nib := fNib (rs.map fun r => f.cmpZero r.x), fl := flagsOf rs }

/-- The same on the scalar datapath: bits [31:0] of each source, and zeros above (R97). -/
def fScalar (op : Fmt → Nat → Nat → Nat → FpOut) (t : FTy) (a b d : W64) : LaneRes :=
  fLane op t (a.setWidth 32) (b.setWidth 32) (d.setWidth 32)

/-- A floating instruction (R97). -/
def fForm (op : Fmt → Nat → Nat → Nat → FpOut) (m : FMod) (d : Reg) (a b : Src) : Env → Team → Except Trap Team :=
  arith { cc := m.cc, pair := false } d [a, b]
    (fun e t => fScalar op m.ty (srcScalar e t a) (srcScalar e t b) (regScalar e t d))
    (fun e t l => fLane op m.ty (srcLane e t a l) (srcLane e t b l) (dstLane e t d l))

/-- A floating instruction executed. -/
def runF (op : Fmt → Nat → Nat → Nat → FpOut) (m : FMod) (d : Reg) (a b : Src) (s : State) :
    Host.Outcome State Fault Refusal :=
  runAgent s (1 + a.words + b.words) (fForm op m d a b)

/-! ## Arithmetic, minimum, maximum and compare (R100 to R102) -/

/-- FADD. -/
def execFadd (m : FMod) (d : Reg) (a b : Src) (s : State) := runF (fun f x y _ => f.add x y) m d a b s
/-- FSUB. -/
def execFsub (m : FMod) (d : Reg) (a b : Src) (s : State) := runF (fun f x y _ => f.sub x y) m d a b s
/-- FMUL. -/
def execFmul (m : FMod) (d : Reg) (a b : Src) (s : State) := runF (fun f x y _ => f.mul x y) m d a b s
/-- FFMA (R101). -/
def execFfma (m : FMod) (d : Reg) (a b : Src) (s : State) := runF (fun f x y z => f.fma x y z) m d a b s
/-- FMIN (R101). -/
def execFmin (m : FMod) (d : Reg) (a b : Src) (s : State) := runF (fun f x y _ => f.minMax false x y) m d a b s
/-- FMAX (R101). -/
def execFmax (m : FMod) (d : Reg) (a b : Src) (s : State) := runF (fun f x y _ => f.minMax true x y) m d a b s
/-- FDIV (R101). -/
def execFdiv (m : FMod) (d : Reg) (a b : Src) (s : State) := runF (fun f x y _ => f.div x y) m d a b s

/-- FSQRT (R101). -/
def execFsqrt (m : FMod) (d : Reg) (a : Src) (s : State) : Host.Outcome State Fault Refusal :=
  runAgent s (1 + a.words) (fForm (fun f x _ _ => f.sqrt x) m d a (.reg .z))

/-- One lane of FCMP (R98, R102). -/
def fcmpLane (t : FTy) (a b : W32) : LaneRes :=
  let (f, w, n) := fElem t
  let rs := (List.range n).map fun j => f.cmp (elemOf w a.toNat j) (elemOf w b.toNat j)
  { x := 0, nib := fNib (rs.map fun r => r.1), fl := rs.foldl (fun m r => m ||| r.2) 0 }

/-- FCMP (R102): with both sources of scalar class it compares FP32 values once. -/
def execFcmp (ty : FTy) (a b : Src) (s : State) : Host.Outcome State Fault Refusal :=
  runAgent s (1 + a.words + b.words)
    (compare false [a, b]
      (fun e t => fcmpLane .f32 ((srcScalar e t a).setWidth 32) ((srcScalar e t b).setWidth 32))
      (fun e t l => fcmpLane ty (srcLane e t a l) (srcLane e t b l)))

/-! ## Special functions and classes (R103 to R105) -/

/-- A floating instruction that writes no codes, from its one source. -/
def fUnary (op : W32 → FpOut) (d : Reg) (a : Src) : Env → Team → Except Trap Team :=
  let res (x : W32) : LaneRes := { x := BitVec.ofNat 64 ((op x).x % 2 ^ 32), nib := 0, fl := (op x).fl }
  arith { cc := false, pair := false } d [a]
    (fun e t => res ((srcScalar e t a).setWidth 32))
    (fun e t l => res (srcLane e t a l))

/-- FSFU (R103). -/
def execFsfu (f : Sfu) (d : Reg) (a : Src) (s : State) : Host.Outcome State Fault Refusal :=
  runAgent s (1 + a.words) (fUnary (fun x => sfuEval f x.toNat) d a)

/-- The class masks of a lane (R105). -/
def classLane (t : FTy) (a : W32) : FpOut :=
  let (f, w, n) := fElem t
  .exact (packNats w ((List.range n).map fun j => f.classMask (elemOf w a.toNat j)))

/-- FCLASS (R105). -/
def execFclass (ty : FTy) (d : Reg) (a : Src) (s : State) : Host.Outcome State Fault Refusal :=
  runAgent s (1 + a.words) (fUnary (classLane ty) d a)

/-! ## Conversion (R106 to R108) -/

/-- The conversion of code c: the source pattern (64 bits for FP64, else 32) and the old destination give the result. -/
def cvtCode (r : Rm) (c : Nat) (a d : Nat) : FpOut :=
  let lo := a % 2 ^ 16
  let hi := a / 2 ^ 16 % 2 ^ 16
  let word := a % 2 ^ 32
  let low (o : FpOut) : FpOut := { o with x := d / 2 ^ 16 % 2 ^ 16 * 2 ^ 16 + o.x }
  let high (o : FpOut) : FpOut := { o with x := o.x * 2 ^ 16 + d % 2 ^ 16 }
  match c with
  | 0 => Fmt.f32.toInt r true word
  | 1 => Fmt.f32.toInt r false word
  | 2 => Fmt.f32.ofInt r (sInt 32 word)
  | 3 => Fmt.f32.ofInt r (word : Int)
  | 4 => low (Fmt.f32.convert Fmt.f16 r word)
  | 5 => high (Fmt.f32.convert Fmt.f16 r word)
  | 6 => low (Fmt.f32.convert Fmt.bf16 r word)
  | 7 => high (Fmt.f32.convert Fmt.bf16 r word)
  | 8 => Fmt.f16.convert Fmt.f32 r lo
  | 9 => Fmt.f16.convert Fmt.f32 r hi
  | 10 => Fmt.bf16.convert Fmt.f32 r lo
  | 11 => Fmt.bf16.convert Fmt.f32 r hi
  | 12 => Fmt.f32.convert Fmt.f64 r word
  | 13 => Fmt.f64.convert Fmt.f32 r a
  | 14 => Fmt.f64.toInt r true a
  | _ => Fmt.f64.ofInt r (sInt 32 word)

/-- The codes whose source is FP64 (R107). -/
def cvtSrc64 (c : Nat) : Bool := c == 13 || c == 14

/-- The codes whose result is FP64 (R107). -/
def cvtDst64 (c : Nat) : Bool := c == 12 || c == 15

/-- An FP32 pattern widened exactly to FP64, its sign, fraction and kind of NaN kept (R24). -/
def widenF32 (w : W32) : W64 :=
  match Fmt.f32.decode w.toNat with
  | .nan _ => BitVec.ofNat 64 (w.toNat / 2 ^ 31 * 2 ^ 63 + Fmt.f64.inf + w.toNat % 2 ^ 23 * 2 ^ 29)
  | .inf s => BitVec.ofNat 64 (Fmt.f64.infOut s).x
  | .fin s m e => BitVec.ofNat 64 (Fmt.f64.roundTo .rne s m e false).x

/-- A scalar FP64 source (R23, R24). -/
def srcScalarD (e : Env) (t : Team) (x : Src) : W64 :=
  match x with
  | .reg r => regScalar e t r
  | .lit w => widenF32 w

/-- A lane of an FP64 source (R23, R24, R109). -/
def srcLaneD (e : Env) (t : Team) (x : Src) (l : Nat) : W64 :=
  match x with
  | .reg _ => srcLane64 e t x l
  | .lit w => widenF32 w

/-- CVT (R106). -/
def cvtForm (r : Rm) (c : Nat) (d : Reg) (a : Src) (e : Env) (t : Team) : Except Trap Team := do
  checkSrcs t [a]
  needOperand (okDst t d)
  if cvtSrc64 c then
    needOperand (okPairSrc t a)
  if cvtDst64 c then
    needOperand (okPairDst t d)
  let res (x d : Nat) : LaneRes := { x := BitVec.ofNat 64 (cvtCode r c x d).x, nib := 0, fl := (cvtCode r c x d).fl }
  if isVecDst d then
    checkSh0 t
    .ok (t.applyLanes (t.dstReg d) (cvtDst64 c) false fun l =>
      res (if cvtSrc64 c then (srcLaneD e t a l).toNat else (srcLane e t a l).toNat) (dstLane e t d l).toNat)
  else
    needOperand (!isVec t a)
    .ok (t.applyScalar (some d) false
      (res (if cvtSrc64 c then (srcScalarD e t a).toNat else (srcScalar e t a).toNat) (regScalar e t d).toNat))

/-- CVT (R106 to R108). -/
def execCvt (r : Rm) (c : Fin 16) (d : Reg) (a : Src) (s : State) : Host.Outcome State Fault Refusal :=
  runAgent s (1 + a.words) (cvtForm r c.val d a)

/-! ## FP64 (R109) -/

/-- One FP64 result. -/
def dRes (o : FpOut) : LaneRes := { x := BitVec.ofNat 64 o.x, nib := (Fmt.f64.cmpZero o.x).nib, fl := o.fl }

/-- An FP64 instruction (R109). -/
def dForm (op : Nat → Nat → Nat → FpOut) (cc : Bool) (d : Reg) (a b : Src) : Env → Team → Except Trap Team :=
  arith { cc := cc, pair := true } d [a, b]
    (fun e t => dRes (op (srcScalarD e t a).toNat (srcScalarD e t b).toNat (regScalar e t d).toNat))
    (fun e t l => dRes (op (srcLaneD e t a l).toNat (srcLaneD e t b l).toNat (srcLane64 e t (.reg d) l).toNat))

/-- DADD. -/
def execDadd (cc : Bool) (d : Reg) (a b : Src) (s : State) : Host.Outcome State Fault Refusal :=
  runAgent s (1 + a.words + b.words) (dForm (fun x y _ => Fmt.f64.add x y) cc d a b)
/-- DMUL. -/
def execDmul (cc : Bool) (d : Reg) (a b : Src) (s : State) : Host.Outcome State Fault Refusal :=
  runAgent s (1 + a.words + b.words) (dForm (fun x y _ => Fmt.f64.mul x y) cc d a b)
/-- DFMA. -/
def execDfma (cc : Bool) (d : Reg) (a b : Src) (s : State) : Host.Outcome State Fault Refusal :=
  runAgent s (1 + a.words + b.words) (dForm (fun x y z => Fmt.f64.fma x y z) cc d a b)

/-- The comparison of two FP64 values (R98, R109). -/
def dcmpRes (a b : W64) : LaneRes :=
  { x := 0, nib := (Fmt.f64.cmp a.toNat b.toNat).1.nib, fl := (Fmt.f64.cmp a.toNat b.toNat).2 }

/-- DCMP. -/
def execDcmp (a b : Src) (s : State) : Host.Outcome State Fault Refusal :=
  runAgent s (1 + a.words + b.words)
    (compare true [a, b]
      (fun e t => dcmpRes (srcScalarD e t a) (srcScalarD e t b))
      (fun e t l => dcmpRes (srcLaneD e t a l) (srcLaneD e t b l)))

/-! ## LG conversion and packing (R110, R111) -/

/-- The format and scale exponent of a control word (R110). -/
def lgControl (b : W32) : Lg × Int := (if bitAt b.toNat 8 then .lg8 else .lg6, sInt 8 (b.toNat % 256))

/-- One lane of QUANT: byte j holds the code of element j, and the other bytes 0. -/
def quantLane (t : FTy) (a b : W32) : FpOut :=
  let (f, w, n) := fElem t
  let (g, e) := lgControl b
  let rs := (List.range n).map fun j => g.encode (f.decode (elemOf w a.toNat j)) e
  { x := packNats 8 (rs.map fun r => r.x), fl := flagsOf rs }

/-- A decoded code rounded to a format: NaR is the canonical NaN and sets NV, zero is +0 (R110). -/
def Fmt.ofValue (f : Fmt) (v : FpVal) : FpOut :=
  match v with
  | .nan sig => f.nanOut sig
  | .inf s => f.infOut s
  | .fin s m e => f.roundTo .rne s m e false

/-- One lane of DEQ: element j is the value of the code in byte j. -/
def deqLane (t : FTy) (a b : W32) : FpOut :=
  let (f, w, n) := fElem t
  let (g, e) := lgControl b
  let rs := (List.range n).map fun j => f.ofValue (g.decode (elemOf 8 a.toNat j % 2 ^ (g.sb + 1)) e)
  { x := packNats w (rs.map fun r => r.x), fl := flagsOf rs }

/-- An instruction of two sources that writes no codes. -/
def fBinary (op : W32 → W32 → FpOut) (d : Reg) (a b : Src) : Env → Team → Except Trap Team :=
  let res (x y : W32) : LaneRes := { x := BitVec.ofNat 64 ((op x y).x % 2 ^ 32), nib := 0, fl := (op x y).fl }
  arith { cc := false, pair := false } d [a, b]
    (fun e t => res ((srcScalar e t a).setWidth 32) ((srcScalar e t b).setWidth 32))
    (fun e t l => res (srcLane e t a l) (srcLane e t b l))

/-- QUANT (R110). -/
def execQuant (ty : FTy) (d : Reg) (a b : Src) (s : State) : Host.Outcome State Fault Refusal :=
  runAgent s (1 + a.words + b.words) (fBinary (quantLane ty) d a b)

/-- DEQ (R110). -/
def execDeq (ty : FTy) (d : Reg) (a b : Src) (s : State) : Host.Outcome State Fault Refusal :=
  runAgent s (1 + a.words + b.words) (fBinary (deqLane ty) d a b)

/-- PACK on a lane (R111). -/
def packLane (a : W32) : FpOut := .exact (packNats 6 ((List.range 4).map fun j => elemOf 8 a.toNat j))

/-- UNPK on a lane (R111). -/
def unpkLane (a : W32) : FpOut := .exact (packNats 8 ((List.range 4).map fun j => elemOf 6 a.toNat j))

/-- PACK (R111). -/
def execPack (d : Reg) (a : Src) (s : State) : Host.Outcome State Fault Refusal :=
  runAgent s (1 + a.words) (fUnary packLane d a)

/-- UNPK (R111). -/
def execUnpk (d : Reg) (a : Src) (s : State) : Host.Outcome State Fault Refusal :=
  runAgent s (1 + a.words) (fUnary unpkLane d a)

/-! ## FDOT2 (R112) -/

/-- FDOT2 at its issue. -/
def execFdot2 (k : FDotK) (d : Reg) (a b : Src) (s : State) : Host.Outcome State Fault Refusal :=
  runPark (.fdot2 k d a b) d a b s

/-- One lane of FDOT2: one group of two products (R57, R112). -/
def fdot2Lane (k : FDotK) (d a b : W32) : FpOut :=
  let f := match k with
    | .f16 => Fmt.f16
    | .bf16 => Fmt.bf16
  let ps := (List.range 2).map fun j => (f.decode (elemOf 16 a.toNat j)).mul (f.decode (elemOf 16 b.toNat j))
  groupSum (Fmt.f32.decode d.toNat :: ps)

end Sys2Proof.Machine
end

