-- ==== Sys2Proof/Machine/Exit.lean ====
section
/-!
DEFINITION. EXIT (R132, R296), TRAP and BRKPT (R298), and the end of an emulated instruction (R278).
-/
namespace Sys2Proof.Machine

/-! ## TRAP and BRKPT (R298) -/

/-- TRAP and BRKPT: the trap with the immediate as its INFO; TRESUME goes on at the word after. -/
def softTrap (c : Cause) (n : BitVec 11) : Trap := { cause := c, info := some n.toNat, after := true }

/-- TRAP. -/
def execTrap (n : BitVec 11) (s : State) : Host.Outcome State Fault Refusal := runAgent s 1 fun _ _ => .error (softTrap .trap n)

/-- BRKPT. -/
def execBrkpt (n : BitVec 11) (s : State) : Host.Outcome State Fault Refusal := runAgent s 1 fun _ _ => .error (softTrap .brk n)

/-! ## EXIT (R132, R296, R327) -/

/-- An error that has arrived is delivered before an EXIT or CONT takes effect (R327). -/
def needNoErrs (t : Team) : Except Trap Unit :=
  match t.errs with
  | x :: _ => .error x.deliver
  | [] => .ok ()

/-- A team is STOPPED. -/
def State.teamStopped (s : State) (tid : Nat) : Bool :=
  match alook tid s.teams with
  | some t => t.st == .stopped
  | none => false

/-- The end of a handler run (R296): a team still STOPPED has its fault domain killed. One that a TRESUME has resumed is STOPPED by another
trap, which is still to be handled (R297). -/
def State.endHandler (s : State) (core : Nat) (a : Agent) (t : Team) : State :=
  match (s.core core).active.handling with
  | none => s
  | some h =>
    let s1 := (s.setAgent a { t with st := .retired, wait := .none, loop := none, clause := ClauseCtx.empty }).modCore core
      fun x => x.modActive fun b => { b with handling := none }
    (if s.teamStopped h.tid && !h.resumed then s1.killTeamDomain h.tid else s1).closeContext (s.env a).ctx

/-- EXIT: every lane of the active mask exits, and the stack unwinds (R132); or the handler run ends (R296). -/
def exitForm (s : State) (e : Env) (t : Team) : Except Trap State := do
  needNoErrs t
  if t.ctl then .ok (s.endHandler e.core e.ag t)
  else
    let t1 ← unwindTo s e { t with exited := t.exited ||| t.active } t.stack
    .ok ((s.setAgent e.ag t1).afterDrain e.ag)

/-- EXIT; in a REDUNDANT group a team waits at it for its partner (R313). -/
def execExit (s : State) : Host.Outcome State Fault Refusal := runCommit .exit s exitForm

/-! ## The end of an emulation (R278, R79) -/

/-- The result of an emulated instruction, for the lanes live when it issued. -/
def emulate (e : Env) (t : Team) (i : Instr) (lanes : LaneMask) : Option Team :=
  let ls := lanesOf lanes t.tw
  match i with
  | .idot4 k (.v n) a b =>
    some ((t.writeLanes (t.reg n.val) ls fun l => idot4Lane k (dstLane e t (.v n) l) (srcLane e t a l) (srcLane e t b l)).advance
      (1 + a.words + b.words))
  | .fdot2 k (.v n) a b =>
    let r (l : Nat) : FpOut := fdot2Lane k (dstLane e t (.v n) l) (srcLane e t a l) (srcLane e t b l)
    some (((t.writeLanes (t.reg n.val) ls fun l => BitVec.ofNat 32 (r l).x).addFp
      (ls.foldl (fun m l => m ||| (r l).fl) 0)).advance (1 + a.words + b.words))
  | _ => none

/-- EMULATION_COMPLETE: the MGMT firmware writes the result, and the team goes on after the instruction. -/
def execEmulationComplete (tid : Nat) (s : State) : Host.Outcome State Fault Refusal :=
  runEvent s do
    let t ← alook tid s.teams
    match t.st, t.wait with
    | .parked, .emul i lanes =>
      let t1 ← emulate (s.env (.team tid)) { t with st := .ready, wait := .none } i lanes
      if s.fwUp 7 && s.mayIssue tid && !s.expired tid t.since then some { s with teams := aset tid t1 s.teams } else none
    | _, _ => none

/-- The watchdog ends the park, or the MGMT core reports that it cannot complete it: EMULATED. -/
def State.emulationTimeout (s : State) (tid : Nat) (reported : Bool) : Option State := do
  let t ← alook tid s.teams
  match t.st, t.wait with
  | .parked, .emul _ lanes =>
    if (reported && s.fwUp 7 && s.inActive tid) || s.expired tid t.since then
      some (s.stopTeam tid { cause := .emulated, mask := some lanes, count := if s.expired tid t.since then some (s.expiry tid t.since) else none })
    else none
  | _, _ => none

/-- EMULATION_TIMEOUT. -/
def execEmulationTimeout (tid : Nat) (reported : Bool) (s : State) : Host.Outcome State Fault Refusal := runEvent s (s.emulationTimeout tid reported)

end Sys2Proof.Machine
end

