-- ==== Sys2Proof/Machine/Fence.lean ====
section
/-!
DEFINITION. FENCE, QFENCE and TLBINV (R242, R247, R321), and the ends of their waits.
-/
namespace Sys2Proof.Machine

/-- The agent that a wait's step names: the team, or the control thread that handles that team's trap. -/
def State.waiterOf (s : State) (tid : Nat) : Agent :=
  let c := s.agentCore (.team tid)
  match (s.core c).active.handling, (s.core c).active.ctx with
  | some h, some x => if h.tid = tid then .ctl c x else .team tid
  | _, _ => .team tid

/-! ## FENCE (R242) -/

/-- An operation returns values. -/
def PendKind.returns (k : PendKind) : Bool :=
  match k with
  | .load _ | .atomic _ _ => true
  | .store | .trd _ | .addOn _ | .drain => false

/-- The accesses that a FENCE waits for. -/
def State.fenceOps (s : State) (a : Agent) (t : Team) (k : FenceKind) : List Nat :=
  match k with
  | .acq => s.pendingOf fun o => o.ag == a && o.kind.returns
  | .rel | .ar => (t.hb.filter fun j => s.opOpen j) ++ s.pendingOf fun o => o.ag == a

/-- The end of a FENCE (R240, R242, R243). As an acquire it takes the releases that the agent's earlier reads have met, and, `.ar`, those
of the earlier FENCE `.ar` in S whose masks and its own are inclusive for each other; as a release it stands before the agent's later
writes and engine operations with all that happens before it. -/
def State.endFence (s : State) (a : Agent) (t : Team) (k : FenceKind) (obs : BitVec 7) : State :=
  let p := s.party a obs []
  let hb := t.hb ++ (if k = .rel then [] else acquired p t.latent) ++ (if k = .ar then acquired p s.sfences else [])
  let set := t.own ++ hb
  let t1 : Team := { t with st := .ready, wait := .none, hb := hb, fences := if k = .acq then t.fences else t.fences ++ [(obs, set)] }
  let s1 : State := { s with sfences := if k = .ar then s.sfences ++ [{ p with set := s.closure set }] else s.sfences }
  s1.setAgent a (t1.advance 1)

/-- FENCE (R242): the agent waits until its accesses concerned are performed. -/
def execFence (k : FenceKind) (obs : BitVec 7) (s : State) : Host.Outcome State Fault Refusal :=
  runState s fun e t => do
    needOperand (obs != 0)
    let ops := s.fenceOps e.ag t k
    if ops.isEmpty then .ok (s.endFence e.ag t k obs)
    else .ok (s.setAgent e.ag { t with st := .waiting, wait := .fence k obs ops })

/-! ## QFENCE (R247) -/

/-- The queue of a command: bit 5 PQ, bit 6 SQ. -/
def CmdKind.queue (k : CmdKind) : Nat :=
  match k with
  | .scan => 6
  | .set _ | .clr _ | .emit => 5

/-- The operations that a core posted to the queues of a mask and that have not completed. -/
def State.posted (s : State) (core qm : Nat) : List Nat :=
  ((afilter (fun _ c => c.core == core && bitAt qm c.q) s.copies).map fun e => e.1) ++
  ((afilter (fun _ m => m.core == core && bitAt qm 4) s.mqs).map fun e => e.1) ++
  ((afilter (fun _ c => c.core == core && bitAt qm c.kind.queue) s.cmds).map fun e => e.1)

/-- An engine operation has not completed. -/
def State.engineOpen (s : State) (k : Nat) : Bool :=
  (alook k s.copies).isSome || (alook k s.mqs).isSome || (alook k s.cmds).isSome

/-- The operations that stand before an operation posted now to a queue: those joined, and those posted to the queue before it (R246). -/
def State.joined (s : State) (core q : Nat) : List Nat :=
  (s.core core).active.joins.flatMap fun j => if bitAt j.1 q then j.2 else []

/-- A join placed with the queues of the active bank, or an operation posted to a queue. -/
def State.placeJoin (s : State) (core qm : Nat) (ops : List Nat) : State :=
  s.modCore core fun x => x.modActive fun b => { b with joins := b.joins ++ [(qm, ops)] }

/-- An agent past the posting of an engine operation to a queue. -/
def Team.posted (t : Team) (q id : Nat) : Team := { t with posts := t.posts ++ [(2 ^ q, id)] }

/-- The engine operations that an agent has posted to the queues of a mask. -/
def Team.postedTo (t : Team) (qm : Nat) : List Nat := (t.posts.filter fun p => Nat.land p.1 qm != 0).map fun p => p.2

/-- QFENCE (R247); with `.wait` it is an acquire of what it joins, and of what the team itself has posted to the queues before (R246). -/
def execQfence (wait : Bool) (qm : BitVec 7) (s : State) : Host.Outcome State Fault Refusal :=
  runState s fun e t => do
    needOperand (qm != 0)
    let ops := s.posted e.core qm.toNat
    let s1 := s.placeJoin e.core qm.toNat ops
    let own := t.postedTo qm.toNat
    if wait && !ops.isEmpty then .ok (s1.setAgent e.ag { t with st := .waiting, wait := .qfence (ops ++ own) })
    else .ok (s1.setAgent e.ag ({ t with hb := t.hb ++ (if wait then own else []) }.advance 1))

/-! ## TLBINV (R321) -/

/-- What a TLBINV names: a context, and in it the addresses from lo to hi - 1; or everything. -/
structure TlbRange where
  ctx : Option Nat
  lo  : Nat
  hi  : Nat
  deriving DecidableEq, Repr

/-- A source that must be `z`. -/
def isZ (x : Src) : Bool :=
  match x with
  | .reg .z => true
  | _ => false

/-- The operands of TLBINV. -/
def tlbRange (e : Env) (t : Team) (k : TlbK) (d a b : Src) : Option TlbRange :=
  let ctx := (srcScalar e t d).toNat
  let x := (srcScalar e t a).toNat
  let n := (srcScalar e t b).toNat
  match k with
  | .page => if ctx < 2 ^ 16 ∧ isZ b = true then some { ctx := some ctx, lo := x, hi := x + 1 } else none
  | .range => if ctx < 2 ^ 16 ∧ x % 65536 = 0 ∧ n ≠ 0 ∧ n % 65536 = 0 then some { ctx := some ctx, lo := x, hi := x + n } else none
  | .ctx => if ctx < 2 ^ 16 ∧ isZ a = true ∧ isZ b = true then some { ctx := some ctx, lo := 0, hi := 2 ^ 64 } else none
  | .all => if isZ d && isZ a && isZ b then some { ctx := none, lo := 0, hi := 2 ^ 64 } else none

/-- A translation is one of those named. -/
def TlbRange.hits (r : TlbRange) (e : TlbEntry) : Bool :=
  (match r.ctx with
   | some c => e.ctx == c
   | none => true) && Nat.blt e.page r.hi && Nat.blt r.lo (e.page + e.size)

/-- A translation is of a context's address. -/
def TlbEntry.translates (e : TlbEntry) (ctx va : Nat) : Bool := e.ctx == ctx && Nat.ble e.page va && Nat.blt va (e.page + e.size)

/-- A write of a number that a REDUNDANT team still holds (R312). -/
def State.heldOpen (s : State) (k : Nat) : Bool := aany (fun _ t => t.held.any fun h => h.seq == k) s.teams

/-- An access is still to be performed: of an agent, of an engine, or a held write. -/
def State.stillToDo (s : State) (k : Nat) : Bool := s.opOpen k || s.engineOpen k || s.heldOpen k

/-- The accesses still to be performed that used one of a list of translations, held writes among them, and those for which a TLBINV of
another agent still waits, as they used translations that it has removed. -/
def State.usersOf (s : State) (es : List TlbEntry) : List Nat :=
  (s.pendingOf fun o => es.any fun e => o.lanes.any fun l => l.isOpen && e.translates o.ctx l.va.toNat) ++
  ((afilter (fun _ m => !m.dest.isEmpty && es.any fun e => e.ctx == m.ctx) s.mqs).map fun m => m.1) ++
  (s.teams.flatMap fun x => (x.2.held.filter fun h => es.any fun e => e.translates (s.env (.team x.1)).ctx h.va).map fun h => h.seq) ++
  ((s.teams ++ s.ctls).flatMap fun x => match x.2.wait with
    | .tlbinv _ ops true => ops.filter fun k => s.stillToDo k
    | _ => [])

/-- The translations named are removed, after the release for E and K; the agent goes on when every access that used one is performed. -/
def State.tlbRemove (s : State) (a : Agent) (t : Team) (i : Instr) (n : Nat) (r : TlbRange) : State :=
  let ops := s.usersOf (s.tlb.filter r.hits)
  let s1 : State := { s with tlb := s.tlb.filter fun e => !r.hits e }
  let t1 : Team := { t with fences := t.fences ++ [(0b0001100, t.own ++ t.hb)] }
  s1.setAgent a (if ops.isEmpty then ({ t1 with st := .ready, wait := .none } : Team).advance n
    else { t1 with st := .waiting, wait := .tlbinv i ops true })

/-- TLBINV: a release first, so the issuer waits for its earlier accesses; then the removal. -/
def tlbinvForm (k : TlbK) (d a b : Src) (s : State) (e : Env) (t : Team) : Except Trap State := do
  checkLevel t .system
  checkScalars t [d, a, b]
  match tlbRange e t k d a b with
  | none => .error (Trap.of .operand)
  | some r =>
    let ops := s.fenceOps e.ag t .rel
    if ops.isEmpty then .ok (s.tlbRemove e.ag t (.tlbinv k d a b) (1 + d.words + a.words + b.words) r)
    else .ok (s.setAgent e.ag { t with st := .waiting, wait := .tlbinv (.tlbinv k d a b) ops false })

/-- TLBINV. -/
def execTlbinv (k : TlbK) (d a b : Src) (s : State) : Host.Outcome State Fault Refusal := runState s (tlbinvForm k d a b s)

/-- A TLBINV whose accesses are performed: the removal follows the release, and the next word the removal's accesses. -/
def State.tlbGoOn (s : State) (a : Agent) (t : Team) (i : Instr) (removed : Bool) : Option State :=
  match i with
  | .tlbinv k d x y =>
    let n := 1 + d.words + x.words + y.words
    if removed then some (s.setAgent a (({ t with st := .ready, wait := .none } : Team).advance n))
    else (tlbRange (s.env a) t k d x y).map fun r => s.tlbRemove a t i n r
  | _ => none

/-- FENCE_WAIT_END: the accesses concerned are performed; an access that waited for them executes again. -/
def execFenceWaitEnd (tid : Nat) (s : State) : Host.Outcome State Fault Refusal :=
  runEvent s do
    let a := s.waiterOf tid
    let t ← s.agent a
    match t.st, t.wait with
    | .waiting, .fence k obs ops => if ops.all fun k => !s.opOpen k then some (s.endFence a t k obs) else none
    | .waiting, .order ops => if ops.all fun k => !s.opOpen k then some (s.setAgent a { t with st := .ready, wait := .none }) else none
    | .waiting, .tlbinv i ops removed => if ops.all fun k => !s.stillToDo k then s.tlbGoOn a t i removed else none
    | _, _ => none

/-- QFENCE_WAIT_END: every joined operation has completed, and its writes are acquired. -/
def execQfenceWaitEnd (tid : Nat) (s : State) : Host.Outcome State Fault Refusal :=
  runEvent s do
    let a := s.waiterOf tid
    let t ← s.agent a
    match t.st, t.wait with
    | .waiting, .qfence ops =>
      if ops.all fun k => !s.engineOpen k then
        some (s.setAgent a (({ t with st := .ready, wait := .none, hb := t.hb ++ ops } : Team).advance 1))
      else none
    | _, _ => none

end Sys2Proof.Machine
end

