-- ==== Sys2Proof/Machine/Barrier.lean ====
section
/-!
DEFINITION. Barriers (R217 to R236): the entry and its steps, the seven instructions, and the ends of a barrier wait.
-/
namespace Sys2Proof.Machine

/-! ## The entry (R220, R221, R223) -/

/-- A barrier as BINIT opens it (R227). -/
def Barrier.init (expa expb scope : Nat) : Barrier :=
  { expB := expb, cntB := 0, expA := expa, cntA := 0, phase := 0, scope := scope, err := 0, lastErr := 0, arr := [], rel := []
    done := [], wq := [] }

/-- R221 complete. -/
def Barrier.complete (b : Barrier) : Barrier :=
  { b with
    lastErr := b.err, phase := (b.phase + 1) % 2 ^ 16, cntA := 0, cntB := 0, expB := 0, err := 0, arr := [], rel := []
    done := b.done ++ [b.rel] }

/-- R221 check. -/
def Barrier.check (b : Barrier) : Barrier :=
  if 0 < b.expA + b.expB ∧ b.expA ≤ b.cntA ∧ b.expB ≤ b.cntB then
    (if b.expB < b.cntB ∧ b.err = 0 then { b with err := 0x01 } else b).complete
  else b

/-- R221 arrive, by a team, with the accesses that its arrival releases (R224). One in excess is not among the arrivals that ARRMASK shows
(R235; DESIGN CHOICE, log entry 66). -/
def Barrier.arrive (b : Barrier) (tid : Nat) (ops : List Nat) : Barrier :=
  (if b.cntA = b.expA then { b with err := if b.err = 0 then 0x03 else b.err }
   else { b with cntA := b.cntA + 1, arr := b.arr ++ [tid], rel := b.rel ++ ops }).check

/-- The other copy's team of a REDUNDANT group has arrived with a team that stands in the present phase: the two count as one (R236). -/
def Barrier.alsoArrived (b : Barrier) (tid other : Nat) : Barrier := if b.arr.contains tid then { b with arr := b.arr ++ [other] } else b

/-- R221 credit, with the writes of the bytes that landed (R224); CNTB saturates. -/
def Barrier.credit (b : Barrier) (n : Nat) (ops : List Nat) : Barrier :=
  { b with cntB := min (b.cntB + n) (2 ^ 32 - 1), rel := b.rel ++ ops }.check

/-- R221 bexp. -/
def Barrier.bexp (b : Barrier) (n : Nat) : Barrier := { b with expB := min (b.expB + n) (2 ^ 32 - 1) }.check

/-- R221 engine_error. -/
def Barrier.engineError (b : Barrier) (code : Nat) : Barrier := { b with err := code }.complete

/-- The status of a phase, where it is complete (R223). -/
def Barrier.status (b : Barrier) (p : Nat) : Option Nat :=
  let diff := (b.phase + 2 ^ 16 - p % 2 ^ 16) % 2 ^ 16
  if diff = 0 ∨ 2 ^ 15 ≤ diff then none else if diff = 1 then some b.lastErr else some 0x02

/-- What an acquire of phase p takes, where it is complete: what it and every earlier phase release (R224). -/
def Barrier.releases (b : Barrier) (p : Nat) : List Nat :=
  (b.done.take (b.done.length + 1 - (b.phase + 2 ^ 16 - p % 2 ^ 16) % 2 ^ 16)).flatten

/-- The low half of an OPEN entry (R220). -/
def Barrier.low (b : Barrier) : W64 :=
  BitVec.ofNat 64 (b.expA * 2 ^ 50 + b.cntA * 2 ^ 36 + b.phase * 2 ^ 20 + b.scope * 2 ^ 18 + 2 ^ 16 + b.err * 2 ^ 8 + b.lastErr)

/-- The high half (R220). -/
def Barrier.high (b : Barrier) : W64 := BitVec.ofNat 64 (b.expB * 2 ^ 32 + b.cntB)

/-! ## Where an entry stands (R217 to R219) -/

/-- An OPEN entry. -/
def State.barAt (s : State) (r : BarRef) : Option Barrier :=
  match r with
  | .group gid id => match alook gid s.groups with
    | some g => alook id g.bars
    | none => none
  | .shared k => (alook k s.bars).map fun x => x.b

/-- An OPEN entry replaced by a function of it; nothing where it is no longer OPEN (R232). -/
def State.putBar (s : State) (r : BarRef) (f : Barrier → Barrier) : State :=
  match r with
  | .group gid id => match alook gid s.groups with
    | some g => match alook id g.bars with
      | some b => { s with groups := aset gid { g with bars := aset id (f b) g.bars } s.groups }
      | none => s
    | none => s
  | .shared k => match alook k s.bars with
    | some x => { s with bars := aset k { x with b := f x.b } s.bars }
    | none => s

/-- A team that waits at an entry for a phase which is now complete has its status, and acquires the phase (R224, R230). -/
def Team.served (t : Team) (r : BarRef) (b : Barrier) : Team :=
  match t.st, t.wait with
  | .waiting, .barrier q p n d none =>
    match (if q = r then b.status p else none) with
    | some v => { t with wait := .barrier q p n d (some v), hb := t.hb ++ b.releases p }
    | none => t
  | _, _ => t

/-- The teams of active banks that wait at an entry served; one that a swap has saved executes its wait again (R234). -/
def State.serve (s : State) (r : BarRef) : State :=
  match s.barAt r with
  | some b => { s with teams := amap (fun k t => if s.inActive k && (s.core (s.agentCore (.team k))).swap.isNone then t.served r b else t) s.teams }
  | none => s

/-- An OPEN entry changed in one indivisible step, with the completion that it may cause (R221); nothing where it is no longer OPEN (R232). -/
def State.modBar (s : State) (r : BarRef) (f : Barrier → Barrier) : State := (s.putBar r f).serve r

/-- The scope of an id (R217). -/
def barScope (id : Nat) : Nat := if id < 1024 then 0 else if id < 1536 then 1 else 2

/-- The OPEN entry that an id names for an agent. -/
def State.barRef (s : State) (e : Env) (id : Nat) : Option BarRef :=
  if e.ctl then none
  else if id < 1024 then (if (s.barAt (.group e.gid id)).isSome then some (.group e.gid id) else none)
  else (afind (fun _ x => x.launch == e.launch && x.id == id && (Nat.ble 1536 id || x.die == e.die)) s.bars).map
    fun x => .shared x.1

/-- A launch is flagged CORESIDENT (R225, R256). -/
def State.coresident (s : State) (launch : Nat) : Bool :=
  match alook launch s.launches with
  | some l => bitAt (wordN l.task 7) 62
  | none => false

/-- The home core of an entry (R217). -/
def State.barHome (s : State) (r : BarRef) : Nat :=
  match r with
  | .group gid _ => match alook gid s.groups with
    | some g => g.place.core
    | none => 0
  | .shared k => match alook k s.bars with
    | some x => x.home
    | none => 0

/-- Steps 1 and 2 of R226: the id. -/
def barId (s : State) (e : Env) (t : Team) (a : Src) : Except Trap Nat := do
  let id := (srcScalar e t a).toNat
  needOperand (Nat.blt id 2048)
  need (e.ctl || Nat.blt id 1536 || s.coresident e.launch) (Trap.of .barrierScope)
  .ok id

/-- Step 3 of R226: the OPEN entry. -/
def barOpen (s : State) (e : Env) (t : Team) (a : Src) : Except Trap BarRef := do
  let id ← barId s e t a
  match s.barRef e id with
  | some r => .ok r
  | none => .error (Trap.of .operand)

/-! ## BINIT (R227) -/

/-- The barrier entries of a core that are held (R217). -/
def State.entriesHeld (s : State) (core : Nat) : Nat :=
  sumOf (fun (e : Nat × Group) => if e.2.resident && e.2.place.core == core then e.2.nb else 0) s.groups +
  acount (fun _ x => x.home == core) s.bars

/-- The barrier request of an agent's group. -/
def State.nbOf (s : State) (gid : Nat) : Nat :=
  match alook gid s.groups with
  | some g => g.nb
  | none => 0

/-- A group id opened. -/
def State.openGroupBar (s : State) (gid id : Nat) (b : Barrier) : State :=
  match alook gid s.groups with
  | some g => { s with groups := aset gid { g with bars := aset id b g.bars } s.groups }
  | none => s

/-- BINIT. -/
def execBinit (d : Reg) (a b : Src) (s : State) : Host.Outcome State Fault Refusal :=
  runState s fun e t => do
    checkScalars t [a, b]
    needOperand (isScaDst d)
    let id ← barId s e t a
    needOperand (!e.ctl && (Nat.ble 1024 id || Nat.blt id (s.nbOf e.gid)))
    let x := (srcScalar e t b).toNat
    needOperand (Nat.blt x (2 ^ 46) && x != 0)
    let put (s1 : State) (v : W64) : Except Trap State :=
      .ok (s1.setAgent e.ag ((t.writeScalar d v).advance (1 + a.words + b.words)))
    let nb := Barrier.init (bits x 45 32) (bits x 31 0) (barScope id)
    match s.barRef e id with
    | some r => match s.barAt r with
      | some o => put s (if bits x 45 32 = o.expA then 1 else 2)
      | none => put s 3
    | none =>
      if id < 1024 then put (s.openGroupBar e.gid id nb) 0
      else if s.entriesHeld e.core < Config.barEntries ∧ s.barsFit e.ctx e.region 1 = true then
        put { s with
          bars := aset s.nextId { launch := e.launch, die := e.die, id := id, home := e.core, b := nb } s.bars
          nextId := s.nextId + 1 } 0
      else put s 3

/-! ## BARV, BWAIT, BTEST (R228, R230) -/

/-- An acquire of a barrier's phase p and every earlier one (R224). -/
def Team.acquireBar (t : Team) (b : Barrier) (p : Nat) : Team := { t with hb := t.hb ++ b.releases p }

/-- A team that begins to wait for a phase. -/
def State.waitBar (s : State) (e : Env) (t : Team) (tid : Nat) (r : BarRef) (p n : Nat) (d : Reg) : State :=
  (s.putBar r fun b => { b with wq := (b.wq.filter fun k => k != tid) ++ [tid] }).setAgent e.ag
    { t with st := .waiting, wait := .barrier r p n d none, since := (s.core e.core).count }

/-- A phase waited for: its status at once where it is complete (R230), or the wait. -/
def State.awaitPhase (s : State) (e : Env) (t : Team) (r : BarRef) (p n : Nat) (d : Reg) : State :=
  match s.barAt r with
  | none => s
  | some b =>
    match b.status p with
    | some v => s.setAgent e.ag
        ({ ((t.acquireBar b p).writeScalar d (BitVec.ofNat 64 v)).advance n with arrived := none, st := .ready, wait := .none } : Team)
    | none => s.waitBar e t e.ag.tid r p n d

/-- BARV (R228, R385): an interrupted BARV `.wait` that has arrived does not arrive again. -/
def barvForm (wait : Bool) (d : Reg) (a : Src) (s : State) (e : Env) (t : Team) : Except Trap State := do
  checkScalars t [a]
  needOperand (isScaDst d)
  let r ← barOpen s e t a
  let n := 1 + a.words
  match (if wait then t.arrived else none), s.barAt r with
  | some p, _ => .ok (s.awaitPhase e t r p n d)
  | none, none => .error (Trap.of .operand)
  | none, some b =>
    let s1 := s.modBar r fun x => x.arrive e.ag.tid t.released
    let s2 := if b.scope = 0 then s1 else s1.committed e.gid
    if wait then .ok (s2.awaitPhase e { t with arrived := some b.phase } r b.phase n d)
    else .ok (s2.setAgent e.ag ((t.writeScalar d (BitVec.ofNat 64 b.phase)).advance n))

/-- A BARV is a commit: it names an id of die or package scope (R311), and has not arrived yet. -/
def barvCommit (wait : Bool) (a : Src) (e : Env) (t : Team) : Bool :=
  Nat.ble 1024 (srcScalar e t a).toNat && !(wait && t.arrived.isSome)

/-- BARV. -/
def execBarv (wait : Bool) (d : Reg) (a : Src) (s : State) : Host.Outcome State Fault Refusal :=
  runState s fun e t =>
    match barvForm wait d a s e t with
    | .error x => .error x
    | .ok s' => .ok (if s.inCopy e && barvCommit wait a e t then s.holdCommit e t (.barv wait d a) else s')

/-- BWAIT. -/
def execBwait (d : Reg) (a b : Src) (s : State) : Host.Outcome State Fault Refusal :=
  runState s fun e t => do
    checkScalars t [a, b]
    needOperand (isScaDst d)
    let r ← barOpen s e t a
    .ok (s.awaitPhase e t r ((srcScalar e t b).toNat % 2 ^ 16) (1 + a.words + b.words) d)

/-- BTEST. -/
def execBtest (d : Reg) (a b : Src) (s : State) : Host.Outcome State Fault Refusal :=
  runAgent s (1 + a.words + b.words) fun e t => do
    checkScalars t [a, b]
    needOperand (isScaDst d)
    let r ← barOpen s e t a
    match s.barAt r with
    | none => .error (Trap.of .operand)
    | some x =>
      let p := (srcScalar e t b).toNat % 2 ^ 16
      match x.status p with
      | some v => .ok ((t.acquireBar x p).writeScalar d (BitVec.ofNat 64 v))
      | none => .ok (t.writeScalar d (BitVec.allOnes 64))

/-! ## BEXP, BSTAT, BINV (R229, R231, R232) -/

/-- BEXP. -/
def execBexp (a b : Src) (s : State) : Host.Outcome State Fault Refusal :=
  runState s fun e t => do
    checkScalars t [a, b]
    let r ← barOpen s e t a
    let n := (srcScalar e t b).toNat
    needOperand (Nat.blt n (2 ^ 32))
    .ok ((s.modBar r fun x => x.bexp n).setAgent e.ag (t.advance (1 + a.words + b.words)))

/-- BSTAT. -/
def execBstat (hiHalf : Bool) (d : Reg) (a : Src) (s : State) : Host.Outcome State Fault Refusal :=
  runAgent s (1 + a.words) fun e t => do
    checkScalars t [a]
    needOperand (isScaDst d)
    let r ← barOpen s e t a
    match s.barAt r with
    | none => .error (Trap.of .operand)
    | some b => .ok (t.writeScalar d (if hiHalf then b.high else b.low))

/-- The entry no longer OPEN: the id FREE or UNMAPPED, and the commands still in flight that name it crediting nothing (R232). -/
def State.closeBar (s : State) (r : BarRef) : State :=
  let s1 : State := { s with
    copies := amap (fun _ c => if c.bar = r then { c with bar := .shared 0 } else c) s.copies
    cmds := amap (fun _ c => if c.bar = some r then { c with bar := some (.shared 0) } else c) s.cmds }
  match r with
  | .group gid id => match alook gid s1.groups with
    | some g => { s1 with groups := aset gid { g with bars := adel id g.bars } s1.groups }
    | none => s1
  | .shared k => { s1 with bars := adel k s1.bars }

/-- The waits on an entry that no completion has ended end with a status, which is no acquire (R230). -/
def State.endBarWaits (s : State) (r : BarRef) (v : W64) : State :=
  { s with teams := amap (fun _ t =>
      match t.wait with
      | .barrier q _ n d none => if q = r then
          { (({ t with st := .ready, wait := .none } : Team).writeScalar d v).advance n with arrived := none } else t
      | _ => t) s.teams }

/-- BINV. -/
def execBinv (a : Src) (s : State) : Host.Outcome State Fault Refusal :=
  runState s fun e t => do
    checkScalars t [a]
    let r ← barOpen s e t a
    .ok (((s.setAgent e.ag (t.advance (1 + a.words))).endBarWaits r 0x20).closeBar r)

/-! ## The ends of a wait (R233, R234) -/

/-- BARRIER_WAIT_WAKE: the phase is complete, and its status is written. -/
def execBarrierWaitWake (tid : Nat) (s : State) : Host.Outcome State Fault Refusal :=
  runEvent s do
    let t ← alook tid s.teams
    match t.st, t.wait with
    | .waiting, .barrier _ _ n d (some v) =>
      let t1 := (({ t with st := .ready, wait := .none, arrived := none } : Team).writeScalar d (BitVec.ofNat 64 v)).advance n
      if s.mayIssue tid then some { s with teams := aset tid t1 s.teams } else none
    | _, _ => none

/-- A team waits for a phase of an entry that no completion has ended. -/
def Team.waitsFor (t : Team) (r : BarRef) (p : Nat) : Bool :=
  t.st == .waiting && (match t.wait with
    | .barrier q k _ _ none => q == r && k == p
    | _ => false)

/-- The teams that wait for a phase, in their active banks. -/
def State.phaseWaiters (s : State) (r : BarRef) (p : Nat) : List Nat :=
  (s.teams.filter fun e => e.2.waitsFor r p && s.inActive e.1).map fun e => e.1

/-- The teams of a list in ascending team slot (R384). -/
def State.bySlot (s : State) (tids : List Nat) : List Nat :=
  let key (k : Nat) : Nat := match alook k s.teams with
    | some t => t.slot
    | none => 0
  ((tids.foldl (fun (m : List (Nat × Nat)) k => ains (key k) k m) [])).map fun e => e.2

/-- The watchdog that began with the first waiting team has expired; every team waiting for the phase stops, at the COUNT
of the expiry on the first one's core (R384). ARRMASK has the arrivals of the entry's current phase, also where the phase waited for is a
later one (R235; DESIGN CHOICE, log entry 66). -/
def State.barrierTimeout (s : State) (tid : Nat) : Option State := do
  let t ← alook tid s.teams
  match t.wait with
  | .barrier r p _ _ none =>
    let b ← s.barAt r
    let ws := s.phaseWaiters r p
    let first ← b.wq.find? fun k => ws.contains k
    if first = tid ∧ (b.status p).isNone ∧ s.expired tid t.since = true then
      let id := match r with
        | .group _ id => id
        | .shared k => match alook k s.bars with
          | some x => x.id
          | none => 0
      let d (g : Option Group) : Diag := {
        kind := 0, phase := p, id := id, scope := b.scope, cntb := b.cntB, expb := b.expB, cnta := b.cntA, expa := b.expA
        arr := match g with
          | some x => tixMask x b.arr
          | none => 0
        start := t.since, expiry := s.expiry tid t.since, home := s.barHome r }
      some ((s.bySlot ws).foldl (fun (st : State) k =>
        let same := s.agentCore (.team k) == s.agentCore (.team tid)
        st.watchTrap k { cause := .barrierTimeout, count := if same then some (s.expiry tid t.since) else none }
          (d (s.groupOf (.team k) |>.map Prod.snd))) s)
    else none
  | _ => none

/-- BARRIER_TIMEOUT. -/
def execBarrierTimeout (tid : Nat) (s : State) : Host.Outcome State Fault Refusal := runEvent s (s.barrierTimeout tid)

end Sys2Proof.Machine
end

