-- ==== Sys2Proof/Machine/Copy.lean ====
section
/-!
DEFINITION. Bulk copies (R191 to R199): COPY, the stream pattern record, and the steps of the copy engines. A copy lands in
units, in any order: an element, or a byte of the tensor header or of codes (R50); those of one granule of a tile land in one step (R197).
-/
namespace Sys2Proof.Machine

/-! ## The stream pattern record (R192, R193) -/

/-- A stream pattern record. `str` holds the destination and source strides of dimensions 0 to 3. -/
structure Pattern where
  src  : W64
  dst  : W64
  str  : List (Int × Int)
  w5   : W64
  cnt  : List Nat
  e    : Int
  dfmt : Nat
  sfmt : Nat
  hblk : Nat
  xf   : Nat
  lgf  : Bool
  iw   : Nat
  ind  : Nat
  esz  : Nat
  rsvOk : Bool
  deriving DecidableEq, Repr

/-- The fields of R192. -/
def Pattern.parse (ws : List W64) : Pattern :=
  let w (i : Nat) : Nat := wordN ws i
  let ctl := w 7
  let n (i : Nat) : Nat := bits (w 6) (16 * i + 15) (16 * i)
  { src := ws.getD 0 0, dst := ws.getD 1 0
    str := (List.range 4).map fun k => (sInt 32 (bits (w (2 + k)) 63 32), sInt 32 (bits (w (2 + k)) 31 0))
    w5 := ws.getD 5 0, cnt := [n 0, n 1, n 2, n 3]
    e := sInt 8 (bits ctl 39 32), dfmt := bits ctl 31 28, sfmt := bits ctl 27 24, hblk := bits ctl 23 22, xf := bits ctl 21 20
    lgf := bitAt ctl 19, iw := bits ctl 18 17, ind := bits ctl 16 15, esz := bits ctl 14 12
    rsvOk := bits ctl 63 40 == 0 && bits ctl 11 0 == 0 }

/-- The count of a dimension. -/
def Pattern.c (p : Pattern) (k : Nat) : Nat := p.cnt.getD k 0

/-- The strides of a dimension: destination and source. Dimension 3 has none where word 5 is IDX or SEED. -/
def Pattern.strides (p : Pattern) (k : Nat) : Int × Int := p.str.getD k (0, 0)

/-- The bytes of an element. -/
def Pattern.bytes (p : Pattern) : Nat := 2 ^ p.esz

/-- The ESZ of a floating format (R193). -/
def fmtEsz (f : Nat) : Nat := if f = 0 then 2 else 1

/-- A floating format by its code. -/
def fmtOf (f : Nat) : Fmt :=
  match f with
  | 0 => .f32
  | 1 => .f16
  | _ => .bf16

/-- The checks of R193. -/
def Pattern.ok (p : Pattern) (q : Bool) : Bool :=
  p.rsvOk && p.iw != 3 && Nat.blt p.esz 5 && p.xf != 3 &&
  (q == (p.xf != 0)) &&
  !(p.ind != 0 && p.xf != 0) &&
  !((p.ind != 0 || (p.xf == 1 && p.hblk != 0)) && p.c 3 != 1) &&
  (match p.xf with
   | 0 => p.e == 0 && p.dfmt == 0 && p.sfmt == 0 && p.hblk == 0 && !p.lgf
   | 1 => Nat.ble p.sfmt 2 && p.esz == fmtEsz p.sfmt &&
       (p.hblk == 0 || p.c 0 % hblkSize p.hblk == 0) && (p.strides 0).1 == 0
   | _ => Nat.ble p.dfmt 2 && p.esz == fmtEsz p.dfmt && (p.strides 0).2 == 0 && p.e == 0 && p.hblk == 0 && !p.lgf)

/-! ## COPY (R191) -/

/-- The copies in flight on a core. -/
def State.inFlight (s : State) (core : Nat) : Nat := acount (fun _ c => c.core == core) s.copies

/-- COPY: its checks, then the stall or the posting. -/
def copyForm (xf : Bool) (cq : Fin 4) (a b : Src) (s : State) (e : Env) (t : Team) : Except Trap State := do
  checkScalars t [a, b]
  let r ← barOpen s e t b
  let addr := srcScalar e t a
  let ls := lanesTgt s e t { write := false, atomic := false, n := 64 } [0] (fun _ => addr)
  match firstErr ls with
  | some x => .error (addrTrap ls x false)
  | none =>
    if Config.copyLimit ≤ s.inFlight e.core then
      .ok (s.setAgent e.ag { t with st := .waiting, wait := .copyStall (.copy xf cq a b) })
    else
      let c : CopyOp := {
        core := e.core, q := cq.val, ag := e.ag, gid := e.gid, ctx := e.ctx, xf := xf, addr := addr, launch := e.launch
        bar := r, flag := t.nextFlag, st := .posted, pat := [], src := none, dst := none, idx := none, hdr := [], err := 0, landed := []
        after := s.joined e.core cq.val ++ t.fenced 3, pc := s.origPc t.gid t.pc }
      let s1 := (s.useAll e [addr]).placeJoin e.core (2 ^ cq.val) [s.nextId]
      .ok ({ s1 with copies := aset s1.nextId c s1.copies, nextId := s1.nextId + 1 }.setAgent e.ag
        ((t.countOn.posted cq.val s.nextId).advance (1 + a.words + b.words)))

/-- COPY (R191). -/
def execCopy (xf : Bool) (cq : Fin 4) (a b : Src) (s : State) : Host.Outcome State Fault Refusal :=
  runState s (copyForm xf cq a b s)

/-- COPY_STALL_END: a copy has completed, and the stalled COPY issues. -/
def execCopyStallEnd (tid : Nat) (s : State) : Host.Outcome State Fault Refusal :=
  runEvent s do
    let t ← alook tid s.teams
    match t.st, t.wait with
    | .waiting, .copyStall (.copy xf cq a b) =>
      if s.mayIssue tid && Nat.blt (s.inFlight (s.agentCore (.team tid))) Config.copyLimit then
        some (s.reissue (.team tid) (copyForm xf cq a b))
      else none
    | _, _ => none

/-! ## Locations (R179, R194) -/

/-- How an engine's access ends short of its target: an error code of R196, or a wait: for a repair at an address, or for
the cellar engine, a port, a home that has parked a request of its line, or a channel that drains. -/
inductive EngErr where
  | code (n : Nat)
  | page (va : W64)
  | hold
  deriving DecidableEq, Repr

/-- A memory target of an engine that acts for a context at a level. -/
def State.engTarget (s : State) (ctx : Nat) (level : Level) (write : Bool) (a : W64) : Except EngErr Target :=
  if a.toNat / 2 ^ 56 ≠ 0 then .error (.code 0x13)
  else
    if s.walkBlocked ctx a.toNat then .error .hold
    else
    match s.access { ctx := ctx, level := level, write := write } a.toNat with
    | .ok g => if s.blocked g then .error .hold else .ok g
    | .error .protect => .error (.code 0x13)
    | .error .page => .error (.page a)
    | .error .dead => .error (.code 0x14)

/-- A tile stands in an active bank, where a copy waits for the restore of what it touches (R308). -/
def State.tileActive (s : State) (x : Tile) : Bool :=
  match s.tilePlace x with
  | some (.bank c b) => b == (s.core c).act
  | _ => false

/-- The target of n bytes at a location displaced by a number of bytes. -/
def State.copyLoc (s : State) (c : CopyOp) (tile : Option Nat) (base : W64) (disp : Int) (n : Nat) (write : Bool) :
    Except EngErr Target :=
  if base.toNat / 2 ^ 56 = 255 then
    match tile with
    | none => .error (.code 0x12)
    | some k =>
      match alook k s.tiles with
      | none => .error (.code 0x12)
      | some x =>
        let off : Int := (bits base.toNat 31 0 : Int) + disp
        if bits base.toNat 47 32 ≠ 0 ∨ x.level = 1 ∨ off < 0 ∨ (x.size : Int) < off + n then .error (.code 0x12)
        else if s.tileActive x && (granulesOf off.toNat n).any fun g => bitAt x.cellar g then .error .hold
        else .ok (.tile k off.toNat)
  else s.engTarget c.ctx .program write (base + BitVec.ofInt 64 disp)

/-- An address is a multiple of n (R194). -/
def locAligned (base : W64) (disp : Int) (n : Nat) : Bool := (base + BitVec.ofInt 64 disp).toNat % n == 0

/-- A part of an engine's access: its address, its target and its bytes. -/
structure Span where
  va  : W64
  tgt : Target
  n   : Nat
  deriving DecidableEq, Repr

/-- The parts of n bytes: one where they are aligned as a whole, so that they lie in one page, else one for each byte. -/
def State.copySpan (s : State) (c : CopyOp) (tile : Option Nat) (base : W64) (disp : Int) (n : Nat) (write : Bool) :
    Except EngErr (List Span) :=
  if n != 3 && locAligned base disp n then do
    let g ← s.copyLoc c tile base disp n write
    .ok [{ va := base + BitVec.ofInt 64 disp, tgt := g, n := n }]
  else (List.range n).mapM fun (i : Nat) => do
    let g ← s.copyLoc c tile base (disp + i) 1 write
    .ok { va := base + BitVec.ofInt 64 (disp + i), tgt := g, n := 1 }

/-- The party that a copy's engine is (R237). -/
def CopyOp.party (c : CopyOp) : Nat := copyParty c.core c.q

/-- The parts of a tensor header at the start of a dequantise copy's source (R195); none of another copy. -/
def State.headerSpans (s : State) (c : CopyOp) (p : Pattern) : List Span :=
  if p.xf = 2 then
    match s.copySpan c c.src p.src 0 64 false with
    | .ok l => l
    | .error _ => []
  else []

/-- A part as its engine's read. -/
def Span.read (g : Span) : PartyRead := (g.tgt, g.n, g.va.toNat)

/-- The bytes of a list of parts, as a copy's engine reads them (R237, R246); a poisoned one is error 0x14 (R326). -/
def State.spanBytes (s : State) (c : CopyOp) (l : List Span) : Except EngErr (List Byte) :=
  if l.any fun g => s.tgtPoisoned g.tgt g.n then .error (.code 0x14)
  else .ok (l.flatMap fun g => leBytes (s.valueBy c.party c.after g.tgt g.n g.va.toNat) g.n)

/-- The n bytes of a copy's source. -/
def State.copyRead (s : State) (c : CopyOp) (p : Pattern) (disp : Int) (n : Nat) : Except EngErr (List Byte) := do
  let l ← s.copySpan c c.src p.src disp n false
  s.spanBytes c l

/-- A byte list as a number. -/
def bytesVal (b : List Byte) : Nat := leValue (fun i => b.getD i 0) 0 b.length

/-! ## The units of a copy (R194, R195) -/

/-- The rows of a transform: one for each index of dimensions 1 to 3. -/
def Pattern.rows (p : Pattern) : Nat := p.c 1 * p.c 2 * p.c 3

/-- The bytes of a row of codes: LG8, or LG6 with three bytes to four codes (R50). -/
def codeBytes (lg8 : Bool) (n : Nat) : Nat := if lg8 then n else (n + 3) / 4 * 3

/-- How many units a copy lands in: elements, or, where it quantises, the bytes of the header and of the rows of codes. -/
def Pattern.units (p : Pattern) : Nat :=
  if p.xf = 1 then 64 + p.rows * codeBytes p.lgf (p.c 0) else p.c 0 * p.rows

/-- The indices of dimensions 1 to 3 of a row. -/
def Pattern.rowIdx (p : Pattern) (r : Nat) : List Nat :=
  [r % p.c 1, r / p.c 1 % p.c 2, r / p.c 1 / p.c 2]

/-- The displacement of a row by its indices: destination or source. -/
def Pattern.rowDisp (p : Pattern) (r : Nat) (pick : Int × Int → Int) : Int :=
  ((List.range 3).map fun k => ((p.rowIdx r).getD k 0 : Int) * pick (p.strides (k + 1))).foldl (fun x y => x + y) 0

/-- The parts of the index array's entry i (R194). -/
def State.indexSpan (s : State) (c : CopyOp) (p : Pattern) (i : Nat) : Except EngErr (List Span) :=
  let n : Nat := 2 ^ (p.iw + 1)
  if locAligned p.w5 ((i : Int) * n) n then s.copySpan c c.idx p.w5 ((i : Int) * n) n false else .error (.code 0x11)

/-- The index array's entry i. -/
def State.copyIndex (s : State) (c : CopyOp) (p : Pattern) (i : Nat) : Except EngErr Int := do
  let l ← s.indexSpan c p i
  let b ← s.spanBytes c l
  .ok (bytesVal b : Int)

/-- What a unit does: its bytes, and where they go. -/
structure UnitOut where
  tgts  : List Span
  bytes : List Byte

/-- The indices of dimensions 0 to 3 of an element. -/
def Pattern.elemIdx (p : Pattern) (u : Nat) : List Nat := u % p.c 0 :: p.rowIdx (u / p.c 0)

/-- The displacement of an element's source. Word 5 is IDX where IND ≠ 0, so dimension 3 has no strides then; with IND = 3 an entry of the
index array is taken 0 times, as SSTR3 has no value (DESIGN CHOICE, log entry 55). -/
def State.elemSource (s : State) (c : CopyOp) (p : Pattern) (u : Nat) : Except EngErr Int := do
  let i := p.elemIdx u
  let sub (k : Nat) : Except EngErr Int :=
    if p.ind ≠ 0 ∧ p.ind = k then s.copyIndex c p (i.getD k 0) else .ok (i.getD k 0 : Int)
  let j0 ← sub 0
  let j1 ← sub 1
  let j2 ← sub 2
  let j3 ← sub 3
  .ok (j0 * (p.strides 0).2 + j1 * (p.strides 1).2 + j2 * (p.strides 2).2 + (if p.ind ≠ 0 then 0 else j3 * (p.strides 3).2))

/-- The displacement of an element's destination. -/
def Pattern.elemDest (p : Pattern) (u : Nat) : Int :=
  ((List.range 4).map fun k => if k = 3 ∧ p.ind ≠ 0 then 0 else ((p.elemIdx u).getD k 0 : Int) * (p.strides k).1).foldl (fun x y => x + y) 0

/-- The displacement of a unit's destination: of an element, of a byte of the header, or of a byte of codes. -/
def Pattern.unitDisp (p : Pattern) (u : Nat) : Int :=
  match p.xf with
  | 0 => p.elemDest u
  | 1 =>
    let n := codeBytes p.lgf (p.c 0)
    if u < 64 then u else 64 + p.rowDisp ((u - 64) / n) (fun x => x.1) + ((u - 64) % n : Nat)
  | _ => p.rowDisp (u / p.c 0) (fun x => x.1) + ((u % p.c 0 : Nat) : Int) * (p.strides 0).1

/-- Where a unit goes. -/
def State.unitDest (s : State) (c : CopyOp) (p : Pattern) (u : Nat) : Except EngErr (List Span) :=
  let n := if p.xf = 1 then 1 else p.bytes
  if locAligned p.dst (p.unitDisp u) n then s.copySpan c c.dst p.dst (p.unitDisp u) n true else .error (.code 0x11)

/-- The bytes of a unit of a plain copy: one element. -/
def State.plainUnit (s : State) (c : CopyOp) (p : Pattern) (u : Nat) : Except EngErr (List Byte) := do
  let sd ← s.elemSource c p u
  if !locAligned p.src sd p.bytes || !locAligned p.dst (p.elemDest u) p.bytes then .error (.code 0x11) else s.copyRead c p sd p.bytes

/-- Elements g to g + n - 1 of a source row, decoded (R195). -/
def State.rowElems (s : State) (c : CopyOp) (p : Pattern) (r g n : Nat) : Except EngErr (List FpVal) :=
  (List.range n).mapM fun (k : Nat) =>
    let sd := p.rowDisp r (fun x => x.2) + ((g + k : Nat) : Int) * (p.strides 0).2
    if locAligned p.src sd p.bytes then do
      let b ← s.copyRead c p sd p.bytes
      .ok ((fmtOf p.sfmt).decode (bytesVal b))
    else .error (.code 0x11)

/-- The tensor header that a quantise copy writes (R54, R195). -/
def Pattern.header (p : Pattern) : List Byte :=
  leBytes (p.c 0 + bits (narrow 8 p.e) 7 0 * 2 ^ 40 + p.hblk * 2 ^ 50 + (if p.lgf then 6 else 5) * 2 ^ 52 + 2 ^ 56
    + (if p.hblk = 0 then 0 else p.w5.toNat) * 2 ^ 64) 64

/-- The LG format of a copy. -/
def lgOf (lg8 : Bool) : Lg := if lg8 then .lg8 else .lg6

/-- Codes k to k + n - 1 of a row quantised, zero past the row's end (R48, R50, R56). -/
def State.rowCodes (s : State) (c : CopyOp) (p : Pattern) (r k n : Nat) : Except EngErr (List Nat) :=
  (List.range n).mapM fun (j : Nat) =>
    let i := k + j
    if p.c 0 ≤ i then .ok 0
    else if p.hblk = 0 then do
      let x ← s.rowElems c p r i 1
      .ok ((lgOf p.lgf).encode (x.getD 0 (.fin false 0 0)) p.e).x
    else do
      let h := hblkSize p.hblk
      let x ← s.rowElems c p r (i / h * h) h
      .ok ((lgOf p.lgf).encode ((hadamardRow p.w5 h 1 (i / h * h) x).getD (i % h) (.fin false 0 0)) p.e).x

/-- A byte of a quantise copy: of the header, of LG8 codes, or of LG6 codes, where byte m of three holds the end of code m of four and the
start of the next (R50). -/
def State.quantUnit (s : State) (c : CopyOp) (p : Pattern) (u : Nat) : Except EngErr (List Byte) :=
  if u < 64 then .ok [p.header.getD u 0]
  else
    let n := codeBytes p.lgf (p.c 0)
    let r := (u - 64) / n
    let k := (u - 64) % n
    if p.lgf then do
      let x ← s.rowCodes c p r k 1
      .ok [BitVec.ofNat 8 (x.getD 0 0)]
    else do
      let m := k % 3
      let x ← s.rowCodes c p r (k / 3 * 4 + m) 2
      .ok [BitVec.ofNat 8 (x.getD 0 0 / 4 ^ m + 2 ^ (6 - 2 * m) * (x.getD 1 0 % 4 ^ (m + 1)))]

/-- A tensor header's fields (R54). -/
structure THeader where
  lg8  : Bool
  hblk : Nat
  e    : Int
  n0   : Nat
  seed : W64
  deriving DecidableEq, Repr

/-- A valid tensor header in 64 bytes (R54). -/
def THeader.parse (b : List Byte) : Option THeader :=
  let x := bytesVal b
  if bits x 511 128 ≠ 0 ∨ bits x 63 56 ≠ 1 ∨ (bits x 55 52 ≠ 5 ∧ bits x 55 52 ≠ 6) ∨ bits x 49 48 ≠ 0 ∨ bits x 39 32 ≠ 0 then none
  else some { lg8 := bits x 55 52 == 6, hblk := bits x 51 50, e := sInt 8 (bits x 47 40), n0 := bits x 31 0
              seed := BitVec.ofNat 64 (bits x 127 64) }

/-- A header fits its copy: its rows are as long as the copy's (R195), and a multiple of its block: R56 says that the copy fails where they are
not, and R195 gives no code for it under dequantise (DESIGN CHOICE, log entry 67). -/
def THeader.fits (h : THeader) (p : Pattern) : Bool := h.n0 == p.c 0 && (h.hblk == 0 || p.c 0 % hblkSize h.hblk == 0)

/-- The header of a dequantise copy's source, read before anything moves; 0x15 where it is invalid (R195). -/
def State.copyHeader (s : State) (c : CopyOp) (p : Pattern) : Except EngErr (List Byte) := do
  let b ← s.copyRead c p 0 64
  if (THeader.parse b).any fun h => h.fits p then .ok b else .error (.code 0x15)

/-- The header that a dequantise copy has read. -/
def CopyOp.header (c : CopyOp) : THeader :=
  (THeader.parse (wordBytes c.hdr)).getD { lg8 := false, hblk := 0, e := 0, n0 := 0, seed := 0 }

/-- Codes k to k + n - 1 of a source row of codes, decoded (R46, R50). -/
def State.rowDecode (s : State) (c : CopyOp) (p : Pattern) (h : THeader) (r k n : Nat) : Except EngErr (List FpVal) :=
  let base : Int := 64 + p.rowDisp r (fun x => x.2)
  (List.range n).mapM fun (j : Nat) =>
    let i := k + j
    if h.lg8 then do
      let b ← s.copyRead c p (base + i) 1
      .ok (Lg.lg8.decode (bytesVal b) h.e)
    else do
      let b ← s.copyRead c p (base + 3 * ((i / 4 : Nat) : Int)) 3
      .ok (Lg.lg6.decode (bits (bytesVal b) (6 * (i % 4) + 5) (6 * (i % 4))) h.e)

/-- An element of a dequantise copy. -/
def State.dequantUnit (s : State) (c : CopyOp) (p : Pattern) (u : Nat) : Except EngErr (List Byte) := do
  let h := c.header
  let r := u / p.c 0
  let i := u % p.c 0
  if !locAligned p.dst (p.unitDisp u) p.bytes then .error (.code 0x11)
  else
    let n := hblkSize h.hblk
    let v ← (if h.hblk = 0 then do
        let x ← s.rowDecode c p h r i 1
        .ok (x.getD 0 (.fin false 0 0))
      else do
        let x ← s.rowDecode c p h r (i / n * n) n
        .ok ((hadamardBack h.seed n 1 (i / n * n) x).getD (i % n) (.fin false 0 0)))
    .ok (leBytes ((fmtOf p.dfmt).ofValue v).x p.bytes)

/-- A unit of a copy: its bytes, and where they go. -/
def State.copyUnit (s : State) (c : CopyOp) (p : Pattern) (u : Nat) : Except EngErr UnitOut := do
  let b ← (match p.xf with
    | 0 => s.plainUnit c p u
    | 1 => s.quantUnit c p u
    | _ => s.dequantUnit c p u)
  let d ← s.unitDest c p u
  .ok { tgts := d, bytes := b }

/-- The displacements and sizes of a unit's source reads, but for an index array's: an element, the elements that its codes come from, or
the codes that its element comes from. -/
def State.unitReads (s : State) (c : CopyOp) (p : Pattern) (u : Nat) : List (Int × Nat) :=
  match p.xf with
  | 0 => match s.elemSource c p u with
    | .ok d => [(d, p.bytes)]
    | .error _ => []
  | 1 =>
    if u < 64 then []
    else
      let n := codeBytes p.lgf (p.c 0)
      let k := (u - 64) % n
      let codes := if p.lgf then [k] else [k / 3 * 4 + k % 3, k / 3 * 4 + k % 3 + 1]
      let h := if p.hblk = 0 then 1 else hblkSize p.hblk
      ((codes.filter fun i => Nat.blt i (p.c 0)).flatMap fun i => (List.range h).map fun j => i / h * h + j).map fun (i : Nat) =>
        (p.rowDisp ((u - 64) / n) (fun x => x.2) + (i : Int) * (p.strides 0).2, p.bytes)
  | _ =>
    let h := c.header
    let n := if h.hblk = 0 then 1 else hblkSize h.hblk
    let base : Int := 64 + p.rowDisp (u / p.c 0) (fun x => x.2)
    ((List.range n).map fun j => u % p.c 0 / n * n + j).map fun (i : Nat) => if h.lg8 then (base + i, 1) else (base + 3 * ((i / 4 : Nat) : Int), 3)

/-- The parts of all that a unit reads. -/
def State.unitSpans (s : State) (c : CopyOp) (p : Pattern) (u : Nat) : List Span :=
  let ok (r : Except EngErr (List Span)) : List Span := match r with
    | .ok l => l
    | .error _ => []
  (if p.ind ≠ 0 ∧ p.xf = 0 then ok (s.indexSpan c p ((p.elemIdx u).getD p.ind 0)) else []) ++
    (s.unitReads c p u).flatMap fun r => ok (s.copySpan c c.src p.src r.1 r.2 false)

/-! ## Landing (R196, R197, R308, R312) -/

/-- Granules of a tile filled by an engine's write (R168, R197). -/
def State.fillTile (s : State) (t : Target) (n : Nat) : State :=
  match t with
  | .tile k off =>
    match alook k s.tiles with
    | some x => { s with tiles := aset k { x with full := setBits x.full (granulesOf off n) } s.tiles }
    | none => s
  | _ => s

/-- A write by an engine that acts for an agent, as the operation `op`: held at its home where the agent's group is REDUNDANT and the
target is memory (R312), else performed, filling a tile's granules. `seq` is the number of the engine's operation. -/
def State.engWrite (s : State) (a : Agent) (seq op : Nat) (va : W64) (t : Target) (bs : List Byte) : State :=
  let now := ((s.writeAs op .none false false [] t bs).fillTile t bs.length).sendOn t none
  match s.agent a with
  | some u =>
    if s.inCopy (s.env a) && !t.isTile then
      s.setAgent a { u with held := insertHeld { seq := seq, va := va.toNat, tgt := t, bytes := bs } u.held }
    else now
  | none => now

/-- Some parts written with the bytes of a unit; the matrix operations whose operand they are may see them (R210). -/
def State.engWrites (s : State) (a : Agent) (seq op : Nat) : List Span → List Byte → State
  | [], _ => s
  | g :: r, bs =>
    let s1 := s.engWrite a seq op g.va g.tgt (bs.take g.n)
    let s2 := match g.tgt with
      | .tile k off => s1.operandSeen (some seq) k off g.n
      | _ => s1
    s2.engWrites a seq op r (bs.drop g.n)

/-- A copy that has ended: its tiles may become FREE (R166). -/
def State.dropCopy (s : State) (cp : Nat) : State := { s with copies := adel cp s.copies }.sweepTiles

/-- A copy stopped by an error: the phase completes with it (R196). -/
def State.failCopy (s : State) (cp : Nat) (c : CopyOp) (code : Nat) : State :=
  (s.modBar c.bar fun b => b.engineError code).dropCopy cp

/-- The region of an engine operation's launch. -/
def State.launchRegion (s : State) (launch : Nat) : Nat :=
  match alook launch s.launches with
  | some l => l.region
  | none => 0

/-- The flag of a copy cleared at its acknowledgement (R27). -/
def State.clearFlag (s : State) (c : CopyOp) : State :=
  match s.agent c.ag with
  | some t => (s.setAgent c.ag (t.uncount (some c.flag))).settle c.ag
  | none => s

/-- What a copy's engine has read, noted (R237). -/
def State.readBy (s : State) (c : CopyOp) (l : List PartyRead) : State := s.noteReads c.party c.after l

/-- The reads of a 64-byte record. -/
def recordReads (g : Target) : List PartyRead := (List.range 8).map fun i => (g.plus (8 * i), 8, i)

/-- COPY_ACKNOWLEDGE (R191, R193): the record is read and checked, and the flag clears. -/
def State.ackCopy (s : State) (cp : Nat) (c : CopyOp) : Option State :=
  let clear (s1 : State) : State := s1.clearFlag c
  match s.engTarget c.ctx .program false c.addr with
  | .error (.code n) => some (clear (s.failCopy cp c n))
  | .error (.page va) => some (s.engFault cp c.ctx (s.launchRegion c.launch) c.core va)
  | .error .hold => none
  | .ok g =>
    if s.tgtPoisoned g 64 then some (clear (s.failCopy cp c 0x14))
    else
      let ws := (List.range 8).map fun i => BitVec.ofNat 64 (s.valueBy c.party c.after (g.plus (8 * i)) 8 i)
      let p := Pattern.parse ws
      if p.ok c.xf then
        let tile (a : W64) : Option Nat := (s.tileOf c.gid c.launch (dieOf c.core) (bits a.toNat 55 48)).map fun x => x.1
        let ofLoc (a : W64) : Option Nat := if a.toNat / 2 ^ 56 = 255 then tile a else none
        some (clear (({ s with copies := aset cp { c with
            st := .ready, pat := ws, src := ofLoc p.src, dst := ofLoc p.dst, idx := if p.ind = 0 then none else ofLoc p.w5 } s.copies } : State).readBy c (recordReads g) |>.sendOn g none))
      else some (clear (s.failCopy cp c 0x10))

/-- COPY_ACKNOWLEDGE. -/
def execCopyAcknowledge (cp : Nat) (s : State) : Host.Outcome State Fault Refusal :=
  runEvent s do
    let c ← alook cp s.copies
    if c.st = .posted ∧ s.engWaits cp = false then s.ackCopy cp c else none

/-- COPY_BEGIN (R195, R197, R199, R247): its flag has cleared, the earlier copies of its queue and what it is joined behind have
completed. A dequantise copy reads its header first, and one of no unit completes at once. -/
def execCopyBegin (cp : Nat) (s : State) : Host.Outcome State Fault Refusal :=
  runEvent s do
    let c ← alook cp s.copies
    let p := Pattern.parse c.pat
    let go (b : List Byte) : State :=
      let s1 := (s.readBy c ((s.headerSpans c p).map Span.read)).sendReqs ((s.headerSpans c p).map fun g => g.tgt)
      if p.units = 0 then s1.dropCopy cp else { s1 with copies := aset cp { c with st := .begun, hdr := words64 b } s1.copies }
    if c.st = .ready ∧ (c.after.all fun k => !s.engineOpen k) = true ∧ s.engWaits cp = false ∧
        aany (fun k d => k < cp && d.core == c.core && d.q == c.q) s.copies = false then
      if p.xf = 2 then
        match s.copyHeader c p with
        | .ok b => some (go b)
        | .error (.code n) => some (s.failCopy cp c n)
        | .error (.page va) => some (s.engFault cp c.ctx (s.launchRegion c.launch) c.core va)
        | .error .hold => none
      else some (go [])
    else none

/-- The granule of a tile that a unit goes to. -/
def State.unitGranule (s : State) (c : CopyOp) (p : Pattern) (u : Nat) : Option (Nat × Nat) :=
  match s.unitDest c p u with
  | .ok [g] => match g.tgt with
    | .tile k off => some (k, off / 16)
    | _ => none
  | _ => none

/-- A unit belongs to a tensor header that a quantise copy writes to an aligned 64 bytes of memory: the header is written at once (R195, R326). -/
def State.inHeader (s : State) (c : CopyOp) (p : Pattern) (u : Nat) : Bool :=
  p.xf == 1 && Nat.blt u 64 && (match s.unitDest c p 0 with
    | .ok [g] => !g.tgt.isTile && g.tgt.key.2 % 64 == 0
    | _ => false)

/-- The units that land with one: those not landed that go to the same granule of a tile, which the engine writes in one step (R197), and
those of a header that is written at once. -/
def State.unitMates (s : State) (c : CopyOp) (p : Pattern) (u : Nat) : List Nat :=
  match s.unitGranule c p u with
  | some g => (List.range p.units).filter fun v => !c.landed.contains v && s.unitGranule c p v == some g
  | none => if s.inHeader c p u then List.range 64 else [u]

/-- The writes of the units that land in one step: one for each, or the 64 bytes of a header. -/
def landWrites (us : List (Nat × UnitOut)) (header : Bool) : List UnitOut :=
  match header, us with
  | true, (_, o) :: _ => [{ tgts := (o.tgts.take 1).map fun g => { g with n := 64 }, bytes := us.flatMap fun u => u.2.bytes }]
  | _, _ => us.map fun u => u.2

/-- A unit's bytes written and credited (R196). What a quantise copy writes is its header and its codes, each credited as its own bytes
(DESIGN CHOICE, log entry 56). -/
def State.landUnit (s : State) (cp op : Nat) (c : CopyOp) (o : UnitOut) : State :=
  let s1 := (s.engWrites c.ag cp op o.tgts o.bytes).ctxEvent c.core c.ctx 6 o.bytes.length
  s1.modBar c.bar fun b => b.credit o.bytes.length (op :: s.closure c.after)

/-- The translations that some units used: of what they read, and of where they go. -/
def State.unitWalks (s : State) (c : CopyOp) (p : Pattern) (us : List (Nat × UnitOut)) : State :=
  s.walksFor c.ctx (dieOf c.core) ((us.flatMap fun u => s.unitSpans c p u.1 ++ u.2.tgts).filterMap fun g => if g.tgt.isTile then none else some g.va)

/-- Units landed in one step, in an order that the part chooses where two write one byte (R197); the copy completes with its last unit. -/
def State.landUnits (s : State) (cp : Nat) (c : CopyOp) (p : Pattern) (us : List (Nat × UnitOut)) : State :=
  let op := s.nextId
  let s1 := (({ s.unitWalks c p us with nextId := op + 1 } : State).addOrder op (s.closure c.after)).addOrder cp (op :: s.closure c.after)
  let spans := us.flatMap fun u => s.unitSpans c p u.1
  let s2 := (s1.readBy c (spans.map Span.read)).sendReqs (spans.map fun g => g.tgt)
  let ws := landWrites us (us.any fun u => s.inHeader c p u.1)
  let s3 := (shuffle s.freeN ws.length ws).foldl (fun (st : State) o => st.landUnit cp op c o) s2
  let landed := us.map (fun u => u.1) ++ c.landed
  if landed.length = p.units then s3.dropCopy cp
  else
    match alook cp s3.copies with
    | some x => { s3 with copies := aset cp { x with landed := landed } s3.copies }
    | none => s3

/-- A request that a port of a target's window has accepted cannot be delivered: that port is FAILED (R339). -/
def State.windowFailed (s : State) (t : Target) : Bool := (List.range 32).any fun k => bitAt t.ports k && (s.port (.kazeg k)).st == .failed

/-- A copy that an uncorrectable error of one of its unit's reads, or a port that has FAILED, stops (R196, R326, R339). Of all that the unit
reads the part says which holds the error; in device memory its 64 bytes are poisoned, but a dead unit's, which read zero. None where there
is nothing that could be in error. -/
def State.copyUncorrectable (s : State) (c : CopyOp) (p : Pattern) (u : Nat) : Option State :=
  let spans := s.unitSpans c p u
  let dest := match s.unitDest c p u with
    | .ok l => l
    | .error _ => []
  if (spans ++ dest).any fun g => s.windowFailed g.tgt then some s
  else
    spans[Config.choice s.freeN (2 ^ 58) % max 1 spans.length]?.bind fun g => match g.tgt with
      | .dev pa => if deadHas s.dead (pa / 4096) then none else some (s.addPoison (pa / 64))
      | _ => some s

/-- COPY_LAND (R196, R197): a unit lands, with the others of its granule, or the copy stops with an error; a repairable fault goes to the
MEM firmware first. -/
def execCopyLand (cp elem : Nat) (o : LandOutcome) (s : State) : Host.Outcome State Fault Refusal :=
  runEvent s do
    let c ← alook cp s.copies
    let p := Pattern.parse c.pat
    if c.st = .begun ∧ elem < p.units ∧ c.landed.contains elem = false ∧ s.engWaits cp = false then
      match o with
      | .uncorrectable => (s.copyUncorrectable c p elem).map fun s1 => s1.failCopy cp c 0x14
      | .land =>
        match (s.unitMates c p elem).mapM fun u => (s.copyUnit c p u).map fun x => (u, x) with
        | .ok us => some (s.landUnits cp c p us)
        | .error (.code n) => some (s.failCopy cp c n)
        | .error (.page va) => some (s.engFault cp c.ctx (s.launchRegion c.launch) c.core va)
        | .error .hold => none
    else none

end Sys2Proof.Machine
end

