-- ==== Sys2Proof/Machine/Matrix.lean ====
section
/-!
DEFINITION. Matrix operations (R200 to R216): MMA with its rendezvous latch, MDRAIN, MZERO, and the steps of the matrix engine.
An operation waits in the queue of its core, begins, and completes; what it computes is fixed at its completion from the
bytes that its operands held.
-/
namespace Sys2Proof.Machine

/-! ## Operands in tiles (R204, R53) -/

/-- The bytes of a row of K elements. -/
def ElFmt.rowLen (f : ElFmt) (k : Nat) : Nat :=
  match f with
  | .f32 => 4 * k
  | .f16 | .bf16 => 2 * k
  | .i8 | .n8 | .lg8 => k
  | .lg6 => (k + 3) / 4 * 3

/-- Where row 0 begins: after the tensor header region of lg6 and lg8. -/
def ElFmt.base (f : ElFmt) : Nat :=
  match f with
  | .lg6 | .lg8 => 64
  | _ => 0

/-- Element k of row r of an operand. -/
def ElFmt.elem (f : ElFmt) (byte : Nat → Byte) (rb r k : Nat) : Nat :=
  let row := f.base + r * rb
  match f with
  | .f32 => leValue byte (row + 4 * k) 4
  | .f16 | .bf16 => leValue byte (row + 2 * k) 2
  | .i8 | .n8 | .lg8 => leValue byte (row + k) 1
  | .lg6 => bits (leValue byte (row + 3 * (k / 4)) 3) (6 * (k % 4) + 5) (6 * (k % 4))

/-- Row r is present in a tile. -/
def Tile.hasRow (x : Tile) (base len r : Nat) : Bool := Nat.ble len x.rb && Nat.ble (base + r * x.rb + len) x.size

/-- The tensor header of an operand: none for a format or tile that has no header region, or an invalid one (R53, R54). -/
def Tile.header (x : Tile) (f : ElFmt) : Option THeader :=
  if f.lg.isNone || Nat.blt x.size 64 then none else THeader.parse (getBytes (fun i => sget x.bytes i) 0 64)

/-- The voted format word's fields (R52). -/
structure FmtWord where
  tag  : Nat
  rsv  : Nat
  hblk : Nat
  s    : Int
  b    : Option ElFmt
  a    : Option ElFmt

/-- The fields of a format word. -/
def FmtWord.parse (w : W32) : FmtWord :=
  let n := w.toNat
  { tag := bits n 31 22, rsv := bits n 21 18, hblk := bits n 17 16, s := sInt 8 (bits n 15 8)
    b := ElFmt.ofCode (bits n 7 4), a := ElFmt.ofCode (bits n 3 0) }

/-- A header agrees with the voted word (R53). -/
def FmtWord.agrees (f : FmtWord) (h : Option THeader) : Bool :=
  match h with
  | some x => x.hblk == f.hblk && x.seed.toNat % 1024 == f.tag
  | none => false

/-! ## The teams of an operation -/

/-- The length of an MMA in words: the word, the operand word and the literals of a and b (R25). -/
def mmaWords (a b : Src) : Nat := 2 + a.words + b.words

/-- A register code of the operand word or of MMA's d (R20, R205). -/
def codeReg (c : BitVec 7) : Option Reg :=
  if h : c.toNat < 96 then some (.v ⟨c.toNat, h⟩)
  else if h : c.toNat - 96 < 24 then some (.s ⟨c.toNat - 96, h⟩)
  else if c.toNat = 120 then some .z
  else none

/-- The fields of an MMA. -/
structure MmaOp where
  g    : Bool
  sh   : Fin 4
  d    : Reg
  a    : Src
  b    : Src
  mode : MmaMode
  idx  : Option Nat
  fmt  : Reg

/-- The checks of R205 on the register codes. -/
def mmaFields (t : Team) (g : Bool) (sh : Fin 4) (d : BitVec 7) (a b : Src) (mode : MmaMode) (idx fmt : BitVec 7) :
    Except Trap MmaOp := do
  checkScalars t [a, b]
  needOperand (!t.ctl)
  match codeReg d, codeReg fmt with
  | some (.s n), some f =>
    needOperand (okReg t f)
    if g then
      match codeReg idx with
      | some (.v k) =>
        needOperand (t.inWindow k.val)
        .ok { g := g, sh := sh, d := .s n, a := a, b := b, mode := mode, idx := some (t.reg k.val), fmt := f }
      | _ => .error (Trap.of .operand)
    else .ok { g := g, sh := sh, d := .s n, a := a, b := b, mode := mode, idx := none, fmt := f }
  | _, _ => .error (Trap.of .operand)

/-- The check of a matrix shape (R155). -/
def checkMat (t : Team) (x : Shape) : Except Trap Unit := do
  need (x.kind == .mat) (Trap.of .shape)
  need (!x.stale) { cause := .shapeStale, mask := some t.active }
  need (x.gsz == t.gangSize) (Trap.of .shape)

/-- One team of an MMA that issues. -/
structure MmaTeam where
  tid : Nat
  t   : Team
  op  : MmaOp

/-- The value of a handle operand of a team. -/
def State.handleOf (s : State) (tid : Nat) (t : Team) (x : Src) : Nat := (srcScalar (s.env (.team tid)) t x).toNat

/-- The tile that a handle names for a team. -/
def State.teamTile (s : State) (tid h : Nat) : Option (Nat × Tile) :=
  let e := s.env (.team tid)
  s.tileOf e.gid e.launch e.die h

/-- The format word of a lane. -/
def State.fmtWord (s : State) (m : MmaTeam) (l : Nat) : W32 := srcLane (s.env (.team m.tid)) m.t (.reg m.op.fmt) l

/-- Every team of an MMA stops with a trap, in ascending slot (R206, R384). -/
def State.failAll (s : State) (ms : List MmaTeam) (c : Cause) (mask : Option (MmaTeam → LaneMask)) : State :=
  (s.bySlot (ms.map fun m => m.tid)).foldl (fun (st : State) k =>
    match ms.find? fun m => m.tid == k with
    | some m => st.stopTeam k { cause := c, mask := mask.map fun f => f m }
    | none => st) s

/-! ## The checks after the rendezvous (R206 steps 4 to 6, R208) -/

/-- Why an MMA stops, and the lanes it names. -/
structure MmaFail where
  cause : Cause
  mask  : Option (MmaTeam → LaneMask) := none

/-- A failed check. -/
def mmaNeed (c : Bool) (x : Cause) : Except MmaFail Unit := if c then .ok () else .error { cause := x }

/-- The reference word: that of the lowest live lane of the first team that has one; none without a live lane (R208). -/
def State.refWord (s : State) (ms : List MmaTeam) : Option W32 :=
  ms.findSome? fun m => match m.t.liveLanes with
    | l :: _ => some (s.fmtWord m l)
    | [] => none

/-- The lanes of a team whose words differ from the reference. -/
def State.badWords (s : State) (w : W32) (m : MmaTeam) : List Nat := m.t.liveLanes.filter fun l => s.fmtWord m l != w

/-- The row of A that row j of a team's segment multiplies (R207). -/
def MmaTeam.row (m : MmaTeam) (i ms j : Nat) : Nat :=
  match m.op.idx with
  | some r => (sget m.t.vregs (1024 * r + j)).toNat
  | none => i * ms + j

/-- What an MMA that passes its checks acts on. -/
structure MmaPlan where
  a    : Nat
  b    : Nat
  accs : List Nat
  word : W32

/-- Steps 4 to 6 of R206 for teams in order of rank, of which the first gives the shape and the handles a and b. -/
def State.mmaChecks (s : State) (ms : List MmaTeam) (m0 : MmaTeam) (w : W32) : Except MmaFail MmaPlan := do
  -- the vote
  if ms.any fun m => !(s.badWords w m).isEmpty then
    .error { cause := .formatDiverge, mask := some fun m => maskOf (s.badWords w m) }
  let f := FmtWord.parse w
  mmaNeed (f.rsv == 0) .reservedField
  -- R53
  match f.a, f.b with
  | some fa, some fb =>
    mmaNeed (fa.isInt == fb.isInt && !(fa.isInt && (f.s != 0 || f.hblk != 0))) .operand
    let tileOr (h : Nat) (ok : Nat → Bool) : Except MmaFail (Nat × Tile) :=
      match s.teamTile m0.tid h with
      | some x => if ok x.2.level then .ok x else .error { cause := .tile }
      | none => .error { cause := .tile }
    let ha := s.handleOf m0.tid m0.t m0.op.a
    let hb := s.handleOf m0.tid m0.t m0.op.b
    if f.hblk ≠ 0 then
      let xa ← tileOr ha fun _ => true
      let xb ← tileOr hb fun _ => true
      mmaNeed (f.agrees (xa.2.header fa) && f.agrees (xb.2.header fb)) .formatDiverge
    -- the tiles
    let accs ← ms.mapM fun m =>
      match s.teamTile m.tid (s.handleOf m.tid m.t (.reg m.op.d)) with
      | some x => if x.2.level == 1 then Except.ok x else .error { cause := .tile }
      | none => .error { cause := .tile }
    let xa ← tileOr ha fun _ => true
    let xb ← tileOr hb fun _ => true
    let q := m0.t.shape m0.op.sh
    let rows := q.d0 / m0.t.gangSize
    mmaNeed (!m0.op.g || ms.all fun m => Nat.ble rows m.t.tw) .operand
    mmaNeed ((accs.all fun x => x.2.hasRow 0 (4 * q.d1) (rows - 1)) && xb.2.hasRow fb.base (fb.rowLen q.d2) (q.d1 - 1) &&
      (m0.op.g || xa.2.hasRow fa.base (fa.rowLen q.d2) (q.d0 - 1))) .tile
    let bad (m : MmaTeam) : List Nat :=
      if m.op.g then (List.range rows).filter fun j => !xa.2.hasRow fa.base (fa.rowLen q.d2) (m.row 0 rows j) else []
    if ms.any fun m => !(bad m).isEmpty then
      .error { cause := .tile, mask := some fun m => maskOf (bad m) }
    .ok { a := xa.1, b := xb.1, accs := accs.map fun x => x.1, word := w }
  | _, _ => .error { cause := .operand }

/-! ## Issue (R200, R207, R209, R210) -/

/-- The granules of a segment marked empty. -/
def State.emptySegment (s : State) (k rows n : Nat) : State :=
  match alook k s.tiles with
  | some x => { s with tiles := aset k { x with full := clearBits x.full (x.segment rows n) } s.tiles }
  | none => s

/-- The bytes that a tile holds. -/
def State.tileBytes (s : State) (k : Nat) : List (Nat × Byte) :=
  match alook k s.tiles with
  | some x => x.bytes
  | none => []

/-- A team past its MMA: one MMA fewer of its declaration (R69). -/
def Team.pastMma (t : Team) (count n : Nat) : Team :=
  ({ t with st := .ready, wait := .none, hint := t.hint - 1, hintAt := count } : Team).advance n

/-- An operation put into the matrix queue of its core; it arrives at the engine (R68, R200). -/
def State.enqueueMq (s : State) (m : MqOp) : State :=
  ({ s with mqs := aset s.nextId m s.mqs, nextId := s.nextId + 1 }.placeJoin m.core 16 [s.nextId]).modCore m.core fun x => x.arrive true

/-- An MMA that has passed its checks. -/
def State.issueMma (s : State) (ms : List MmaTeam) (m0 : MmaTeam) (p : MmaPlan) : State :=
  let e := s.env (.team m0.tid)
  let q := m0.t.shape m0.op.sh
  let rows := q.d0 / m0.t.gangSize
  let parts : List MqPart := (ms.zip (List.range ms.length)).map fun x => ({
    tid := x.1.tid, gid := e.gid, pc := s.origPc e.gid x.1.t.pc, flag := some x.1.t.nextFlag, live := x.1.t.live
    acc := p.accs.getD x.2 0, rows := (List.range rows).map fun j => x.1.row x.2 rows j
    acc0 := s.tileBytes (p.accs.getD x.2 0) } : MqPart)
  let m : MqOp := {
    core := e.core, bank := (s.core e.core).act, ctx := e.ctx, gid := e.gid, kind := .mma m0.op.mode, m := q.d0, n := q.d1, k := q.d2
    g := m0.t.gangSize, fmt := p.word, a := p.a, b := p.b, a0 := s.tileBytes p.a, b0 := s.tileBytes p.b
    latchA := p.accs.contains p.a, latchB := p.accs.contains p.b, dest := [], loc := 0, pitch := 0, parts := parts
    begun := false, at_ := 0, after := s.joined e.core 4 ++ ms.flatMap fun x => x.t.fenced 4 }
  let s1 : State := p.accs.foldl (fun (st : State) k => st.emptySegment k rows q.d1) s
  let n := mmaWords m0.op.a m0.op.b
  let s2 : State := { s1 with teams := ms.foldl (fun (l : List (Nat × Team)) (x : MmaTeam) =>
    aset x.tid ((x.t.countOn.posted 4 s.nextId).pastMma (s.core e.core).count n) l) s1.teams }
  s2.enqueueMq m

/-- The teams past an MMA that performs nothing: counted and uncounted in the same cycle (R206). -/
def State.passMma (s : State) (ms : List MmaTeam) (m0 : MmaTeam) : State :=
  let count := (s.core (s.agentCore (.team m0.tid))).count
  { s with teams := ms.foldl (fun (l : List (Nat × Team)) (x : MmaTeam) =>
      aset x.tid (x.t.countOff.pastMma count (mmaWords m0.op.a m0.op.b)) l) s.teams }

/-- The MMA of teams that have met, in order of rank. -/
def State.runMma (s : State) (ms : List MmaTeam) : State :=
  match ms with
  | [] => s
  | m0 :: _ =>
    match s.refWord ms with
    | none => s.passMma ms m0
    | some w =>
      match s.mmaChecks ms m0 w with
      | .error x => s.failAll ms x.cause x.mask
      | .ok p => s.issueMma ms m0 p

/-! ## The rendezvous latch (R202, R203) -/

/-- A team that waits at the latch, with its instruction. -/
def Team.atLatch (t : Team) : Option Instr :=
  match t.st, t.wait with
  | .waiting, .rendezvous i => some i
  | _, _ => none

/-- The teams that wait in the rendezvous of a group and gang register value. -/
def State.latched (s : State) (gid : Nat) (gang : BitVec 16) : List (Nat × Team) :=
  s.teams.filter fun e => e.2.gid == gid && e.2.gang == gang && e.2.atLatch.isSome

/-- When a rendezvous was opened: the COUNT at its first arrival. -/
def openedAt (ws : List (Nat × Team)) : Nat := ws.foldl (fun (m : Nat) e => min m e.2.since) (2 ^ 64)

/-- The rendezvous open on a core's active bank, by when each was opened: group and gang register value. Of those that wait beyond the
eight, the one opened earliest takes a place that frees (DESIGN CHOICE, log entry 60). -/
def State.openRendezvous (s : State) (core : Nat) : List (Nat × BitVec 16) :=
  let ws := (s.activeTeams core).filter fun e => e.2.atLatch.isSome
  let keys := ws.foldl (fun (l : List (Nat × BitVec 16)) e =>
    if l.contains (e.2.gid, e.2.gang) then l else l ++ [(e.2.gid, e.2.gang)]) []
  (keys.foldl (fun (l : List (Nat × (Nat × BitVec 16))) k => ains (openedAt (s.latched k.1 k.2)) k l) []).map fun e => e.2

/-- A waiting team as a team of its MMA. -/
def mmaTeam (e : Nat × Team) : Option MmaTeam :=
  match e.2.atLatch with
  | some (.mma g sh d a b mode idx fmt) =>
    match mmaFields e.2 g sh d a b mode idx fmt with
    | .ok op => some { tid := e.1, t := e.2, op := op }
    | .error _ => none
  | _ => none

/-- Teams in order of their `tix`, which is the order of rank (R201). -/
def byTix (ms : List MmaTeam) : List MmaTeam :=
  (ms.foldl (fun (l : List (Nat × MmaTeam)) m => ains m.t.tix m l) []).map fun e => e.2

/-- One rendezvous in the latch with every team of its gang issues. -/
def State.issueLatched (s : State) (core : Nat) : Option State :=
  (((s.openRendezvous core).take 8).find? fun k => (s.latched k.1 k.2).length == popCount k.2.toNat 16).map fun k =>
    s.runMma (byTix ((s.latched k.1 k.2).filterMap mmaTeam))

/-- Every complete rendezvous that the latch holds issues: one that found it full may follow another (R202). -/
def State.settleLatch (s : State) (core : Nat) : Nat → State
  | 0 => s
  | fuel + 1 =>
    match s.issueLatched core with
    | some s1 => s1.settleLatch core fuel
    | none => s

/-- The fields that the latch compares are equal (R202). -/
def State.sameArrival (s : State) (i : Instr) (x y : MmaTeam) (j : Instr) : Bool :=
  i == j && s.handleOf x.tid x.t x.op.a == s.handleOf y.tid y.t y.op.a && s.handleOf x.tid x.t x.op.b == s.handleOf y.tid y.t y.op.b &&
  (let p := x.t.shape x.op.sh
   let q := y.t.shape y.op.sh
   p.kind == q.kind && p.d0 == q.d0 && p.d1 == q.d1 && p.d2 == q.d2 && p.pol == q.pol)

/-- A team named in a gang is DRAINING or has retired (R203). -/
def State.gangDead (s : State) (gid : Nat) (gang : BitVec 16) : Bool :=
  match alook gid s.groups with
  | some g => (List.range 16).any fun k => bitAt gang.toNat k && bitAt (s.exitMask g) k
  | none => false

/-- The teams of a list stop with GANG, in ascending slot. -/
def State.gangTrap (s : State) (tids : List Nat) : State :=
  (s.bySlot tids).foldl (fun (st : State) k => st.stopTeam k (Trap.of .gang)) s

/-- A team arrives at the latch. -/
def State.arriveLatch (s : State) (e : Env) (t : Team) (i : Instr) (m : MmaTeam) : State :=
  let ws := s.latched e.gid t.gang
  let all := m.tid :: ws.map fun w => w.1
  let differs := match ws with
    | w :: _ => match mmaTeam w, w.2.atLatch with
      | some x, some j => !s.sameArrival i m x j
      | _, _ => true
    | [] => false
  if differs || s.gangDead e.gid t.gang then (s.gangTrap all).settleLatch e.core 16
  else
    let t1 : Team := { t with st := .waiting, wait := .rendezvous i, since := (s.core e.core).count }
    (s.setAgent e.ag t1).settleLatch e.core 16

/-- MMA (R205, R206). -/
def execMma (g : Bool) (sh : Fin 4) (d : BitVec 7) (a b : Src) (mode : MmaMode) (idx fmt : BitVec 7) (s : State) :
    Host.Outcome State Fault Refusal :=
  runState s fun e t => do
    let op ← mmaFields t g sh d a b mode idx fmt
    checkMat t (t.shape sh)
    let m : MmaTeam := { tid := e.ag.tid, t := t, op := op }
    if t.gang = 0 then .ok (s.runMma [m])
    else .ok (s.arriveLatch e t (.mma g sh d a b mode idx fmt) m)

/-- The watchdog counted from the first arrival ends a rendezvous (R203). -/
def State.rendezvousTimeout (s : State) (tid : Nat) : Option State := do
  let t ← alook tid s.teams
  let _ ← t.atLatch
  let ws := s.latched t.gid t.gang
  let g ← alook t.gid s.groups
  let first := openedAt ws
  if t.since = first ∧ s.expired tid first = true then
    let core := s.agentCore (.team tid)
    let d : Diag := {
      kind := 2, arr := tixMask g (ws.map fun w => w.1), start := first, expiry := s.expiry tid first, gang := t.gang.toNat
      home := core }
    let x : Trap := { cause := .gang, count := some (s.expiry tid first) }
    some (((s.bySlot (ws.map fun w => w.1)).foldl (fun (st : State) k => st.watchTrap k x d) s).settleLatch core 16)
  else none

/-- RENDEZVOUS_TIMEOUT. -/
def execRendezvousTimeout (tid : Nat) (s : State) : Host.Outcome State Fault Refusal := runEvent s (s.rendezvousTimeout tid)

/-! ## MDRAIN and MZERO (R212, R213) -/

/-- The segment of a handle for a team: its tile, with the segment's rows present (R204, R212). -/
def segmentOf (s : State) (e : Env) (h rows n : Nat) : Except Trap (Nat × Tile) :=
  match s.tileOf e.gid e.launch e.die h with
  | some x => if x.2.level == 1 && x.2.hasRow 0 (4 * n) (rows - 1) then .ok x else .error (Trap.of .tile)
  | none => .error (Trap.of .tile)

/-- The displacements of a drain's elements, row by row. -/
def drainOffsets (rows n pitch : Nat) : List Nat :=
  (List.range rows).flatMap fun j => (List.range n).map fun k => j * pitch + 4 * k

/-- The destination of each element, or the trap (R212 steps 3 and 4). -/
def drainDest (s : State) (e : Env) (t : Team) (loc : W64) (offs : List Nat) : Except Trap (List Target) :=
  if loc.toNat / 2 ^ 56 = 255 then
    match s.tileOf e.gid e.launch e.die (bits loc.toNat 55 48) with
    | none => .error (Trap.of .tile)
    | some (k, x) =>
      let o := bits loc.toNat 31 0
      if bits loc.toNat 47 32 = 0 ∧ (offs.all fun d => Nat.ble (o + d + 4) x.size) = true then
        .ok (offs.map fun d => .tile k (o + d))
      else .error (Trap.of .tile)
  else
    let ls := lanesTgt s e t { write := true, atomic := false, n := 4 } (List.range offs.length)
      (fun i => loc + BitVec.ofNat 64 (offs.getD i 0))
    match firstErr ls with
    | some x => .error (addrTrap ls x false)
    | none => .ok (ls.filterMap fun l => match l.r with
      | .ok g => some g
      | .error _ => none)

/-- One team's own operation, MDRAIN or MZERO, as it enters the queue. -/
def ownMq (s : State) (e : Env) (t : Team) (kind : MqKind) (q : Shape) (acc : Nat) (flag : Option Nat) (dest : List Target) : MqOp :=
  { core := e.core, bank := (s.core e.core).act, ctx := e.ctx, gid := e.gid, kind := kind, m := q.d0 / t.gangSize, n := q.d1, k := 0, g := 1
    fmt := 0, a := acc, b := acc, a0 := [], b0 := [], latchA := false, latchB := false, dest := dest, loc := 0, pitch := 0
    parts := [{ tid := e.ag.tid, gid := e.gid, pc := s.origPc t.gid t.pc, flag := flag, live := t.live, acc := acc, rows := []
                acc0 := [] }]
    begun := false, at_ := 0, after := s.joined e.core 4 ++ t.fenced 4 }

/-- MDRAIN (R212). -/
def execMdrain (addTo : Bool) (sh : Fin 4) (d a b : Src) (s : State) : Host.Outcome State Fault Refusal :=
  runState s fun e t => do
    checkScalars t [d, a, b]
    needOperand (!t.ctl)
    let x := (srcScalar e t b).toNat
    let q := t.shape sh
    let rows := q.d0 / t.gangSize
    let pitch := bits x 31 0
    needOperand (bits x 63 33 == 0)
    needOperand (q.kind != .mat || Nat.ble rows 1 || Nat.ble (4 * q.d1) pitch)
    checkMat t q
    let seg ← segmentOf s e (srcScalar e t a).toNat rows q.d1
    let loc := srcScalar e t d
    need (loc.toNat % 4 == 0 && pitch % 4 == 0) { cause := .align, addr := loc }
    let offs := drainOffsets rows q.d1 pitch
    let dest ← drainDest s e t loc offs
    let n := 1 + d.words + a.words + b.words
    let s1 := s.useAll e (if loc.toNat / 2 ^ 56 = 255 then [] else offs.map fun o => loc + BitVec.ofNat 64 o)
    .ok ((s1.setAgent e.ag ((t.countOn.posted 4 s1.nextId).advance n)).enqueueMq
      { ownMq s e t (.mdrain addTo (bitAt x 32)) q seg.1 (some t.nextFlag) dest with loc := loc, pitch := pitch })

/-- MZERO (R212, R213): the segment's granules are empty from its issue on. -/
def execMzero (sh : Fin 4) (a : Src) (s : State) : Host.Outcome State Fault Refusal :=
  runState s fun e t => do
    checkScalars t [a]
    needOperand (!t.ctl)
    let q := t.shape sh
    checkMat t q
    let rows := q.d0 / t.gangSize
    let seg ← segmentOf s e (srcScalar e t a).toNat rows q.d1
    .ok (((s.setAgent e.ag ((t.posted 4 s.nextId).advance (1 + a.words))).emptySegment seg.1 rows q.d1).enqueueMq
      (ownMq s e t .mzero q seg.1 none []))

/-! ## Beginning (R200, R215, R216) -/

/-- The operation of a core's queue that is first: one that has begun, else the first of the active bank or of a group that was killed
(R200, R216). -/
def State.mqHead (s : State) (core : Nat) : Option (Nat × MqOp) :=
  match afind (fun _ m => m.core == core && m.begun) s.mqs with
  | some x => some x
  | none => if (s.core core).swap.isSome then none else
    afind (fun _ m => m.core == core && (match alook m.gid s.groups with
      | some g => g.place == .bank core (s.core core).act
      | none => true)) s.mqs

/-- The 32 bits of a drain's source element i (R213). -/
def State.drainValue (s : State) (m : MqOp) (i : Nat) : Nat :=
  match alook m.a s.tiles with
  | some x => leValue (fun j => sget x.bytes j) (i / m.n * x.rb + 4 * (i % m.n)) 4
  | none => 0

/-- The address of a drain's element i. -/
def MqOp.elemAddr (m : MqOp) (i : Nat) : W64 := m.loc + BitVec.ofNat 64 (i / m.n * m.pitch + 4 * (i % m.n))

/-- A drain goes to a tile. -/
def MqOp.toTile (m : MqOp) : Bool := m.dest.any fun g => g.isTile

/-- The group of an operation is one copy of a REDUNDANT group, whose writes are held (R312). -/
def State.mqHeld (s : State) (m : MqOp) : Bool :=
  match alook m.gid s.groups with
  | some g => g.partner.isSome
  | none => false

/-- The memory writes of a drain posted to their homes. A drain to memory reads its source as it begins, and one to a tile as it completes, so
that a TWR between the two is seen by neither element or by each (DESIGN CHOICE, log entry 68). -/
def State.postDrain (s : State) (id : Nat) (m : MqOp) (addTo int : Bool) : State :=
  let lanes : List LaneAcc := (m.dest.zip (List.range m.dest.length)).map fun g => s.startLane {
    lane := g.2, va := m.elemAddr g.2, tgt := g.1, n := 4, x := BitVec.ofNat 64 (s.drainValue m g.2), y := 0
    st := .sent, res := 0, via := none, put := false }
  let o : PendOp := {
    ag := .none, gid := m.gid, ctx := m.ctx, core := m.core, kind := if addTo then .addOn int else .drain, acq := false, rel := false
    lanes := lanes, flag := none, dst := .none, pc := 0, obs := 0, fences := [], after := m.after, killed := false, twin := none }
  ({ s with pend := aset id o s.pend } : State).sendFlits id lanes

/-- The granules of rows of a tile that begin at a displacement. -/
def Tile.rowGranules (x : Tile) (base len : Nat) (rows : List Nat) : List Nat := rows.flatMap fun r => granulesOf (base + r * x.rb) len

/-- Some granules of a tile stand in the cellar. -/
def State.inCellar (s : State) (k : Nat) (gs : Tile → List Nat) : Bool :=
  match alook k s.tiles with
  | some x => (gs x).any fun g => bitAt x.cellar g
  | none => false

/-- What an operation touches is still to be restored from the cellar (R308): its operands' rows, its segments, its destination. -/
def State.mqCellar (s : State) (m : MqOp) : Bool :=
  let f := FmtWord.parse m.fmt
  let rows (o : Option ElFmt) (rs : List Nat) (x : Tile) : List Nat := match o with
    | some q => x.rowGranules q.base (q.rowLen m.k) rs
    | none => []
  match m.kind with
  | .mma _ =>
    s.inCellar m.a (rows f.a (m.parts.flatMap fun p => p.rows)) || s.inCellar m.b (rows f.b (List.range m.n)) ||
      m.parts.any fun p => s.inCellar p.acc fun x => x.segment p.rows.length m.n
  | .mdrain _ _ => s.inCellar m.a (fun x => x.segment m.m m.n) || m.dest.any fun g => match g with
    | .tile k off => s.inCellar k fun _ => granulesOf off 4
    | _ => false
  | .mzero => s.inCellar m.a fun x => x.segment m.m m.n

/-- MQ_OPERATION_BEGIN: the engine is ACTIVE, the previous operation has completed, what it is joined behind has, and what it touches is
restored (R308). -/
def execMqOperationBegin (core : Nat) (s : State) : Host.Outcome State Fault Refusal :=
  runEvent s do
    let h ← s.mqHead core
    let m := h.2
    if m.begun = false ∧ (s.core core).mat = .active ∧ (m.after.all fun k => !s.engineOpen k) = true ∧ s.mqCellar m = false then
      let s0 := s.addOrder h.1 (s.closure m.after)
      let s1 : State := { s0 with mqs := aset h.1 { m with begun := true, at_ := (s.core core).count } s.mqs }
      match m.kind with
      | .mdrain addTo int => some (if m.toTile || s.mqHeld m then s1 else s1.postDrain h.1 m addTo int)
      | .mma _ | .mzero => some s1
    else none

/-! ## Completion (R207, R209 to R211, R213, R214) -/

/-- The accumulator value of one element after a dot product (R57, R58). -/
def mmaElem (fa fb : ElFmt) (sc : Int) (c : Nat) (k : Nat) (x y : Nat → Nat) : Nat :=
  if fa.isInt then (dotInt (BitVec.ofNat 32 c) ((List.range k).map fun i => fa.int (x i) * fb.int (y i))).toNat
  else (dotFloat k c ((List.range k).map fun i => mmaProduct fa fb (x i) (y i) sc)).x

/-- The row bytes of a tile. -/
def State.rowBytes (s : State) (k : Nat) : Nat :=
  match alook k s.tiles with
  | some x => x.rb
  | none => 0

/-- The final rows of a part of an MMA, as bytes (R207). -/
def State.mmaRows (s : State) (m : MqOp) (mode : MmaMode) (p : MqPart) : List (List Byte) :=
  let f := FmtWord.parse m.fmt
  let xa (r k : Nat) : Nat := match f.a with
    | some fa => fa.elem (sget m.a0) (s.rowBytes m.a) r k
    | none => 0
  let xb (r k : Nat) : Nat := match f.b with
    | some fb => fb.elem (sget m.b0) (s.rowBytes m.b) r k
    | none => 0
  (List.range p.rows.length).map fun j => (List.range m.n).flatMap fun n =>
    let c := match mode with
      | .acc => leValue (fun i => sget p.acc0 i) (j * s.rowBytes p.acc + 4 * n) 4
      | .ovw => 0
    leBytes (mmaElem (f.a.getD .f32) (f.b.getD .f32) f.s c m.k (xa (p.rows.getD j 0)) (xb n)) 4

/-- What a later operation of the core took at its issue, after bytes written to a tile: it reads an operand's granules after that write, each
in one step (R200, R210), and its accumulator's values are those that stand after it (R171). -/
def MqOp.afterWrite (m : MqOp) (k : Nat) (x : Tile) (off : Nat) (bs : List Byte) : MqOp :=
  { m with
    a0 := if m.a = k then seeGranules x 0 0 true m.a0 (granulesOf off bs.length) else m.a0
    b0 := if m.b = k then seeGranules x 0 0 true m.b0 (granulesOf off bs.length) else m.b0
    parts := m.parts.map fun (p : MqPart) => if p.acc = k then { p with acc0 := putBytes p.acc0 off bs } else p }

/-- Bytes that a matrix operation writes to a tile: its granules are full, the later operations of the core see them in what they took at
their issue (R168, R200), and those of other cores may (R210). An add-on-store is an atomic, which carries releases on (R214, R240). -/
def State.mqWrite (s : State) (core : Nat) (atomic : Bool) (k off : Nat) (bs : List Byte) : State :=
  let s1 := (s.writeAs 0 .none false atomic [] (.tile k off) bs).fillTile (.tile k off) bs.length
  match alook k s1.tiles with
  | some x => ({ s1 with mqs := amap (fun _ (m : MqOp) => if m.core = core then m.afterWrite k x off bs else m) s1.mqs } : State).operandSeen
      none k off bs.length
  | none => s1

/-- Rows written to a segment. -/
def State.mqRows (s : State) (core k rb : Nat) (rows : List (List Byte)) : State :=
  (rows.zip (List.range rows.length)).foldl (fun (st : State) r => st.mqWrite core false k (r.2 * rb) r.1) s

/-- The steps that an operation takes (R15, R215). -/
def fmtSteps (f : Option ElFmt) (k : Nat) : Nat :=
  match f with
  | some .f32 => 4 * k
  | some .f16 | some .bf16 => k
  | some .i8 | some .n8 => (k + 1) / 2
  | some .lg8 => (k + 3) / 4
  | some .lg6 => (k + 7) / 8
  | none => 0

/-- The MAC steps of a format: two in each cycle for lg6 and lg8 (R15). -/
def fmtMacs (f : Option ElFmt) (k : Nat) : Nat :=
  match f with
  | some .lg8 => (k + 1) / 2
  | some .lg6 => (k + 3) / 4
  | x => fmtSteps x k

/-- The tiles of its native size that an MMA covers (R15, R215). -/
def State.mmaBlocks (s : State) (m : MqOp) : Nat :=
  let cp := (s.core m.core).point
  let nm := Config.natM cp
  let nn := Config.natN cp (s.classT m.core)
  ((m.m + nm - 1) / nm) * ((m.n + nn - 1) / nn)

/-- The MAC steps of an MMA, as event 5 counts them (R15, R365): those of the slower format. -/
def State.mmaMacs (s : State) (m : MqOp) : Nat :=
  let f := FmtWord.parse m.fmt
  s.mmaBlocks m * max (fmtMacs f.a m.k) (fmtMacs f.b m.k)

/-- The steps of an operation on a core (R215). -/
def State.mqSteps (s : State) (m : MqOp) : Nat :=
  match m.kind with
  | .mma _ => s.mmaBlocks m * max (fmtSteps (FmtWord.parse m.fmt).a m.k) (fmtSteps (FmtWord.parse m.fmt).b m.k)
  | .mdrain _ _ => (m.m * m.n * 4 + 63) / 64
  | .mzero => (m.m * m.n * 4 + 255) / 256

/-- The MAC steps of an operation in its first j cycles, as event 5 counts them (R15, R365). -/
def State.macsDone (s : State) (m : MqOp) (j : Nat) : Nat :=
  match m.kind with
  | .mma _ => min (s.mmaMacs m) (j * ((s.mmaMacs m + s.mqSteps m - 1) / s.mqSteps m))
  | .mdrain _ _ | .mzero => 0

/-- The engine of a core that is ACTIVE goes to HOLD in the cycle after the last step of an operation, where none waits to begin; the
completion latency does not keep it ACTIVE (R68). -/
def State.lastStep (s : State) (m : MqOp) : State :=
  if (s.core m.core).mat = .active ∧ s.mqWaiting m.core = false then
    s.modCore m.core fun x => { x with mat := .hold, matAt := m.at_ + s.mqSteps m }
  else s

/-- The matrix engine of a core as R66 and R68 have it: IDLE in step 2 of a move once its operations have completed; else to RAMPUP or
ACTIVE for an operation that waits, among them those that a swap has brought back (R216), or a declaration; and to HOLD after the last
step of the last operation. -/
def State.settleEngine (s : State) (core : Nat) : State :=
  let x := s.core core
  if x.move.isSome then (if s.mqBusy core then s else s.engineIdle core)
  else if s.mqWaiting core then s.modCore core fun y => y.arrive true
  else if s.hinted core ∧ x.mat = .idle then s.modCore core fun y => y.arrive false
  else if x.mat = .active then
    match afind (fun _ m => m.core == core && m.begun) s.mqs with
    | some m => if m.2.at_ + s.mqSteps m.2 ≤ x.count then s.lastStep m.2 else s
    | none => s.modCore core fun y => { y with mat := .hold, matAt := y.count }
  else s

/-- The operation leaves the queue. -/
def State.endMq (s : State) (id : Nat) (m : MqOp) : State := ({ s with mqs := adel id s.mqs }.lastStep m).sweepTiles

/-- A team's part of an operation is over: its flag is uncounted, what it wrote happens before the team's later accesses (R246), and an
error is delivered (R27, R211, R327). -/
def State.endPart (s : State) (id : Nat) (p : MqPart) (err : Option ErrRec) : State :=
  match alook p.tid s.teams with
  | none => s
  | some t =>
    let s1 : State := { s with teams := aset p.tid { t.uncount p.flag with hb := t.hb ++ [id] } s.teams }
    match err with
    | some x => (s1.deliver (.team p.tid) x).settle (.team p.tid)
    | none => s1.settle (.team p.tid)

/-- A begun operation of a kind. -/
def State.begunMq (s : State) (op : Nat) : Option MqOp :=
  match alook op s.mqs with
  | some m => if m.begun then some m else none
  | none => none

/-- The granules of a segment's rows as its accumulator held them at issue (R211). -/
def oldRows (rb n rows : Nat) (b0 : List (Nat × Byte)) : List (List Byte) :=
  (List.range rows).map fun j => getBytes (fun i => sget b0 i) (j * rb) ((4 * n + 15) / 16 * 16)

/-- MMA_COMPLETE: the final values, or the old ones with an uncorrectable error (R209, R211). -/
def execMmaComplete (op : Nat) (err : Bool) (s : State) : Host.Outcome State Fault Refusal :=
  runEvent s do
    let m ← s.begunMq op
    match m.kind with
    | .mma mode =>
      if err && s.ramping m.core then none
      else
        let out (p : MqPart) : List (List Byte) :=
          if err then oldRows (s.rowBytes p.acc) m.n p.rows.length p.acc0 else s.mmaRows m mode p
        let s1 := m.parts.foldl (fun (st : State) p => st.mqRows m.core p.acc (s.rowBytes p.acc) (out p)) s
        let left := s.mmaMacs m - s.macsDone m ((s.core m.core).count - m.at_)
        let s2 := ((s1.ctxEvent m.core m.ctx 5 left).endMq op m)
        some (m.parts.foldl (fun (st : State) p => st.endPart op p (if err then
          some { cause := .uncorrectable, flag := p.flag, mask := p.live, addr := p.pc, oppc := p.pc } else none)) s2)
    | .mdrain _ _ | .mzero => none

/-- MZERO_COMPLETE (R213). -/
def execMzeroComplete (op : Nat) (s : State) : Host.Outcome State Fault Refusal :=
  runEvent s do
    let m ← s.begunMq op
    match m.kind with
    | .mzero =>
      some ((s.mqRows m.core m.a (s.rowBytes m.a) (List.replicate m.m (List.replicate (4 * m.n) 0))).endMq op m)
    | .mma _ | .mdrain _ _ => none

/-- The source granules of a drain's element. -/
def State.sourceGranule (s : State) (m : MqOp) (i : Nat) : Nat := (i / m.n * s.rowBytes m.a + 4 * (i % m.n)) / 16

/-- The value at a drain's destination that an add-on-store adds to: the present one, under the team's own earlier held writes (R312). -/
def State.addOnOld (s : State) (id : Nat) (ag : Agent) (t : Target) : Nat :=
  leValue (fun i => (heldByte (s.heldBy ag id) t i).getD (s.tgtByte t i)) 0 4

/-- The elements of a drain written in one step: to a tile (R214), or held for a REDUNDANT team (R312). -/
def State.drainWrite (s : State) (id : Nat) (m : MqOp) (addTo int : Bool) (todo : List (Nat × Target)) : State :=
  let ag : Agent := match m.parts with
    | p :: _ => .team p.tid
    | [] => .none
  todo.foldl (fun (st : State) (g : Nat × Target) =>
    let v := s.drainValue m g.1
    let x := if addTo then addOnNew int (st.addOnOld id ag g.2) v else v
    match g.2 with
    | .tile k off => st.mqWrite m.core addTo k off (leBytes x 4)
    | _ => st.engWrite ag id id (m.elemAddr g.1) g.2 (leBytes x 4)) s

/-- The error of a drain whose first failed element is given (R327), or whose first element that a peer has refused (R338). -/
def drainError (m : MqOp) (c : Cause) (bad : List Nat) : Option ErrRec :=
  match bad, m.parts with
  | i :: _, p :: _ => some {
      cause := c, flag := p.flag, mask := p.live
      addr := match m.dest.getD i (.dev 0) with
        | .tile _ _ => 0
        | _ => m.elemAddr i
      oppc := p.pc }
  | _, _ => none

/-- MDRAIN_COMPLETE (R213, R214, R327, R338): the elements whose source granules are found in error are not written. -/
def execMdrainComplete (op : Nat) (bad : List Nat) (s : State) : Host.Outcome State Fault Refusal :=
  runEvent s do
    let m ← s.begunMq op
    match m.kind with
    | .mdrain addTo int =>
      let elems := m.dest.zip (List.range m.dest.length) |>.map fun g => (g.2, g.1)
      let isBad (i : Nat) : Bool := bad.contains (s.sourceGranule m i)
      let fin (s1 : State) (failed refused : List Nat) : Option State :=
        let e := (drainError m .protect refused).orElse fun _ => drainError m .uncorrectable failed
        if e.isSome && s.ramping m.core then none
        else some (m.parts.foldl (fun (st : State) p => st.endPart op p e) (s1.endMq op m))
      match alook op s.pend with
      | some o =>
        if o.lanes.all fun l => if isBad l.lane then l.st != .done else !l.isOpen then
          fin { s with pend := adel op s.pend } ((o.lanes.filter fun l => isBad l.lane || l.st == .failed).map fun l => l.lane)
            ((o.lanes.filter fun l => l.st == .refused).map fun l => l.lane)
        else none
      | none =>
        let poisoned (g : Nat × Target) : Bool := addTo && s.tgtPoisoned g.2 4
        let todo := elems.filter fun g => !isBad g.1 && !poisoned g
        fin (s.drainWrite op m addTo int todo) ((elems.filter fun g => isBad g.1 || poisoned g).map fun g => g.1) []
    | .mma _ | .mzero => none

end Sys2Proof.Machine
end

