-- ==== Sys2Proof/Machine/Record.lean ====
section
/-!
DEFINITION. Task records (R256, R257), the checks by which a record is posted (R263, R63, R116, R225), and the entry that
posting appends to a run queue (R260).
-/
namespace Sys2Proof.Machine

/-! ## The record (R256) -/

/-- A role of a task record. -/
structure Role where
  entry : Nat
  cnt   : Nat
  tw    : Nat
  al    : Nat
  rsvOk : Bool
  deriving DecidableEq, Repr

/-- The fields of a role's word. -/
def Role.parse (w : Nat) : Role :=
  { entry := bits w 63 32, cnt := bits w 15 11, tw := 32 * (bits w 10 6 + 1), al := 32 * (bits w 5 2 + 1)
    rsvOk := bits w 31 16 == 0 && bits w 1 0 == 0 }

/-- A task record. -/
structure Task where
  code   : W64
  frame  : W64
  join   : W64
  inst   : Nat
  region : Nat
  nb     : Nat
  r0     : Role
  r1     : Role
  cpLo   : Nat
  cpHi   : Nat
  cpPref : Nat
  l1     : Nat
  l0     : Nat
  decant : Bool
  cores  : Bool
  rsvOk  : Bool
  deriving DecidableEq, Repr

/-- The fields of R256 in the eight words of a record. -/
def Task.parse (ws : List W64) : Task :=
  let w (i : Nat) : Nat := wordN ws i
  let r0 := Role.parse (w 4)
  let r1 := Role.parse (w 5)
  { code := ws.getD 0 0, frame := ws.getD 1 0, join := ws.getD 2 0
    inst := bits (w 3) 63 32, region := bits (w 3) 31 16, nb := bits (w 3) 10 0, r0 := r0, r1 := r1
    cpLo := bits (w 6) 63 61, cpHi := bits (w 6) 60 58, cpPref := bits (w 6) 57 55, l1 := bits (w 6) 31 16, l0 := bits (w 6) 15 0
    decant := bitAt (w 7) 63, cores := bitAt (w 7) 62
    rsvOk := bits (w 3) 15 11 == 0 && r0.rsvOk && r1.rsvOk && bits (w 6) 54 32 == 0 && bits (w 7) 61 0 == 0 }

/-- The roles of a record: one where CNT1 = 0. -/
def Task.roles (k : Task) : List Role := if k.r1.cnt = 0 then [k.r0] else [k.r0, k.r1]

/-- The teams of a group. -/
def Task.teams (k : Task) : Nat := sumOf (fun r => r.cnt) k.roles

/-- A role's register footprint in bytes (R116). -/
def Role.foot (r : Role) : Nat := r.cnt * (r.al * r.tw * 4)

/-- The footprint of a group. -/
def Task.foot (k : Task) : Nat := sumOf Role.foot k.roles

/-- The tile requests in bytes. -/
def Task.l0Bytes (k : Task) : Nat := 1024 * k.l0
def Task.l1Bytes (k : Task) : Nat := 1024 * k.l1

/-! ## Validity (R257) -/

/-- The code object of a context at a CODE address. -/
def State.objAt (s : State) (ctx : Nat) (code : W64) : Option (Nat × ObjRec) := afind (fun _ o => o.ctx == ctx && o.code == code) s.objs

/-- The points from a lowest to a highest within a range, on a die of a class: CP0 never on class T (R63). -/
def admissible (lo hi rlo rhi : Nat) (classT : Bool) : List Nat :=
  (List.range 6).filter fun p => Nat.ble lo p && Nat.ble p hi && Nat.ble rlo p && Nat.ble p rhi && !(p == 0 && classT)

/-- The dies on which a record's admissible set is not empty. -/
def State.diesFor (s : State) (k : Task) (r : Rcb) : List Nat :=
  (List.range Config.nDies).filter fun d => !(admissible k.cpLo k.cpHi r.cpLo r.cpHi (bitAt s.part.classT.toNat d)).isEmpty

/-- How many groups of a record one bank can hold: at most 4 (R118, R225). -/
def Task.perBank (k : Task) : Nat :=
  let fit (have_ need : Nat) : Nat := if need = 0 then 4 else have_ / need
  min 4 (min (fit Config.slotsPerBank k.teams) (min (fit Config.regFileBytes k.foot) (min (fit Config.l0Bytes k.l0Bytes)
    (min (fit Config.l1Bytes k.l1Bytes) (fit Config.barEntries k.nb)))))

/-- How many groups of a record the region's budgets can hold resident at once (R225). An instance counts as one group in a REDUNDANT region
too, where it is carved twice (R312; DESIGN CHOICE, log entry 66). -/
def State.capacity (s : State) (ctx : Nat) (k : Task) (r : Rcb) : Nat :=
  let cap (have_ need : Nat) (n : Nat) : Nat := if need = 0 then n else min n (have_ / need)
  let own (i : Nat) (f : Rcb → Nat → Nat) (n : Nat) : Nat := (s.owners ctx k.region i).foldl (fun m o => f o.2 m) n
  let n0 := k.perBank * (Config.coresPerDie * (s.diesFor k r).length)
  own 0 (fun b n => min n (b.cores * k.perBank))
    (own 3 (fun b n => cap b.vrfb k.foot n) (own 4 (fun b n => cap b.scrb (k.l0Bytes + k.l1Bytes) n) (own 1 (fun b n => cap b.bars k.nb n) n0)))

/-- A role's entry lies in its code object, aligned (R257). -/
def Role.ok (r : Role) (size : Nat) : Bool := r.entry % 4 == 0 && Nat.blt r.entry size

/-- A record is valid by itself and its object and region (R257, R116, R63, R225, R274, R290). -/
def State.taskOk (s : State) (ctx : Nat) (k : Task) : Bool :=
  match alook ctx s.ctxs, s.objAt ctx k.code, s.region ctx k.region with
  | some c, some o, some r =>
    !c.closing && k.rsvOk && k.inst != 0 && Nat.ble k.nb 1024 && Nat.ble k.l0 1024 && Nat.ble k.l1 256 && k.join.toNat % 16 == 0 &&
    Nat.ble k.cpLo 5 && Nat.ble k.cpHi 5 && Nat.ble k.cpPref 5 && Nat.ble k.cpLo k.cpHi && Nat.ble k.cpLo k.cpPref && Nat.ble k.cpPref k.cpHi &&
    (k.roles.all fun q => q.ok o.2.size) && !o.2.revoked && k.r0.cnt != 0 && Nat.ble k.teams 16 && Nat.ble k.foot Config.regFileBytes &&
    !(s.diesFor k r).isEmpty && (!k.cores || (r.crp && Nat.ble k.inst (s.capacity ctx k r)))
  | _, _, _ => false

/-! ## Posting (R263, R260) -/

/-- What the checks of ENQ answer for a record: 0, 1 FULL, 2 INVALID or 3 PRIORITY. A host submission has no issuing region;
CONT and join postings use the reserve, which is never full. The priorities compared are those in force. -/
def State.postStatus (s : State) (ctx : Nat) (issuer : Option Nat) (die : Nat) (reserve : Bool) (k : Task) : Nat :=
  let prio (x : Nat) : Nat := match s.inForce ctx x with
    | some r => r.prio
    | none => 0
  let ok := match issuer with
    | some x => s.descends ctx k.region x
    | none => true
  let above := match issuer with
    | some x => Nat.blt (prio x) (prio k.region)
    | none => false
  if !s.taskOk ctx k || !ok then 2 else if above then 3
  else if !reserve && !s.queueFits ctx k.region die then 1 else 0

/-- The entries of a region's ring on a die: QENT and the reserve (R260). -/
def State.ringSize (s : State) (ctx region : Nat) : Nat :=
  (match s.inForce ctx region with
   | some r => r.qent
   | none => 0) + Config.reserveEntries

/-- A queue's next free slot in its ring, from its tail on. -/
def RunQueue.freeSlot (q : RunQueue) (n : Nat) : Nat :=
  (((List.range n).map fun i => (q.tail + i) % n).find? fun i => !q.entries.any fun e => e.slot == i).getD 0

/-- The queue of a region on a die, made where it is not there yet. -/
def State.runQueue (s : State) (ctx region die : Nat) : RunQueue :=
  (s.queues.find? fun q => q.ctx == ctx && q.region == region && q.die == die).getD
    { ctx := ctx, region := region, die := die, tail := 0, entries := [] }

/-- The slot that a record posted to a region's queue on a die takes. -/
def State.ringSlot (s : State) (ctx region die : Nat) : Nat := (s.runQueue ctx region die).freeSlot (s.ringSize ctx region)

/-- The address of a slot of the ring of a region and die, in QAREA, which is aligned to 64 bytes (R253, R260). -/
def State.ringAddr (s : State) (ctx region die slot : Nat) : Option W64 := do
  let r ← s.inForce ctx region
  if r.qarea % 64 = 0 then some (BitVec.ofNat 64 (r.qarea + 64 * (die * s.ringSize ctx region + slot))) else none

/-- Where a slot of a ring stands. -/
def State.ringTarget (s : State) (ctx region die slot : Nat) : Except EngErr Target :=
  match s.ringAddr ctx region die slot with
  | some a => s.engTarget ctx .system true a
  | none => .error (.code 0x11)

/-- The next record posted to a region's queue on a die must wait for its slot. -/
def State.ringHeld (s : State) (ctx region die : Nat) : Bool :=
  match s.ringTarget ctx region die (s.ringSlot ctx region die) with
  | .error .hold => true
  | .error (.code _) | .error (.page _) | .ok _ => false

/-- A record's 64 bytes in the ring of its region and die, one write (R260). Where QAREA cannot be written the entry stands all the same
(DESIGN CHOICE, log entry 61). -/
def State.writeRing (s : State) (ctx region die slot : Nat) (ws : List W64) : State :=
  match s.ringTarget ctx region die slot with
  | .ok g => ((s.walksFor ctx die (s.ringAddr ctx region die slot).toList).writeAs 0 .none false false [] g
      (wordBytes ((List.range 8).map fun i => ws.getD i 0))).sendOn g none
  | .error _ => s

/-- An entry put at the tail, or the head, of a run queue, which is made where it is not there yet; its record goes into the ring. -/
def State.pushEntry (s : State) (ctx region die : Nat) (x : QEntry) (head : Bool) : State :=
  let hit (q : RunQueue) : Bool := q.ctx == ctx && q.region == region && q.die == die
  let q := s.runQueue ctx region die
  let y := { x with slot := s.ringSlot ctx region die }
  let q1 := { q with tail := q.tail + 1, entries := if head then y :: q.entries else q.entries ++ [y] }
  let ws := match alook x.launch s.launches with
    | some l => l.task
    | none => []
  ({ s with queues := if s.queues.any hit then s.queues.map fun r => if hit r then q1 else r else s.queues ++ [q1] } : State).writeRing
    ctx region die y.slot ws

/-- A record appended to the tail of its region's queue on a die, as a new launch. `hb` is what its teams' first instructions
acquire (R263). -/
def State.append (s : State) (ctx die : Nat) (reserve : Bool) (ws : List W64) (hb : List Nat) : State :=
  let k := Task.parse ws
  let l : Launch := { ctx := ctx, region := k.region, die := die, task := ws, left := k.inst, live := 0, hb := hb }
  ({ s with launches := aset s.nextId l s.launches, nextId := s.nextId + 1 } : State).pushEntry ctx k.region die
    { launch := s.nextId, next := 0, hi := k.inst, reserve := reserve, slot := 0 } false

/-- A record posted: the status, and the state with the record appended where the status is 0. -/
def State.postRecord (s : State) (ctx : Nat) (issuer : Option Nat) (die : Nat) (reserve : Bool) (ws : List W64) (hb : List Nat) :
    Nat × State :=
  let v := s.postStatus ctx issuer die reserve (Task.parse ws)
  (v, if v = 0 then s.append ctx die reserve ws hb else s)

/-! ## The records that an instruction reads (R262) -/

/-- A byte as an agent reads it in program order at a time: what it holds, else its own stores still in flight, else memory. -/
def State.ownByte (s : State) (a : Agent) (time : Nat) (t : Target) (i : Nat) : Byte :=
  match heldByte (s.heldBy a s.nextId) t i with
  | some b => b
  | none =>
    s.pend.foldl (fun (b : Byte) (e : Nat × PendOp) =>
      if e.2.ag == a && e.2.kind == .store then
        e.2.lanes.foldl (fun (c : Byte) l =>
          if l.isOpen && l.tgt.key.1 == t.key.1 && Nat.ble l.tgt.key.2 (t.key.2 + i) && Nat.blt (t.key.2 + i) (l.tgt.key.2 + l.n) then
            (leBytes l.x.toNat l.n).getD (t.key.2 + i - l.tgt.key.2) 0
          else c) b
      else b) (s.tgtByteAt time t i)

/-- The 64 bytes at an address, checked and trapped as a load (R262, R326). -/
def readRecord (s : State) (e : Env) (t : Team) (addr : W64) : Except Trap (List W64) :=
  let ls := lanesTgt s e t { write := false, atomic := false, n := 64 } [0] (fun _ => addr)
  match firstErr ls, ls with
  | some x, _ => .error (addrTrap ls x false)
  | none, l :: _ =>
    match l.r with
    | .ok g =>
      if s.tgtPoisoned g 64 then .error { cause := .uncorrectable, addr := addr }
      else
        let time (i : Nat) : Nat := s.readTime (s.readFloor e.ag t.seen t.hb false (g.plus (8 * i)) 8) i
        .ok ((List.range 8).map fun i => BitVec.ofNat 64 (leValue (fun j => s.ownByte e.ag (time i) (g.plus (8 * i)) j) 0 8))
    | .error _ => .ok []
  | none, [] => .ok []

/-- An agent past a read of the record at an address, with what it has read noted (R237, R240). -/
def Team.sawRecord (t : Team) (s : State) (e : Env) (addr : W64) : Team :=
  match s.laneTarget e t { write := false, atomic := false, n := 64 } addr with
  | .ok g => (List.range 8).foldl (fun (u : Team) i =>
      let time := s.readTime (s.readFloor e.ag t.seen t.hb false (g.plus (8 * i)) 8) i
      { u with seen := noteSeen u.seen (g.plus (8 * i)) 8 time, latent := u.latent ++ s.relsRead time (g.plus (8 * i)) 8 }) t
  | .error _ => t

/-- The request of a read of the record at an address: its translation used, and its flit sent (R321, R340). -/
def State.fetchRecord (s : State) (e : Env) (t : Team) (addr : W64) : State :=
  match s.laneTarget e t { write := false, atomic := false, n := 64 } addr with
  | .ok g => (s.useAll e [addr]).sendOn g none
  | .error _ => s

end Sys2Proof.Machine
end

