-- ==== Sys2Proof/Machine/Queue.lean ====
section
/-!
DEFINITION. The queue instructions (R262 to R267, R332), the commands of the Picker and of the scan units (R266, R267, R333), join
blocks (R258, R259) and host submission (R263).
-/
namespace Sys2Proof.Machine

/-! ## ENQ and CONT (R263, R264) -/

/-- ENQ (R263): the record is copied, after every open acquire of its team (R241), and posted; a status of 0 is a release. -/
def enqForm (d : Reg) (a : Src) (s : State) (e : Env) (t : Team) : Except Trap State := do
  checkScalars t [a]
  needOperand (isScaDst d)
  let addr := srcScalar e t a
  let ws ← readRecord s e t addr
  let open_ := s.stillOpen e.ag t false
  if !open_.isEmpty then .ok (s.waitOrder e t open_)
  else
    let r := s.postRecord e.ctx (some e.region) e.die false ws t.released
    let s1 := (r.2.fetchRecord e t addr).committed e.gid
    .ok (s1.setAgent e.ag (((t.sawRecord s e addr).writeScalar d (BitVec.ofNat 64 r.1)).advance (1 + a.words)))

/-- ENQ. -/
def execEnq (d : Reg) (a : Src) (s : State) : Host.Outcome State Fault Refusal := runCommit (.enq d a) s (enqForm d a)

/-- The copies of a group that the engines have not acknowledged are acknowledged, so that they are performed (R264). -/
def State.ackCopies (s : State) (gid : Nat) : State :=
  s.copies.foldl (fun (st : State) (e : Nat × CopyOp) =>
    if e.2.gid = gid ∧ e.2.st = .posted then (st.ackCopy e.1 e.2).getD st else st) s

/-- A group ended by CONT: its teams do nothing more, what they have issued is performed, and it retires (R264). -/
def State.endGroup (s : State) (gid : Nat) : State :=
  let gone := s.teamsOf fun g => g == gid
  (((s.ackCopies gid).discardResults gid).forgetTeams gone.contains).dropGroup gid true

/-- CONT (R264). -/
def contForm (a : Src) (s : State) (e : Env) (t : Team) : Except Trap State := do
  checkScalars t [a]
  needOperand (!t.ctl)
  needNoErrs t
  if a = .reg .z then .ok (s.endGroup e.gid)
  else
    let ws ← readRecord s e t (srcScalar e t a)
    if !(s.stillOpen e.ag t false).isEmpty then return s.waitOrder e t (s.stillOpen e.ag t false)
    need (s.postStatus e.ctx (some e.region) e.die true (Task.parse ws) == 0) (Trap.of .queue)
    .ok (((s.append e.ctx e.die true ws t.released).fetchRecord e t (srcScalar e t a)).endGroup e.gid)

/-- CONT. -/
def execCont (a : Src) (s : State) : Host.Outcome State Fault Refusal := runCommit (.cont a) s (contForm a)

/-! ## The deque (R265) -/

/-- An agent acts in a REDUNDANT region, where PUSHT, POPT, STEAL and PICK raise QUEUE (R312). -/
def State.redundant (s : State) (e : Env) : Bool :=
  if e.ctl then (match s.region e.ctx e.region with
    | some r => r.red
    | none => false)
  else s.inCopy e

/-- A team past an instruction that acquires what happens before a list of accesses (R241). -/
def Team.acquires (t : Team) (ops : List Nat) : Team := { t with hb := t.hb ++ ops }

/-- PUSHT. -/
def execPusht (d : Reg) (a : Src) (s : State) : Host.Outcome State Fault Refusal :=
  runState s fun e t => do
    checkScalars t [a]
    let x := srcScalar e t a
    needOperand (isScaDst d && x != 0)
    need (!s.redundant e) (Trap.of .queue)
    let q := (s.core e.core).active.deque
    let n := 1 + a.words
    let s1 := s.committed e.gid
    if Config.dequeLimit ≤ q.length then .ok (s1.setAgent e.ag ((t.writeScalar d 1).advance n))
    else
      .ok ((s1.setAgent e.ag ((t.writeScalar d 0).advance n)).modCore e.core fun y => y.modActive fun b =>
        { b with deque := b.deque ++ [(x, t.released)] })

/-- POPT. -/
def execPopt (d : Reg) (s : State) : Host.Outcome State Fault Refusal :=
  runState s fun e t => do
    needOperand (isScaDst d)
    need (!s.redundant e) (Trap.of .queue)
    let s1 := s.committed e.gid
    match (s.core e.core).active.deque.getLast? with
    | none => .ok (s1.setAgent e.ag ((t.writeScalar d 0).advance 1))
    | some x =>
      .ok ((s1.setAgent e.ag (((t.acquires x.2).writeScalar d x.1).advance 1)).modCore e.core fun y => y.modActive fun b =>
        { b with deque := b.deque.dropLast })

/-- STEAL. -/
def execSteal (d : Reg) (a : Src) (s : State) : Host.Outcome State Fault Refusal :=
  runState s fun e t => do
    checkScalars t [a]
    let v := (srcScalar e t a).toNat
    needOperand (isScaDst d && Nat.blt v Config.nCores)
    need (!s.redundant e) (Trap.of .queue)
    let n := 1 + a.words
    let s1 := s.committed e.gid
    let k := (s.core v).active
    match (if k.ctx = some e.ctx then k.deque else []) with
    | [] => .ok (s1.setAgent e.ag ((t.writeScalar d 0).advance n))
    | x :: _ =>
      .ok ((s1.setAgent e.ag (((t.acquires x.2).writeScalar d x.1).advance n)).modCore v fun y => y.modActive fun b =>
        { b with deque := b.deque.drop 1 })

/-! ## PICK and SCAN (R262, R267, R332) -/

/-- A command listed under the next number, in its queue. -/
def State.postCmd (s : State) (c : EngCmd) : State :=
  { s with cmds := aset s.nextId c s.cmds, nextId := s.nextId + 1 }.placeJoin c.core (2 ^ c.kind.queue) [s.nextId]

/-- A command of an agent. -/
def newCmd (s : State) (e : Env) (t : Team) (kind : CmdKind) (desc : W64) (bar : Option BarRef) : EngCmd :=
  { core := e.core, level := t.level, die := e.die, gid := e.gid, ctx := e.ctx, region := e.region, kind := kind, desc := desc, bar := bar
    after := s.joined e.core kind.queue ++ t.fenced 3, src := .open, fail := none }

/-- The barrier that `.b` names. -/
def barOperand (s : State) (e : Env) (t : Team) (b : Option Src) : Except Trap (Option BarRef) :=
  match b with
  | none => .ok none
  | some x => (barOpen s e t x).map some

/-- The check of a descriptor's 64 bytes (R180, R262): of one access where its address must be a multiple of 64, else of eight words. -/
def checkDesc (s : State) (e : Env) (t : Team) (addr : W64) (n : Nat) : Except Trap Unit :=
  let ls := lanesTgt s e t { write := false, atomic := false, n := n } (List.range (64 / n)) (fun i => addr + BitVec.ofNat 64 (n * i))
  match firstErr ls with
  | some x => .error (addrTrap ls x false)
  | none => .ok ()

/-- The command of PICK for one index. -/
def PickOp.kind (o : PickOp) (i : Nat) : CmdKind :=
  match o with
  | .set => .set i
  | .clr => .clr i
  | .emit => .emit

/-- PICK: one command per live lane for a vector index, else one (R267). -/
def execPick (o : PickOp) (d a : Src) (b : Option Src) (s : State) : Host.Outcome State Fault Refusal :=
  runState s fun e t => do
    checkSrcs t [a]
    checkScalars t (d :: b.toList)
    needOperand (o != .emit || a == .reg .z)
    if isVec t a then
      checkSh0 t
    need (!s.redundant e) (Trap.of .queue)
    let r ← barOperand s e t b
    let addr := srcScalar e t d
    checkDesc s e t addr (if o = .emit then 64 else 8)
    let idx := if isVec t a then t.liveLanes.map fun l => (srcLane e t a l).toNat else [(srcScalar e t a).toNat]
    let s1 := idx.foldl (fun (st : State) i => st.postCmd (newCmd s e t (PickOp.kind o i) addr r)) (s.useAll e [addr, addr + 56])
    let t1 := (List.range idx.length).foldl (fun (u : Team) k => u.posted CmdKind.emit.queue (s.nextId + k)) t
    .ok ((s1.committed e.gid).setAgent e.ag (t1.advance (1 + d.words + a.words + Src.optWords b)))

/-- SCAN (R332). -/
def execScan (a : Src) (b : Option Src) (s : State) : Host.Outcome State Fault Refusal :=
  runState s fun e t => do
    checkScalars t (a :: b.toList)
    let r ← barOperand s e t b
    let addr := srcScalar e t a
    checkDesc s e t addr 64
    .ok (((s.useAll e [addr]).postCmd (newCmd s e t .scan addr r)).setAgent e.ag ((t.posted CmdKind.scan.queue s.nextId).advance (1 + a.words + Src.optWords b)))

/-! ## Commands: reads, writes and ends (R267, R320, R326, R333) -/

/-- The party that a command's reads are of (R237). -/
def EngCmd.party (c : EngCmd) : Nat := if c.kind = .scan then scanParty else pickParty c.die

/-- n bytes of a target as a command reads them, after what stands before it (R237, R246); a poisoned one is an error (R326). -/
def State.cmdRead (s : State) (c : EngCmd) (g : Target) (n : Nat) : Except EngErr Nat :=
  if s.tgtPoisoned g n then .error (.code 0x14) else .ok (s.valueBy c.party c.after g n g.key.2)

/-- The reads of k parts of n bytes at an address. -/
def State.cmdReads (s : State) (c : EngCmd) (a : W64) (n k : Nat) : List PartyRead :=
  (List.range k).filterMap fun i => match s.engTarget c.ctx c.level false (a + BitVec.ofNat 64 (n * i)) with
    | .ok g => some (g, n, g.key.2)
    | .error _ => none

/-- The state after a command, whose reads of the state before it are noted and went through the ports (R237, R336). -/
def State.withReads (s1 s : State) (c : EngCmd) (l : List PartyRead) : State :=
  ({ s1 with seen := (s.noteReads c.party c.after l).seen } : State).sendReqs (l.map fun r => r.1)

/-- n words of memory at an address, as the engine reads them. -/
def State.cmdWords (s : State) (c : EngCmd) (a : W64) (n : Nat) : Except EngErr (List W64) :=
  (List.range n).mapM fun (i : Nat) => do
    let g ← s.engTarget c.ctx c.level false (a + BitVec.ofNat 64 (8 * i))
    let x ← s.cmdRead c g 8
    .ok (BitVec.ofNat 64 x)

/-- A write that a command makes: where, and the bytes. -/
abbrev CmdWrite := Target × List Byte

/-- A write of a command, and its request's flit. -/
def State.cmdPut (s : State) (id : Nat) (g : Target) (bs : List Byte) : State := (s.writeAs id .none false false [] g bs).sendOn g none

/-- Writes made in order. -/
def State.cmdWrites (s : State) (id : Nat) (l : List CmdWrite) : State := l.foldl (fun (st : State) w => st.cmdPut id w.1 w.2) s

/-- A command's barrier is credited 8 bytes, once, after its writes (R267, R333). -/
def State.creditCmd (s : State) (id : Nat) (c : EngCmd) : State :=
  match c.bar with
  | some r => s.modBar r fun b => b.credit 8 (id :: s.closure c.after)
  | none => s

/-- A command that has completed. -/
def State.endCmd (s : State) (id : Nat) (c : EngCmd) : State := { s.creditCmd id c with cmds := adel id s.cmds }

/-- What word 4 of a failed command holds: CODE 3 for a fault, CODE 4 for a scan on poison. What else a scan writes then is a free value (log
entry 6); the Picker has posted nothing. -/
def State.failWord (s : State) (c : EngCmd) (err : Nat) : Nat :=
  match c.kind with
  | .scan => (Config.value s.freeN 2).toNat / 2 ^ 16 * 2 ^ 16 + (if err = 0x14 then 4 else 3)
  | .set _ | .clr _ | .emit => 3

/-- A command that has ended in an error, which its barrier records (R267, R333). -/
def State.dropCmd (s : State) (id : Nat) (c : EngCmd) (err : Nat) : State :=
  let s1 := match c.bar with
    | some r => s.modBar r fun b => b.engineError err
    | none => s
  { s1 with cmds := adel id s1.cmds }

/-- A command that ends in a fault (0x13) or on poison (0x14): word 4 is written where it can be reached, once a repair or a wait of its own
is over. -/
def State.failCmd (s : State) (id : Nat) (c : EngCmd) (err : Nat) : State :=
  let later : State := { s with cmds := aset id { c with fail := some err } s.cmds }
  match s.engTarget c.ctx c.level true (c.desc + 32) with
  | .ok g => ((s.walksFor c.ctx c.die [c.desc + 32]).cmdPut id g (leBytes (s.failWord c err) 8)).dropCmd id c err
  | .error (.code _) => s.dropCmd id c err
  | .error (.page va) => later.engFault id c.ctx c.region c.core va
  | .error .hold => later

/-! ## The Picker (R266, R267) -/

/-- An activation descriptor. -/
structure ActDesc where
  bitmap : W64
  batch  : Nat
  nt     : Nat
  list   : W64
  templ  : W64
  ok     : Bool

/-- The fields of R266; a reserved bit, a zero BATCH or an address that is not aligned makes it invalid. -/
def ActDesc.parse (ws : List W64) : ActDesc :=
  let w (i : Nat) : Nat := wordN ws i
  { bitmap := ws.getD 0 0, batch := bits (w 1) 47 32, nt := bits (w 1) 31 0, list := ws.getD 2 0, templ := ws.getD 3 0
    ok := bits (w 1) 63 48 == 0 && w 5 == 0 && w 6 == 0 && w 7 == 0 && bits (w 1) 47 32 != 0 && w 0 % 8 == 0 && w 2 % 4 == 0 && w 3 % 64 == 0 }

/-- The set bits of an activation list, ascending. -/
def State.activeTiles (s : State) (c : EngCmd) (x : ActDesc) : Except EngErr (List Nat) := do
  let bs ← (List.range ((x.nt + 7) / 8)).mapM fun (i : Nat) => do
    let g ← s.engTarget c.ctx c.level false (x.bitmap + BitVec.ofNat 64 i)
    s.cmdRead c g 1
  .ok ((List.range x.nt).filter fun i => bitAt (bs.getD (i / 8) 0) (i % 8))

/-- The record that a batch posts: TEMPLATE with its frame and instance count (R267). -/
def batchRecord (ws : List W64) (frame : W64) (n : Nat) : List W64 :=
  (ws.set 1 frame).set 3 (BitVec.ofNat 64 (n * 2 ^ 32 + wordN ws 3 % 2 ^ 32))

/-- The batches posted until a status is not 0: how many indices were posted, and the CODE. The groups' first instructions acquire what the
command has written (R263). A ring that cannot be written yet makes the command wait. -/
def State.postBatches (s : State) (id : Nat) (c : EngCmd) (x : ActDesc) (ws : List W64) : Nat → Nat → Nat → Except EngErr (Nat × Nat × State)
  | 0, done, _ => .ok (done, 0, s)
  | fuel + 1, done, k =>
    if k ≤ done then .ok (done, 0, s)
    else
      let n := min x.batch (k - done)
      let r := s.postRecord c.ctx (some c.region) c.die false (batchRecord ws (x.list + BitVec.ofNat 64 (4 * done)) n)
        (id :: s.closure c.after)
      if r.1 ≠ 0 then .ok (done, if r.1 = 1 then 1 else 2, s)
      else if s.ringHeld c.ctx (Task.parse ws).region c.die then .error .hold
      else r.2.postBatches id c x ws fuel (done + n) k

/-- An emit: the list written, the batches posted, and word 4 written. -/
def State.emitRun (s : State) (id : Nat) (c : EngCmd) (x : ActDesc) : Except EngErr State := do
  let idx ← s.activeTiles c x
  let w4 ← s.engTarget c.ctx c.level true (c.desc + 32)
  let out ← (idx.zip (List.range idx.length)).mapM fun (i : Nat × Nat) => do
    let g ← s.engTarget c.ctx c.level true (x.list + BitVec.ofNat 64 (4 * i.2))
    .ok ((g, leBytes i.1 4) : CmdWrite)
  let ws ← if idx.isEmpty then .ok [] else s.cmdWords c x.templ 8
  let r ← (s.cmdWrites id out).postBatches id c x ws idx.length 0 idx.length
  let pages := pageSpan x.bitmap ((x.nt + 7) / 8) ++ pageSpan x.list (4 * idx.length) ++ (if idx.isEmpty then [] else [x.templ])
  let reads := s.cmdReads c x.bitmap 1 ((x.nt + 7) / 8) ++ (if idx.isEmpty then [] else s.cmdReads c x.templ 8 8)
  .ok (((r.2.2.cmdPut id w4 (leBytes (r.1 * 2 ^ 32 + r.2.1) 8)).walksFor c.ctx c.die pages).withReads s c (s.cmdReads c c.desc 8 8 ++ reads))

/-- One bit of the activation list set or cleared; an index at or above NT is ignored. -/
def State.pickBit (s : State) (id : Nat) (c : EngCmd) (x : ActDesc) (i : Nat) (on : Bool) : Except EngErr State :=
  if x.nt ≤ i then .ok (s.withReads s c (s.cmdReads c c.desc 8 8))
  else do
    let g ← s.engTarget c.ctx c.level true (x.bitmap + BitVec.ofNat 64 (i / 8))
    if s.tgtPoisoned g 1 then .error (.code 0x14)
    else
      let old := (s.tgtByte g 0).toNat
      let m := 2 ^ (i % 8)
      let s1 := (s.writeAs id .none false true [] g [BitVec.ofNat 8 (if on then Nat.lor old m else old - Nat.land old m)]).sendOn g none
      .ok (((s1.walksFor c.ctx c.die [x.bitmap + BitVec.ofNat 64 (i / 8)]).withReads s c (s.cmdReads c c.desc 8 8)).sawAt c.party g 1 s.clock)

/-- A Picker command performed. -/
def State.pickRun (s : State) (id : Nat) (c : EngCmd) : Except EngErr State := do
  let ws ← s.cmdWords c c.desc 8
  let x := ActDesc.parse ws
  if !x.ok then
    let w4 ← s.engTarget c.ctx c.level true (c.desc + 32)
    .ok ((s.cmdPut id w4 (leBytes 2 8)).withReads s c (s.cmdReads c c.desc 8 8))
  else
    match c.kind with
    | .set i => s.pickBit id c x i true
    | .clr i => s.pickBit id c x i false
    | .emit => s.emitRun id c x
    | .scan => .ok s

/-- A command at the head of its queue that may begin: what it is joined behind has completed, and no fault of its own waits. -/
def State.cmdReady (s : State) (id : Nat) (c : EngCmd) : Bool := (c.after.all fun k => !s.engineOpen k) && !s.engWaits id

/-- The end of a command: its effect and credit, its fault with the MEM firmware, or its error; or that of a command that has failed. -/
def State.finishCmd (s : State) (id : Nat) (c : EngCmd) (r : Except EngErr State) : Option State :=
  let r1 : Except EngErr State := match c.fail with
    | some n => .error (.code n)
    | none => r
  match r1 with
  | .ok s1 => some (((s1.walksFor c.ctx c.die [c.desc]).addOrder id (s.closure c.after)).endCmd id c)
  | .error (.code n) => some (s.failCmd id c n)
  | .error (.page va) => some (s.engFault id c.ctx c.region c.core va)
  | .error .hold => none

/-- PICK_COMMAND_EXECUTE: the oldest command of a die's PQ. -/
def execPickCommandExecute (die : Nat) (s : State) : Host.Outcome State Fault Refusal :=
  runEvent s do
    let h ← afind (fun _ c => c.die == die && c.kind != .scan) s.cmds
    if s.cmdReady h.1 h.2 then s.finishCmd h.1 h.2 (s.pickRun h.1 h.2) else none

/-! ## The scan units (R332, R333) -/

/-- A scan descriptor. -/
structure ScanDesc where
  src    : W64
  out    : W64
  nelem  : Nat
  thresh : Nat
  k      : Nat
  fmt    : Nat
  ok     : Bool

/-- The fields of R332, and the checks of R333 on them. -/
def ScanDesc.parse (ws : List W64) : ScanDesc :=
  let w (i : Nat) : Nat := wordN ws i
  { src := ws.getD 0 0, out := ws.getD 1 0, nelem := bits (w 2) 63 32, thresh := bits (w 2) 31 0, k := bits (w 3) 63 48, fmt := bits (w 3) 1 0
    ok := bits (w 3) 47 2 == 0 && w 5 == 0 && w 6 == 0 && w 7 == 0 && bits (w 3) 1 0 != 3 && bits (w 2) 63 32 != 0 && bits (w 3) 63 48 != 0 &&
      w 0 % 4 == 0 && w 1 % 8 == 0 }

/-- An element is strictly greater than the threshold (R333). -/
def qualifies (fmt x y : Nat) : Bool :=
  match fmt with
  | 0 => (Fmt.f32.cmp x y).1 == .greater
  | 1 => decide (sInt 32 y < sInt 32 x)
  | _ => Nat.blt y x

/-- The tier-1 target of a scan's element; none where it lies elsewhere (R333). A repairable fault is repaired first (R320). -/
def State.scanElem (s : State) (c : EngCmd) (x : ScanDesc) (i : Nat) : Except EngErr (Option Target) :=
  match s.engTarget c.ctx c.level false (x.src + BitVec.ofNat 64 (4 * i)) with
  | .ok (.dev pa) => .ok (if s.range pa = .tier1 then some (.dev pa) else none)
  | .ok _ | .error (.code _) => .ok none
  | .error x => .error x

/-- The tier-1 targets of a scan's elements, every page checked before anything is written; none where one lies elsewhere. -/
def State.scanSource (s : State) (c : EngCmd) (x : ScanDesc) : Except EngErr (Option (List Target)) := do
  let l ← (List.range x.nelem).mapM fun (i : Nat) => s.scanElem c x i
  .ok (if l.all fun t => t.isSome then some (l.filterMap fun t => t) else none)

/-- A fault of a scan is on its source: its descriptor and word 4 can be reached. -/
def State.onSource (s : State) (c : EngCmd) : Bool :=
  match s.cmdWords c c.desc 8, s.engTarget c.ctx c.level true (c.desc + 32) with
  | .ok ws, .ok _ => (ScanDesc.parse ws).ok && (match s.scanSource c (ScanDesc.parse ws) with
    | .error (.page _) => true
    | .error _ | .ok _ => false)
  | _, _ => false

/-- How a scan stands to its source where it has met an error. -/
def State.srcAfter (s : State) (c : EngCmd) : SrcSt :=
  match c.src with
  | .refused => .refused
  | .open | .faulted => if s.onSource c then .faulted else .open

/-- The picked indices are as many of the qualifying ones as are to be written, each once. -/
def pickedOk (picked quals : List Nat) (k : Nat) : Bool :=
  picked.length == min quals.length k && decide picked.Nodup && picked.all fun i => quals.contains i

/-- A scan performed: `picked` says which qualifying elements are written, and in which order. None where it could not be so. A fault on its
source that could not be repaired leaves elements outside the context's tier-1 pages (R333). -/
def State.scanRun (s : State) (id : Nat) (c : EngCmd) (picked : List Nat) : Except EngErr (Option State) := do
  let ws ← s.cmdWords c c.desc 8
  let w4 ← s.engTarget c.ctx c.level true (c.desc + 32)
  let x := ScanDesc.parse ws
  match ← if x.ok && c.src != .refused then s.scanSource c x else .ok none with
  | none => .ok (some ((s.cmdPut id w4 (leBytes 2 8)).withReads s c (s.cmdReads c c.desc 8 8)))
  | some ts =>
    if ts.any fun g => s.tgtPoisoned g 4 then .error (.code 0x14)
    else
      let vs := ts.map fun g => s.valueBy c.party c.after g 4 g.key.2
      let v (i : Nat) : Nat := vs.getD i 0
      let quals := (List.range x.nelem).filter fun i => qualifies x.fmt (v i) x.thresh
      let out ← (picked.zip (List.range picked.length)).mapM fun (i : Nat × Nat) => do
        let g ← s.engTarget c.ctx c.level true (x.out + BitVec.ofNat 64 (8 * i.2))
        .ok ((g, leBytes (v i.1 * 2 ^ 32 + i.1) 8) : CmdWrite)
      if pickedOk picked quals x.k then
        let s1 := ((s.cmdWrites id out).cmdPut id w4 (leBytes (min quals.length (2 ^ 32 - 1) * 2 ^ 32 + picked.length * 2 ^ 16) 8)).walksFor
          c.ctx c.die (pageSpan x.src (4 * x.nelem) ++ pageSpan x.out (8 * picked.length))
        .ok (some (s1.withReads s c (s.cmdReads c c.desc 8 8 ++ ts.map fun g => (g, 4, g.key.2))))
      else .ok none

/-- SCAN_COMMAND_EXECUTE: a scan whose earlier scans of the core have completed. -/
def execScanCommandExecute (cmd : Nat) (picked : List Nat) (s : State) : Host.Outcome State Fault Refusal :=
  runEvent s do
    let c ← alook cmd s.cmds
    if c.kind == .scan && s.cmdReady cmd c && !aany (fun k d => Nat.blt k cmd && d.core == c.core && d.kind == .scan) s.cmds then
      match s.scanRun cmd c picked with
      | .ok none => none
      | .ok (some s1) => s.finishCmd cmd c (.ok s1)
      | .error x =>
        let c1 := { c with src := s.srcAfter c }
        ({ s with cmds := aset cmd c1 s.cmds } : State).finishCmd cmd c1 (.error x)
    else none

/-! ## Join blocks (R258, R259) -/

/-- The target of a join update: written at program level, which the device registers refuse (R10), past the read-only mapping of static
frames (R258). -/
def State.joinTarget (s : State) (ctx : Nat) (a : W64) : Except EngErr Target :=
  if a.toNat / 2 ^ 56 ≠ 0 then .error (.code 0x13)
  else if s.walkBlocked ctx a.toNat then .error .hold
  else
    match s.translate ctx a.toNat with
    | .invalid => .error (.page a)
    | .malformed => .error (.code 0x13)
    | .leaf x =>
      if !x.w || x.sys || s.codePage ctx x.page (x.page + x.size) then .error (.code 0x13)
      else if x.host then
        match s.atc.find? fun t => t.ctx == ctx && t.page == a.toNat / 65536 with
        | some t => .ok (.host (t.host + a.toNat % 65536))
        | none => .error (.page a)
      else
        match s.physical { ctx := ctx, level := .program, write := true } (x.pa + (a.toNat - x.page)) with
        | .ok g => if s.blocked g then .error .hold else .ok g
        | .error .dead => .error (.code 0x14)
        | .error _ => .error (.code 0x13)

/-- Where the 64 bytes of a waiter record stand; none where they cannot be read for good. -/
def State.waiterRecord (s : State) (j : JoinUpd) (a : W64) : Except EngErr (Option Target) :=
  if a.toNat % 64 ≠ 0 ∨ j.deaf = true then .ok none
  else
    match s.engTarget j.ctx .program false a with
    | .ok g => .ok (if s.tgtPoisoned g 64 then none else some g)
    | .error (.code _) => .ok none
    | .error x => .error x

/-- The words of a waiter record, as the home of its join block reads them. -/
def State.waiterWords (s : State) (j : JoinUpd) (g : Target) : List W64 :=
  (List.range 8).map fun i => BitVec.ofNat 64 (s.valueBy (joinParty j.die) j.after (g.plus (8 * i)) 8 i)

/-- The waiter of a join block posted, or its status written to WAITER (R258); its groups' first instructions acquire the update (R259). -/
def State.postWaiter (s : State) (id : Nat) (j : JoinUpd) (g : Target) (a : W64) (ws : Option (List W64)) : State :=
  let r := match ws with
    | some w => s.postRecord j.ctx (some j.region) j.die true w (id :: s.closure j.after)
    | none => (2, s)
  if r.1 = 0 then r.2 else s.cmdPut id (g.plus 8) (leBytes (a.toNat / 4 * 4 + r.1) 8)

/-- A join update is a release at K, E and M (R259). -/
def State.joinRelease (s : State) (id : Nat) (j : JoinUpd) : Release :=
  let core := j.die * Config.coresPerDie
  { mask := 0b0011100, who := .ctl core j.ctx, gid := 0, die := j.die, core := core, set := id :: s.closure j.after }

/-- A waiter would be posted, to a ring that cannot be written yet. -/
def State.waiterHeld (s : State) (j : JoinUpd) (ws : Option (List W64)) : Bool :=
  match ws with
  | some w => s.postStatus j.ctx (some j.region) j.die true (Task.parse w) == 0 && s.ringHeld j.ctx (Task.parse w).region j.die
  | none => false

/-- One join update, one atomic step: COUNT and JERR, and the waiter at zero. -/
def State.joinRun (s : State) (id : Nat) (j : JoinUpd) : Except EngErr State := do
  let g ← s.joinTarget j.ctx j.addr
  if s.tgtPoisoned g 16 then .error (.code 0x14)
  else
    let w0 := s.tgtValue g 8
    let waiter : W64 := BitVec.ofNat 64 (s.tgtValue (g.plus 8) 8)
    let put (x : Nat) : State :=
      ((s.writeAs id .none true true [s.joinRelease id j] g (leBytes x 8)).sendOn g none).sawAt (joinParty j.die) g 16 s.clock
    if bits w0 31 0 = 0 then .ok (put (w0 % 2 ^ 63 + 2 ^ 63))
    else
      let s1 := put (w0 - 1)
      if bits w0 31 0 = 1 ∧ waiter ≠ 0 then do
        let r ← s.waiterRecord j waiter
        let ws := r.map fun t => s.waiterWords j t
        if s.waiterHeld j ws then .error .hold
        else
          let s2 := (s1.noteReads (joinParty j.die) j.after (r.toList.flatMap recordReads)).sendReqs r.toList
          .ok ((s2.postWaiter id j g waiter ws).walksFor j.ctx j.die [waiter])
      else .ok s1

/-- A join update that cannot be performed is reported and dropped (R258). -/
def State.failJoin (s : State) (id : Nat) (j : JoinUpd) : State :=
  { s with joins := adel id s.joins }.report .joinReport 1 [j.addr, BitVec.ofNat 64 j.region]

/-- JOIN_BLOCK_UPDATE: every access of the group has been performed (R259). -/
def execJoinBlockUpdate (id : Nat) (s : State) : Host.Outcome State Fault Refusal :=
  runEvent s do
    let j ← alook id s.joins
    if (j.after.all fun k => !s.opOpen k && !s.engineOpen k) && !s.engWaits id then
      match s.joinRun id j with
      | .ok s1 => some { s1.walksFor j.ctx j.die [j.addr] with joins := adel id s1.joins }
      | .error (.code _) => some (s.failJoin id j)
      | .error (.page va) => some (s.engFault id j.ctx j.region (j.die * Config.coresPerDie) va)
      | .error .hold => none
    else none

/-! ## Host submission (R263) -/

/-- An answer to a request of the host, which SCHED writes to mailbox 13 (R360); one for a context comes with the context's completion
vector (R343; log entry 28). -/
def State.reply (s : State) (op : MsgOp) (ctx : Option Nat) (tag : Nat) (body : List W64) : State :=
  s.fwSend 1 13 ((ctx.bind fun c => alook c s.ctxs).map fun c => c.vector) { op := op, snd := 1, rcv := 0, tag := tag, body := body }

/-- How a translation fault that a firmware request meets stands: with the MEM firmware, refused, or not raised yet (R320). -/
inductive FwFault where
  | fresh | waiting | refused (f : Nat)
  deriving DecidableEq, Repr

/-- The fault of a firmware request at an address of a context. -/
def State.fwFaultAt (s : State) (ctx : Nat) (va : W64) : FwFault :=
  match afind (fun _ f => f.eng == some 0 && f.ctx == ctx && f.va == va) s.faults with
  | some (k, f) => if f.st = .refused then .refused k else .waiting
  | none => .fresh

/-- The root region of a context. -/
def State.rootOf (s : State) (ctx : Nat) : Nat :=
  match alook ctx s.ctxs with
  | some c => c.rootRegion
  | none => 0

/-- A host submission: the record is read and posted by the checks of ENQ; one that cannot be read is INVALID. `say` sends the answer. -/
def State.submit (s : State) (say : State → W64 → State) (ctx addr die : Nat) : Option State :=
  let answer (s1 : State) (v : Nat) : Option State := some (say s1 (BitVec.ofNat 64 v))
  let a : W64 := BitVec.ofNat 64 addr
  if addr % 64 ≠ 0 ∨ 2 ^ 56 ≤ addr then answer s 2
  else
    match s.engTarget ctx .program false a with
    | .ok g =>
      if s.tgtPoisoned g 64 then answer s 2
      else
        let ws := words64 (getBytes (s.tgtByte g) 0 64)
        let r := s.postRecord ctx none die false ws []
        if r.1 = 0 ∧ s.ringHeld ctx (Task.parse ws).region die = true then none else answer (r.2.sendOn g none) r.1
    | .error (.code _) => answer s 2
    | .error (.page va) =>
      match s.fwFaultAt ctx va with
      | .fresh => some (s.engFault 0 ctx (s.rootOf ctx) 0 va)
      | .waiting => none
      | .refused k => answer { s with faults := adel k s.faults } 2
    | .error .hold => none

/-- HOST_SUBMIT. -/
def execHostSubmit (tag ctx addr die : Nat) (s : State) : Host.Outcome State Fault Refusal :=
  runEvent s (
    if Config.nDies ≤ die then none
    else if s.fwUp 1 then s.submit (fun (st : State) v => st.reply .submitStatus (some ctx) tag [v]) ctx addr die
    else s.hold 8 (.hostSubmit tag ctx addr die))

end Sys2Proof.Machine
end

