-- ==== Sys2Proof/Machine/Decanter.lean ====
section
/-!
DEFINITION. The Decanter (R279 to R284, R370): the analysis of what is static on the paths from an entry, and the residual
assembled from it. A node is a clause of the original code, in one pass of each loop that is unrolled around it; the
analysis gives each node what is static on every path that reaches it, and the assembly lays one copy of each node out, a
node's own successor first (log entry 30).
-/
namespace Sys2Proof.Machine

/-! ## Inputs and outputs -/

/-- What the Decanter works from: the code section's words, the entry's word, the static frame bytes (byte i where bit i of
`smask` is set), the place for a placed residual (the class and the point), and the words at which breakpoints are registered. -/
structure DecIn where
  code  : List W32
  entry : Nat
  smask : BitVec 256
  bytes : List (Nat × Byte)
  place : Option (Bool × Nat)
  brk   : List Nat

/-- A residual: its words, their back-map, the headers of the clauses it folded, the words at which it is left, the loop states of its words
in unrolled passes of a LOOP, and whether it depends on the place. -/
structure DecOut where
  words  : List W32
  back   : List Nat
  folded : List Nat
  exits  : List Nat
  loops  : List (Nat × LoopSt)
  placed : Bool

/-- One pass of an unrolled loop: the word of its LOOP or backward BRC, the words it spans, and the pass. `count` is LOOP's. -/
structure Pass where
  id    : Nat
  lo    : Nat
  hi    : Nat
  n     : Nat
  count : Option Nat
  deriving DecidableEq, Repr

/-- A clause of the original code by its header's word, in the passes around it; a `raw` one is emitted as it stands. A place before the
code section counts on from it modulo 2^62 words, as its address does. -/
structure Node where
  pc  : Nat
  ctx : List Pass
  raw : Bool
  deriving DecidableEq, Repr

/-- The node that a transfer from a node reaches: the passes whose loop it leaves end. -/
def Node.to (v : Node) (pc : Nat) : Node := { v with pc := pc, ctx := v.ctx.filter fun p => Nat.ble p.lo pc && Nat.blt pc p.hi }

/-- The same clause emitted as it stands, in its pass of a LOOP that is unrolled already. -/
def Node.asRaw (v : Node) : Node := { pc := v.pc, ctx := v.ctx.filter fun p => p.count.isSome, raw := true }

/-- What holds on every path to a node (R281, R282): the static scalars, the static nibble, the proof that a live lane exists, that
sh0 holds a FIT or EXACT grant, and the places that a RET or a pop on those paths can go to. -/
structure DEnv where
  regs  : List (Nat × W64)
  nib   : Option (BitVec 4)
  live  : Bool
  fixed : Bool
  calls : List Node
  toks  : List Node
  deriving DecidableEq, Repr

/-- At the entry s1 to s23 are zero (R114, R281). -/
def DEnv.entry : DEnv :=
  { regs := (List.range 23).map fun i => (i + 1, 0), nib := none, live := true, fixed := true, calls := [], toks := [] }

/-- Nothing static. -/
def DEnv.bare : DEnv := { regs := [], nib := none, live := false, fixed := false, calls := [], toks := [] }

/-- Two lists of nodes as one. -/
def joinNodes (a b : List Node) : List Node := a ++ b.filter fun v => !a.contains v

/-- What holds on both of two paths. -/
def DEnv.meet (a b : DEnv) : DEnv :=
  { regs := a.regs.filter fun e => alook e.1 b.regs == some e.2
    nib := if a.nib = b.nib then a.nib else none
    live := a.live && b.live, fixed := a.fixed && b.fixed, calls := joinNodes a.calls b.calls, toks := joinNodes a.toks b.toks }

/-! ## Instructions by what they read and write -/

/-- The register that an instruction writes, if it writes one. -/
def dstOfInstr (i : Instr) : Option Reg :=
  match i with
  | .add _ d _ _ | .sub _ d _ _ | .addc _ d _ _ | .subb _ d _ _ | .mul _ d _ _ | .mulh _ d _ _ | .mad _ d _ _ | .div _ d _ _
  | .rem _ d _ _ | .min _ d _ _ | .max _ d _ _ | .absd _ d _ _ | .and _ d _ _ | .or _ d _ _ | .xor _ d _ _ | .andn _ d _ _
  | .shl _ d _ _ | .shr _ d _ _ | .sar _ d _ _ | .rot _ d _ _ | .bfe _ d _ _ | .bfi _ d _ _ | .popc _ d _ | .clz _ d _
  | .brev _ d _ | .sel _ d _ _ | .mov _ d _ | .ext _ d _ _ | .adds _ d _ _ | .subs _ d _ _ | .fadd _ d _ _ | .fsub _ d _ _
  | .fmul _ d _ _ | .ffma _ d _ _ | .fmin _ d _ _ | .fmax _ d _ _ | .fdiv _ d _ _ | .fsqrt _ d _ | .fsfu _ d _
  | .fclass _ d _ | .cvt _ _ d _ | .dadd _ d _ _ | .dmul _ d _ _ | .dfma _ d _ _ | .quant _ d _ _ | .deq _ d _ _ | .pack d _
  | .unpk d _ | .idot4 _ d _ _ | .fdot2 _ d _ _ | .shfl _ d _ _ | .vote _ d _ | .rdfirst d _ | .rdlane d _ _ | .wrlane d _ _
  | .ccmovRd d | .addi d _ _ | .andi d _ _ | .ori d _ _ | .xori d _ _ | .shli d _ _ | .shri d _ _ | .sari d _ _ | .movi d _
  | .movhi d _ _ | .curve d _ _ | .lds d _ _ | .ldf d _ | .ld _ d _ _ | .ldacq _ d _ _ | .ldstr _ d _ _ | .atom _ d _ _
  | .atom64 _ d _ _ | .talloc _ _ d _ | .trd _ _ d _ _ | .tstat d _ | .setshape _ d _ _ _ | .rdshape d _ | .binit d _ _
  | .barv _ d _ | .bwait d _ _ | .btest d _ _ | .bstat _ d _ | .enq d _ | .pusht d _ | .popt d | .steal d _ | .rdsr d _
  | .dbgrd _ d _ | .dbgwr d _ _ | .tresume _ d _ | .evrd _ d _ | .ckpt d _ _ | .deadrg _ d _ _ | .rdcurve d => some d
  | _ => none

/-- An instruction writes condition codes. -/
def writesCodes (i : Instr) : Bool :=
  match i with
  | .add m _ _ _ | .sub m _ _ _ | .addc m _ _ _ | .subb m _ _ _ | .mul m _ _ _ | .mulh m _ _ _ | .mad m _ _ _ | .div m _ _ _
  | .rem m _ _ _ | .min m _ _ _ | .max m _ _ _ | .absd m _ _ _ | .and m _ _ _ | .or m _ _ _ | .xor m _ _ _ | .andn m _ _ _
  | .shl m _ _ _ | .shr m _ _ _ | .sar m _ _ _ | .rot m _ _ _ | .bfe m _ _ _ | .bfi m _ _ _ | .popc m _ _ | .clz m _ _
  | .brev m _ _ | .mov m _ _ | .ext m _ _ _ | .adds m _ _ _ | .subs m _ _ _ => m.cc
  | .fadd m _ _ _ | .fsub m _ _ _ | .fmul m _ _ _ | .ffma m _ _ _ | .fmin m _ _ _ | .fmax m _ _ _ | .fdiv m _ _ _ | .fsqrt m _ _ => m.cc
  | .dadd cc _ _ _ | .dmul cc _ _ _ | .dfma cc _ _ _ => cc
  | .cmp _ _ _ | .fcmp _ _ _ | .dcmp _ _ | .cmpi _ _ | .ccmovWr _ | .dbgrd _ _ _ => true
  | _ => false

/-- An instruction of the first rows of R282: what it reads, whether it reads the nibble, and its meaning. -/
structure Foldable where
  srcs : List Src
  nib  : Bool
  run  : State → Host.Outcome State Fault Refusal

/-- A two-source instruction. -/
def fold2 (a b : Src) (run : State → Host.Outcome State Fault Refusal) : Option Foldable := some { srcs := [a, b], nib := false, run := run }

/-- A one-source instruction. -/
def fold1 (a : Src) (run : State → Host.Outcome State Fault Refusal) : Option Foldable := some { srcs := [a], nib := false, run := run }

/-- Form A 0x00 to 0x1E and Form B 0x00 to 0x09 (R282). -/
def foldable (i : Instr) : Option Foldable :=
  match i with
  | .add m d a b => fold2 a b (execAdd m d a b)
  | .sub m d a b => fold2 a b (execSub m d a b)
  | .addc m d a b => some { srcs := [a, b], nib := true, run := execAddc m d a b }
  | .subb m d a b => some { srcs := [a, b], nib := true, run := execSubb m d a b }
  | .mul m d a b => fold2 a b (execMul m d a b)
  | .mulh m d a b => fold2 a b (execMulh m d a b)
  | .mad m d a b => some { srcs := [a, b, .reg d], nib := false, run := execMad m d a b }
  | .div m d a b => fold2 a b (execDiv m d a b)
  | .rem m d a b => fold2 a b (execRem m d a b)
  | .min m d a b => fold2 a b (execMin m d a b)
  | .max m d a b => fold2 a b (execMax m d a b)
  | .absd m d a b => fold2 a b (execAbsd m d a b)
  | .and m d a b => fold2 a b (execAnd m d a b)
  | .or m d a b => fold2 a b (execOr m d a b)
  | .xor m d a b => fold2 a b (execXor m d a b)
  | .andn m d a b => fold2 a b (execAndn m d a b)
  | .shl m d a b => fold2 a b (execShl m d a b)
  | .shr m d a b => fold2 a b (execShr m d a b)
  | .sar m d a b => fold2 a b (execSar m d a b)
  | .rot m d a b => fold2 a b (execRot m d a b)
  | .bfe m d a b => fold2 a b (execBfe m d a b)
  | .bfi m d a b => some { srcs := [a, b, .reg d], nib := false, run := execBfi m d a b }
  | .popc m d a => fold1 a (execPopc m d a)
  | .clz m d a => fold1 a (execClz m d a)
  | .brev m d a => fold1 a (execBrev m d a)
  | .cmp t a b => fold2 a b (execCmp t a b)
  | .sel c d a b => some { srcs := [a, b], nib := true, run := execSel c d a b }
  | .mov m d a => fold1 a (execMov m d a)
  | .ext m d a b => fold2 a b (execExt m d a b)
  | .adds m d a b => fold2 a b (execAdds m d a b)
  | .subs m d a b => fold2 a b (execSubs m d a b)
  | .addi d a k => fold1 a (execAddi d a k)
  | .andi d a k => fold1 a (execAndi d a k)
  | .ori d a k => fold1 a (execOri d a k)
  | .xori d a k => fold1 a (execXori d a k)
  | .shli d a k => fold1 a (execShli d a k)
  | .shri d a k => fold1 a (execShri d a k)
  | .sari d a k => fold1 a (execSari d a k)
  | .cmpi a k => fold1 a (execCmpi a k)
  | .movi d k => some { srcs := [], nib := false, run := execMovi d k }
  | .movhi d a k => fold1 a (execMovhi d a k)
  | _ => none

/-! ## Evaluation -/

/-- A team of one live lane with nothing in it. -/
def evalTeam0 : Team :=
  { ctl := false, level := .program, gid := 0, tix := 0, slot := 0, tw := 32, allot := 32, st := .ready, wait := .none, since := 0
    pc := .code 0, clause := ClauseCtx.empty, vregs := [], sregs := [], cc := [], flags := [], fpflags := 0
    sh0 := { Shape.none with kind := .vec, d0 := 1 }, sh1 := Shape.none, sh2 := Shape.none, sh3 := Shape.none, winBase := 0, active := 1
    exited := 0, fault := 0, stack := [], trapTok := Token.empty, loop := none, gang := 0, pending := none, pendOvf := false, trap := none
    fromDrain := false, errs := [], replay := none, bpSkip := false, arrived := none, hint := 0, hintAt := 0, hb := [], own := [], seen := []
    latent := [], fences := [], posts := [], held := [], relAt := 0 }

/-- That team with the static scalars and the static nibble. -/
def evalTeam (v : DEnv) : Team :=
  { evalTeam0 with sregs := v.regs.foldl (fun (m : List (Nat × W64)) e => sset m e.1 e.2) [], cc := sset [] 0 (v.nib.getD 0) }

/-- A machine in which that team issues, on a core of the place. -/
def evalState (place : Option (Bool × Nat)) (v : DEnv) : State :=
  let p := place.getD (false, 0)
  { State.reset with
    cur := .team 0, teams := [(0, evalTeam v)], part := { Part.init with classT := if p.1 then 1 else 0 }
    cores := [(0, { CoreSt.init with point := p.2 })] }

/-- A foldable instruction evaluated by its own meaning: the value of a scalar destination and the nibble; none where it traps. -/
def evalFold (place : Option (Bool × Nat)) (v : DEnv) (f : Foldable) (d : Option Reg) : Option (W64 × BitVec 4) :=
  match f.run (evalState place v) with
  | .next s =>
    match alook 0 s.teams with
    | some t =>
      if t.st = .ready then
        some (match d with
          | some (.s n) => (sget t.sregs n.val, sget t.cc 0)
          | _ => (0, sget t.cc 0))
      else none
    | none => none
  | _ => none

/-- A source is static (R281). -/
def DEnv.isStatic (v : DEnv) (place : Option (Bool × Nat)) (x : Src) : Bool :=
  match x with
  | .lit _ | .reg .z => true
  | .reg (.s n) => (alook n.val v.regs).isSome
  | .reg .pw => place.isSome
  | .reg _ => false

/-- The value of a static scalar operand with a literal zero-extended, as SETSHAPE and LOOP read it (R157, R139). -/
def DEnv.value (v : DEnv) (place : Option (Bool × Nat)) (x : Src) : W64 :=
  match x with
  | .lit w => w.setWidth 64
  | .reg (.s n) => agetD 0 n.val v.regs
  | .reg .pw => match place with
    | some p => BitVec.ofNat 64 (Config.pw p.2 p.1)
    | none => 0
  | .reg _ => 0

/-- A static LDF (R281): all eight bytes are static. -/
def DecIn.frameWord (x : DecIn) (k : Nat) : Option W64 := do
  let bs ← (List.range 8).mapM fun i => alook (8 * k + i) x.bytes
  some (BitVec.ofNat 64 (leValue (fun i => bs.getD i 0) 0 8))

/-! ## The code -/

/-- A word of the code section. -/
def DecIn.word (x : DecIn) (i : Nat) : W32 := x.code.getD i 0

/-- A word of the code section is a header. -/
def DecIn.headAt (x : DecIn) (i : Nat) : Bool := Nat.blt i x.code.length && isHeader (x.word i)

/-- The instructions of a clause's words: where each stands in the list, and its words. -/
def splitWords : Nat → Nat → List W32 → List (Nat × List W32)
  | 0, _, _ => []
  | _, _, [] => []
  | fuel + 1, k, w :: r => (k, (w :: r).take (wordSpan w)) :: splitWords fuel (k + wordSpan w) (r.drop (wordSpan w - 1))

/-- The instruction words of the code from a word on, as its headers divide it. -/
def DecIn.opsFrom (x : DecIn) : Nat → Nat → List W32
  | 0, _ => []
  | fuel + 1, i =>
    if x.code.length ≤ i then []
    else if isHeader (x.word i) then
      let n := bits (x.word i).toNat 9 6 + 1
      ((splitWords n 0 ((x.code.drop (i + 1)).take n)).map fun e => e.2.headD 0) ++ x.opsFrom fuel (i + 1 + n)
    else x.opsFrom fuel (i + 1)

/-- The code holds an instruction of an opcode of Form B or Form C (R282 CURVE, GANG). -/
def DecIn.holds (x : DecIn) (form op : Nat) : Bool :=
  (x.opsFrom (x.code.length + 1) 0).any fun w =>
    bits w.toNat 31 30 == form && (if form = 1 then bits w.toNat 29 25 else bits w.toNat 29 24) == op

/-- The header at a word. -/
def headerOf (w : W32) : Option Header :=
  match decode [w] with
  | .ok (.clauseStart h) => some h
  | _ => none

/-- The clause of a header would trap at it (R26). -/
def clauseBad (h : Header) (ws : List W32) : Bool :=
  let n := h.len.toNat + 1
  let f := clauseForm n ws
  !Sys2Proof.Machine.Header.ok h || ws.length != n || !f.fits || f.head || f.early || Nat.blt 2 f.long || (Nat.ble 1 f.long && h.setA == 15) ||
    (Nat.ble 2 f.long && h.setB == 15)

/-- The body of a LOOP that a pass runs, as a loop state (R139), its start counted from the code section. -/
def DecIn.loopAt (x : DecIn) (p : Pass) : LoopSt :=
  { start := .code (BitVec.ofNat 64 (4 * p.lo)), len := p.hi - p.lo, stepw := x.word (p.id + 1), c := p.count.getD 0, p := p.n, buf := (x.code.drop p.lo).take (p.hi - p.lo) }

/-- The innermost pass, where it is a LOOP's. -/
def Node.loopPass (v : Node) : Option Pass :=
  match v.ctx.getLast? with
  | some p => if p.count.isSome then some p else none
  | none => none

/-- The words of a clause's instructions as its node runs them: renamed in a pass of a LOOP (R139). -/
def DecIn.nodeWords (x : DecIn) (v : Node) (n : Nat) : List (Nat × List W32) :=
  (splitWords n 0 ((x.code.drop (v.pc + 1)).take n)).map fun e =>
    match v.loopPass, e.2 with
    | some p, w :: r => (e.1, ((x.loopAt p).rename (v.pc + 1 + e.1 - p.lo) w).getD w :: r)
    | _, ws => (e.1, ws)

/-- Every rename of a LOOP stays in its class in every pass (R139). -/
def DecIn.renamesOk (x : DecIn) (p : Pass) (c : Nat) : Bool :=
  (List.range c).all fun n =>
    let q := x.loopAt { p with n := n }
    (bodyPlaces q.len 0 q.buf).all fun k => (q.rename k (q.buf.getD k 0)).isSome

/-! ## One clause (R282, R283) -/

/-- Words of a residual with the words they map to, kept together in one clause. `long` is the flag of a long-latency instruction;
`fix` the node that a branch goes to. -/
structure DecItem where
  ws   : List (W32 × Nat)
  long : Option Nat
  fix  : Option Node
  deriving DecidableEq, Repr

/-- Where control goes after a clause: on, by a resolved transfer of a word, by an emitted JMP, both ways of a BRC, into a CALL, past a LOOP that is
emitted with its body, by RET, by a pop of JOIN or EXIT, out by JMPR, or nowhere. -/
inductive Next where
  | fall (v : Node)
  | go (i : Nat) (v : Node)
  | jump (v : Node)
  | both (t f : Node)
  | call (t f : Node)
  | loop (lo len : Nat) (v : Node)
  | ret | pop | out | stop
  deriving DecidableEq, Repr

/-- A clause as it has been read so far: what is static, the folded registers not yet materialised with the words that wrote them
last, the items emitted, the long-latency instructions met, the instructions folded, whether the place is wanted, a loop that
passes its limit, whether a limit of R284 has been met at a word, and where control goes. -/
structure Run where
  env   : DEnv
  pend  : List (Nat × (W64 × Nat))
  items : List DecItem
  rank  : Nat
  nfold : Nat
  want  : Bool
  excess : Option Nat
  lim   : Bool
  next  : Option Next
  deriving DecidableEq, Repr

/-- The instructions that write a scalar with a value, the first form of R283 that reaches it. -/
def materialise (r : Fin 24) (v : W64) : List Instr :=
  let d : Reg := .s r
  let x := v.toInt
  let lo : W32 := v.setWidth 32
  let hi : W32 := BitVec.ofNat 32 (v.toNat / 2 ^ 32)
  let mov (w : W32) : Instr := .mov { cc := false, ty := .i } d (.lit w)
  if -1024 ≤ x ∧ x ≤ 1023 then [.movi d (BitVec.ofInt 11 x)]
  else if -2147483648 ≤ x ∧ x ≤ 2147483647 then [mov lo]
  else if v.toNat < 2 ^ 43 then [mov lo, .movhi d (.reg d) (BitVec.ofNat 11 (v.toNat / 2 ^ 32))]
  else [mov hi, .shli d (.reg d) 32, .or { cc := false, ty := .n } d (.reg d) (.lit lo)]

/-- The items that materialise registers, in ascending register number (R370). -/
def matItems (pend : List (Nat × (W64 × Nat))) : List DecItem :=
  pend.map fun e =>
    { ws := ((materialise (Fin.ofNat 24 e.1) e.2.1).flatMap encode).map fun w => (w, e.2.2), long := none, fix := none }

/-- What waits is materialised. -/
def Run.flush (r : Run) : Run := { r with items := r.items ++ matItems r.pend, pend := [] }

/-- An item emitted, after what waits. -/
def Run.put (r : Run) (x : DecItem) : Run := let r1 := r.flush
  { r1 with items := r1.items ++ [x] }

/-- A scalar known, or no longer known; s0 never is (R281). -/
def DEnv.set (v : DEnv) (d : Option Reg) (x : Option W64) : DEnv :=
  match d with
  | some (.s n) => match x with
    | some y => if n = 0 then v else { v with regs := aset n.val y v.regs }
    | none => { v with regs := adel n.val v.regs }
  | _ => v

/-- A folded instruction at a word with its result. -/
def Run.folded (r : Run) (i : Nat) (d : Reg) (x : W64) : Run :=
  match d with
  | .s n => { r with env := r.env.set (some d) (some x), pend := aset n.val (x, i) r.pend, nfold := r.nfold + 1 }
  | _ => { r with nfold := r.nfold + 1 }

/-- What an emitted SETSHAPE does to the proofs of R282. -/
def DEnv.afterShape (v : DEnv) (place : Option (Bool × Nat)) (k : ReqKind) (a : Src) (p : Pol) (sh : Fin 4) : DEnv :=
  let good := v.isStatic place a && bits (v.value place a).toNat 15 0 != 0
  { v with live := v.live && (k != .vec || good), fixed := v.fixed && (sh != 0 || p != .onepass) }

/-- What an emitted instruction leaves static. -/
def DEnv.after (v : DEnv) (place : Option (Bool × Nat)) (i : Instr) : DEnv :=
  let v1 := match i with
    | .setshape k _ a p sh => v.afterShape place k a p sh
    | .exit | .joinat _ => { v with live := false }
    | _ => v
  let v2 := v1.set (dstOfInstr i) none
  let v3 := match i with
    | .dbgrd true (.s n) _ => { v2 with regs := adel (n.val + 1) v2.regs }
    | _ => v2
  if writesCodes i then { v3 with nib := none } else v3

/-- A branch's target from a clause. -/
def Node.target (v : Node) (off : BitVec 11) : Int := (v.pc : Int) + off.toInt

/-- The node at a branch's target. -/
def Node.targetNode (v : Node) (off : BitVec 11) : Node := v.to (if v.target off < 0 then (v.target off + 2 ^ 62).toNat else (v.target off).toNat)

/-- A branch goes to a header of the code section. -/
def DecIn.targetOk (x : DecIn) (v : Node) (off : BitVec 11) : Bool :=
  decide (0 ≤ v.target off) && x.headAt (v.target off).toNat

/-- What an emitted control transfer does, at a word of a clause that ends at a word. -/
def Node.transfer (v : Node) (endw : Nat) (i : Instr) (r : Run) : Run :=
  match i with
  | .brc _ off =>
    let f := v.to endw
    { r with env := { r.env with live := false, toks := joinNodes r.env.toks [f] }, next := some (.both (v.targetNode off) f) }
  | .jmp off => { r with next := some (.jump (v.targetNode off)) }
  | .call off => { r with next := some (.call (v.targetNode off) (v.to endw)) }
  | .joinat off => { r with env := { r.env with toks := joinNodes r.env.toks [v.targetNode off] } }
  | .ret => { r with next := some .ret }
  | .join | .exit => { r with next := some .pop }
  | .jmpr _ _ => { r with next := some .out }
  | _ => r

/-- The node that an emitted branch goes to. -/
def Node.fixOf (v : Node) (i : Instr) : Option Node :=
  match i with
  | .brc _ off | .jmp off | .call off | .joinat off => some (v.targetNode off)
  | _ => none

/-- What a pass of an emitted LOOP's body, with its renames and its value steps (R139), leaves static. -/
def DEnv.afterPass (v : DEnv) (place : Option (Bool × Nat)) (q : LoopSt) : DEnv :=
  let places := bodyPlaces q.len 0 q.buf
  let e := places.foldl (fun (e : DEnv) k =>
    match (q.rename k (q.buf.getD k 0)).map fun w => decode (w :: q.buf.drop (k + 1)) with
    | some (.ok i) => e.after place i
    | some (.error _) | none => e) v
  { e with regs := e.regs.filter fun r => !(stepEntries q.stepw).any fun n =>
      n.2.1 == 3 && fieldA (q.buf.getD (places.getD n.1 0) 0).toNat - 96 == r.1 }

/-- What an emitted LOOP of at most c passes leaves static: after 24 passes no rename reaches another scalar, and nothing else changes. -/
def DecIn.afterBody (x : DecIn) (v : DEnv) (lo len : Nat) (stepw : W32) (c : Nat) : DEnv :=
  (List.range (min c 24)).foldl (fun (e : DEnv) p =>
    e.afterPass x.place { start := .code 0, len := len, stepw := stepw, c := c, p := p, buf := (x.code.drop lo).take len }) v

/-- An instruction emitted as it stands, from its words and place; one that does not decode traps where it stands. -/
def DecIn.emit (x : DecIn) (v : Node) (h : Header) (endw i : Nat) (ws : List W32) (ins : Option Instr) (r : Run) : Run :=
  let w := ws.headD 0
  let long := wordLong w
  let r1 := r.put {
    ws := ws.zip ((List.range ws.length).map fun k => i + k)
    long := if long then some (if r.rank = 0 then h.setA.toNat else h.setB.toNat) else none
    fix := ins.bind fun j => v.fixOf j }
  let r2 := if long then { r1 with rank := r1.rank + 1 } else r1
  match ins with
  | none => r2
  | some (.loop a len stepw) =>
    let lo := endw
    let c := if r2.env.isStatic x.place a then (r2.env.value x.place a).toNat % 2 ^ 32 else 24
    { r2 with env := x.afterBody r2.env lo len.toNat stepw c, next := some (.loop lo len.toNat (v.to (lo + len.toNat))) }
  | some j => v.transfer endw j { r2 with env := r2.env.after x.place j }

/-- The node of the next pass of a loop that a backward BRC at a word ends; none past 16 passes. -/
def Node.nextPass (v : Node) (id lo hi : Nat) : Option Node :=
  let n := match v.ctx.find? fun p => p.id == id with
    | some p => p.n + 1
    | none => 1
  if 16 ≤ n then none
  else some { pc := lo, raw := false, ctx := (v.ctx.filter fun p => Nat.blt hi p.hi) ++ [{ id := id, lo := lo, hi := hi, n := n, count := none }] }

/-- The d that SETSHAPE writes at a place, where it is the same for every TW of a team (R279, R282). -/
def staticGrant (p : Bool × Nat) (k : ReqKind) (a : W64) (pol : Pol) : Option W64 :=
  let g (tw : Nat) : Option W64 :=
    let w : GrantAt := { cp := p.2, clt := p.1, tw := tw, g := 1 }
    (grant w k (reqDims k a) pol).map fun d => (shapeOf w k pol (reqDims k a) d).granted
  if g 32 = g 1024 then g 32 else none

/-- SETSHAPE where R282 folds it: emitted, its d static in a placed residual, but for a matrix SETSHAPE in code that holds a GANG. None where
it does not fold. -/
def DecIn.foldShape (x : DecIn) (v : Node) (h : Header) (endw i : Nat) (ws : List W32) (k : ReqKind) (d : Reg) (a : Src) (pol : Pol)
    (sh : Fin 4) (r : Run) : Option Run :=
  if x.holds 1 0x12 || !isScaDst d || !r.env.isStatic x.place a || (k != .vec && sh == 0) then none
  else
    match x.place with
    | none => some { x.emit v h endw i ws (some (.setshape k d a pol sh)) r with want := true }
    | some p =>
      match staticGrant p k (r.env.value x.place a) pol with
      | none => none
      | some y =>
        let r1 := x.emit v h endw i ws (some (.setshape k d a pol sh)) r
        some { r1 with
          env := if k == .mat && x.holds 2 0x13 then r1.env else r1.env.set (some d) (some y)
          nfold := r1.nfold + 1 }

/-- LOOP unrolled (R282): a static count within the limit, and a body that it can run. None where it does not fold. -/
def DecIn.foldLoop (x : DecIn) (keep : List Nat) (v : Node) (endw i : Nat) (a : Src) (len : BitVec 7) (stepw : W32) (r : Run) : Option Run :=
  let c := (r.env.value x.place a).toNat % 2 ^ 32
  let p : Pass := { id := i, lo := endw, hi := endw + len.toNat, n := 0, count := some c }
  let body := (x.code.drop endw).take len.toNat
  if !plainScalar a || !r.env.isStatic x.place a || len == 0 || !bodyOk len.toNat stepw body || Nat.blt 16 c || keep.contains i || !x.renamesOk p c then none
  else
    let t : Node := if c = 0 then v.to (endw + len.toNat) else { pc := endw, raw := false, ctx := v.ctx ++ [p] }
    some { r with nfold := r.nfold + 1, next := some (.fall t) }

/-- BRC resolved (R282). None where it does not fold. -/
def DecIn.foldBrc (x : DecIn) (keep : List Nat) (v : Node) (unroll : Bool) (endw i : Nat) (c : Cond) (off : BitVec 11) (r : Run) : Option Run :=
  match r.env.nib with
  | none => none
  | some n =>
    if !r.env.fixed then none
    else if !condTest c n then some { r with nfold := r.nfold + 1 }
    else if !r.env.live || !x.targetOk v off then none
    else
      let lo := (v.target off).toNat
      if unroll && Nat.ble lo v.pc then
        if keep.contains i then none
        else
          match v.nextPass i lo endw with
          | some t => some { r with nfold := r.nfold + 1, next := some (.go i t) }
          | none => some { r with excess := some i, next := some .stop }
      else some { r with nfold := r.nfold + 1, next := some (.go i (v.to lo)) }

/-- The first rows of R282: evaluated and removed, or, with codes, emitted again. None where the instruction does not fold. -/
def DecIn.foldInt (x : DecIn) (v : Node) (h : Header) (endw i : Nat) (ws : List W32) (ins : Instr) (r : Run) : Option Run := do
  let f ← foldable ins
  let d := dstOfInstr ins
  if (match d with
      | some q => isScaDst q
      | none => true) && (f.srcs.all fun s => r.env.isStatic x.place s) && (!f.nib || r.env.nib.isSome) then
    let y ← evalFold x.place r.env f d
    if writesCodes ins then
      let r1 := x.emit v h endw i ws (some ins) r
      some { r1 with env := { r1.env.set d (some y.1) with nib := some y.2 }, nfold := r1.nfold + 1 }
    else
      some (match d with
        | some q => r.folded i q y.1
        | none => r)
  else none

/-- An instruction folded, by R282's table. None where it does not fold. -/
def DecIn.fold (x : DecIn) (keep : List Nat) (v : Node) (h : Header) (endw i : Nat) (ws : List W32) (ins : Instr) (r : Run) : Option Run :=
  match ins with
  | .nop => some { r with nfold := r.nfold + 1 }
  | .ldf d k => if isScaDst d then (x.frameWord k.toNat).map fun y => r.folded i d y else none
  | .jmp off => if x.targetOk v off then some { r with nfold := r.nfold + 1, next := some (.go i (v.to (v.target off).toNat)) } else none
  | .brc c off => x.foldBrc keep v (h.bt == 2) endw i c off r
  | .loop a len stepw => x.foldLoop keep v endw i a len stepw r
  | .setshape k d a p sh => x.foldShape v h endw i ws k d a p sh r
  | .rdcurve d =>
    if x.holds 1 0x12 || !isScaDst d then none
    else
      match x.place with
      | none => some { x.emit v h endw i ws (some ins) r with want := true }
      | some p => some (r.folded i d (curveRecord {
          ag := .none, core := 0, die := 0, ctx := 0, gid := 0, launch := 0, region := 0, frame := 0, clt := p.1, cp := p.2
          pw := Config.pw p.2 p.1, tix := 0, gix := 0, ctl := false, free := 0 }))
  | j => x.foldInt v h endw i ws j r

/-- The limits of R284 as a clause is read: `full` says that one is met at a word of it, and `passes` have been unrolled. -/
structure Lim where
  full   : Run → Nat → Bool
  passes : Nat

/-- No limit. -/
def Lim.none : Lim := { full := fun _ _ => false, passes := 0 }

/-- How many passes a transfer adds to those unrolled: all those of a LOOP at its first, and one for each resolved backward BRC, with the
first pass at the first. -/
def Next.passes (n : Next) : Nat :=
  let of (v : Node) : Nat := match v.ctx.getLast? with
    | some p => if v.pc = p.lo ∧ v.raw = false then (match p.count with
        | some c => if p.n = 0 then c else 0
        | none => if p.n = 1 then 2 else 1) else 0
    | none => 0
  match n with
  | .fall v | .go _ v => of v
  | .jump _ | .both _ _ | .call _ _ | .loop _ _ _ | .ret | .pop | .out | .stop => 0

/-- The passes that a clause as it has been read adds. -/
def Run.passes (r : Run) : Nat :=
  match r.next with
  | some n => n.passes
  | none => 0

/-- One instruction of a clause read: folded up to the word at which a limit is met (R284). -/
def DecIn.readInstr (x : DecIn) (keep : List Nat) (v : Node) (h : Header) (mark : Bool) (full : Lim) (endw : Nat) (r : Run)
    (e : Nat × List W32) : Run :=
  let i := v.pc + 1 + e.1
  let ins := match decode e.2 with
    | .ok j => some j
    | .error _ => none
  let r0 : Run := { r with lim := r.lim || (mark && full.full r e.1) }
  match (if mark && !r0.lim then ins.bind fun j => x.fold keep v h endw i e.2 j r0 else none) with
  | some r1 => if Nat.blt 256 (full.passes + r1.passes) then x.emit v h endw i e.2 ins { r0 with lim := true } else r1
  | none => x.emit v h endw i e.2 ins r0

/-- The value steps at the end of a pass of a LOOP (R139, R282): folded, or emitted as an ADDI. -/
def DecIn.valueSteps (x : DecIn) (p : Pass) (r : Run) : Run :=
  let q := x.loopAt p
  let places := bodyPlaces q.len 0 q.buf
  (stepEntries q.stepw).foldl (fun (r : Run) n =>
    if n.2.1 = 3 then
      let k := Fin.ofNat 24 (fieldA ((q.buf.getD (places.getD n.1 0) 0).toNat) - 96)
      match alook k.val r.env.regs with
      | some y => r.folded p.id (.s k) (y + BitVec.ofInt 64 n.2.2)
      | none => r.put {
          ws := (encode (.addi (.s k) (.reg (.s k)) (BitVec.ofInt 11 n.2.2))).map fun w => (w, p.id), long := none, fix := none }
    else r) r

/-- The end of a clause with no transfer: the next word, or the end of a pass of a LOOP. -/
def DecIn.fallOn (x : DecIn) (v : Node) (endw : Nat) (r : Run) : Run :=
  match v.loopPass with
  | some p =>
    if endw = p.hi then
      let r1 := x.valueSteps p r
      let c := p.count.getD 0
      { r1 with next := some (.fall (if p.n + 1 < c then { pc := p.lo, raw := v.raw, ctx := v.ctx.dropLast ++ [{ p with n := p.n + 1 }] } else v.to endw)) }
    else { r with next := some (.fall (v.to endw)) }
  | none => { r with next := some (.fall (v.to endw)) }

/-- A clause that the Decanter may fold: marked static or unroll-head, with no breakpoint in it (R32, R282, R288). -/
def DecIn.marked (x : DecIn) (v : Node) (h : Header) : Bool :=
  !v.raw && (h.bt == 1 || h.bt == 2) && !x.brk.any fun b => Nat.ble v.pc b && Nat.ble b (v.pc + h.len.toNat + 1)

/-- A clause read from what is static at it and what waits to be materialised, folding up to a limit. -/
def DecIn.readClause (x : DecIn) (keep : List Nat) (full : Lim) (v : Node) (env : DEnv) (pend : List (Nat × (W64 × Nat))) : Run :=
  let r0 : Run := { env := env, pend := pend, items := [], rank := 0, nfold := 0, want := false, excess := none, lim := false, next := none }
  match (if x.headAt v.pc then headerOf (x.word v.pc) else none) with
  | none => { r0 with next := some .stop }
  | some h =>
    let n := h.len.toNat + 1
    if clauseBad h ((x.code.drop (v.pc + 1)).take n) then { r0 with next := some .stop }
    else
      let endw := v.pc + 1 + n
      let r := (x.nodeWords v n).foldl (x.readInstr keep v h (x.marked v h) full endw) r0
      match r.next with
      | some _ => r
      | none => x.fallOn v endw r

/-! ## The analysis (R281, R284) -/

/-- The nodes that follow a clause, with what holds at them. -/
def Run.succs (r : Run) : List (Node × DEnv) :=
  let e := r.env
  let bare : DEnv := { DEnv.bare with calls := e.calls, toks := e.toks }
  match r.next with
  | some (.fall v) | some (.go _ v) | some (.jump v) | some (.loop _ _ v) => [(v, e)]
  | some (.both t f) => [(t, e), (f, e)]
  | some (.call t f) => [(t, { e with calls := joinNodes e.calls [f] })]
  | some .ret => e.calls.map fun v => (v, e)
  | some .pop => e.toks.map fun v => (v, e)
  | some .out => (joinNodes e.calls e.toks).map fun v => (v, bare)
  | some .stop | none => []

/-- The state of the analysis: what holds at each node reached, the nodes to read again, the passes analysed, the nodes past a bound on
them, and a loop past its own limit. -/
structure An where
  tab   : List (Node × DEnv)
  work  : List Node
  total : Nat
  cut   : List Node
  excess : Option Nat

/-- What is known of a node. -/
def nodeEnv (tab : List (Node × DEnv)) (v : Node) : Option DEnv := (tab.find? fun e => e.1 == v).map fun e => e.2

/-- A node that begins a pass of an unrolled loop: how many passes it adds to those analysed. -/
def Node.passes (v : Node) : Nat :=
  match v.ctx.getLast? with
  | some p => if v.pc = p.lo ∧ v.raw = false then (if p.count.isNone && p.n == 1 then 2 else 1) else 0
  | none => 0

/-- A node with the limit on passes applied. -/
def cutNode (cut : List Node) (v : Node) : Node := if cut.contains v then v.asRaw else v

/-- One way into a node taken in. -/
def An.reach (a : An) (e : Node × DEnv) : An :=
  let v0 := cutNode a.cut e.1
  let isNew := (nodeEnv a.tab v0).isNone
  let past := isNew && Nat.ble 1 v0.passes && Nat.blt 4096 (a.total + v0.passes)
  let v := if past then v0.asRaw else v0
  let a1 : An := { a with cut := if past then v0 :: a.cut else a.cut, total := if isNew && !past then a.total + v0.passes else a.total }
  match nodeEnv a1.tab v with
  | none => { a1 with tab := (v, e.2) :: a1.tab, work := v :: a1.work }
  | some o =>
    let m := o.meet e.2
    if m = o then a1
    else { a1 with tab := a1.tab.map fun p => if p.1 = v then (v, m) else p, work := if a1.work.contains v then a1.work else v :: a1.work }

/-- The analysis run until nothing changes. -/
def DecIn.analyse (x : DecIn) (keep : List Nat) : Nat → An → Option An
  | 0, _ => none
  | fuel + 1, a =>
    match a.work with
    | [] => some a
    | v :: r =>
      let run := x.readClause keep Lim.none v ((nodeEnv a.tab v).getD DEnv.bare) []
      match run.excess with
      | some k => some { a with excess := some k }
      | none => x.analyse keep fuel (run.succs.foldl An.reach { a with work := r })

/-- The analysis with every loop that passes the limit of 16 emitted whole (R284). -/
def DecIn.analyseAll (x : DecIn) : Nat → List Nat → Option (List Nat × An)
  | 0, _ => none
  | fuel + 1, keep =>
    let v : Node := { pc := x.entry, ctx := [], raw := false }
    match x.analyse keep 1000000 { tab := [(v, DEnv.entry)], work := [v], total := 0, cut := [], excess := none } with
    | none => none
    | some a =>
      match a.excess with
      | some k => x.analyseAll fuel (k :: keep)
      | none => some (keep, a)

/-! ## The residual assembled (R283, R284, R287, R370) -/

/-- A way into a node that is to be laid out: the registers and the wait that the path carries, and the header of the clause that left
them. -/
structure Edge where
  dest : Node
  pend : List (Nat × (W64 × Nat))
  wait : BitVec 12
  hdr  : Nat

/-- The residual so far: its words and their map, newest first; where nodes stand; the branches to set; the targets still to be laid out;
the clauses folded, instructions evaluated and passes unrolled; the words at which the residual is left; the loop states of its words; and
whether a limit is met. -/
structure Em where
  out    : List (W32 × Nat)
  n      : Nat
  labels : List (Node × Nat)
  fixes  : List (Nat × Nat × Node)
  queue  : List Node
  folded : List Nat
  nfold  : Nat
  exits  : List Nat
  passes : Nat
  loops  : List (Nat × LoopSt)
  stop   : Bool

/-- Where a node stands. -/
def Em.label (m : Em) (v : Node) : Option Nat := (m.labels.find? fun e => e.1 == v).map fun e => e.2

/-- A clause of given items: its header, mapped to a word, and their words. -/
def Em.clause (m : Em) (h : Header) (hmap : Nat) (items : List DecItem) : Em :=
  let len := items.foldl (fun n (i : DecItem) => n + i.ws.length) 0
  let hw := (encode (.clauseStart { h with len := BitVec.ofNat 4 (len - 1), bt := 0 })).headD 0
  let start := m.n
  items.foldl (fun (m : Em) (i : DecItem) =>
    { m with
      out := i.ws.foldl (fun (o : List (W32 × Nat)) w => w :: o) m.out
      n := m.n + i.ws.length
      fixes := match i.fix with
        | some v => (m.n, start, v) :: m.fixes
        | none => m.fixes }) { m with out := (hw, hmap) :: m.out, n := m.n + 1 }

/-- Items divided at their boundaries, from the first on, into clauses of at most 16 words. -/
def partsFrom : List DecItem → List DecItem → Nat → List (List DecItem)
  | [], acc, _ => if acc.isEmpty then [] else [acc.reverse]
  | i :: r, acc, n =>
    if n + i.ws.length ≤ 16 then partsFrom r (i :: acc) (n + i.ws.length) else acc.reverse :: partsFrom r [i] i.ws.length

/-- The flags of the long-latency instructions of a part, in order. -/
def longFlags (p : List DecItem) : List Nat := p.filterMap fun i => i.long

/-- A clause copy: one clause with the header's own flags, or parts, each with the flags of its own instructions; only the first waits. -/
def Em.copy (m : Em) (h : Header) (wait : BitVec 12) (hmap : Nat) (items : List DecItem) : Em :=
  match partsFrom items [] 0 with
  | [p] => m.clause { h with wait := wait } hmap p
  | ps =>
    (ps.foldl (fun (a : Em × BitVec 12) p =>
      let f := longFlags p
      (a.1.clause { h with wait := a.2, setA := BitVec.ofNat 4 (f.getD 0 15), setB := BitVec.ofNat 4 (f.getD 1 15) } hmap p, 0)) (m, wait)).1

/-- A header with no flags and no hints, for a clause that the Decanter places. -/
def plainHeader : Header := { wait := 0, setA := 15, setB := 15, len := 0, bt := 0, hint := 0, rsv := 0 }

/-- The NOP of a clause placed for a joined wait alone. -/
def nopItem (k : Nat) : DecItem := { ws := (encode .nop).map fun w => (w, k), long := none, fix := none }

/-- A clause of its own for what an edge carries, with more items after it. -/
def Em.own (m : Em) (e : Edge) (more : List DecItem) : Em :=
  let items := matItems e.pend ++ more
  m.copy plainHeader e.wait e.hdr (if items.isEmpty then [nopItem e.hdr] else items)

/-- A JMP to a node, mapped to a word. -/
def jmpItem (v : Node) (k : Nat) : DecItem := { ws := (encode (.jmp 0)).map fun w => (w, k), long := none, fix := some v }

/-- A word laid out as it stands; one outside the code section is a word at which the residual is left. -/
def DecIn.layWord (x : DecIn) (m : Em) (k : Nat) (w : W32) : Em :=
  { m with out := (w, k) :: m.out, n := m.n + 1, exits := if x.code.length ≤ k then m.n :: m.exits else m.exits }

/-- The headers among the words of a LOOP's body, by their places. -/
def bodyHeads : Nat → Nat → List W32 → List Nat
  | 0, _, _ => []
  | _, _, [] => []
  | fuel + 1, at_, w :: r =>
    if isHeader w then at_ :: bodyHeads fuel (at_ + 1) r else bodyHeads fuel (at_ + wordSpan w) (r.drop (wordSpan w - 1))

/-- The body of a LOOP laid out as it stands; its headers lose their marks (R283). -/
def DecIn.verbatim (x : DecIn) (m : Em) (lo n : Nat) : Em :=
  let heads := bodyHeads n 0 ((x.code.drop lo).take n)
  (List.range n).foldl (fun (m : Em) k =>
    let w := x.word (lo + k)
    x.layWord m (lo + k) (if heads.contains k then BitVec.ofNat 32 (w.toNat - bits w.toNat 5 4 * 16) else w)) m

/-- A clause that traps at its header, or a word that is no header, laid out as it stands. A clause that passes the end of the code section
is run there: the residual is left at its header. -/
def DecIn.layStop (x : DecIn) (m : Em) (v : Node) : Em :=
  let n := if x.headAt v.pc then bits (x.word v.pc).toNat 9 6 + 2 else 1
  if x.code.length < v.pc + n then { m with out := (x.word v.pc, v.pc) :: m.out, n := m.n + 1, exits := m.n :: m.exits }
  else (List.range n).foldl (fun (m : Em) k => x.layWord m (v.pc + k) (x.word (v.pc + k))) m

/-- How many words some items hold. -/
def itemWords (l : List DecItem) : Nat := l.foldl (fun n (i : DecItem) => n + i.ws.length) 0

/-- What the assembly works from: the loops kept whole, what holds at each node, the nodes past the limit, every way into a node, and of each
clause as it stands its words and the clauses that follow it. -/
structure Plan where
  keep  : List Nat
  tab   : List (Node × DEnv)
  cut   : List Node
  preds : List Node
  raws  : List (Nat × (Nat × List Nat))

/-- A clause as it stands, by its header's word: its words with a LOOP's body, and the clauses to which control can go from it. -/
def DecIn.rawClause (x : DecIn) (pc : Nat) : Nat × List Nat :=
  let r := x.readClause [] Lim.none { pc := pc, ctx := [], raw := true } DEnv.bare []
  let more : Nat × List Node := match r.next with
    | some (.fall v) | some (.go _ v) | some (.jump v) => (0, [v])
    | some (.both t f) | some (.call t f) => (0, [t, f])
    | some (.loop _ n v) => (n, [v])
    | some .ret | some .pop | some .out | some .stop | none => (0, [])
  (itemWords r.items + 1 + more.1, (more.2 ++ r.items.filterMap fun (i : DecItem) => i.fix).map fun v => v.pc)

/-- The clauses that can be reached from some, with their words and what follows them. -/
def DecIn.reachRaw (x : DecIn) : Nat → List Nat → List (Nat × (Nat × List Nat)) → List (Nat × (Nat × List Nat))
  | 0, _, acc => acc
  | _, [], acc => acc
  | fuel + 1, pc :: r, acc =>
    if (alook pc acc).isSome || !x.headAt pc then x.reachRaw fuel r acc
    else let c := x.rawClause pc
      x.reachRaw fuel (c.2 ++ r) ((pc, c) :: acc)

/-- The clauses of a plan that can be reached from some, but for those that stand already. -/
def Plan.reach (p : Plan) (skip : Nat → Bool) : Nat → List Nat → List Nat → List Nat
  | 0, _, acc => acc
  | _, [], acc => acc
  | fuel + 1, pc :: r, acc =>
    if acc.contains pc || skip pc then p.reach skip fuel r acc
    else match alook pc p.raws with
      | some c => p.reach skip fuel (c.2 ++ r) (pc :: acc)
      | none => p.reach skip fuel r acc

/-- A node as it is laid out: past a limit as it stands. -/
def Plan.node (p : Plan) (m : Em) (v : Node) : Node := if m.stop && (m.label v).isNone then v.asRaw else cutNode p.cut v

/-- The words of an unfolded copy of what is still to be reached past a node: the clauses that can be reached from it and from the targets
still to be laid out, with the passes that are left of an unrolled LOOP. -/
def DecIn.unfolded (x : DecIn) (p : Plan) (m : Em) (v : Node) : Nat :=
  let skip (pc : Nat) : Bool := (m.label { pc := pc, ctx := [], raw := true }).isSome
  let next := (match alook v.pc p.raws with
    | some c => c.2
    | none => []) ++ (m.queue.filter fun w => (m.label w).isNone).map fun w => w.pc
  sumOf (fun pc => match alook pc p.raws with
    | some c => c.1
    | none => 1) (p.reach skip (16 * p.raws.length + next.length) next []) +
  (match v.loopPass with
    | some q => (q.count.getD 0 - q.n - 1) * (q.hi - q.lo + (stepEntries (x.word (q.id + 1))).length)
    | none => 0)

/-- The limits of R284 at the words of a clause: 65,536 instructions, and a residual that, with an unfolded copy of the code still to be
reached, would pass 4 × the code section or, with its back-map, 64 KiB. -/
def DecIn.limits (x : DecIn) (p : Plan) (m : Em) (v : Node) : Lim :=
  let n := match (if x.headAt v.pc then headerOf (x.word v.pc) else none) with
    | some h => h.len.toNat + 1
    | none => 0
  let rest := x.unfolded p m v
  { passes := m.passes
    full := fun r k => Nat.ble 65536 (m.nfold + r.nfold) ||
      Nat.blt (min (4 * x.code.length) 8192) (m.n + 1 + itemWords (r.items ++ matItems r.pend) + (n - k) + rest) }

/-- The words laid out since an earlier residual belong to a pass of a LOOP where the node does. -/
def DecIn.inPass (x : DecIn) (v : Node) (m0 m : Em) : Em :=
  match v.loopPass with
  | some q => { m with loops := ((List.range (m.n - m0.n)).map fun k => (m0.n + k, x.loopAt q)) ++ m.loops }
  | none => m

/-- A clause that has been read laid out, and the way on from it. -/
def DecIn.lay (x : DecIn) (p : Plan) (m : Em) (v : Node) (h : Header) (e : Edge) (r : Run) : Em × Option Edge :=
  let jumped := match r.next with
    | some (.go _ t) => (m.label (p.node m t)).isSome
    | _ => false
  let r1 : Run := match r.next with
    | some (.go i t) => if jumped then r.put (jmpItem t i) else r
    | _ => r
  let items := r1.items
  let wait := e.wait ||| h.wait
  let m1 := if items.isEmpty then m else x.inPass v m (m.copy h wait v.pc items)
  let m2 : Em := { m1 with
    queue := m1.queue ++ items.filterMap fun (i : DecItem) => i.fix
    folded := if 0 < r.nfold ∧ !m1.folded.contains v.pc then v.pc :: m1.folded else m1.folded
    nfold := m1.nfold + r.nfold
    passes := m1.passes + r.passes
    stop := m1.stop || r.lim }
  let on (w : Node) : Option Edge :=
    some { dest := w, pend := r1.pend, wait := if items.isEmpty then wait else 0, hdr := v.pc }
  match r.next with
  | some (.fall w) => (m2, on w)
  | some (.go _ w) => (m2, if jumped then none else on w)
  | some (.both _ f) | some (.call _ f) => (m2, on f)
  | some (.loop lo n w) => (x.verbatim m2 lo n, on w)
  | some (.jump _) | some .ret | some .pop | some .out | some .stop | none => (m2, none)

/-- One edge laid out: a JMP to a node that stands already, or the node's clause (R283, R284). A JMP where the edge carries nothing, which
follows a CALL or a BRC, stands for the word that it goes to, which its token names (R127, R130); another is of the clause dropped (R287). -/
def DecIn.place1 (x : DecIn) (p : Plan) (m : Em) (e : Edge) : Em × Option Edge :=
  let v := p.node m e.dest
  let empty : Run := { env := DEnv.bare, pend := e.pend, items := [], rank := 0, nfold := 0, want := false, excess := none, lim := false, next := none }
  let lim := x.limits p m v
  match m.label v with
  | some _ => (m.own (if e.pend.isEmpty && e.wait == 0 then { e with hdr := v.pc } else e) [jmpItem v v.pc], none)
  | none =>
    if !v.raw && lim.full empty 0 then ({ m with stop := true }, some e)
    else
      let alone := !v.raw && Nat.ble ((p.preds.filter fun w => w == v).length) 1
      let carries := !e.pend.isEmpty || e.wait != 0
      let m1 := if carries && !alone then m.own e [] else m
      let e1 : Edge := if carries && !alone then { e with pend := [], wait := 0 } else e
      let env := if v.raw then DEnv.bare else (nodeEnv p.tab v).getD DEnv.bare
      let r := x.readClause p.keep (x.limits p m1 v) v env e1.pend
      match (if x.headAt v.pc then headerOf (x.word v.pc) else none), r.next with
      | some h, some nx =>
        if nx = .stop then
          let m2 := if !e1.pend.isEmpty || e1.wait != 0 then m1.own e1 [] else m1
          (x.inPass v m2 (x.layStop { m2 with labels := (v, m2.n) :: m2.labels } v), none)
        else if !e1.pend.isEmpty && Nat.blt 16 (itemWords r.items) then
          let m2 := m1.own e1 []
          let e2 : Edge := { e1 with pend := [], wait := 0 }
          x.lay p { m2 with labels := (v, m2.n) :: m2.labels } v h e2 (x.readClause p.keep (x.limits p m2 v) v env [])
        else x.lay p { m1 with labels := (v, m1.n) :: m1.labels } v h e1 r
      | _, _ =>
        let m2 := if !e1.pend.isEmpty || e1.wait != 0 then m1.own e1 [] else m1
        (x.inPass v m2 (x.layStop { m2 with labels := (v, m2.n) :: m2.labels } v), none)

/-- Edges laid out until no target is left. -/
def DecIn.layAll (x : DecIn) (p : Plan) : Nat → Em → Option Edge → Option Em
  | 0, _, _ => none
  | fuel + 1, m, some e => let r := x.place1 p m e
    x.layAll p fuel r.1 r.2
  | fuel + 1, m, none =>
    match m.queue with
    | [] => some m
    | v :: q =>
      let m1 : Em := { m with queue := q }
      if (m1.label (p.node m1 v)).isSome then x.layAll p fuel m1 none
      else x.layAll p fuel m1 (some { dest := v, pend := [], wait := 0, hdr := v.pc })

/-- A branch set to its offset from its clause's header; none where it is out of reach (R31, R284). -/
def Em.patch (m : Em) (p : Plan) (ws : List W32) (f : Nat × Nat × Node) : Option (List W32) := do
  let at_ ← m.label (p.node m f.2.2)
  let k : Int := (at_ : Int) - (f.2.1 : Int)
  if -1024 ≤ k ∧ k ≤ 1023 then
    let w := (ws.getD f.1 0).toNat
    some (ws.set f.1 (BitVec.ofNat 32 (w - w % 2048 + (BitVec.ofInt 11 k).toNat)))
  else none

/-- The residual (R279): none where the Decanter gives up and the group runs the original code (R284). -/
def decant (x : DecIn) : Option DecOut := do
  let r ← x.analyseAll (x.code.length + 1) []
  let runs := r.2.tab.map fun (e : Node × DEnv) => (e.1, x.readClause r.1 Lim.none e.1 e.2 [])
  if runs.any fun e => e.2.want then
    some {
      words := [], back := [], folded := (runs.filter fun e => e.2.want || Nat.blt 0 e.2.nfold).map fun e => e.1.pc, exits := [], loops := []
      placed := true }
  else
    let entry : Node := { pc := x.entry, ctx := [], raw := false }
    let p : Plan := {
      keep := r.1, tab := r.2.tab, cut := r.2.cut, raws := x.reachRaw (4 * x.code.length + 4) [x.entry] []
      preds := entry :: runs.flatMap fun e => e.2.succs.map fun s => s.1 }
    let m ← x.layAll p 200000 {
        out := [], n := 0, labels := [], fixes := [], queue := [], folded := [], nfold := 0, exits := [], passes := 0, loops := [], stop := false }
      (some { dest := entry, pend := [], wait := 0, hdr := x.entry })
    let ws ← m.fixes.foldlM (m.patch p) (m.out.reverse.map fun w => w.1)
    if 8192 < m.n then none
    else some {
      words := ws, back := m.out.reverse.map fun w => w.2, folded := m.folded, exits := m.exits, loops := m.loops, placed := x.place.isSome }

end Sys2Proof.Machine
end

