-- ==== Sys2Proof/Machine/Launch.lean ====
section
/-!
DEFINITION. Dispatch (R118, R261, R309), the decant cache (R279, R280, R285, R286), the release of a group (R114, R118), and the
balancer (R160 to R162, R260).
-/
namespace Sys2Proof.Machine

/-! ## Room on a core (R118, R254, R309, R63) -/

/-- The groups in a bank of a core. -/
def State.groupsAt (s : State) (core b : Nat) : List (Nat × Group) := s.groups.filter fun e => e.2.place == .bank core b

/-- The team slots that a bank's teams hold. -/
def State.slotsUsed (s : State) (core b : Nat) : List Nat :=
  s.teams.filterMap fun e => match alook e.2.gid s.groups with
    | some g => if g.place = .bank core b then some e.2.slot else none
    | none => none

/-- What a group reserves. -/
structure Need4 where
  teams : Nat
  foot  : Nat
  l0    : Nat
  l1    : Nat
  nb    : Nat

/-- The reservations of a record's group. -/
def Task.needs (k : Task) : Need4 := { teams := k.teams, foot := k.foot, l0 := k.l0Bytes, l1 := k.l1Bytes, nb := k.nb }

/-- The active bank of a core may take a group of a context: the bank is that context's, or EMPTY while the other bank does not hold the
context (R306). No swap is due (R386). -/
def State.bankOpen (s : State) (core ctx : Nat) : Bool :=
  let x := s.core core
  x.swapDue.isNone && (match x.active.st with
    | .active => x.active.ctx == some ctx
    | .empty => (x.bank (1 - x.act)).ctx != some ctx
    | .ready | .spilling | .loading => false)

/-- The cellar bytes that a group's image takes (R309). -/
def Need4.cellar (n : Need4) : Nat := n.foot + n.l0 + n.l1 + 16384

/-- An image of the group fits the cellar area of its region beside those of the groups that share the area (R309). -/
def State.cellarFits (s : State) (ctx : Nat) (r : Rcb) (n : Need4) : Bool :=
  let used := sumOf (fun (e : Nat × Group) =>
    if e.2.ctx == ctx && (match s.inForce ctx e.2.region with
        | some q => q.celBase == r.celBase
        | none => false) then e.2.foot + e.2.l0 + e.2.l1 + 16384 else 0) s.groups
  Nat.ble (used + n.cellar) r.celSize

/-- The active bank of a core has room for a group, within the budgets of its region (R118, R254). -/
def State.hasRoom (s : State) (core ctx region : Nat) (r : Rcb) (n : Need4) : Bool :=
  let x := s.core core
  let gs := s.groupsAt core x.act
  s.bankOpen core ctx && (s.curveTeams core).isEmpty &&
  Nat.blt gs.length Config.groupsPerBank &&
  Nat.ble ((s.slotsUsed core x.act).length + n.teams) Config.slotsPerBank &&
  Nat.ble (sumOf (fun e => e.2.foot) gs + n.foot) Config.regFileBytes &&
  Nat.ble (sumOf (fun e => e.2.l0) gs + n.l0) Config.l0Bytes &&
  Nat.ble (sumOf (fun e => e.2.l1) gs + n.l1) Config.l1Bytes &&
  Nat.ble (s.entriesHeld core + n.nb) Config.barEntries &&
  s.coreFits ctx region core && s.regBytesFit ctx region n.foot && s.scratchFits ctx region (n.l0 + n.l1) && s.barsFit ctx region n.nb &&
  s.cellarFits ctx r n

/-- The point to which an idle core moves: the preferred one, or the admissible one nearest to it, the lower on a tie (R63). -/
def nearestPoint (adm : List Nat) (pref : Nat) : Option Nat :=
  adm.foldl (fun (b : Option Nat) p =>
    let d (x : Nat) : Nat := (x - pref) + (pref - x)
    match b with
    | none => some p
    | some q => if d p < d q then some p else some q) none

/-- A core that holds no group in its active bank. -/
def State.idleCore (s : State) (core : Nat) : Bool := (s.groupsAt core (s.core core).act).isEmpty

/-- The points of a record on the die of a core. -/
def State.pointsOn (s : State) (core : Nat) (k : Task) (r : Rcb) : List Nat :=
  admissible k.cpLo k.cpHi r.cpLo r.cpHi (s.classT core)

/-- The move of an idle core that the first instances of a CORESIDENT launch have begun: the core takes further instances of the launch, which
is carved at once, at the move's point (R225, R261). -/
def State.gathering (s : State) (core launch : Nat) : Option Move :=
  let x := s.core core
  match x.move with
  | some m =>
    if !m.ramping && x.swap.isNone && x.ckpt.isNone && s.coresident launch &&
        ((s.groupsAt core x.act).all fun e => e.2.launch == launch && e.2.st == .carving) && !s.idleCore core then some m else none
  | none => none

/-- The point at which a core takes a group: its own, the one an idle core moves to (R63), or the one it moves to for the launch already. -/
def State.pointFor (s : State) (core launch : Nat) (k : Task) (r : Rcb) : Option Nat :=
  let adm := s.pointsOn core k r
  let at_ (p : Nat) : Option Nat := if adm.contains p then some p else none
  match s.gathering core launch with
  | some m => at_ m.dest
  | none =>
    if !(s.core core).settled then none
    else if s.idleCore core then (if adm.contains k.cpPref then some k.cpPref else nearestPoint adm k.cpPref)
    else at_ (s.core core).point

/-- A core can carve one instance (R261). -/
def State.canCarve (s : State) (core launch ctx : Nat) (k : Task) (r : Rcb) : Bool :=
  (s.pointFor core launch k r).isSome && s.hasRoom core ctx k.region r k.needs

/-! ## The decant cache (R279, R286) -/

/-- The static bytes of a frame, by their places, as the Decanter reads them after a launch's posting (R280); an error where one cannot be
read. -/
def State.staticBytes (s : State) (die ctx : Nat) (frame : W64) (smask : BitVec 256) (after : List Nat) : Except EngErr (List (Nat × Byte)) :=
  ((List.range 256).filter fun i => bitAt smask.toNat i).mapM fun (i : Nat) => do
    let g ← s.engTarget ctx .program false (frame + BitVec.ofNat 64 i)
    if s.tgtPoisoned g 1 then .error (.code 0x14) else .ok (i, BitVec.ofNat 8 (s.valueBy (decantParty die) after g 1 i))

/-- The reads of those bytes. -/
def State.staticReads (s : State) (ctx : Nat) (frame : W64) (smask : BitVec 256) : List PartyRead :=
  ((List.range 256).filter fun i => bitAt smask.toNat i).filterMap fun i =>
    match s.engTarget ctx .program false (frame + BitVec.ofNat 64 i) with
    | .ok g => some (g, 1, i)
    | .error _ => none

/-- The place of a key: class and point (R286). -/
def placeCode (classT : Bool) (cp : Nat) : Nat := 8 * b2n classT + cp

/-- The key of an entry of an object for a frame. -/
def State.decKey (s : State) (o : ObjRec) (entry : Nat) (bs : List (Nat × Byte)) (place : Nat) : DecKey :=
  { obj := o.digest, entry := entry, smask := o.smask, bytes := bs.map fun b => b.2, dtgen := s.fw.dtgen, svnIdx := o.svnIdx, svn := o.svn
    place := place }

/-- An entry obtained by its key: found, or begun on a miss (R279, R286). -/
def State.obtain (s : State) (die : Nat) (key : DecKey) (code : W64) (frame : W64) (ctx : Nat) : State × Nat :=
  match afind (fun _ e => e.die == die && e.key == key && e.st != .stale) s.decants with
  | some (k, e) => ({ s.dieEvent die 16 1 with decants := aset k { e with used := s.nextId } s.decants }, k)
  | none =>
    let e : DecEntry := {
      die := die, key := key, st := .decanting, placed := false, code := code, words := [], back := [], folded := [], exits := [], loops := []
      used := s.nextId
      frame := frame, ctx := ctx }
    ({ s.dieEvent die 17 1 with decants := aset s.nextId e s.decants, nextId := s.nextId + 1 }, s.nextId)

/-- The point at which a core will run what is carved on it. -/
def CoreSt.destPoint (x : CoreSt) : Nat :=
  match x.move with
  | some m => m.dest
  | none => x.point

/-- An entry that is valid and depends on the place is looked up again with the core's point and class (R279). -/
def State.obtainPlaced (s : State) (core k : Nat) : State × Nat :=
  match alook k s.decants with
  | some e =>
    if e.st = .valid ∧ e.placed = true ∧ e.key.place = 255 then
      s.obtain e.die { e.key with place := placeCode (s.classT core) (s.core core).destPoint } e.code e.frame e.ctx
    else (s, k)
  | none => (s, 0)

/-- The pages with a static byte of a frame mapped read-only for a launch, and their stale translations dropped (R280). -/
def State.mapFrame (s : State) (ctx launch : Nat) (frame : W64) (smask : BitVec 256) : State :=
  let f : RoFrame := { ctx := ctx, launch := launch, frame := frame, smask := smask }
  { s with
    roFrames := if s.roFrames.contains f || smask == 0 then s.roFrames else f :: s.roFrames
    tlb := s.tlb.filter fun e => !(e.ctx == ctx && Nat.blt e.page (frame.toNat + 256) && Nat.blt frame.toNat (e.page + e.size)) }

/-- The residuals that a carved group needs, one for each role; 0 stands for the original code (R279). -/
def State.findResiduals (s : State) (gid core : Nat) (o : ObjRec) (k : Task) (bs : Option (List (Nat × Byte))) : State :=
  match bs with
  | none => s
  | some bs =>
    if Nat.blt 65536 o.size then s
    else
      let r := k.roles.foldl (fun (a : State × List Nat) q =>
        let x := a.1.obtain (dieOf core) (a.1.decKey o q.entry bs 255) k.code k.frame o.ctx
        let y := x.1.obtainPlaced core x.2
        (y.1, a.2 ++ [y.2])) (s, [])
      match alook gid r.1.groups with
      | some g => { r.1 with groups := aset gid { g with residuals := r.2 } r.1.groups }
      | none => r.1

/-! ## Carving (R118) -/

/-- A team of a carved group (R114): everything that is fixed at its release but the point. -/
def carvedTeam (gid tix slot : Nat) (r : Role) (frame : W64) (hb : List Nat) : Team :=
  { ctl := false, level := .program, gid := gid, tix := tix, slot := slot, tw := r.tw, allot := r.al, st := .carved, wait := .none
    since := 0, pc := .code 0, clause := ClauseCtx.empty, vregs := [], sregs := sset [] 0 frame, cc := [], flags := [], fpflags := 0
    sh0 := Shape.none, sh1 := Shape.none, sh2 := Shape.none, sh3 := Shape.none, winBase := 0, active := lowMask r.tw, exited := 0, fault := 0
    stack := [], trapTok := Token.empty, loop := none, gang := 0, pending := none, pendOvf := false, trap := none, fromDrain := false
    errs := [], replay := none, bpSkip := false, arrived := none, hint := 0, hintAt := 0, hb := hb, own := [], seen := [], latent := []
    fences := [], posts := [], held := [], relAt := 0 }

/-- The roles of a group's teams in order of `tix` (R117). -/
def Task.teamRoles (k : Task) : List Role := k.roles.flatMap fun r => List.replicate r.cnt r

/-- The n lowest numbers below a bound that a list does not hold. -/
def lowestFreeN (used : List Nat) (bound n : Nat) : List Nat := ((List.range bound).filter fun i => !used.contains i).take n

/-- A bank as a dispatch into it leaves it: its own context's, or the new one's from EMPTY (R306). -/
def Bank.enter (b : Bank) (ctx : Nat) : Bank :=
  if b.st = .active ∧ b.ctx = some ctx then b else { Bank.init .active with ctx := some ctx }

/-- One instance of a launch carved on a core: a group in CARVING, its teams CARVED, its reservations made (R118, R119). -/
def State.carve (s : State) (core launch : Nat) (l : Launch) (k : Task) (r : Rcb) (gix copyIdx : Nat) : State :=
  let x := s.core core
  let gid := s.nextId
  let slots := lowestFreeN (s.slotsUsed core x.act) Config.slotsPerBank k.teams
  let roles := k.teamRoles
  let tids := (List.range k.teams).map fun i => gid + 1 + i
  let g : Group := {
    launch := launch, ctx := l.ctx, region := k.region, gix := gix, st := .carving, place := .bank core x.act
    slot := (lowestFree ((s.groupsAt core x.act).map fun e => e.2.slot) 0 Config.groupsPerBank).getD 0
    teams := tids, frame := k.frame, join := k.join, nb := k.nb, bars := [], l0 := k.l0Bytes, l1 := k.l1Bytes, foot := k.foot
    cpLo := k.cpLo, cpHi := k.cpHi, heldLo := r.cpLo, heldHi := r.cpHi, residuals := [], mark := none, commited := false
    partner := none, copyIdx := copyIdx, hb := [] }
  let move := match x.move, s.pointFor core launch k r with
    | none, some p => if p = x.point then none else some { dest := p, notice := x.count, ramping := false }
    | m, _ => m
  let s1 : State := { s with
    groups := aset gid g s.groups
    teams := (List.range k.teams).foldl (fun (m : List (Nat × Team)) i =>
      aset (gid + 1 + i) (carvedTeam gid i (slots.getD i 0) (roles.getD i k.r0) k.frame l.hb) m) s.teams
    nextId := gid + 1 + k.teams
    launches := match alook launch s.launches with
      | some q => aset launch { q with live := q.live + 1 } s.launches
      | none => s.launches }
  s1.setCore core { x.modActive (fun b => b.enter l.ctx) with move := move }

/-- The two copies of a REDUNDANT group made partners (R312). -/
def State.pairUp (s : State) (g0 g1 : Nat) : State :=
  match alook g0 s.groups, alook g1 s.groups with
  | some a, some b => { s with groups := aset g0 { a with partner := some g1 } (aset g1 { b with partner := some g0 } s.groups) }
  | _, _ => s

/-- A list turned so that it begins at an entry that the part chooses. -/
def turned {α : Type} (n : Nat) (l : List α) : List α := if l.isEmpty then l else l.drop (n % l.length) ++ l.take (n % l.length)

/-- The cores on which the second copy may be carved: on another die where one admits it (R312). -/
def State.secondCores (s : State) (core launch ctx : Nat) (k : Task) (r : Rcb) : List Nat :=
  let ok := (List.range Config.nCores).filter fun c => c != core && s.canCarve c launch ctx k r
  let far := ok.filter fun c => dieOf c != dieOf core
  turned (Config.choice s.freeN 0) (if far.isEmpty then ok else far)

/-- An instance carved: once, or twice in a REDUNDANT region (R312). None where it cannot be. -/
def State.carveInstance (s : State) (core launch : Nat) (l : Launch) (k : Task) (r : Rcb) (o : ObjRec) (bs : Option (List (Nat × Byte)))
    (gix : Nat) : Option State :=
  if !s.canCarve core launch l.ctx k r then none
  else
    let g0 := s.nextId
    let s1 := (s.carve core launch l k r gix 0).findResiduals g0 core o k bs
    if !r.red then some s1
    else
      match s1.secondCores core launch l.ctx k r with
      | c :: _ =>
        let g1 := s1.nextId
        some (((s1.carve c launch l k r gix 1).findResiduals g1 c o k bs).pairUp g0 g1)
      | [] => none

/-- Every instance of a CORESIDENT launch carved, on the first core with room for each (R225, R261). -/
def State.carveAll (s : State) (cores : List Nat) (launch : Nat) (l : Launch) (k : Task) (r : Rcb) (o : ObjRec)
    (bs : Option (List (Nat × Byte))) : List Nat → Option State
  | [] => some s
  | i :: rest =>
    match cores.findSome? fun c => s.carveInstance c launch l k r o bs i with
    | some s1 => s1.carveAll cores launch l k r o bs rest
    | none => none

/-! ## The choice of a record (R261) -/

/-- What a head entry is ready for. -/
structure HeadRec where
  ctx    : Nat
  region : Nat
  entry  : QEntry
  launch : Launch
  task   : Task
  rcb    : Rcb

/-- The head entries of a die's queues whose regions are valid. -/
def State.heads (s : State) (die : Nat) : List HeadRec :=
  s.queues.filterMap fun q =>
    if q.die = die then
      match q.entries with
      | e :: _ =>
        match alook e.launch s.launches, s.region q.ctx q.region with
        | some l, some r => some { ctx := q.ctx, region := q.region, entry := e, launch := l, task := Task.parse l.task, rcb := r }
        | _, _ => none
      | [] => none
    else none

/-- The object of a record, where it still runs: LOADED (R274). -/
def State.liveObj (s : State) (h : HeadRec) : Option ObjRec :=
  match s.objAt h.ctx h.task.code with
  | some (_, o) => if o.revoked then none else some o
  | none => none

/-- A head entry popped by a core: the instances carved; none where it is not admissible. The static bytes of a DECANT record
are read after the accesses that its posting released (R280). -/
def State.popHead (s : State) (core : Nat) (h : HeadRec) (bs : Option (List (Nat × Byte))) : Option State :=
  match s.liveObj h with
  | none => some s
  | some o =>
    let s1 := if h.task.decant then s.mapFrame h.ctx h.entry.launch h.task.frame o.smask else s
    if h.task.cores then
      let others := turned (Config.choice s.freeN 1) ((List.range Config.nCores).filter fun c => c != core)
      s1.carveAll (core :: others) h.entry.launch h.launch h.task h.rcb o bs
        ((List.range (h.entry.hi - h.entry.next)).map fun i => h.entry.next + i)
    else s1.carveInstance core h.entry.launch h.launch h.task h.rcb o bs h.entry.next

/-- How many instances a pop of a head takes: all of a CORESIDENT record's, or of one whose object no longer runs (R274). -/
def State.popCount (s : State) (h : HeadRec) : Nat :=
  if h.task.cores || (s.liveObj h).isNone then h.entry.hi - h.entry.next else 1

/-- The static bytes that a head's residuals need: none where the record runs its original code; an error while they cannot be had. -/
def State.headBytes (s : State) (die : Nat) (h : HeadRec) : Except EngErr (Option (List (Nat × Byte))) :=
  match s.liveObj h with
  | none => .ok none
  | some o =>
    if !h.task.decant then .ok none
    else if h.launch.hb.any fun k => s.opOpen k then .error .hold
    else
      match s.staticBytes die h.ctx h.task.frame o.smask h.launch.hb with
      | .ok b => .ok (some b)
      | .error (.code _) => .ok none
      | .error (.page va) =>
        match s.fwFaultAt h.ctx va with
        | .refused _ => .ok none
        | .fresh => .error (.page va)
        | .waiting => .error .hold
      | .error .hold => .error .hold

/-- The static bytes read for a head noted (R237), and their requests sent. -/
def State.readHead (s s0 : State) (die : Nat) (h : HeadRec) : State :=
  match s0.liveObj h with
  | some o => if h.task.decant then
      let l := s0.staticReads h.ctx h.task.frame o.smask
      ({ s with seen := (s0.noteReads (decantParty die) h.launch.hb l).seen } : State).sendReqs (l.map fun r => r.1)
    else s
  | none => s

/-- A head is admissible on a core (R261): its pop would carve it, the frame's faults apart. -/
def State.headOk (s : State) (core : Nat) (h : HeadRec) : Bool :=
  match s.headBytes (dieOf core) h with
  | .ok b => (s.popHead core h b).isSome
  | .error (.page _) => (s.popHead core h none).isSome
  | .error _ => false

/-- The key of a region in the dispatcher's round-robin. -/
def HeadRec.key (h : HeadRec) : Nat := h.ctx * 65536 + h.region

/-- The head to take at a priority: the region after the last taken (R261). -/
def nextRegion (hs : List HeadRec) (last : Nat) : Option HeadRec :=
  let ord := (hs.foldl (fun (m : List (Nat × HeadRec)) h => ains h.key h m) []).map fun e => e.2
  match ord.find? fun h => Nat.blt last (h.key + 1) with
  | some h => some h
  | none => ord.head?

/-- The choice of R261 among the admissible heads: the head, and the counters of the priorities after it. -/
def DieSt.choose (x : DieSt) (hs : List HeadRec) : Option (HeadRec × DieSt) :=
  let at_ (p : Nat) : List HeadRec := hs.filter fun h => h.rcb.prio == p
  let prios := ((List.range 16).filter fun p => !(at_ p).isEmpty).reverse
  let take (p : Nat) (n : List (Nat × W64)) : Option (HeadRec × DieSt) :=
    (nextRegion (at_ p) (sget x.lastR p).toNat).map fun h =>
      (h, { x with prioN := n, lastR := sset x.lastR p (BitVec.ofNat 64 (h.key + 1)) })
  match prios with
  | [] => none
  | [p] => take p (sset x.prioN p (sget x.prioN p + 1))
  | p :: q :: _ =>
    if 64 ≤ (sget x.prioN p).toNat then take q (sset (sset x.prioN p 0) q (sget (sset x.prioN p 0) q + 1))
    else take p (sset x.prioN p (sget x.prioN p + 1))

/-- Instances taken off a run queue's head; an entry with none left is GONE (R260). -/
def State.takeHead (s : State) (die : Nat) (h : HeadRec) (n : Nat) : State :=
  let hit (q : RunQueue) : Bool := q.ctx == h.ctx && q.region == h.region && q.die == die
  { s with
    queues := s.queues.map fun q => if hit q then
        match q.entries with
        | e :: r => { q with entries := if e.hi ≤ e.next + n then r else { e with next := e.next + n } :: r }
        | [] => q
      else q
    launches := match alook h.entry.launch s.launches with
      | some l => aset h.entry.launch { l with left := l.left - n } s.launches
      | none => s.launches }

/-- DISPATCH_POP (R261): the head chosen for a core is carved, or its instances are discarded where its object no longer runs. -/
def execDispatchPop (core : Nat) (s : State) : Host.Outcome State Fault Refusal :=
  runEvent s do
    let die := dieOf core
    if s.fw.frozen || !Nat.blt core Config.nCores then none
    else
      let hs := (s.heads die).filter fun h => s.headOk core h
      let c ← (s.die die).choose hs
      let h := c.1
      match s.headBytes die h with
      | .error (.page va) => some (s.engFault 0 h.ctx h.region core va)
      | .error _ => none
      | .ok b =>
        let s1 ← s.popHead core h b
        let s2 := (s1.readHead s die h).takeHead die h (s.popCount h)
        let y := s2.die die
        let s3 : State := { s2 with dies := aset die { y with prioN := c.2.prioN, lastR := c.2.lastR } s2.dies }
        some (if (s.liveObj h).isNone && !aany (fun _ g => g.launch == h.entry.launch) s3.groups then
          (s3.endLaunch h.entry.launch die).closeContext h.ctx else s3)

/-! ## DECANT_COMPLETE (R279, R284, R286, R288) -/

/-- The groups that need an entry run their original code (R284, R286). -/
def State.dropResidual (s : State) (k : Nat) : State :=
  { s with
    decants := adel k s.decants
    groups := amap (fun _ g => { g with residuals := g.residuals.map fun j => if j = k then 0 else j }) s.groups }

/-- The bytes of residual and back-map that a die's cache holds. -/
def State.cacheUsed (s : State) (die : Nat) : Nat := sumOf (fun e => if e.2.die = die then 8 * e.2.words.length else 0) s.decants

/-- Entries without a user dropped, least recently used first, until n bytes fit (R286). -/
def State.makeRoom (s : State) (die n : Nat) : Nat → State
  | 0 => s
  | fuel + 1 =>
    if s.cacheUsed die + n ≤ Config.decantBytes then s
    else
      let free := s.decants.filter fun e => e.2.die == die && e.2.st == .valid && !aany (fun _ g => g.residuals.contains e.1) s.groups
      match free.foldl (fun (b : Option (Nat × Nat)) e => match b with
          | none => some (e.2.used, e.1)
          | some x => if e.2.used < x.1 then some (e.2.used, e.1) else some x) none with
      | some x => { s with decants := adel x.2 s.decants }.makeRoom die n fuel
      | none => s

/-- The words of a code section. -/
def State.codeSection (s : State) (ctx : Nat) (o : ObjRec) : Except EngErr (List W32) :=
  (List.range (o.size / 4)).mapM fun (i : Nat) => do
    let g ← s.engTarget ctx .program false (o.code + BitVec.ofNat 64 (4 * i))
    if s.tgtPoisoned g 4 then .error (.code 0x14) else .ok (BitVec.ofNat 32 (s.tgtValue g 4))

/-- The words of an object at which breakpoints are registered (R288, R299). -/
def State.brkWords (s : State) (ctx : Nat) (o : ObjRec) : List Nat :=
  (s.breakpoints ctx).filterMap fun b =>
    let a := b.2.toNat / 4 * 4 % 2 ^ 56
    if bitAt b.2.toNat 63 && Nat.ble o.code.toNat a && Nat.blt a (o.code.toNat + o.size) then some ((a - o.code.toNat) / 4) else none

/-- The residual of an entry being built: none where decanting ends without one (R284); a fault of the code that is still to be repaired
is an error. -/
def State.buildEntry (s : State) (e : DecEntry) : Except EngErr (Option DecOut) :=
  match s.objAt e.ctx e.code with
  | none => .ok none
  | some x =>
    match s.codeSection e.ctx x.2 with
    | .error (.code _) => .ok none
    | .error r => .error r
    | .ok code =>
      let places := (List.range 256).filter fun i => bitAt e.key.smask.toNat i
      .ok (decant {
        code := code, entry := e.key.entry / 4, smask := e.key.smask, bytes := places.zip e.key.bytes
        place := if e.key.place = 255 then none else some (Nat.ble 8 e.key.place, e.key.place % 8), brk := s.brkWords e.ctx x.2 })

/-- An entry as it is built, and the bytes of the cache that it takes; one that only says that the place is wanted holds no residual. -/
def DecEntry.built (e : DecEntry) (o : DecOut) : DecEntry × Nat :=
  let marker := o.placed && e.key.place == 255
  ({ e with
      st := .valid
      placed := o.placed
      words := if marker then [] else o.words
      back := if marker then [] else o.back
      folded := o.folded
      exits := if marker then [] else o.exits
      loops := if marker then [] else o.loops }, if marker then 0 else 8 * o.words.length)

/-- Room for n bytes in a die's cache made by replacement; none where it cannot be (R286). -/
def State.roomFor (s : State) (die n : Nat) : Option State :=
  let s1 := s.makeRoom die n s.decants.length
  if Config.decantBytes < s1.cacheUsed die + n then none else some s1

/-- The groups that need an entry which proved to depend on the place look it up again (R279). -/
def State.placeGroups (s : State) (k : Nat) : State :=
  s.groups.foldl (fun (st : State) (e : Nat × Group) =>
    if e.2.residuals.contains k then
      let r := st.obtainPlaced e.2.place.core k
      match alook e.1 r.1.groups with
      | some g => { r.1 with groups := aset e.1 { g with residuals := g.residuals.map fun j => if j = k then r.2 else j } r.1.groups }
      | none => r.1
    else st) s

/-- The pages that the Decanter reads for an entry. -/
def State.entryPages (s : State) (e : DecEntry) : List W64 :=
  match s.objAt e.ctx e.code with
  | some x => pageSpan e.code x.2.size ++ pageSpan e.frame 256
  | none => []

/-- The reads of an entry's code. -/
def State.codeReads (s : State) (e : DecEntry) : List Target :=
  match s.objAt e.ctx e.code with
  | some x => (List.range (x.2.size / 4)).filterMap fun i => match s.engTarget e.ctx .program false (e.code + BitVec.ofNat 64 (4 * i)) with
    | .ok g => some g
    | .error _ => none
  | none => []

/-- The code read for an entry noted, as the Decanter reads it now (R237), and its requests sent, one for each 64 bytes (R336). -/
def State.readCode (s : State) (e : DecEntry) : State :=
  let l := s.codeReads e
  (l.foldl (fun (st : State) g => st.sawAt (decantParty e.die) g 4 s.clock) s).sendReqs (l.filter fun g => g.key.2 % 64 == 0)

/-- An uncorrectable error found while the code of an entry is read (R284, R326): of its words the part says which holds it; in device memory
its 64 bytes are poisoned, but a dead unit's, which read zero. -/
def State.codeUncorrectable (s : State) (e : DecEntry) : Option State :=
  let l := s.codeReads e
  l[Config.choice s.freeN (2 ^ 58) % max 1 l.length]?.bind fun g => match g with
    | .dev pa => if deadHas s.dead (pa / 4096) then none else some (s.addPoison (pa / 64))
    | _ => some s

/-- DECANT_COMPLETE; `failed` says that an uncorrectable error is found now. -/
def execDecantComplete (die entry : Nat) (failed : Bool) (s : State) : Host.Outcome State Fault Refusal :=
  runEvent s do
    let e ← alook entry s.decants
    if e.die = die && e.st == .decanting && !s.engWaits entry then
      if failed then (s.codeUncorrectable e).map fun s1 => s1.dropResidual entry
      else
      match s.buildEntry e with
      | .ok none => some (s.dropResidual entry)
      | .ok (some o) =>
        let x := e.built o
        match ((s.walksFor e.ctx die (s.entryPages e)).readCode e).roomFor die x.2 with
        | none => some (s.dropResidual entry)
        | some s1 =>
          let s2 : State := { s1 with decants := aset entry x.1 s1.decants }
          some (if x.1.placed && e.key.place == 255 then s2.placeGroups entry else s2)
      | .error (.page va) => some (s.engFault entry e.ctx (s.rootOf e.ctx) (die * Config.coresPerDie) va)
      | .error _ => none
    else none

/-! ## GROUP_RELEASE (R114, R118) -/

/-- The residuals of a group are ready. -/
def State.residualsReady (s : State) (g : Group) : Bool :=
  g.residuals.all fun k => k == 0 || (match alook k s.decants with
    | some e => e.st != .decanting
    | none => false)

/-- A released team at its entry, with sh0 granted for its whole width at the core's point (R114, R153). -/
def Team.enter (t : Team) (cp : Nat) (clt : Bool) (pc : Loc) : Team :=
  let q : Shape := { Shape.none with clt := clt, cp := cp }
  { t with
    st := .ready, pc := pc, sh0 := { q with kind := .vec, gsz := 1, d0 := t.tw }, sh1 := q, sh2 := q, sh3 := q
    relAt := placeCode clt cp }

/-- The place at which a team of a group begins. -/
def Group.entryOf (g : Group) (k : Task) (tix : Nat) : Loc :=
  let role := if tix < k.r0.cnt then 0 else 1
  let r := if role = 0 then k.r0 else k.r1
  match g.residuals.getD role 0 with
  | 0 => .code (k.code + BitVec.ofNat 64 r.entry)
  | e => .resid e 0

/-- GROUP_RELEASE: the reservations stand, the ramp has ended and the residuals are ready. -/
def execGroupRelease (gid : Nat) (s : State) : Host.Outcome State Fault Refusal :=
  runEvent s do
    let g ← alook gid s.groups
    let l ← alook g.launch s.launches
    let core := g.place.core
    let x := s.core core
    if g.st == .carving && g.place == .bank core x.act && !x.held && s.residualsReady g then
      let k := Task.parse l.task
      some { s with
        groups := aset gid { g with st := .running } s.groups
        teams := amap (fun _ t => if t.gid = gid ∧ t.st = .carved then t.enter x.point (s.classT core) (g.entryOf k t.tix) else t) s.teams }
    else none

/-! ## The balancer (R160 to R162, R260, R285) -/

/-- The element of a list at an index taken out. -/
def takeAt {α : Type} (l : List α) (i : Nat) : List α := l.take i ++ l.drop (i + 1)

/-- BALANCER_QUEUE_MOVE (R260): the undispatched instances of an entry go to the tail of the region's queue on another die. -/
def execBalancerQueueMove (ctx region die idx toDie : Nat) (s : State) : Host.Outcome State Fault Refusal :=
  runEvent s do
    let q ← s.queues.find? fun q => q.ctx == ctx && q.region == region && q.die == die
    let e ← q.entries[idx]?
    if die != toDie && Nat.blt toDie Config.nDies && (s.region ctx region).isSome && !s.fw.frozen &&
        (if e.reserve then Nat.blt (sumOf (fun (r : RunQueue) => if r.ctx == ctx && r.region == region && r.die == toDie then
            (r.entries.filter fun x => x.reserve).length else 0) s.queues) Config.reserveEntries
         else s.queueFits ctx region toDie) && !s.ringHeld ctx region toDie then
      let s1 : State := { s with queues := s.queues.map fun (r : RunQueue) =>
        if r.ctx == ctx && r.region == region && r.die == die then { r with entries := takeAt r.entries idx } else r }
      some ((s1.pushEntry ctx region toDie e false).dieEvent die 19 1)
    else none

/-- A group runs a placed residual (R285). -/
def State.runsPlaced (s : State) (g : Group) : Bool :=
  g.residuals.any fun k => match alook k s.decants with
    | some e => e.key.place != 255
    | none => false

/-- The points at which a group may stand on the die of a core: those of its record within the range it holds (R63, R255). -/
def State.groupPoints (s : State) (core : Nat) (g : Group) : List Nat := admissible g.cpLo g.cpHi g.heldLo g.heldHi (s.classT core)

/-- The balancer may move a group to a core (R160, R285). A group holds a level-2 handle where its launch has a level-2 tile on its die, one
still RELEASING included (DESIGN CHOICE, log entry 34). -/
def State.movable (s : State) (g : Group) (toCore : Nat) : Bool :=
  let core := g.place.core
  (match s.region g.ctx g.region with
   | some r => r.mov
   | none => false) &&
  !s.coresident g.launch && !aany (fun _ t => t.gid == none && t.launch == g.launch && t.die == dieOf core) s.tiles &&
  !s.runsPlaced g && Nat.blt toCore Config.nCores && dieOf toCore != dieOf core &&
  (s.groupPoints toCore g).contains (s.core toCore).point &&
  (match g.partner.bind fun k => alook k s.groups with
   | some p => p.place.core != toCore
   | none => true)

/-- BALANCER_MOVE_MARK (R161). -/
def execBalancerMoveMark (gid toCore : Nat) (s : State) : Host.Outcome State Fault Refusal :=
  runEvent s do
    let g ← alook gid s.groups
    if g.st == .running && g.resident && g.mark.isNone && s.movable g toCore then
      some { s with groups := aset gid { g with mark := some (toCore, (s.core g.place.core).count) } s.groups }
    else none

/-- A team held at a SETSHAPE (R161). -/
def Team.atSetshape (t : Team) : Bool :=
  t.st == .waiting && (match t.wait with
    | .setshape _ => true
    | _ => false)

/-- The teams of a group. -/
def State.teamsIn (s : State) (gid : Nat) : List (Nat × Team) := s.teams.filter fun e => e.2.gid == gid

/-- Every team of a marked group is held, every flag is clear and every copy has landed (R161 step 2). Of its matrix operations only one that
has begun delays the move: it completes into the tiles before the cellar engine takes them (R216). -/
def State.moveReady (s : State) (gid : Nat) : Bool :=
  ((s.teamsIn gid).all fun e => e.2.atSetshape && e.2.flags.isEmpty) && !aany (fun _ c => c.gid == gid) s.copies &&
  !aany (fun _ m => m.gid == gid && m.begun) s.mqs

/-- A place in one entry taken to the same place in another (R285). -/
def Loc.rebase (l : Loc) (f : Nat → Nat) : Loc :=
  match l with
  | .resid k o => .resid (f k) o
  | .code a => .code a

/-- Every residual place of a team re-based (R285). -/
def Team.rebase (t : Team) (f : Nat → Nat) : Team :=
  { t with
    pc := t.pc.rebase f
    clause := { t.clause with hdr := t.clause.hdr.map fun l => l.rebase f, fin := t.clause.fin.map fun l => l.rebase f }
    stack := t.stack.map fun k => { k with pc := k.pc.rebase f }
    trapTok := { t.trapTok with pc := t.trapTok.pc.rebase f }
    loop := t.loop.map fun q => { q with start := q.start.rebase f }
    trap := t.trap.map fun x => { x with pc := x.pc.rebase f } }

/-- The entry of the same key on another die, decanted there on a miss (R285). None where it cannot be had: while it is being decanted, where
the decant does not give the same words, as an entry made STALE by a breakpoint (R288, R289), and where the cache cannot make room (R286); the
group then does not come to the die (DESIGN CHOICE, log entry 31). -/
def State.sameEntry (s : State) (k die : Nat) : Option (State × Nat) :=
  match alook k s.decants with
  | none => some (s, k)
  | some e =>
    if e.die = die then some (s, k)
    else
      match afind (fun _ x => x.die == die && x.key == e.key && x.st != .stale) s.decants with
      | some (j, x) =>
        if x.st = .valid ∧ x.words = e.words then some ({ s.dieEvent die 16 1 with decants := aset j { x with used := s.nextId } s.decants }, j) else none
      | none =>
        match s.buildEntry e with
        | .ok (some o) =>
          let x := ({ e with die := die, used := s.nextId } : DecEntry).built o
          if x.1.words != e.words then none
          else
            (s.roomFor die x.2).map fun s1 =>
              ({ s1.dieEvent die 17 1 with decants := aset s.nextId x.1 s1.decants, nextId := s.nextId + 1 }, s.nextId)
        | _ => none

/-- A group's residuals taken to the entries of a die, with every place of its teams (R285). -/
def State.rebaseGroup (s : State) (gid die : Nat) : Option State :=
  match alook gid s.groups with
  | none => some s
  | some g => do
    let r ← g.residuals.foldlM (fun (a : State × List (Nat × Nat)) k => do
      let x ← a.1.sameEntry k die
      some (x.1, a.2 ++ [(k, x.2)])) (s, [])
    let f (k : Nat) : Nat := match r.2.find? fun p => p.1 == k with
      | some p => p.2
      | none => k
    some ({ r.1 with
      groups := aset gid { g with residuals := g.residuals.map f } r.1.groups
      teams := amap (fun _ t => if t.gid = gid then t.rebase f else t) r.1.teams } : State).sweepDecants

/-- A group and its teams put into the active bank of a core, in its lowest free slots. -/
def State.seatGroup (s : State) (gid core : Nat) : State :=
  match alook gid s.groups with
  | none => s
  | some g =>
    let x := s.core core
    let slots := lowestFreeN (s.slotsUsed core x.act) Config.slotsPerBank 16
    let ts := s.teamsIn gid
    let gslot := (lowestFree ((s.groupsAt core x.act).map fun e => e.2.slot) 0 Config.groupsPerBank).getD 0
    { s with
      groups := aset gid { g with place := .bank core x.act, slot := gslot } s.groups
      teams := (ts.zip slots).foldl (fun (m : List (Nat × Team)) (e : (Nat × Team) × Nat) => aset e.1.1 { e.1.2 with slot := e.2 } m) s.teams
      tiles := amap (fun _ t => if t.gid = some gid then { t with die := dieOf core } else t) s.tiles }.modCore core fun y =>
        y.modActive fun b => b.enter g.ctx

/-- A moved team goes on at its SETSHAPE; its other shapes are checked against the new place, and it holds no declaration (R154, R161). -/
def Team.arriveAt (t : Team) (cp : Nat) (clt : Bool) : Team :=
  { t with st := .ready, wait := .none, hint := 0 }.checkShapes cp clt

/-- The move of a group that is ready; its matrix operations that have not begun go with it (R216). -/
def State.moveGroup (s : State) (gid : Nat) (g : Group) (toCore : Nat) : Option State := do
  let from_ := g.place.core
  let s1 ← (s.seatGroup gid toCore).rebaseGroup gid (dieOf toCore)
  let s2 : State := { s1 with
    groups := match alook gid s1.groups with
      | some h => aset gid { h with mark := none } s1.groups
      | none => s1.groups
    teams := amap (fun _ t => if t.gid = gid then t.arriveAt (s.core toCore).point (s.classT toCore) else t) s1.teams
    mqs := amap (fun _ m => if m.gid = gid then { m with core := toCore, bank := (s.core toCore).act } else m) s1.mqs }
  some (s2.dieEvent (dieOf from_) 19 1)

/-- The bank of a core has room for a group that another bank holds: as for carving (R118). -/
def State.canSeat (s : State) (gid : Nat) (g : Group) (core : Nat) : Bool :=
  match s.region g.ctx g.region with
  | some r =>
    let others : State := { s with groups := adel gid s.groups }
    (s.groupPoints core g).contains (s.core core).point &&
      (s.core core).settled && others.hasRoom core g.ctx g.region r { teams := (s.teamsIn gid).length, foot := g.foot, l0 := g.l0, l1 := g.l1, nb := g.nb }
  | none => false

/-- 100 µs have passed since the marking of a group on a core (R161). -/
def CoreSt.moveLate (x : CoreSt) (marked : Nat) : Bool := Nat.ble (marked + 100 * Config.mhz x.point) x.count

/-- BALANCER_MOVE_SWAP (R161, R162). -/
def execBalancerMoveSwap (gid : Nat) (s : State) : Host.Outcome State Fault Refusal :=
  runEvent s do
    let g ← alook gid s.groups
    let m ← g.mark
    let x := s.core g.place.core
    if g.resident && x.settled && !x.moveLate m.2 && s.moveReady gid && s.movable g m.1 && s.canSeat gid g m.1 then s.moveGroup gid g m.1
    else none

/-- A mark dropped: the held teams execute their SETSHAPEs where they are (R161, R162). -/
def State.dropMark (s : State) (gid : Nat) : State :=
  match alook gid s.groups with
  | none => s
  | some g => { s with
      groups := aset gid { g with mark := none } s.groups
      teams := amap (fun _ t => if t.gid = gid ∧ t.atSetshape = true then { t with st := .ready, wait := .none } else t) s.teams }

/-- BALANCER_MOVE_TIMEOUT: 100 µs after the marking. -/
def execBalancerMoveTimeout (gid : Nat) (s : State) : Host.Outcome State Fault Refusal :=
  runEvent s do
    let g ← alook gid s.groups
    let m ← g.mark
    if (s.core g.place.core).moveLate m.2 then some (s.dropMark gid) else none

end Sys2Proof.Machine
end

