-- ==== Sys2Proof/Machine/System.lean ====
section
/-!
DEFINITION. The system registers (R12, R45, R71, R295, R299 to R301), and the event counters (R365, R366).
-/
namespace Sys2Proof.Machine

/-! ## Loaded objects and the decant cache (R270, R288, R289) -/

/-- Word w of an object's code section is marked in its clause map (R270). -/
def ObjRec.marks (o : ObjRec) (w : Nat) : Bool := bitAt o.cmap w

/-- The governing header of a word: the nearest marked word at or before it (R398). -/
def ObjRec.governing (o : ObjRec) : Nat → Nat
  | 0 => 0
  | w + 1 => if o.marks (w + 1) then w + 1 else o.governing w

/-- The loaded object of a context whose code section holds an address, with the address's word. -/
def State.objHolding (s : State) (ctx a : Nat) : Option (ObjRec × Nat) :=
  (afind (fun _ o => o.ctx == ctx && Nat.ble o.code.toNat a && Nat.blt a (o.code.toNat + o.size)) s.objs).map fun x =>
    (x.2, (a - x.2.code.toNat) / 4)

/-- A VALID entry goes to STALE where a condition holds. -/
def DecEntry.stale (p : DecEntry → Bool) (e : DecEntry) : DecEntry := if e.st == DecSt.valid && p e then { e with st := DecSt.stale } else e

/-- The entries that satisfy a condition invalidated: STALE while they have users, removed otherwise (R286, R289). -/
def State.invalidate (s : State) (p : DecEntry → Bool) : State :=
  { s with decants := amap (fun _ e => e.stale p) s.decants }.sweepDecants

/-- A breakpoint registered: the entries whose residual folded its clause are invalidated (R288). -/
def State.brkInvalidate (s : State) (ctx a : Nat) : State :=
  match s.objHolding ctx a with
  | some (o, w) => s.invalidate fun e => e.key.obj == o.digest && e.folded.contains (o.governing w)
  | none => s

/-! ## RDSR and WRSR (R300, R301) -/

/-- The number that an instruction names; an indirect one stands in bits 13 to 0 of a scalar. -/
def sysNum (e : Env) (t : Team) (n : SysNum) : Except Trap (Nat × Bool) :=
  match n with
  | .imm k => .ok (k.toNat, true)
  | .ind a => do
    checkScalars t [a]
    let x := (srcScalar e t a).toNat
    .ok (x % 2 ^ 14, x / 2 ^ 14 == 0)

/-- The words that a system register number takes after the instruction's own. -/
def sysWords (n : SysNum) : Nat :=
  match n with
  | .imm _ => 0
  | .ind a => a.words

/-- A register above the reader's level: 0x100 and up are the handler's (R301). -/
def sysLevel (t : Team) (n : Nat) : Except Trap Unit := if 0x100 ≤ n then checkLevel t .handler else .ok ()

/-- What the control thread of a core handles. -/
def State.handling (s : State) (core : Nat) : Option Handling := (s.core core).active.handling

/-- Word 4 of the trap record of a team while its handler runs: PEND and OVF show an error that has filled the team's pending-trap slot since
(R295, R297). -/
def pendWord (t : Option Team) (w : W64) : W64 :=
  match t.bind fun u => if u.st = .stopped then u.pending.map fun x => (u, x) else none with
  | some (u, x) => BitVec.ofNat 64 (w.toNat / 2 ^ 16 * 2 ^ 16 + x.cause.code * 2 ^ 8 + b2n (bitAt w.toNat 7 || u.pendOvf) * 2 ^ 7 + w.toNat % 2 ^ 7)
  | none => w

/-- A word of the trap record or the diagnostic record: zero while no trap is handled (R295). -/
def State.trapWord (s : State) (core n : Nat) : W64 :=
  match s.handling core with
  | some h =>
    let w := if n < 0x110 then h.trec.getD (n - 0x100) 0 else h.diag.getD (n - 0x110) 0
    if n = 0x104 then pendWord (alook h.tid s.teams) w else w
  | none => 0

/-- A system register as it reads; none for a number that R301 does not list. -/
def State.sysRead (s : State) (e : Env) (t : Team) (n : Nat) : Option W64 :=
  let w (x : Nat) : Option W64 := some (BitVec.ofNat 64 x)
  if n = 0x000 then w (0x03 * 2 ^ 32 + 0x0384 * 2 ^ 16 + s.part.stepping.toNat * 2 ^ 8)
  else if n = 0x001 then w (e.die * 2 ^ 16 + 0xFF * 2 ^ 8 + s.part.classT.toNat)
  else if n = 0x002 then w (Config.coresPerDie * 2 ^ 24 + e.core % Config.coresPerDie * 2 ^ 16 + (if e.clt then 192 else 256))
  else if n = 0x003 then w (s.part.t2ports.toNat * 2 ^ 48 + s.part.t2size % 2 ^ 16 * 2 ^ 32 + s.t1size % 2 ^ 16 * 2 ^ 16 + 0xFF * 2 ^ 8)
  else if n = 0x008 then w (s.core e.core).count
  else if n = 0x010 then some (t.fpflags.setWidth 64)
  else if n = 0x018 then w (e.ctx % 2 ^ 16 * 2 ^ 32 + e.region % 2 ^ 16 * 2 ^ 16)
  else if (0x100 ≤ n ∧ n < 0x108) ∨ (0x110 ≤ n ∧ n < 0x120) then some (s.trapWord e.core n)
  else if 0x180 ≤ n ∧ n < 0x190 then some (agetD 0 (n - 0x180) (s.breakpoints e.ctx))
  else none

/-- RDSR. -/
def execRdsr (d : Reg) (n : SysNum) (s : State) : Host.Outcome State Fault Refusal :=
  runAgent s (1 + sysWords n) fun e t => do
    let k ← sysNum e t n
    sysLevel t k.1
    needOperand (k.2 && isScaDst d)
    match s.sysRead e t k.1 with
    | some x => .ok (t.writeScalar d x)
    | none => .error (Trap.of .operand)

/-- A breakpoint register written (R299). -/
def State.writeBrk (s : State) (ctx k : Nat) (x : W64) : State :=
  match alook ctx s.ctxs with
  | some c =>
    let s1 : State := { s with ctxs := aset ctx { c with brk := aset k x c.brk } s.ctxs }
    if bitAt x.toNat 63 then s1.brkInvalidate ctx (bits x.toNat 55 0) else s1
  | none => s

/-- WRSR: FPFLAGS (R45) and the breakpoint registers (R299) can be written. -/
def execWrsr (x : Src) (n : SysNum) (s : State) : Host.Outcome State Fault Refusal :=
  runState s fun e t => do
    let k ← sysNum e t n
    sysLevel t k.1
    checkScalars t [x]
    let v := srcScalar e t x
    let len := 1 + x.words + sysWords n
    if k.2 && k.1 == 0x010 then
      need (bits v.toNat 63 5 == 0) (Trap.of .reservedField)
      .ok (s.setAgent e.ag ({ t with fpflags := v.setWidth 5 }.advance len))
    else if k.2 && Nat.ble 0x180 k.1 && Nat.blt k.1 0x190 then
      need (bits v.toNat 62 56 == 0 && bits v.toNat 1 0 == 0) (Trap.of .reservedField)
      .ok ((s.setAgent e.ag (t.advance len)).writeBrk e.ctx (k.1 - 0x180) v)
    else .error (Trap.of .operand)

/-! ## Event counters (R365, R366) -/

/-- The sources of R365 for a kind of counter. -/
def eventCode (die : Bool) (x : Nat) : Bool := x == 0 || (if die then Nat.ble 16 x && Nat.ble x 19 else Nat.ble x 8)

/-- How many counters there are of a kind. -/
def eventCount (die : Bool) : Nat := if die then 16 else 8

/-- The checks that EVSEL and EVRD share: the level, and the counter's index. -/
def eventIdx (e : Env) (t : Team) (die : Bool) (a : Src) : Except Trap Nat := do
  checkLevel t (if die then .system else .program)
  checkScalars t [a]
  let n := (srcScalar e t a).toNat
  needOperand (Nat.blt n (eventCount die))
  .ok n

/-- A counter given a source, its count zero. -/
def State.selectEvent (s : State) (e : Env) (die : Bool) (n src : Nat) : State :=
  let v : W64 := BitVec.ofNat 64 src
  if die then
    let x := s.die e.die
    { s with dies := aset e.die { x with evSrc := sset x.evSrc n v, evCnt := sset x.evCnt n 0 } s.dies }
  else s.modCore e.core fun x => x.modActive fun b => { b with evSrc := sset b.evSrc n v, evCnt := sset b.evCnt n 0 }

/-- EVSEL. -/
def execEvsel (die : Bool) (a b : Src) (s : State) : Host.Outcome State Fault Refusal :=
  runState s fun e t => do
    let n ← eventIdx e t die a
    checkScalars t [b]
    let src := (srcScalar e t b).toNat
    needOperand (eventCode die src)
    .ok ((s.setAgent e.ag (t.advance (1 + a.words + b.words))).selectEvent e die n src)

/-- EVRD. -/
def execEvrd (die : Bool) (d : Reg) (a : Src) (s : State) : Host.Outcome State Fault Refusal :=
  runAgent s (1 + a.words) fun e t => do
    let n ← eventIdx e t die a
    needOperand (isScaDst d)
    .ok (t.writeScalar d (if die then sget (s.die e.die).evCnt n else sget (s.core e.core).active.evCnt n))

end Sys2Proof.Machine
end

