-- ==== Sys2Proof/Machine/Debug.lean ====
section
/-!
DEFINITION. The debug window (R302 to R304, R123, R159), what a written PC or item does to a team (R398, R399), and TRESUME
(R305).
-/
namespace Sys2Proof.Machine

/-! ## The window's items, read (R303) -/

/-- An item of a team, by its space and index. -/
inductive Item where
  | vreg (r lane : Nat)
  | sreg (n : Nat)
  | nib (lane : Nat)
  | active (w : Nat) | summary | fault (w : Nat) | exited (w : Nat)
  | depth | token (k w : Nat) | trapTok (w : Nat)
  | shape (n : Fin 4)
  | pc | rpc | window | flags | fp | gang | loopSt | ident | pendSlot | loopBody | loopStep
  | bar (id : Nat)
  deriving DecidableEq, Repr

/-- The item of an index in the control space. -/
def controlItem (i : Nat) : Option Item :=
  match i with
  | 0 => some .pc
  | 1 => some .rpc
  | 2 => some .window
  | 3 => some .flags
  | 4 => some .fp
  | 5 => some .gang
  | 6 => some .loopSt
  | 7 => some .ident
  | 8 => some .pendSlot
  | 9 => some .loopBody
  | 10 => some .loopStep
  | _ => none

/-- The item of an index in the stack space. -/
def stackItem (i : Nat) : Option Item :=
  let k := i / 32
  let w := i % 32
  if i = 0x7FF then some .depth
  else if 16 < w ∨ 32 < k then none
  else if k = 32 then some (.trapTok w)
  else some (.token k w)

/-- The item of a space and an index; none where they are out of range. -/
def itemOf (t : Team) (space i : Nat) : Option Item :=
  match space with
  | 0 => if i / 1024 < t.allot ∧ i % 1024 < t.tw then some (.vreg (i / 1024) (i % 1024)) else none
  | 1 => if i < 24 then some (.sreg i) else none
  | 2 => if i < t.tw then some (.nib i) else none
  | 3 =>
    if i < 32 then some (.active i)
    else if i = 32 then some .summary
    else if 64 ≤ i ∧ i < 96 then some (.fault (i - 64))
    else if 128 ≤ i ∧ i < 160 then some (.exited (i - 128))
    else none
  | 4 => stackItem i
  | 5 => if h : i < 4 then some (.shape ⟨i, h⟩) else none
  | 6 => controlItem i
  | 7 => if i < 2048 then some (.bar i) else none
  | _ => none

/-- Word w of a mask, in words of n bits. -/
def maskWord (m : LaneMask) (n w : Nat) : Nat := m.toNat / 2 ^ (n * w) % 2 ^ n

/-- A mask with word w of n bits replaced. -/
def setMaskWord (m : LaneMask) (n w x : Nat) : LaneMask :=
  BitVec.ofNat 1024 (m.toNat - maskWord m n w * 2 ^ (n * w) + x % 2 ^ n * 2 ^ (n * w))

/-- The summary of a mask (R120). -/
def summaryOf (m : LaneMask) : Nat := (List.range 32).foldl (fun n w => if maskWord m 32 w = 0 then n else n + 2 ^ w) 0

/-- The kinds of token (R123). -/
def TokKind.code (k : TokKind) : Nat :=
  match k with
  | .empty => 0
  | .join => 1
  | .path => 2
  | .ret => 3
  | .trap => 4

/-- The kind of a code of R123. -/
def TokKind.ofCode (n : Nat) : TokKind :=
  match n with
  | 0 => .empty
  | 1 => .join
  | 2 => .path
  | 3 => .ret
  | _ => .trap

/-- Word w of a token: its header, with the original PC (R287), or a word of its mask. -/
def State.tokenWord (s : State) (gid : Nat) (k : Token) (w : Nat) : Nat :=
  if w = 0 then k.kind.code * 2 ^ 60 + (s.origPc gid k.pc).toNat % 2 ^ 56
  else maskWord k.mask 64 (w - 1)

/-- Entry k of a stack, the oldest first (R123). -/
def Team.token (t : Team) (k : Nat) : Token := t.stack.reverse.getD k Token.empty

/-- The states of R115 as the window codes them. -/
def TeamSt.code (x : TeamSt) : Nat :=
  match x with
  | .carved => 0
  | .ready => 1
  | .waiting => 2
  | .parked => 3
  | .stopped => 4
  | .draining => 5
  | .retired => 6

/-- A barrier entry as the window reads it, 128 bits. -/
def State.barBits (s : State) (tid id : Nat) : Nat :=
  match s.barRef (s.env (.team tid)) id with
  | some r => match s.barAt r with
    | some b => b.low.toNat + 2 ^ 64 * b.high.toNat
    | none => 0
  | none => 0

/-- The loop state that a team holds: its own, or that of the original code where it runs an unrolled pass of a LOOP (R140, R283). -/
def State.loopOf (s : State) (t : Team) : Option LoopSt :=
  t.loop.orElse fun _ => (s.unrolledAt t.pc).map fun q => { q with start := match q.start with
    | .code a => .code (s.codeOf t.gid + a)
    | l => l }

/-- An item's value. -/
def State.itemValue (s : State) (tid : Nat) (t : Team) (x : Item) : Nat :=
  match x with
  | .vreg r l => (sget t.vregs (1024 * r + l)).toNat
  | .sreg n => (sget t.sregs n).toNat
  | .nib l => (sget t.cc l).toNat
  | .active w => maskWord t.active 32 w
  | .summary => summaryOf t.active
  | .fault w => maskWord t.fault 32 w
  | .exited w => maskWord t.exited 32 w
  | .depth => t.stack.length
  | .token k w => s.tokenWord t.gid (t.token k) w
  | .trapTok w => s.tokenWord t.gid t.trapTok w
  | .shape n => (t.shape n).record.toNat
  | .pc => (s.origPc t.gid t.pc).toNat
  | .rpc => (s.addrOf t.pc).toNat
  | .window => t.winBase
  | .flags => (List.range 12).foldl (fun n i => n + t.flag i * 2 ^ (3 * i)) 0
  | .fp => t.fpflags.toNat
  | .gang => t.gang.toNat
  | .loopSt => match s.loopOf t with
    | some q => q.c * 2 ^ 32 + q.p
    | none => 0
  | .ident => t.tw * 2 ^ 32 + t.allot * 2 ^ 16 + t.tix * 2 ^ 8 + t.st.code
  | .pendSlot => match t.pending with
    | some e => e.cause.code * 2 ^ 8 + b2n t.pendOvf * 2 + 1
    | none => 0
  | .loopBody => match s.loopOf t with
    | some q => 2 ^ 63 + q.len * 2 ^ 56 + (s.origPc t.gid q.start).toNat % 2 ^ 56
    | none => 0
  | .loopStep => match s.loopOf t with
    | some q => q.stepw.toNat
    | none => 0
  | .bar id => s.barBits tid id

/-! ## The window's items, written (R303) -/

/-- The shape of a record of R150. -/
def Shape.ofRecord (x : Nat) : Shape :=
  { kind := match bits x 61 60 with
      | 0 => .none
      | 1 => .vec
      | 2 => .tile
      | _ => .mat
    pol := match bits x 59 58 with
      | 0 => .fit
      | 1 => .exact
      | _ => .onepass
    short := bitAt x 62, stale := bitAt x 63, clt := bitAt x 57, cp := bits x 56 54, gsz := bits x 53 51, d0 := bits x 15 0
    d1 := bits x 31 16, d2 := bits x 47 32 }

/-- The kind of request that a shape's kind answers. -/
def ShapeKind.req (k : ShapeKind) : Option ReqKind :=
  match k with
  | .none => Option.none
  | .vec => some .vec
  | .tile => some .tile
  | .mat => some .mat

/-- A shape that a SETSHAPE at a place could have made, its dimensions being the request (R159). -/
def Shape.grantable (x : Shape) (w : GrantAt) (n : Fin 4) : Bool :=
  match x.kind.req with
  | some k => (k == .vec || n != 0) && x.clt == w.clt && x.cp == w.cp && x.gsz == (if k = .mat then w.g else 1) &&
      grant w k { d0 := x.d0, d1 := x.d1, d2 := x.d2 } x.pol == some { d0 := x.d0, d1 := x.d1, d2 := x.d2 }
  | Option.none => false

/-- The tests of R159 on a record written to shape register n of a team that stands at a place. -/
def Team.shapeOk (t : Team) (w : GrantAt) (n : Fin 4) (v : Nat) : Bool :=
  let x := Shape.ofRecord v
  let old := t.shape n
  bits v 50 48 == 0 && bits v 59 58 != 3 &&
    (match x.kind with
     | .none => x.record.toNat == v && !x.stale && !x.short && x.pol == .fit && x.gsz == 0 && x.d0 == 0 && x.d1 == 0 && x.d2 == 0 &&
         placeCode x.clt x.cp == t.relAt
     | _ => if x.stale then x.kind == old.kind && x.pol == old.pol && x.d0 == old.d0 && x.d1 == old.d1 && x.d2 == old.d2
         else x.grantable w n)

/-- A token with word w written; none where the value breaks the rule of R123. -/
def Token.write (k : Token) (w v : Nat) : Option Token :=
  if w = 0 then
    if 5 ≤ bits v 63 60 ∨ bits v 59 56 ≠ 0 ∨ bits v 1 0 ≠ 0 then none
    else some { k with kind := TokKind.ofCode (bits v 63 60), pc := .code (BitVec.ofNat 64 (bits v 55 0)) }
  else some { k with mask := setMaskWord k.mask 64 (w - 1) v }

/-- A stack of a given depth: empty entries are exposed on top, or the newest are removed (R123). -/
def setDepth (st : List Token) (n : Nat) : List Token :=
  if n ≤ st.length then st.drop (st.length - n) else List.replicate (n - st.length) Token.empty ++ st

/-- A mask word of 32 lanes names only lanes of the team. -/
def Team.lanesOk (t : Team) (w v : Nat) : Bool := Nat.blt v (2 ^ 32) && v * 2 ^ (32 * w) / 2 ^ t.tw == 0

/-- An item of a team written: none where it is read only or the value breaks its rule. The PC stands apart (R398). -/
def Team.writeItem (t : Team) (w : GrantAt) (x : Item) (v : Nat) : Option Team :=
  match x with
  | .vreg r l => if v < 2 ^ 32 then some { t with vregs := sset t.vregs (1024 * r + l) (BitVec.ofNat 32 v) } else none
  | .sreg n => some { t with sregs := sset t.sregs n (BitVec.ofNat 64 v) }
  | .nib l => if v < 16 then some { t with cc := sset t.cc l (BitVec.ofNat 4 v) } else none
  | .active k => if t.lanesOk k v then some { t with active := setMaskWord t.active 32 k v } else none
  | .fault k => if t.lanesOk k v then some { t with fault := setMaskWord t.fault 32 k v } else none
  | .depth => if v ≤ 32 then some { t with stack := setDepth t.stack v } else none
  | .token k j =>
    if k < t.stack.length then ((t.token k).write j v).map fun y => { t with stack := (t.stack.reverse.set k y).reverse } else none
  | .trapTok j => (t.trapTok.write j v).map fun y => { t with trapTok := y }
  | .shape n => if t.shapeOk w n v then some (t.setShape n (Shape.ofRecord v)) else none
  | .window => if windowOk t.allot v then some { t with winBase := v } else none
  | .fp => if v < 32 then some { t with fpflags := BitVec.ofNat 5 v } else none
  | .pc | .summary | .exited _ | .rpc | .flags | .gang | .loopSt | .ident | .pendSlot | .loopBody | .loopStep | .bar _ => none

/-! ## A written PC (R398, R399) -/

/-- The long-latency instructions that stand in a list of clause words (R398). -/
def longIn : Nat → List W32 → Nat
  | 0, _ => 0
  | _, [] => 0
  | fuel + 1, w :: r => b2n (wordLong w) + longIn fuel (r.drop (wordSpan w - 1))

/-- n code words of a context from an address on, as far as they can be fetched. -/
def State.wordsAt (s : State) (ctx : Nat) : Nat → Nat → List W32
  | _, 0 => []
  | a, n + 1 =>
    match s.fetchWord ctx .system a with
    | .ok w => w :: s.wordsAt ctx (a + 4) n
    | .error _ => []

/-- The clause context of a written PC: that of its governing header, with the long-latency instructions between; setA and setB
are 15 where the PC lies in no loaded code section; a header starts afresh (R398). Where the governing header can no longer be read, setA and
setB are 0, and word 0 governs a PC with no mark of the clause map at or before it (DESIGN CHOICE, log entry 69). -/
def State.contextAt (s : State) (ctx : Nat) (pc : W64) : ClauseCtx :=
  match s.objHolding ctx pc.toNat with
  | none => { ClauseCtx.empty with inside := true }
  | some (o, w) =>
    let g := o.governing w
    if g = w ∧ o.marks w = true then ClauseCtx.empty
    else
      let base := o.code + BitVec.ofNat 64 (4 * g)
      let ws := s.wordsAt ctx base.toNat (w - g)
      let h := (ws.getD 0 0).toNat
      let n := bits h 9 6 + 2
      { hdr := some (.code base), fin := if w < g + n then some (.code (base + BitVec.ofNat 64 (4 * n))) else none
        setA := bits h 17 14, setB := bits h 13 10, issued := longIn (w - g) (ws.drop 1), inside := true, brk := s.breakpoints ctx }

/-- A place in a residual taken to its original PC. -/
def State.toCode (s : State) (gid : Nat) (l : Loc) : Loc :=
  match l with
  | .code a => .code a
  | .resid _ _ => .code (s.origPc gid l)

/-- A place stands in a residual. -/
def Loc.isResid (l : Loc) : Bool :=
  match l with
  | .resid _ _ => true
  | .code _ => false

/-- A team runs a residual: its PC, a token or its loop stands in one. -/
def Team.onResidual (t : Team) : Bool :=
  t.pc.isResid || (t.stack.any fun k => k.pc.isResid) || (match t.loop with
    | some q => q.start.isResid
    | none => false)

/-- A team moved to the original code: its PC and every token PC by the back-map, and its clause context found again (R399); in an unrolled
pass of a LOOP it holds the loop state of that pass (R283). -/
def State.toOriginal (s : State) (ctx : Nat) (t : Team) : Team :=
  let f (l : Loc) : Loc := s.toCode t.gid l
  let pc := f t.pc
  { t with
    pc := pc
    clause := if t.pc.isResid then s.contextAt ctx (s.addrOf pc) else t.clause
    stack := t.stack.map fun k => { k with pc := f k.pc }
    trapTok := { t.trapTok with pc := f t.trapTok.pc }
    loop := t.loop.map fun q => { q with start := f q.start } }

/-- The PC of a stopped team written (R303, R398): it goes on there, and what it was to go on with at another old PC is dropped; a BARV
`.wait` that has arrived and stays the next instruction does not arrive again (R385). -/
def State.writePc (s : State) (ctx : Nat) (t : Team) (v : W64) : Team :=
  { t with
    pc := .code v, clause := s.contextAt ctx v, arrived := if s.origPc t.gid t.pc = v then t.arrived else none, replay := none
    trap := t.trap.map fun x => { x with after := false, skip := false, store := x.store && s.origPc t.gid t.pc == v } }

/-- An item written in the window: the team as it is left, or none where it is refused. -/
def State.windowWrite (s : State) (ctx core : Nat) (t : Team) (x : Item) (v : W64) : Option Team :=
  let w : GrantAt := { cp := (s.core core).point, clt := s.classT core, tw := t.tw, g := t.gangSize }
  let r := match x with
    | .pc => if bits v.toNat 1 0 = 0 ∧ bits v.toNat 63 56 = 0 then some (s.writePc ctx t v) else none
    | _ => t.writeItem w x v.toNat
  r.map fun u => if t.onResidual then s.toOriginal ctx { u with loop := s.loopOf t } else u

/-! ## DBGRD and DBGWR (R304) -/

/-- What only the control thread executes (R304, R305, R314): PRIV for anyone else below system level; for a system-level agent
that is no control thread too (log entry 24). -/
def needCtl (t : Team) : Except Trap Unit := do
  checkLevel t .handler
  need t.ctl (Trap.of .priv)

/-- The team in a slot of the active bank of a core, if it is of a context. -/
def State.teamInSlot (s : State) (core ctx slot : Nat) : Option (Nat × Team) :=
  if (s.core core).active.ctx = some ctx then (s.activeTeams core).find? fun e => e.2.slot == slot else none

/-- The team and item that a window address names: none for status 1 (R302, R304). -/
def State.windowAt (s : State) (core ctx : Nat) (a : W64) : Option (Nat × Team × Item) :=
  if bits a.toNat 63 36 = 0 then
    match s.teamInSlot core ctx (bits a.toNat 35 32) with
    | some (tid, t) =>
      if t.st = .stopped then (itemOf t (bits a.toNat 31 28) (bits a.toNat 27 0)).map fun x => (tid, t, x) else none
    | none => none
  else none

/-- The scalar register after an even one, for a pair. -/
def Reg.nextScalar (r : Reg) : Reg :=
  match r with
  | .s n => if h : n.val + 1 < 24 then .s ⟨n.val + 1, h⟩ else .z
  | x => x

/-- DBGRD's destination: a scalar or `z`; with `.pair` an even scalar. -/
def dbgDst (pair : Bool) (d : Reg) : Bool :=
  match d with
  | .s n => !pair || n.val % 2 == 0
  | .z => !pair
  | _ => false

/-- A value of DBGRD written, with its nibble. -/
def Team.writeWindow (t : Team) (pair : Bool) (d : Reg) (x : Nat) (nib : BitVec 4) : Team :=
  let t1 := (t.writeScalar d (BitVec.ofNat 64 x)).writeNibs [0] fun _ => nib
  if pair then t1.writeScalar (Reg.nextScalar d) (BitVec.ofNat 64 (x / 2 ^ 64)) else t1

/-- DBGRD. -/
def execDbgrd (pair : Bool) (d : Reg) (a : Src) (s : State) : Host.Outcome State Fault Refusal :=
  runAgent s (1 + a.words) fun e t => do
    needCtl t
    checkScalars t [a]
    needOperand (dbgDst pair d)
    match s.windowAt e.core e.ctx (srcScalar e t a) with
    | some (tid, u, x) => .ok (t.writeWindow pair d (s.itemValue tid u x) 0x6)
    | none => .ok (t.writeWindow pair d 0 0x2)

/-- DBGWR. -/
def execDbgwr (d : Reg) (a b : Src) (s : State) : Host.Outcome State Fault Refusal :=
  runState s fun e t => do
    needCtl t
    checkScalars t [a, b]
    needOperand (isScaDst d)
    let done (s1 : State) (st : W64) : State := s1.setAgent e.ag ((t.writeScalar d st).advance (1 + a.words + b.words))
    match s.windowAt e.core e.ctx (srcScalar e t a) with
    | some (tid, u, x) =>
      match s.windowWrite e.ctx e.core u x (srcScalar e t b) with
      | some u1 => .ok (done { s with teams := aset tid u1 s.teams } 0)
      | none => .ok (done s 2)
    | none => .ok (done s 1)

/-! ## TRESUME (R305) -/

/-- A team's entry taken off the trap queue of the bank of a core, and its fault off the MEM firmware's list. -/
def State.unqueue (s : State) (core tid : Nat) : State :=
  { s.modCore core fun x => x.modActive fun b => { b with trapQ := b.trapQ.filter fun k => k != tid } with
    faults := afilter (fun _ f => f.ag != .team tid) s.faults }

/-- A team is stopped by a trap of a cause. -/
def Team.stoppedBy (t : Team) (c : Cause) : Bool :=
  match t.trap with
  | some x => x.cause == c
  | none => false

/-- The team that a bank's control thread handles has been resumed (R296). -/
def Bank.noteResumed (b : Bank) (tid : Nat) : Bank := { b with handling := b.handling.map fun h => if h.tid = tid then { h with resumed := true } else h }

/-- What TRESUME answers: the status, and the state after it. -/
def State.tresume (s : State) (e : Env) (kill : Bool) (slot : Nat) : Nat × State :=
  match s.teamInSlot e.core e.ctx slot with
  | none => (1, s)
  | some (tid, t) =>
    if kill then (0, s.killTeamDomain tid)
    else if t.st ≠ .stopped then (1, s)
    else if t.stoppedBy .redundancy then (3, s)
    else (0, ((s.unqueue e.core tid).modCore e.core fun x => x.modActive fun b => b.noteResumed tid).resumeTeam tid)

/-- TRESUME. The control thread's own advance stands before a kill, which may end its context (R290). -/
def execTresume (kill : Bool) (d : Reg) (a : Src) (s : State) : Host.Outcome State Fault Refusal :=
  runState s fun e t => do
    needCtl t
    checkScalars t [a]
    needOperand (isScaDst d)
    let x := (srcScalar e t a).toNat
    needOperand (x / 16 == 0)
    let st := (s.tresume e kill x).1
    .ok ((s.setAgent e.ag ((t.writeScalar d (BitVec.ofNat 64 st)).advance (1 + a.words))).tresume e kill x).2

end Sys2Proof.Machine
end

