-- ==== Sys2Proof/Machine/Handler.lean ====
section
/-!
DEFINITION. The control thread's start and its watchdog (R293 to R296), and the repair of translation faults by the MEM firmware
(R293, R319, R320).
-/
namespace Sys2Proof.Machine

/-! ## HANDLER_START (R293, R294, R295) -/

/-- The trap record of a stopped team (R295). -/
def State.trapRecord (s : State) (t : Team) (g : Group) (x : TrapRec) : List W64 :=
  let w (n : Nat) : W64 := BitVec.ofNat 64 n
  let pend := match t.pending, x.pend with
    | some e, _ => e.cause.code
    | none, some c => c.code
    | none, none => 0
  [w (g.region % 2 ^ 16 * 2 ^ 48 + x.cause.code * 2 ^ 40 + t.slot * 2 ^ 36 + t.tix * 2 ^ 32 + g.gix % 2 ^ 32),
   s.origPc t.gid x.pc, s.addrOf x.pc, x.addr,
   w (x.info % 2 ^ 16 * 2 ^ 32 + maskCount t.fault * 2 ^ 16 + pend * 2 ^ 8 + b2n (x.ovf || t.pendOvf) * 2 ^ 7 + b2n (!x.diag.isEmpty) * 2 ^ 6),
   w x.count, x.oppc, 0]

/-- A control thread as it first runs for a context on a core: everything of its own reads zero (R294). -/
def newCtl (clt : Bool) (cp : Nat) : Team :=
  let q : Shape := { Shape.none with clt := clt, cp := cp }
  { ctl := true, level := .handler, gid := 0, tix := 0, slot := 16, tw := 1, allot := 0, st := .retired, wait := .none
    since := 0, pc := .code 0, clause := ClauseCtx.empty, vregs := [], sregs := [], cc := [], flags := [], fpflags := 0
    sh0 := { q with kind := .vec, gsz := 1, d0 := 1 }, sh1 := q, sh2 := q, sh3 := q, winBase := 0, active := 1, exited := 0, fault := 0
    stack := [], trapTok := Token.empty, loop := none, gang := 0, pending := none, pendOvf := false, trap := none, fromDrain := false
    errs := [], replay := none, bpSkip := false, arrived := none, hint := 0, hintAt := 0, hb := [], own := [], seen := [], latent := [], fences := []
    posts := [], held := [], relAt := placeCode clt cp }

/-- The handler of a region: none where the block is invalid, or HANDLER is 0 or misaligned (R294). -/
def State.handlerOf (s : State) (ctx region : Nat) : Option W64 :=
  match s.region ctx region with
  | some r => if r.handler ≠ 0 ∧ r.handler % 4 = 0 then some (BitVec.ofNat 64 r.handler) else none
  | none => none

/-- HANDLER_START: the control thread takes the next queued trap and runs the handler of the team's region, or the trap escalates. -/
def execHandlerStart (core : Nat) (s : State) : Host.Outcome State Fault Refusal :=
  runEvent s do
    let x := s.core core
    let b := x.active
    let ctx ← b.ctx
    let tid ← b.trapQ.head?
    let t ← alook tid s.teams
    let g ← alook t.gid s.groups
    let r ← t.trap
    if b.st == .active && b.handling.isNone && !x.held then
      let s1 := s.setCore core (x.modActive fun k => { k with trapQ := k.trapQ.drop 1 })
      match s.handlerOf ctx g.region with
      | none => some (s1.killTeamDomain tid)
      | some pc =>
        let h : Handling := {
          tid := tid, gid := t.gid, frame := g.frame, trec := s.trapRecord t g r, diag := r.diag, since := x.count, resumed := false }
        let c := agetD (newCtl (s.classT core) x.point) (ctlKey core ctx) s.ctls
        let c1 : Team := { c.at (.code pc) with
          st := .ready, wait := .none, level := .handler, active := 1, exited := 0, fault := 0, loop := none, trap := none }
        some ((s1.modCore core fun y => y.modActive fun k => { k with handling := some h }).setAgent (.ctl core ctx) c1)
    else none

/-- A handler that has run for 16 watchdog units without its EXIT (R79, R296). -/
def State.handlerOverdue (s : State) (core : Nat) : Option State := do
  let x := s.core core
  let ctx ← x.active.ctx
  let h ← x.active.handling
  if x.swap.isNone ∧ h.since + 16 * 1024 ≤ x.count then some (s.endHandled core ctx) else none

/-- HANDLER_WATCHDOG_ESCALATION. -/
def execHandlerWatchdogEscalation (core : Nat) (s : State) : Host.Outcome State Fault Refusal := runEvent s (s.handlerOverdue core)

/-! ## The repair of translation faults (R320) -/

/-- A fault taken off the MEM firmware's list. -/
def State.dropFault (s : State) (k : Nat) : State := { s with faults := adel k s.faults }

/-- A fault's state changed. -/
def State.setFault (s : State) (k : Nat) (f : FaultRec) (x : FaultSt) : State := { s with faults := aset k { f with st := x } s.faults }

/-- A host page of a faulting address has its ATC entry. -/
def State.atcHas (s : State) (f : FaultRec) : Bool := s.atc.any fun t => t.ctx == f.ctx && t.page == f.va.toNat % 2 ^ 56 / 65536

/-- The walk that the firmware makes again finds the address translated (R320 step 1); a host page needs its ATC entry. -/
def State.nowValid (s : State) (f : FaultRec) : Bool :=
  match s.walk f.ctx (f.va.toNat % 2 ^ 56) with
  | .leaf e => !e.host || s.atcHas f
  | .invalid | .malformed => false

/-- The agent of a repaired fault resumed as by TRESUME (R293); an engine operation goes on by itself. -/
def State.repaired (s : State) (k : Nat) (f : FaultRec) : State :=
  let s1 := s.dropFault k
  match f.ag with
  | .team tid => s1.resumeTeam tid
  | .ctl c x =>
    match s1.agent (.ctl c x) with
    | some t => s1.setAgent (.ctl c x) { t.resume with active := 1 }
    | none => s1
  | .none | .host _ | .peer _ _ => s1

/-- What a fault that was not repaired does to the engine operation that met it: error 0x13 (R196); a scan ends otherwise where it is on its
source (R333), and a join update is dropped only where it is on the join block (R258); a decant ends (R284). -/
def State.failEngine (s : State) (op : Nat) (va : W64) : State :=
  match alook op s.copies with
  | some c => if c.st = .posted then (s.failCopy op c 0x13).clearFlag c else s.failCopy op c 0x13
  | none =>
    match alook op s.cmds with
    | some c =>
      if c.src = .faulted then { s with cmds := aset op { c with src := .refused } s.cmds }
      else if c.fail.isSome ∨ va = c.desc + 32 then s.dropCmd op c (c.fail.getD 0x13)
      else s.failCmd op c 0x13
    | none =>
      match alook op s.joins with
      | some j => if va = j.addr then s.failJoin op j else { s with joins := aset op { j with deaf := true } s.joins }
      | none => s.dropResidual op

/-- A fault that cannot be repaired, delivered: to the trap queue of the team's bank (R293), as an escalation of a handler run
(R296), to an engine operation, or kept for the firmware request that met it. -/
def State.deliverFault (s : State) (k : Nat) (f : FaultRec) : State :=
  match f.ag with
  | .team tid =>
    match alook tid s.teams with
    | some t =>
      let s1 : State := { s.dropFault k with teams := aset tid { t with trap := t.trap.map fun x => { x with atFw := false } } s.teams }
      s1.modTrapQ t.gid fun q => q ++ [tid]
    | none => s.dropFault k
  | .ctl c x => (s.dropFault k).endHandled c x
  | .none | .host _ | .peer _ _ =>
    match f.eng with
    | some 0 => s.setFault k f .refused
    | some op => (s.dropFault k).failEngine op f.va
    | none => s.dropFault k

/-- A fault that the MEM firmware still has. -/
def State.openFault (s : State) (k : Nat) : Option FaultRec :=
  match alook k s.faults with
  | some f => if f.st = .refused then none else some f
  | none => none

/-- No reply within 16 watchdog units (R79). -/
def State.faultTimeout (s : State) (f : Nat) : Option State := do
  let x ← s.openFault f
  if x.since + 16 * 1024 ≤ (s.core x.core).count then some (s.deliverFault f x) else none

/-- FAULT_REPAIR_TIMEOUT. -/
def execFaultRepairTimeout (f : Nat) (s : State) : Host.Outcome State Fault Refusal := runEvent s (s.faultTimeout f)

/-- The fault record posted to system software (R320 step 3, R343, R360). -/
def State.postFault (s : State) (k : Nat) (f : FaultRec) : State :=
  s.fwSend 2 12 (some 2) { op := .faultRecord, snd := 2, rcv := 0, tag := k, body := [BitVec.ofNat 64 f.ctx, f.va] }

/-- The firmware's retry after a reply (R320): the fault is repaired, a leaf that is now a host page goes to ATS (step 2), and for a page that is
still not valid the record is posted again. -/
def State.retryFault (s : State) (k : Nat) (f : FaultRec) : State :=
  if s.nowValid f then s.repaired k f
  else if s.hostPage f.ctx (f.va.toNat % 2 ^ 56) then s.setFault k f .atsWait
  else (s.setFault k f .sysWait).postFault k f

/-- FAULT_REPAIR_COMPLETE: the firmware finds the translation valid; or, where the walk after an ATS answer finds it gone again, goes on from
step 2 or 3 (R320). -/
def execFaultRepairComplete (f : Nat) (s : State) : Host.Outcome State Fault Refusal :=
  runEvent s do
    let x ← s.openFault f
    if !s.fwUp 2 then none
    else if s.nowValid x then some (s.repaired f x)
    else if x.st == .walking then some (s.retryFault f x)
    else none

/-- FAULT_RECORD_REPLY: the firmware retries; a refusal delivers the fault. -/
def execFaultRecordReply (f : Nat) (ok : Bool) (s : State) : Host.Outcome State Fault Refusal :=
  runEvent s do
    let x ← s.openFault f
    if x.st == .sysWait then
      (if s.fwUp 2 then some (if ok then s.retryFault f x else s.deliverFault f x) else s.hold 10 (.faultRecordReply f ok))
    else none

/-- ATS_TRANSLATION_COMPLETION: the translation is cached in the ATC, or a PRI Page Request goes out. -/
def execAtsTranslationCompletion (f : Nat) (host : Option Nat) (s : State) : Host.Outcome State Fault Refusal :=
  runEvent s do
    let x ← s.openFault f
    if x.st == .atsWait && s.fwUp 2 then
      match host with
      | some h =>
        let page := x.va.toNat % 2 ^ 56 / 65536
        let a : AtcEntry := { ctx := x.ctx, page := page, host := h / 65536 * 65536 }
        some (({ s with atc := a :: s.atc.filter fun (t : AtcEntry) => !(t.ctx == x.ctx && t.page == page) } : State).setFault f x .walking)
      | none => some (s.setFault f x .priWait)
    else none

/-- PRI_PAGE_RESPONSE: the firmware retries the translation; an unsuccessful response delivers the fault. -/
def execPriPageResponse (f : Nat) (ok : Bool) (s : State) : Host.Outcome State Fault Refusal :=
  runEvent s do
    let x ← s.openFault f
    if x.st == .priWait && s.fwUp 2 then some (if ok then s.setFault f x .atsWait else s.deliverFault f x) else none

/-- A lane's access that is still to be performed goes to one of a set of host pages. -/
def LaneAcc.toHost (l : LaneAcc) (pages : List Nat) : Bool :=
  l.isOpen && (match l.tgt with
    | .host a => pages.any fun h => Nat.blt a (h + 65536) && Nat.blt h (a + l.n)
    | _ => false)

/-- ATS_INVALIDATE_REQUEST: it completes when every access that used the translations has been performed. -/
def execAtsInvalidateRequest (ctx page count : Nat) (s : State) : Host.Outcome State Fault Refusal :=
  runEvent s (
    let hit (t : AtcEntry) : Bool := t.ctx == ctx && Nat.ble page t.page && Nat.blt t.page (page + count)
    let pages := (s.atc.filter hit).map fun t => t.host
    let drains (t : Target) : Bool := match t with
      | .host a => pages.any fun h => Nat.ble h a && Nat.blt a (h + 65536)
      | _ => false
    if aany (fun _ o => o.ctx == ctx && o.lanes.any fun l => l.toHost pages) s.pend || aany (fun _ m => m.dest.any drains) s.mqs ||
        aany (fun _ t => t.held.any fun h => drains h.tgt) s.teams then none
    else some { s with atc := s.atc.filter fun t => !hit t })

end Sys2Proof.Machine
end

