-- ==== Sys2Proof/Machine/Pages.lean ====
section
/-!
DEFINITION. DEADRG (R329) and the retirement of a channel (R330, R331).
-/
namespace Sys2Proof.Machine

/-! ## DEADRG (R329) -/

/-- A range of physical addresses lies in one populated tier (R10). -/
def State.inOneTier (s : State) (pa n : Nat) : Bool :=
  Nat.ble (pa + n) (s.t1size * 2 ^ 30) ||
    (Nat.ble 0x100000000000 pa && Nat.ble (pa + n) (0x100000000000 + s.part.t2size * 2 ^ 30))

/-- Where a range of units lies in each memory port's capacity: its first byte there (R323). -/
def State.deadTargets (s : State) (lo hi : Nat) : List Target :=
  (List.range 16).filterMap fun m =>
    let a := max (4096 * lo) (0x100000000000 + s.part.below m * 2 ^ 30)
    if a < min (4096 * hi) (0x100000000000 + s.part.below (m + 1) * 2 ^ 30) then some (.dev a) else none

/-- The requests of a DEADRG reach every unit's home: no FAILED port has one (R340; log entry 71). -/
def State.needHomes (s : State) (lo hi : Nat) : Except Trap Unit :=
  match (s.deadTargets lo hi).find? fun g => s.carrier g == .failed with
  | some g => .error { cause := .uncorrectable, addr := BitVec.ofNat 64 g.key.2 }
  | none => .ok ()

/-- The range that DEADRG names. -/
def State.deadRange (s : State) (e : Env) (t : Team) (a b : Src) : Except Trap (Nat × Nat) := do
  checkLevel t .system
  checkScalars t [a, b]
  let pa := (srcScalar e t a).toNat
  let n := (srcScalar e t b).toNat
  needOperand (pa % 4096 == 0 && n % 4096 == 0 && n != 0 && s.inOneTier pa n)
  s.needHomes (pa / 4096) ((pa + n) / 4096)
  .ok (pa / 4096, (pa + n) / 4096)

/-- DEADRG. -/
def execDeadrg (k : DeadK) (d : Reg) (a b : Src) (s : State) : Host.Outcome State Fault Refusal :=
  runState s fun e t => do
    let r ← s.deadRange e t a b
    needOperand (isScaDst d)
    let done (s1 : State) (x : Nat) : State :=
      (s1.sendReqs (s.deadTargets r.1 r.2)).setAgent e.ag ((t.writeScalar d (BitVec.ofNat 64 x)).advance (1 + a.words + b.words))
    match k with
    | .dead => .ok (done (s.killUnits r.1 r.2) 0)
    | .live => .ok (done (s.reviveUnits r.1 r.2) 0)
    | .count => .ok (done s (deadCount s.dead r.1 r.2))

/-- A DEADRG waits for a unit whose channel is DRAINING, for requests parked in its range, and for its memory ports (R248, R330, R340). The
first 512 units of a range have some of every channel. -/
def State.deadHeld (s : State) (e : Env) (t : Team) (a b : Src) : Bool :=
  match s.deadRange e t a b with
  | .error _ => false
  | .ok (lo, hi) =>
    (s.retire != .none && (List.range (min 512 (hi - lo))).any fun i => s.drainingAt (.dev (4096 * (lo + i)))) ||
    aany (fun _ p => p.lanes.any fun m => m.st.isParked && (match m.tgt with
      | .dev pa => Nat.ble (4096 * lo) pa && Nat.blt pa (4096 * hi)
      | _ => false)) s.pend ||
    (s.deadTargets lo hi).any fun g => s.blocked g

/-! ## The records that wait for their homes -/

/-- The record that an instruction names cannot be read now, or its slot in the ring of its queue not be written (R248, R330, R340). -/
def State.recordHeld (s : State) (e : Env) (t : Team) (addr : W64) (reserve : Bool) : Bool :=
  (Nat.blt addr.toNat (2 ^ 56) && s.walkBlocked e.ctx addr.toNat) ||
  match s.laneTarget e t { write := false, atomic := false, n := 64 } addr, readRecord s e t addr with
  | .ok g, .ok ws => s.blocked g || (s.postStatus e.ctx (some e.region) e.die reserve (Task.parse ws) == 0 &&
      s.ringHeld e.ctx (Task.parse ws).region e.die)
  | .ok g, .error _ => s.blocked g
  | .error _, _ => false

/-- An instruction that accesses memory as it issues must wait for what it accesses. -/
def State.sideHeld (s : State) (e : Env) (t : Team) (i : Instr) : Bool :=
  match i with
  | .enq _ a => s.recordHeld e t (srcScalar e t a) false
  | .cont a => a != .reg .z && s.recordHeld e t (srcScalar e t a) true
  | .deadrg _ _ a b => s.deadHeld e t a b
  | _ => false

/-! ## Channel retirement (R330, R331) -/

/-- The donor range, the highest 4 GiB below T1SIZE, is dead. -/
def State.donorDead (s : State) : Bool :=
  let hi := s.t1size * 2 ^ 18
  Nat.ble 8 s.t1size && deadCount s.dead (hi - 2 ^ 20) hi == 2 ^ 20

/-- CHANNEL_RETIREMENT_REQUEST: accepted into COPYING, or refused. -/
def execChannelRetirementRequest (channel : Tagged Nat) (s : State) : Host.Outcome State Fault Refusal :=
  runEvent s
    (if s.fwUp 2 then
      (if s.retire = .none ∧ channel.val < 256 ∧ (s.retired.any fun e => e.1 == channel.val) = false ∧ s.donorDead = true then
        some ({ s with retire := .copying channel.val }.reply .retireStatus none channel.tag [0])
      else some (s.reply .retireStatus none channel.tag [1]))
    else s.hold 10 (.channelRetirementRequest channel))

/-- CHANNEL_COPY_DONE: the MEM firmware has copied every unit clean (R330, R359). -/
def execChannelCopyDone (s : State) : Host.Outcome State Fault Refusal :=
  runEvent s (match s.retire with
    | .copying c => if s.fwUp 2 then some { s with retire := .draining c } else none
    | _ => none)

/-- CHANNEL_SWITCH: the map epoch changes; the donor range is unpopulated, and T1SIZE is 4 GiB less. -/
def execChannelSwitch (s : State) : Host.Outcome State Fault Refusal :=
  runEvent s (match s.retire with
    | .draining c =>
      if s.fwUp 2 then some { s with retire := .none, retired := (c, s.t1size) :: s.retired, t1size := s.t1size - 4 } else none
    | _ => none)

end Sys2Proof.Machine
end

