-- ==== Sys2Proof/Machine/Swap.lean ====
section
/-!
DEFINITION. Pre-emption (R306 to R311, R163, R385, R386): the swap of a core's banks, its end, the spill of a bank to the cellar,
the load of one from it, and the retention of an empty bank (R364).
-/
namespace Sys2Proof.Machine

/-! ## The outgoing context (R307, R311, R66, R80, R162, R216) -/

/-- A group of an IDEMPOTENT region that has not reached a commit (R311). -/
def State.restarts (s : State) (g : Group) : Bool :=
  !g.commited && (match s.inForce g.ctx g.region with
    | some r => r.idem
    | none => false)

/-- A group killed as R291 and R292 give, with no report. -/
def State.killGroup (s : State) (gid : Nat) : State :=
  let dead (k : Nat) : Bool := k == gid
  ((((s.forgetTeams (s.teamsOf dead).contains).killCopies dead).killMqs dead).killPend dead).dropGroup gid false

/-- A group killed, its other copy with it (R312), and its instance placed again at the head of its region's queue on its die. -/
def State.restart (s : State) (gid : Nat) : State :=
  match alook gid s.groups with
  | none => s
  | some g =>
    let s1 : State := { s with launches := match alook g.launch s.launches with
      | some l => aset g.launch { l with left := l.left + 1 } s.launches
      | none => s.launches }
    let s2 := s1.pushEntry g.ctx g.region (dieOf g.place.core) { launch := g.launch, next := g.gix, hi := g.gix + 1, reserve := false, slot := 0 } true
    (match g.partner with
     | some p => s2.killGroup p
     | none => s2).killGroup gid

/-- A team, or the control thread, as a swap saves it: one that waits at a CURVE, a rendezvous, an emulated instruction, a FENCE or a QFENCE,
or for the order of its accesses, executes the instruction again (R66, R80, R216, R251); a barrier wait that a completion has ended has its
status (R230). -/
def Team.swapOut (t : Team) : Team :=
  match t.wait with
  | .curve _ _ _ | .rendezvous _ | .emul _ _ | .fence _ _ _ | .qfence _ | .order _ => { t with st := .ready, wait := .none, hint := 0 }
  | .barrier _ _ n d (some v) =>
    (({ t with st := .ready, wait := .none, hint := 0, arrived := none } : Team).writeScalar d (BitVec.ofNat 64 v)).advance n
  | _ => { t with hint := 0 }

/-- The groups in a bank of a core, by number. -/
def State.gidsAt (s : State) (core b : Nat) : List Nat := (s.groupsAt core b).map fun e => e.1

/-- A group as a swap puts it into the shadow bank, or takes it out (R119); one in CARVING stays so. -/
def Group.swapSt (g : Group) (out : Bool) : Group :=
  match g.st with
  | .carving => g
  | .running | .swapped => { g with st := if out then .swapped else .running }

/-- The groups in a bank of a core swapped out or in (R119). -/
def State.swapGroups (s : State) (core b : Nat) (out : Bool) : State :=
  { s with groups := amap (fun _ (g : Group) => if g.place = Place.bank core b then g.swapSt out else g) s.groups }

/-- The outgoing groups: restarted, or saved with their moves dropped, and with them the control thread. -/
def State.saveGroups (s : State) (core b : Nat) : State :=
  let s1 := (s.gidsAt core b).foldl (fun (st : State) gid => match alook gid st.groups with
    | some g => if st.restarts g then st.restart gid else if g.mark.isSome then st.dropMark gid else st
    | none => st) s
  let ids := s1.gidsAt core b
  { s1 with
    teams := amap (fun _ t => if !t.ctl && ids.contains t.gid then t.swapOut else t) s1.teams
    ctls := match ((s1.core core).bank b).ctx with
      | some ctx => amap (fun k t => if k = ctlKey core ctx then t.swapOut else t) s1.ctls
      | none => s1.ctls }.swapGroups core b true

/-- The time a handler has run, kept while its context is swapped out (R296): counted from the swap, or as a COUNT again. -/
def Bank.shiftHandler (b : Bank) (count : Nat) : Bank :=
  { b with handling := b.handling.map fun h => { h with since := count - h.since } }

/-- The outgoing bank: READY, or EMPTY where a kill has emptied it (R306, R386), or it was so before. -/
def CoreSt.outBank (x : CoreSt) : Bank :=
  let b := x.active
  if x.swapDue.isSome || b.st != .active then { Bank.init .empty with point := x.point, since := x.count }
  else { b.shiftHandler x.count with st := .ready, point := x.point, since := x.count }

/-- A swap may bring the other bank in: a READY one, or an EMPTY one for another context's groups, as SCHED decides (R306; DEDUCED, log entry
23). -/
def CoreSt.maySwap (x : CoreSt) : Bool :=
  x.settled && Nat.ble x.act 1 && (match (x.bank (1 - x.act)).st with
    | .ready => true
    | .empty => x.active.st == .active
    | .active | .spilling | .loading => false)

/-- The banks of a core exchanged. -/
def State.swapBanks (s : State) (core : Nat) : State :=
  let s1 := s.saveGroups core (s.core core).act
  let y := s1.core core
  let inc := y.bank (1 - y.act)
  let ready := inc.st == .ready
  let y2 : CoreSt := { (y.setBank y.act y.outBank).setBank (1 - y.act) { inc with st := if ready then .active else inc.st } with
    act := 1 - y.act, swap := some y.count, swapDue := none
    move := if inc.point = y.point || !ready then none else some { dest := inc.point, notice := y.count, ramping := false } }
  let s2 : State := { s1 with ctls := match y.active.ctx with
    | some ctx => if y.swapDue.isSome then adel (ctlKey core ctx) s1.ctls else s1.ctls
    | none => s1.ctls }
  ((s2.setCore core y2).swapGroups core (1 - y.act) false).correlate core 2

/-- PREEMPTION_SWAP: the ACTIVE and READY banks are exchanged. -/
def execPreemptionSwap (core : Nat) (s : State) : Host.Outcome State Fault Refusal :=
  runEvent s (if s.fwUp 1 && (s.core core).maySwap then some (s.swapBanks core) else none)

/-! ## The incoming context (R307, R154, R163, R385) -/

/-- A waiting team waits afresh (R170, R234); one at a barrier waits again for the phase it waited for (R385), or has its status where the
phase is complete by now. -/
def State.waitAgain (s : State) (tid : Nat) (count : Nat) : State :=
  match alook tid s.teams with
  | none => s
  | some t =>
    if t.st = .waiting then
      let s1 : State := { s with teams := aset tid { t with since := count } s.teams }
      match t.wait with
      | .barrier r _ _ _ _ => s1.modBar r fun b => { b with wq := (b.wq.filter fun k => k != tid) ++ [tid] }
      | _ => s1
    else s

/-- SWAP_RESUME: 96 cycles after the swap, and after any ramp, the incoming teams and control thread resume. -/
def execSwapResume (core : Nat) (s : State) : Host.Outcome State Fault Refusal :=
  runEvent s do
    let x := s.core core
    let c ← x.swap
    if x.move.isNone && Nat.ble (c + 96) x.count then
      let s1 := (s.setCore core { x.modActive (fun b => b.shiftHandler x.count) with swap := none }).checkBank core x.act
      some (((s1.activeTeams core).map fun e => e.1).foldl (fun (st : State) tid => st.waitAgain tid x.count) s1)
    else none

/-! ## The cellar (R306, R308, R309) -/

/-- A matrix operation or an access of the control thread of a bank that must end before the bank is copied (R216). -/
def State.bankBusy (s : State) (core b ctx : Nat) : Bool :=
  aany (fun _ m => m.begun && (s.gidsAt core b).contains m.gid) s.mqs ||
  aany (fun _ o => o.ag == .ctl core ctx) s.pend || aany (fun _ f => f.ag == .ctl core ctx) s.faults

/-- The tiles of a bank's groups, wholly in the cellar. -/
def State.spillTiles (s : State) (gids : List Nat) : State :=
  { s with tiles := amap (fun _ t => match t.gid with
      | some g => if gids.contains g then { t with cellar := t.allGranules } else t
      | none => t) s.tiles }

/-- A group put into a cellar image; one still in CARVING stays so (R119). -/
def Group.toCellar (g : Group) (k : Nat) : Group := { g with place := .cellar k, st := if g.st = .running then .swapped else g.st }

/-- The waits at commits of the partners of some groups' teams counted as those now stand (R313). -/
def State.recountPartners (s : State) (gids : List Nat) : State :=
  (gids.flatMap fun g => s.teamsOf fun k => k == g).foldl (fun (st : State) tid => st.recountPartner tid) s

/-- BANK_SPILL: a READY bank's state is copied to the cellar area, and the bank is EMPTY. -/
def execBankSpill (core : Nat) (s : State) : Host.Outcome State Fault Refusal :=
  runEvent s do
    let x := s.core core
    let b := 1 - x.act
    let k := x.bank b
    let ctx ← k.ctx
    if s.fwUp 1 && k.st == .ready && x.swap.isNone && !s.bankBusy core b ctx then
      let gids := s.gidsAt core b
      let img : Image := {
        core := core, ctx := ctx, cellar := true, bank := k, ctl := alook (ctlKey core ctx) s.ctls, loc := none, raw := []
        teams := [], groups := [], tiles := [], launches := [], decants := [], mqs := [] }
      let s1 := s.spillTiles gids
      some ({ s1 with
        images := aset s1.nextId img s1.images
        groups := amap (fun _ (g : Group) => if g.place = Place.bank core b then g.toCellar s1.nextId else g) s1.groups
        ctls := adel (ctlKey core ctx) s1.ctls
        nextId := s1.nextId + 1 }.setCore core (x.setBank b { Bank.init .empty with point := x.point, since := x.count }) |>.recountPartners gids)
    else none

/-- The next word of a team is a SETSHAPE (R163). -/
def State.atSetshapeWord (s : State) (tid : Nat) (t : Team) : Bool :=
  match s.codeWord (s.env (.team tid)) t t.pc with
  | .ok (some w) => w.toNat / 2 ^ 30 == 2 && bits w.toNat 29 24 == 0x11
  | _ => false

/-- A swapped group may return at another place (R163, R285). -/
def State.freePlace (s : State) (gid : Nat) (g : Group) : Bool :=
  !s.runsPlaced g && (s.teamsIn gid).any fun e => s.atSetshapeWord e.1 e.2

/-- A group that left a core may return on another at a point (R160, R163, R164). -/
def State.mayReturn (s : State) (left core cp lastCp : Nat) (gid : Nat) (g : Group) : Bool :=
  (if s.freePlace gid g then (s.groupPoints core g).contains cp else s.classT left == s.classT core && cp == lastCp) &&
  (dieOf left == dieOf core || !aany (fun _ t => t.gid == none && t.launch == g.launch && t.die == dieOf left) s.tiles) &&
  (match g.partner.bind fun k => alook k s.groups with
   | some p => p.place.core != core || (match p.place with
     | .bank _ _ => false
     | .cellar _ => true)
   | none => true)

/-- The point at which the groups of an image return on a core: of those that the core's class has (R60) and at which they may, the one that
SCHED chooses (R163); an image without a group keeps its point, where the class has it. -/
def State.returnPoint (s : State) (left core lastCp : Nat) (gs : List (Nat × Group)) : Option Nat :=
  let ps := (admissible 0 5 0 5 (s.classT core)).filter fun cp => gs.all fun e => s.mayReturn left core cp lastCp e.1 e.2
  if gs.isEmpty && ps.contains lastCp then some lastCp else ps[Config.choice s.freeN 8 % ps.length]?

/-- A group and its tiles put into a bank of a core; its saved matrix operations go with it (R216, R285). -/
def State.bringIn (s : State) (gid core b : Nat) : Option State :=
  match alook gid s.groups with
  | none => some s
  | some g => ({ s with
      groups := aset gid { g with place := .bank core b } s.groups
      tiles := amap (fun _ t => if t.gid = some gid then { t with die := dieOf core } else t) s.tiles
      mqs := amap (fun _ m => if m.gid = gid then { m with core := core, bank := b } else m) s.mqs } : State).rebaseGroup gid (dieOf core)

/-- An EMPTY bank of a core filled from a cellar image (R306), where the core's barrier store has room for its entries (R217). -/
def State.loadBank (s : State) (core image : Nat) : Option State := do
  let i ← alook image s.images
  let x := s.core core
  let b := 1 - x.act
  let gs := s.groups.filter fun e => e.2.place == .cellar image
  let cp ← s.returnPoint i.core core i.bank.point gs
  if i.cellar && (x.bank b).st == .empty && x.swap.isNone && s.fwUp 1 && Nat.blt core Config.nCores && x.active.ctx != some i.ctx &&
      Nat.ble (s.entriesHeld core + sumOf (fun e => e.2.nb) gs) Config.barEntries then do
    let s1 ← gs.foldlM (fun (st : State) e => st.bringIn e.1 core b) s
    some ({ s1 with
      images := adel image s1.images
      ctls := match i.ctl with
        | some t => aset (ctlKey core i.ctx) t s1.ctls
        | none => s1.ctls }.setCore core (x.setBank b { i.bank with st := .ready, point := cp, since := x.count, retained := false }) |>.recountPartners
        (gs.map fun (e : Nat × Group) => e.1) |>.closeContext i.ctx)
  else none

/-- BANK_LOAD: an EMPTY bank is filled from a cellar image. -/
def execBankLoad (core image : Nat) (s : State) : Host.Outcome State Fault Refusal := runEvent s (s.loadBank core image)

/-- BANK_RETENTION: a bank EMPTY for 1 ms (R364). -/
def execBankRetention (core bank : Nat) (s : State) : Host.Outcome State Fault Refusal :=
  runEvent s (
    let x := s.core core
    let k := x.bank bank
    if bank < 2 ∧ core < Config.nCores ∧ k.st = .empty ∧ k.retained = false ∧ k.since + 1000 * Config.mhz x.point ≤ x.count then
      some (s.setCore core (x.setBank bank { k with retained := true }))
    else none)

/-- CORRELATION_RECORD_PERIODIC (R362): SCHED's record of a core with a context active, 1 ms after the last. -/
def execCorrelationRecordPeriodic (core : Nat) (s : State) : Host.Outcome State Fault Refusal :=
  runEvent s
    (if s.fwUp 1 ∧ core < Config.nCores ∧ (s.core core).active.ctx.isSome = true ∧ agetD 0 core s.fw.corrAt + 1000 ≤ s.fw.now then
      some (({ s with fw := { s.fw with corrAt := aset core s.fw.now s.fw.corrAt } } : State).correlate core 3)
    else none)

end Sys2Proof.Machine
end

