-- ==== Sys2Proof/Machine/Redundant.lean ====
section
/-!
DEFINITION. The commit comparison of REDUNDANT groups (R312, R313).
-/
namespace Sys2Proof.Machine

/-! ## The signature (R312) -/

/-- One bit of the CRC-64: shifted out at the top, not reflected. -/
def crcBit (c : Nat) : Nat := if 2 ^ 63 ≤ c then Nat.xor (2 * c % 2 ^ 64) 0x42F0E1EBA9EA3693 else 2 * c

/-- A byte taken into the CRC-64. -/
def crcByte (c : Nat) (b : Byte) : Nat := crcBit (crcBit (crcBit (crcBit (crcBit (crcBit (crcBit (crcBit (Nat.xor c (b.toNat * 2 ^ 56)))))))))

/-- The 17-byte tuple of one aligned unit that a write touches: address, data zero outside the mask, and mask. -/
def unitTuple (w : HeldWrite) (u : Nat) : List Byte :=
  let covers (j : Nat) : Bool := Nat.ble w.va (8 * u + j) && Nat.blt (8 * u + j) (w.va + w.bytes.length)
  let mask := (List.range 8).foldl (fun n j => if covers j then n + 2 ^ j else n) 0
  leBytes (8 * u) 8 ++ ((List.range 8).map fun j => if covers j then w.bytes.getD (8 * u + j - w.va) 0 else 0) ++ [BitVec.ofNat 8 mask]

/-- The tuples of a write, by ascending unit. -/
def heldTuples (w : HeldWrite) : List Byte :=
  if w.bytes.isEmpty then []
  else
    let lo := w.va / 8
    let hi := (w.va + w.bytes.length - 1) / 8
    (List.range (hi + 1 - lo)).flatMap fun i => unitTuple w (lo + i)

/-- The signature of a stream of held writes. -/
def signature (held : List HeldWrite) : Nat := held.foldl (fun c w => (heldTuples w).foldl crcByte c) 0

/-! ## The pair (R312, R313) -/

/-- What a commit is compared with. -/
structure Pair where
  tid0 : Nat
  tid1 : Nat
  t0   : Team
  t1   : Team
  deriving DecidableEq, Repr

/-- The instruction at which a team waits for its partner. -/
def Team.commitWait (t : Team) : Option Instr :=
  match t.st, t.wait with
  | .waiting, .commit i _ => some i
  | _, _ => none

/-- A team's group is copy 0. -/
def State.isCopy0 (s : State) (t : Team) : Bool :=
  match alook t.gid s.groups with
  | some g => g.copyIdx == 0
  | none => true

/-- A team and its partner, copy 0 first. -/
def State.pairAt (s : State) (tid : Nat) : Option Pair := do
  let t ← alook tid s.teams
  let k ← s.partnerTeam tid
  let u ← alook k s.teams
  some (if s.isCopy0 t then { tid0 := tid, tid1 := k, t0 := t, t1 := u } else { tid0 := k, tid1 := tid, t0 := u, t1 := t })

/-- An engine operation of a team has not landed every write (R312). -/
def State.engineOwes (s : State) (tid : Nat) : Bool :=
  aany (fun _ c => c.ag == .team tid) s.copies || aany (fun _ m => (m.parts.any fun p => p.tid == tid) && !m.dest.isEmpty) s.mqs

/-- Both teams wait at the same point. -/
def State.samePoint (s : State) (p : Pair) (i : Instr) : Bool :=
  p.t1.commitWait == some i && s.origPc p.t0.gid p.t0.pc == s.origPc p.t1.gid p.t1.pc

/-! ## The outcome (R313) -/

/-- An earlier load of a team is still open on bytes that it has written since and holds: it must read them before they are released (R237). -/
def State.loadBehind (s : State) (tid : Nat) (t : Team) : Bool :=
  t.held.any fun h => aany (fun k o => k < h.seq && o.ag == .team tid && o.lanes.any fun l =>
    l.isOpen && overlap l.tgt h.tgt l.n h.bytes.length) s.pend

/-- A commit that waits for open accesses of its team before it issues (R240, R241), and whether it is a release on a tile. -/
def commitOrder (i : Instr) : Option Bool :=
  match i with
  | .enq _ _ | .cont _ => some false
  | .atom _ _ _ obs | .atom64 _ _ _ obs => some (obs != 0)
  | _ => none

/-- A team's part of a comparison can be made now. -/
def State.commitReady (s : State) (tid : Nat) (t : Team) (i : Instr) : Bool :=
  s.mayIssue tid && !s.engineOwes tid && !s.loadBehind tid t && !(t.held.any fun h => s.blocked h.tgt) &&
    !s.sideHeld (s.env (.team tid)) t i && (commitOrder i).all fun rel => (s.stillOpen (.team tid) t rel).isEmpty

/-- One held write made visible, its request taken over the port that carries it; one that a FAILED port cannot deliver is reported by the
ERR firmware (R339, R340). -/
def State.releaseOne (s : State) (a : Agent) (rels : List Release) (w : HeldWrite) : State :=
  if s.carrier w.tgt = .failed then s.report .errReport 1 [BitVec.ofNat 64 w.va]
  else (s.writeAs w.seq a false false rels w.tgt w.bytes).sendOn w.tgt none

/-- The held writes of copy 0 made visible together, in program order (R251), and both streams started again. -/
def State.releaseHeld (s : State) (p : Pair) : State :=
  let s1 : State := { s with teams := aset p.tid0 { p.t0 with held := [] } (aset p.tid1 { p.t1 with held := [] } s.teams) }
  let a : Agent := .team p.tid0
  p.t0.held.foldl (fun (st : State) w => st.releaseOne a (p.t0.fences.map fun f => s.party a f.1 (w.seq :: s.closure f.2)) w) s1

/-- A place of a group's team as the other copy's team has it: the same word of its own residual, or of the original code. -/
def State.placeIn (s : State) (src dst : Nat) (l : Loc) : Loc :=
  match l with
  | .code a => .code a
  | .resid k o =>
    match alook src s.groups, alook dst s.groups with
    | some g, some h => match (g.residuals.zip h.residuals).find? fun e => e.1 == k with
      | some (_, j) => if j = 0 then .code (s.origPc src l) else .resid j o
      | none => .code (s.origPc src l)
    | _, _ => .code (s.origPc src l)

/-- A team stopped with REDUNDANCY at the place of a commit, what it held discarded; for a team STOPPED already the error goes to its
pending-trap slot (R297). -/
def State.redundancyAt (s : State) (tid : Nat) (pc : Loc) (count : Option Nat) : State :=
  match alook tid s.teams with
  | none => s
  | some t =>
    let s1 : State := { s with teams := aset tid { t with held := [] } s.teams }
    if t.st = .stopped then s1.deliver (.team tid) { cause := .redundancy, flag := none, mask := t.live, addr := 0, oppc := 0 }
    else s1.stopTeam tid { cause := .redundancy, pc := some pc, count := count }

/-- Both teams of a pair stopped with REDUNDANCY at the commit at which one of them waits, whose wait expires at a COUNT or is compared
(R313). -/
def State.redundancyStop (s : State) (p : Pair) (tid : Nat) (count : Option Nat) : State :=
  let other := if tid = p.tid0 then p.tid1 else p.tid0
  match alook tid s.teams, alook other s.teams with
  | some t, some u => (s.redundancyAt tid t.pc count).redundancyAt other (s.placeIn t.gid u.gid t.pc) none
  | _, _ => s

/-- A group with its partner set. -/
def State.setPartner (s : State) (gid : Nat) (p : Option Nat) : State :=
  match alook gid s.groups with
  | some g => { s with groups := aset gid { g with partner := p } s.groups }
  | none => s

/-- A team READY again, to take its commit. -/
def Team.goCommit (t : Team) : Team := { t with st := .ready, wait := .none }

/-- A commit's effect once, for copy 0; a trap of it stops both teams. `f` is the other copy's team after it. -/
def State.commitBy (s : State) (p : Pair) (f : State → Env → Team → Except Trap State) (other : State → Team → State) : State :=
  let a : Agent := .team p.tid0
  match s.agent a, alook p.tid1 s.teams with
  | some t0, some t1 =>
    let s1 := (s.setAgent a t0.goCommit).setAgent (.team p.tid1) t1.goCommit
    match f s1 (s1.env a) t0.goCommit with
    | .ok s2 => other s2 t1.goCommit
    | .error x => (s1.stopTeam p.tid0 x).stopTeam p.tid1 x
  | _, _ => s

/-- The value that copy 0 holds in a destination, given to the other copy (R313). -/
def State.giveResult (s : State) (p : Pair) (t1 : Team) (d : Reg) (n : Nat) : State :=
  match alook p.tid0 s.teams with
  | some t0 => s.setAgent (.team p.tid1) ((t1.writeScalar d (regScalar (s.env (.team p.tid0)) t0 d)).advance n)
  | none => s

/-- An atomic's lanes in the other copy: its own tiles take the atomic too; its results come with copy 0's (R313). -/
def State.twinAtomic (s : State) (p : Pair) (o : AtomOp) (wide : Bool) (d : Reg) (a : Src) (obs : BitVec 7) (op : Nat) (t1 : Team) : State :=
  let e := s.env (.team p.tid1)
  let n := 1 + a.words
  let ls := lanesTgt s e t1 { write := true, atomic := true, n := if wide then 8 else 4 } (memLanes t1 (isVecDst d)) (laneAddr e t1 a (.reg .z))
  match alook op s.pend with
  | none => s.setAgent (.team p.tid1) (t1.countOff.advance n)
  | some x =>
    let s1 := (s.performTiles (s.atomOp e t1 o wide d obs ls)).1
    let u := (s1.agent e.ag).getD t1
    let t2 : Team := { u with own := u.own ++ [op], hb := if obs = 0 then u.hb else u.hb ++ [op] }
    { s1 with pend := aset op { x with twin := some p.tid1 } s1.pend }.setAgent (.team p.tid1) (t2.countOn.advance n)

/-- The OPEN entry that a team's barrier id names. -/
def State.barOf (s : State) (tid : Nat) (t : Team) (a : Src) : Option BarRef :=
  s.barRef (s.env (.team tid)) (srcScalar (s.env (.team tid)) t a).toNat

/-- The phase of the entry that a team's barrier id names. -/
def State.barPhase (s : State) (tid : Nat) (t : Team) (a : Src) : Nat :=
  match (s.barOf tid t a).bind s.barAt with
  | some b => b.phase
  | none => 0

/-- The second copy's part of an arrival (R236): the copies arrive as one where the id names one entry, and each at its own die's where a
die-scope id names two (DESIGN CHOICE, log entry 66). -/
def State.arriveTwin (s : State) (p : Pair) (a : Src) : State :=
  match s.barOf p.tid1 p.t1 a with
  | none => s
  | some r =>
    if s.barOf p.tid0 p.t0 a = some r then s.putBar r fun b => b.alsoArrived p.tid0 p.tid1
    else s.modBar r fun b => b.arrive p.tid1 p.t1.released

/-- A commit that both copies have reached with equal signatures. -/
def State.commitBoth (s : State) (p : Pair) (i : Instr) : State :=
  let other : Agent := .team p.tid1
  match i with
  | .exit => (s.reissue (.team p.tid0) exitForm).reissue other exitForm
  | .cont a => s.commitBy p (contForm a) fun s2 t1 => s2.endGroup t1.gid
  | .enq d a => s.commitBy p (enqForm d a) fun s2 t1 => s2.giveResult p t1 d (1 + a.words)
  | .strel w x a obs =>
    let s1 := s.setPartner p.t0.gid none
    (s1.commitBy p (strelForm w x a obs) fun s2 t1 => s2.setAgent other (t1.advance (1 + x.words + a.words))).setPartner p.t0.gid (some p.t1.gid)
  | .atom o d a obs => s.commitBy p (atomForm o false d a obs) fun s2 t1 => s2.twinAtomic p o false d a obs s.nextId t1
  | .atom64 o d a obs => s.commitBy p (atomForm o true d a obs) fun s2 t1 => s2.twinAtomic p o true d a obs s.nextId t1
  | .barv wait d a =>
    s.commitBy p (barvForm wait d a) fun s2 t1 =>
      let s3 := s2.arriveTwin p a
      if wait then s3.setAgent other { t1 with arrived := some (s.barPhase p.tid1 p.t1 a) } else s3.giveResult p t1 d (1 + a.words)
  | _ => s

/-- Both groups have reached a commit; EXIT is none (R311). -/
def State.reached (s : State) (p : Pair) (i : Instr) : State := if i = .exit then s else (s.committed p.t0.gid).committed p.t1.gid

/-- REDUNDANT_COMMIT_COMPARE: both copies have reached the commit. -/
def execRedundantCommitCompare (tid : Nat) (s : State) : Host.Outcome State Fault Refusal :=
  runEvent s do
    let p ← s.pairAt tid
    let i ← p.t0.commitWait
    if s.samePoint p i && s.commitReady p.tid0 p.t0 i && s.commitReady p.tid1 p.t1 i then
      some (if signature p.t0.held = signature p.t1.held then
          ((s.reached p i).releaseHeld p).commitBoth p i
        else s.redundancyStop p p.tid0 none)
    else none

/-- The wait at a commit has expired; it counts only while the partner is resident and not STOPPED. -/
def State.redundantTimeout (s : State) (tid : Nat) : Option State := do
  let t ← alook tid s.teams
  let p ← s.pairAt tid
  match t.st, t.wait with
  | .waiting, .commit _ none =>
    if s.expired tid t.since then some (s.redundancyStop p tid (some (s.expiry tid t.since))) else none
  | _, _ => none

/-- REDUNDANT_WAIT_TIMEOUT. -/
def execRedundantWaitTimeout (tid : Nat) (s : State) : Host.Outcome State Fault Refusal := runEvent s (s.redundantTimeout tid)

end Sys2Proof.Machine
end

