-- ==== Sys2Proof/Machine/Ckpt.lean ====
section
/-!
DEFINITION. Context images: CKPT and its ends (R314, R315), the restore of an image (R363), the loss of power (R316), and reset
(R60, R367).
-/
namespace Sys2Proof.Machine

/-! ## CKPT (R314) -/

/-- The 64-byte lines of a buffer, as the control thread would write them (R180). -/
def State.bufLines (s : State) (e : Env) (t : Team) (addr : W64) (lines : Nat) : List LaneTgt :=
  lanesTgt s e t { write := true, atomic := false, n := 64 } (List.range lines) fun i => addr + BitVec.ofNat 64 (64 * i)

/-- CKPT: the buffer's address is checked, and the core is held until the image is written or the wait outlasts the watchdog. -/
def execCkpt (d : Reg) (a b : Src) (s : State) : Host.Outcome State Fault Refusal :=
  runState s fun e t => do
    needCtl t
    checkScalars t [a, b]
    needOperand (isScaDst d)
    let addr := srcScalar e t a
    let ls := s.bufLines e t addr 1
    match firstErr ls with
    | some x => .error (addrTrap ls x false)
    | none =>
      let k : CkptSt := { ctx := e.ctx, d := d, addr := addr, size := (srcScalar e t b).toNat, since := (s.core e.core).count }
      let t1 : Team := { t with st := .waiting, wait := .ckpt (1 + a.words + b.words) }
      .ok ((s.setAgent e.ag t1).modCore e.core fun x => { x with ckpt := some k })

/-- The groups of a context in the banks of a core, by number. -/
def State.ckptGroups (s : State) (core ctx : Nat) : List Nat :=
  (afilter (fun _ g => g.ctx == ctx && (g.place == Place.bank core 0 || g.place == Place.bank core 1)) s.groups).map fun e => e.1

/-- Flags, matrix operations and copies of some groups are still open. -/
def State.groupsBusy (s : State) (gids : List Nat) : Bool :=
  aany (fun _ t => !t.ctl && gids.contains t.gid && !t.flags.isEmpty) s.teams || aany (fun _ m => gids.contains m.gid) s.mqs ||
  aany (fun _ c => gids.contains c.gid) s.copies

/-- The control thread goes on after its CKPT with a status and a number of bytes. -/
def State.endCkpt (s : State) (core : Nat) (k : CkptSt) (status bytes : Nat) : State :=
  let s1 := s.modCore core fun x => { x with ckpt := none }
  match s1.agent (.ctl core k.ctx) with
  | some t =>
    match t.wait with
    | .ckpt n => s1.setAgent (.ctl core k.ctx)
        ((({ t with st := .ready, wait := .none } : Team).writeScalar k.d (BitVec.ofNat 64 (status * 2 ^ 56 + bytes % 2 ^ 56))).advance n)
    | _ => s1
  | none => s1

/-! ## The image (R315, R309) -/

/-- The size of an image of some groups: a header, and a body that fits what the dispatcher reserved (R309). The spec gives no
size: a free value of each image below that bound (log entry 6). -/
def State.imageSize (s : State) (gids : List Nat) : Nat :=
  let room := gids.foldl (fun n k => match alook k s.groups with
    | some g => n + g.foot + g.l0 + g.l1 + 16384
    | none => n) 64
  64 + (Config.value s.freeN (3 + 2 ^ 32 * s.nextId)).toNat % (room - 63)

/-- PKGID`[39:8]` (R12, R315). -/
def State.pkgMark (s : State) : Nat := 0x03 * 2 ^ 24 + 0x0384 * 2 ^ 8 + s.part.stepping.toNat

/-- The header of an image (R315). -/
def State.imageHeader (s : State) (core ctx size ngrp : Nat) (crc : W32) : List W64 :=
  let w (n : Nat) : W64 := BitVec.ofNat 64 n
  [w (0x01 * 2 ^ 32 + 0x00544B43), w (s.fw.gen + 1), w (ctx * 2 ^ 48 + core * 2 ^ 32 + s.pkgMark), w size, w ngrp,
   crc.setWidth 64, 0, 0]

/-- The bytes of an image: its header, with the CRC of the whole, and a body that the spec does not lay out, free for each image. -/
def State.imageBytes (s : State) (core ctx size ngrp : Nat) : List Byte :=
  let body : List Byte := (List.range (size - 64)).map fun i => (Config.value s.freeN (16 + i + 2 ^ 32 * s.nextId)).setWidth 8
  let crc := crc32c (wordBytes (s.imageHeader core ctx size ngrp 0) ++ body)
  wordBytes (s.imageHeader core ctx size ngrp crc) ++ body

/-- A team, or a control thread, as an image holds it: it executes again the instruction it waited at, or that the MEM firmware repairs a
fault of; the accesses of the run that wrote the image are no part of it. -/
def Team.forImage (t : Team) : Team :=
  let t1 := match t.trap with
    | some x => if x.atFw then t.resume else t
    | none => t
  let t2 := { t1.swapOut with hint := 0, hb := [], own := [], seen := [], latent := [], fences := [], posts := [] }
  match t2.st with
  | .waiting | .parked => { t2 with st := .ready, wait := .none }
  | _ => t2

/-- The bank as CKPT's image holds it: the trap being handled stands at the head of the queue again. -/
def State.bankForImage (s : State) (b : Bank) : Bank :=
  let again := match b.handling with
    | some h => if !b.trapQ.contains h.tid && (match alook h.tid s.teams with
        | some t => t.st == .stopped
        | none => false) then [h.tid] else []
    | none => []
  { b with handling := none, trapQ := again ++ b.trapQ }

/-- The image of some groups of a context on a core, with its bank, and the control thread where a swap has saved it (R310). -/
def State.imageOf (s : State) (core ctx : Nat) (b : Bank) (ctl : Option Team) (gids : List Nat) (loc : Option W64) (raw : List Byte) : Image :=
  let gs := afilter (fun k _ => gids.contains k) s.groups
  let res := gs.flatMap fun (e : Nat × Group) => e.2.residuals
  { core := core, ctx := ctx, cellar := false, loc := loc, raw := raw, ctl := ctl.map Team.forImage
    bank := { b with st := .ready, deque := b.deque.map fun e => (e.1, []) }
    teams := (afilter (fun _ (t : Team) => !t.ctl && gids.contains t.gid) s.teams).map fun (e : Nat × Team) => (e.1, e.2.forImage)
    groups := amap (fun _ (g : Group) => { g with mark := none, partner := none, hb := [] }) gs
    tiles := amap (fun _ (t : Tile) => { t with rels := [] }) (afilter (fun _ (t : Tile) => match t.gid with
      | some g => gids.contains g
      | none => false) s.tiles)
    launches := amap (fun _ (l : Launch) => { l with hb := [] }) (afilter (fun k _ => gs.any fun (e : Nat × Group) => e.2.launch == k) s.launches)
    decants := afilter (fun k _ => res.contains k) s.decants
    mqs := afilter (fun _ (m : MqOp) => gids.contains m.gid) s.mqs }

/-- A CKPT whose buffer cannot be written: the control thread traps at it (R314). -/
def State.failCkpt (s : State) (core : Nat) (k : CkptSt) (x : Trap) : State :=
  let s1 := s.modCore core fun y => { y with ckpt := none }
  match s1.agent (.ctl core k.ctx) with
  | some t => (s1.setAgent (.ctl core k.ctx) { t with st := .ready, wait := .none }).trapAt (.ctl core k.ctx) x
  | none => s1

/-- A byte string written to the lines of a buffer by the control thread. -/
def State.writeLines (s : State) (op : Nat) (a : Agent) : List LaneTgt → List Byte → State
  | l :: r, bs =>
    match l.r with
    | .ok g => ((s.writeAs op a false false [] g (bs.take 64)).sendOn g none).writeLines op a r (bs.drop 64)
    | .error _ => s.writeLines op a r (bs.drop 64)
  | [], _ => s

/-- Lines that cannot be written yet: their walk, a home or a port makes the write wait. -/
def State.linesHeld (s : State) (ctx : Nat) (ls : List LaneTgt) : Bool :=
  ls.any fun l => s.walkBlocked ctx l.va.toNat || (match l.r with
    | .ok g => s.blocked g
    | .error _ => false)

/-- The image written, with status 0. -/
def State.writeImage (s : State) (core : Nat) (k : CkptSt) (t : Team) (size : Nat) (gids : List Nat) : State :=
  let ls := s.bufLines (s.env (.ctl core k.ctx)) t k.addr ((size + 63) / 64)
  match firstErr ls with
  | some x => s.failCkpt core k (addrTrap ls x false)
  | none =>
    let raw := s.imageBytes core k.ctx size gids.length
    let img := s.imageOf core k.ctx (s.bankForImage (s.core core).active) none gids (some k.addr) raw
    let s1 := (s.useAll (s.env (.ctl core k.ctx)) (ls.map fun l => l.va)).writeLines s.nextId (.ctl core k.ctx) ls raw
    ({ s1 with images := aset s.nextId img s1.images, nextId := s.nextId + 1, fw := { s1.fw with gen := s1.fw.gen + 1 } } : State).endCkpt core k 0 size

/-- CKPT_IMAGE_WRITE: what the held teams had open has completed. -/
def execCkptImageWrite (core : Nat) (s : State) : Host.Outcome State Fault Refusal :=
  runEvent s do
    let k ← (s.core core).ckpt
    let t ← s.agent (.ctl core k.ctx)
    let gids := s.ckptGroups core k.ctx
    if s.groupsBusy gids then none
    else
      let size := s.imageSize gids
      if k.size < size then some (s.endCkpt core k 1 size)
      else if s.linesHeld k.ctx (s.bufLines (s.env (.ctl core k.ctx)) t k.addr ((size + 63) / 64)) then none
      else some (s.writeImage core k t size gids)

/-- The wait has outlasted the watchdog of the region. -/
def State.ckptTimeout (s : State) (core : Nat) : Option State := do
  let k ← (s.core core).ckpt
  if k.since + s.wdogOf (.ctl core k.ctx) ≤ (s.core core).count then some (s.endCkpt core k 2 0) else none

/-- CKPT_TIMEOUT. -/
def execCkptTimeout (core : Nat) (s : State) : Host.Outcome State Fault Refusal := runEvent s (s.ckptTimeout core)

/-! ## The restore of an image (R363, R315) -/

/-- A place with residuals renumbered. -/
def Loc.renum (l : Loc) (n : Nat) : Loc :=
  match l with
  | .code a => .code a
  | .resid k o => .resid (k + n) o

/-- A target with tiles renumbered. -/
def Target.renum (t : Target) (n : Nat) : Target :=
  match t with
  | .tile k o => .tile (k + n) o
  | x => x

/-- A barrier name with its group renumbered. -/
def BarRef.renum (r : BarRef) (n : Nat) : BarRef :=
  match r with
  | .group g i => .group (g + n) i
  | .shared k => .shared k

/-- A team with its group and residuals renumbered. -/
def Team.renum (t : Team) (n : Nat) : Team :=
  { t with
    gid := t.gid + n
    pc := t.pc.renum n
    clause := { t.clause with hdr := t.clause.hdr.map fun l => l.renum n, fin := t.clause.fin.map fun l => l.renum n }
    stack := t.stack.map fun k => { k with pc := k.pc.renum n }
    trapTok := { t.trapTok with pc := t.trapTok.pc.renum n }
    loop := t.loop.map fun q => { q with start := q.start.renum n }
    trap := t.trap.map fun x => { x with pc := x.pc.renum n } }

/-- A barrier with its teams renumbered, and the accesses of the old run forgotten. -/
def Barrier.renum (b : Barrier) (n : Nat) : Barrier :=
  { b with arr := b.arr.map fun k => k + n, wq := [], rel := [], done := [] }

/-- A group put into a cellar image, its teams and residuals renumbered. -/
def Group.renum (g : Group) (image n : Nat) : Group :=
  { g with
    place := .cellar image, st := if g.st = .running then .swapped else g.st
    teams := g.teams.map fun k => k + n, residuals := g.residuals.map fun k => k + n
    bars := g.bars.map fun (e : Nat × Barrier) => (e.1, e.2.renum n) }

/-- A matrix operation renumbered. -/
def MqOp.renum (m : MqOp) (n : Nat) : MqOp :=
  { m with
    gid := m.gid + n, a := m.a + n, b := m.b + n, dest := m.dest.map fun t => t.renum n, after := []
    parts := m.parts.map fun p => { p with tid := p.tid + n, gid := p.gid + n, acc := p.acc + n } }

/-- A bank renumbered: its trap queue, what its control thread handles, and what stands before its queues' operations. -/
def Bank.renum (b : Bank) (n : Nat) : Bank :=
  { b with
    trapQ := b.trapQ.map fun k => k + n
    handling := b.handling.map fun h => { h with tid := h.tid + n, gid := h.gid + n }
    joins := b.joins.map fun j => (j.1, j.2.map fun k => k + n) }

/-- Every key of a list moved on by n. -/
def shiftKeys {α : Type} (n : Nat) (m : List (Nat × α)) : List (Nat × α) := m.map fun e => (e.1 + n, e.2)

/-- The bytes of residual and back-map that an image holds. -/
def Image.residualBytes (i : Image) : Nat := sumOf (fun (e : Nat × DecEntry) => 8 * e.2.words.length) i.decants

/-- An image's contents put into the machine as a cellar image under new numbers, each moved on by `nextId`; its residuals go into the cache
of the die on which it is to be loaded, where there is room (R286). -/
def State.unpack (s0 : State) (core : Nat) (i : Image) : Option (Nat × State) :=
  (s0.roomFor (dieOf core) i.residualBytes).map fun s =>
  let n := s.nextId
  let k := 2 * n
  let img : Image := {
    core := i.core, ctx := i.ctx, cellar := true, bank := i.bank.renum n, ctl := i.ctl.map fun t => t.renum n, loc := none
    raw := [], teams := [], groups := [], tiles := [], launches := [], decants := [], mqs := [] }
  let ls := i.launches.foldl (fun (m : List (Nat × Launch)) (e : Nat × Launch) =>
    let back := acount (fun _ (g : Group) => g.launch == e.1) i.groups
    aset e.1 (match alook e.1 m with
      | some l => { l with live := l.live + back }
      | none => { e.2 with left := 0, live := back }) m) s.launches
  (k, { s with
    nextId := k + 1
    images := aset k img s.images
    launches := ls
    teams := s.teams ++ shiftKeys n (amap (fun _ (t : Team) => t.renum n) i.teams)
    groups := s.groups ++ shiftKeys n (amap (fun _ (g : Group) => g.renum k n) i.groups)
    tiles := s.tiles ++ shiftKeys n (amap (fun _ (t : Tile) => { t with gid := t.gid.map fun g => g + n, cellar := t.allGranules }) i.tiles)
    decants := s.decants ++ shiftKeys n (amap (fun _ (e : DecEntry) => { e with st := .stale, die := dieOf core }) i.decants)
    mqs := s.mqs ++ shiftKeys n (amap (fun _ (m : MqOp) => m.renum n) i.mqs) })

/-- The bytes at the place that a request names: an offset in the keep store, or an address of a context (log entry 25). -/
def State.imageByte (s : State) (p : ImagePlace) (i : Nat) : Option Byte :=
  if p.keep then some (sget s.fw.store (p.addr + i))
  else
    match s.access { ctx := p.ctx, level := .system, write := false } (p.addr + i) with
    | .ok t => some (s.tgtByte t 0)
    | .error _ => none

/-- n bytes from there on. -/
def State.imageRead? (s : State) (p : ImagePlace) (n : Nat) : Option (List Byte) := (List.range n).mapM (s.imageByte p)

/-- The image that a part of this PKGID has written with that body and generation, under the header that stands before it. -/
def State.imageNamed (s : State) (ctx : Nat) (bs : List Byte) : Option Image :=
  (s.images.find? fun e => !e.2.cellar && e.2.raw.drop 64 == bs.drop 64 && (e.2.raw.drop 8).take 8 == (bs.drop 8).take 8).map fun e =>
    { e.2 with ctx := ctx }

/-- The restored groups' barrier entries fit the budgets of their regions (R218). -/
def State.entriesFit (s : State) (image : Nat) : Bool :=
  s.groups.all fun e => e.2.place != .cellar image || s.barsFit e.2.ctx e.2.region 0

/-- The state after an image's contents fill an EMPTY bank of a core; none where they cannot. -/
def State.restoreImage (s : State) (core ctx : Nat) (bs : List Byte) : Option State := do
  let i ← s.imageNamed ctx bs
  let r ← s.unpack core i
  if r.2.entriesFit r.1 then r.2.loadBank core r.1 else none

/-- What the bytes at a place are: no image that restores here (its MAGIC, VER, PKGID, size or CRC fails), or an image's bytes. -/
def State.imageCheck (s : State) (p : ImagePlace) : Option (List Byte) := do
  let h ← s.imageRead? p 64
  let w := words64 h
  let n := (w.getD 3 0).toNat
  if (w.getD 0 0).toNat = 0x01 * 2 ^ 32 + 0x00544B43 ∧ (w.getD 2 0).toNat % 2 ^ 32 = s.pkgMark ∧ 64 ≤ n then do
    let bs ← s.imageRead? p n
    if crc32c (bs.take 40 ++ leBytes ((w.getD 5 0).toNat / 2 ^ 32 * 2 ^ 32) 8 ++ bs.drop 48) = (w.getD 5 0).setWidth 32 then some bs else none
  else none

/-- IMAGE_RESTORE: SCHED fills an EMPTY bank from the image at a place by LOADING, or refuses it: an image that its header shows to be
bad (R315), of a context that is not there, or that no EMPTY bank takes. A body that this part's run has not written has no meaning in the
model, and is refused too (log entry 25). -/
def execImageRestore (core : Nat) (place : Tagged ImagePlace) (s : State) : Host.Outcome State Fault Refusal :=
  runEvent s (
    if s.fwUp 1 then
      match s.imageCheck place.val with
      | none => some (s.reply .restoreStatus none place.tag [1])
      | some bs =>
        let k := ((words64 (bs.take 64)).getD 2 0).toNat / 2 ^ 48
        match (if (alook k s.ctxs).isSome then s.restoreImage core k bs else none) with
        | some s1 => some (s1.reply .restoreStatus (some k) place.tag [0])
        | none => some (s.reply .restoreStatus none place.tag [1])
    else s.hold 8 (.imageRestore core place))

/-! ## The loss of power (R316, R363) -/

/-- The ACTIVE bank of a core swapped out. -/
def State.swapCoreOut (s : State) (core : Nat) : State :=
  let s1 := s.saveGroups core (s.core core).act
  let x := s1.core core
  s1.setCore core (x.setBank x.act x.outBank)

/-- The images of the contexts on a core, all swapped out: in its banks, and in its cellar images. -/
def State.coreImages (s : State) (core : Nat) : List Image :=
  let x := s.core core
  let inBank (b : Nat) : List Image := match (x.bank b).ctx with
    | some ctx => [s.imageOf core ctx (x.bank b) (alook (ctlKey core ctx) s.ctls) (s.gidsAt core b) none []]
    | none => []
  let inCellar := (s.images.filter fun e => e.2.cellar && e.2.core == core).map fun e =>
    s.imageOf core e.2.ctx e.2.bank e.2.ctl ((afilter (fun _ g => g.place == Place.cellar e.1) s.groups).map fun g => g.1) none []
  inBank 0 ++ inBank 1 ++ inCellar

/-- An entry of the keep store still to be laid out, with its data. -/
abbrev KeepData := KeepEntry × List Byte

/-- An image made for the keep store. -/
def State.keepImage (r : State × List KeepData) (i : Image) : State × List KeepData :=
  let s := r.1
  let gids := i.groups.map fun e => e.1
  let raw := s.imageBytes i.core i.ctx (s.imageSize gids) gids.length
  let k : KeepEntry := { kind := 1, off := 0, crc := 0, trunc := false, ctx := i.ctx, image := some s.nextId, base := 0, size := raw.length, bytes := [] }
  ({ s with images := aset s.nextId { i with raw := raw } s.images, nextId := s.nextId + 1, fw := { s.fw with gen := s.fw.gen + 1 } }, r.2 ++ [(k, raw)])

/-- The keep ranges of a region: four bases with their sizes (R253). -/
def Rcb.keepRanges (r : Rcb) : List (W64 × Nat) :=
  ((List.range 4).map fun i => (r.keep.getD (2 * i) 0, (r.keep.getD (2 * i + 1) 0).toNat)).filter fun e => e.2 != 0

/-- The keep ranges of every region of every context, in region-table order. -/
def State.allKeeps (s : State) : List (Nat × W64 × Nat) :=
  s.ctxs.flatMap fun (c : Nat × CtxRec) => c.2.regions.flatMap fun (r : Nat × Nat) =>
    match s.inForce c.1 r.1 with
    | some b => b.keepRanges.map fun e => (c.1, e.1, e.2)
    | none => []

/-- A byte of a range of a context; one that cannot be read is kept as zero. -/
def State.keepByte (s : State) (ctx : Nat) (base : W64) (i : Nat) : Byte := (s.imageByte { keep := false, ctx := ctx, addr := base.toNat } i).getD 0

/-- The keep ranges, up to 16 GiB in all; `used` bytes are taken already. -/
def State.keepData (s : State) (used : Nat) : List (Nat × W64 × Nat) → List KeepData
  | [] => []
  | (ctx, base, size) :: r =>
    let n := min size (2 ^ 34 - used)
    let bs := (List.range n).map (s.keepByte ctx base)
    ({ kind := 2, off := 0, crc := 0, trunc := Nat.blt n size, ctx := ctx, image := none, base := base, size := n
       bytes := putBytes [] 0 bs }, bs) :: s.keepData (used + n) r

/-- A directory entry's 32 bytes (R363). -/
def KeepEntry.words (k : KeepEntry) : List W64 :=
  [BitVec.ofNat 64 (k.ctx % 2 ^ 16 * 2 ^ 16 + b2n k.trunc * 2 ^ 8 + k.kind), BitVec.ofNat 64 k.off, BitVec.ofNat 64 k.size, k.crc.setWidth 64]

/-- Data laid out one after the other from an offset on, each with its offset and CRC. -/
def layKeeps (off : Nat) : List KeepData → List KeepData
  | [] => []
  | (k, bs) :: r => ({ k with off := off, crc := crc32c bs }, bs) :: layKeeps (off + bs.length) r

/-- The keep store written: the directory with an ending entry of KIND 0, then the data (R363). -/
def Firmware.writeKeep (f : Firmware) (ds : List KeepData) : Firmware :=
  let ks := layKeeps (32 * (ds.length + 1)) ds
  let dir := (ks.flatMap fun e => wordBytes e.1.words) ++ List.replicate 32 (0 : Byte)
  { f with keep := ks.map fun e => e.1, store := ks.foldl (fun m e => putBytes m e.1.off e.2) (putBytes [] 0 dir) }

/-- Nothing is in flight: no access, copy or begun matrix operation, no ramp, and no swap. -/
def State.quiet (s : State) : Bool :=
  s.pend.isEmpty && s.copies.isEmpty && !aany (fun _ m => m.begun) s.mqs &&
  !aany (fun _ (x : CoreSt) => x.move.isSome || x.ckpt.isSome || x.swap.isSome) s.cores

/-- POWER_LOSS: the sequence of R316 at its end, when what was in flight has completed (log entry 25): every core swaps out, and the
images of its contexts and then the keep ranges go to the keep store. -/
def execPowerLoss (s : State) : Host.Outcome State Fault Refusal :=
  runEvent s
    (if s.quiet then
      let s0 : State := { s with images := s.images.filter fun e => e.2.cellar || e.2.loc.isSome }
      let s1 := (List.range Config.nCores).foldl State.swapCoreOut s0
      let r := ((List.range Config.nCores).flatMap s1.coreImages).foldl State.keepImage (s1, [])
      some { r.1 with fw := { r.1.fw.writeKeep (r.2 ++ s1.keepData 0 s1.allKeeps) with powered := false } }
    else none)

/-! ## Reset (R60, R367) -/

/-- The ECDSA P-384 signature of a firmware image verifies over its SHA-384 digest under the key that it comes with (R367). -/
def imageSigned (x : FwImage) : Bool := Config.ecdsaOk x.key (Config.sha384 x.bytes) x.r x.s

/-- The boot ROM verifies an image against the key hash held in fuses. -/
def romOk (x : FwImage) (hash : BitVec 384) : Bool := Config.sha384 (leBytes x.key 96) == hash && imageSigned x

/-- SEC verifies an image with the keys that its own image carries. -/
def secOk (x : FwImage) (keys : List Nat) : Bool := keys.contains x.key && imageSigned x

/-- How a boot ends: none where it succeeds, or the stage that failed (R367). The boot ROM verifies the SEC image, SEC the other seven, and
an image below fuse counter 0 is refused. -/
def bootStage (hash : BitVec 384) (counter : Nat) (sec : FwImage) (others : List FwImage) : Option Nat :=
  if !romOk sec hash then some 1
  else if others.length != 7 || others.any fun i => !secOk i (Config.imageKeys sec.bytes) then some 2
  else if (sec :: others).any fun i => Nat.blt i.svn counter then some 3 else none

/-- RESET: every state at its reset value. What outlasts it is what is fused or fixed, the fuse counters, the keys and the keep
store, and what lies outside the part; the memory and everything else is as after reset (log entry 26). A boot that fails halts, and PF1
reports the stage. -/
def execReset (sec : FwImage) (others : List FwImage) (s : State) : Host.Outcome State Fault Refusal :=
  let stage := bootStage s.part.keyHash (sget s.fw.svn 0).toNat sec others
  runEvent s (some { State.reset with
    agenda := s.agenda, nextId := s.nextId, freeN := s.freeN, part := s.part, hostMem := s.hostMem, peerMem := s.peerMem
    images := s.images.filter fun e => s.fw.keep.any fun k => k.image == some e.1
    fw := { Firmware.init with
      halted := stage
      mbox := match stage with
        | some k => [(pf1, [{ op := .bootReport, snd := 4, rcv := 0, tag := 0, body := [BitVec.ofNat 64 k] }])]
        | none => []
      secKeys := Config.imageKeys sec.bytes
      keys := s.fw.keys, svn := s.fw.svn, keep := s.fw.keep, store := s.fw.store, gen := s.fw.gen } })

end Sys2Proof.Machine
end

