-- ==== Sys2Proof/Machine/Cross.lean ====
section
/-!
DEFINITION. The cross-lane instructions (R141 to R147): a lane that is not live still supplies its value, every source is read
before anything is written, and the lanes are logical ones.
-/
namespace Sys2Proof.Machine

/-- The lane that SHFL reads for lane L, from b[L] (R143); outside 0 to TW - 1 it is L itself. -/
def shflSrc (m : ShflMode) (tw l k : Nat) : Nat :=
  let src : Option Nat := match m with
    | .idx => some k
    | .up => if k ≤ l then some (l - k) else none
    | .down => some (l + k)
    | .xor => some (Nat.xor l (k % 1024))
  match src with
  | some x => if x < tw then x else l
  | none => l

/-- SHFL (R143). -/
def execShfl (m : ShflMode) (d : Reg) (a b : Src) (s : State) : Host.Outcome State Fault Refusal :=
  runAgent s (1 + a.words + b.words) fun e t => do
    checkSrcs t [a, b]
    needOperand (okDst t d && isVecDst d)
    checkSh0 t
    .ok (t.applyLanes (t.dstReg d) false false fun l =>
      .int (srcLane e t a (shflSrc m t.tw l (srcLane e t b l).toNat)).toNat 0)

/-- The result of VOTE over the live lanes (R144): the predicate of a lane is a[L] ≠ 0. -/
def voteResult (f : VoteFn) (e : Env) (t : Team) (a : Src) : Nat :=
  let ls := t.liveLanes
  let holds (l : Nat) : Bool := srcLane e t a l != 0
  match f with
  | .any => b2n (ls.any holds)
  | .all => b2n (ls.all holds)
  | .ballot b =>
    let w := (srcScalar e t b).toNat % 16
    (ls.filter fun l => l / 64 == w && holds l).foldl (fun n l => n + 2 ^ (l % 64)) 0
  | .count => (ls.filter holds).length
  | .eq => match ls with
    | [] => 1
    | k :: _ => b2n (ls.all fun l => srcLane e t a l == srcLane e t a k)

/-- The operand of VOTE's function beside a. -/
def VoteFn.srcs (f : VoteFn) : List Src :=
  match f with
  | .ballot b => [b]
  | _ => []

/-- VOTE (R144). -/
def execVote (f : VoteFn) (d : Reg) (a : Src) (s : State) : Host.Outcome State Fault Refusal :=
  runAgent s (1 + a.words + ((Sys2Proof.Machine.VoteFn.srcs f).map Src.words).sum) fun e t => do
    checkSrcs t [a]
    checkScalars t (Sys2Proof.Machine.VoteFn.srcs f)
    needOperand (isScaDst d)
    checkSh0 t
    .ok (t.writeScalar d (BitVec.ofNat 64 (voteResult f e t a)))

/-- RDFIRST (R145). -/
def execRdfirst (d : Reg) (a : Src) (s : State) : Host.Outcome State Fault Refusal :=
  runAgent s (1 + a.words) fun e t => do
    checkSrcs t [a]
    needOperand (isScaDst d)
    checkSh0 t
    .ok (t.writeScalar d
      (if isVec t a then
        match t.liveLanes with
        | l :: _ => (srcLane e t a l).setWidth 64
        | [] => 0
      else srcScalar e t a))

/-- RDLANE (R145): it checks no shape (R155). -/
def execRdlane (d : Reg) (a b : Src) (s : State) : Host.Outcome State Fault Refusal :=
  runAgent s (1 + a.words + b.words) fun e t => do
    checkSrcs t [a]
    checkScalars t [b]
    let l := (srcScalar e t b).toNat
    needOperand (isScaDst d && Nat.blt l t.tw)
    .ok (t.writeScalar d (if isVec t a then (srcLane e t a l).setWidth 64 else srcScalar e t a))

/-- WRLANE (R146): one lane, whatever its state. -/
def execWrlane (d : Reg) (a b : Src) (s : State) : Host.Outcome State Fault Refusal :=
  runAgent s (1 + a.words + b.words) fun e t => do
    checkScalars t [a, b]
    let l := (srcScalar e t b).toNat
    needOperand (okDst t d && isVecDst d && Nat.blt l t.tw)
    .ok (match t.dstReg d with
      | some r => t.writeLanes r [l] fun _ => (srcScalar e t a).setWidth 32
      | none => t)

/-- CCMOV `.rd` (R147): the nibble of each live lane, or once the nibble of the first live lane (R78). -/
def execCcmovRd (d : Reg) (s : State) : Host.Outcome State Fault Refusal :=
  runAgent s 1 fun _ t => do
    needOperand (okDst t d)
    checkSh0 t
    .ok (match t.dstReg d with
      | some r => t.writeLanes r t.liveLanes fun l => (sget t.cc l).setWidth 32
      | none => t.writeScalar d (t.firstNib.setWidth 64))

/-- CCMOV `.wr` (R147). -/
def execCcmovWr (a : Src) (s : State) : Host.Outcome State Fault Refusal :=
  runAgent s (1 + a.words) fun e t => do
    checkSrcs t [a]
    checkSh0 t
    .ok (t.writeNibs t.liveLanes fun l => (srcLane e t a l).setWidth 4)

end Sys2Proof.Machine
end

