-- ==== Sys2Proof/Machine/Links.lean ====
section
/-!
DEFINITION. Links (R334 to R343): the ports' states, their flits, the peer windows, LINKCFG, the other device registers, MSI-X
and DOE Discovery.
-/
namespace Sys2Proof.Machine

/-! ## Port states (R334, R341) -/

/-- A port that the part has (R11, R334). -/
def PortId.exists? (p : PortId) : Bool :=
  match p with
  | .kazeg k => Nat.blt k 32
  | .memory m => Nat.blt m 16

/-- The status register of a port. -/
def PortId.statusAddr (p : PortId) : Nat :=
  match p with
  | .kazeg k => 0xF000000010000 + 8 * k
  | .memory m => 0xF000000010100 + 8 * m

/-- A step of a port that the part has. -/
def onPort (s : State) (p : PortId) (r : Option State) : Host.Outcome State Fault Refusal :=
  runEvent s (if PortId.exists? p then r else none)

/-- PORT_ENABLE: EN = 1 written in the status register. -/
def execPortEnable (p : PortId) (s : State) : Host.Outcome State Fault Refusal :=
  onPort s p (some (s.writeReg (PortId.statusAddr p) 8))

/-- PORT_DISABLE: EN = 0 written in the status register. -/
def execPortDisable (p : PortId) (s : State) : Host.Outcome State Fault Refusal :=
  onPort s p (some (s.writeReg (PortId.statusAddr p) 0))

/-- The partner's package number, from training; 0 for a memory port. -/
def PortId.peerOf (p : PortId) (peer : Nat) : Nat :=
  match p with
  | .kazeg _ => peer % 1024
  | .memory _ => 0

/-- TRAINING_ATTEMPT_END: success makes the port ACTIVE and sends again what its window holds; the third failure in a row makes
it FAILED, which the ERR firmware reports (R334, R343). -/
def execTrainingAttemptEnd (p : PortId) (ok : Bool) (peer : Nat) (s : State) : Host.Outcome State Fault Refusal :=
  onPort s p (
    let x := s.port p
    if x.st = .training ∧ s.fwUp 6 = true then
      (if ok then some (s.setPort p (x.trained (PortId.peerOf p peer)))
      else if x.fails < 2 then some (s.setPort p { x with fails := x.fails + 1 })
      else some ((s.setPort p { x with st := .failed, fails := 3 }).report .errReport 1 [BitVec.ofNat 64 (PortId.statusAddr p)]))
    else none)

/-- PORT_LOCK_LOSS: an ACTIVE port retrains. -/
def execPortLockLoss (p : PortId) (s : State) : Host.Outcome State Fault Refusal :=
  onPort s p (if (s.port p).st = .active then some (s.setPort p (s.port p).retrain) else none)

/-! ## Flits (R335, R336) -/

/-- FLIT_RECEIVE: the port has sent the answer it owed before the flit came. -/
def execFlitReceive (p : PortId) (f : Flit) (s : State) : Host.Outcome State Fault Refusal :=
  onPort s p (
    let x := s.port p
    if x.st = .active then some (s.setPort p (({ x with nakOwed := false, ackOwed := false } : Port).receive f)) else none)

/-! ## Device registers (R10, R337, R341) -/

/-- PEER_WINDOW_WRITE: both words of a window's descriptor. -/
def execPeerWindowWrite (w : Nat) (w0 w1 : BitVec 64) (s : State) : Host.Outcome State Fault Refusal :=
  runEvent s (
    let a := 0xF000000100000 + 16 * w
    if w < 3808 then some ((s.writeReg a w0).writeReg (a + 8) w1) else none)

/-- LINKCFG_WRITE. -/
def execLinkcfgWrite (x : BitVec 64) (s : State) : Host.Outcome State Fault Refusal :=
  runEvent s (some (s.writeReg 0xF000000008000 x))

/-- DEVICE_REGISTER_WRITE: a register that has no behaviour of its own. -/
def execDeviceRegisterWrite (addr : Nat) (x : BitVec 64) (s : State) : Host.Outcome State Fault Refusal :=
  runEvent s
    (if 0xF000000000000 ≤ addr ∧ addr < 0x10000000000000 ∧ addr % 8 = 0 ∧ devReg addr = .plain then some (s.writeReg addr x) else none)

/-! ## The host's functions (R342, R343, R360) -/

/-- MSIX_UNMASK: a pending vector is sent. -/
def execMsixUnmask (vec : Nat) (s : State) : Host.Outcome State Fault Refusal :=
  runEvent s
    (if vec < 2048 ∧ s.fw.msixOpen.contains vec = false then
      let s1 : State := { s with fw := { s.fw with msixOpen := vec :: s.fw.msixOpen, msixPend := s.fw.msixPend.filter fun v => v != vec } }
      some (if s.fw.msixPend.contains vec then s1.msix vec else s1)
    else none)

/-- MAILBOX_READ: the host takes the first message of mailbox 12 or 13, or of PF1's answers, and has its words: 64 bytes, or, of a data object
of PF1's DOE, all that it carries (R360; log entry 28). -/
def execMailboxRead (mb : Nat) (s : State) : Host.Outcome State Fault Refusal :=
  runEvent s
    (match mb == 12 || mb == 13 || mb == pf1, agetD [] mb s.fw.mbox with
    | true, m :: r => some { s with fw := { s.fw with mbox := aset mb r s.fw.mbox, got := if mb = pf1 then m.word0 :: m.body else m.words } }
    | _, _ => none)

/-- The data objects of PF1's DOE by their index: vendor, type, and the next index (PRESUMED, PCI Express; log entry 28). -/
def doeObject (index : Nat) : List W64 :=
  match index with
  | 0 => [1, 0, 1]
  | 1 => [1, 1, 0]
  | _ => [0xFFFF, 0, 0]

/-- DOE_DISCOVERY. -/
def execDoeDiscovery (index : Nat) (s : State) : Host.Outcome State Fault Refusal :=
  runEvent s (some (s.send pf1 { op := .discovery, snd := 4, rcv := 0, tag := 0, body := doeObject index }))

end Sys2Proof.Machine
end

