-- ==== Sys2Proof/Machine/Objects.lean ====
section
/-!
DEFINITION. Code objects (R269 to R276, R396), contexts (R290), SVN counters (R368, R289), decode tables (R277) and keys (R367):
the requests that PARSE, SCHED and SEC answer. Their status codes past those of R275 and R276 are the model's (log entry 14).
-/
namespace Sys2Proof.Machine

/-! ## The image (R269 to R272) -/

/-- The words of a byte string from an offset on, as numbers. -/
def wordsFrom (bs : List Byte) (off n : Nat) : List Nat := (words64 ((bs.drop off).take (8 * n))).map fun w => w.toNat

/-- A section of an image. -/
structure Section where
  kind : Nat
  off  : Nat
  size : Nat
  ok   : Bool
  deriving DecidableEq, Repr

/-- The fields of a section table entry (R270). -/
def Section.parse (ws : List Nat) : Section :=
  let w (i : Nat) : Nat := ws.getD i 0
  { kind := bits (w 0) 7 0, off := w 1, size := w 2
    ok := bits (w 0) 63 8 == 0 && w 3 == 0 && Nat.ble 1 (w 0) && Nat.ble (w 0) 3 && w 1 % 64 == 0 && (w 0 != 1 || w 2 % 4 == 0) }

/-- Two sections share no byte. -/
def Section.apart (a b : Section) : Bool := Nat.ble (a.off + a.size) b.off || Nat.ble (b.off + b.size) a.off || a.size == 0 || b.size == 0

/-- Every two sections of a list are apart. -/
def allApart : List Section → Bool
  | [] => true
  | a :: r => (r.all fun b => Section.apart a b) && allApart r

/-- What the loader finds in an image. -/
structure Found where
  code   : Section
  smask  : Nat
  cmap   : Nat
  feat   : Nat
  mingen : Nat
  maxgen : Nat
  svnIdx : Nat
  svn    : Nat
  rsvf   : Bool
  sig    : Nat
  deriving DecidableEq, Repr

/-- The clause map: every word that it marks is a header, and word 0 is marked (R270, R275). -/
def cmapOk (bs : List Byte) (code : Section) (cmap : Nat) : Bool :=
  bitAt cmap 0 && (List.range (code.size / 4)).all fun w => !bitAt cmap w || bits ((bs.getD (code.off + 4 * w + 3) 0).toNat) 7 6 == 3

/-- The checks of order 1 (R275) on an image of TOTAL bytes, and what it holds. -/
def parseImage (bs : List Byte) : Option Found := do
  let h := wordsFrom bs 0 16
  let w (i : Nat) : Nat := h.getD i 0
  let total := bs.length
  let nsec := bits (w 1) 63 32
  let secs := (List.range nsec).map fun i => Section.parse (wordsFrom bs (w 2 + 32 * i) 4)
  let code ← secs.find? fun x => x.kind == 1
  let nw := code.size / 4
  let fd := wordsFrom bs (w 3) 6
  let vn := wordsFrom bs (w 4) 2
  let v := vn.getD 0 0
  let smask := (fd.getD 1 0) + 2 ^ 64 * (fd.getD 2 0) + 2 ^ 128 * (fd.getD 3 0) + 2 ^ 192 * (fd.getD 4 0)
  let cmap := leValue (fun i => bs.getD (w 5 + i) 0) 0 ((nw + 7) / 8)
  let fsize := bits (fd.getD 0 0) 31 0
  if w 0 == 1 * 2 ^ 32 + 0x00465A44 && bits (w 1) 31 0 == total && Nat.ble 1 nsec && Nat.ble nsec 64 && ((List.range 8).all fun i => w (8 + i) == 0) &&
      ([2, 3, 4, 5, 6, 7].all fun i => w i % 8 == 0) && Nat.ble (w 2 + 32 * nsec) total && Nat.ble (w 3 + 48) total && Nat.ble (w 4 + 16) total &&
      Nat.ble (w 5 + (nw + 7) / 8) total && Nat.blt (w 6) total && (w 7 == 0 || w 7 + 104 == total) &&
      (secs.all fun x => x.ok && Nat.ble (x.off + x.size) total) && allApart secs && (secs.filter fun x => x.kind == 1).length == 1 && Nat.ble 1 nw &&
      cmapOk bs code cmap && bits (fd.getD 0 0) 63 32 == 0 && fd.getD 5 0 == 0 && smask / 2 ^ fsize == 0 &&
      bits v 41 40 == 0 && bits v 7 1 == 0 then
    some { code := code, smask := smask, cmap := cmap, feat := vn.getD 1 0, mingen := bits v 63 56, maxgen := bits v 55 48
           svnIdx := bits v 47 42, svn := bits v 39 8, rsvf := bitAt v 0, sig := w 7 }
  else none

/-- The object digest (R273). -/
def objDigest (bs : List Byte) (f : Found) : BitVec 384 := Config.sha384 (if f.sig = 0 then bs else bs.take f.sig)

/-- The signature of an image verifies under a key that SEC holds (R273, R367). -/
def State.signatureOk (s : State) (bs : List Byte) (f : Found) : Bool :=
  match alook ((wordsFrom bs f.sig 1).getD 0 0) s.fw.keys with
  | some key => Config.ecdsaOk key (objDigest bs f) ((bs.drop (f.sig + 8)).take 48) ((bs.drop (f.sig + 56)).take 48)
  | none => false

/-- The status of a load by the checks of order 2 to 5 (R275). -/
def State.loadStatus (s : State) (bs : List Byte) (f : Found) (accept require : Bool) : Nat :=
  if (if f.sig = 0 then require else !s.signatureOk bs f) then 2
  else if f.svn < (sget s.fw.svn f.svnIdx).toNat then 3
  else if f.mingen = 0 ∨ f.feat / 2 ^ 18 ≠ 0 then 4
  else if (f.maxgen > 3 ∨ f.rsvf = true) ∧ accept = false then 4
  else 0

/-! ## OBJECT_LOAD and OBJECT_UNLOAD (R275, R276, R396) -/

/-- n bytes of an image, each in a device page that allows reads and not poisoned (R396). -/
def State.imageRead (s : State) (ctx : Nat) (addr n : Nat) : Except EngErr (List Byte) :=
  (List.range n).mapM fun (i : Nat) => do
    match ← s.engTarget ctx .system false (BitVec.ofNat 64 (addr + i)) with
    | .dev pa => if s.poisoned pa 1 then .error (.code 0x14) else .ok (s.byte pa)
    | _ => .error (.code 0x13)

/-- The image at an address: its header first, which gives TOTAL. -/
def State.wholeImage (s : State) (ctx addr : Nat) : Except EngErr (List Byte) := do
  let h ← s.imageRead ctx addr 128
  s.imageRead ctx addr (max 128 (bits ((wordsFrom h 8 1).getD 0 0) 31 0))

/-- A loaded object. -/
def newObj (ctx addr : Nat) (bs : List Byte) (f : Found) (accept require : Bool) : ObjRec :=
  { ctx := ctx, code := BitVec.ofNat 64 (addr + f.code.off), size := f.code.size, digest := objDigest bs f
    svnIdx := f.svnIdx, svn := f.svn, down := accept, signed := require, revoked := false, smask := BitVec.ofNat 256 f.smask, cmap := f.cmap }

/-- An object put among the loaded ones, and the translations of its code pages invalidated (R396). -/
def State.addObj (s : State) (o : ObjRec) : State :=
  let lo := o.code.toNat
  let hi := lo + o.size
  let k := match s.objAt o.ctx o.code with
    | some x => x.1
    | none => s.nextId
  { s with
    objs := aset k o s.objs, nextId := s.nextId + 1
    tlb := s.tlb.filter fun e => !(e.ctx == o.ctx && Nat.blt e.page hi && Nat.blt lo (e.page + e.size)) }

/-- A context that accepts requests. -/
def State.isLive (s : State) (ctx : Nat) : Bool :=
  match alook ctx s.ctxs with
  | some c => !c.closing
  | none => false

/-- A load judged by what the image holds. -/
def State.judge (s : State) (tag ctx addr : Nat) (bs : List Byte) (accept require : Bool) : State :=
  match parseImage bs with
  | none => s.reply .loadStatus (some ctx) tag [1]
  | some f =>
    let v := s.loadStatus bs f accept require
    if v = 0 then (s.addObj (newObj ctx addr bs f accept require)).reply .loadStatus (some ctx) tag [0, BitVec.ofNat 64 (addr + f.code.off)]
    else s.reply .loadStatus (some ctx) tag [BitVec.ofNat 64 v]

/-- OBJECT_LOAD. -/
def execObjectLoad (tag ctx addr : Nat) (acceptDownlevel requireSigned : Bool) (s : State) : Host.Outcome State Fault Refusal :=
  runEvent s (
    if !s.fwUp 0 then s.hold 9 (.objectLoad tag ctx addr acceptDownlevel requireSigned)
    else if s.fwUp 4 then
      (if addr % 64 ≠ 0 ∨ 2 ^ 56 ≤ addr ∨ s.isLive ctx = false then some (s.reply .loadStatus (some ctx) tag [1])
      else
        match s.wholeImage ctx addr with
        | .ok bs => some (s.judge tag ctx addr bs acceptDownlevel requireSigned)
        | .error (.code _) => some (s.reply .loadStatus (some ctx) tag [1])
        | .error (.page va) =>
          match s.fwFaultAt ctx va with
          | .fresh => some (s.engFault 0 ctx (s.rootOf ctx) 0 va)
          | .waiting => none
          | .refused k => some ({ s with faults := adel k s.faults }.reply .loadStatus (some ctx) tag [1])
        | .error .hold => none)
    else s.hold 4 (.objectLoad tag ctx addr acceptDownlevel requireSigned))

/-- A queued record names the object, or a group runs its code (R276). -/
def State.objBusy (s : State) (o : ObjRec) : Bool :=
  let names (l : Nat) : Bool := match alook l s.launches with
    | some x => x.ctx == o.ctx && x.task.getD 0 0 == o.code
    | none => false
  (s.queues.any fun q => q.entries.any fun e => Nat.blt e.next e.hi && names e.launch) || aany (fun _ g => names g.launch) s.groups

/-- OBJECT_UNLOAD. -/
def execObjectUnload (tag ctx code : Nat) (s : State) : Host.Outcome State Fault Refusal :=
  runEvent s (
    if s.fwUp 0 then
      match s.objAt ctx (BitVec.ofNat 64 code) with
      | none => some (s.reply .unloadStatus (some ctx) tag [6])
      | some (k, o) =>
        if s.objBusy o then some (s.reply .unloadStatus (some ctx) tag [5])
        else
          let s1 : State := { s with objs := adel k s.objs }
          some (((s1.invalidate fun e => e.key.obj == o.digest).closeContext ctx).reply .unloadStatus (some ctx) tag [0])
    else s.hold 9 (.objectUnload tag ctx code))

/-! ## Contexts (R290) -/

/-- CONTEXT_CREATE: a context in LIVE under the id that SCHED gives it, or a refusal: an id or a PASID in use or out of range, a
root table not aligned to 1 MiB (R317), or a root region not in the region table. SCHED assigns the context one of the vectors 4 to 2,047
(R343). -/
def execContextCreate (tag ctx pasid root : Nat) (regions : List (Nat × Nat)) (rootRegion : Nat) (s : State) :
    Host.Outcome State Fault Refusal :=
  runEvent s (
    if s.fwUp 1 then
      (if ctx < 65536 ∧ (alook ctx s.ctxs).isNone = true ∧ pasid < 2 ^ 20 ∧ root % 2 ^ 20 = 0 ∧ (alook rootRegion regions).isSome = true ∧
          aany (fun _ c => c.pasid == pasid) s.ctxs = false then
        let c : CtxRec := {
          pasid := pasid, root := root, closing := false, rootRegion := rootRegion
          regions := regions.foldl (fun (m : List (Nat × Nat)) e => aset e.1 e.2 m) [], brk := [], vector := 4 + Config.choice s.freeN 9 % 2044 }
        some ({ s with ctxs := aset ctx c s.ctxs }.reply .created (some ctx) tag [0, BitVec.ofNat 64 ctx])
      else some (s.reply .created none tag [1]))
    else s.hold 8 (.contextCreate tag ctx pasid root regions rootRegion))

/-- CONTEXT_DESTROY: to CLOSING, and on to GONE where nothing of the context remains. -/
def execContextDestroy (tag ctx : Nat) (s : State) : Host.Outcome State Fault Refusal :=
  runEvent s (
    if s.fwUp 1 then
      match alook ctx s.ctxs with
      | some c => some (({ s with ctxs := aset ctx { c with closing := true } s.ctxs }.closeContext ctx).reply .destroyed (some ctx) tag [0])
      | none => some (s.reply .destroyed none tag [1])
    else s.hold 8 (.contextDestroy tag ctx))

/-! ## SVN counters, decode tables and keys (R277, R289, R367, R368) -/

/-- An answer of SEC: 0 done, 1 refused. -/
def State.secReply (s : State) (op : MsgOp) (tag status : Nat) : State := s.reply op none tag [BitVec.ofNat 64 status]

/-- An SVN counter raised: the objects that it guards below its value are REVOKED, and their entries invalidated. -/
def State.raiseSvn (s : State) (counter value : Nat) : State :=
  let s1 : State := { s with
    fw := { s.fw with svn := sset s.fw.svn counter (BitVec.ofNat 64 value) }
    objs := amap (fun _ o => if o.svnIdx = counter ∧ o.svn < value then { o with revoked := true } else o) s.objs }
  s1.invalidate fun e => e.key.svnIdx == counter && Nat.blt e.key.svn value

/-- SVN_RAISE. -/
def execSvnRaise (counter value : Nat) (signedOk : Tagged Bool) (s : State) : Host.Outcome State Fault Refusal :=
  runEvent s (
    if s.fwUp 4 then
      (if signedOk.val = false ∨ 64 ≤ counter ∨ 1023 < value then some (s.secReply .svnStatus signedOk.tag 1)
      else if value ≤ (sget s.fw.svn counter).toNat then some (s.secReply .svnStatus signedOk.tag 0)
      else some ((s.raiseSvn counter value).secReply .svnStatus signedOk.tag 0))
    else s.hold 11 (.svnRaise counter value signedOk))

/-- DECODE_TABLE_UPDATE: DTGEN rises, and entries of an older one are invalidated. -/
def execDecodeTableUpdate (signedOk : Tagged Bool) (s : State) : Host.Outcome State Fault Refusal :=
  runEvent s (
    if s.fwUp 4 then
      (if signedOk.val then
        let g := (s.fw.dtgen + 1) % 2 ^ 32
        let s1 : State := { s with fw := { s.fw with dtgen := g } }
        some ((s1.invalidate fun e => e.key.dtgen != g).secReply .dtStatus signedOk.tag 0)
      else some (s.secReply .dtStatus signedOk.tag 1))
    else s.hold 11 (.decodeTableUpdate signedOk))

/-- KEY_INSTALL: at most 16 keys. -/
def execKeyInstall (keyid key : Nat) (signedOk : Tagged Bool) (s : State) : Host.Outcome State Fault Refusal :=
  runEvent s (
    if s.fwUp 4 then
      (if signedOk.val = true ∧ ((alook keyid s.fw.keys).isSome = true ∨ s.fw.keys.length < 16) then
        some ({ s with fw := { s.fw with keys := aset keyid key s.fw.keys } }.secReply .keyStatus signedOk.tag 0)
      else some (s.secReply .keyStatus signedOk.tag 1))
    else s.hold 11 (.keyInstall keyid key signedOk))

/-- KEY_REMOVE. -/
def execKeyRemove (keyid : Nat) (signedOk : Tagged Bool) (s : State) : Host.Outcome State Fault Refusal :=
  runEvent s (
    if s.fwUp 4 then
      (if signedOk.val = true ∧ (alook keyid s.fw.keys).isSome = true then
        some ({ s with fw := { s.fw with keys := adel keyid s.fw.keys } }.secReply .keyStatus signedOk.tag 0)
      else some (s.secReply .keyStatus signedOk.tag 1))
    else s.hold 11 (.keyRemove keyid signedOk))

end Sys2Proof.Machine
end

