-- ==== Sys2Proof/Machine/Service.lean ====
section
/-!
DEFINITION. The firmware complex when a core hangs: the freeze of dispatch and the recovery mailbox (R361); and the SPDM answers of
SEC (R369).
-/
namespace Sys2Proof.Machine

/-! ## Hang and recovery (R361) -/

/-- A firmware core's heartbeat has lapsed for 10 ms. -/
def State.lapsed (s : State) (fw : Nat) : Bool := Nat.ble (agetD 0 fw s.fw.beats + 10000) s.fw.now

/-- FIRMWARE_HEARTBEAT_LAPSE: dispatch stops, and MSI-X vector 0 is raised. -/
def execFirmwareHeartbeatLapse (fw : Nat) (s : State) : Host.Outcome State Fault Refusal :=
  runEvent s
    (if fw < 8 ∧ s.fwUp fw = true ∧ s.lapsed fw = true then
      some ({ s with fw := { s.fw with hung := fw :: s.fw.hung, frozen := true } }.msix 0)
    else none)

/-- An answer of the recovery engine, or of SEC on PF1's DOE. -/
def State.pf1Reply (s : State) (op : MsgOp) (tag : Nat) (body : List W64) : State :=
  s.send pf1 { op := op, snd := 4, rcv := 0, tag := tag, body := body }

/-- The device register or memory at an 8-byte aligned physical address. -/
def State.recoveryTarget (s : State) (addr : Nat) : Option Target :=
  if addr % 8 ≠ 0 then none
  else
    match s.physical { ctx := 0, level := .system, write := false } addr with
    | .ok (.dev pa) => some (.dev pa)
    | .ok (.reg pa) => some (.reg pa)
    | _ => none

/-- RECOVERY_READ: 8 bytes, after status 0; status 1 where there is nothing to read. -/
def execRecoveryRead (addr : Tagged Nat) (s : State) : Host.Outcome State Fault Refusal :=
  runEvent s (match s.recoveryTarget addr.val with
    | some t => some (s.pf1Reply .readData addr.tag [0, BitVec.ofNat 64 (s.tgtValue t 8)])
    | none => some (s.pf1Reply .readData addr.tag [1]))

/-- RECOVERY_WRITE: 8 bytes; one that names neither a register nor memory writes nothing, with status 1. -/
def execRecoveryWrite (addr : Tagged Nat) (x : BitVec 64) (s : State) : Host.Outcome State Fault Refusal :=
  runEvent s (match s.recoveryTarget addr.val with
    | some t => some ((s.writeAs s.nextId .none false false [] t (leBytes x.toNat 8)).pf1Reply .recoveryStatus addr.tag [0])
    | none => some (s.pf1Reply .recoveryStatus addr.tag [1]))

/-- RECOVERY_PLACE: a record posted as a host submission is. -/
def execRecoveryPlace (ctx : Tagged Nat) (addr die : Nat) (s : State) : Host.Outcome State Fault Refusal :=
  runEvent s
    (if die < Config.nDies then s.submit (fun (st : State) v => st.pf1Reply .placeStatus ctx.tag [v]) ctx.val addr die else none)

/-- The mailboxes that a firmware core reads (R360). -/
def mailboxesOf (fw : Nat) : List Nat :=
  match fw with
  | 0 => [0, 9]
  | 1 => [1, 8]
  | 2 => [2, 10]
  | 4 => [4, 11, 15]
  | k => [k]

/-- What a core owes done when it runs again: its messages sent, its kills performed and its records written, in order. -/
def State.payOwed (s : State) (fw : Nat) : State :=
  let due := s.fw.owed.filter fun e => e.1 == fw
  due.foldl (fun (st : State) e => match e.2 with
    | .message mb vec m => st.fwSend fw mb vec m
    | .kill ctx dom => st.killDomain ctx dom
    | .corr r => st.writeCorr r) { s with fw := { s.fw with owed := s.fw.owed.filter fun e => e.1 != fw } }

/-- The messages held for a core delivered to it again, in order: they are the next that happens. -/
def State.redeliver (s : State) (fw : Nat) : State :=
  let mine (mb : Nat) : Bool := (mailboxesOf fw).contains mb
  { s with
    agenda := (s.fw.inbox.flatMap fun e => if mine e.1 then e.2.map Turn.event else []) ++ s.agenda
    fw := { s.fw with inbox := s.fw.inbox.filter fun e => !mine e.1 } }

/-- A core reloaded from its image: it runs, with its heartbeat begun afresh. -/
def State.restartCore (s : State) (fw : Nat) : State :=
  let s1 : State := { s with fw := { s.fw with hung := s.fw.hung.filter fun k => k != fw, beats := aset fw s.fw.now s.fw.beats } }
  (s1.payOwed fw).redeliver fw

/-- The image of one firmware core verified again (R361): the SEC image by the boot ROM, another by SEC, with the keys that the SEC image of the
last boot carries; an SVN below fuse counter 0 is refused (R367). -/
def State.reloadOk (s : State) (x : FwReload) : Bool :=
  (if x.fw = 4 then romOk x.image s.part.keyHash else secOk x.image s.fw.secKeys) && Nat.ble (sget s.fw.svn 0).toNat x.image.svn

/-- The keys of a SEC image that has been loaded. -/
def State.takeImage (s : State) (x : FwReload) : State :=
  if x.fw = 4 then { s with fw := { s.fw with secKeys := Config.imageKeys x.image.bytes } } else s

/-- RECOVERY_RESET: the core is reloaded from its image, which SEC verifies again, or the boot ROM where the core is SEC (R361, R367); a
core whose image fails stays as it is. While SEC is hung it verifies nothing. -/
def execRecoveryReset (core : Tagged FwReload) (s : State) : Host.Outcome State Fault Refusal :=
  runEvent s (
    let fw := core.val.fw
    if fw < 8 ∧ (fw = 4 ∨ s.fwUp 4 = true) then
      some (if s.reloadOk core.val then ((s.takeImage core.val).restartCore fw).pf1Reply .recoveryStatus core.tag [0] else s.pf1Reply .recoveryStatus core.tag [1])
    else none)

/-- RECOVERY_THAW, which cannot fail and has no answer (log entry 28). -/
def execRecoveryThaw (s : State) : Host.Outcome State Fault Refusal :=
  runEvent s (some { s with fw := { s.fw with frozen := false } })

/-! ## SPDM (R369) -/

/-- An SPDM answer of SEC: its code, and what it carries. Mailbox 15 holds the request while SEC is hung. -/
def State.spdm (s : State) (i : Instr) (op : MsgOp) (tag : Nat) (body : List W64) : Host.Outcome State Fault Refusal :=
  runEvent s (if s.fwUp 4 then some (s.pf1Reply op tag body) else s.hold 15 i)

/-- GET_VERSION: SPDM 1.3. -/
def execGetVersion (tag : Nat) (s : State) : Host.Outcome State Fault Refusal := s.spdm (.getVersion tag) .version tag [0x13]

/-- GET_CAPABILITIES. -/
def execGetCapabilities (tag : Nat) (s : State) : Host.Outcome State Fault Refusal :=
  s.spdm (.getCapabilities tag) .capabilities tag (Config.spdmBody 1)

/-- NEGOTIATE_ALGORITHMS: ECDSA P-384 and SHA-384 only, by the bits that SPDM gives them (PRESUMED, log entry 28). -/
def execNegotiateAlgorithms (tag : Nat) (s : State) : Host.Outcome State Fault Refusal :=
  s.spdm (.negotiateAlgorithms tag) .algorithms tag ([0x80, 0x02] ++ Config.spdmBody 2)

/-- GET_DIGESTS. -/
def execGetDigests (tag : Nat) (s : State) : Host.Outcome State Fault Refusal :=
  s.spdm (.getDigests tag) .digests tag (Config.spdmBody 3)

/-- GET_CERTIFICATE. -/
def execGetCertificate (tag : Nat) (s : State) : Host.Outcome State Fault Refusal :=
  s.spdm (.getCertificate tag) .certificate tag (Config.spdmBody 4)

/-- CHALLENGE: the signed answer depends on the nonce. -/
def execChallenge (tag nonce : Nat) (s : State) : Host.Outcome State Fault Refusal :=
  s.spdm (.challenge tag nonce) .challenge tag (BitVec.ofNat 64 nonce :: Config.spdmBody (5 + 16 * (s.freeN + 1)))

/-- What a measurement block measures, besides what is fixed: DTGEN for block 10, the 64 SVN counters for block 11. -/
def State.measured (s : State) (block : Nat) : List W64 :=
  match block with
  | 10 => [BitVec.ofNat 64 s.fw.dtgen]
  | 11 => (List.range 64).map fun i => sget s.fw.svn i
  | _ => []

/-- GET_MEASUREMENTS: block 1 the boot ROM, 2 to 9 the firmware images, 10 DTGEN with the decode tables, 11 the SVN counters. There is no
other block, so the answer to a request for one holds none. -/
def execGetMeasurements (tag block : Nat) (s : State) : Host.Outcome State Fault Refusal :=
  s.spdm (.getMeasurements tag block) .measurements tag
    (if 1 ≤ block ∧ block ≤ 11 then BitVec.ofNat 64 block :: s.measured block ++ Config.spdmBody (6 + 16 * block) else [])

end Sys2Proof.Machine
end

