-- ==== Sys2Proof/Machine/Dispatch.lean ====
section
/-!
DEFINITION. The dispatch of an instruction or step to its meaning: one arm for each constructor of `Instr`.
-/
namespace Sys2Proof.Machine

open Sys2Proof

/-- What an instruction does, executed by the agent that is current, or what a step of an engine or of the outside does. -/
def exec (i : Instr) (s : State) : Host.Outcome State Fault Refusal :=
  match i with
  | .add m d a b => Sys2Proof.Machine.execAdd m d a b s
  | .sub m d a b => Sys2Proof.Machine.execSub m d a b s
  | .addc m d a b => Sys2Proof.Machine.execAddc m d a b s
  | .subb m d a b => Sys2Proof.Machine.execSubb m d a b s
  | .mul m d a b => Sys2Proof.Machine.execMul m d a b s
  | .mulh m d a b => Sys2Proof.Machine.execMulh m d a b s
  | .mad m d a b => Sys2Proof.Machine.execMad m d a b s
  | .div m d a b => Sys2Proof.Machine.execDiv m d a b s
  | .rem m d a b => Sys2Proof.Machine.execRem m d a b s
  | .min m d a b => Sys2Proof.Machine.execMin m d a b s
  | .max m d a b => Sys2Proof.Machine.execMax m d a b s
  | .absd m d a b => Sys2Proof.Machine.execAbsd m d a b s
  | .and m d a b => Sys2Proof.Machine.execAnd m d a b s
  | .or m d a b => Sys2Proof.Machine.execOr m d a b s
  | .xor m d a b => Sys2Proof.Machine.execXor m d a b s
  | .andn m d a b => Sys2Proof.Machine.execAndn m d a b s
  | .shl m d a b => Sys2Proof.Machine.execShl m d a b s
  | .shr m d a b => Sys2Proof.Machine.execShr m d a b s
  | .sar m d a b => Sys2Proof.Machine.execSar m d a b s
  | .rot m d a b => Sys2Proof.Machine.execRot m d a b s
  | .bfe m d a b => Sys2Proof.Machine.execBfe m d a b s
  | .bfi m d a b => Sys2Proof.Machine.execBfi m d a b s
  | .popc m d a => Sys2Proof.Machine.execPopc m d a s
  | .clz m d a => Sys2Proof.Machine.execClz m d a s
  | .brev m d a => Sys2Proof.Machine.execBrev m d a s
  | .cmp t a b => Sys2Proof.Machine.execCmp t a b s
  | .sel c d a b => Sys2Proof.Machine.execSel c d a b s
  | .mov m d a => Sys2Proof.Machine.execMov m d a s
  | .ext m d a b => Sys2Proof.Machine.execExt m d a b s
  | .adds m d a b => Sys2Proof.Machine.execAdds m d a b s
  | .subs m d a b => Sys2Proof.Machine.execSubs m d a b s
  | .fadd m d a b => Sys2Proof.Machine.execFadd m d a b s
  | .fsub m d a b => Sys2Proof.Machine.execFsub m d a b s
  | .fmul m d a b => Sys2Proof.Machine.execFmul m d a b s
  | .ffma m d a b => Sys2Proof.Machine.execFfma m d a b s
  | .fmin m d a b => Sys2Proof.Machine.execFmin m d a b s
  | .fmax m d a b => Sys2Proof.Machine.execFmax m d a b s
  | .fcmp t a b => Sys2Proof.Machine.execFcmp t a b s
  | .fdiv m d a b => Sys2Proof.Machine.execFdiv m d a b s
  | .fsqrt m d a => Sys2Proof.Machine.execFsqrt m d a s
  | .fsfu f d a => Sys2Proof.Machine.execFsfu f d a s
  | .fclass t d a => Sys2Proof.Machine.execFclass t d a s
  | .cvt r c d a => Sys2Proof.Machine.execCvt r c d a s
  | .dadd cc d a b => Sys2Proof.Machine.execDadd cc d a b s
  | .dmul cc d a b => Sys2Proof.Machine.execDmul cc d a b s
  | .dfma cc d a b => Sys2Proof.Machine.execDfma cc d a b s
  | .dcmp a b => Sys2Proof.Machine.execDcmp a b s
  | .quant t d a b => Sys2Proof.Machine.execQuant t d a b s
  | .deq t d a b => Sys2Proof.Machine.execDeq t d a b s
  | .pack d a => Sys2Proof.Machine.execPack d a s
  | .unpk d a => Sys2Proof.Machine.execUnpk d a s
  | .idot4 k d a b => Sys2Proof.Machine.execIdot4 k d a b s
  | .fdot2 k d a b => Sys2Proof.Machine.execFdot2 k d a b s
  | .shfl m d a b => Sys2Proof.Machine.execShfl m d a b s
  | .vote f d a => Sys2Proof.Machine.execVote f d a s
  | .rdfirst d a => Sys2Proof.Machine.execRdfirst d a s
  | .rdlane d a b => Sys2Proof.Machine.execRdlane d a b s
  | .wrlane d a b => Sys2Proof.Machine.execWrlane d a b s
  | .ccmovRd d => Sys2Proof.Machine.execCcmovRd d s
  | .ccmovWr a => Sys2Proof.Machine.execCcmovWr a s
  | .addi d a imm => Sys2Proof.Machine.execAddi d a imm s
  | .andi d a imm => Sys2Proof.Machine.execAndi d a imm s
  | .ori d a imm => Sys2Proof.Machine.execOri d a imm s
  | .xori d a imm => Sys2Proof.Machine.execXori d a imm s
  | .shli d a sh => Sys2Proof.Machine.execShli d a sh s
  | .shri d a sh => Sys2Proof.Machine.execShri d a sh s
  | .sari d a sh => Sys2Proof.Machine.execSari d a sh s
  | .cmpi a imm => Sys2Proof.Machine.execCmpi a imm s
  | .movi d imm => Sys2Proof.Machine.execMovi d imm s
  | .movhi d a h => Sys2Proof.Machine.execMovhi d a h s
  | .brc c off => Sys2Proof.Machine.execBrc c off s
  | .jmp off => Sys2Proof.Machine.execJmp off s
  | .call off => Sys2Proof.Machine.execCall off s
  | .ret => Sys2Proof.Machine.execRet s
  | .joinat off => Sys2Proof.Machine.execJoinat off s
  | .join => Sys2Proof.Machine.execJoin s
  | .loop a len stepw => Sys2Proof.Machine.execLoop a len stepw s
  | .winbase k => Sys2Proof.Machine.execWinbase k s
  | .curve d p acc => Sys2Proof.Machine.execCurve d p acc s
  | .mhint n => Sys2Proof.Machine.execMhint n s
  | .trap n => Sys2Proof.Machine.execTrap n s
  | .brkpt n => Sys2Proof.Machine.execBrkpt n s
  | .exit => Sys2Proof.Machine.execExit s
  | .nop => Sys2Proof.Machine.execNop s
  | .lds d a imm => Sys2Proof.Machine.execLds d a imm s
  | .sts x a imm => Sys2Proof.Machine.execSts x a imm s
  | .ldf d imm => Sys2Proof.Machine.execLdf d imm s
  | .jmpr a off => Sys2Proof.Machine.execJmpr a off s
  | .ld w d a b => Sys2Proof.Machine.execLd w d a b s
  | .st w x a b => Sys2Proof.Machine.execSt w x a b s
  | .ldacq w d a obs => Sys2Proof.Machine.execLdacq w d a obs s
  | .strel w x a obs => Sys2Proof.Machine.execStrel w x a obs s
  | .ldstr w d a b => Sys2Proof.Machine.execLdstr w d a b s
  | .ststr w x a b => Sys2Proof.Machine.execStstr w x a b s
  | .atom o d a obs => Sys2Proof.Machine.execAtom o d a obs s
  | .atom64 o d a obs => Sys2Proof.Machine.execAtom64 o d a obs s
  | .pref forWrite a b => Sys2Proof.Machine.execPref forWrite a b s
  | .fence k obs => Sys2Proof.Machine.execFence k obs s
  | .qfence wait qm => Sys2Proof.Machine.execQfence wait qm s
  | .talloc full l d sh => Sys2Proof.Machine.execTalloc full l d sh s
  | .tfree a => Sys2Proof.Machine.execTfree a s
  | .trd wide q d a b => Sys2Proof.Machine.execTrd wide q d a b s
  | .twr wide q x a b => Sys2Proof.Machine.execTwr wide q x a b s
  | .tstat d a => Sys2Proof.Machine.execTstat d a s
  | .copy xf cq a b => Sys2Proof.Machine.execCopy xf cq a b s
  | .setshape k d a p sh => Sys2Proof.Machine.execSetshape k d a p sh s
  | .rdshape d sh => Sys2Proof.Machine.execRdshape d sh s
  | .gang a => Sys2Proof.Machine.execGang a s
  | .mma g sh d a b mode idx fmt => Sys2Proof.Machine.execMma g sh d a b mode idx fmt s
  | .mdrain addTo sh d a b => Sys2Proof.Machine.execMdrain addTo sh d a b s
  | .mzero sh a => Sys2Proof.Machine.execMzero sh a s
  | .binit d a b => Sys2Proof.Machine.execBinit d a b s
  | .barv wait d a => Sys2Proof.Machine.execBarv wait d a s
  | .bexp a b => Sys2Proof.Machine.execBexp a b s
  | .bwait d a b => Sys2Proof.Machine.execBwait d a b s
  | .btest d a b => Sys2Proof.Machine.execBtest d a b s
  | .bstat hiHalf d a => Sys2Proof.Machine.execBstat hiHalf d a s
  | .enq d a => Sys2Proof.Machine.execEnq d a s
  | .cont a => Sys2Proof.Machine.execCont a s
  | .pusht d a => Sys2Proof.Machine.execPusht d a s
  | .popt d => Sys2Proof.Machine.execPopt d s
  | .steal d a => Sys2Proof.Machine.execSteal d a s
  | .pick o d a b => Sys2Proof.Machine.execPick o d a b s
  | .scan a b => Sys2Proof.Machine.execScan a b s
  | .rdsr d n => Sys2Proof.Machine.execRdsr d n s
  | .wrsr x n => Sys2Proof.Machine.execWrsr x n s
  | .dbgrd pair d a => Sys2Proof.Machine.execDbgrd pair d a s
  | .dbgwr d a b => Sys2Proof.Machine.execDbgwr d a b s
  | .tresume kill d a => Sys2Proof.Machine.execTresume kill d a s
  | .evsel die a b => Sys2Proof.Machine.execEvsel die a b s
  | .evrd die d a => Sys2Proof.Machine.execEvrd die d a s
  | .ckpt d a b => Sys2Proof.Machine.execCkpt d a b s
  | .tlbinv k d a b => Sys2Proof.Machine.execTlbinv k d a b s
  | .deadrg k d a b => Sys2Proof.Machine.execDeadrg k d a b s
  | .rdcurve d => Sys2Proof.Machine.execRdcurve d s
  | .binv a => Sys2Proof.Machine.execBinv a s
  | .clauseStart h => Sys2Proof.Machine.execClauseStart h s
  | .loadComplete op => Sys2Proof.Machine.execLoadComplete op s
  | .atomicComplete op => Sys2Proof.Machine.execAtomicComplete op s
  | .trdComplete op bad => Sys2Proof.Machine.execTrdComplete op bad s
  | .joinBlockUpdate j => Sys2Proof.Machine.execJoinBlockUpdate j s
  | .granuleWaitEnd tid => Sys2Proof.Machine.execGranuleWaitEnd tid s
  | .granuleWaitTimeout tid => Sys2Proof.Machine.execGranuleWaitTimeout tid s
  | .tileRestore tile granule => Sys2Proof.Machine.execTileRestore tile granule s
  | .copyStallEnd tid => Sys2Proof.Machine.execCopyStallEnd tid s
  | .copyAcknowledge cp => Sys2Proof.Machine.execCopyAcknowledge cp s
  | .copyBegin cp => Sys2Proof.Machine.execCopyBegin cp s
  | .copyLand cp elem o => Sys2Proof.Machine.execCopyLand cp elem o s
  | .barrierWaitWake tid => Sys2Proof.Machine.execBarrierWaitWake tid s
  | .barrierTimeout tid => Sys2Proof.Machine.execBarrierTimeout tid s
  | .rendezvousTimeout tid => Sys2Proof.Machine.execRendezvousTimeout tid s
  | .mqOperationBegin core => Sys2Proof.Machine.execMqOperationBegin core s
  | .mmaComplete op err => Sys2Proof.Machine.execMmaComplete op err s
  | .mdrainComplete op bad => Sys2Proof.Machine.execMdrainComplete op bad s
  | .mzeroComplete op => Sys2Proof.Machine.execMzeroComplete op s
  | .matrixRampupEnd core => Sys2Proof.Machine.execMatrixRampupEnd core s
  | .matrixHoldExpiry core => Sys2Proof.Machine.execMatrixHoldExpiry core s
  | .matrixRampdnEnd core => Sys2Proof.Machine.execMatrixRampdnEnd core s
  | .mhintExpiry tid => Sys2Proof.Machine.execMhintExpiry tid s
  | .emulationComplete tid => Sys2Proof.Machine.execEmulationComplete tid s
  | .emulationTimeout tid reported => Sys2Proof.Machine.execEmulationTimeout tid reported s
  | .fenceWaitEnd tid => Sys2Proof.Machine.execFenceWaitEnd tid s
  | .qfenceWaitEnd tid => Sys2Proof.Machine.execQfenceWaitEnd tid s
  | .curveDecision core => Sys2Proof.Machine.execCurveDecision core s
  | .curveDecisionAbandon core => Sys2Proof.Machine.execCurveDecisionAbandon core s
  | .curveRampStart core => Sys2Proof.Machine.execCurveRampStart core s
  | .curveRampEnd core => Sys2Proof.Machine.execCurveRampEnd core s
  | .dispatchPop core => Sys2Proof.Machine.execDispatchPop core s
  | .groupRelease gid => Sys2Proof.Machine.execGroupRelease gid s
  | .decantComplete die entry failed => Sys2Proof.Machine.execDecantComplete die entry failed s
  | .balancerQueueMove ctx region die idx toDie => Sys2Proof.Machine.execBalancerQueueMove ctx region die idx toDie s
  | .balancerMoveMark gid toCore => Sys2Proof.Machine.execBalancerMoveMark gid toCore s
  | .balancerMoveSwap gid => Sys2Proof.Machine.execBalancerMoveSwap gid s
  | .balancerMoveTimeout gid => Sys2Proof.Machine.execBalancerMoveTimeout gid s
  | .handlerStart core => Sys2Proof.Machine.execHandlerStart core s
  | .handlerWatchdogEscalation core => Sys2Proof.Machine.execHandlerWatchdogEscalation core s
  | .faultRepairComplete f => Sys2Proof.Machine.execFaultRepairComplete f s
  | .faultRepairTimeout f => Sys2Proof.Machine.execFaultRepairTimeout f s
  | .faultRecordReply f ok => Sys2Proof.Machine.execFaultRecordReply f ok s
  | .atsTranslationCompletion f host => Sys2Proof.Machine.execAtsTranslationCompletion f host s
  | .priPageResponse f ok => Sys2Proof.Machine.execPriPageResponse f ok s
  | .atsInvalidateRequest ctx page count => Sys2Proof.Machine.execAtsInvalidateRequest ctx page count s
  | .redundantCommitCompare tid => Sys2Proof.Machine.execRedundantCommitCompare tid s
  | .redundantWaitTimeout tid => Sys2Proof.Machine.execRedundantWaitTimeout tid s
  | .preemptionSwap core => Sys2Proof.Machine.execPreemptionSwap core s
  | .swapResume core => Sys2Proof.Machine.execSwapResume core s
  | .bankSpill core => Sys2Proof.Machine.execBankSpill core s
  | .bankLoad core image => Sys2Proof.Machine.execBankLoad core image s
  | .bankRetention core bank => Sys2Proof.Machine.execBankRetention core bank s
  | .ckptImageWrite core => Sys2Proof.Machine.execCkptImageWrite core s
  | .ckptTimeout core => Sys2Proof.Machine.execCkptTimeout core s
  | .memoryRequestAtHome op lane o => Sys2Proof.Machine.execMemoryRequestAtHome op lane o s
  | .homeFaultReplay home => Sys2Proof.Machine.execHomeFaultReplay home s
  | .internalQueueResend core home => Sys2Proof.Machine.execInternalQueueResend core home s
  | .scanCommandExecute cmd picked => Sys2Proof.Machine.execScanCommandExecute cmd picked s
  | .pickCommandExecute die => Sys2Proof.Machine.execPickCommandExecute die s
  | .channelRetirementRequest channel => Sys2Proof.Machine.execChannelRetirementRequest channel s
  | .channelCopyDone => Sys2Proof.Machine.execChannelCopyDone s
  | .channelSwitch => Sys2Proof.Machine.execChannelSwitch s
  | .hostSubmit tag ctx addr die => Sys2Proof.Machine.execHostSubmit tag ctx addr die s
  | .objectLoad tag ctx addr acceptDownlevel requireSigned => Sys2Proof.Machine.execObjectLoad tag ctx addr acceptDownlevel requireSigned s
  | .objectUnload tag ctx code => Sys2Proof.Machine.execObjectUnload tag ctx code s
  | .contextCreate tag ctx pasid root regions rootRegion => Sys2Proof.Machine.execContextCreate tag ctx pasid root regions rootRegion s
  | .contextDestroy tag ctx => Sys2Proof.Machine.execContextDestroy tag ctx s
  | .svnRaise counter value signedOk => Sys2Proof.Machine.execSvnRaise counter value signedOk s
  | .decodeTableUpdate signedOk => Sys2Proof.Machine.execDecodeTableUpdate signedOk s
  | .keyInstall keyid key signedOk => Sys2Proof.Machine.execKeyInstall keyid key signedOk s
  | .keyRemove keyid signedOk => Sys2Proof.Machine.execKeyRemove keyid signedOk s
  | .imageRestore core place => Sys2Proof.Machine.execImageRestore core place s
  | .correlationRecordPeriodic core => Sys2Proof.Machine.execCorrelationRecordPeriodic core s
  | .firmwareHeartbeatLapse fw => Sys2Proof.Machine.execFirmwareHeartbeatLapse fw s
  | .recoveryRead addr => Sys2Proof.Machine.execRecoveryRead addr s
  | .recoveryWrite addr x => Sys2Proof.Machine.execRecoveryWrite addr x s
  | .recoveryPlace ctx addr die => Sys2Proof.Machine.execRecoveryPlace ctx addr die s
  | .recoveryReset core => Sys2Proof.Machine.execRecoveryReset core s
  | .recoveryThaw => Sys2Proof.Machine.execRecoveryThaw s
  | .getVersion tag => Sys2Proof.Machine.execGetVersion tag s
  | .getCapabilities tag => Sys2Proof.Machine.execGetCapabilities tag s
  | .negotiateAlgorithms tag => Sys2Proof.Machine.execNegotiateAlgorithms tag s
  | .getDigests tag => Sys2Proof.Machine.execGetDigests tag s
  | .getCertificate tag => Sys2Proof.Machine.execGetCertificate tag s
  | .challenge tag nonce => Sys2Proof.Machine.execChallenge tag nonce s
  | .getMeasurements tag block => Sys2Proof.Machine.execGetMeasurements tag block s
  | .powerLoss => Sys2Proof.Machine.execPowerLoss s
  | .reset sec others => Sys2Proof.Machine.execReset sec others s
  | .portEnable p => Sys2Proof.Machine.execPortEnable p s
  | .portDisable p => Sys2Proof.Machine.execPortDisable p s
  | .trainingAttemptEnd p ok peer => Sys2Proof.Machine.execTrainingAttemptEnd p ok peer s
  | .portLockLoss p => Sys2Proof.Machine.execPortLockLoss p s
  | .flitReceive p f => Sys2Proof.Machine.execFlitReceive p f s
  | .peerHoldRelease op lane => Sys2Proof.Machine.execPeerHoldRelease op lane s
  | .peerWindowWrite w w0 w1 => Sys2Proof.Machine.execPeerWindowWrite w w0 w1 s
  | .linkcfgWrite x => Sys2Proof.Machine.execLinkcfgWrite x s
  | .msixUnmask vec => Sys2Proof.Machine.execMsixUnmask vec s
  | .deviceRegisterWrite addr x => Sys2Proof.Machine.execDeviceRegisterWrite addr x s
  | .tileSpill tile => Sys2Proof.Machine.execTileSpill tile s
  | .doeDiscovery index => Sys2Proof.Machine.execDoeDiscovery index s
  | .mailboxRead mb => Sys2Proof.Machine.execMailboxRead mb s

end Sys2Proof.Machine
end

