-- ==== Sys2Proof/Machine/Cycles.lean ====
section
/-!
DEFINITION. The passing of cycles on a core: COUNT (R71) and what the core counters count in each cycle (R365).
-/
namespace Sys2Proof.Machine

/-- The filler cycles of the matrix engine among n cycles from now on (R68, R365). -/
def CoreSt.fillers (x : CoreSt) (n : Nat) : Nat :=
  match x.mat with
  | .rampup => min (x.count + n) (x.matAt + 64) - x.count
  | .rampdn => min (x.count + n) (x.matAt + 32) - x.count
  | .idle | .active | .hold => 0

/-- The MAC steps of n cycles from now on, those of the operation that has begun, counted for its context (R365). -/
def State.countMacs (s : State) (core n : Nat) : State :=
  let c := (s.core core).count
  match afind (fun _ m => m.core == core && m.begun) s.mqs with
  | some m => s.ctxEvent core m.2.ctx 5 (s.macsDone m.2 (c + n - m.2.at_) - s.macsDone m.2 (c - m.2.at_))
  | none => s

/-- n cycles of a core: COUNT and the counters of cycles, of filler cycles, of MAC steps and of waiting teams move on (R71, R365). COUNT does
not advance during a ramp. -/
def State.passCycle (s : State) (core n : Nat) : State :=
  let x := s.core core
  if (match x.move with
      | some m => m.ramping
      | none => false) then s
  else
    let waiting := acount (fun _ t => t.st == .waiting && (match alook t.gid s.groups with
      | some g => g.place == .bank core x.act
      | none => false)) s.teams
    ((((s.countMacs core n).modCore core fun y => { y with count := y.count + n }).coreEvent core 1 n).coreEvent core 4 (x.fillers n)).coreEvent
      core 7 (n * waiting)

/-- What an issue is charged: its cycles, and the counters of issue cycles of teams and of vector passes (R365). -/
def State.charge (s : State) (e : Env) (cost np : Nat) : State :=
  let s1 := s.passCycle e.core cost
  if e.ctl then s1.coreEvent e.core 3 np else (s1.coreEvent e.core 2 cost).coreEvent e.core 3 np

end Sys2Proof.Machine
end

