-- ==== Sys2Proof/Machine/Outside.lean ====
section
/-!
DEFINITION. What the outside does that is no instruction and no step of an engine: requests of the host and of peers to this package's
memory (R249, R250, R338, R342), errors that arise in memory (R326), the passing of time and the firmware's heartbeats (R361), and the
ring of correlation records (R362).
-/
namespace Sys2Proof.Machine

/-! ## Requests of the host and of peers (R249, R250, R342) -/

/-- The number under which a requester's requests are kept beside the cores' (R268): the host's 384, and a peer's after it. -/
def Agent.port (a : Agent) : Nat :=
  match a with
  | .peer p _ => Config.nCores + 1 + p
  | _ => Config.nCores

/-- A requester reaches an address: the host one of its aperture of device memory, BAR2 of PF0 (R342); a peer over an ACTIVE port that leads
to it, since a port in any other state accepts no flit (R334). -/
def State.reaches (s : State) (a : Agent) (addr n : Nat) : Bool :=
  match a with
  | .host _ => Nat.ble s.bar2.1 addr && Nat.ble (addr + n) (s.bar2.1 + s.bar2.2 * 2 ^ 30)
  | .peer p _ => (s.peerPort p).isSome
  | .none | .team _ | .ctl _ _ => true

/-- The target of a request from outside: tier-1 or populated tier-2 memory that its requester reaches, naturally aligned (R338, R342). -/
def State.outTarget (s : State) (r : OutReq) : Option Target :=
  if [1, 2, 4, 8].contains r.n && r.addr % r.n == 0 && s.reaches r.ag r.addr r.n then
    match s.range r.addr with
    | .tier1 | .tier2 => some (.dev r.addr)
    | .hole | .peer _ | .reg => none
  else none

/-- A write that a requester's later ordered ones are performed after: of the host a posted write in order (R250), of a peer any (R249). -/
def OutReq.earlier (r : OutReq) (ag : Agent) (strong : Bool) : Bool :=
  ag == r.ag && (match r.ag with
    | .peer _ _ => true
    | _ => strong)

/-- What must be performed before a request: for an ordered write the requester's earlier writes. -/
def State.outAfter (s : State) (r : OutReq) : List Nat :=
  if r.ordered then
    ((afilter (fun _ o => r.earlier o.ag o.rel && !o.kind.loads) s.pend).map fun e => e.1) ++
      (s.past.filter fun w => r.earlier w.ag w.strong).map fun w => w.op
  else []

/-- A request taken in: a pending operation of one lane. One to what is not populated, or out of its requester's reach, has no effect here. -/
def State.outside (s : State) (r : OutReq) : State :=
  match s.outTarget r with
  | none => s
  | some g =>
    let l : LaneAcc := { lane := 0, va := BitVec.ofNat 64 r.addr, tgt := g, n := r.n, x := r.x, y := r.y, st := .sent, res := 0, via := none, put := false }
    { s with
      pend := aset s.nextId {
        ag := r.ag, gid := 0, ctx := 0, core := r.ag.port, kind := r.kind, acq := false, rel := r.ordered, lanes := [l], flag := none
        dst := .none, pc := 0, obs := r.obs, fences := [], after := s.outAfter r, killed := false, twin := none } s.pend
      nextId := s.nextId + 1 }

/-! ## Errors, time and the ring (R326, R361, R362) -/

/-- An uncorrectable error that arises in 64 bytes of populated memory; a dead unit reads zero, and has none (R328). -/
def State.decay (s : State) (line : Nat) : State :=
  match s.range (64 * line) with
  | .tier1 | .tier2 => if deadHas s.dead (line / 64) then s else s.addPoison line
  | .hole | .peer _ | .reg => s

/-- A firmware core that runs writes its heartbeat. -/
def State.beat (s : State) (fw : Nat) : State :=
  if fw < 8 ∧ s.fwUp fw = true then { s with fw := { s.fw with beats := aset fw s.fw.now s.fw.beats } } else s

/-- The ring of correlation records named by system software: its base in host memory, and how many records it holds. -/
def State.nameRing (s : State) (base size : Nat) : State :=
  { s with fw := { s.fw with ringBase := base, ringSize := size, ringPut := 0, ringGot := 0 } }

/-- The MEM firmware frees the units of a range of one tier to another owner: it marks them dead, before they are mapped again (R328, R359). -/
def State.freeUnits (s : State) (lo hi : Nat) : State :=
  if s.fwUp 2 && Nat.blt lo hi && s.inOneTier (4096 * lo) (4096 * (hi - lo)) then s.killUnits lo hi else s

/-- The host's aperture of device memory, which the host resizes among the powers of two from 1 to 64 GiB and moves (R342). -/
def State.setAperture (s : State) (base gib : Nat) : State :=
  if [1, 2, 4, 8, 16, 32, 64].contains gib then { s with bar2 := (base, gib) } else s

/-- Records of the ring taken by the host. -/
def State.takeRing (s : State) (n : Nat) : State := { s with fw := { s.fw with ringGot := min s.fw.ringPut (s.fw.ringGot + n) } }

/-- What the outside does, of a turn that is neither a step nor an issue. -/
def State.outsideTurn (s : State) (t : Turn) : State :=
  match t with
  | .event _ | .turn _ => s
  | .pass c n => s.passCycle c n
  | .outside r => s.outside r
  | .decay line => s.decay line
  | .elapse us => { s with fw := { s.fw with now := s.fw.now + us } }
  | .beat k => s.beat k
  | .nameRing base size => s.nameRing base size
  | .takeRing n => s.takeRing n
  | .free lo hi => s.freeUnits lo hi
  | .aperture base gib => s.setAperture base gib
  | .ptm on => { s with fw := { s.fw with ptm := on } }

end Sys2Proof.Machine
end

