-- ==== Sys2Proof/Machine/Sweep.lean ====
section
/-!
DEFINITION. What follows from each step without one of its own: rendezvous whose latch has come free (R202), the matrix engines' states
(R66, R68, R216), watchdogs that have expired (R384), and swaps that a kill has made due (R386).
-/
namespace Sys2Proof.Machine

/-- What a watchdog bounds: a team's wait, a core's curve decision (R65), its CKPT (R314), its handler (R296), or a fault's repair (R320). -/
inductive Due where
  | team (tid : Nat)
  | curve
  | ckpt
  | handler
  | fault (f : Nat)
  deriving DecidableEq, Repr

/-- The end that a watchdog makes, where the wait has not ended otherwise. -/
def State.fire (s : State) (core : Nat) (d : Due) : Option State :=
  match d with
  | .team tid =>
    match alook tid s.teams with
    | some t => match t.wait with
      | .barrier _ _ _ _ _ => s.barrierTimeout tid
      | .granule _ _ => s.granuleTimeout tid
      | .rendezvous _ => s.rendezvousTimeout tid
      | .emul _ _ => s.emulationTimeout tid false
      | .commit _ _ => s.redundantTimeout tid
      | _ => none
    | none => none
  | .curve => s.curveAbandon core
  | .ckpt => s.ckptTimeout core
  | .handler => s.handlerOverdue core
  | .fault f => s.faultTimeout f

/-- The watchdogs of a core that have expired, each with its cycle and its team's slot; the control thread's come after the teams'. -/
def State.dues (s : State) (core : Nat) : List (Nat × Nat × Due) :=
  let x := s.core core
  let teams := (s.activeTeams core).filterMap fun (e : Nat × Team) =>
    if s.expired e.1 e.2.since then some (s.expiry e.1 e.2.since, e.2.slot, Due.team e.1) else none
  let curve := match firstWaiter (s.curveTeams core) with
    | some f => [(s.expiry f.1 f.2.since, f.2.slot, Due.curve)]
    | none => []
  let ckpt := match x.ckpt with
    | some k => [(k.since + s.wdogOf (.ctl core k.ctx), 16, Due.ckpt)]
    | none => []
  let handler := match x.active.handling with
    | some h => [(h.since + 16 * 1024, 16, Due.handler)]
    | none => []
  let faults := (s.faults.filter fun e => e.2.core == core).map fun e => (e.2.since + 16 * 1024, 17, Due.fault e.1)
  (teams ++ curve ++ ckpt ++ handler ++ faults).filter fun d => Nat.ble d.1 x.count

/-- The earlier of two expiries; in one cycle, that of the lower slot (R384). -/
def earlier (x y : Nat × Nat × State) : Nat × Nat × State :=
  if x.1 < y.1 ∨ (x.1 = y.1 ∧ x.2.1 ≤ y.2.1) then x else y

/-- The state after the first of the watchdogs that have expired on a core. -/
def State.fireFirst (s : State) (core : Nat) : Option State :=
  match (s.dues core).filterMap fun d => (s.fire core d.2.2).map fun s1 => (d.1, d.2.1, s1) with
  | [] => none
  | d :: r => some (r.foldl earlier d).2.2

/-- Every watchdog that has expired on a core ends its wait, in the order of expiry (R384). -/
def State.sweep (s : State) (core : Nat) : Nat → State
  | 0 => s
  | fuel + 1 =>
    match s.fireFirst core with
    | some s1 => s1.sweep core fuel
    | none => s

/-- A swap that a kill has made due begins in the cycle after the kill's (R386): where the kill's own cycle is charged already, at once. -/
def State.dueSwap (s : State) (core : Nat) : State :=
  match (s.core core).swapDue with
  | some c => if (s.core core).maySwap then (s.passCycle core (c - (s.core core).count)).swapBanks core else s
  | none => s

/-- A step's free values are counted (log entry 6). -/
def State.tick (s : State) : State := { s with freeN := s.freeN + 1 }

/-- What follows on one core. -/
def State.settleCore (s : State) (core : Nat) : State :=
  let s1 := if (s.core core).held then s else s.settleLatch core 16
  let s2 := s1.sweep core (s1.dues core).length
  ((s2.settleEngine core).dueSwap core).tick

/-- What follows from a step on every core. -/
def State.afterStep (s : State) : State := s.cores.foldl (fun (st : State) e => st.settleCore e.1) s.tick

end Sys2Proof.Machine
end

