-- ==== Sys2Proof/Machine/Run.lean ====
section
/-!
DEFINITION. One step of the machine, in parts: an agent's issue (the word fetched, decoded and executed, its cycles charged,
the next agent chosen), and the turns of the schedule that the state carries (log entry 1).
-/
namespace Sys2Proof.Machine

/-- The cycles that an instruction or header that trapped is charged (R62): one, or none where an operation issued before delivered its
error; none says that nothing trapped. The control thread has trapped where its run is over, and its EXIT costs one cycle too. -/
def State.trapCost (s : State) (a : Agent) : Option Nat :=
  match s.agent a with
  | some t =>
    if t.st = .stopped ∨ (t.ctl = true ∧ t.st = .retired) then some (b2n (!(t.trap.any fun x => x.late))) else none
  | none => none

/-- The end of an issue: its cost, or a trap's (R62); then the next agent. -/
def State.endIssue (s : State) (a : Agent) (e : Env) (slot cost np : Nat) : State :=
  (match s.trapCost a with
    | some n => s.charge e n 0
    | none => s.charge e cost np).rotate e.core slot

/-! ## What holds an agent (R248, R330, R336, R338, R340) -/

/-- How many words the fetch of an instruction takes: its extension words, a LOOP's body, or a header's clause (R26, R138). -/
def fetchSpan (w : W32) : Nat :=
  if isHeader w then bits w.toNat 9 6 + 2
  else wordSpan w + (if w.toNat / 2 ^ 30 == 1 && bits w.toNat 29 25 == 0x10 then w.toNat % 128 else 0)

/-- The address of an agent's next word; none in a residual or in the loop buffer, of which nothing is fetched (R138, R283). -/
def Team.fetchesAt (t : Team) : Option W64 :=
  match t.pc with
  | .resid _ _ => none
  | .code a => if t.loop.any fun q => (t.pc.wordsFrom q.start q.len).isSome then none else some a

/-- An address in each aligned 64 bytes of n words from an address on. -/
def fetchLines (a : W64) (n : Nat) : List W64 :=
  (List.range ((a.toNat % 64 + 4 * n + 63) / 64)).map fun i => if i = 0 then a else BitVec.ofNat 64 (a.toNat / 64 * 64 + 64 * i)

/-- The fetches of an agent's next word and of what goes with it, by address. -/
def State.fetches (s : State) (e : Env) (t : Team) : List W64 :=
  match t.fetchesAt with
  | none => []
  | some a => match s.fetchWord e.ctx t.level a.toNat with
    | .ok w => fetchLines a (fetchSpan w)
    | .error _ => [a]

/-- A fetch must wait: for its walk, or for the home of the word. -/
def State.fetchBlocked (s : State) (ctx : Nat) (level : Level) (a : W64) : Bool :=
  Nat.blt a.toNat (2 ^ 56) && (s.walkBlocked ctx a.toNat || (match s.fetchAt ctx level a.toNat with
    | .ok g => s.blocked g
    | .error _ => false))

/-- An agent waits for the fetch of its next word. -/
def State.fetchHeld (s : State) (e : Env) (t : Team) : Bool := (s.fetches e t).any fun a => s.fetchBlocked e.ctx t.level a

/-- An instruction that may transfer control, whose target is fetched for its check (R126). -/
def transfers (i : Instr) : Bool :=
  match i with
  | .brc .. | .jmp .. | .jmpr .. | .call .. | .ret | .join | .exit => true
  | _ => false

/-- The address at which an agent has a trap that a walk gave it. -/
def TrapRec.walkAddr (x : TrapRec) : Option Nat :=
  match x.cause with
  | .page | .protect | .fetch => if x.addr.toNat < 2 ^ 56 then some x.addr.toNat else none
  | _ => none

/-- An instruction must wait, which executed now would give the state `u`: for a walk that it takes or whose end is its trap, or for the word
that it transfers control to. -/
def State.execHeld (s : State) (e : Env) (t : Team) (i : Instr) (u : State) : Bool :=
  (u.tlb.any fun x => !s.tlb.contains x && s.walkBlocked x.ctx x.page) ||
  (match u.agent s.cur with
   | none => false
   | some v =>
     (v.trap != t.trap && (v.trap.bind TrapRec.walkAddr).any fun a => s.walkBlocked e.ctx a) ||
     (transfers i && (match v.pc with
       | .code b => s.fetchBlocked e.ctx t.level b
       | .resid _ _ => false)))

/-! ## The issue -/

/-- What an agent's instruction gives, where nothing holds it; held, it leaves the issue port to the next and issues again. -/
def State.unlessHeld (s : State) (e : Env) (t : Team) (i : Instr) (o : Host.Outcome State Fault Refusal) (k : State → State) :
    Host.Outcome State Fault Refusal :=
  match o with
  | .next u => .next (if s.sideHeld e t i || s.execHeld e t i u then s.rotate e.core t.slot else k u)
  | .fault f => .fault f
  | .refused r => .refused r

/-- An instruction issued by an agent. EVSEL's own cycle is not counted by the counter it sets (R366). -/
def issueInstr (s : State) (e : Env) (t : Team) (i : Instr) : Host.Outcome State Fault Refusal :=
  if t.flagFull i then .next s
  else
    match i with
    | .evsel die a b => s.unlessHeld e t i (exec (.evsel die a b) (s.charge e 1 0)) fun u => u.rotate e.core t.slot
    | j => s.unlessHeld e t j (exec j s) fun u => u.endIssue s.cur e t.slot (issueCost e t j) (passes e t j)

/-- The walks and the requests that a team's fetch takes (R340, R365); a walk that ends in FETCH is its trap's. -/
def State.useFetch (s : State) (e : Env) (t : Team) : State :=
  let l := (s.fetches e t).filterMap fun a => match s.fetchAt e.ctx t.level a.toNat with
    | .ok g => some (a, g)
    | .error _ => none
  (s.useAll e (l.map fun x => x.1)).sendReqs (l.map fun x => x.2)

/-- The state in which an agent issues: where its residual ends it goes on in the original code, and its fetch has its translations. -/
def State.readyToIssue (s : State) (t : Team) : State :=
  let t1 := t.outOf s
  (if t1 = t then s else s.setAgent s.cur t1).useFetch (s.env s.cur) t1

/-- An agent that is able to issue does: its word is fetched, decoded and executed. -/
def issueNow (s : State) : Host.Outcome State Fault Refusal :=
  match s.agent s.cur with
  | none => .next s
  | some t =>
    let e := s.env s.cur
    match issueWord s e t with
    | .error x => .next ((takeTrap s x).endIssue s.cur e t.slot 1 0)
    | .ok i => issueInstr s e t i

/-- The current agent issues its next word. An agent that is not able to issue, or whose fetch must wait, leaves the issue port to the next. -/
def issue (s : State) : Host.Outcome State Fault Refusal :=
  match s.agent s.cur with
  | none => .next s
  | some t =>
    if s.canIssue s.cur && !s.fetchHeld (s.env s.cur) (t.outOf s) then issueNow (s.readyToIssue t)
    else .next (s.rotate (s.env s.cur).core t.slot)

/-- A step with all that follows from it. -/
def countStep (o : Host.Outcome State Fault Refusal) : Host.Outcome State Fault Refusal :=
  match o with
  | .next s => .next s.afterStep
  | .fault f => .fault f
  | .refused r => .refused r

/-- One turn of the schedule, or an issue where it holds none. -/
def turn (s : State) : Host.Outcome State Fault Refusal :=
  match s.agenda with
  | [] => issue s
  | .event i :: r => exec i { s with agenda := r }
  | .turn a :: r => issue { s with agenda := r, cur := a }
  | t :: r => .next (({ s with agenda := r } : State).outsideTurn t)

/-- A part whose boot has halted, or that has lost its power, does nothing more until it is reset (R316, R367), but for what PF1 reports. -/
def alive (s : State) : Option Fault :=
  match s.fw.halted with
  | some k => some (.bootHalted k)
  | none => if s.fw.powered then none else some .powerOff

/-- The head of the schedule is a reset. -/
def State.resetNext (s : State) : Bool :=
  match s.agenda with
  | .event (.reset _ _) :: _ => true
  | _ => false

/-- The host reads what PF1 reports of a boot that has halted (R367). -/
def State.pf1Next (s : State) : Bool :=
  s.fw.halted.isSome && (match s.agenda with
    | .event (.mailboxRead mb) :: _ => mb == pf1
    | _ => false)

end Sys2Proof.Machine
end

