-- ==== Sys2Proof/Machine/Step.lean ====
section
/-!
DEFINITION. The step of the machine, and the state in which a given instruction is the next that it fetches.
-/
namespace Sys2Proof.Machine

/-- One step: a part that does nothing more faults, unless it is reset or PF1 is read; otherwise the head of the schedule is taken, or the
current agent issues. -/
def step (s : State) : Host.Outcome State Fault Refusal :=
  match alive s with
  | some f => if s.resetNext || s.pf1Next then countStep (turn s) else .fault f
  | none => countStep (turn s)

/-- A state in which `step` fetches the instruction of an opcode-table word next (log entry 2). -/
def State.withFetchWord (s : State) (nbits w : Nat) : State := s.placeWords (tableWords nbits w)

end Sys2Proof.Machine
end

