-- ==== Sys2Proof/Safety.lean ====
section
/-!
DEFINITION. What counts as a safe run, in the terms that statements use: a run of k steps that ends in a next state, a
property that no step leaves, and the canonical form of the three byte memories.
-/
namespace Sys2Proof

/-- A run of k steps meets no fault and no refusal. -/
def SafeRun (k : Nat) (s : Machine.State) : Prop := ∃ s', core.run k s = .next s'

/-- A property that every step keeps. -/
def Kept (P : Machine.State → Prop) : Prop := ∀ s s', P s → Machine.step s = .next s' → P s'

/-- Device, host and peer memory are in their canonical form: addresses strictly rising, and no listed byte that an
unlisted address would read as. -/
def MemInv (s : Machine.State) : Prop :=
  Machine.Memory.wf s.mem ∧ Machine.Memory.wf s.hostMem ∧ Machine.Memory.wf s.peerMem

end Sys2Proof
end

