-- ==== Sys2Proof/Certificates/Slice0/Obligations.lean ====
section
/-!
DEFINITION. The statements for the provers, with the helpers they are written with. Each docstring names the rules of spec/ that its
statement rests on; a clause that rests on a choice of the model's names its log entry (notes/assumptions).
-/
open Sys2Proof Sys2Proof.Machine

namespace Sys2Proof.Claims

/-! ## What statements are written with -/

/-- The issuing agent's instruction leaves its state as given, and the agent falls through to the next instruction. -/
def Falls (i : Instr) (s : State) (t' : Team) : Prop := exec i s = .next (s.setAgent s.cur (t'.advance i.words))

/-- sh0 is a vector shape whose grant is not stale, so that per-lane instructions may execute (R155). -/
def Vectors (t : Team) : Prop := t.sh0.kind = .vec ∧ t.sh0.stale = false

/-- Sources that the team may read (R22). -/
def Readable (t : Team) (xs : List Src) : Prop := ∀ x ∈ xs, okSrc t x = true

/-- Sources that the team may read, all of scalar class. -/
def Scalars (t : Team) (xs : List Src) : Prop := ∀ x ∈ xs, okSrc t x = true ∧ isVec t x = false

/-- Sources that may be 64-bit operands (R23). -/
def Pairs (t : Team) (xs : List Src) : Prop := ∀ x ∈ xs, okPairSrc t x = true

/-- A destination of vector class that the team may write (R22). -/
def VecDst (t : Team) (d : Reg) : Prop := isVecDst d = true ∧ okDst t d = true

/-! ## Lane arithmetic -/

/-- The Form A integer instructions that write a destination and form codes (R82). -/
inductive IntOp where
  | add | sub | addc | subb | mul | mulh | mad | div | rem | min | max | absd | and | or | xor
  | andn | shl | shr | sar | rot | bfe | bfi | popc | clz | brev | mov | ext | adds | subs
  deriving DecidableEq, Repr

/-- The instruction; a unary one has no second source. -/
def IntOp.instr (o : IntOp) (m : IntMod) (d : Reg) (a b : Src) : Instr :=
  match o with
  | .add => .add m d a b
  | .sub => .sub m d a b
  | .addc => .addc m d a b
  | .subb => .subb m d a b
  | .mul => .mul m d a b
  | .mulh => .mulh m d a b
  | .mad => .mad m d a b
  | .div => .div m d a b
  | .rem => .rem m d a b
  | .min => .min m d a b
  | .max => .max m d a b
  | .absd => .absd m d a b
  | .and => .and m d a b
  | .or => .or m d a b
  | .xor => .xor m d a b
  | .andn => .andn m d a b
  | .shl => .shl m d a b
  | .shr => .shr m d a b
  | .sar => .sar m d a b
  | .rot => .rot m d a b
  | .bfe => .bfe m d a b
  | .bfi => .bfi m d a b
  | .popc => .popc m d a
  | .clz => .clz m d a
  | .brev => .brev m d a
  | .mov => .mov m d a
  | .ext => .ext m d a b
  | .adds => .adds m d a b
  | .subs => .subs m d a b

/-- The operation on one element. -/
def IntOp.op (o : IntOp) : IntIn → IntRes :=
  match o with
  | .add => opAdd
  | .sub => opSub
  | .addc => opAddc
  | .subb => opSubb
  | .mul => opMul
  | .mulh => opMulh
  | .mad => opMad
  | .div => opDiv
  | .rem => opRem
  | .min => opMin
  | .max => opMax
  | .absd => opAbsd
  | .and => opAnd
  | .or => opOr
  | .xor => opXor
  | .andn => opAndn
  | .shl => opShl
  | .shr => opShr
  | .sar => opSar
  | .rot => opRot
  | .bfe => opBfe
  | .bfi => opBfi
  | .popc => opPopc
  | .clz => opClz
  | .brev => opBrev
  | .mov => opMov
  | .ext => opExt
  | .adds => opAdds
  | .subs => opSubs

/-- The instruction has no second source. -/
def IntOp.unary (o : IntOp) : Bool :=
  match o with
  | .popc | .clz | .brev | .mov => true
  | _ => false

/-- The instruction has packed types (R82). -/
def IntOp.packed (o : IntOp) : Bool :=
  match o with
  | .addc | .subb | .div | .rem | .bfe | .bfi | .ext => false
  | _ => true

/-- What it gives on the scalar datapath, from the state before it. -/
def IntOp.scalar (o : IntOp) (m : IntMod) (d : Reg) (a b : Src) (e : Env) (t : Team) : LaneRes :=
  intScalarRes o.op m.ty (srcScalarX e t (intSx m.ty) a) (srcScalarX e t (intSx m.ty) b) (regScalar e t d) (nibC t.firstNib)

/-- What it gives in a lane, from the state before it. -/
def IntOp.lane (o : IntOp) (m : IntMod) (d : Reg) (a b : Src) (e : Env) (t : Team) (l : Nat) : LaneRes :=
  intLaneRes o.op m.ty (srcLane e t a l) (srcLane e t b l) (dstLane e t d l) (nibC (sget t.cc l))

end Sys2Proof.Claims

open Sys2Proof.Claims

/-- R81, R74, R78: a Form A integer instruction with a scalar destination (or `z`, which discards) executes once, at 64 bits, whatever
the lanes' states: the register gets the operation's result, and with `.c` every live lane gets its nibble. -/
def Obligations.IntegerScalarResult : Prop :=
  ∀ (o : IntOp) (m : IntMod) (d : Reg) (a b : Src) (s : State) (t : Team), s.agent s.cur = some t → isScaDst d = true →
    m.ty.packed = false → Scalars t [a, b] → (o.unary = true → b = .reg .z) →
    Falls (o.instr m d a b) s (t.applyScalar (some d) m.cc (o.scalar m d a b (s.env s.cur) t))

/-- R81, R73: a Form A integer instruction with a vector destination executes per live lane, element by element. -/
def Obligations.IntegerVectorResult : Prop :=
  ∀ (o : IntOp) (m : IntMod) (d : Reg) (a b : Src) (s : State) (t : Team), s.agent s.cur = some t → VecDst t d →
    (m.ty.packed = true → o.packed = true) → Readable t [a, b] → Vectors t → (o.unary = true → b = .reg .z) →
    Falls (o.instr m d a b) s (t.applyLanes (t.dstReg d) false m.cc (o.lane m d a b (s.env s.cur) t))

namespace Sys2Proof.Claims

/-- The Form B instructions that write a destination (R94, R95), with their immediates. -/
inductive ImmOp where
  | addi (imm : BitVec 11) | andi (imm : BitVec 11) | ori (imm : BitVec 11) | xori (imm : BitVec 11)
  | shli (sh : BitVec 6) | shri (sh : BitVec 6) | sari (sh : BitVec 6) | movi (imm : BitVec 11) | movhi (h : BitVec 11)
  deriving DecidableEq, Repr

/-- The instruction; MOVI has no source. -/
def ImmOp.instr (o : ImmOp) (d : Reg) (a : Src) : Instr :=
  match o with
  | .addi k => .addi d a k
  | .andi k => .andi d a k
  | .ori k => .ori d a k
  | .xori k => .xori d a k
  | .shli k => .shli d a k
  | .shri k => .shri d a k
  | .sari k => .sari d a k
  | .movi k => .movi d k
  | .movhi k => .movhi d a k

/-- The value that R94 and R95 give at a width of 32 or 64. -/
def ImmOp.value (o : ImmOp) {w : Nat} (x : BitVec w) : BitVec w :=
  match o with
  | .addi k => x + k.signExtend w
  | .andi k => x &&& k.signExtend w
  | .ori k => x ||| k.signExtend w
  | .xori k => x ^^^ k.signExtend w
  | .shli k => x <<< k.toNat
  | .shri k => x >>> k.toNat
  | .sari k => x.sshiftRight k.toNat
  | .movi k => k.signExtend w
  | .movhi k => k.setWidth w <<< (if w = 64 then 32 else 21) ||| (x &&& BitVec.ofNat w (2 ^ (if w = 64 then 32 else 21) - 1))

/-- MOVI reads no source: it is written with `z`. -/
def ImmOp.unary (o : ImmOp) : Bool :=
  match o with
  | .movi _ => true
  | _ => false

/-- The floating instructions that form codes (R97). -/
inductive FpOp where
  | fadd | fsub | fmul | ffma | fmin | fmax | fdiv | fsqrt
  deriving DecidableEq, Repr

/-- The instruction; FSQRT has no second source. -/
def FpOp.instr (o : FpOp) (m : FMod) (d : Reg) (a b : Src) : Instr :=
  match o with
  | .fadd => .fadd m d a b
  | .fsub => .fsub m d a b
  | .fmul => .fmul m d a b
  | .ffma => .ffma m d a b
  | .fmin => .fmin m d a b
  | .fmax => .fmax m d a b
  | .fdiv => .fdiv m d a b
  | .fsqrt => .fsqrt m d a

/-- The operation on one element of a format: the sources and the old destination. -/
def FpOp.op (o : FpOp) (f : Fmt) (x y z : Nat) : FpOut :=
  match o with
  | .fadd => f.add x y
  | .fsub => f.sub x y
  | .fmul => f.mul x y
  | .ffma => f.fma x y z
  | .fmin => f.minMax false x y
  | .fmax => f.minMax true x y
  | .fdiv => f.div x y
  | .fsqrt => f.sqrt x

/-- The FP64 instructions with a destination (R109). -/
inductive DpOp where
  | dadd | dmul | dfma
  deriving DecidableEq, Repr

/-- The instruction. -/
def DpOp.instr (o : DpOp) (cc : Bool) (d : Reg) (a b : Src) : Instr :=
  match o with
  | .dadd => .dadd cc d a b
  | .dmul => .dmul cc d a b
  | .dfma => .dfma cc d a b

/-- The operation. -/
def DpOp.op (o : DpOp) (x y z : Nat) : FpOut :=
  match o with
  | .dadd => Fmt.f64.add x y
  | .dmul => Fmt.f64.mul x y
  | .dfma => Fmt.f64.fma x y z

/-- The lane instructions without codes whose result is a function of one or two 32-bit lanes (R103, R105, R110, R111). -/
inductive NarrowOp where
  | fsfu (f : Sfu) | fclass (t : FTy) | quant (t : FTy) | deq (t : FTy) | pack | unpk
  deriving DecidableEq, Repr

/-- The instruction; a unary one has no second source. -/
def NarrowOp.instr (o : NarrowOp) (d : Reg) (a b : Src) : Instr :=
  match o with
  | .fsfu f => .fsfu f d a
  | .fclass t => .fclass t d a
  | .quant t => .quant t d a b
  | .deq t => .deq t d a b
  | .pack => .pack d a
  | .unpk => .unpk d a

/-- The result of a lane. -/
def NarrowOp.op (o : NarrowOp) (x y : W32) : FpOut :=
  match o with
  | .fsfu f => sfuEval f x.toNat
  | .fclass t => classLane t x
  | .quant t => quantLane t x y
  | .deq t => deqLane t x y
  | .pack => packLane x
  | .unpk => unpkLane x

/-- The instruction has no second source. -/
def NarrowOp.unary (o : NarrowOp) : Bool :=
  match o with
  | .quant _ | .deq _ => false
  | _ => true

/-- A result without codes. -/
def noCodes (r : FpOut) : LaneRes := { x := BitVec.ofNat 64 (r.x % 2 ^ 32), nib := 0, fl := r.fl }

end Sys2Proof.Claims

/-- R94, R95: a Form B instruction with a destination works on 64 bits once for a scalar one, and on each live lane's 32 bits for a
vector one, with its immediate sign-extended to the width (MOVHI's and a shift's unsigned); it writes no codes and no FPFLAGS. -/
def Obligations.ImmediateResult : Prop :=
  ∀ (o : ImmOp) (d : Reg) (a : Src) (s : State) (t : Team), s.agent s.cur = some t → (o.unary = true → a = .reg .z) →
    (isScaDst d = true → Scalars t [a] → Falls (o.instr d a) s (t.writeScalar d (o.value (srcScalar (s.env s.cur) t a)))) ∧
    ∀ n, d = .v n → VecDst t d → Readable t [a] → Vectors t →
      Falls (o.instr d a) s (t.writeLanes (t.reg n.val) t.liveLanes fun l => o.value (srcLane (s.env s.cur) t a l))

/-- R91, R94, R102, R109: CMP, CMPI, FCMP and DCMP write only codes (and FPFLAGS): one nibble into every live lane when both sources
are of scalar class, each live lane's own otherwise. -/
def Obligations.CompareResult : Prop :=
  ∀ (s : State) (t : Team), s.agent s.cur = some t →
    let e := s.env s.cur
    (∀ (ty : IntTy) (a b : Src), Readable t [a, b] →
      (isVec t a = false ∧ isVec t b = false → ty.packed = false → Falls (.cmp ty a b) s (t.applyScalar none true
        (intScalarRes opSub ty (srcScalarX e t (intSx ty) a) (srcScalarX e t (intSx ty) b) 0 false))) ∧
      (isVec t a = true ∨ isVec t b = true → Vectors t → Falls (.cmp ty a b) s (t.applyLanes none false true fun l =>
        intLaneRes opSub ty (srcLane e t a l) (srcLane e t b l) 0 false))) ∧
    (∀ (a : Src) (k : BitVec 11), Readable t [a] →
      (isVec t a = false → Falls (.cmpi a k) s (t.applyScalar none true
        (intScalarRes opSub .i (srcScalar e t a) (k.signExtend 64) 0 false))) ∧
      (isVec t a = true → Vectors t → Falls (.cmpi a k) s (t.applyLanes none false true fun l =>
        intLaneRes opSub .i (srcLane e t a l) (k.signExtend 32) 0 false))) ∧
    (∀ (ty : FTy) (a b : Src), Readable t [a, b] →
      (isVec t a = false ∧ isVec t b = false → Falls (.fcmp ty a b) s (t.applyScalar none true
        (fcmpLane .f32 ((srcScalar e t a).setWidth 32) ((srcScalar e t b).setWidth 32)))) ∧
      (isVec t a = true ∨ isVec t b = true → Vectors t → Falls (.fcmp ty a b) s (t.applyLanes none false true fun l =>
        fcmpLane ty (srcLane e t a l) (srcLane e t b l)))) ∧
    ∀ (a b : Src), Readable t [a, b] → Pairs t [a, b] →
      (isVec t a = false ∧ isVec t b = false →
        Falls (.dcmp a b) s (t.applyScalar none true (dcmpRes (srcScalarD e t a) (srcScalarD e t b)))) ∧
      (isVec t a = true ∨ isVec t b = true → Vectors t → Falls (.dcmp a b) s (t.applyLanes none true true fun l =>
        dcmpRes (srcLaneD e t a l) (srcLaneD e t b l)))

namespace Sys2Proof.Claims

/-- R97, R100, R101: a floating instruction computes each element of each live lane, or the low 32 bits of its scalars once with
zeros above; it adds the FPFLAGS that its elements raise and writes codes with `.c`. -/
def FloatResult : Prop :=
  ∀ (o : FpOp) (m : FMod) (d : Reg) (a b : Src) (s : State) (t : Team), s.agent s.cur = some t → (o = .fsqrt → b = .reg .z) →
    let e := s.env s.cur
    (isScaDst d = true → Scalars t [a, b] → Falls (o.instr m d a b) s (t.applyScalar (some d) m.cc
      (fLane o.op m.ty ((srcScalar e t a).setWidth 32) ((srcScalar e t b).setWidth 32) ((regScalar e t d).setWidth 32)))) ∧
    (VecDst t d → Readable t [a, b] → Vectors t → Falls (o.instr m d a b) s (t.applyLanes (t.dstReg d) false m.cc fun l =>
      fLane o.op m.ty (srcLane e t a l) (srcLane e t b l) (dstLane e t d l)))

/-- R109: an FP64 instruction works on register pairs in each live lane, or on whole scalars once. -/
def DoubleResult : Prop :=
  ∀ (o : DpOp) (cc : Bool) (d : Reg) (a b : Src) (s : State) (t : Team), s.agent s.cur = some t → Pairs t [a, b] →
    let e := s.env s.cur
    (isScaDst d = true → Scalars t [a, b] → Falls (o.instr cc d a b) s (t.applyScalar (some d) cc
      (dRes (o.op (srcScalarD e t a).toNat (srcScalarD e t b).toNat (regScalar e t d).toNat)))) ∧
    (VecDst t d → okPairDst t d = true → Readable t [a, b] → Vectors t → Falls (o.instr cc d a b) s
      (t.applyLanes (t.dstReg d) true cc fun l =>
        dRes (o.op (srcLaneD e t a l).toNat (srcLaneD e t b l).toNat (srcLane64 e t (.reg d) l).toNat)))

end Sys2Proof.Claims

/-- R97, R100, R101, R109: the FP32, packed and FP64 instructions that form codes. -/
def Obligations.FloatAndDoubleResult : Prop := FloatResult ∧ DoubleResult

namespace Sys2Proof.Claims

/-- R103, R105, R110, R111: FSFU, FCLASS, QUANT, DEQ, PACK and UNPK give each live lane, or the scalar once, the result of its 32 bits;
they write no codes. -/
def NarrowResult : Prop :=
  ∀ (o : NarrowOp) (d : Reg) (a b : Src) (s : State) (t : Team), s.agent s.cur = some t → (o.unary = true → b = .reg .z) →
    let e := s.env s.cur
    (isScaDst d = true → Scalars t [a, b] → Falls (o.instr d a b) s (t.applyScalar (some d) false
      (noCodes (o.op ((srcScalar e t a).setWidth 32) ((srcScalar e t b).setWidth 32))))) ∧
    (VecDst t d → Readable t [a, b] → Vectors t → Falls (o.instr d a b) s (t.applyLanes (t.dstReg d) false false fun l =>
      noCodes (o.op (srcLane e t a l) (srcLane e t b l))))

/-- R106, R107: CVT converts each live lane, or its scalar once; its FP64 sources and results are pairs in vectors. -/
def ConvertResult : Prop :=
  ∀ (r : Rm) (c : Fin 16) (d : Reg) (a : Src) (s : State) (t : Team), s.agent s.cur = some t →
    (cvtSrc64 c.val = true → okPairSrc t a = true) → (cvtDst64 c.val = true → okPairDst t d = true) →
    let e := s.env s.cur
    let res (x y : Nat) : LaneRes := { x := BitVec.ofNat 64 (cvtCode r c.val x y).x, nib := 0, fl := (cvtCode r c.val x y).fl }
    (isScaDst d = true → Scalars t [a] → Falls (.cvt r c d a) s (t.applyScalar (some d) false
      (res (if cvtSrc64 c.val then (srcScalarD e t a).toNat else (srcScalar e t a).toNat) (regScalar e t d).toNat))) ∧
    (VecDst t d → Readable t [a] → Vectors t → Falls (.cvt r c d a) s (t.applyLanes (t.dstReg d) (cvtDst64 c.val) false fun l =>
      res (if cvtSrc64 c.val then (srcLaneD e t a l).toNat else (srcLane e t a l).toNat) (dstLane e t d l).toNat))

end Sys2Proof.Claims

/-- R103, R105 to R107, R110, R111: the narrow instructions and the conversions; they write no codes. -/
def Obligations.NarrowAndConvertResult : Prop := NarrowResult ∧ ConvertResult

/-- R92, R78: SEL gives a where its condition holds of the lane's nibble and b elsewhere; on the scalar datapath the nibble of the first
live lane decides. It writes no codes. -/
def Obligations.SelectResult : Prop :=
  ∀ (c : Cond) (d : Reg) (a b : Src) (s : State) (t : Team), s.agent s.cur = some t →
    let e := s.env s.cur
    (isScaDst d = true → Scalars t [a, b] → Falls (.sel c d a b) s
      (t.writeScalar d (if condTest c t.firstNib then srcScalar e t a else srcScalar e t b))) ∧
    ∀ n, d = .v n → VecDst t d → Readable t [a, b] → Vectors t → Falls (.sel c d a b) s
      (t.writeLanes (t.reg n.val) t.liveLanes fun l => if condTest c (sget t.cc l) then srcLane e t a l else srcLane e t b l)

/-- R143 to R147: each cross-lane instruction reads lanes whatever their state and writes its destination: a vector in its live lanes
(WRLANE one lane), a scalar once; CCMOV `.wr` writes nibbles. -/
def Obligations.CrossLaneResult : Prop :=
  ∀ (s : State) (t : Team), s.agent s.cur = some t →
    let e := s.env s.cur
    (∀ (m : ShflMode) (n : Fin 96) (a b : Src), t.inWindow n.val = true → Readable t [a, b] → Vectors t →
      Falls (.shfl m (.v n) a b) s (t.writeLanes (t.reg n.val) t.liveLanes fun l =>
        srcLane e t a (shflSrc m t.tw l (srcLane e t b l).toNat))) ∧
    (∀ (f : VoteFn) (d : Reg) (a : Src), isScaDst d = true → Readable t [a] → (∀ b, f = .ballot b → Scalars t [b]) → Vectors t →
      Falls (.vote f d a) s (t.writeScalar d (BitVec.ofNat 64 (voteResult f e t a)))) ∧
    (∀ (d : Reg) (a : Src), isScaDst d = true → Readable t [a] → Vectors t →
      Falls (.rdfirst d a) s (t.writeScalar d (if isVec t a = true then
          (match t.liveLanes with
            | l :: _ => (srcLane e t a l).setWidth 64
            | [] => 0)
        else srcScalar e t a))) ∧
    (∀ (d : Reg) (a b : Src), isScaDst d = true → Readable t [a] → Scalars t [b] → (srcScalar e t b).toNat < t.tw →
      Falls (.rdlane d a b) s (t.writeScalar d (if isVec t a = true then (srcLane e t a (srcScalar e t b).toNat).setWidth 64
        else srcScalar e t a))) ∧
    (∀ (n : Fin 96) (a b : Src), t.inWindow n.val = true → Scalars t [a, b] → (srcScalar e t b).toNat < t.tw →
      Falls (.wrlane (.v n) a b) s (t.writeLanes (t.reg n.val) [(srcScalar e t b).toNat] fun _ => (srcScalar e t a).setWidth 32)) ∧
    (∀ n : Fin 96, t.inWindow n.val = true → Vectors t →
      Falls (.ccmovRd (.v n)) s (t.writeLanes (t.reg n.val) t.liveLanes fun l => (sget t.cc l).setWidth 32)) ∧
    (∀ d : Reg, isScaDst d = true → Vectors t → Falls (.ccmovRd d) s (t.writeScalar d (t.firstNib.setWidth 64))) ∧
    ∀ a : Src, Readable t [a] → Vectors t → Falls (.ccmovWr a) s (t.writeNibs t.liveLanes fun l => (srcLane e t a l).setWidth 4)

namespace Sys2Proof.Claims

/-- Element j of w bits of a value (R42). -/
def elemBits (w : Nat) {n : Nat} (x : BitVec n) (j : Nat) : BitVec w := (x >>> (w * j)).setWidth w

/-- A formula for one element: whether its type is signed, its two sources, the old destination and the C of the nibble. -/
abbrev Formula := (w : Nat) → Bool → BitVec w → BitVec w → BitVec w → Bool → BitVec w

/-- An integer instruction gives, in each element of each live lane and on the scalar datapath, what a formula says of the state
before it (R81). -/
def Follows (o : IntOp) (f : Formula) : Prop :=
  ∀ (m : IntMod) (d : Reg) (a b : Src) (s : State) (t : Team), s.agent s.cur = some t → (o.unary = true → b = .reg .z) →
    let e := s.env s.cur
    (isScaDst d = true → m.ty.packed = false → Scalars t [a, b] →
      ∃ r, Falls (o.instr m d a b) s (t.applyScalar (some d) m.cc r) ∧
        r.x = f 64 (m.ty == .i) (srcScalarX e t (m.ty == .i) a) (srcScalarX e t (m.ty == .i) b) (regScalar e t d)
          (nibC ((t.liveLanes.head?.map fun l => sget t.cc l).getD 0))) ∧
    (VecDst t d → (m.ty.packed = true → o.packed = true) → Readable t [a, b] → Vectors t →
      ∃ r : Nat → LaneRes, Falls (o.instr m d a b) s (t.applyLanes (t.dstReg d) false m.cc r) ∧
        ∀ l j, j < (intElem m.ty).2.1 → elemBits (intElem m.ty).1 (r l).x j =
          f (intElem m.ty).1 (m.ty != .n) (elemBits _ (srcLane e t a l) j) (elemBits _ (srcLane e t b l) j)
            (elemBits _ (dstLane e t d l) j) (nibC (sget t.cc l)))

/-- A Bool as an element. -/
def ofBool (w : Nat) (b : Bool) : BitVec w := if b then 1 else 0

/-- A whole number clamped to the range of a type of w bits (R84). -/
def clampTo (signed : Bool) (w : Nat) (x : Int) : BitVec w :=
  if signed then BitVec.ofInt w (max (-(2 ^ (w - 1))) (min (2 ^ (w - 1) - 1) x)) else BitVec.ofInt w (max 0 (min (2 ^ w - 1) x))

/-- An element as its type reads it. -/
def asInt (signed : Bool) {w : Nat} (x : BitVec w) : Int := if signed then x.toInt else x.toNat

/-- The least element of a signed type. -/
def minOf (w : Nat) : BitVec w := BitVec.twoPow w (w - 1)

/-- The quotient of R86. -/
def quotient (signed : Bool) {w : Nat} (a b : BitVec w) : BitVec w :=
  if b = 0 then BitVec.allOnes w else if signed then (if a = minOf w ∧ b = BitVec.allOnes w then minOf w else a.sdiv b) else a / b

/-- The remainder of R86. -/
def remainder (signed : Bool) {w : Nat} (a b : BitVec w) : BitVec w :=
  if b = 0 then a else if signed then (if a = minOf w ∧ b = BitVec.allOnes w then 0 else a.srem b) else a % b

/-- a is at most b as their type reads them. -/
def atMost (signed : Bool) {w : Nat} (a b : BitVec w) : Bool := if signed then a.sle b else a.ule b

/-- The low k bits of a value extended to its width. -/
def lowExtended (signed : Bool) {w : Nat} (k : Nat) (x : BitVec w) : BitVec w :=
  if signed then (x.setWidth k).signExtend w else (x.setWidth k).setWidth w

/-- BFE (R89). -/
def bitField (signed : Bool) {w : Nat} (a b : BitVec w) : BitVec w :=
  let p := b.toNat % 256
  let n := b.toNat / 256 % 256
  if n = 0 ∨ w ≤ p then 0 else lowExtended signed (min n (w - p)) (a >>> p)

/-- BFI (R89). -/
def bitInsert {w : Nat} (a b d : BitVec w) : BitVec w :=
  let p := b.toNat % 256
  let n := b.toNat / 256 % 256
  let mask : BitVec w := BitVec.ofNat w (2 ^ min n (w - p) - 1) <<< p
  if n = 0 ∨ w ≤ p then d else (d &&& ~~~mask) ||| ((a <<< p) &&& mask)

/-- EXT (R90). -/
def extended (signed : Bool) {w : Nat} (a b : BitVec w) : BitVec w :=
  let k := b.toNat % 256
  if k = 0 then 0 else if w ≤ k then a else lowExtended signed k a

/-- The C that R77 gives an element: the carry, no borrow, or 0. -/
def elemCarry (o : IntOp) {w : Nat} (a b : BitVec w) (c : Bool) : Bool :=
  match o with
  | .add => 2 ^ w ≤ a.toNat + b.toNat
  | .addc => 2 ^ w ≤ a.toNat + b.toNat + c.toNat
  | .sub => b.toNat ≤ a.toNat
  | .subb => b.toNat + (!c).toNat ≤ a.toNat
  | _ => false

/-- The V that R77 gives an element: signed overflow, saturation, a product that does not fit, or a division's corner. -/
def elemOverflow (o : IntOp) (signed : Bool) {w : Nat} (a b d : BitVec w) (c : Bool) : Bool :=
  let fits (sg : Bool) (x : Int) : Bool := asInt sg (BitVec.ofInt w x) == x
  match o with
  | .add => !fits true (a.toInt + b.toInt)
  | .addc => !fits true (a.toInt + b.toInt + c.toNat)
  | .sub => !fits true (a.toInt - b.toInt)
  | .subb => !fits true (a.toInt - b.toInt - (!c).toNat)
  | .adds => !fits signed (asInt signed a + asInt signed b)
  | .subs => !fits signed (asInt signed a - asInt signed b)
  | .mul => !fits signed (asInt signed a * asInt signed b)
  | .mad => !fits signed (asInt signed a * asInt signed b + asInt signed d)
  | .div | .rem => b == 0 || (signed && a == minOf w && b == BitVec.allOnes w)
  | _ => false

end Sys2Proof.Claims

/-- R83, R84: ADD, SUB, ADDC and SUBB in each element, wrapping; cin is the C of the lane's nibble, or on the scalar datapath of the
first live lane's, 0 when no lane is live. ADDS and SUBS clamp the exact result to the range of the type. -/
def Obligations.AddSubtractRule : Prop :=
  Follows .add (fun _ _ a b _ _ => a + b) ∧ Follows .sub (fun _ _ a b _ _ => a - b) ∧
  Follows .addc (fun w _ a b _ c => a + b + ofBool w c) ∧ Follows .subb (fun w _ a b _ c => a - b - (1 - ofBool w c)) ∧
  Follows .adds (fun w sg a b _ _ => clampTo sg w (asInt sg a + asInt sg b)) ∧
  Follows .subs (fun w sg a b _ _ => clampTo sg w (asInt sg a - asInt sg b))

/-- R85, R86, R89, R93: the products; the division toward zero with its two corners; the bit fields, counts and reversal; MOV. -/
def Obligations.MultiplyDivideBitsRule : Prop :=
  Follows .mul (fun _ _ a b _ _ => a * b) ∧
  Follows .mulh (fun w sg a b _ _ => BitVec.ofInt w (asInt sg a * asInt sg b / 2 ^ w)) ∧ Follows .mad (fun _ _ a b d _ => a * b + d) ∧
  Follows .div (fun _ sg a b _ _ => quotient sg a b) ∧ Follows .rem (fun _ sg a b _ _ => remainder sg a b) ∧
  Follows .bfe (fun _ sg a b _ _ => bitField sg a b) ∧ Follows .bfi (fun _ _ a b d _ => bitInsert a b d) ∧
  Follows .popc (fun w _ a _ _ _ => BitVec.ofNat w ((List.range w).countP fun i => a.getLsbD i)) ∧
  Follows .clz (fun _ _ a _ _ _ => a.clz) ∧ Follows .brev (fun _ _ a _ _ _ => a.reverse) ∧ Follows .mov (fun _ _ a _ _ _ => a)

/-- R87, R88, R90: the lesser, the greater, the difference as an unsigned value and the logic instructions; the shifts by bits [7:0]
of b, whatever their size, and the rotate; the extension of the low bits. -/
def Obligations.LogicShiftRule : Prop :=
  Follows .min (fun _ sg a b _ _ => if atMost sg a b then a else b) ∧ Follows .max (fun _ sg a b _ _ => if atMost sg a b then b else a) ∧
  Follows .absd (fun _ sg a b _ _ => if atMost sg a b then b - a else a - b) ∧ Follows .and (fun _ _ a b _ _ => a &&& b) ∧
  Follows .or (fun _ _ a b _ _ => a ||| b) ∧ Follows .xor (fun _ _ a b _ _ => a ^^^ b) ∧ Follows .andn (fun _ _ a b _ _ => a &&& ~~~b) ∧
  Follows .shl (fun _ _ a b _ _ => a <<< (b.toNat % 256)) ∧ Follows .shr (fun _ _ a b _ _ => a >>> (b.toNat % 256)) ∧
  Follows .sar (fun _ _ a b _ _ => a.sshiftRight (b.toNat % 256)) ∧ Follows .rot (fun _ _ a b _ _ => a.rotateLeft (b.toNat % 256)) ∧
  Follows .ext (fun _ sg a b _ _ => extended sg a b)

/-- R77: the nibble of an integer instruction's lane: N and C are those of the most significant element, Z says that every element
is 0, and V that some element sets it; on the scalar datapath the one element is the scalar. CMP and CMPI form the nibble of SUB. -/
def Obligations.CodesRule : Prop :=
  (∀ (o : IntOp) (ty : IntTy) (a b d : W32) (c : Bool),
    let r := intLaneRes o.op ty a b d c
    let w := (intElem ty).1
    let n := (intElem ty).2.1
    let sg := ty != .n
    r.nib = nibble (elemBits w r.x (n - 1)).msb ((List.range n).all fun j => elemBits w r.x j == 0)
      (elemCarry o (elemBits w a (n - 1)) (elemBits w b (n - 1)) c)
      ((List.range n).any fun j => elemOverflow o sg (elemBits w a j) (elemBits w b j) (elemBits w d j) c)) ∧
  ∀ (o : IntOp) (ty : IntTy) (a b d : W64) (c : Bool),
    let r := intScalarRes o.op ty a b d c
    r.nib = nibble r.x.msb (r.x == 0) (elemCarry o a b c) (elemOverflow o (ty == .i) a b d c)

/-- R26, R27, R28: a clause whose header and words pass the checks of R26 starts when its wait is met and its flags have room: the team
stands inside the clause at the word after the header. Until then it waits at the header. -/
def Obligations.ClauseStarts : Prop :=
  ∀ (h : Header) (s : State) (t : Team) (ws : List W32), s.agent s.cur = some t → Sys2Proof.Machine.Header.ok h = true →
    let e := s.env s.cur
    let n := h.len.toNat + 1
    let f := clauseForm n ws
    s.codeWords e t (t.pc.plus 4) n = .ok ws → ws.length = n → f.fits = true → f.head = false → f.early = false → f.long ≤ 2 →
    (1 ≤ f.long → h.setA ≠ 15) → (2 ≤ f.long → h.setB ≠ 15) →
    let ready := ∀ k < 12, (h.wait.getLsbD k = true → sget t.flags k = 0) ∧
      (sget t.flags k).toNat + Sys2Proof.Machine.Header.adds h f.long k ≤ 7
    (ready → (∀ x ∈ t.errs, ∀ k, x.flag = some k → bitAt h.wait.toNat k = false) →
      exec (.clauseStart h) s = .next (s.setAgent s.cur (t.startClause h (s.breakpoints e.ctx)))) ∧
    (¬ready → exec (.clauseStart h) s = .next (s.setAgent s.cur { t with st := .waiting, wait := .clause h f.long }))

namespace Sys2Proof.Claims

/-- The lanes of a token that go on when it is popped: those below TW that have not exited (R120, R129, R130). -/
def left (k : Token) (t : Team) : LaneMask := k.mask &&& ~~~t.exited &&& lowMask t.tw

/-- R127 to R131: each transfer goes to a header at its target: the target of BRC for the lanes that take it, a PATH token holding the
others; JMP and JMPR move the team; CALL pushes a RET token and JOINAT a JOIN token; RET and JOIN pop theirs and go on with the
token's lanes below TW that have not exited (R120). -/
def TransfersResult : Prop :=
  ∀ (s : State) (t : Team), s.agent s.cur = some t →
    let e := s.env s.cur
    (∀ (c : Cond) (off : BitVec 11), Vectors t →
      let taken := t.taken c
      let rest := t.live &&& ~~~taken
      (taken = 0 → Falls (.brc c off) s t) ∧
      (taken ≠ 0 → needHeader s e t (t.target e off) = .ok () →
        (rest = 0 → exec (.brc c off) s = .next (s.setAgent s.cur (t.at (t.target e off)))) ∧
        (rest ≠ 0 → t.stack.length < 32 → exec (.brc c off) s = .next (s.setAgent s.cur
          { t.at (t.target e off) with
            active := t.active &&& ~~~rest, stack := { kind := .path, pc := t.pc.plus 4, mask := rest } :: t.stack })))) ∧
    (∀ off : BitVec 11, needHeader s e t (t.target e off) = .ok () →
      exec (.jmp off) s = .next (s.setAgent s.cur (t.at (t.target e off))) ∧
      (t.stack.length < 32 → exec (.call off) s = .next (s.setAgent s.cur
        { t.at (t.target e off) with stack := { kind := .ret, pc := t.pc.plus 4, mask := t.active } :: t.stack }))) ∧
    (∀ (a : Src) (off : BitVec 11), plainScalar a = true →
      let target := srcScalar e t a + BitVec.ofInt 64 (4 * off.toInt)
      target.toNat % 4 = 0 → needHeader s e t (.code target) = .ok () →
      exec (.jmpr a off) s = .next (s.setAgent s.cur (t.at (.code target)))) ∧
    (∀ off : BitVec 11, t.stack.length < 32 →
      Falls (.joinat off) s { t with stack := { kind := .join, pc := t.target e off, mask := t.active } :: t.stack }) ∧
    ∀ (k : Token) (r : List Token), t.stack = k :: r → left k t ≠ 0 → needHeader s e t k.pc = .ok () →
      let back := (s.setAgent s.cur { t.at k.pc with stack := r, active := left k t }).afterDrain s.cur
      (k.kind = .ret → exec .ret s = .next back) ∧ (k.kind = .path ∨ k.kind = .join → exec .join s = .next back)

/-- R133, R134, R136 to R139: NOP only falls through; WINBASE writes a valid base; LOOP with a count of 0 goes past its body, and with another
count loads the body and begins its first pass. The order among their traps that the spec leaves open is the model's (log entries 50, 52). -/
def LoopWindowNopResult : Prop :=
  ∀ (s : State) (t : Team), s.agent s.cur = some t →
    let e := s.env s.cur
    Falls .nop s t ∧
    (∀ k : BitVec 11, 32 * k.toNat + min 96 t.allot ≤ t.allot → Falls (.winbase k) s { t with winBase := k.toNat }) ∧
    ∀ (a : Src) (len : BitVec 7) (w : W32) (body : List W32), len ≠ 0 → plainScalar a = true →
      let start := t.pc.plus (4 * (2 + a.words))
      let c := (srcScalar e t a).toNat % 2 ^ 32
      s.codeWords e t start len.toNat = .ok body → bodyOk len.toNat w body = true →
      (c = 0 → exec (.loop a len w) s = .next (s.setAgent s.cur { t.at (start.plus (4 * len.toNat)) with loop := none })) ∧
      (c ≠ 0 → exec (.loop a len w) s = .next (s.setAgent s.cur
        { t.at start with loop := some { start := start, len := len.toNat, stepw := w, c := c, p := 0, buf := body } }))

end Sys2Proof.Claims

namespace Sys2Proof.Claims

/-- R124, R126, R127, R129, R130, R134: a push on a stack of depth 32, or a JOIN or RET without its token on top, raises STACK; a transfer to a
word that is no header raises ILLEGAL, and one whose target cannot be fetched its fault, before the stack is looked at (log entry 52); and WINBASE
with a base that is not valid raises WINDOW. The trap is all that happens. -/
def ControlFlowTraps : Prop :=
  ∀ (s : State) (t : Team), s.agent s.cur = some t →
    let e := s.env s.cur
    let traps (i : Instr) (c : Cause) : Prop := exec i s = .next (takeTrap s (Trap.of c))
    (∀ off : BitVec 11,
      (∀ x, needHeader s e t (t.target e off) = .error x →
        exec (.jmp off) s = .next (takeTrap s x) ∧ exec (.call off) s = .next (takeTrap s x)) ∧
      (32 ≤ t.stack.length → traps (.joinat off) .stack ∧
        (needHeader s e t (t.target e off) = .ok () → traps (.call off) .stack ∧
          ∀ c, Vectors t → t.taken c ≠ 0 → t.live &&& ~~~t.taken c ≠ 0 → traps (.brc c off) .stack))) ∧
    ((∀ k ∈ t.stack.head?, k.kind ≠ .path ∧ k.kind ≠ .join) → traps .join .stack) ∧
    ((∀ k ∈ t.stack.head?, k.kind ≠ .ret) → traps .ret .stack) ∧
    ∀ k : BitVec 11, t.allot < 32 * k.toNat + min 96 t.allot → traps (.winbase k) .window

end Sys2Proof.Claims

/-- R127 to R131, R133, R134, R136 to R139: the transfers of control, LOOP, WINBASE and NOP; and R124, R126: the traps that they take. -/
def Obligations.ControlFlowResult : Prop := TransfersResult ∧ LoopWindowNopResult ∧ ControlFlowTraps

/-- R132, R296, R298: EXIT in a team makes every lane of the active mask exit and unwinds the stack, to the first token with a lane left
or to DRAINING; in a REDUNDANT group it waits for the partner, whatever it unwinds to; in the control thread it ends the handler run. TRAP
and BRKPT take their trap with the immediate as INFO. -/
def Obligations.ExitAndTrapsResult : Prop :=
  ∀ (s : State) (t : Team), s.agent s.cur = some t →
    let e := s.env s.cur
    let t1 : Team := { t with exited := t.exited ||| t.active }
    let top := unwind (t1.exited ||| ~~~lowMask t.tw) t.stack
    (∀ n : BitVec 11, exec (.trap n) s = .next (takeTrap s { cause := .trap, info := some n.toNat, after := true }) ∧
      exec (.brkpt n) s = .next (takeTrap s { cause := .brk, info := some n.toNat, after := true })) ∧
    (t.errs = [] → s.inCopy e = false →
      (t.ctl = true → exec .exit s = .next (s.endHandler e.core e.ag t)) ∧
      (t.ctl = false → top = none → exec .exit s = .next ((s.setAgent e.ag t1.drain).afterDrain e.ag)) ∧
      ∀ k r, t.ctl = false → top = some (k, r) → needHeader s e t1 k.pc = .ok () →
        exec .exit s = .next ((s.setAgent e.ag { t1.at k.pc with stack := r, active := left k t1 }).afterDrain e.ag)) ∧
    (t.errs = [] → s.inCopy e = true → t.ctl = false → (∀ k r, top = some (k, r) → needHeader s e t1 k.pc = .ok ()) →
      exec .exit s = .next (s.holdCommit e t .exit))

/-- R157, R158, R201, R64, R67, R69: SETSHAPE writes the shape that R153 grants and its d; RDSHAPE and RDCURVE give their records;
a request that R153 does not grant, or a shape of another kind than vector for sh0, raises SHAPE; GANG writes a valid mask; a valid CURVE makes its
team wait for the core's decision; MHINT leaves its declaration, and in the control thread only falls through (log entry 46). -/
def Obligations.ShapeAndCurveResult : Prop :=
  ∀ (s : State) (t : Team), s.agent s.cur = some t →
    let e := s.env s.cur
    (∀ (k : ReqKind) (d : Reg) (a : Src) (p : Pol) (sh : Fin 4) (g : Dims), t.ctl = false → s.marked e.gid = false →
      isScaDst d = true → Scalars t [a] → (k ≠ .vec → sh ≠ 0) →
      grant (grantAt e t) k (reqDims k (srcScalarX e t false a)) p = some g →
      let x := shapeOf (grantAt e t) k p (reqDims k (srcScalarX e t false a)) g
      exec (.setshape k d a p sh) s =
        .next (s.setAgent e.ag (((t.setShape sh x).writeScalar d x.granted).advance (Instr.setshape k d a p sh).words))) ∧
    (∀ (k : ReqKind) (d : Reg) (a : Src) (p : Pol) (sh : Fin 4), t.ctl = false → s.marked e.gid = false → isScaDst d = true →
      Scalars t [a] → ((k ≠ .vec ∧ sh = 0) ∨ grant (grantAt e t) k (reqDims k (srcScalarX e t false a)) p = none) →
      exec (.setshape k d a p sh) s = .next (takeTrap s (Trap.of .shape))) ∧
    (∀ (k : ReqKind) (d : Reg) (a : Src) (p : Pol) (sh : Fin 4), t.ctl = false → s.marked e.gid = true →
      exec (.setshape k d a p sh) s =
        .next (s.setAgent e.ag { t with st := .waiting, wait := .setshape (.setshape k d a p sh) })) ∧
    (∀ (d : Reg) (sh : Fin 4), isScaDst d = true → Falls (.rdshape d sh) s (t.writeScalar d (t.shape sh).record)) ∧
    (∀ d : Reg, isScaDst d = true → Falls (.rdcurve d) s (t.writeScalar d (curveRecord e))) ∧
    (∀ a : Src, Scalars t [a] → t.ctl = false → gangOk (srcScalar e t a).toNat t.tix (s.teamCount e.gid) = true →
      Falls (.gang a) s { t with gang := (srcScalar e t a).setWidth 16 }) ∧
    (∀ (d : Reg) (p : BitVec 3) (acc : BitVec 6), isScaDst d = true → t.ctl = false → p.toNat < 6 → acc.getLsbD p.toNat = true →
      exec (.curve d p acc) s = .next (s.setAgent e.ag
        { t with st := .waiting, wait := .curve d p.toNat acc.toNat, since := (s.core e.core).count })) ∧
    ∀ n : BitVec 11, (t.ctl = true → Falls (.mhint n) s t) ∧
      (t.ctl = false → n = 0 → exec (.mhint n) s = .next (s.setAgent e.ag { t.advance 1 with hint := 0, hintAt := (s.core e.core).count })) ∧
      (t.ctl = false → n ≠ 0 → exec (.mhint n) s = .next
        ((s.setAgent e.ag { t.advance 1 with hint := n.toNat, hintAt := (s.core e.core).count }).modCore e.core fun x => x.arrive false))

/-- R300, R301, R45, R299, R366: RDSR reads a listed register at a sufficient level; WRSR writes FPFLAGS or a breakpoint register;
EVSEL gives a counter its source and clears it; EVRD reads a counter. -/
def Obligations.SystemRegistersResult : Prop :=
  ∀ (s : State) (t : Team), s.agent s.cur = some t →
    let e := s.env s.cur
    (∀ (d : Reg) (n : BitVec 14) (x : W64), isScaDst d = true → (0x100 ≤ n.toNat → 1 ≤ levelRank t.level) →
      s.sysRead e t n.toNat = some x → Falls (.rdsr d (.imm n)) s (t.writeScalar d x)) ∧
    (∀ (d : Reg) (a : Src) (x : W64), isScaDst d = true → Scalars t [a] → (srcScalar e t a).toNat < 2 ^ 14 →
      (0x100 ≤ (srcScalar e t a).toNat → 1 ≤ levelRank t.level) → s.sysRead e t (srcScalar e t a).toNat = some x →
      Falls (.rdsr d (.ind a)) s (t.writeScalar d x)) ∧
    (∀ x : Src, Scalars t [x] → bits (srcScalar e t x).toNat 63 5 = 0 →
      exec (.wrsr x (.imm 0x010)) s = .next (s.setAgent e.ag ({ t with fpflags := (srcScalar e t x).setWidth 5 }.advance (1 + x.words)))) ∧
    (∀ (x : Src) (k : Nat), Scalars t [x] → k < 16 → 1 ≤ levelRank t.level → bits (srcScalar e t x).toNat 62 56 = 0 →
      bits (srcScalar e t x).toNat 1 0 = 0 →
      exec (.wrsr x (.imm (BitVec.ofNat 14 (0x180 + k)))) s =
        .next ((s.setAgent e.ag (t.advance (1 + x.words))).writeBrk e.ctx k (srcScalar e t x))) ∧
    (∀ (die : Bool) (a b : Src), Scalars t [a, b] → (die = true → levelRank t.level = 2) → (srcScalar e t a).toNat < eventCount die →
      eventCode die (srcScalar e t b).toNat = true →
      exec (.evsel die a b) s = .next ((s.setAgent e.ag (t.advance (1 + a.words + b.words))).selectEvent e die
        (srcScalar e t a).toNat (srcScalar e t b).toNat)) ∧
    ∀ (die : Bool) (d : Reg) (a : Src), isScaDst d = true → Scalars t [a] → (die = true → levelRank t.level = 2) →
      (srcScalar e t a).toNat < eventCount die →
      Falls (.evrd die d a) s (t.writeScalar d
        (if die then sget (s.die e.die).evCnt (srcScalar e t a).toNat else sget (s.core e.core).active.evCnt (srcScalar e t a).toNat))

namespace Sys2Proof.Claims

/-- Every lane's address has a target. -/
def Reached (ls : List LaneTgt) : Prop := ∀ l ∈ ls, ∃ g, l.r = .ok g

/-- The lanes of a load, with their targets. -/
def loadLanes (w : Width) (d : Reg) (a b : Src) (s : State) (t : Team) : List LaneTgt :=
  lanesTgt s (s.env s.cur) t { write := false, atomic := false, n := Width.bytes w } (memLanes t (isVecDst d))
    (laneAddr (s.env s.cur) t a b)

/-- The lanes of a store of x, with their targets: per lane where an operand is of vector class. -/
def storeLanes (w : Width) (x a b : Src) (s : State) (t : Team) : List LaneTgt :=
  lanesTgt s (s.env s.cur) t { write := true, atomic := false, n := Width.bytes w }
    (memLanes t (isVec t x || isVec t a || isVec t b)) (laneAddr (s.env s.cur) t a b)

/-- The state after a store, and a release where `rel` says so. -/
def stored (w : Width) (x a b : Src) (rel : Bool) (obs : BitVec 7) (n : Nat) (s : State) (t : Team) : State :=
  s.issueStore (s.env s.cur) (t.advance n) rel obs
    (okLanes (Width.bytes w) (storeLanes w x a b s t) (storeData (s.env s.cur) t w x) (fun _ => 0))

/-- The lanes of an atomic of a width, with their targets. -/
def atomLanes (wide : Bool) (d : Reg) (a : Src) (s : State) (t : Team) : List LaneTgt :=
  lanesTgt s (s.env s.cur) t { write := true, atomic := true, n := if wide then 8 else 4 } (memLanes t (isVecDst d))
    (laneAddr (s.env s.cur) t a (.reg .z))

/-- A single scalar access of 8 bytes. -/
def oneLane (write : Bool) (va : W64) (s : State) (t : Team) : List LaneTgt :=
  lanesTgt s (s.env s.cur) t { write := write, atomic := false, n := 8 } [0] (fun _ => va)

end Sys2Proof.Claims

/-- R27, R179, R181, R182, R184: a load whose lanes all have targets is counted on its flag and goes on, its requests posted; with no
live lane it is counted and uncounted at once. LDACQ is an acquire. -/
def Obligations.LoadsResult : Prop :=
  ∀ (w : Width) (d : Reg) (a b : Src) (s : State) (t : Team), s.agent s.cur = some t → okAddr t a = true → okSrc t b = true →
    okDst t d = true → (w = .b64 → okPairDst t d = true) → (isVecDst d = true → Vectors t) →
    (isVecDst d = false → isVec t a = false ∧ isVec t b = false) → Reached (loadLanes w d a b s t) →
    let e := s.env s.cur
    let ls := loadLanes w d a b s t
    let after (acq : Bool) (obs : BitVec 7) (n : Nat) : State :=
      if ls = [] then s.setAgent e.ag (t.countOff.advance n)
      else s.post e (t.countOn.advance n) (s.newOp e t (.load w) acq false obs
        (okLanes (Width.bytes w) ls (fun _ => 0) (fun _ => 0)) (some t.nextFlag) (dstOf t d (w == .b64)))
    exec (.ld w d a b) s = .next (after false 0 (1 + a.words + b.words)) ∧
      exec (.ldstr w d a b) s = .next (after false 0 (1 + a.words + b.words)) ∧
      ∀ obs : BitVec 7, obs ≠ 0 → b = .reg .z → exec (.ldacq w d a obs) s = .next (after true obs (1 + a.words))

/-- R180, R181, R182, R184, R313: a store whose lanes all have targets goes on, its requests posted. STREL is a release and a commit:
in a REDUNDANT group it waits for the partner. -/
def Obligations.StoresResult : Prop :=
  ∀ (w : Width) (x a b : Src) (s : State) (t : Team), s.agent s.cur = some t → okAddr t a = true → okSrc t x = true →
    okSrc t b = true → (w = .b64 → okPairSrc t x = true) → ((isVec t x || isVec t a || isVec t b) = true → Vectors t) →
    t.replay = none → Reached (storeLanes w x a b s t) →
    exec (.st w x a b) s = .next (stored w x a b false 0 (1 + x.words + a.words + b.words) s t) ∧
      exec (.ststr w x a b) s = .next (stored w x a b false 0 (1 + x.words + a.words + b.words) s t) ∧
      ∀ obs : BitVec 7, obs ≠ 0 → b = .reg .z →
        (s.inCopy (s.env s.cur) = false →
          exec (.strel w x a obs) s = .next ((stored w x a b true obs (1 + x.words + a.words) s t).committed (s.env s.cur).gid)) ∧
        (s.inCopy (s.env s.cur) = true → exec (.strel w x a obs) s = .next (s.holdCommit (s.env s.cur) t (.strel w x a obs)))

/-- R185, R186: LDS and LDF hold their team until the value is written; STS stores a scalar; PREF changes nothing but the place of its
team. -/
def Obligations.ScalarAccessResult : Prop :=
  ∀ (s : State) (t : Team), s.agent s.cur = some t →
    let e := s.env s.cur
    let held (d : Reg) (va : W64) (n : Nat) : State :=
      s.post e { t with st := .waiting, wait := .load s.nextId n }
        (s.newOp e t (.load .b64) false false 0 (okLanes 8 (oneLane false va s t) (fun _ => 0) (fun _ => 0)) none (dstOf t d false))
    (∀ (d : Reg) (a : Src) (imm : BitVec 11), isScaDst d = true → Scalars t [a] →
      let va := srcScalar e t a + BitVec.ofInt 64 (8 * imm.toInt)
      Reached (oneLane false va s t) → exec (.lds d a imm) s = .next (held d va (1 + a.words))) ∧
    (∀ (d : Reg) (imm : BitVec 11), isScaDst d = true →
      let va := e.frame + BitVec.ofNat 64 (8 * imm.toNat)
      Reached (oneLane false va s t) → exec (.ldf d imm) s = .next (held d va 1)) ∧
    (∀ (x a : Src) (imm : BitVec 11), Scalars t [a] → plainScalar x = true →
      let va := srcScalar e t a + BitVec.ofInt 64 (8 * imm.toInt)
      Reached (oneLane true va s t) →
      exec (.sts x a imm) s = .next (s.issueStore e (t.advance (1 + x.words + a.words)) false 0
        (okLanes 8 (oneLane true va s t) (fun _ => srcScalar e t x) (fun _ => 0)))) ∧
    ∀ (w : Bool) (a b : Src), okAddr t a = true → okSrc t b = true → ((isVec t a || isVec t b) = true → Vectors t) →
      exec (.pref w a b) s = .next (s.setAgent s.cur (t.advance (1 + a.words + b.words)))

/-- R187, R188, R240, R244, R245, R313: an atomic whose lanes all have targets is a commit and is counted on its flag; its tile lanes are
performed as it issues, what they read noted in its team, its memory lanes posted. With a lane in a tile it first waits for an open acquire of its
party and, where a mask makes it a release, for every access before it. In a REDUNDANT group it waits for the partner. -/
def Obligations.AtomicsResult : Prop :=
  ∀ (o : AtomOp) (wide : Bool) (d : Reg) (a : Src) (obs : BitVec 7) (s : State) (t : Team), s.agent s.cur = some t →
    okAddr t a = true → okAtomDst o wide t d = true → (isVecDst d = true → Vectors t) → (isVecDst d = false → isVec t a = false) →
    Reached (atomLanes wide d a s t) →
    let e := s.env s.cur
    let i : Instr := if wide then .atom64 o d a obs else .atom o d a obs
    (s.inCopy e = true → exec i s = .next (s.holdCommit e t i)) ∧
    (s.inCopy e = false → atomLanes wide d a s t = [] →
      exec i s = .next ((s.committed e.gid).setAgent e.ag (t.countOff.advance (1 + a.words)))) ∧
    let inTile := ∃ l ∈ atomLanes wide d a s t, ∃ g, l.r = .ok g ∧ g.isTile = true
    let ops := s.stillOpen e.ag t (obs != 0)
    (s.inCopy e = false → atomLanes wide d a s t ≠ [] → (ops = [] ∨ ¬inTile) →
      let r := (s.committed e.gid).performTiles (s.atomOp e t o wide d obs (atomLanes wide d a s t))
      exec i s = .next (r.1.post e (((r.1.agent e.ag).getD t).countOn.advance (1 + a.words)) r.2)) ∧
    (s.inCopy e = false → ops ≠ [] → inTile → exec i s = .next (s.waitOrder e t ops))

/-- R27, R185, R188: a load or atomic all of whose lanes are performed, or failed, completes: its results are written, its flag is
uncounted, and an error is delivered; an LDS or LDF lets its team go on; one whose group was killed, and a read of the host or of a peer, only
goes, the host's not before the posted writes that came first (R250). -/
def Obligations.AccessesComplete : Prop :=
  ∀ (id : Nat) (s : State) (o : PendOp), alook id s.pend = some o → o.isOpen = false →
    (o.error ≠ none → s.ramping (s.agentCore o.ag) = false) → (o.ag.outside = true → s.hostWriteBefore id = false) →
    let s1 : State := { s with pend := adel id s.pend }
    (∀ w, o.kind = .load w →
      (o.killed = true ∨ s.agent o.ag = none → exec (.loadComplete id) s = .next s1) ∧
      (∀ t, o.killed = false → s.agent o.ag = some t →
        (∀ n, t.st = .waiting → t.wait = .load id n → exec (.loadComplete id) s = .next (s1.finishHeld o.ag o n)) ∧
        ((∀ n, t.wait ≠ .load id n) → exec (.loadComplete id) s = .next (s1.finishOp o.ag o)))) ∧
    ∀ x wide, o.kind = .atomic x wide →
      (o.killed = true → exec (.atomicComplete id) s = .next s1) ∧
      (o.killed = false → o.twin = none → exec (.atomicComplete id) s = .next (s1.finishOp o.ag o)) ∧
      ∀ k, o.killed = false → o.twin = some k →
        exec (.atomicComplete id) s = .next ((s1.finishOp o.ag o).finishOp (.team k) o)

/-- R189, R268, R325, R326, R338 to R340, R360: a request that may be performed is performed, parked or NACKed at its home, which its port
carries it to, or refused by its peer (the outcome `error`; flits, the model's reading: log entry 27); one whose port is FAILED fails; the parked
requests of a home are performed in their parked order; a NACKed request is sent again after its back-off, and so is the message that a full
mailbox refused, which a mailbox that is full still refuses again (the sender's number 384 + mailbox and the clock of its back-off are the
model's, log entry 29); a held peer request is sent when its window's ports carry it again. -/
def Obligations.HomesPerformRequests : Prop :=
  ∀ s : State,
    (∀ (id : Nat) (o : PendOp) (l : LaneAcc), alook id s.pend = some o → o.lanes.find? (fun m => m.lane == l.lane) = some l →
      l.st = .sent → s.canPerform id o l = true →
      let home := s.homeOf l.tgt
      (∀ s1 s2, s.drainingAt l.tgt = false → s.carry id l = some s1 → s1.respond o.ag = some s2 →
        exec (.memoryRequestAtHome id l.lane .perform) s = .next ((s2.performAt id o l).accepted o.core home)) ∧
      (∀ pa, l.tgt = .dev pa → s.drainingAt l.tgt = false → (s.parkedAt home).length < Config.homeQueueLimit →
        exec (.memoryRequestAtHome id l.lane .park) s =
          .next ({ s.putOp id (o.setLane { l with st := .parked s.nextId }) with nextId := s.nextId + 1 }.accepted o.core home)) ∧
      (l.tgt.isTile = false → o.ag.outside = false → exec (.memoryRequestAtHome id l.lane .nack) s =
        .next ((s.putOp id (o.setLane { l with st := .nacked })).modCore o.core fun x => x.nacked home)) ∧
      (∀ pa, l.tgt = .dev pa → s.portFailed l = false → o.kind.reads = true → s.drainingAt l.tgt = false →
        deadHas s.dead (pa / 4096) = false →
        exec (.memoryRequestAtHome id l.lane .error) s = .next ((s.addPoison (pa / 64)).failLane id o l .failed)) ∧
      ∀ ports k s1, l.tgt = .peer ports k → 0x100000000000 ≤ k % 2 ^ 52 → s.portFailed l = false → s.carry id l = some s1 →
        exec (.memoryRequestAtHome id l.lane .error) s = .next (s1.failLane id o l .refused)) ∧
    (∀ (id : Nat) (o : PendOp) (l : LaneAcc), alook id s.pend = some o → o.lanes.find? (fun m => m.lane == l.lane) = some l →
      (l.st = .sent ∨ ∃ k, l.st = .parked k) → s.portFailed l = true →
      exec (.memoryRequestAtHome id l.lane .error) s = .next (s.undelivered id o l)) ∧
    (∀ home, s.parkedAt home ≠ [] → s.homeUp home = true → exec (.homeFaultReplay home) s = .next (s.replayHome home)) ∧
    (∀ core home (id : Nat) (o : PendOp) (l : LaneAcc), core < Config.nCores → (id, o) ∈ s.pend → l ∈ o.lanes → o.core = core → l.st = .nacked →
      s.homeOf l.tgt = home → (sget (s.core core).backoff (2 * home + 1)).toNat ≤ (s.core core).count →
      exec (.internalQueueResend core home) s = .next { s with pend := amap (fun _ o => { o with
        lanes := o.lanes.map fun l => if o.core = core ∧ l.st = .nacked ∧ s.homeOf l.tgt = home then { l with st := .sent } else l }) s.pend }) ∧
    (∀ (mb home : Nat) (m : Msg), s.fw.unsent.find? (fun e => e.1 == mb) = some (mb, m) →
      let b := agetD (64, 0) mb s.fw.backoff
      let rest := s.fw.unsent.erase (mb, m)
      b.2 ≤ s.fwCycle →
      ((agetD [] mb s.fw.mbox).length < Config.mailboxLimit →
        exec (.internalQueueResend (Config.nCores + mb) home) s = .next { s with fw := { s.fw with
          mbox := aset mb (agetD [] mb s.fw.mbox ++ [m]) s.fw.mbox, unsent := rest
          backoff := if rest.any fun x => x.1 == mb then aset mb (64, b.2) s.fw.backoff else adel mb s.fw.backoff } }) ∧
      (Config.mailboxLimit ≤ (agetD [] mb s.fw.mbox).length →
        exec (.internalQueueResend (Config.nCores + mb) home) s = .next { s with fw := { s.fw with
          backoff := aset mb (min 4096 (2 * b.1), s.fwCycle + min 4096 (2 * b.1)) s.fw.backoff } })) ∧
    ∀ (id : Nat) (o : PendOp) (l : LaneAcc) (ports k : Nat), alook id s.pend = some o →
      o.lanes.find? (fun m => m.lane == l.lane && m.st == .held) = some l → l.tgt = .peer ports k →
      (s.activePort ports = true → s.setChanged l.tgt = false →
        let m : LaneAcc := { l with st := .sent, via := s.portOf l.tgt }
        exec (.peerHoldRelease id l.lane) s = .next ((s.putOp id (o.setLane m)).sendFlits id [m])) ∧
      (s.activePort ports = false → s.anyPort ports = false →
        exec (.peerHoldRelease id l.lane) s = .next (s.failLane id o l .failed))

namespace Sys2Proof.Claims

/-- The offsets of lanes lie, aligned, inside a tile (R176). -/
def InTile (x : Tile) (w : Nat) (ls : List (Nat × Nat)) : Prop := ∀ l ∈ ls, l.2 % w = 0 ∧ l.2 + w ≤ x.size

/-- The tile that a scalar handle names for an agent (R164). -/
def tileAt (s : State) (t : Team) (a : Src) : Option (Nat × Tile) :=
  s.tileOf (s.env s.cur).gid (s.env s.cur).launch (s.env s.cur).die (srcScalar (s.env s.cur) t a).toNat

/-- The team of an agent waits as given. -/
def Waits (s : State) (tid : Nat) (t : Team) (w : Wait) : Prop := alook tid s.teams = some t ∧ t.st = .waiting ∧ t.wait = w

end Sys2Proof.Claims

/-- R164 to R168, R173, R174, R177, R308: TALLOC gives a free handle and a zeroed tile, or the code of what is missing; TFREE releases its tile
and ends the waits on it; TSTAT writes the record, 0 for a handle with no tile; the cellar engine restores a granule where its level has room and
spills a tile of a bank that is not active, which no matrix operation that has begun names (R216). TSTAT counts the granules in the cellar as
spilled (log entry 54). -/
def Obligations.TileAllocationResult : Prop :=
  ∀ (s : State),
    (∀ t : Team, s.agent s.cur = some t →
      let e := s.env s.cur
      (∀ (full : Bool) (l : TileLevel) (d : Reg) (sh : Fin 4), isScaDst d = true → t.ctl = false → (t.shape sh).kind = .tile →
        let gives (s1 : State) (v : W64) : Prop :=
          exec (.talloc full l d sh) s = .next (s1.setAgent e.ag ((t.writeScalar d v).advance 1))
        (s.freeHandle e l = none → gives s 0x1FF) ∧
        ∀ h, s.freeHandle e l = some h →
          let x := newTile e l h (t.shape sh).d0 (t.shape sh).d1 full
          (s.tileFits e l x.occupied = true →
            gives { s with tiles := aset s.nextId x s.tiles, nextId := s.nextId + 1 } (BitVec.ofNat 64 h)) ∧
          (s.tileFits e l x.occupied = false → gives s (if l = .l2 then 0x3FF else 0x2FF))) ∧
      (∀ (a : Src) (k : Nat) (x : Tile), Scalars t [a] → tileAt s t a = some (k, x) →
        exec (.tfree a) s =
          .next (((s.setAgent e.ag (t.advance (1 + a.words))).endGranuleWaits k).releaseTiles fun j _ => j == k)) ∧
      ∀ (d : Reg) (a : Src), Scalars t [a] → isScaDst d = true →
        exec (.tstat d a) s = .next (s.setAgent s.cur ((t.writeScalar d (match tileAt s t a with
          | none => 0
          | some (k, x) => x.record (s.tileInUse k))).advance (1 + a.words)))) ∧
    ∀ (k : Nat) (x : Tile) (c b : Nat), alook k s.tiles = some x → s.tilePlace x = some (.bank c b) →
      (∀ g, b = (s.core c).act → bitAt x.cellar g = true →
        s.levelHeld c x.level + 16 ≤ (if x.level = 0 then Config.l0Bytes else Config.l1Bytes) →
        exec (.tileRestore k g) s = .next { s with tiles := aset k (x.restore [g]) s.tiles }) ∧
      (b ≠ (s.core c).act → x.cellar ≠ x.allGranules → (∀ m ∈ s.mqs, m.2.begun = true → m.2.names k = false) →
        exec (.tileSpill k) s = .next { s with tiles := aset k { x with cellar := x.allGranules } s.tiles })

/-- R168, R169, R175, R176, R209, R210, R241: a TRD or TWR whose granules are ready issues, reading the tile into its operation or writing its
lanes in ascending order, which the matrix operations in their queues may see; where one is not ready its team waits, a TRD that needs it full
also for the operations that are to write it, while a TWR writes to what they are to write at once; and with an acquire of its team still open it
waits for that. -/
def Obligations.TileAccessResult : Prop :=
  ∀ (s : State) (t : Team), s.agent s.cur = some t →
    let e := s.env s.cur
    (∀ (wide : Bool) (q : TrdQ) (d : Reg) (a b : Src) (k : Nat) (x : Tile), Scalars t [a] → okSrc t b = true → okDst t d = true →
      (wide = true → okPairDst t d = true) → (isVecDst d = true → Vectors t) → (isVecDst d = false → isVec t b = false) →
      let w := if wide then 8 else 4
      let ls := tileLanes e t b (isVecDst d)
      let gs := ls.map fun l => l.2 / 16
      tileAt s t a = some (k, x) → InTile x w ls →
      (ls = [] → exec (.trd wide q d a b) s = .next (s.setAgent e.ag (t.countOff.advance (1 + a.words + b.words)))) ∧
      let ops := s.stillOpen e.ag t false
      (ls ≠ [] → ops ≠ [] → exec (.trd wide q d a b) s = .next (s.waitOrder e t ops)) ∧
      (ls ≠ [] → ops = [] → (∀ g ∈ gs, s.granuleReady k x (TrdQ.need q) g = true) →
        let lanes : List LaneAcc := ls.map fun l => {
          lane := l.1, va := tileAddr x.handle l.2, tgt := .tile k l.2, n := w, x := 0, y := 0, st := .done
          res := BitVec.ofNat 64 (leValue (fun i => sget x.bytes i) l.2 w), via := none, put := false }
        let x1 := x.restore gs
        let s1 : State := { s with tiles := aset k (if q = .take then { x1 with full := clearBits x1.full gs } else x1) s.tiles }
        let o := s1.newOp e t (.trd wide) false false 0 lanes (some t.nextFlag) (dstOf t d wide)
        exec (.trd wide q d a b) s = .next ((s1.post e (t.countOn.advance (1 + a.words + b.words)) o).putSome s.nextId o)) ∧
      (ops = [] → ∀ g ∈ gs, s.granuleReady k x (TrdQ.need q) g = false →
        exec (.trd wide q d a b) s = .next (s.waitGranule e t (.trd wide q d a b) k))) ∧
    ∀ (wide : Bool) (q : TwrQ) (x a b : Src) (k : Nat) (y : Tile), Scalars t [a] → okSrc t x = true → okSrc t b = true →
      (wide = true → okPairSrc t x = true) → ((isVec t x || isVec t b) = true → Vectors t) →
      let w := if wide then 8 else 4
      let ls := tileLanes e t b (isVec t x || isVec t b)
      let gs := ls.map fun l => l.2 / 16
      tileAt s t a = some (k, y) → InTile y w ls →
      let ops := s.stillOpen e.ag t false
      (ls ≠ [] → ops ≠ [] → exec (.twr wide q x a b) s = .next (s.waitOrder e t ops)) ∧
      ((ls = [] ∨ ops = []) → (∀ g ∈ gs, s.granuleReady k y (TwrQ.need q) g = true) →
        let data (l : Nat) : Nat := if wide then (srcLane64 e t x l).toNat else (srcLane e t x l).toNat
        let y1 := y.restore gs
        let y2 : Tile := { ls.foldl (fun (u : Tile) (l : Nat × Nat) => u.put l.2 (leBytes (data l.1) w)) y1 with
          full := if q = TwrQ.raw then y1.full else setBits y1.full gs }
        let s1 : State := { s with tiles := aset k y2 s.tiles }
        y2.bytes = ls.foldl (fun m (l : Nat × Nat) => putBytes m l.2 (leBytes (data l.1) w)) y1.bytes ∧
        exec (.twr wide q x a b) s = .next ((ls.foldl (fun (st : State) (l : Nat × Nat) => st.operandSeen none k l.2 w) s1).setAgent e.ag
          (t.advance (1 + x.words + a.words + b.words)))) ∧
      (ops = [] → ∀ g ∈ gs, s.granuleReady k y (TwrQ.need q) g = false →
        exec (.twr wide q x a b) s = .next (s.waitGranule e t (.twr wide q x a b) k))

namespace Sys2Proof.Claims

/-- R27, R169, R170, R326: a TRD completes, lanes found in error not written; a team's granule wait ends with its instruction issued
when its granules are ready, or, with one not ready, with BARRIER-TIMEOUT at the cycle in which the watchdog expires. -/
def TileWaitsEnd : Prop :=
  ∀ s : State,
    (∀ (id : Nat) (bad : List Nat) (o : PendOp) (wide : Bool), alook id s.pend = some o → o.kind = .trd wide →
      let o1 : PendOp := { o with lanes := o.lanes.map fun l => if bad.contains l.lane then { l with st := .failed } else l }
      (o1.error ≠ none → s.ramping (s.agentCore o.ag) = false) →
      let s1 : State := { s with pend := adel id s.pend }
      exec (.trdComplete id bad) s = .next (if o.killed then s1 else s1.finishOp o.ag o1)) ∧
    ∀ (tid k : Nat) (t : Team) (i : Instr), Waits s tid t (.granule i k) →
      (∀ f, granuleForm i = some f → s.mayIssue tid = true → (s.reissue (.team tid) f).granuleWaiter tid = false →
        exec (.granuleWaitEnd tid) s = .next (s.reissue (.team tid) f)) ∧
      ∀ x, alook k s.tiles = some x → s.expired tid t.since = true →
        let need := granuleNeeds (s.env (.team tid)) t i
        (∃ l ∈ need.1, s.granuleReady k x need.2.1 (l.2 / 16) = false) →
        ∃ (tr : Trap) (it : Diag), exec (.granuleWaitTimeout tid) s = .next (s.watchTrap tid tr it) ∧ tr.cause = .barrierTimeout ∧
          tr.count = some (s.expiry tid t.since) ∧ it.start = t.since ∧ it.expiry = s.expiry tid t.since ∧ it.id = x.handle

end Sys2Proof.Claims

/-- R191, R193, R195 to R197, R199: a COPY with room is posted on its flag and its phase; with 32 in flight its team waits, until one completes;
the engine reads and checks its record, latching the tiles that the handles in its source, its destination and its index location name for its
group and launch on its die (the moment is the model's choice, log entry 37), begins it when its flag has cleared and the copies before it have
completed, a dequantise copy with its header read and checked, lands it granule by granule, the units of a granule in one step, and stops it at an
error. What the engine reads it reads at a time that the part chooses (log entry 11); IND = 3, the credit of codes and the sign of a rotated zero
are the model's (log entries 55 to 57). -/
def Obligations.CopiesResult : Prop :=
  ∀ s : State,
    (∀ (t : Team) (xf : Bool) (cq : Fin 4) (a b : Src) (r : BarRef), s.agent s.cur = some t → Scalars t [a, b] →
      let e := s.env s.cur
      let addr := srcScalar e t a
      barOpen s e t b = .ok r →
      Reached (lanesTgt s e t { write := false, atomic := false, n := 64 } [0] (fun _ => addr)) →
      (s.inFlight e.core < Config.copyLimit →
        let c : CopyOp := {
          core := e.core, q := cq.val, ag := e.ag, gid := e.gid, ctx := e.ctx, xf := xf, addr := addr, launch := e.launch
          bar := r, flag := t.nextFlag, st := .posted, pat := [], src := none, dst := none, idx := none, hdr := [], err := 0, landed := []
          after := s.joined e.core cq.val ++ t.fenced 3, pc := s.origPc t.gid t.pc }
        let s1 := (s.useAll e [addr]).placeJoin e.core (2 ^ cq.val) [s.nextId]
        exec (.copy xf cq a b) s = .next ({ s1 with copies := aset s1.nextId c s1.copies, nextId := s1.nextId + 1 }.setAgent e.ag
          ((t.countOn.posted cq.val s.nextId).advance (1 + a.words + b.words)))) ∧
      (Config.copyLimit ≤ s.inFlight e.core →
        exec (.copy xf cq a b) s = .next (s.setAgent e.ag { t with st := .waiting, wait := .copyStall (.copy xf cq a b) }))) ∧
    (∀ (tid : Nat) (t : Team) (xf : Bool) (cq : Fin 4) (a b : Src), Waits s tid t (.copyStall (.copy xf cq a b)) →
      s.mayIssue tid = true → s.inFlight (s.agentCore (.team tid)) < Config.copyLimit →
      exec (.copyStallEnd tid) s = .next (s.reissue (.team tid) (copyForm xf cq a b))) ∧
    ∀ (k : Nat) (c : CopyOp), alook k s.copies = some c →
      (∀ g, c.st = .posted → s.engWaits k = false → s.engTarget c.ctx .program false c.addr = .ok g → s.tgtPoisoned g 64 = false →
        let ws := (List.range 8).map fun i => BitVec.ofNat 64 (s.valueBy c.party c.after (g.plus (8 * i)) 8 i)
        let p := Pattern.parse ws
        let tile (a : W64) : Option Nat := (s.tileOf c.gid c.launch (dieOf c.core) (bits a.toNat 55 48)).map fun x => x.1
        let ofLoc (a : W64) : Option Nat := if a.toNat / 2 ^ 56 = 255 then tile a else none
        (p.ok c.xf = false →
          exec (.copyAcknowledge k) s = .next ((s.failCopy k c 0x10).clearFlag c)) ∧
        (p.ok c.xf = true → exec (.copyAcknowledge k) s = .next (((({ s with copies := aset k { c with
            st := .ready, pat := ws, src := ofLoc p.src, dst := ofLoc p.dst, idx := if p.ind = 0 then none else ofLoc p.w5 } s.copies } :
            State).readBy c (recordReads g)).sendOn g none).clearFlag c))) ∧
      (c.st = .ready → (∀ j ∈ c.after, s.engineOpen j = false) → s.engWaits k = false →
        (∀ x ∈ s.copies, x.1 < k → ¬(x.2.core = c.core ∧ x.2.q = c.q)) →
        let p := Pattern.parse c.pat
        let s1 := (s.readBy c ((s.headerSpans c p).map Span.read)).sendReqs ((s.headerSpans c p).map fun g => g.tgt)
        let begun (hdr : List W64) : State :=
          if p.units = 0 then s1.dropCopy k else { s1 with copies := aset k { c with st := .begun, hdr := hdr } s1.copies }
        (p.xf ≠ 2 → exec (.copyBegin k) s = .next (begun [])) ∧
        (p.xf = 2 → (∀ b, s.copyHeader c p = .ok b → exec (.copyBegin k) s = .next (begun (words64 b))) ∧
          ∀ n, s.copyHeader c p = .error (.code n) → exec (.copyBegin k) s = .next (s.failCopy k c n))) ∧
      ∀ u, c.st = .begun → u < (Pattern.parse c.pat).units → c.landed.contains u = false → s.engWaits k = false →
        let p := Pattern.parse c.pat
        let units := (s.unitMates c p u).mapM fun v => (s.copyUnit c p v).map fun x => (v, x)
        (∀ us, units = .ok us → exec (.copyLand k u .land) s = .next (s.landUnits k c p us)) ∧
        (∀ n, units = .error (.code n) → exec (.copyLand k u .land) s = .next (s.failCopy k c n)) ∧
        ∀ s1, s.copyUncorrectable c p u = some s1 → exec (.copyLand k u .uncorrectable) s = .next (s1.failCopy k c 0x14)

namespace Sys2Proof.Claims

/-- A matrix shape that an operation may use (R155): not stale, and granted for the team's present gang. -/
def MatShape (t : Team) (q : Shape) : Prop := q.kind = .mat ∧ q.stale = false ∧ q.gsz = t.gangSize

/-- R202, R205, R206, R207: the MMA of a team with no gang is posted to the matrix queue when its checks pass; with no live lane it
passes with no operation; a team of a gang whose rendezvous it agrees with waits at the latch, which issues every complete rendezvous,
of its first eight by when each was opened (log entry 60). -/
def MatrixMultiplyIssues : Prop :=
  ∀ (s : State) (t : Team) (g : Bool) (sh : Fin 4) (d : BitVec 7) (a b : Src) (mode : MmaMode) (idx fmt : BitVec 7) (op : MmaOp),
    s.agent s.cur = some t → mmaFields t g sh d a b mode idx fmt = .ok op → MatShape t (t.shape sh) →
    let e := s.env s.cur
    let i : Instr := .mma g sh d a b mode idx fmt
    let m : MmaTeam := { tid := e.ag.tid, t := t, op := op }
    (∀ w p, t.gang = 0 → s.refWord [m] = some w → s.mmaChecks [m] m w = .ok p → exec i s = .next (s.issueMma [m] m p)) ∧
    (t.gang = 0 → t.liveLanes = [] → exec i s = .next (s.passMma [m] m)) ∧
    (t.gang ≠ 0 → s.gangDead e.gid t.gang = false →
      (∀ w r, s.latched e.gid t.gang = w :: r → ∃ x j, mmaTeam w = some x ∧ w.2.atLatch = some j ∧ s.sameArrival i m x j = true) →
      exec i s = .next ((s.setAgent e.ag
        { t with st := .waiting, wait := .rendezvous i, since := (s.core e.core).count }).settleLatch e.core 16))

/-- R200, R212, R213: an MDRAIN whose checks pass is posted on its flag, an MZERO without one; the segment of an MZERO is empty from
its issue on. -/
def DrainsAndZeroesIssue : Prop :=
  ∀ (s : State) (t : Team), s.agent s.cur = some t → t.ctl = false →
    let e := s.env s.cur
    (∀ (addTo : Bool) (sh : Fin 4) (d a b : Src) (k : Nat) (y : Tile) (dest : List Target), Scalars t [d, a, b] →
      let x := (srcScalar e t b).toNat
      let q := t.shape sh
      let rows := q.d0 / t.gangSize
      let pitch := bits x 31 0
      let loc := srcScalar e t d
      let offs := drainOffsets rows q.d1 pitch
      MatShape t q → bits x 63 33 = 0 → (rows ≤ 1 ∨ 4 * q.d1 ≤ pitch) → pitch % 4 = 0 → loc.toNat % 4 = 0 →
      segmentOf s e (srcScalar e t a).toNat rows q.d1 = .ok (k, y) → drainDest s e t loc offs = .ok dest →
      let s1 := s.useAll e (if loc.toNat / 2 ^ 56 = 255 then [] else offs.map fun o => loc + BitVec.ofNat 64 o)
      exec (.mdrain addTo sh d a b) s =
        .next ((s1.setAgent e.ag ((t.countOn.posted 4 s1.nextId).advance (1 + d.words + a.words + b.words))).enqueueMq
          { ownMq s e t (.mdrain addTo (bitAt x 32)) q k (some t.nextFlag) dest with loc := loc, pitch := pitch })) ∧
    ∀ (sh : Fin 4) (a : Src) (k : Nat) (y : Tile), Scalars t [a] →
      let q := t.shape sh
      let rows := q.d0 / t.gangSize
      MatShape t q → segmentOf s e (srcScalar e t a).toNat rows q.d1 = .ok (k, y) →
      exec (.mzero sh a) s = .next (((s.setAgent e.ag ((t.posted 4 s.nextId).advance (1 + a.words))).emptySegment k rows q.d1).enqueueMq
        (ownMq s e t .mzero q k none []))

end Sys2Proof.Claims

namespace Sys2Proof.Claims

/-- R155, R202, R203, R208: a matrix instruction on a shape that is no matrix shape, or was granted for another gang size, raises SHAPE, and on a
stale one SHAPE-STALE, its fault mask the active lanes; an MMA that meets a gang it does not agree with, or of which a team is gone, raises GANG
in every team at the latch; and one whose live lanes' format words differ raises FORMAT-DIVERGE, its fault mask the lanes whose words differ from
the lowest's. -/
def MatrixTraps : Prop :=
  ∀ (s : State) (t : Team), s.agent s.cur = some t → t.ctl = false →
    let e := s.env s.cur
    (∀ (sh : Fin 4) (i : Instr), (∃ a, i = .mzero sh a ∧ Scalars t [a]) ∨ (∃ addTo d a b, i = .mdrain addTo sh d a b ∧ Scalars t [d, a, b] ∧
          bits (srcScalar e t b).toNat 63 33 = 0 ∧
          ((t.shape sh).d0 / t.gangSize ≤ 1 ∨ 4 * (t.shape sh).d1 ≤ bits (srcScalar e t b).toNat 31 0)) ∨
        (∃ g d a b mode idx fmt op, i = .mma g sh d a b mode idx fmt ∧ mmaFields t g sh d a b mode idx fmt = .ok op) →
      let q := t.shape sh
      (q.kind ≠ .mat ∨ q.stale = false ∧ q.gsz ≠ t.gangSize → exec i s = .next (takeTrap s (Trap.of .shape))) ∧
      (q.kind = .mat → q.stale = true → exec i s = .next (takeTrap s { cause := .shapeStale, mask := some t.active }))) ∧
    ∀ (g : Bool) (sh : Fin 4) (d : BitVec 7) (a b : Src) (mode : MmaMode) (idx fmt : BitVec 7) (op : MmaOp),
      mmaFields t g sh d a b mode idx fmt = .ok op → MatShape t (t.shape sh) →
      let i : Instr := .mma g sh d a b mode idx fmt
      let m : MmaTeam := { tid := e.ag.tid, t := t, op := op }
      let ws := s.latched e.gid t.gang
      (t.gang ≠ 0 → (s.gangDead e.gid t.gang = true ∨ ∃ w r x j, ws = w :: r ∧ mmaTeam w = some x ∧ w.2.atLatch = some j ∧
          s.sameArrival i m x j = false) →
        exec i s = .next (((s.bySlot (m.tid :: ws.map fun w => w.1)).foldl (fun (st : State) k => st.stopTeam k (Trap.of .gang)) s).settleLatch
          e.core 16)) ∧
      ∀ l r, t.gang = 0 → s.cur = .team e.ag.tid → alook e.ag.tid s.teams = some t → t.liveLanes = l :: r →
        (∃ k ∈ r, s.fmtWord m k ≠ s.fmtWord m l) → ∃ x : Trap, exec i s = .next (takeTrap s x) ∧ x.cause = .formatDiverge ∧
          ∃ w, x.mask = some w ∧ ∀ k < 1024, w.getLsbD k = true ↔ k ∈ t.liveLanes ∧ s.fmtWord m k ≠ s.fmtWord m l

end Sys2Proof.Claims

/-- R200, R202, R205 to R207, R212, R213: the three matrix instructions issue; and R155, R202, R203, R208: the traps of their shapes, gangs and
format words. -/
def Obligations.MatrixIssues : Prop := MatrixMultiplyIssues ∧ DrainsAndZeroesIssue ∧ MatrixTraps

/-- R200, R203, R207, R209, R213: the head of a matrix queue begins on an active engine; a begun operation completes, its rows written
to its tiles; a rendezvous that outlasts the watchdog stops its teams with GANG. -/
def Obligations.MatrixOperationsComplete : Prop :=
  ∀ s : State,
    (∀ (core id : Nat) (m : MqOp), s.mqHead core = some (id, m) → m.begun = false → (s.core core).mat = .active →
      (∀ k ∈ m.after, s.engineOpen k = false) → s.mqCellar m = false →
      let s1 : State := { s.addOrder id (s.closure m.after) with mqs := aset id { m with begun := true, at_ := (s.core core).count } s.mqs }
      (∀ addTo int, m.kind = .mdrain addTo int → m.toTile = false → s.mqHeld m = false →
        exec (.mqOperationBegin core) s = .next (s1.postDrain id m addTo int)) ∧
      (((∀ addTo int, m.kind ≠ .mdrain addTo int) ∨ m.toTile = true ∨ s.mqHeld m = true) → exec (.mqOperationBegin core) s = .next s1)) ∧
    (∀ (id : Nat) (m : MqOp), alook id s.mqs = some m → m.begun = true →
      (∀ mode, m.kind = .mma mode →
        let s1 := m.parts.foldl (fun (st : State) p => st.mqRows m.core p.acc (s.rowBytes p.acc) (s.mmaRows m mode p)) s
        exec (.mmaComplete id false) s =
          .next (m.parts.foldl (fun (st : State) p => st.endPart id p none) ((s1.ctxEvent m.core m.ctx 5
            (s.mmaMacs m - s.macsDone m ((s.core m.core).count - m.at_))).endMq id m))) ∧
      (m.kind = .mzero → exec (.mzeroComplete id) s = .next
        ((s.mqRows m.core m.a (s.rowBytes m.a) (List.replicate m.m (List.replicate (4 * m.n) 0))).endMq id m)) ∧
      (∀ addTo int o, m.kind = .mdrain addTo int → alook id s.pend = some o → (∀ l ∈ o.lanes, l.st = .done) →
        exec (.mdrainComplete id []) s = .next
          (m.parts.foldl (fun (st : State) p => st.endPart id p none) (({ s with pend := adel id s.pend } : State).endMq id m))) ∧
      ∀ int, m.kind = .mdrain false int → alook id s.pend = none →
        exec (.mdrainComplete id []) s = .next (m.parts.foldl (fun (st : State) p => st.endPart id p none)
          ((s.drainWrite id m false int ((m.dest.zip (List.range m.dest.length)).map fun g => (g.2, g.1))).endMq id m))) ∧
    ∀ (tid : Nat) (t : Team) (i : Instr) (g : Group), Waits s tid t (.rendezvous i) → alook t.gid s.groups = some g →
      let ws := s.latched t.gid t.gang
      t.since = openedAt ws → s.expired tid t.since = true → ∃ d : Diag, d.kind = 2 ∧ d.gang = t.gang.toNat ∧ d.start = t.since ∧
        exec (.rendezvousTimeout tid) s = .next (((s.bySlot (ws.map fun w => w.1)).foldl
          (fun (st : State) k => st.watchTrap k { cause := .gang, count := some (s.expiry tid t.since) } d) s).settleLatch (s.agentCore (.team tid)) 16)

/-- R242, R247, R321: a FENCE or TLBINV with nothing open goes on, another waits for the accesses concerned; a QFENCE places its join,
and `.wait` waits for the joined operations, which it then acquires with all that its team has posted to those queues before (R246); each
wait ends when they are performed. An access that waits for others
(R240, R241) executes again when they are. -/
def Obligations.FencesResult : Prop :=
  ∀ s : State,
    (∀ t : Team, s.agent s.cur = some t →
      let e := s.env s.cur
      (∀ (k : FenceKind) (obs : BitVec 7), obs ≠ 0 →
        let ops := s.fenceOps e.ag t k
        (ops = [] → exec (.fence k obs) s = .next (s.endFence e.ag t k obs)) ∧
        (ops ≠ [] → exec (.fence k obs) s = .next (s.setAgent e.ag { t with st := .waiting, wait := .fence k obs ops }))) ∧
      (∀ (wait : Bool) (qm : BitVec 7), qm ≠ 0 →
        let ops := s.posted e.core qm.toNat
        let s1 := s.placeJoin e.core qm.toNat ops
        let own := t.postedTo qm.toNat
        ((wait = false ∨ ops = []) → exec (.qfence wait qm) s =
          .next (s1.setAgent e.ag ({ t with hb := t.hb ++ (if wait then own else []) }.advance 1))) ∧
        (wait = true → ops ≠ [] →
          exec (.qfence wait qm) s = .next (s1.setAgent e.ag { t with st := .waiting, wait := .qfence (ops ++ own) }))) ∧
      ∀ (k : TlbK) (d a b : Src) (r : TlbRange), levelRank t.level = 2 → Scalars t [d, a, b] → tlbRange e t k d a b = some r →
        let ops := s.fenceOps e.ag t .rel
        (ops = [] → exec (.tlbinv k d a b) s =
          .next (s.tlbRemove e.ag t (.tlbinv k d a b) (1 + d.words + a.words + b.words) r)) ∧
        (ops ≠ [] → exec (.tlbinv k d a b) s =
          .next (s.setAgent e.ag { t with st := .waiting, wait := .tlbinv (.tlbinv k d a b) ops false }))) ∧
    ∀ (tid : Nat) (t : Team), s.agent (s.waiterOf tid) = some t → t.st = .waiting →
      (∀ f obs ops, t.wait = .fence f obs ops → (∀ k ∈ ops, s.opOpen k = false) →
        exec (.fenceWaitEnd tid) s = .next (s.endFence (s.waiterOf tid) t f obs)) ∧
      (∀ ops, t.wait = .order ops → (∀ k ∈ ops, s.opOpen k = false) →
        exec (.fenceWaitEnd tid) s = .next (s.setAgent (s.waiterOf tid) { t with st := .ready, wait := .none })) ∧
      (∀ ops, t.wait = .qfence ops → (∀ k ∈ ops, s.engineOpen k = false) →
        exec (.qfenceWaitEnd tid) s = .next (s.setAgent (s.waiterOf tid)
          (({ t with st := .ready, wait := .none, hb := t.hb ++ ops } : Team).advance 1))) ∧
      ∀ k d a b ops, t.wait = .tlbinv (.tlbinv k d a b) ops true → (∀ j ∈ ops, s.stillToDo j = false) →
        exec (.fenceWaitEnd tid) s = .next (s.setAgent (s.waiterOf tid)
          (({ t with st := .ready, wait := .none } : Team).advance (1 + d.words + a.words + b.words)))

/-- R225 to R232, R385: the barrier instructions on an id that an agent may name; a BARV `.wait` that has arrived does not arrive again. A team
of a launch that is not CORESIDENT that names a package-scope id, in a barrier instruction or a COPY, takes BARRIER-SCOPE and does nothing else. -/
def Obligations.BarriersResult : Prop :=
  ∀ (s : State) (t : Team), s.agent s.cur = some t →
    let e := s.env s.cur
    (∀ (d : Reg) (a b : Src) (i : Instr), Scalars t [a, b] → isScaDst d = true → e.ctl = false → s.coresident e.launch = false →
      1536 ≤ (srcScalar e t a).toNat → (srcScalar e t a).toNat < 2048 →
      i ∈ ([.binit d a b, .barv false d a, .barv true d a, .bwait d a b, .btest d a b, .bexp a b, .bstat false d a, .bstat true d a, .binv a] :
        List Instr) ∨ (∃ xf cq, i = .copy xf cq b a) → exec i s = .next (takeTrap s (Trap.of .barrierScope))) ∧
    (∀ (d : Reg) (a b : Src) (id : Nat), Scalars t [a, b] → isScaDst d = true → barId s e t a = .ok id → e.ctl = false →
      (id < 1024 → id < s.nbOf e.gid) →
      let x := (srcScalar e t b).toNat
      0 < x → x < 2 ^ 46 →
      let gives (s1 : State) (v : W64) : Prop :=
        exec (.binit d a b) s = .next (s1.setAgent e.ag ((t.writeScalar d v).advance (1 + a.words + b.words)))
      let fresh := Barrier.init (bits x 45 32) (bits x 31 0) (barScope id)
      (∀ r o, s.barRef e id = some r → s.barAt r = some o → gives s (if bits x 45 32 = o.expA then 1 else 2)) ∧
      (s.barRef e id = none → id < 1024 → gives (s.openGroupBar e.gid id fresh) 0) ∧
      (s.barRef e id = none → 1024 ≤ id → s.entriesHeld e.core < Config.barEntries → s.barsFit e.ctx e.region 1 = true →
        gives { s with
          bars := aset s.nextId { launch := e.launch, die := e.die, id := id, home := e.core, b := fresh } s.bars
          nextId := s.nextId + 1 } 0) ∧
      (s.barRef e id = none → 1024 ≤ id → (Config.barEntries ≤ s.entriesHeld e.core ∨ s.barsFit e.ctx e.region 1 = false) → gives s 3)) ∧
    ∀ (d : Reg) (a b : Src) (r : BarRef) (o : Barrier), Scalars t [a, b] → isScaDst d = true → barOpen s e t a = .ok r →
      s.barAt r = some o →
      (∀ p, t.arrived = some p → exec (.barv true d a) s = .next (s.awaitPhase e t r p (1 + a.words) d)) ∧
      (∀ wait : Bool, (wait = true → t.arrived = none) →
        let s1 := s.modBar r fun x => x.arrive e.ag.tid t.released
        let s2 := if o.scope = 0 then s1 else s1.committed e.gid
        (s.inCopy e = true → 1024 ≤ (srcScalar e t a).toNat →
          exec (.barv wait d a) s = .next (s.holdCommit e t (.barv wait d a))) ∧
        ((s.inCopy e = false ∨ (srcScalar e t a).toNat < 1024) →
          exec (.barv wait d a) s = .next (if wait = true then s2.awaitPhase e { t with arrived := some o.phase } r o.phase (1 + a.words) d
            else s2.setAgent e.ag ((t.writeScalar d (BitVec.ofNat 64 o.phase)).advance (1 + a.words))))) ∧
      exec (.bwait d a b) s =
        .next (s.awaitPhase e t r ((srcScalar e t b).toNat % 2 ^ 16) (1 + a.words + b.words) d) ∧
      exec (.btest d a b) s = .next (s.setAgent s.cur
        ((match o.status ((srcScalar e t b).toNat % 2 ^ 16) with
          | some v => (t.acquireBar o ((srcScalar e t b).toNat % 2 ^ 16)).writeScalar d (BitVec.ofNat 64 v)
          | none => t.writeScalar d (BitVec.allOnes 64)).advance (1 + a.words + b.words))) ∧
      ((srcScalar e t b).toNat < 2 ^ 32 → exec (.bexp a b) s =
        .next ((s.modBar r fun x => x.bexp (srcScalar e t b).toNat).setAgent e.ag (t.advance (1 + a.words + b.words)))) ∧
      (∀ hi : Bool, exec (.bstat hi d a) s =
        .next (s.setAgent s.cur ((t.writeScalar d (if hi then o.high else o.low)).advance (1 + a.words)))) ∧
      exec (.binv a) s = .next (((s.setAgent e.ag (t.advance (1 + a.words))).endBarWaits r 0x20).closeBar r)

namespace Sys2Proof.Claims

/-- R230, R233, R234, R384: what completes a phase gives every team of an active bank that waits for it its status, with what the phase
released; a team that has one goes on; and at the cycle in which the watchdog expires the others trap with BARRIER-TIMEOUT. -/
def BarrierWaitsEnd : Prop :=
  (∀ (s : State) (tid p n v : Nat) (t : Team) (r : BarRef) (d : Reg) (b : Barrier) (f : Barrier → Barrier),
    Waits s tid t (.barrier r p n d none) → s.barAt r = some b → (f b).status p = some v → s.inActive tid = true →
    (s.core (s.agentCore (.team tid))).swap = none →
    alook tid (s.modBar r f).teams = some { t.acquireBar (f b) p with wait := .barrier r p n d (some v) }) ∧
  (∀ (s : State) (tid p n v : Nat) (t : Team) (r : BarRef) (d : Reg), Waits s tid t (.barrier r p n d (some v)) →
    s.mayIssue tid = true →
    let u : Team := { t with st := .ready, wait := .none, arrived := none }
    exec (.barrierWaitWake tid) s = .next { s with teams := aset tid ((u.writeScalar d (BitVec.ofNat 64 v)).advance n) s.teams }) ∧
  ∀ (s : State) (tid p n : Nat) (t : Team) (r : BarRef) (d : Reg) (b : Barrier), Waits s tid t (.barrier r p n d none) →
    s.barAt r = some b → b.status p = none → b.wq.find? (fun k => (s.phaseWaiters r p).contains k) = some tid →
    s.expired tid t.since = true →
    ∃ (x : Nat → Diag) (y : Nat → Trap),
      (∀ k, (x k).kind = 0 ∧ (x k).phase = p ∧ (x k).start = t.since ∧ (x k).expiry = s.expiry tid t.since ∧ (x k).cnta = b.cntA ∧
        (x k).expa = b.expA ∧ (y k).cause = .barrierTimeout ∧ (y k).mask = none) ∧ (y tid).count = some (s.expiry tid t.since) ∧
      exec (.barrierTimeout tid) s = .next ((s.bySlot (s.phaseWaiters r p)).foldl (fun (st : State) k => st.watchTrap k (y k) (x k)) s)

end Sys2Proof.Claims

/-- R27, R169, R170, R233, R234, R326, R384: how a TRD completes, and how granule and barrier waits end. -/
def Obligations.TileAndBarrierWaitsEnd : Prop := TileWaitsEnd ∧ BarrierWaitsEnd

/-- R263, R264, R312: ENQ posts the record it can read and gives its status; CONT ends its group, posting its successor first, or nothing for `z`,
and takes QUEUE, with nothing else, for a record that would not be posted. With an acquire of its team open each first waits for it (R241). Each
is a commit: in a REDUNDANT group it waits for the partner. -/
def Obligations.EnqueueAndContinueResult : Prop :=
  ∀ (s : State) (t : Team), s.agent s.cur = some t →
    let e := s.env s.cur
    (∀ (d : Reg) (a : Src) (ws : List W64), Scalars t [a] → isScaDst d = true → readRecord s e t (srcScalar e t a) = .ok ws →
      let r := s.postRecord e.ctx (some e.region) e.die false ws t.released
      let ops := s.stillOpen e.ag t false
      (s.inCopy e = true → exec (.enq d a) s = .next (s.holdCommit e t (.enq d a))) ∧
      (s.inCopy e = false → ops ≠ [] → exec (.enq d a) s = .next (s.waitOrder e t ops)) ∧
      (s.inCopy e = false → ops = [] →
        exec (.enq d a) s = .next (((r.2.fetchRecord e t (srcScalar e t a)).committed e.gid).setAgent e.ag
          (((t.sawRecord s e (srcScalar e t a)).writeScalar d (BitVec.ofNat 64 r.1)).advance (1 + a.words))))) ∧
    (t.ctl = false → t.errs = [] →
      (s.inCopy e = true → exec (.cont (.reg .z)) s = .next (s.holdCommit e t (.cont (.reg .z)))) ∧
      (s.inCopy e = false → exec (.cont (.reg .z)) s = .next (s.endGroup e.gid)) ∧
      ∀ (a : Src) (ws : List W64), Scalars t [a] → a ≠ .reg .z → readRecord s e t (srcScalar e t a) = .ok ws →
        let ops := s.stillOpen e.ag t false
        let status := s.postStatus e.ctx (some e.region) e.die true (Task.parse ws)
        (ops = [] → status ≠ 0 → exec (.cont a) s = .next (takeTrap s (Trap.of .queue))) ∧
        (s.inCopy e = true → (ops ≠ [] ∨ status = 0) → exec (.cont a) s = .next (s.holdCommit e t (.cont a))) ∧
        (s.inCopy e = false → ops ≠ [] → exec (.cont a) s = .next (s.waitOrder e t ops)) ∧
        (s.inCopy e = false → ops = [] → status = 0 → exec (.cont a) s =
          .next (((s.append e.ctx e.die true ws t.released).fetchRecord e t (srcScalar e t a)).endGroup e.gid)))

/-- R265: PUSHT puts a value at the tail of the core's deque, or answers 1 when it is full; POPT takes the value at the tail, STEAL the
value at the head of another core's deque, 0 when there is none. In a REDUNDANT region each raises QUEUE, as PICK does (R312). -/
def Obligations.DequeResult : Prop :=
  ∀ (s : State) (t : Team), s.agent s.cur = some t →
    let e := s.env s.cur
    let s1 := s.committed e.gid
    (s.redundant e = true → ∀ (d : Reg) (a : Src), isScaDst d = true → Scalars t [a] →
      let queue : Host.Outcome State Fault Refusal := .next (takeTrap s (Trap.of .queue))
      (srcScalar e t a ≠ 0 → exec (.pusht d a) s = queue) ∧ exec (.popt d) s = queue ∧
      ((srcScalar e t a).toNat < Config.nCores → exec (.steal d a) s = queue) ∧
      ∀ o b, Scalars t (a :: b.toList) → exec (.pick o a (.reg .z) b) s = queue) ∧
    (s.redundant e = false →
    (∀ (d : Reg) (a : Src), Scalars t [a] → isScaDst d = true → srcScalar e t a ≠ 0 →
      let q := (s.core e.core).active.deque
      (q.length < Config.dequeLimit → exec (.pusht d a) s =
        .next ((s1.setAgent e.ag ((t.writeScalar d 0).advance (1 + a.words))).modCore e.core fun y => y.modActive fun b =>
          { b with deque := b.deque ++ [(srcScalar e t a, t.released)] })) ∧
      (Config.dequeLimit ≤ q.length → exec (.pusht d a) s =
        .next (s1.setAgent e.ag ((t.writeScalar d 1).advance (1 + a.words))))) ∧
    (∀ d : Reg, isScaDst d = true →
      ((s.core e.core).active.deque = [] → exec (.popt d) s = .next (s1.setAgent e.ag ((t.writeScalar d 0).advance 1))) ∧
      ∀ q x, (s.core e.core).active.deque = q ++ [x] → exec (.popt d) s =
        .next ((s1.setAgent e.ag (((t.acquires x.2).writeScalar d x.1).advance 1)).modCore e.core fun y => y.modActive fun b =>
          { b with deque := b.deque.dropLast })) ∧
    ∀ (d : Reg) (a : Src), Scalars t [a] → isScaDst d = true → (srcScalar e t a).toNat < Config.nCores →
      let v := (srcScalar e t a).toNat
      let k := (s.core v).active
      ((k.ctx ≠ some e.ctx ∨ k.deque = []) → exec (.steal d a) s =
        .next (s1.setAgent e.ag ((t.writeScalar d 0).advance (1 + a.words)))) ∧
      ∀ x r, k.ctx = some e.ctx → k.deque = x :: r → exec (.steal d a) s =
        .next ((s1.setAgent e.ag (((t.acquires x.2).writeScalar d x.1).advance (1 + a.words))).modCore v fun y =>
          y.modActive fun b => { b with deque := b.deque.drop 1 }))

/-- R262, R267, R332, R333: PICK posts one command per live lane for a vector index and one otherwise; SCAN posts one. Each command that may
begin is performed; its barrier is credited, or it ends with its error. That .set and .clr check the descriptor at issue as eight words, and
.emit and SCAN as one access of 64 bytes, is the model's reading (log entry 36). -/
def Obligations.CommandsResult : Prop :=
  ∀ s : State,
    let done (s1 : State) (id : Nat) (c : EngCmd) : State :=
      ((s1.walksFor c.ctx c.die [c.desc]).addOrder id (s.closure c.after)).endCmd id c
    (∀ (t : Team) (b : Option Src) (r : Option BarRef), s.agent s.cur = some t →
      let e := s.env s.cur
      barOperand s e t b = .ok r →
      (∀ (o : PickOp) (d a : Src), okSrc t a = true → Scalars t (d :: b.toList) → (o = .emit → a = .reg .z) →
        (isVec t a = true → Vectors t) → s.redundant e = false →
        let addr := srcScalar e t d
        checkDesc s e t addr (if o = .emit then 64 else 8) = .ok () →
        let idx := if isVec t a then t.liveLanes.map fun l => (srcLane e t a l).toNat else [(srcScalar e t a).toNat]
        let s1 := idx.foldl (fun (st : State) i => st.postCmd (newCmd s e t (PickOp.kind o i) addr r)) (s.useAll e [addr, addr + 56])
        let t1 := (List.range idx.length).foldl (fun (u : Team) k => u.posted 5 (s.nextId + k)) t
        exec (.pick o d a b) s =
          .next ((s1.committed e.gid).setAgent e.ag (t1.advance (1 + d.words + a.words + Src.optWords b)))) ∧
      ∀ a : Src, Scalars t (a :: b.toList) → checkDesc s e t (srcScalar e t a) 64 = .ok () →
        exec (.scan a b) s = .next (((s.useAll e [srcScalar e t a]).postCmd (newCmd s e t .scan (srcScalar e t a) r)).setAgent e.ag
          ((t.posted 6 s.nextId).advance (1 + a.words + Src.optWords b)))) ∧
    (∀ (die id : Nat) (c : EngCmd), afind (fun _ c => c.die == die && c.kind != .scan) s.cmds = some (id, c) →
      s.cmdReady id c = true →
      (∀ s1, c.fail = none → s.pickRun id c = .ok s1 → exec (.pickCommandExecute die) s = .next (done s1 id c)) ∧
      (∀ n, c.fail = none → s.pickRun id c = .error (.code n) → exec (.pickCommandExecute die) s = .next (s.failCmd id c n)) ∧
      ∀ n, c.fail = some n → exec (.pickCommandExecute die) s = .next (s.failCmd id c n)) ∧
    ∀ (id : Nat) (c : EngCmd) (picked : List Nat), alook id s.cmds = some c → c.kind = .scan → s.cmdReady id c = true →
      (∀ x ∈ s.cmds, x.1 < id → ¬(x.2.core = c.core ∧ x.2.kind = .scan)) →
      c.fail = none →
      (∀ s1, s.scanRun id c picked = .ok (some s1) → exec (.scanCommandExecute id picked) s = .next (done s1 id c)) ∧
      ∀ n, s.scanRun id c picked = .error (.code n) →
        let c1 := { c with src := s.srcAfter c }
        exec (.scanCommandExecute id picked) s = .next (({ s with cmds := aset id c1 s.cmds } : State).failCmd id c1 n)

/-- R258, R259, R263: a join update is performed when every access of its group is, or reported and dropped; a host submission reads the
record it names and answers with the status of posting it; while SCHED is hung it is held in SCHED's mailbox (R361). -/
def Obligations.JoinsAndSubmissionResult : Prop :=
  ∀ s : State,
    (∀ (id : Nat) (j : JoinUpd), alook id s.joins = some j → (∀ k ∈ j.after, s.opOpen k = false ∧ s.engineOpen k = false) →
      s.engWaits id = false →
      (∀ s1, s.joinRun id j = .ok s1 →
        exec (.joinBlockUpdate id) s = .next { s1.walksFor j.ctx j.die [j.addr] with joins := adel id s1.joins }) ∧
      ∀ n, s.joinRun id j = .error (.code n) → exec (.joinBlockUpdate id) s = .next (s.failJoin id j)) ∧
    (∀ (tag ctx addr die : Nat) (s1 : State), s.fwUp 1 = false → die < Config.nDies → s.hold 8 (.hostSubmit tag ctx addr die) = some s1 →
      exec (.hostSubmit tag ctx addr die) s = .next s1) ∧
    ∀ (tag ctx addr die : Nat), s.fwUp 1 = true → die < Config.nDies →
      let said (s1 : State) (v : Nat) : State := s1.reply .submitStatus (some ctx) tag [BitVec.ofNat 64 v]
      ((addr % 64 ≠ 0 ∨ 2 ^ 56 ≤ addr) → exec (.hostSubmit tag ctx addr die) s = .next (said s 2)) ∧
      ∀ g, addr % 64 = 0 → addr < 2 ^ 56 → s.engTarget ctx .program false (BitVec.ofNat 64 addr) = .ok g →
        s.tgtPoisoned g 64 = false →
        let ws := words64 (getBytes (s.tgtByte g) 0 64)
        let r := s.postRecord ctx none die false ws []
        (r.1 = 0 → s.ringHeld ctx (Task.parse ws).region die = false) →
        exec (.hostSubmit tag ctx addr die) s = .next (said (r.2.sendOn g none) r.1)

namespace Sys2Proof.Claims

/-- The core that a wait or step names holds no move, swap or checkpoint. -/
def Settled (s : State) (core : Nat) : Prop := (s.core core).move = none ∧ (s.core core).swap = none ∧ (s.core core).ckpt = none

/-- Nor is a swap due on it, so its agents may issue. -/
def Free (s : State) (core : Nat) : Prop := Settled s core ∧ (s.core core).swapDue = none

end Sys2Proof.Claims

/-- R302 to R305: in the control thread, DBGRD reads an item of a stopped team's window and DBGWR writes one, each with its status;
TRESUME resumes the team in a slot, or kills its fault domain, or answers why not. -/
def Obligations.DebugWindowResult : Prop :=
  ∀ (s : State) (t : Team), s.agent s.cur = some t → t.ctl = true → t.level ≠ .program →
    let e := s.env s.cur
    (∀ (pair : Bool) (d : Reg) (a : Src), Scalars t [a] → dbgDst pair d = true →
      Falls (.dbgrd pair d a) s (match s.windowAt e.core e.ctx (srcScalar e t a) with
        | some (tid, u, x) => t.writeWindow pair d (s.itemValue tid u x) 0x6
        | none => t.writeWindow pair d 0 0x2)) ∧
    (∀ (d : Reg) (a b : Src), Scalars t [a, b] → isScaDst d = true →
      let done (s1 : State) (st : W64) : State := s1.setAgent e.ag ((t.writeScalar d st).advance (1 + a.words + b.words))
      (s.windowAt e.core e.ctx (srcScalar e t a) = none → exec (.dbgwr d a b) s = .next (done s 1)) ∧
      ∀ tid u x, s.windowAt e.core e.ctx (srcScalar e t a) = some (tid, u, x) →
        (s.windowWrite e.ctx e.core u x (srcScalar e t b) = none → exec (.dbgwr d a b) s = .next (done s 2)) ∧
        ∀ u1, s.windowWrite e.ctx e.core u x (srcScalar e t b) = some u1 →
          exec (.dbgwr d a b) s = .next (done { s with teams := aset tid u1 s.teams } 0)) ∧
    ∀ (kill : Bool) (d : Reg) (a : Src), Scalars t [a] → isScaDst d = true → (srcScalar e t a).toNat < 16 →
      let st := (s.tresume e kill (srcScalar e t a).toNat).1
      exec (.tresume kill d a) s =
        .next ((s.setAgent e.ag ((t.writeScalar d (BitVec.ofNat 64 st)).advance (1 + a.words))).tresume e kill
          (srcScalar e t a).toNat).2

/-- R79, R293 to R296: the next queued trap of a core's active bank starts the handler of the team's region, with its record; a region with
no handler, or a handler that runs for 16 watchdog units, has the fault domain of the trap killed. The units are 1,024 cycles each, whatever the
region's WDOG (log entry 19). -/
def Obligations.HandlersRun : Prop :=
  ∀ (s : State) (core ctx : Nat), (s.core core).active.ctx = some ctx →
    (∀ (tid : Nat) (q : List Nat) (t : Team) (g : Group) (r : TrapRec), (s.core core).active.trapQ = tid :: q →
      alook tid s.teams = some t → alook t.gid s.groups = some g → t.trap = some r → (s.core core).active.st = .active →
      (s.core core).active.handling = none → Free s core →
      (s.handlerOf ctx g.region = none → exec (.handlerStart core) s =
        .next ((s.modCore core fun x => x.modActive fun k => { k with trapQ := q }).killTeamDomain tid)) ∧
      ∀ pc, s.handlerOf ctx g.region = some pc → ∃ s', exec (.handlerStart core) s = .next s' ∧
        (s'.core core).active.handling =
          some { tid := tid, gid := t.gid, frame := g.frame, trec := s.trapRecord t g r, diag := r.diag, since := (s.core core).count
                 resumed := false } ∧
        (s'.core core).active.trapQ = q ∧
        ∃ c, s'.agent (.ctl core ctx) = some c ∧ c.pc = .code pc ∧ c.st = .ready ∧ c.level = .handler ∧ c.active = 1) ∧
    ∀ h, (s.core core).active.handling = some h → (s.core core).swap = none → h.since + 16 * 1024 ≤ (s.core core).count →
      exec (.handlerWatchdogEscalation core) s = .next (s.endHandled core ctx)

/-- R65, R66, R68, R69, R362: the decision on a core's curve point, which its teams learn at once where the core stays and at the end of
the move where it does not, or its abandon when they have not all come within the watchdog; the ramp; the states of its matrix engine; and the
periodic record. The watchdog is the first team's region's (log entry 58), and RAMPDN begins as the last declaration ends (log entry 59). -/
def Obligations.CurvePointAndEngineStates : Prop :=
  ∀ (s : State) (core : Nat),
    let x := s.core core
    (∀ f, firstWaiter (s.curveTeams core) = some f → x.move = none → x.swap = none →
      let inTime := ∀ p ∈ s.activeTeams core, p.2.st = .draining ∨ (p.2.atCurve = true ∧ p.2.since < s.expiry f.1 f.2.since)
      (inTime →
        (s.curveChoice core = x.point → exec (.curveDecision core) s = .next (s.endCurves core x.point)) ∧
        (s.curveChoice core ≠ x.point → exec (.curveDecision core) s = .next (s.modCore core fun y =>
          { y with move := some { dest := s.curveChoice core, notice := f.2.since, ramping := false } }))) ∧
      (¬inTime → s.expired f.1 f.2.since = true → exec (.curveDecisionAbandon core) s = .next (s.endCurves core x.point))) ∧
    (∀ m : Move, x.move = some m →
      (s.fwUp 5 = true → m.ramping = false → s.mqBusy core = false → m.notice + 5 * Config.mhz x.point ≤ x.count →
        exec (.curveRampStart core) s = .next (((s.engineIdle core).modCore core fun y =>
          { y with move := some { m with ramping := true } }).dropHints core x.act)) ∧
      (m.ramping = true → exec (.curveRampEnd core) s = .next ((((s.modCore core fun y =>
        { y with point := m.dest, move := none }).checkBank core x.act).endCurves core m.dest).correlate core 1))) ∧
    (s.fwUp 1 = true → core < Config.nCores → x.active.ctx ≠ none → agetD 0 core s.fw.corrAt + 1000 ≤ s.fw.now →
      exec (.correlationRecordPeriodic core) s =
        .next (({ s with fw := { s.fw with corrAt := aset core s.fw.now s.fw.corrAt } } : State).correlate core 3)) ∧
    (x.mat = .rampup → x.matAt + 64 ≤ x.count → exec (.matrixRampupEnd core) s =
      .next (s.modCore core fun y => { y with mat := if s.mqWaiting core then .active else .hold, matAt := x.matAt + 64 })) ∧
    (x.mat = .hold → x.matAt + 128 ≤ x.count → s.hinted core = false → s.mqWaiting core = false →
      exec (.matrixHoldExpiry core) s = .next (s.modCore core fun y => { y with mat := .rampdn, matAt := x.count })) ∧
    (x.mat = .rampdn → x.matAt + 32 ≤ x.count →
      let up := s.mqWaiting core || s.hinted core
      exec (.matrixRampdnEnd core) s = .next ((s.modCore core fun y => { y with
        mat := if up then .rampup else .idle, matAt := x.matAt + 32 }).coreEvent core 4
          (if up then min 64 (x.count - (x.matAt + 32)) else 0))) ∧
    ∀ (tid : Nat) (t : Team), alook tid s.teams = some t → 0 < t.hint → s.inActive tid = true →
      t.hintAt + 4096 ≤ s.countOf (.team tid) → exec (.mhintExpiry tid) s = .next { s with teams := aset tid { t with hint := 0 } s.teams }

/-- R306 to R308, R364, R385, R386: a swap of a core's banks saves the outgoing groups, their teams and the control thread, leaves their bank
READY and makes the other bank active; 96 cycles later its teams resume; where a kill has left the active bank without groups the swap is due at
the cycle after the kill, and the bank is left EMPTY; a READY bank is spilled to the cellar, which leaves it EMPTY, and an EMPTY one is loaded
from it, or retained after 1 ms. -/
def Obligations.PreemptionResult : Prop :=
  ∀ (s : State) (core : Nat),
    let x := s.core core
    (Settled s core → x.act ≤ 1 → (x.bank (1 - x.act)).st = .ready →
      (∀ c, x.swapDue = some c → s.dueSwap core = (s.passCycle core (c - x.count)).swapBanks core) ∧
      (s.fwUp 1 = true → exec (.preemptionSwap core) s = .next (s.swapBanks core)) ∧
      let y := (s.saveGroups core x.act).core core
      let s' := s.swapBanks core
      (y.act ≤ 1 → (y.bank (1 - y.act)).st = .ready →
        (s'.core core).act = 1 - y.act ∧ (s'.core core).swap = some y.count ∧ (s'.core core).swapDue = none ∧
        (s'.core core).active = { y.bank (1 - y.act) with st := .active } ∧
        (y.swapDue = none → y.active.st = .active → (s'.core core).bank y.act =
          { y.active.shiftHandler y.count with st := .ready, point := y.point, since := y.count }) ∧
        (y.swapDue ≠ none → (s'.core core).bank y.act = { Bank.init .empty with point := y.point, since := y.count })) ∧
      ((∀ gid ∈ s.gidsAt core x.act, ∀ g, alook gid s.groups = some g → s.restarts g = false ∧ g.mark = none) →
        s'.teams = amap (fun _ t => if !t.ctl && (s.gidsAt core x.act).contains t.gid then t.swapOut else t) s.teams ∧
        (∀ ctx c, x.active.ctx = some ctx → x.swapDue = none → alook (ctlKey core ctx) s.ctls = some c →
          alook (ctlKey core ctx) s'.ctls = some c.swapOut) ∧
        ∀ gid g, alook gid s.groups = some g →
          (g.place = .bank core x.act → g.st = .running → alook gid s'.groups = some { g with st := .swapped }) ∧
          (g.place = .bank core (1 - x.act) → g.st = .swapped → alook gid s'.groups = some { g with st := .running }))) ∧
    (∀ c, x.swap = some c → x.move = none → c + 96 ≤ x.count →
      let s1 := (s.setCore core { x.modActive (fun b => b.shiftHandler x.count) with swap := none }).checkBank core x.act
      exec (.swapResume core) s =
        .next (((s1.activeTeams core).map fun e => e.1).foldl (fun (st : State) tid => st.waitAgain tid x.count) s1)) ∧
    (∀ ctx, (x.bank (1 - x.act)).ctx = some ctx → (x.bank (1 - x.act)).st = .ready → x.swap = none →
      s.bankBusy core (1 - x.act) ctx = false → s.fwUp 1 = true → ∃ s', exec (.bankSpill core) s = .next s' ∧
        (s'.core core).bank (1 - x.act) = { Bank.init .empty with point := x.point, since := x.count } ∧
        (∃ img, alook s.nextId s'.images = some img ∧ img.core = core ∧ img.ctx = ctx ∧ img.cellar = true ∧
          img.bank = x.bank (1 - x.act) ∧ img.ctl = alook (ctlKey core ctx) s.ctls) ∧
        ∀ g ∈ s.groups, g.2.place = .bank core (1 - x.act) → (g.1, g.2.toCellar s.nextId) ∈ s'.groups) ∧
    (∀ image s1, s.loadBank core image = some s1 → exec (.bankLoad core image) s = .next s1) ∧
    ∀ b < 2, core < Config.nCores → (x.bank b).st = .empty → (x.bank b).retained = false →
      (x.bank b).since + 1000 * Config.mhz x.point ≤ x.count →
      exec (.bankRetention core b) s = .next (s.setCore core (x.setBank b { x.bank b with retained := true }))

/-- R311 to R316, R361, R363, R367: CKPT holds its core until the image is written, is found too large, or its wait expires; SCHED restores an
image whose header and CRC are good and whose body the part has written (log entry 25), and refuses a bad one, with the model's status words (log
entry 14); the loss of power swaps every core out and writes the images and then the keep ranges to the keep store, under a directory that an
entry of zeros ends; RESET gives the reset state, but for what outlasts it (log entry 26), and boots exactly where the eight firmware images
verify and none is below fuse counter 0, else PF1 reports the stage (log entry 16); the copies of a REDUNDANT group commit when they have reached
the same point with equal signatures, and stop with REDUNDANCY otherwise. -/
def Obligations.ImagesCommitsAndReset : Prop :=
  ∀ s : State,
    (∀ (t : Team) (d : Reg) (a b : Src), s.agent s.cur = some t → t.ctl = true → t.level ≠ .program → Scalars t [a, b] →
      isScaDst d = true →
      let e := s.env s.cur
      Reached (s.bufLines e t (srcScalar e t a) 1) →
      exec (.ckpt d a b) s = .next ((s.setAgent e.ag { t with st := .waiting, wait := .ckpt (1 + a.words + b.words) }).modCore e.core
        fun x => { x with ckpt := some {
          ctx := e.ctx, d := d, addr := srcScalar e t a, size := (srcScalar e t b).toNat, since := (s.core e.core).count } })) ∧
    (∀ (core : Nat) (k : CkptSt) (t : Team), (s.core core).ckpt = some k → s.agent (.ctl core k.ctx) = some t →
      (s.groupsBusy (s.ckptGroups core k.ctx) = false →
        let size := s.imageSize (s.ckptGroups core k.ctx)
        (k.size < size → exec (.ckptImageWrite core) s = .next (s.endCkpt core k 1 size)) ∧
        (size ≤ k.size → s.linesHeld k.ctx (s.bufLines (s.env (.ctl core k.ctx)) t k.addr ((size + 63) / 64)) = false →
          exec (.ckptImageWrite core) s = .next (s.writeImage core k t size (s.ckptGroups core k.ctx)))) ∧
      (k.since + s.wdogOf (.ctl core k.ctx) ≤ (s.core core).count → exec (.ckptTimeout core) s = .next (s.endCkpt core k 2 0))) ∧
    (∀ (core : Nat) (p : Tagged ImagePlace),
      let refused : State := s.reply .restoreStatus none p.tag [1]
      (∀ s1, s.fwUp 1 = false → s.hold 8 (.imageRestore core p) = some s1 → exec (.imageRestore core p) s = .next s1) ∧
      (s.fwUp 1 = true → s.imageCheck p.val = none → exec (.imageRestore core p) s = .next refused) ∧
      ∀ bs, s.fwUp 1 = true → s.imageCheck p.val = some bs →
        let k := ((words64 (bs.take 64)).getD 2 0).toNat / 2 ^ 48
        (alook k s.ctxs = none → exec (.imageRestore core p) s = .next refused) ∧
        (s.restoreImage core k bs = none → exec (.imageRestore core p) s = .next refused) ∧
        ∀ s1, alook k s.ctxs ≠ none → s.restoreImage core k bs = some s1 →
          exec (.imageRestore core p) s = .next (s1.reply .restoreStatus (some k) p.tag [0])) ∧
    (s.quiet = true →
      let s0 : State := { s with images := s.images.filter fun e => e.2.cellar || e.2.loc.isSome }
      let s1 := (List.range Config.nCores).foldl State.swapCoreOut s0
      let r := ((List.range Config.nCores).flatMap s1.coreImages).foldl State.keepImage (s1, [])
      let ds := r.2 ++ s1.keepData 0 s1.allKeeps
      let s' : State := { r.1 with fw := { r.1.fw.writeKeep ds with powered := false } }
      let ks := layKeeps (32 * (ds.length + 1)) ds
      exec .powerLoss s = .next s' ∧ s'.fw.powered = false ∧ s'.fw.keep = ks.map (fun e => e.1) ∧
        (∀ j e, ks[j]? = some e →
          getBytes (sget s'.fw.store) (32 * j) 32 = wordBytes e.1.words ∧ getBytes (sget s'.fw.store) e.1.off e.2.length = e.2) ∧
        getBytes (sget s'.fw.store) (32 * ds.length) 32 = List.replicate 32 0) ∧
    (∀ (sec : FwImage) (others : List FwImage), ∃ stage : Option Nat,
      exec (.reset sec others) s = .next { State.reset with
        agenda := s.agenda, nextId := s.nextId, freeN := s.freeN, part := s.part, hostMem := s.hostMem, peerMem := s.peerMem
        images := s.images.filter fun e => s.fw.keep.any fun k => k.image == some e.1
        fw := { Firmware.init with
          halted := stage
          mbox := match stage with
            | some k => [(pf1, [{ op := .bootReport, snd := 4, rcv := 0, tag := 0, body := [BitVec.ofNat 64 k] }])]
            | none => []
          secKeys := Config.imageKeys sec.bytes
          keys := s.fw.keys, svn := s.fw.svn, keep := s.fw.keep, store := s.fw.store, gen := s.fw.gen } } ∧
      (stage = none ↔ romOk sec s.part.keyHash = true ∧ others.length = 7 ∧
        (∀ i ∈ others, secOk i (Config.imageKeys sec.bytes) = true) ∧ ∀ i ∈ sec :: others, (sget s.fw.svn 0).toNat ≤ i.svn)) ∧
    ∀ (tid : Nat) (p : Pair), s.pairAt tid = some p →
      (∀ i, p.t0.commitWait = some i → s.samePoint p i = true → s.commitReady p.tid0 p.t0 i = true → s.commitReady p.tid1 p.t1 i = true →
        (signature p.t0.held = signature p.t1.held →
          exec (.redundantCommitCompare tid) s = .next (((s.reached p i).releaseHeld p).commitBoth p i)) ∧
        (signature p.t0.held ≠ signature p.t1.held →
          exec (.redundantCommitCompare tid) s = .next (s.redundancyStop p p.tid0 none) ∧
          ∀ k, k = p.tid0 ∨ k = p.tid1 → ∃ (u : Team) (r : TrapRec), alook k (s.redundancyStop p p.tid0 none).teams = some u ∧
            u.st = .stopped ∧ u.trap = some r ∧ r.cause = .redundancy ∧ u.held = [])) ∧
      ∀ t i, Waits s tid t (.commit i none) → s.expired tid t.since = true →
        exec (.redundantWaitTimeout tid) s = .next (s.redundancyStop p tid (some (s.expiry tid t.since)))

/-- R114, R118, R160 to R162, R260, R261, R279, R284, R286: a pop of the dispatcher carves the chosen record's instance; a completed decant is put
into the cache, within its bytes, or its groups run the original code; a carved group is released when its reservations stand and its residuals
are ready; and the balancer moves entries and groups. The slot of an entry in its ring is the model's (log entry 61). -/
def Obligations.DispatchAndBalanceResult : Prop :=
  ∀ s : State,
    (∀ (core : Nat) (c : HeadRec × DieSt) (b : Option (List (Nat × Byte))) (s1 : State), s.fw.frozen = false → core < Config.nCores →
      (s.die (dieOf core)).choose ((s.heads (dieOf core)).filter fun h => s.headOk core h) = some c → s.headBytes (dieOf core) c.1 = .ok b →
      s.popHead core c.1 b = some s1 →
      let s2 := (s1.readHead s (dieOf core) c.1).takeHead (dieOf core) c.1 (s.popCount c.1)
      let s3 : State := { s2 with
        dies := aset (dieOf core) { (s2.die (dieOf core) : DieSt) with prioN := c.2.prioN, lastR := c.2.lastR } s2.dies }
      exec (.dispatchPop core) s = .next (if (s.liveObj c.1).isNone && !aany (fun _ g => g.launch == c.1.entry.launch) s3.groups then
        (s3.endLaunch c.1.entry.launch (dieOf core)).closeContext c.1.ctx else s3)) ∧
    (∀ (die k : Nat) (e : DecEntry), alook k s.decants = some e → e.die = die → e.st = .decanting → s.engWaits k = false →
      (∀ s1, s.codeUncorrectable e = some s1 → exec (.decantComplete die k true) s = .next (s1.dropResidual k)) ∧
      (s.buildEntry e = .ok none → exec (.decantComplete die k false) s = .next (s.dropResidual k)) ∧
      ∀ o, s.buildEntry e = .ok (some o) →
        let x := e.built o
        let read := (s.walksFor e.ctx die (s.entryPages e)).readCode e
        (read.roomFor die x.2 = none → exec (.decantComplete die k false) s = .next (s.dropResidual k)) ∧
        ∀ s1, read.roomFor die x.2 = some s1 →
          let s2 : State := { s1 with decants := aset k x.1 s1.decants }
          s1.cacheUsed die + x.2 ≤ Config.decantBytes ∧
          exec (.decantComplete die k false) s = .next (if x.1.placed = true ∧ e.key.place = 255 then s2.placeGroups k else s2)) ∧
    (∀ (gid : Nat) (g : Group) (l : Launch), alook gid s.groups = some g → alook g.launch s.launches = some l → g.st = .carving →
      g.place = .bank g.place.core (s.core g.place.core).act → Free s g.place.core → s.residualsReady g = true →
      exec (.groupRelease gid) s = .next { s with
        groups := aset gid { g with st := .running } s.groups
        teams := amap (fun _ t => if t.gid = gid ∧ t.st = .carved then
          t.enter (s.core g.place.core).point (s.classT g.place.core) (g.entryOf (Task.parse l.task) t.tix) else t) s.teams }) ∧
    (∀ (ctx region die idx toDie : Nat) (q : RunQueue) (e : QEntry),
      (s.queues.find? fun q => q.ctx == ctx && q.region == region && q.die == die) = some q → q.entries[idx]? = some e → die ≠ toDie →
      toDie < Config.nDies → s.region ctx region ≠ none → s.fw.frozen = false → e.reserve = false → s.queueFits ctx region toDie = true → s.ringHeld ctx region toDie = false →
      let s1 : State := { s with queues := s.queues.map fun (r : RunQueue) =>
        if r.ctx == ctx && r.region == region && r.die == die then { r with entries := takeAt r.entries idx } else r }
      exec (.balancerQueueMove ctx region die idx toDie) s = .next ((s1.pushEntry ctx region toDie e false).dieEvent die 19 1)) ∧
    ∀ (gid : Nat) (g : Group), alook gid s.groups = some g →
      (∀ toCore, g.st = .running → g.resident = true → g.mark = none → s.movable g toCore = true →
        exec (.balancerMoveMark gid toCore) s =
          .next { s with groups := aset gid { g with mark := some (toCore, (s.core g.place.core).count) } s.groups }) ∧
      ∀ m, g.mark = some m →
        let late := m.2 + 100 * Config.mhz (s.core g.place.core).point ≤ (s.core g.place.core).count
        (∀ s1, g.resident = true → Settled s g.place.core → ¬late → s.moveReady gid = true → s.movable g m.1 = true →
          s.canSeat gid g m.1 = true → s.moveGroup gid g m.1 = some s1 → exec (.balancerMoveSwap gid) s = .next s1) ∧
        (late → exec (.balancerMoveTimeout gid) s = .next (s.dropMark gid))

namespace Sys2Proof.Claims

/-- R275, R276, R277, R289, R290, R317, R343, R367, R368: the requests that PARSE, SCHED and SEC answer; their status codes past those of R275
and R276, and the vector of a context, are the model's (log entry 14). -/
def RequestsAnswered : Prop :=
  ∀ (s : State) (tag ctx : Nat),
    (s.fwUp 0 = true →
      (∀ (addr : Nat) (down signed : Bool), s.fwUp 4 = true →
        ((addr % 64 ≠ 0 ∨ 2 ^ 56 ≤ addr ∨ s.isLive ctx = false) →
          exec (.objectLoad tag ctx addr down signed) s = .next (s.reply .loadStatus (some ctx) tag [1])) ∧
        ∀ bs, addr % 64 = 0 → addr < 2 ^ 56 → s.isLive ctx = true → s.wholeImage ctx addr = .ok bs →
          exec (.objectLoad tag ctx addr down signed) s = .next (s.judge tag ctx addr bs down signed)) ∧
      ∀ code : Nat,
        let said (s1 : State) (v : W64) : State := s1.reply .unloadStatus (some ctx) tag [v]
        (s.objAt ctx (BitVec.ofNat 64 code) = none → exec (.objectUnload tag ctx code) s = .next (said s 6)) ∧
        ∀ k o, s.objAt ctx (BitVec.ofNat 64 code) = some (k, o) →
          (s.objBusy o = true → exec (.objectUnload tag ctx code) s = .next (said s 5)) ∧
          (s.objBusy o = false → exec (.objectUnload tag ctx code) s =
            .next (said ((({ s with objs := adel k s.objs } : State).invalidate fun e => e.key.obj == o.digest).closeContext ctx) 0))) ∧
    (s.fwUp 1 = true →
      (∀ (pasid root rootRegion : Nat) (regions : List (Nat × Nat)),
        (ctx < 65536 → alook ctx s.ctxs = none → pasid < 2 ^ 20 → root % 2 ^ 20 = 0 → alook rootRegion regions ≠ none →
          (∀ c ∈ s.ctxs, c.2.pasid ≠ pasid) → ∃ c : CtxRec, 4 ≤ c.vector ∧ c.vector ≤ 2047 ∧ c.pasid = pasid ∧ c.root = root ∧
            c.closing = false ∧ c.rootRegion = rootRegion ∧ c.brk = [] ∧
            c.regions = regions.foldl (fun (m : List (Nat × Nat)) (e : Nat × Nat) => aset e.1 e.2 m) [] ∧
            exec (.contextCreate tag ctx pasid root regions rootRegion) s = .next
              (({ s with ctxs := aset ctx c s.ctxs } : State).reply .created (some ctx) tag [0, BitVec.ofNat 64 ctx])) ∧
        (root % 2 ^ 20 ≠ 0 → exec (.contextCreate tag ctx pasid root regions rootRegion) s = .next (s.reply .created none tag [1]))) ∧
      (∀ c, alook ctx s.ctxs = some c → exec (.contextDestroy tag ctx) s =
        .next (({ s with ctxs := aset ctx { c with closing := true } s.ctxs }.closeContext ctx).reply .destroyed (some ctx) tag [0])) ∧
      (alook ctx s.ctxs = none → exec (.contextDestroy tag ctx) s = .next (s.reply .destroyed none tag [1]))) ∧
    (s.fwUp 4 = true →
      (∀ counter value : Nat,
        exec (.svnRaise counter value ⟨tag, false⟩) s = .next (s.secReply .svnStatus tag 1) ∧
        (counter < 64 → value ≤ 1023 → (sget s.fw.svn counter).toNat < value →
          exec (.svnRaise counter value ⟨tag, true⟩) s = .next ((s.raiseSvn counter value).secReply .svnStatus tag 0))) ∧
      (exec (.decodeTableUpdate ⟨tag, false⟩) s = .next (s.secReply .dtStatus tag 1) ∧
        let g := (s.fw.dtgen + 1) % 2 ^ 32
        exec (.decodeTableUpdate ⟨tag, true⟩) s =
          .next ((({ s with fw := { s.fw with dtgen := g } } : State).invalidate fun e => e.key.dtgen != g).secReply .dtStatus tag 0)) ∧
      ∀ id key : Nat,
        exec (.keyInstall id key ⟨tag, false⟩) s = .next (s.secReply .keyStatus tag 1) ∧
        exec (.keyRemove id ⟨tag, false⟩) s = .next (s.secReply .keyStatus tag 1) ∧
        ((alook id s.fw.keys ≠ none ∨ s.fw.keys.length < 16) → exec (.keyInstall id key ⟨tag, true⟩) s =
          .next ({ s with fw := { s.fw with keys := aset id key s.fw.keys } }.secReply .keyStatus tag 0)) ∧
        (alook id s.fw.keys ≠ none → exec (.keyRemove id ⟨tag, true⟩) s =
          .next ({ s with fw := { s.fw with keys := adel id s.fw.keys } }.secReply .keyStatus tag 0)))

/-- The requests to a firmware core, with the core that answers and its mailbox (R360; SPDM comes to SEC's mailbox 15, log entry 28). -/
inductive FwRequest : Instr → Nat → Nat → Prop where
  | load (tag ctx addr : Nat) (down signed : Bool) : FwRequest (.objectLoad tag ctx addr down signed) 0 9
  | unload (tag ctx code : Nat) : FwRequest (.objectUnload tag ctx code) 0 9
  | create (tag ctx pasid root rootRegion : Nat) (regions : List (Nat × Nat)) :
      FwRequest (.contextCreate tag ctx pasid root regions rootRegion) 1 8
  | destroy (tag ctx : Nat) : FwRequest (.contextDestroy tag ctx) 1 8
  | restore (core : Nat) (place : Tagged ImagePlace) : FwRequest (.imageRestore core place) 1 8
  | submit (tag ctx addr die : Nat) (h : die < Config.nDies) : FwRequest (.hostSubmit tag ctx addr die) 1 8
  | retire (channel : Tagged Nat) : FwRequest (.channelRetirementRequest channel) 2 10
  | svn (counter value : Nat) (ok : Tagged Bool) : FwRequest (.svnRaise counter value ok) 4 11
  | tables (ok : Tagged Bool) : FwRequest (.decodeTableUpdate ok) 4 11
  | install (id key : Nat) (ok : Tagged Bool) : FwRequest (.keyInstall id key ok) 4 11
  | remove (id : Nat) (ok : Tagged Bool) : FwRequest (.keyRemove id ok) 4 11
  | version (tag : Nat) : FwRequest (.getVersion tag) 4 15
  | capabilities (tag : Nat) : FwRequest (.getCapabilities tag) 4 15
  | algorithms (tag : Nat) : FwRequest (.negotiateAlgorithms tag) 4 15
  | digests (tag : Nat) : FwRequest (.getDigests tag) 4 15
  | certificate (tag : Nat) : FwRequest (.getCertificate tag) 4 15
  | challenge (tag nonce : Nat) : FwRequest (.challenge tag nonce) 4 15
  | measurements (tag block : Nat) : FwRequest (.getMeasurements tag block) 4 15

/-- A request held in a mailbox, in order, while fewer than 8 are there. -/
def Held (s : State) (i : Instr) (mb : Nat) : Prop :=
  let q := agetD [] mb s.fw.inbox
  q.length < Config.mailboxLimit → exec i s = .next { s with fw := { s.fw with inbox := aset mb (q ++ [i]) s.fw.inbox } }

/-- R359 to R361: a request to a firmware core that has hung is held in the core's mailbox; a load that PARSE has taken waits for SEC, which
verifies it, in mailbox 4. -/
def RequestsHeld : Prop :=
  ∀ s : State, (∀ (i : Instr) (fw mb : Nat), FwRequest i fw mb → s.fwUp fw = false → Held s i mb) ∧
    ∀ (tag ctx addr : Nat) (down signed : Bool), s.fwUp 0 = true → s.fwUp 4 = false → Held s (.objectLoad tag ctx addr down signed) 4

end Sys2Proof.Claims

/-- R329, R330, R331: DEADRG kills, revives and counts dead units, with a request to the home of each memory port in its range; a FAILED port
there makes it UNCORRECTABLE (R340; log entry 71). A channel retirement is accepted with its donor range dead, copied, drained and switched; its
status words are the model's (log entry 14). -/
def Obligations.DeadRangesAndRetirement : Prop :=
  ∀ s : State,
    (∀ (k : DeadK) (d : Reg) (a b : Src) (t : Team), s.agent s.cur = some t → levelRank t.level = 2 → Scalars t [a, b] →
      isScaDst d = true →
      let e := s.env s.cur
      let pa := (srcScalar e t a).toNat
      let n := (srcScalar e t b).toNat
      pa % 4096 = 0 → n % 4096 = 0 → n ≠ 0 → s.inOneTier pa n = true →
      let gs := s.deadTargets (pa / 4096) ((pa + n) / 4096)
      let done (s1 : State) (x : Nat) : State :=
        (s1.sendReqs gs).setAgent e.ag ((t.writeScalar d (BitVec.ofNat 64 x)).advance (1 + a.words + b.words))
      ((∀ g ∈ gs, s.carrier g ≠ .failed) →
        (k = .dead → exec (.deadrg k d a b) s = .next (done (s.killUnits (pa / 4096) ((pa + n) / 4096)) 0)) ∧
        (k = .live → exec (.deadrg k d a b) s = .next (done (s.reviveUnits (pa / 4096) ((pa + n) / 4096)) 0)) ∧
        (k = .count → exec (.deadrg k d a b) s = .next (done s (deadCount s.dead (pa / 4096) ((pa + n) / 4096))))) ∧
      ∀ g, gs.find? (fun g => s.carrier g == .failed) = some g →
        exec (.deadrg k d a b) s = .next (takeTrap s { cause := .uncorrectable, addr := BitVec.ofNat 64 g.key.2 })) ∧
    (∀ tag c : Nat, s.fwUp 2 = true →
      (s.retire = .none → c < 256 → (∀ e ∈ s.retired, e.1 ≠ c) → s.donorDead = true → exec (.channelRetirementRequest ⟨tag, c⟩) s =
        .next (({ s with retire := .copying c } : State).reply .retireStatus none tag [0])) ∧
      (s.donorDead = false → exec (.channelRetirementRequest ⟨tag, c⟩) s = .next (s.reply .retireStatus none tag [1]))) ∧
    (∀ c, s.retire = .copying c → s.fwUp 2 = true → exec .channelCopyDone s = .next { s with retire := .draining c }) ∧
    ∀ c, s.retire = .draining c → s.fwUp 2 = true → exec .channelSwitch s =
      .next { s with retire := .none, retired := (c, s.t1size) :: s.retired, t1size := s.t1size - 4 }

namespace Sys2Proof.Claims

/-- R361, R367, R369: a firmware core's heartbeat that has lapsed for 10 ms stops dispatch; the recovery mailbox reads, writes, places, thaws,
and resets a core whose image verifies; and SEC answers the SPDM requests, as mailbox messages of the model's form (log entries 14, 16, 28). -/
def FirmwareAnswers : Prop :=
  ∀ s : State,
    (∀ fw < 8,
      (s.fwUp fw = true → agetD 0 fw s.fw.beats + 10000 ≤ s.fw.now → exec (.firmwareHeartbeatLapse fw) s =
        .next (({ s with fw := { s.fw with hung := fw :: s.fw.hung, frozen := true } } : State).msix 0)) ∧
      ∀ tag : Nat, (fw = 4 ∨ s.fwUp 4 = true) →
        ∀ i : FwImage,
          let good := (if fw = 4 then romOk i s.part.keyHash else secOk i s.fw.secKeys) = true ∧ (sget s.fw.svn 0).toNat ≤ i.svn
          (good → exec (.recoveryReset ⟨tag, { fw := fw, image := i }⟩) s =
            .next (((s.takeImage { fw := fw, image := i }).restartCore fw).pf1Reply .recoveryStatus tag [0])) ∧
          (¬good → exec (.recoveryReset ⟨tag, { fw := fw, image := i }⟩) s = .next (s.pf1Reply .recoveryStatus tag [1]))) ∧
    exec .recoveryThaw s = .next { s with fw := { s.fw with frozen := false } } ∧
    (∀ tag addr, (s.recoveryTarget addr = none → exec (.recoveryRead ⟨tag, addr⟩) s = .next (s.pf1Reply .readData tag [1]) ∧
        ∀ x, exec (.recoveryWrite ⟨tag, addr⟩ x) s = .next (s.pf1Reply .recoveryStatus tag [1])) ∧
      ∀ g, s.recoveryTarget addr = some g →
        exec (.recoveryRead ⟨tag, addr⟩) s = .next (s.pf1Reply .readData tag [0, BitVec.ofNat 64 (s.tgtValue g 8)]) ∧
        ∀ x, exec (.recoveryWrite ⟨tag, addr⟩ x) s =
          .next ((s.writeAs s.nextId .none false false [] g (leBytes x.toNat 8)).pf1Reply .recoveryStatus tag [0])) ∧
    (∀ tag ctx addr die : Nat, die < Config.nDies →
      ((addr % 64 ≠ 0 ∨ 2 ^ 56 ≤ addr) → exec (.recoveryPlace ⟨tag, ctx⟩ addr die) s = .next (s.pf1Reply .placeStatus tag [2])) ∧
      ∀ g, addr % 64 = 0 → addr < 2 ^ 56 → s.engTarget ctx .program false (BitVec.ofNat 64 addr) = .ok g →
        s.tgtPoisoned g 64 = false →
        let ws := words64 (getBytes (s.tgtByte g) 0 64)
        let r := s.postRecord ctx none die false ws []
        (r.1 = 0 → s.ringHeld ctx (Task.parse ws).region die = false) →
        exec (.recoveryPlace ⟨tag, ctx⟩ addr die) s = .next ((r.2.sendOn g none).pf1Reply .placeStatus tag [BitVec.ofNat 64 r.1])) ∧
    (s.fwUp 4 = true → ∀ tag : Nat,
      exec (.getVersion tag) s = .next (s.pf1Reply .version tag [0x13]) ∧
      exec (.getCapabilities tag) s = .next (s.pf1Reply .capabilities tag (Config.spdmBody 1)) ∧
      exec (.negotiateAlgorithms tag) s = .next (s.pf1Reply .algorithms tag ([0x80, 0x02] ++ Config.spdmBody 2)) ∧
      exec (.getDigests tag) s = .next (s.pf1Reply .digests tag (Config.spdmBody 3)) ∧
      exec (.getCertificate tag) s = .next (s.pf1Reply .certificate tag (Config.spdmBody 4)) ∧
      (∀ n : Nat, ∃ r, exec (.challenge tag n) s = .next (s.pf1Reply .challenge tag (BitVec.ofNat 64 n :: r))) ∧
      (∀ b : Nat, 1 ≤ b → b ≤ 11 → ∃ r, exec (.getMeasurements tag b) s =
        .next (s.pf1Reply .measurements tag (BitVec.ofNat 64 b :: s.measured b ++ r))) ∧
      ∀ b : Nat, b = 0 ∨ 11 < b → exec (.getMeasurements tag b) s = .next (s.pf1Reply .measurements tag []))

end Sys2Proof.Claims

/-- R275 to R277, R289, R290, R359 to R361, R367 to R369: the firmware's answers, with the model's status codes (log entries 14, 16, 28), and
the requests that wait for a core that has hung. -/
def Obligations.FirmwareAnswersRequests : Prop := RequestsAnswered ∧ RequestsHeld ∧ FirmwareAnswers

/-- R334, R336, R337, R341, R342, R343, R360: the steps of a port the part has, the registers that the host writes, the MSI-X vectors, the answer
of DOE discovery, kept as a message to PF1 (log entry 28), and what the host reads of its mailboxes. The body of a port's failure report is the
model's (log entry 14). -/
def Obligations.LinksAndHostRegisters : Prop :=
  ∀ s : State,
    (∀ p : PortId, Sys2Proof.Machine.PortId.exists? p = true →
      let x := s.port p
      exec (.portEnable p) s = .next (s.writeReg (Sys2Proof.Machine.PortId.statusAddr p) 8) ∧
      exec (.portDisable p) s = .next (s.writeReg (Sys2Proof.Machine.PortId.statusAddr p) 0) ∧
      (x.st = .active → exec (.portLockLoss p) s = .next (s.setPort p x.retrain) ∧
        ∀ f : Flit, exec (.flitReceive p f) s =
          .next (s.setPort p (({ x with nakOwed := false, ackOwed := false } : Port).receive f))) ∧
      ∀ peer : Nat, x.st = .training → s.fwUp 6 = true →
        exec (.trainingAttemptEnd p true peer) s = .next (s.setPort p (x.trained (Sys2Proof.Machine.PortId.peerOf p peer))) ∧
        (x.fails < 2 → exec (.trainingAttemptEnd p false peer) s = .next (s.setPort p { x with fails := x.fails + 1 })) ∧
        (2 ≤ x.fails → exec (.trainingAttemptEnd p false peer) s = .next ((s.setPort p { x with st := .failed, fails := 3 }).report
          .errReport 1 [BitVec.ofNat 64 (Sys2Proof.Machine.PortId.statusAddr p)]))) ∧
    (∀ (w : Nat) (w0 w1 : BitVec 64), w < 3808 → exec (.peerWindowWrite w w0 w1) s =
      .next ((s.writeReg (0xF000000100000 + 16 * w) w0).writeReg (0xF000000100000 + 16 * w + 8) w1)) ∧
    (∀ x : BitVec 64, exec (.linkcfgWrite x) s = .next (s.writeReg 0xF000000008000 x)) ∧
    (∀ (addr : Nat) (x : BitVec 64), 0xF000000000000 ≤ addr → addr < 0x10000000000000 → addr % 8 = 0 → devReg addr = .plain →
      exec (.deviceRegisterWrite addr x) s = .next (s.writeReg addr x)) ∧
    (∀ v < 2048, v ∉ s.fw.msixOpen →
      let s1 : State := { s with fw := { s.fw with msixOpen := v :: s.fw.msixOpen, msixPend := s.fw.msixPend.filter fun w => w != v } }
      exec (.msixUnmask v) s = .next (if s.fw.msixPend.contains v then s1.msix v else s1)) ∧
    (∀ i : Nat, exec (.doeDiscovery i) s = .next (s.send pf1 { op := .discovery, snd := 4, rcv := 0, tag := 0, body := doeObject i })) ∧
    ∀ (mb : Nat) (m : Msg) (r : List Msg), (mb = 12 ∨ mb = 13 ∨ mb = pf1) → agetD [] mb s.fw.mbox = m :: r →
      exec (.mailboxRead mb) s = .next { s with fw := { s.fw with
        mbox := aset mb r s.fw.mbox, got := if mb = pf1 then m.word0 :: m.body else m.words } }

/-- R17 to R20, R24, R300: for every well-formed instruction that has an encoding, decoding its words, whatever words follow them, gives
it back with every operand. -/
def Obligations.DecodeEncodeAgree : Prop :=
  ∀ (i : Instr) (rest : List W32), i.encoded = true → i.wf = true → decode (encode i ++ rest) = .ok i

/-- R17 to R20, R25, R33: what the decoder accepts is well-formed, takes the words that its first word calls for, and encodes to those
words: no two words stand for one instruction and no field is read loosely. -/
def Obligations.EncodeDecodeAgree : Prop :=
  ∀ (i : Instr) (ws : List W32), decode ws = .ok i →
    i.encoded = true ∧ i.wf = true ∧ encode i = ws.take i.words ∧ ∀ w r, ws = w :: r → i.words = wordSpan w

/-- Words that the spec's worked listings give, with the instructions they stand for, and three words that it calls ILLEGAL. -/
def Obligations.DecodedWords : Prop :=
  let v (n : Fin 96) : Reg := .v n
  let s (n : Fin 24) : Reg := .s n
  let r (x : Reg) : Src := .reg x
  decode [0x0081437E, 0x00012345] = .ok (.add { cc := true, ty := .i } (v 5) (r (v 6)) (.lit 0x00012345)) ∧
  decode [0x498B0803] = .ok (.shli (s 2) (r (s 1)) 3) ∧
  decode [0x1A40C101] = .ok (.sel .lt (v 3) (r (v 2)) (r (v 1))) ∧
  decode [0x07013F01, 0x0000000C] = .ok (.div { cc := false, ty := .i } (v 4) (.lit 12) (r (v 1))) ∧
  decode [0x2B007C90] = .ok (.cvt .rne 2 (v 1) (r .lid)) ∧
  decode [0x3000C178] = .ok (.quant .f32 (v 3) (r (v 2)) (r .z)) ∧
  decode [0x5C00000B] = .ok (.joinat 11) ∧ decode [0x54000008] = .ok (.brc .eq 8) ∧ decode [0x6C000000] = .ok .exit ∧
  decode [0x9138FF01, 0x00400004] = .ok (.setshape .tile (s 3) (.lit 0x00400004) .fit 1) ∧
  decode [0x8D20F201] = .ok (.trd false .take (v 3) (r (s 4)) (r (v 1))) ∧
  decode [0x9459B265, 0x00004004] = .ok (.mma false 2 102 (r (s 4)) (r (s 5)) .ovw 0 4) ∧
  decode [0x98397180] = .ok (.barv true (s 5) (r (s 3))) ∧ decode [0x9D18F100] = .ok (.enq (s 3) (r (s 2))) ∧
  decode [0x8940000C] = .ok (.fence .rel 12) ∧ decode [0x8A200011] = .ok (.qfence true 17) ∧
  decode [0xA4180100] = .ok (.rdsr (s 0) (.imm 0x100)) ∧ decode [0xA819F080] = .ok (.tresume false (s 7) (r (s 1))) ∧
  decode [0xA90030E2] = .ok (.evsel false (r (s 1)) (r (s 2))) ∧ decode [0x65840170] = .ok (.curve (s 1) 5 0x30) ∧
  decode [0xC007FC90] = .ok (.clauseStart { wait := 1, setA := 15, setB := 15, len := 2, bt := 1, hint := 0, rsv := 0 }) ∧
  decode [0x1F000000] = .error .illegal ∧ decode [0x78000000] = .error .illegal ∧ decode [0xB0000000] = .error .illegal

/-- Every step, of an instruction, an engine, the firmware, a link or the host, keeps the canonical form of memory (the model's own
form, log entry 4). -/
def Obligations.MemoryStaysCanonical : Prop := Kept MemInv

/-- R60, R62, R68, R71, R306, R334, R341: what the spec states of reset: every core at CP1 with COUNT 0, its matrix engine IDLE and its
banks EMPTY (R306), every port DOWN with no replays, every window descriptor zero, and nothing resident or queued. That LINKCFG is zero (log entry
5), that every byte of memory reads zero (log entry 4) and that no translation is cached (log entry 12) is the model's choice. -/
def Obligations.ResetState : Prop :=
  MemInv State.reset ∧
  (∀ c, (State.reset.core c).point = 1 ∧ (State.reset.core c).count = 0 ∧ (State.reset.core c).mat = .idle ∧
    ((State.reset.core c).bank 0).st = .empty ∧ ((State.reset.core c).bank 1).st = .empty) ∧
  (∀ p : PortId, (State.reset.port p).st = .down ∧ (State.reset.port p).replays = 0 ∧ (State.reset.port p).en = false) ∧
  (∀ w, State.reset.window w = (0, 0)) ∧ State.reset.linkcfg = 0 ∧
  (∀ pa, State.reset.byte pa = 0) ∧ State.reset.teams = [] ∧ State.reset.groups = [] ∧ State.reset.queues = [] ∧
  State.reset.tiles = [] ∧ State.reset.tlb = [] ∧ State.reset.objs = []

namespace Sys2Proof.Claims

/-- R293, R124, R384: taking a trap stops the team at the trap's PC, the team's own where the trap names none, with the named lanes (or, where the
trap names none, its live lanes: log entry 8) in the fault mask and a TRAP token of that PC and its active mask in the trap slot; the trap record
holds the cause, the PC, the address and COUNT (a watchdog's at its expiry); the team's registers, codes, flags, stack and shapes stay, and no
memory changes. The trap goes to the end of its bank's queue, but before the traps raised in the same cycle by teams of higher slots, or, where it
is a repairable PAGE or FETCH, to the MEM firmware. -/
def TeamTraps : Prop :=
  ∀ (s : State) (tid : Nat) (t : Team) (x : Trap), s.cur = .team tid → alook tid s.teams = some t →
    let s' := takeTrap s x
    (∃ (u : Team) (r : TrapRec), alook tid s'.teams = some u ∧ u.trap = some r ∧
      u = { t with
        st := .stopped, pc := x.pc.getD t.pc, wait := .none, fault := x.mask.getD t.live
        trapTok := { kind := .trap, pc := x.pc.getD t.pc, mask := t.active }
        fromDrain := t.st == .draining, errs := if x.err then [] else t.errs, trap := some r } ∧
      r.cause = x.cause ∧ r.pc = x.pc.getD t.pc ∧ r.addr = x.addr ∧
      r.count = x.count.getD (s.core (s.agentCore s.cur)).count ∧ r.oppc = x.oppc) ∧
    s'.mem = s.mem ∧ s'.hostMem = s.hostMem ∧ s'.peerMem = s.peerMem ∧ s'.devRegs = s.devRegs ∧ s'.tiles = s.tiles ∧
    s'.groups = s.groups ∧ s'.pend = s.pend ∧
    (x.repair = false → ∀ g c b, alook t.gid s.groups = some g → g.place = .bank c b →
      (∃ q1 q2, ((s.core c).bank b).trapQ = q1 ++ q2 ∧ ((s'.core c).bank b).trapQ = q1 ++ tid :: q2 ∧
        ∀ k ∈ q2, ∃ v y, alook k s.teams = some v ∧ v.trap = some y ∧ t.slot < v.slot ∧
          y.count = x.count.getD (s.core (s.agentCore s.cur)).count) ∧ s'.faults = s.faults) ∧
    (x.repair = true → (∃ f, alook s.nextId s'.faults = some f ∧ f.ag = .team tid ∧ f.va = x.addr) ∧
      ∀ c b, ((s'.core c).bank b).trapQ = ((s.core c).bank b).trapQ)

/-- R296, R291: a trap condition in the control thread takes no trap of its own: the fault domain of the team that it handles is killed, which
leaves no group of the domain, and the handler run ends. A repairable PAGE or FETCH stops the thread and goes to the MEM firmware first. -/
def ControlThreadTraps : Prop :=
  ∀ (s : State) (c ctx : Nat) (x : Trap), s.cur = .ctl c ctx →
    let s' := takeTrap s x
    (∀ h, x.repair = false → s.handlingOf c ctx = some h →
      let s1 := s.stopCtl c ctx x
      let dom := s1.domain ctx (bits (h.trec.getD 0 0).toNat 63 48)
      s' = (s1.killDomain ctx dom).endRun c ctx ∧
      (s.fwUp 3 = true → ∀ g ∈ (s1.killDomain ctx dom).groups, g.2.ctx = ctx → s1.domain ctx g.2.region ≠ dom)) ∧
    ∀ t, x.repair = true → alook (ctlKey c ctx) s.ctls = some t →
      (∃ u, alook (ctlKey c ctx) s'.ctls = some u ∧ u.st = .stopped ∧ u.pc = x.pc.getD t.pc) ∧
      ∃ f, alook s.nextId s'.faults = some f ∧ f.ag = .ctl c ctx ∧ f.va = x.addr

end Sys2Proof.Claims

/-- R124, R291, R293, R296: taking a trap, of a team and of the control thread. That a trap which names no lanes has the live lanes as its fault
mask is log entry 8. -/
def Obligations.TrapEntry : Prop := TeamTraps ∧ ControlThreadTraps

/-- R305, R297, R298: the return from a trap: the team is READY (or DRAINING again), its active mask is the TRAP token's lanes below TW that
have not exited, the slot and the fault mask are clear, and it goes on at its PC, or at the word after a TRAP or BRKPT. With an error in its
pending slot it stops again with that cause, the slot cleared, its record marked PEND: that PEND holds that cause, and OVF the slot's overflow
bit, is log entry 33. -/
def Obligations.TrapReturn : Prop :=
  ∀ (s : State) (tid : Nat) (t : Team), alook tid s.teams = some t →
    (t.pending = none → (t.fromDrain = true → t.flags ≠ []) → ∃ u : Team, alook tid (s.resumeTeam tid).teams = some u ∧
      u.st = (if t.fromDrain then .draining else .ready) ∧
      u.active = t.trapTok.mask &&& ~~~t.exited &&& lowMask t.tw ∧ u.trapTok = Token.empty ∧ u.fault = 0 ∧ u.trap = none ∧
      u.vregs = t.vregs ∧ u.cc = t.cc ∧ u.stack = t.stack ∧ u.exited = t.exited ∧ u.flags = t.flags ∧
      (∀ r, t.trap = some r → r.after = false → u.pc = t.pc ∧ u.sregs = t.sregs ∧ u.loop = t.loop ∧ u.clause = t.clause) ∧
      (∀ r, t.trap = some r → r.after = true → t.loop = none → u.pc = t.pc.plus 4 ∧ u.sregs = t.sregs)) ∧
    ∀ x, t.pending = some x → ∃ (u : Team) (r : TrapRec), alook tid (s.resumeTeam tid).teams = some u ∧ u.st = .stopped ∧
      u.trap = some r ∧ r.cause = x.cause ∧ r.addr = x.addr ∧ r.pend = some x.cause ∧ r.ovf = t.pendOvf ∧ u.pending = none ∧
      u.fault = x.mask

/-- R34, R41, R300, R301, R304, R305, R314, R321, R329, R366: a privileged instruction below its level takes PRIV and does nothing else:
the handler-level registers, the debug window, TRESUME and CKPT at program level; TLBINV, DEADRG and the die's event counters below system
level. -/
def Obligations.PrivilegeTraps : Prop :=
  ∀ (s : State) (t : Team), s.agent s.cur = some t →
    let priv : Host.Outcome State Fault Refusal := .next (takeTrap s (Trap.of .priv))
    (t.level = .program →
      (∀ (d : Reg) (n : BitVec 14), 0x100 ≤ n.toNat → exec (.rdsr d (.imm n)) s = priv) ∧
      (∀ (x : Src) (n : BitVec 14), 0x100 ≤ n.toNat → exec (.wrsr x (.imm n)) s = priv) ∧
      (∀ (d : Reg) (x a : Src), Scalars t [a] → 0x100 ≤ (srcScalar (s.env s.cur) t a).toNat % 2 ^ 14 →
        exec (.rdsr d (.ind a)) s = priv ∧ exec (.wrsr x (.ind a)) s = priv) ∧
      (∀ (p : Bool) (d : Reg) (a : Src), exec (.dbgrd p d a) s = priv ∧ exec (.tresume p d a) s = priv) ∧
      ∀ (d : Reg) (a b : Src), exec (.dbgwr d a b) s = priv ∧ exec (.ckpt d a b) s = priv) ∧
    (t.level ≠ .system →
      (∀ (k : TlbK) (d a b : Src), exec (.tlbinv k d a b) s = priv) ∧
      (∀ (k : DeadK) (d : Reg) (a b : Src), exec (.deadrg k d a b) s = priv) ∧
      (∀ (a b : Src), exec (.evsel true a b) s = priv) ∧ ∀ (d : Reg) (a : Src), exec (.evrd true d a) s = priv)

namespace Sys2Proof.Claims

/-- R180: a store with a vector operand of which a lane meets PAGE, and none an earlier cause, performs its other lanes and traps; replayed when
the team is resumed, it performs only the lanes of the fault mask. A store that executes once only traps. -/
def PageStoresReplay : Prop :=
  ∀ (w : Width) (x a b : Src) (s : State) (t : Team), s.agent s.cur = some t → okAddr t a = true → okSrc t x = true → okSrc t b = true →
    (w = .b64 → okPairSrc t x = true) →
    let per := isVec t x || isVec t a || isVec t b
    (per = true → Vectors t) →
    let e := s.env s.cur
    let ls := storeLanes w x a b s t
    let sent (t1 : Team) (rel : Bool) (obs : BitVec 7) (ls : List LaneTgt) : State :=
      s.issueStore e t1 rel obs (okLanes (Width.bytes w) ls (storeData e t w x) (fun _ => 0))
    (t.replay = none → firstErr ls = some .page → per = true →
      let trap (s1 : State) : State := s1.trapAt e.ag { addrTrap ls .page true with store := true }
      exec (.st w x a b) s = .next (trap (sent t false 0 ls)) ∧ exec (.ststr w x a b) s = .next (trap (sent t false 0 ls)) ∧
        ∀ obs : BitVec 7, obs ≠ 0 → b = .reg .z → s.inCopy e = false →
          exec (.strel w x a obs) s = .next ((trap (sent t true obs ls)).committed e.gid)) ∧
    (t.replay = none → firstErr ls = some .page → per = false →
      exec (.st w x a b) s = .next (takeTrap s (addrTrap ls .page false))) ∧
    (∀ r, t.trap = some r → r.store = true → r.after = false → t.resume.replay = some t.fault) ∧
    ∀ m, t.replay = some m → per = true →
      let again := lanesTgt s e t { write := true, atomic := false, n := Width.bytes w }
        (t.liveLanes.filter fun l => m.getLsbD l) (laneAddr e t a b)
      Reached again → exec (.st w x a b) s = .next (sent (t.advance (1 + x.words + a.words + b.words)) false 0 again)

end Sys2Proof.Claims

/-- R180: a load, store or atomic some lane of which meets ALIGN, PROTECT or TILE, or a load or atomic some lane of which meets PAGE, makes
no access and traps; the first cause in the rule's order that any lane meets is the trap's, its fault mask names the lanes that meet it, and a
PAGE goes to the MEM firmware first. A store some lane of which meets PAGE has its other lanes performed, and the fault-mask lanes replayed. -/
def Obligations.AddressFaultsTrap : Prop :=
  PageStoresReplay ∧
  (∀ (w : Width) (d : Reg) (a b : Src) (s : State) (t : Team) (c : AddrErr), s.agent s.cur = some t → okAddr t a = true →
    okSrc t b = true → okDst t d = true → (w = .b64 → okPairDst t d = true) → (isVecDst d = true → Vectors t) →
    (isVecDst d = false → isVec t a = false ∧ isVec t b = false) → firstErr (loadLanes w d a b s t) = some c →
    let out : Host.Outcome State Fault Refusal := .next (takeTrap s (addrTrap (loadLanes w d a b s t) c (isVecDst d)))
    exec (.ld w d a b) s = out ∧ exec (.ldstr w d a b) s = out ∧
      ∀ obs : BitVec 7, obs ≠ 0 → b = .reg .z → exec (.ldacq w d a obs) s = out) ∧
  (∀ (w : Width) (x a b : Src) (s : State) (t : Team) (c : AddrErr), s.agent s.cur = some t → okAddr t a = true → okSrc t x = true →
    okSrc t b = true → (w = .b64 → okPairSrc t x = true) → ((isVec t x || isVec t a || isVec t b) = true → Vectors t) →
    t.replay = none → firstErr (storeLanes w x a b s t) = some c → c ≠ .page →
    let out : Host.Outcome State Fault Refusal :=
      .next (takeTrap s (addrTrap (storeLanes w x a b s t) c (isVec t x || isVec t a || isVec t b)))
    exec (.st w x a b) s = out ∧ exec (.ststr w x a b) s = out ∧
      ∀ obs : BitVec 7, obs ≠ 0 → b = .reg .z → exec (.strel w x a obs) s = out) ∧
  (∀ (o : AtomOp) (wide : Bool) (d : Reg) (a : Src) (obs : BitVec 7) (s : State) (t : Team) (c : AddrErr), s.agent s.cur = some t →
    okAddr t a = true → okAtomDst o wide t d = true → (isVecDst d = true → Vectors t) → (isVecDst d = false → isVec t a = false) →
    firstErr (atomLanes wide d a s t) = some c →
    exec (if wide then .atom64 o d a obs else .atom o d a obs) s =
      .next (takeTrap s (addrTrap (atomLanes wide d a s t) c (isVecDst d)))) ∧
  (∀ (ls : List LaneTgt) (c : AddrErr) (per : Bool), firstErr ls = some c → (∃ l ∈ ls, l.meets c = true) ∧
    (addrTrap ls c per).cause = c.cause ∧ ((addrTrap ls c per).repair = true ↔ c = .page) ∧
    (∃ m, (addrTrap ls c true).mask = some m ∧
      ∀ k < 1024, m.getLsbD k = true ↔ ∃ l ∈ ls, l.lane = k ∧ l.meets c = true) ∧
    (addrTrap ls c false).mask = none ∧
    ((∃ l ∈ ls, l.meets .align = true) → c = .align) ∧
    ((∃ l ∈ ls, l.meets .protect = true) → c = .align ∨ c = .protect) ∧
    (c = .page → ∀ l ∈ ls, l.meets .tile = false ∧ l.meets .protect = false ∧ l.meets .align = false)) ∧
  ∀ (s : State) (e : Env) (t : Team) (k : AccKind) (a : W64), a.toNat % k.n ≠ 0 → s.laneTarget e t k a = .error .align

namespace Sys2Proof.Claims

/-- The arithmetic instructions with a destination: integer, immediate, floating, FP64, narrow, conversion and selection. -/
inductive LaneOp where
  | int (o : IntOp) (m : IntMod) | imm (o : ImmOp) | fp (o : FpOp) (m : FMod) | dp (o : DpOp) (cc : Bool) | narrow (o : NarrowOp)
  | cvt (r : Rm) (c : Fin 16) | sel (c : Cond)
  deriving DecidableEq, Repr

/-- The instruction; a unary one has no second source. -/
def LaneOp.instr (o : LaneOp) (d : Reg) (a b : Src) : Instr :=
  match o with
  | .int o m => o.instr m d a b
  | .imm o => o.instr d a
  | .fp o m => o.instr m d a b
  | .dp o cc => o.instr cc d a b
  | .narrow o => o.instr d a b
  | .cvt r c => .cvt r c d a
  | .sel c => .sel c d a b

/-- It writes a register pair of a vector destination (R23). -/
def LaneOp.pair (o : LaneOp) : Bool :=
  match o with
  | .dp _ _ => true
  | .cvt _ c => cvtDst64 c.val
  | _ => false

/-- It writes condition codes (R75). -/
def LaneOp.codes (o : LaneOp) : Bool :=
  match o with
  | .int _ m => m.cc
  | .fp _ m => m.cc
  | .dp _ cc => cc
  | _ => false

/-- It may raise FPFLAGS (R45). -/
def LaneOp.flags (o : LaneOp) : Bool :=
  match o with
  | .int _ _ | .imm _ | .sel _ => false
  | _ => true

/-- What an instruction with destination d leaves of a team's state: every other scalar register; every other vector register, and the
destination's lanes that are not live; the codes, unless it writes them, and then those of lanes not live; FPFLAGS, which only gain bits and
only from floating instructions; and everything else. -/
def RegFrame (o : LaneOp) (d : Reg) (t u : Team) : Prop :=
  (∀ k, (∀ n, d = .s n → n.val ≠ k) → sget u.sregs k = sget t.sregs k) ∧
  (∀ r l, l < 1024 → (∀ n, d = .v n → (r = t.reg n.val ∨ (o.pair = true ∧ r = t.reg n.val + 1)) → t.live.getLsbD l = false) →
    sget u.vregs (1024 * r + l) = sget t.vregs (1024 * r + l)) ∧
  (∀ l, (o.codes = true → t.live.getLsbD l = false) → sget u.cc l = sget t.cc l) ∧
  (o.flags = false → u.fpflags = t.fpflags) ∧ u.fpflags &&& t.fpflags = t.fpflags ∧
  u = { t with sregs := u.sregs, vregs := u.vregs, cc := u.cc, fpflags := u.fpflags }

/-- The bytes of every memory and every device register are those of another state. -/
def SameMemory (s s' : State) : Prop :=
  s'.mem = s.mem ∧ s'.hostMem = s.hostMem ∧ s'.peerMem = s.peerMem ∧ s'.devRegs = s.devRegs ∧ s'.dead = s.dead

end Sys2Proof.Claims

namespace Sys2Proof.Claims

/-- R20 to R23, R155: when an integer, immediate, FP64 or SEL instruction takes OPERAND: for a destination that cannot be written, a source or
destination outside the allotment, a vector source of a scalar destination, and an odd code of a pair; and when SHAPE or SHAPE-STALE: for a
vector destination where sh0 is no vector shape, or a stale one. -/
def OperandTraps : Prop :=
  ∀ (o : LaneOp) (d : Reg) (a b : Src) (s : State) (t : Team), s.agent s.cur = some t →
    (match o with
      | .int o m => m.ty.packed = false ∧ o.unary = false
      | .dp _ _ => True
      | .sel _ => True
      | _ => False) →
    let traps (c : Cause) : Prop := exec (o.instr d a b) s = .next (takeTrap s (Trap.of c))
    ((okSrc t a = false ∨ okSrc t b = false ∨ okDst t d = false) → traps .operand) ∧
    (d ∈ [Reg.lid, .vl, .pw, .tix, .gix] → traps .operand) ∧
    (∀ n : Fin 96, t.allot ≤ 32 * t.winBase + n.val → (d = .v n ∨ a = .reg (.v n) ∨ b = .reg (.v n)) → traps .operand) ∧
    (isVecDst d = false → (isVec t a = true ∨ isVec t b = true) → traps .operand) ∧
    (o.pair = true → ∀ n : Fin 96, n.val % 2 = 1 → (d = .v n ∨ a = .reg (.v n) ∨ b = .reg (.v n)) → traps .operand) ∧
    (VecDst t d → Readable t [a, b] → (o.pair = true → okPairDst t d = true ∧ okPairSrc t a = true ∧ okPairSrc t b = true) →
      (t.sh0.kind ≠ .vec → traps .shape) ∧ (t.sh0.kind = .vec → t.sh0.stale = true → traps .shapeStale))

end Sys2Proof.Claims

/-- R21, R45, R73 to R75, R97: the frame of the arithmetic instructions: no byte of memory and no device register changes; either the team
falls through with only its destination, its codes with `.c` and FPFLAGS changed (a loop's value steps aside, which fall at the end of a
pass, R139), or it traps. And R20 to R23, R155: where OPERAND, SHAPE and SHAPE-STALE are the trap. -/
def Obligations.RegisterFrame : Prop :=
  OperandTraps ∧
  ∀ (o : LaneOp) (d : Reg) (a b : Src) (s s' : State), exec (o.instr d a b) s = .next s' →
    SameMemory s s' ∧
    ((∃ t u, s.agent s.cur = some t ∧ RegFrame o d t u ∧ s' = s.setAgent s.cur (u.advance (o.instr d a b).words)) ∨
      ∃ x, s' = takeTrap s x)

namespace Sys2Proof.Claims

/-- Byte j of a target lies outside the n bytes of another. -/
def Outside (g : Target) (j : Nat) (t : Target) (n : Nat) : Prop :=
  g.key.1 ≠ t.key.1 ∨ g.key.2 + j < t.key.2 ∨ t.key.2 + n ≤ g.key.2 + j

/-- A target in device, host or a peer's memory, or in a tile that is there. -/
def Plain (s : State) (g : Target) : Prop :=
  match g with
  | .dev _ | .host _ | .peer _ _ => True
  | .tile k _ => alook k s.tiles ≠ none
  | .reg _ => False

/-- A target that is no device register. -/
def NoReg (g : Target) : Prop :=
  match g with
  | .reg _ => False
  | _ => True

end Sys2Proof.Claims

/-- R183, R188, R189, R237, R328: what a memory request does when its home performs it. Every byte but the lane's own reads as before (all bytes,
for a load); a store leaves its data there; an atomic leaves R188's new value and takes the old one; a load takes its bytes as they all stood at
one time, which the part chooses among those not before the last write that the rules make it see (R237; log entry 11), and the present bytes
where that time is now. The bytes are those of device, host or a peer's memory, or of a tile, whose atomics are performed as they issue (R244).
And a load or store that only issues changes no byte. -/
def Obligations.RequestMemoryEffect : Prop :=
  (∀ (s : State) (id : Nat) (o : PendOp) (l : LaneAcc), alook id s.pend = some o → o.lanes.find? (fun m => m.lane == l.lane) = some l →
    l.st = .sent → s.canPerform id o l = true → s.drainingAt l.tgt = false → (∃ s1, s.carry id l = some s1 ∧ s1.respond o.ag ≠ none) →
    l.n ≤ 8 →
    let took (s' : State) (v : Nat) : Prop := ∃ (o' : PendOp) (p : Bool), alook id s'.pend = some o' ∧
      o'.lanes.find? (fun m => m.lane == l.lane) = some { l with st := .done, res := BitVec.ofNat 64 v, put := p }
    ∃ s', exec (.memoryRequestAtHome id l.lane .perform) s = .next s' ∧
      (∀ g j, NoReg g → ((∃ w, o.kind = .load w) ∨ Outside g j l.tgt l.n) → s'.tgtByte g j = s.tgtByte g j) ∧
      (o.kind = .store → Plain s l.tgt → ∀ j < l.n, s'.tgtByte l.tgt j = BitVec.ofNat 8 (l.x.toNat / 256 ^ j)) ∧
      (∀ a w, o.kind = .atomic a w → Plain s l.tgt → s.tgtPoisoned l.tgt l.n = false →
        s'.tgtValue l.tgt l.n = atomicNew a (8 * l.n) (s.tgtValue l.tgt l.n) (l.x.toNat % 2 ^ (8 * l.n)) (l.y.toNat % 2 ^ (8 * l.n)) ∧
        (o.ag.outside = false → took s' (s.tgtValue l.tgt l.n))) ∧
      ∀ w, o.kind = .load w → s.heldBy o.ag id = [] → s.tgtPoisoned l.tgt l.n = false →
        let floor := s.readFloor o.ag (s.seenBy o.ag) o.after o.strong l.tgt l.n
        ∃ time, floor ≤ time ∧ (floor ≤ s.clock → time ≤ s.clock) ∧ took s' (leValue (s.tgtByteAt time l.tgt) 0 l.n)) ∧
  (∀ (s : State) (o : PendOp) (l : LaneAcc) (a : AtomOp) (w : Bool) (k off : Nat), o.lanes = [l] → o.kind = .atomic a w →
    l.tgt = .tile k off → alook k s.tiles ≠ none → l.n ≤ 8 →
    let r := s.performTiles o
    let old := s.tgtValue l.tgt l.n
    r.1.tgtValue l.tgt l.n = atomicNew a (8 * l.n) old (l.x.toNat % 2 ^ (8 * l.n)) (l.y.toNat % 2 ^ (8 * l.n)) ∧
    (∀ g j, NoReg g → Outside g j l.tgt l.n → r.1.tgtByte g j = s.tgtByte g j) ∧
    ∃ p : Bool, r.2.lanes = [{ l with st := .done, res := BitVec.ofNat 64 old, put := p }]) ∧
  (∀ (s : State) (g : Target) (j : Nat), (∀ w ∈ s.past, w.time ≤ s.clock) → s.tgtByteAt s.clock g j = s.tgtByte g j) ∧
  ∀ (i : Instr) (s s' : State), (match i with
      | .ld .. | .ldstr .. | .ldacq .. | .st .. | .ststr .. | .strel .. | .lds .. | .ldf .. | .sts .. | .pref .. => True
      | _ => False) → exec i s = .next s' → SameMemory s s'

namespace Sys2Proof.Claims

/-- Element j of IDOT4's source as its type reads it (R96). -/
def dotElem (signed : Bool) (x : W32) (j : Nat) : Int :=
  if signed then ((x >>> (8 * j)).setWidth 8 : BitVec 8).toInt else ((x >>> (8 * j)).setWidth 8 : BitVec 8).toNat

/-- The lane that R96 gives IDOT4: the exact sum of four products and the old lane, modulo 2^32. -/
def idot4Of (k : DotK) (d a b : W32) : W32 :=
  let p (j : Nat) : Int := dotElem (k != .uu) a j * dotElem (k == .ss) b j
  BitVec.ofInt 32 (d.toNat + p 0 + p 1 + p 2 + p 3)

/-- A parked team that goes on. -/
def unparked (t : Team) : Team := { t with st := .ready, wait := .none }

end Sys2Proof.Claims

/-- R79, R96, R112, R278: IDOT4 and FDOT2 park their team at the instruction, with nothing written; the MGMT firmware then writes the
destination in the lanes that were live at issue, IDOT4's the exact sum of R96, and the team goes on after the instruction; or the park ends
with EMULATED, at the instruction, when it is reported or the watchdog has expired. -/
def Obligations.EmulatedInstructions : Prop :=
  (∀ (s : State) (t : Team) (n : Fin 96) (a b : Src), s.agent s.cur = some t → t.inWindow n.val = true → Readable t [a, b] → Vectors t →
    (∀ k : DotK, exec (.idot4 k (.v n) a b) s = .next (s.setAgent s.cur
      { t with st := .parked, wait := .emul (.idot4 k (.v n) a b) t.live, since := (s.core (s.env s.cur).core).count })) ∧
    ∀ k : FDotK, exec (.fdot2 k (.v n) a b) s = .next (s.setAgent s.cur
      { t with st := .parked, wait := .emul (.fdot2 k (.v n) a b) t.live, since := (s.core (s.env s.cur).core).count })) ∧
  ∀ (s : State) (tid : Nat) (t : Team) (i : Instr) (lanes : LaneMask), alook tid s.teams = some t → t.st = .parked →
    t.wait = .emul i lanes →
    let e := s.env (.team tid)
    let u := unparked t
    let ls := lanesOf lanes t.tw
    (∀ (n : Fin 96) (a b : Src), s.fwUp 7 = true → s.mayIssue tid = true → s.expired tid t.since = false →
      (∀ k, i = .idot4 k (.v n) a b → exec (.emulationComplete tid) s = .next { s with
        teams := aset tid ((u.writeLanes (t.reg n.val) ls fun l =>
          idot4Of k (dstLane e u (.v n) l) (srcLane e u a l) (srcLane e u b l)).advance (1 + a.words + b.words)) s.teams }) ∧
      ∀ k, i = .fdot2 k (.v n) a b →
        let r (l : Nat) : FpOut := fdot2Lane k (dstLane e u (.v n) l) (srcLane e u a l) (srcLane e u b l)
        exec (.emulationComplete tid) s = .next { s with
          teams := aset tid (((u.writeLanes (t.reg n.val) ls fun l => BitVec.ofNat 32 (r l).x).addFp
            (ls.foldl (fun m l => m ||| (r l).fl) 0)).advance (1 + a.words + b.words)) s.teams }) ∧
    let ends (reported : Bool) (count : Option Nat) : Prop :=
      exec (.emulationTimeout tid reported) s = .next (s.stopTeam tid { cause := .emulated, mask := some lanes, count := count })
    (s.fwUp 7 = true → s.inActive tid = true → s.expired tid t.since = false → ends true none) ∧
    ∀ reported : Bool, s.expired tid t.since = true → ends reported (some (s.expiry tid t.since))

/-- R79, R278, R293, R320, R361: the MEM firmware's steps on a translation fault: repaired, its agent resumes; a leaf that a reply has made a host
page goes to ATS, and one still not valid is reported again, as one is that an ATS answer found and that is gone when the firmware looks; refused
or without a reply within 16 watchdog units, of 1,024 cycles each whatever the region's WDOG (log entry 19), it is delivered; a reply to a hung
core is held; an invalidation by the host removes what the translation cache holds when no access that used it is open. -/
def Obligations.FaultsEnd : Prop :=
  ∀ s : State,
    (∀ (k : Nat) (f : FaultRec), s.openFault k = some f →
      (f.since + 16 * 1024 ≤ (s.core f.core).count → exec (.faultRepairTimeout k) s = .next (s.deliverFault k f)) ∧
      (s.fwUp 2 = true →
        let retried : State := if s.nowValid f then s.repaired k f
          else if s.hostPage f.ctx (f.va.toNat % 2 ^ 56) then s.setFault k f .atsWait
          else (s.setFault k f .sysWait).postFault k f
        (s.nowValid f = true → exec (.faultRepairComplete k) s = .next (s.repaired k f)) ∧
        (s.nowValid f = false → f.st = .walking → exec (.faultRepairComplete k) s = .next retried) ∧
        (f.st = .sysWait → exec (.faultRecordReply k false) s = .next (s.deliverFault k f) ∧
          exec (.faultRecordReply k true) s = .next retried) ∧
        (f.st = .atsWait → exec (.atsTranslationCompletion k none) s = .next (s.setFault k f .priWait) ∧
          ∀ h : Nat, ∃ s', exec (.atsTranslationCompletion k (some h)) s = .next s' ∧
            ({ ctx := f.ctx, page := f.va.toNat % 2 ^ 56 / 65536, host := h / 65536 * 65536 } : AtcEntry) ∈ s'.atc ∧
            alook k s'.faults = some { f with st := .walking }) ∧
        (f.st = .priWait → exec (.priPageResponse k true) s = .next (s.setFault k f .atsWait) ∧
          exec (.priPageResponse k false) s = .next (s.deliverFault k f))) ∧
      (f.st = .sysWait → s.fwUp 2 = false → ∀ ok : Bool, Held s (.faultRecordReply k ok) 10)) ∧
    ∀ ctx page n : Nat, s.pend = [] → s.mqs = [] → (∀ e ∈ s.teams, e.2.held = []) →
      exec (.atsInvalidateRequest ctx page n) s = .next { s with
        atc := s.atc.filter fun t => !(t.ctx == ctx && Nat.ble page t.page && Nat.blt t.page (page + n)) }

/-- R76: the test of each condition on a nibble, and each condition's code. After CMP, of either width, LT, GE, LE and GT order a and b
as signed values, LO, HS, LS and HI as unsigned ones, and EQ and NE compare them. After FCMP of FP32 values, and after DCMP, MI is less,
LT is less or unordered and VS is unordered. -/
def Obligations.ConditionsRule : Prop :=
  (∀ n z c v : Bool,
    let x := nibble n z c v
    condTest .eq x = z ∧ condTest .ne x = !z ∧ condTest .lt x = (n != v) ∧ condTest .ge x = (n == v) ∧
    condTest .le x = (z || n != v) ∧ condTest .gt x = (!z && n == v) ∧ condTest .lo x = !c ∧ condTest .hs x = c ∧
    condTest .ls x = (!c || z) ∧ condTest .hi x = (c && !z) ∧ condTest .mi x = n ∧ condTest .pl x = !n ∧
    condTest .vs x = v ∧ condTest .vc x = !v ∧ condTest .al x = true ∧ condTest .nv x = false) ∧
  [Cond.eq, .ne, .lt, .ge, .le, .gt, .lo, .hs, .ls, .hi, .mi, .pl, .vs, .vc, .al, .nv].map Cond.code = List.range 16 ∧
  (∀ (ty : IntTy) (a b : W64), ty.packed = false →
    let x := (intScalarRes opSub ty a b 0 false).nib
    condTest .lt x = a.slt b ∧ condTest .ge x = !a.slt b ∧ condTest .le x = a.sle b ∧ condTest .gt x = !a.sle b ∧
    condTest .lo x = a.ult b ∧ condTest .hs x = !a.ult b ∧ condTest .ls x = a.ule b ∧ condTest .hi x = !a.ule b ∧
    condTest .eq x = (a == b) ∧ condTest .ne x = (a != b)) ∧
  (∀ (ty : IntTy) (a b : W32), ty.packed = false →
    let x := (intLaneRes opSub ty a b 0 false).nib
    condTest .lt x = a.slt b ∧ condTest .ge x = !a.slt b ∧ condTest .le x = a.sle b ∧ condTest .gt x = !a.sle b ∧
    condTest .lo x = a.ult b ∧ condTest .hs x = !a.ult b ∧ condTest .ls x = a.ule b ∧ condTest .hi x = !a.ule b ∧
    condTest .eq x = (a == b) ∧ condTest .ne x = (a != b)) ∧
  (∀ a b : W32,
    let x := (fcmpLane .f32 a b).nib
    let r := (Fmt.f32.decode a.toNat).cmp (Fmt.f32.decode b.toNat)
    condTest .mi x = (r == .less) ∧ condTest .lt x = (r == .less || r == .unordered) ∧ condTest .vs x = (r == .unordered)) ∧
  ∀ a b : W64,
    let x := (dcmpRes a b).nib
    let r := (Fmt.f64.decode a.toNat).cmp (Fmt.f64.decode b.toNat)
    condTest .mi x = (r == .less) ∧ condTest .lt x = (r == .less || r == .unordered) ∧ condTest .vs x = (r == .unordered)

namespace Sys2Proof.Claims

/-- The check of R221 completes the phase. -/
def Met (b : Barrier) : Prop := 0 < b.expA + b.expB ∧ b.expA ≤ b.cntA ∧ b.expB ≤ b.cntB

/-- A phase completed with an error (R221): EXPA and SCOPE stay, and what the phase released is the last of the completed phases'. -/
def Completed (b b' : Barrier) (err : Nat) : Prop :=
  b'.lastErr = err ∧ b'.phase = (b.phase + 1) % 2 ^ 16 ∧ b'.cntA = 0 ∧ b'.cntB = 0 ∧ b'.expB = 0 ∧ b'.err = 0 ∧
  b'.expA = b.expA ∧ b'.scope = b.scope ∧ b'.done = b.done ++ [b.rel] ∧ b'.rel = []

/-- What R221's check leaves of an entry: completed, with OVERRUN where more was credited than expected and no error stood, or as it is. -/
def Checked (b b' : Barrier) : Prop :=
  (Met b → Completed b b' (if b.err = 0 ∧ b.expB < b.cntB then 1 else b.err)) ∧ (¬Met b → b' = b)

end Sys2Proof.Claims

/-- R221, R223, R224: the steps of a barrier's entry: an arrival is counted, or is EXCESS when none is expected; a credit and a BEXP are counted,
saturating; each is followed by the check; an engine's error completes the phase at once. Whether a phase has completed is decided from the
distance of PHASE, modulo 2^16; what its acquire takes is what it and the earlier phases have released. -/
def Obligations.BarrierPhaseRule : Prop :=
  ∀ b : Barrier,
    (∀ (tid : Nat) (ops : List Nat),
      (b.cntA = b.expA → Checked { b with err := if b.err = 0 then 3 else b.err } (b.arrive tid ops)) ∧
      (b.cntA ≠ b.expA → Checked { b with cntA := b.cntA + 1, arr := b.arr ++ [tid], rel := b.rel ++ ops } (b.arrive tid ops))) ∧
    (∀ (n : Nat) (ops : List Nat), Checked { b with cntB := min (b.cntB + n) (2 ^ 32 - 1), rel := b.rel ++ ops } (b.credit n ops) ∧
      Checked { b with expB := min (b.expB + n) (2 ^ 32 - 1) } (b.bexp n)) ∧
    (∀ code : Nat, Completed b (b.engineError code) code) ∧
    ∀ p : Nat, p < 2 ^ 16 → b.phase < 2 ^ 16 →
      let diff := if p ≤ b.phase then b.phase - p else b.phase + 2 ^ 16 - p
      ((diff = 0 ∨ 2 ^ 15 ≤ diff) → b.status p = none) ∧ (diff = 1 → b.status p = some b.lastErr) ∧
      (2 ≤ diff → diff < 2 ^ 15 → b.status p = some 2) ∧
      (1 ≤ diff → b.releases p = (b.done.take (b.done.length + 1 - diff)).flatten)

/-- R31, R62, R126, R319: where the code words at the issuing agent's PC decode to an instruction, that is what it issues; a step runs
the instruction it issues, charges its cycles and gives the issue port to the next agent (EVSEL is charged before it acts, R366); a
long-latency instruction whose flag is full waits (log entry 22); a word that cannot be issued takes its trap at the PC; an agent that cannot
issue leaves the port; and a step of the schedule runs what stands at its head (log entry 1). An agent issues once it stands in the original
code where its residual has no copy (log entry 30) and its fetch has its translations (R365); neither changes memory. While its fetch, or a walk
or a target of its instruction, must wait for a home or a port, it leaves the issue port and issues again (R248, R330, R340; log entry 27). Every
step takes what follows from it, and the next free values (log entry 6). -/
def Obligations.StepRunsDecoded : Prop :=
  ∀ s : State, alive s = none →
    (∀ t : Team, s.agenda = [] → s.agent s.cur = some t →
      let held := s.fetchHeld (s.env s.cur) (t.outOf s)
      (s.canIssue s.cur = false ∨ held = true → step s = countStep (.next (s.rotate (s.env s.cur).core t.slot))) ∧
      (s.canIssue s.cur = true → held = false →
        let s1 := s.readyToIssue t
        let t1 := t.outOf s
        let e := s1.env s.cur
        s1.cur = s.cur ∧ s1.agent s.cur = some t1 ∧ SameMemory s s1 ∧ (∀ a, t.pc = .code a → t1 = t) ∧
        (∀ x, issueWord s1 e t1 = .error x →
          step s = countStep (.next ((takeTrap s1 x).endIssue s.cur e t1.slot 1 0))) ∧
        (∀ i, issueWord s1 e t1 = .ok i →
          (t1.flagFull i = true → step s = countStep (.next s1)) ∧
          (t1.flagFull i = false →
            let waits (u : State) : Bool := s1.sideHeld e t1 i || s1.execHeld e t1 i u
            ((∀ die x y, i ≠ .evsel die x y) → ∀ u, exec i s1 = .next u →
              step s = countStep (.next (if waits u then s1.rotate e.core t1.slot
                else u.endIssue s.cur e t1.slot (issueCost e t1 i) (passes e t1 i)))) ∧
            (∀ die x y, i = .evsel die x y → ∀ u, exec i (s1.charge e 1 0) = .next u →
              step s = countStep (.next (if waits u then s1.rotate e.core t1.slot else u.rotate e.core t1.slot))) ∧
            ((∀ die x y, i ≠ .evsel die x y) → (∀ f, exec i s1 = .fault f → step s = .fault f) ∧
              ∀ f, exec i s1 = .refused f → step s = .refused f))) ∧
        ∀ (a : W64) (w : W32) (ext : List W32) (i : Instr), t.pc = .code a → t.loop = none → (w :: ext).length = wordSpan w →
          (∀ k x, (w :: ext)[k]? = some x → s1.fetchWord e.ctx t.level (a + BitVec.ofNat 64 (4 * k)).toNat = .ok x) →
          (t.clause.inside = true ∨ isHeader w = true) → (t.bpSkip = true ∨ breakAt (s1.brkFor e t (isHeader w)) a = none) →
          longCheck t w = .ok () → decode (w :: ext) = .ok i → issueWord s1 e t = .ok i)) ∧
    ∀ r, (∀ i, s.agenda = .event i :: r → step s = countStep (exec i { s with agenda := r })) ∧
      (∀ a, s.agenda = .turn a :: r → step s = countStep (issue { s with agenda := r, cur := a })) ∧
      (∀ c n, s.agenda = .pass c n :: r → step s = countStep (.next (({ s with agenda := r } : State).passCycle c n))) ∧
      ∀ x, s.agenda = x :: r → (∀ i, x ≠ .event i) → (∀ a, x ≠ .turn a) →
        step s = countStep (.next (({ s with agenda := r } : State).outsideTurn x))
end

