-- ==== Sys2Proof/Laws/Dispatch.lean ====
section
/-!
SUPPORT. One lemma for each arm of the dispatch: an instruction executes as its meaning says.
-/
namespace Sys2Proof.Laws
open Sys2Proof Sys2Proof.Machine

@[simp] theorem exec_add : ∀ m d a b s, exec (.add m d a b) s = execAdd m d a b s := fun _ _ _ _ _ => rfl
@[simp] theorem exec_sub : ∀ m d a b s, exec (.sub m d a b) s = execSub m d a b s := fun _ _ _ _ _ => rfl
@[simp] theorem exec_addc : ∀ m d a b s, exec (.addc m d a b) s = execAddc m d a b s := fun _ _ _ _ _ => rfl
@[simp] theorem exec_subb : ∀ m d a b s, exec (.subb m d a b) s = execSubb m d a b s := fun _ _ _ _ _ => rfl
@[simp] theorem exec_mul : ∀ m d a b s, exec (.mul m d a b) s = execMul m d a b s := fun _ _ _ _ _ => rfl
@[simp] theorem exec_mulh : ∀ m d a b s, exec (.mulh m d a b) s = execMulh m d a b s := fun _ _ _ _ _ => rfl
@[simp] theorem exec_mad : ∀ m d a b s, exec (.mad m d a b) s = execMad m d a b s := fun _ _ _ _ _ => rfl
@[simp] theorem exec_div : ∀ m d a b s, exec (.div m d a b) s = execDiv m d a b s := fun _ _ _ _ _ => rfl
@[simp] theorem exec_rem : ∀ m d a b s, exec (.rem m d a b) s = execRem m d a b s := fun _ _ _ _ _ => rfl
@[simp] theorem exec_min : ∀ m d a b s, exec (.min m d a b) s = execMin m d a b s := fun _ _ _ _ _ => rfl
@[simp] theorem exec_max : ∀ m d a b s, exec (.max m d a b) s = execMax m d a b s := fun _ _ _ _ _ => rfl
@[simp] theorem exec_absd : ∀ m d a b s, exec (.absd m d a b) s = execAbsd m d a b s := fun _ _ _ _ _ => rfl
@[simp] theorem exec_and : ∀ m d a b s, exec (.and m d a b) s = execAnd m d a b s := fun _ _ _ _ _ => rfl
@[simp] theorem exec_or : ∀ m d a b s, exec (.or m d a b) s = execOr m d a b s := fun _ _ _ _ _ => rfl
@[simp] theorem exec_xor : ∀ m d a b s, exec (.xor m d a b) s = execXor m d a b s := fun _ _ _ _ _ => rfl
@[simp] theorem exec_andn : ∀ m d a b s, exec (.andn m d a b) s = execAndn m d a b s := fun _ _ _ _ _ => rfl
@[simp] theorem exec_shl : ∀ m d a b s, exec (.shl m d a b) s = execShl m d a b s := fun _ _ _ _ _ => rfl
@[simp] theorem exec_shr : ∀ m d a b s, exec (.shr m d a b) s = execShr m d a b s := fun _ _ _ _ _ => rfl
@[simp] theorem exec_sar : ∀ m d a b s, exec (.sar m d a b) s = execSar m d a b s := fun _ _ _ _ _ => rfl
@[simp] theorem exec_rot : ∀ m d a b s, exec (.rot m d a b) s = execRot m d a b s := fun _ _ _ _ _ => rfl
@[simp] theorem exec_bfe : ∀ m d a b s, exec (.bfe m d a b) s = execBfe m d a b s := fun _ _ _ _ _ => rfl
@[simp] theorem exec_bfi : ∀ m d a b s, exec (.bfi m d a b) s = execBfi m d a b s := fun _ _ _ _ _ => rfl
@[simp] theorem exec_popc : ∀ m d a s, exec (.popc m d a) s = execPopc m d a s := fun _ _ _ _ => rfl
@[simp] theorem exec_clz : ∀ m d a s, exec (.clz m d a) s = execClz m d a s := fun _ _ _ _ => rfl
@[simp] theorem exec_brev : ∀ m d a s, exec (.brev m d a) s = execBrev m d a s := fun _ _ _ _ => rfl
@[simp] theorem exec_cmp : ∀ t a b s, exec (.cmp t a b) s = execCmp t a b s := fun _ _ _ _ => rfl
@[simp] theorem exec_sel : ∀ c d a b s, exec (.sel c d a b) s = execSel c d a b s := fun _ _ _ _ _ => rfl
@[simp] theorem exec_mov : ∀ m d a s, exec (.mov m d a) s = execMov m d a s := fun _ _ _ _ => rfl
@[simp] theorem exec_ext : ∀ m d a b s, exec (.ext m d a b) s = execExt m d a b s := fun _ _ _ _ _ => rfl
@[simp] theorem exec_adds : ∀ m d a b s, exec (.adds m d a b) s = execAdds m d a b s := fun _ _ _ _ _ => rfl
@[simp] theorem exec_subs : ∀ m d a b s, exec (.subs m d a b) s = execSubs m d a b s := fun _ _ _ _ _ => rfl
@[simp] theorem exec_fadd : ∀ m d a b s, exec (.fadd m d a b) s = execFadd m d a b s := fun _ _ _ _ _ => rfl
@[simp] theorem exec_fsub : ∀ m d a b s, exec (.fsub m d a b) s = execFsub m d a b s := fun _ _ _ _ _ => rfl
@[simp] theorem exec_fmul : ∀ m d a b s, exec (.fmul m d a b) s = execFmul m d a b s := fun _ _ _ _ _ => rfl
@[simp] theorem exec_ffma : ∀ m d a b s, exec (.ffma m d a b) s = execFfma m d a b s := fun _ _ _ _ _ => rfl
@[simp] theorem exec_fmin : ∀ m d a b s, exec (.fmin m d a b) s = execFmin m d a b s := fun _ _ _ _ _ => rfl
@[simp] theorem exec_fmax : ∀ m d a b s, exec (.fmax m d a b) s = execFmax m d a b s := fun _ _ _ _ _ => rfl
@[simp] theorem exec_fcmp : ∀ t a b s, exec (.fcmp t a b) s = execFcmp t a b s := fun _ _ _ _ => rfl
@[simp] theorem exec_fdiv : ∀ m d a b s, exec (.fdiv m d a b) s = execFdiv m d a b s := fun _ _ _ _ _ => rfl
@[simp] theorem exec_fsqrt : ∀ m d a s, exec (.fsqrt m d a) s = execFsqrt m d a s := fun _ _ _ _ => rfl
@[simp] theorem exec_fsfu : ∀ f d a s, exec (.fsfu f d a) s = execFsfu f d a s := fun _ _ _ _ => rfl
@[simp] theorem exec_fclass : ∀ t d a s, exec (.fclass t d a) s = execFclass t d a s := fun _ _ _ _ => rfl
@[simp] theorem exec_cvt : ∀ r c d a s, exec (.cvt r c d a) s = execCvt r c d a s := fun _ _ _ _ _ => rfl
@[simp] theorem exec_dadd : ∀ cc d a b s, exec (.dadd cc d a b) s = execDadd cc d a b s := fun _ _ _ _ _ => rfl
@[simp] theorem exec_dmul : ∀ cc d a b s, exec (.dmul cc d a b) s = execDmul cc d a b s := fun _ _ _ _ _ => rfl
@[simp] theorem exec_dfma : ∀ cc d a b s, exec (.dfma cc d a b) s = execDfma cc d a b s := fun _ _ _ _ _ => rfl
@[simp] theorem exec_dcmp : ∀ a b s, exec (.dcmp a b) s = execDcmp a b s := fun _ _ _ => rfl
@[simp] theorem exec_quant : ∀ t d a b s, exec (.quant t d a b) s = execQuant t d a b s := fun _ _ _ _ _ => rfl
@[simp] theorem exec_deq : ∀ t d a b s, exec (.deq t d a b) s = execDeq t d a b s := fun _ _ _ _ _ => rfl
@[simp] theorem exec_pack : ∀ d a s, exec (.pack d a) s = execPack d a s := fun _ _ _ => rfl
@[simp] theorem exec_unpk : ∀ d a s, exec (.unpk d a) s = execUnpk d a s := fun _ _ _ => rfl
@[simp] theorem exec_idot4 : ∀ k d a b s, exec (.idot4 k d a b) s = execIdot4 k d a b s := fun _ _ _ _ _ => rfl
@[simp] theorem exec_fdot2 : ∀ k d a b s, exec (.fdot2 k d a b) s = execFdot2 k d a b s := fun _ _ _ _ _ => rfl
@[simp] theorem exec_shfl : ∀ m d a b s, exec (.shfl m d a b) s = execShfl m d a b s := fun _ _ _ _ _ => rfl
@[simp] theorem exec_vote : ∀ f d a s, exec (.vote f d a) s = execVote f d a s := fun _ _ _ _ => rfl
@[simp] theorem exec_rdfirst : ∀ d a s, exec (.rdfirst d a) s = execRdfirst d a s := fun _ _ _ => rfl
@[simp] theorem exec_rdlane : ∀ d a b s, exec (.rdlane d a b) s = execRdlane d a b s := fun _ _ _ _ => rfl
@[simp] theorem exec_wrlane : ∀ d a b s, exec (.wrlane d a b) s = execWrlane d a b s := fun _ _ _ _ => rfl
@[simp] theorem exec_ccmovRd : ∀ d s, exec (.ccmovRd d) s = execCcmovRd d s := fun _ _ => rfl
@[simp] theorem exec_ccmovWr : ∀ a s, exec (.ccmovWr a) s = execCcmovWr a s := fun _ _ => rfl
@[simp] theorem exec_addi : ∀ d a imm s, exec (.addi d a imm) s = execAddi d a imm s := fun _ _ _ _ => rfl
@[simp] theorem exec_andi : ∀ d a imm s, exec (.andi d a imm) s = execAndi d a imm s := fun _ _ _ _ => rfl
@[simp] theorem exec_ori : ∀ d a imm s, exec (.ori d a imm) s = execOri d a imm s := fun _ _ _ _ => rfl
@[simp] theorem exec_xori : ∀ d a imm s, exec (.xori d a imm) s = execXori d a imm s := fun _ _ _ _ => rfl
@[simp] theorem exec_shli : ∀ d a sh s, exec (.shli d a sh) s = execShli d a sh s := fun _ _ _ _ => rfl
@[simp] theorem exec_shri : ∀ d a sh s, exec (.shri d a sh) s = execShri d a sh s := fun _ _ _ _ => rfl
@[simp] theorem exec_sari : ∀ d a sh s, exec (.sari d a sh) s = execSari d a sh s := fun _ _ _ _ => rfl
@[simp] theorem exec_cmpi : ∀ a imm s, exec (.cmpi a imm) s = execCmpi a imm s := fun _ _ _ => rfl
@[simp] theorem exec_movi : ∀ d imm s, exec (.movi d imm) s = execMovi d imm s := fun _ _ _ => rfl
@[simp] theorem exec_movhi : ∀ d a h s, exec (.movhi d a h) s = execMovhi d a h s := fun _ _ _ _ => rfl
@[simp] theorem exec_brc : ∀ c off s, exec (.brc c off) s = execBrc c off s := fun _ _ _ => rfl
@[simp] theorem exec_jmp : ∀ off s, exec (.jmp off) s = execJmp off s := fun _ _ => rfl
@[simp] theorem exec_call : ∀ off s, exec (.call off) s = execCall off s := fun _ _ => rfl
@[simp] theorem exec_ret : ∀ s, exec .ret s = execRet s := fun _ => rfl
@[simp] theorem exec_joinat : ∀ off s, exec (.joinat off) s = execJoinat off s := fun _ _ => rfl
@[simp] theorem exec_join : ∀ s, exec .join s = execJoin s := fun _ => rfl
@[simp] theorem exec_loop : ∀ a len stepw s, exec (.loop a len stepw) s = execLoop a len stepw s := fun _ _ _ _ => rfl
@[simp] theorem exec_winbase : ∀ k s, exec (.winbase k) s = execWinbase k s := fun _ _ => rfl
@[simp] theorem exec_curve : ∀ d p acc s, exec (.curve d p acc) s = execCurve d p acc s := fun _ _ _ _ => rfl
@[simp] theorem exec_mhint : ∀ n s, exec (.mhint n) s = execMhint n s := fun _ _ => rfl
@[simp] theorem exec_trap : ∀ n s, exec (.trap n) s = execTrap n s := fun _ _ => rfl
@[simp] theorem exec_brkpt : ∀ n s, exec (.brkpt n) s = execBrkpt n s := fun _ _ => rfl
@[simp] theorem exec_exit : ∀ s, exec .exit s = execExit s := fun _ => rfl
@[simp] theorem exec_nop : ∀ s, exec .nop s = execNop s := fun _ => rfl
@[simp] theorem exec_lds : ∀ d a imm s, exec (.lds d a imm) s = execLds d a imm s := fun _ _ _ _ => rfl
@[simp] theorem exec_sts : ∀ x a imm s, exec (.sts x a imm) s = execSts x a imm s := fun _ _ _ _ => rfl
@[simp] theorem exec_ldf : ∀ d imm s, exec (.ldf d imm) s = execLdf d imm s := fun _ _ _ => rfl
@[simp] theorem exec_jmpr : ∀ a off s, exec (.jmpr a off) s = execJmpr a off s := fun _ _ _ => rfl
@[simp] theorem exec_ld : ∀ w d a b s, exec (.ld w d a b) s = execLd w d a b s := fun _ _ _ _ _ => rfl
@[simp] theorem exec_st : ∀ w x a b s, exec (.st w x a b) s = execSt w x a b s := fun _ _ _ _ _ => rfl
@[simp] theorem exec_ldacq : ∀ w d a obs s, exec (.ldacq w d a obs) s = execLdacq w d a obs s := fun _ _ _ _ _ => rfl
@[simp] theorem exec_strel : ∀ w x a obs s, exec (.strel w x a obs) s = execStrel w x a obs s := fun _ _ _ _ _ => rfl
@[simp] theorem exec_ldstr : ∀ w d a b s, exec (.ldstr w d a b) s = execLdstr w d a b s := fun _ _ _ _ _ => rfl
@[simp] theorem exec_ststr : ∀ w x a b s, exec (.ststr w x a b) s = execStstr w x a b s := fun _ _ _ _ _ => rfl
@[simp] theorem exec_atom : ∀ o d a obs s, exec (.atom o d a obs) s = execAtom o d a obs s := fun _ _ _ _ _ => rfl
@[simp] theorem exec_atom64 : ∀ o d a obs s, exec (.atom64 o d a obs) s = execAtom64 o d a obs s := fun _ _ _ _ _ => rfl
@[simp] theorem exec_pref : ∀ forWrite a b s, exec (.pref forWrite a b) s = execPref forWrite a b s := fun _ _ _ _ => rfl
@[simp] theorem exec_fence : ∀ k obs s, exec (.fence k obs) s = execFence k obs s := fun _ _ _ => rfl
@[simp] theorem exec_qfence : ∀ wait qm s, exec (.qfence wait qm) s = execQfence wait qm s := fun _ _ _ => rfl
@[simp] theorem exec_talloc : ∀ full l d sh s, exec (.talloc full l d sh) s = execTalloc full l d sh s := fun _ _ _ _ _ => rfl
@[simp] theorem exec_tfree : ∀ a s, exec (.tfree a) s = execTfree a s := fun _ _ => rfl
@[simp] theorem exec_trd : ∀ wide q d a b s, exec (.trd wide q d a b) s = execTrd wide q d a b s := fun _ _ _ _ _ _ => rfl
@[simp] theorem exec_twr : ∀ wide q x a b s, exec (.twr wide q x a b) s = execTwr wide q x a b s := fun _ _ _ _ _ _ => rfl
@[simp] theorem exec_tstat : ∀ d a s, exec (.tstat d a) s = execTstat d a s := fun _ _ _ => rfl
@[simp] theorem exec_copy : ∀ xf cq a b s, exec (.copy xf cq a b) s = execCopy xf cq a b s := fun _ _ _ _ _ => rfl
@[simp] theorem exec_setshape : ∀ k d a p sh s, exec (.setshape k d a p sh) s = execSetshape k d a p sh s := fun _ _ _ _ _ _ => rfl
@[simp] theorem exec_rdshape : ∀ d sh s, exec (.rdshape d sh) s = execRdshape d sh s := fun _ _ _ => rfl
@[simp] theorem exec_gang : ∀ a s, exec (.gang a) s = execGang a s := fun _ _ => rfl
@[simp] theorem exec_mma : ∀ g sh d a b mode idx fmt s, exec (.mma g sh d a b mode idx fmt) s = execMma g sh d a b mode idx fmt s := fun _ _ _ _ _ _ _ _ _ => rfl
@[simp] theorem exec_mdrain : ∀ addTo sh d a b s, exec (.mdrain addTo sh d a b) s = execMdrain addTo sh d a b s := fun _ _ _ _ _ _ => rfl
@[simp] theorem exec_mzero : ∀ sh a s, exec (.mzero sh a) s = execMzero sh a s := fun _ _ _ => rfl
@[simp] theorem exec_binit : ∀ d a b s, exec (.binit d a b) s = execBinit d a b s := fun _ _ _ _ => rfl
@[simp] theorem exec_barv : ∀ wait d a s, exec (.barv wait d a) s = execBarv wait d a s := fun _ _ _ _ => rfl
@[simp] theorem exec_bexp : ∀ a b s, exec (.bexp a b) s = execBexp a b s := fun _ _ _ => rfl
@[simp] theorem exec_bwait : ∀ d a b s, exec (.bwait d a b) s = execBwait d a b s := fun _ _ _ _ => rfl
@[simp] theorem exec_btest : ∀ d a b s, exec (.btest d a b) s = execBtest d a b s := fun _ _ _ _ => rfl
@[simp] theorem exec_bstat : ∀ hiHalf d a s, exec (.bstat hiHalf d a) s = execBstat hiHalf d a s := fun _ _ _ _ => rfl
@[simp] theorem exec_enq : ∀ d a s, exec (.enq d a) s = execEnq d a s := fun _ _ _ => rfl
@[simp] theorem exec_cont : ∀ a s, exec (.cont a) s = execCont a s := fun _ _ => rfl
@[simp] theorem exec_pusht : ∀ d a s, exec (.pusht d a) s = execPusht d a s := fun _ _ _ => rfl
@[simp] theorem exec_popt : ∀ d s, exec (.popt d) s = execPopt d s := fun _ _ => rfl
@[simp] theorem exec_steal : ∀ d a s, exec (.steal d a) s = execSteal d a s := fun _ _ _ => rfl
@[simp] theorem exec_pick : ∀ o d a b s, exec (.pick o d a b) s = execPick o d a b s := fun _ _ _ _ _ => rfl
@[simp] theorem exec_scan : ∀ a b s, exec (.scan a b) s = execScan a b s := fun _ _ _ => rfl
@[simp] theorem exec_rdsr : ∀ d n s, exec (.rdsr d n) s = execRdsr d n s := fun _ _ _ => rfl
@[simp] theorem exec_wrsr : ∀ x n s, exec (.wrsr x n) s = execWrsr x n s := fun _ _ _ => rfl
@[simp] theorem exec_dbgrd : ∀ pair d a s, exec (.dbgrd pair d a) s = execDbgrd pair d a s := fun _ _ _ _ => rfl
@[simp] theorem exec_dbgwr : ∀ d a b s, exec (.dbgwr d a b) s = execDbgwr d a b s := fun _ _ _ _ => rfl
@[simp] theorem exec_tresume : ∀ kill d a s, exec (.tresume kill d a) s = execTresume kill d a s := fun _ _ _ _ => rfl
@[simp] theorem exec_evsel : ∀ die a b s, exec (.evsel die a b) s = execEvsel die a b s := fun _ _ _ _ => rfl
@[simp] theorem exec_evrd : ∀ die d a s, exec (.evrd die d a) s = execEvrd die d a s := fun _ _ _ _ => rfl
@[simp] theorem exec_ckpt : ∀ d a b s, exec (.ckpt d a b) s = execCkpt d a b s := fun _ _ _ _ => rfl
@[simp] theorem exec_tlbinv : ∀ k d a b s, exec (.tlbinv k d a b) s = execTlbinv k d a b s := fun _ _ _ _ _ => rfl
@[simp] theorem exec_deadrg : ∀ k d a b s, exec (.deadrg k d a b) s = execDeadrg k d a b s := fun _ _ _ _ _ => rfl
@[simp] theorem exec_rdcurve : ∀ d s, exec (.rdcurve d) s = execRdcurve d s := fun _ _ => rfl
@[simp] theorem exec_binv : ∀ a s, exec (.binv a) s = execBinv a s := fun _ _ => rfl
@[simp] theorem exec_clauseStart : ∀ h s, exec (.clauseStart h) s = execClauseStart h s := fun _ _ => rfl
@[simp] theorem exec_loadComplete : ∀ op s, exec (.loadComplete op) s = execLoadComplete op s := fun _ _ => rfl
@[simp] theorem exec_atomicComplete : ∀ op s, exec (.atomicComplete op) s = execAtomicComplete op s := fun _ _ => rfl
@[simp] theorem exec_trdComplete : ∀ op bad s, exec (.trdComplete op bad) s = execTrdComplete op bad s := fun _ _ _ => rfl
@[simp] theorem exec_joinBlockUpdate : ∀ j s, exec (.joinBlockUpdate j) s = execJoinBlockUpdate j s := fun _ _ => rfl
@[simp] theorem exec_granuleWaitEnd : ∀ tid s, exec (.granuleWaitEnd tid) s = execGranuleWaitEnd tid s := fun _ _ => rfl
@[simp] theorem exec_granuleWaitTimeout : ∀ tid s, exec (.granuleWaitTimeout tid) s = execGranuleWaitTimeout tid s := fun _ _ => rfl
@[simp] theorem exec_tileRestore : ∀ tile granule s, exec (.tileRestore tile granule) s = execTileRestore tile granule s := fun _ _ _ => rfl
@[simp] theorem exec_copyStallEnd : ∀ tid s, exec (.copyStallEnd tid) s = execCopyStallEnd tid s := fun _ _ => rfl
@[simp] theorem exec_copyAcknowledge : ∀ cp s, exec (.copyAcknowledge cp) s = execCopyAcknowledge cp s := fun _ _ => rfl
@[simp] theorem exec_copyBegin : ∀ cp s, exec (.copyBegin cp) s = execCopyBegin cp s := fun _ _ => rfl
@[simp] theorem exec_copyLand : ∀ cp elem o s, exec (.copyLand cp elem o) s = execCopyLand cp elem o s := fun _ _ _ _ => rfl
@[simp] theorem exec_barrierWaitWake : ∀ tid s, exec (.barrierWaitWake tid) s = execBarrierWaitWake tid s := fun _ _ => rfl
@[simp] theorem exec_barrierTimeout : ∀ tid s, exec (.barrierTimeout tid) s = execBarrierTimeout tid s := fun _ _ => rfl
@[simp] theorem exec_rendezvousTimeout : ∀ tid s, exec (.rendezvousTimeout tid) s = execRendezvousTimeout tid s := fun _ _ => rfl
@[simp] theorem exec_mqOperationBegin : ∀ core s, exec (.mqOperationBegin core) s = execMqOperationBegin core s := fun _ _ => rfl
@[simp] theorem exec_mmaComplete : ∀ op err s, exec (.mmaComplete op err) s = execMmaComplete op err s := fun _ _ _ => rfl
@[simp] theorem exec_mdrainComplete : ∀ op bad s, exec (.mdrainComplete op bad) s = execMdrainComplete op bad s := fun _ _ _ => rfl
@[simp] theorem exec_mzeroComplete : ∀ op s, exec (.mzeroComplete op) s = execMzeroComplete op s := fun _ _ => rfl
@[simp] theorem exec_matrixRampupEnd : ∀ core s, exec (.matrixRampupEnd core) s = execMatrixRampupEnd core s := fun _ _ => rfl
@[simp] theorem exec_matrixHoldExpiry : ∀ core s, exec (.matrixHoldExpiry core) s = execMatrixHoldExpiry core s := fun _ _ => rfl
@[simp] theorem exec_matrixRampdnEnd : ∀ core s, exec (.matrixRampdnEnd core) s = execMatrixRampdnEnd core s := fun _ _ => rfl
@[simp] theorem exec_mhintExpiry : ∀ tid s, exec (.mhintExpiry tid) s = execMhintExpiry tid s := fun _ _ => rfl
@[simp] theorem exec_emulationComplete : ∀ tid s, exec (.emulationComplete tid) s = execEmulationComplete tid s := fun _ _ => rfl
@[simp] theorem exec_emulationTimeout : ∀ tid reported s, exec (.emulationTimeout tid reported) s = execEmulationTimeout tid reported s := fun _ _ _ => rfl
@[simp] theorem exec_fenceWaitEnd : ∀ tid s, exec (.fenceWaitEnd tid) s = execFenceWaitEnd tid s := fun _ _ => rfl
@[simp] theorem exec_qfenceWaitEnd : ∀ tid s, exec (.qfenceWaitEnd tid) s = execQfenceWaitEnd tid s := fun _ _ => rfl
@[simp] theorem exec_curveDecision : ∀ core s, exec (.curveDecision core) s = execCurveDecision core s := fun _ _ => rfl
@[simp] theorem exec_curveDecisionAbandon : ∀ core s, exec (.curveDecisionAbandon core) s = execCurveDecisionAbandon core s := fun _ _ => rfl
@[simp] theorem exec_curveRampStart : ∀ core s, exec (.curveRampStart core) s = execCurveRampStart core s := fun _ _ => rfl
@[simp] theorem exec_curveRampEnd : ∀ core s, exec (.curveRampEnd core) s = execCurveRampEnd core s := fun _ _ => rfl
@[simp] theorem exec_dispatchPop : ∀ core s, exec (.dispatchPop core) s = execDispatchPop core s := fun _ _ => rfl
@[simp] theorem exec_groupRelease : ∀ gid s, exec (.groupRelease gid) s = execGroupRelease gid s := fun _ _ => rfl
@[simp] theorem exec_decantComplete : ∀ die entry failed s, exec (.decantComplete die entry failed) s = execDecantComplete die entry failed s := fun _ _ _ _ => rfl
@[simp] theorem exec_balancerQueueMove : ∀ ctx region die idx toDie s, exec (.balancerQueueMove ctx region die idx toDie) s = execBalancerQueueMove ctx region die idx toDie s := fun _ _ _ _ _ _ => rfl
@[simp] theorem exec_balancerMoveMark : ∀ gid toCore s, exec (.balancerMoveMark gid toCore) s = execBalancerMoveMark gid toCore s := fun _ _ _ => rfl
@[simp] theorem exec_balancerMoveSwap : ∀ gid s, exec (.balancerMoveSwap gid) s = execBalancerMoveSwap gid s := fun _ _ => rfl
@[simp] theorem exec_balancerMoveTimeout : ∀ gid s, exec (.balancerMoveTimeout gid) s = execBalancerMoveTimeout gid s := fun _ _ => rfl
@[simp] theorem exec_handlerStart : ∀ core s, exec (.handlerStart core) s = execHandlerStart core s := fun _ _ => rfl
@[simp] theorem exec_handlerWatchdogEscalation : ∀ core s, exec (.handlerWatchdogEscalation core) s = execHandlerWatchdogEscalation core s := fun _ _ => rfl
@[simp] theorem exec_faultRepairComplete : ∀ f s, exec (.faultRepairComplete f) s = execFaultRepairComplete f s := fun _ _ => rfl
@[simp] theorem exec_faultRepairTimeout : ∀ f s, exec (.faultRepairTimeout f) s = execFaultRepairTimeout f s := fun _ _ => rfl
@[simp] theorem exec_faultRecordReply : ∀ f ok s, exec (.faultRecordReply f ok) s = execFaultRecordReply f ok s := fun _ _ _ => rfl
@[simp] theorem exec_atsTranslationCompletion : ∀ f host s, exec (.atsTranslationCompletion f host) s = execAtsTranslationCompletion f host s := fun _ _ _ => rfl
@[simp] theorem exec_priPageResponse : ∀ f ok s, exec (.priPageResponse f ok) s = execPriPageResponse f ok s := fun _ _ _ => rfl
@[simp] theorem exec_atsInvalidateRequest : ∀ ctx page count s, exec (.atsInvalidateRequest ctx page count) s = execAtsInvalidateRequest ctx page count s := fun _ _ _ _ => rfl
@[simp] theorem exec_redundantCommitCompare : ∀ tid s, exec (.redundantCommitCompare tid) s = execRedundantCommitCompare tid s := fun _ _ => rfl
@[simp] theorem exec_redundantWaitTimeout : ∀ tid s, exec (.redundantWaitTimeout tid) s = execRedundantWaitTimeout tid s := fun _ _ => rfl
@[simp] theorem exec_preemptionSwap : ∀ core s, exec (.preemptionSwap core) s = execPreemptionSwap core s := fun _ _ => rfl
@[simp] theorem exec_swapResume : ∀ core s, exec (.swapResume core) s = execSwapResume core s := fun _ _ => rfl
@[simp] theorem exec_bankSpill : ∀ core s, exec (.bankSpill core) s = execBankSpill core s := fun _ _ => rfl
@[simp] theorem exec_bankLoad : ∀ core image s, exec (.bankLoad core image) s = execBankLoad core image s := fun _ _ _ => rfl
@[simp] theorem exec_bankRetention : ∀ core bank s, exec (.bankRetention core bank) s = execBankRetention core bank s := fun _ _ _ => rfl
@[simp] theorem exec_ckptImageWrite : ∀ core s, exec (.ckptImageWrite core) s = execCkptImageWrite core s := fun _ _ => rfl
@[simp] theorem exec_ckptTimeout : ∀ core s, exec (.ckptTimeout core) s = execCkptTimeout core s := fun _ _ => rfl
@[simp] theorem exec_memoryRequestAtHome : ∀ op lane o s, exec (.memoryRequestAtHome op lane o) s = execMemoryRequestAtHome op lane o s := fun _ _ _ _ => rfl
@[simp] theorem exec_homeFaultReplay : ∀ home s, exec (.homeFaultReplay home) s = execHomeFaultReplay home s := fun _ _ => rfl
@[simp] theorem exec_internalQueueResend : ∀ core home s, exec (.internalQueueResend core home) s = execInternalQueueResend core home s := fun _ _ _ => rfl
@[simp] theorem exec_scanCommandExecute : ∀ cmd picked s, exec (.scanCommandExecute cmd picked) s = execScanCommandExecute cmd picked s := fun _ _ _ => rfl
@[simp] theorem exec_pickCommandExecute : ∀ die s, exec (.pickCommandExecute die) s = execPickCommandExecute die s := fun _ _ => rfl
@[simp] theorem exec_channelRetirementRequest : ∀ channel s, exec (.channelRetirementRequest channel) s = execChannelRetirementRequest channel s := fun _ _ => rfl
@[simp] theorem exec_channelCopyDone : ∀ s, exec .channelCopyDone s = execChannelCopyDone s := fun _ => rfl
@[simp] theorem exec_channelSwitch : ∀ s, exec .channelSwitch s = execChannelSwitch s := fun _ => rfl
@[simp] theorem exec_hostSubmit : ∀ tag ctx addr die s, exec (.hostSubmit tag ctx addr die) s = execHostSubmit tag ctx addr die s := fun _ _ _ _ _ => rfl
@[simp] theorem exec_objectLoad : ∀ tag ctx addr acceptDownlevel requireSigned s, exec (.objectLoad tag ctx addr acceptDownlevel requireSigned) s = execObjectLoad tag ctx addr acceptDownlevel requireSigned s := fun _ _ _ _ _ _ => rfl
@[simp] theorem exec_objectUnload : ∀ tag ctx code s, exec (.objectUnload tag ctx code) s = execObjectUnload tag ctx code s := fun _ _ _ _ => rfl
@[simp] theorem exec_contextCreate : ∀ tag ctx pasid root regions rootRegion s, exec (.contextCreate tag ctx pasid root regions rootRegion) s = execContextCreate tag ctx pasid root regions rootRegion s := fun _ _ _ _ _ _ _ => rfl
@[simp] theorem exec_contextDestroy : ∀ tag ctx s, exec (.contextDestroy tag ctx) s = execContextDestroy tag ctx s := fun _ _ _ => rfl
@[simp] theorem exec_svnRaise : ∀ counter value signedOk s, exec (.svnRaise counter value signedOk) s = execSvnRaise counter value signedOk s := fun _ _ _ _ => rfl
@[simp] theorem exec_decodeTableUpdate : ∀ signedOk s, exec (.decodeTableUpdate signedOk) s = execDecodeTableUpdate signedOk s := fun _ _ => rfl
@[simp] theorem exec_keyInstall : ∀ keyid key signedOk s, exec (.keyInstall keyid key signedOk) s = execKeyInstall keyid key signedOk s := fun _ _ _ _ => rfl
@[simp] theorem exec_keyRemove : ∀ keyid signedOk s, exec (.keyRemove keyid signedOk) s = execKeyRemove keyid signedOk s := fun _ _ _ => rfl
@[simp] theorem exec_imageRestore : ∀ core place s, exec (.imageRestore core place) s = execImageRestore core place s := fun _ _ _ => rfl
@[simp] theorem exec_correlationRecordPeriodic : ∀ core s, exec (.correlationRecordPeriodic core) s = execCorrelationRecordPeriodic core s := fun _ _ => rfl
@[simp] theorem exec_firmwareHeartbeatLapse : ∀ fw s, exec (.firmwareHeartbeatLapse fw) s = execFirmwareHeartbeatLapse fw s := fun _ _ => rfl
@[simp] theorem exec_recoveryRead : ∀ addr s, exec (.recoveryRead addr) s = execRecoveryRead addr s := fun _ _ => rfl
@[simp] theorem exec_recoveryWrite : ∀ addr x s, exec (.recoveryWrite addr x) s = execRecoveryWrite addr x s := fun _ _ _ => rfl
@[simp] theorem exec_recoveryPlace : ∀ ctx addr die s, exec (.recoveryPlace ctx addr die) s = execRecoveryPlace ctx addr die s := fun _ _ _ _ => rfl
@[simp] theorem exec_recoveryReset : ∀ core s, exec (.recoveryReset core) s = execRecoveryReset core s := fun _ _ => rfl
@[simp] theorem exec_recoveryThaw : ∀ s, exec (.recoveryThaw) s = execRecoveryThaw s := fun _ => rfl
@[simp] theorem exec_getVersion : ∀ tag s, exec (.getVersion tag) s = execGetVersion tag s := fun _ _ => rfl
@[simp] theorem exec_getCapabilities : ∀ tag s, exec (.getCapabilities tag) s = execGetCapabilities tag s := fun _ _ => rfl
@[simp] theorem exec_negotiateAlgorithms : ∀ tag s, exec (.negotiateAlgorithms tag) s = execNegotiateAlgorithms tag s := fun _ _ => rfl
@[simp] theorem exec_getDigests : ∀ tag s, exec (.getDigests tag) s = execGetDigests tag s := fun _ _ => rfl
@[simp] theorem exec_getCertificate : ∀ tag s, exec (.getCertificate tag) s = execGetCertificate tag s := fun _ _ => rfl
@[simp] theorem exec_challenge : ∀ tag nonce s, exec (.challenge tag nonce) s = execChallenge tag nonce s := fun _ _ _ => rfl
@[simp] theorem exec_getMeasurements : ∀ tag block s, exec (.getMeasurements tag block) s = execGetMeasurements tag block s := fun _ _ _ => rfl
@[simp] theorem exec_powerLoss : ∀ s, exec .powerLoss s = execPowerLoss s := fun _ => rfl
@[simp] theorem exec_reset : ∀ sec others s, exec (.reset sec others) s = execReset sec others s := fun _ _ _ => rfl
@[simp] theorem exec_portEnable : ∀ p s, exec (.portEnable p) s = execPortEnable p s := fun _ _ => rfl
@[simp] theorem exec_portDisable : ∀ p s, exec (.portDisable p) s = execPortDisable p s := fun _ _ => rfl
@[simp] theorem exec_trainingAttemptEnd : ∀ p ok peer s, exec (.trainingAttemptEnd p ok peer) s = execTrainingAttemptEnd p ok peer s := fun _ _ _ _ => rfl
@[simp] theorem exec_portLockLoss : ∀ p s, exec (.portLockLoss p) s = execPortLockLoss p s := fun _ _ => rfl
@[simp] theorem exec_flitReceive : ∀ p f s, exec (.flitReceive p f) s = execFlitReceive p f s := fun _ _ _ => rfl
@[simp] theorem exec_peerHoldRelease : ∀ op lane s, exec (.peerHoldRelease op lane) s = execPeerHoldRelease op lane s := fun _ _ _ => rfl
@[simp] theorem exec_peerWindowWrite : ∀ w w0 w1 s, exec (.peerWindowWrite w w0 w1) s = execPeerWindowWrite w w0 w1 s := fun _ _ _ _ => rfl
@[simp] theorem exec_linkcfgWrite : ∀ x s, exec (.linkcfgWrite x) s = execLinkcfgWrite x s := fun _ _ => rfl
@[simp] theorem exec_msixUnmask : ∀ vec s, exec (.msixUnmask vec) s = execMsixUnmask vec s := fun _ _ => rfl
@[simp] theorem exec_deviceRegisterWrite : ∀ addr x s, exec (.deviceRegisterWrite addr x) s = execDeviceRegisterWrite addr x s := fun _ _ _ => rfl
@[simp] theorem exec_tileSpill : ∀ tile s, exec (.tileSpill tile) s = execTileSpill tile s := fun _ _ => rfl
@[simp] theorem exec_doeDiscovery : ∀ index s, exec (.doeDiscovery index) s = execDoeDiscovery index s := fun _ _ => rfl
@[simp] theorem exec_mailboxRead : ∀ mb s, exec (.mailboxRead mb) s = execMailboxRead mb s := fun _ _ => rfl

end Sys2Proof.Laws
end

