-- ==== Sys2Proof/Laws/Encode.lean ====
section
/-!
SUPPORT. One lemma for each arm of the encoder: the words of an instruction.
-/
namespace Sys2Proof.Laws
open Sys2Proof

@[simp] theorem encode_add : ∀ m d a b, encode (.add m d a b) = (encA 0x00 m.code d a b) := fun _ _ _ _ => rfl
@[simp] theorem encode_sub : ∀ m d a b, encode (.sub m d a b) = (encA 0x01 m.code d a b) := fun _ _ _ _ => rfl
@[simp] theorem encode_addc : ∀ m d a b, encode (.addc m d a b) = (encA 0x02 m.code d a b) := fun _ _ _ _ => rfl
@[simp] theorem encode_subb : ∀ m d a b, encode (.subb m d a b) = (encA 0x03 m.code d a b) := fun _ _ _ _ => rfl
@[simp] theorem encode_mul : ∀ m d a b, encode (.mul m d a b) = (encA 0x04 m.code d a b) := fun _ _ _ _ => rfl
@[simp] theorem encode_mulh : ∀ m d a b, encode (.mulh m d a b) = (encA 0x05 m.code d a b) := fun _ _ _ _ => rfl
@[simp] theorem encode_mad : ∀ m d a b, encode (.mad m d a b) = (encA 0x06 m.code d a b) := fun _ _ _ _ => rfl
@[simp] theorem encode_div : ∀ m d a b, encode (.div m d a b) = (encA 0x07 m.code d a b) := fun _ _ _ _ => rfl
@[simp] theorem encode_rem : ∀ m d a b, encode (.rem m d a b) = (encA 0x08 m.code d a b) := fun _ _ _ _ => rfl
@[simp] theorem encode_min : ∀ m d a b, encode (.min m d a b) = (encA 0x09 m.code d a b) := fun _ _ _ _ => rfl
@[simp] theorem encode_max : ∀ m d a b, encode (.max m d a b) = (encA 0x0A m.code d a b) := fun _ _ _ _ => rfl
@[simp] theorem encode_absd : ∀ m d a b, encode (.absd m d a b) = (encA 0x0B m.code d a b) := fun _ _ _ _ => rfl
@[simp] theorem encode_and : ∀ m d a b, encode (.and m d a b) = (encA 0x0C m.code d a b) := fun _ _ _ _ => rfl
@[simp] theorem encode_or : ∀ m d a b, encode (.or m d a b) = (encA 0x0D m.code d a b) := fun _ _ _ _ => rfl
@[simp] theorem encode_xor : ∀ m d a b, encode (.xor m d a b) = (encA 0x0E m.code d a b) := fun _ _ _ _ => rfl
@[simp] theorem encode_andn : ∀ m d a b, encode (.andn m d a b) = (encA 0x0F m.code d a b) := fun _ _ _ _ => rfl
@[simp] theorem encode_shl : ∀ m d a b, encode (.shl m d a b) = (encA 0x10 m.code d a b) := fun _ _ _ _ => rfl
@[simp] theorem encode_shr : ∀ m d a b, encode (.shr m d a b) = (encA 0x11 m.code d a b) := fun _ _ _ _ => rfl
@[simp] theorem encode_sar : ∀ m d a b, encode (.sar m d a b) = (encA 0x12 m.code d a b) := fun _ _ _ _ => rfl
@[simp] theorem encode_rot : ∀ m d a b, encode (.rot m d a b) = (encA 0x13 m.code d a b) := fun _ _ _ _ => rfl
@[simp] theorem encode_bfe : ∀ m d a b, encode (.bfe m d a b) = (encA 0x14 m.code d a b) := fun _ _ _ _ => rfl
@[simp] theorem encode_bfi : ∀ m d a b, encode (.bfi m d a b) = (encA 0x15 m.code d a b) := fun _ _ _ _ => rfl
@[simp] theorem encode_popc : ∀ m d a, encode (.popc m d a) = (encA1 0x16 m.code d a 0) := fun _ _ _ => rfl
@[simp] theorem encode_clz : ∀ m d a, encode (.clz m d a) = (encA1 0x17 m.code d a 0) := fun _ _ _ => rfl
@[simp] theorem encode_brev : ∀ m d a, encode (.brev m d a) = (encA1 0x18 m.code d a 0) := fun _ _ _ => rfl
@[simp] theorem encode_cmp : ∀ t a b, encode (.cmp t a b) = (encA0 0x19 t.code a b) := fun _ _ _ => rfl
@[simp] theorem encode_sel : ∀ c d a b, encode (.sel c d a b) = (encA 0x1A c.code d a b) := fun _ _ _ _ => rfl
@[simp] theorem encode_mov : ∀ m d a, encode (.mov m d a) = (encA1 0x1B m.code d a 0) := fun _ _ _ => rfl
@[simp] theorem encode_ext : ∀ m d a b, encode (.ext m d a b) = (encA 0x1C m.code d a b) := fun _ _ _ _ => rfl
@[simp] theorem encode_adds : ∀ m d a b, encode (.adds m d a b) = (encA 0x1D m.code d a b) := fun _ _ _ _ => rfl
@[simp] theorem encode_subs : ∀ m d a b, encode (.subs m d a b) = (encA 0x1E m.code d a b) := fun _ _ _ _ => rfl
@[simp] theorem encode_fadd : ∀ m d a b, encode (.fadd m d a b) = (encA 0x20 m.code d a b) := fun _ _ _ _ => rfl
@[simp] theorem encode_fsub : ∀ m d a b, encode (.fsub m d a b) = (encA 0x21 m.code d a b) := fun _ _ _ _ => rfl
@[simp] theorem encode_fmul : ∀ m d a b, encode (.fmul m d a b) = (encA 0x22 m.code d a b) := fun _ _ _ _ => rfl
@[simp] theorem encode_ffma : ∀ m d a b, encode (.ffma m d a b) = (encA 0x23 m.code d a b) := fun _ _ _ _ => rfl
@[simp] theorem encode_fmin : ∀ m d a b, encode (.fmin m d a b) = (encA 0x24 m.code d a b) := fun _ _ _ _ => rfl
@[simp] theorem encode_fmax : ∀ m d a b, encode (.fmax m d a b) = (encA 0x25 m.code d a b) := fun _ _ _ _ => rfl
@[simp] theorem encode_fcmp : ∀ t a b, encode (.fcmp t a b) = (encA0 0x26 t.code a b) := fun _ _ _ => rfl
@[simp] theorem encode_fdiv : ∀ m d a b, encode (.fdiv m d a b) = (encA 0x27 m.code d a b) := fun _ _ _ _ => rfl
@[simp] theorem encode_fsqrt : ∀ m d a, encode (.fsqrt m d a) = (encA1 0x28 m.code d a 0) := fun _ _ _ => rfl
@[simp] theorem encode_fsfu : ∀ f d a, encode (.fsfu f d a) = (encA1 0x29 f.code d a 0) := fun _ _ _ => rfl
@[simp] theorem encode_fclass : ∀ t d a, encode (.fclass t d a) = (encA1 0x2A t.code d a 0) := fun _ _ _ => rfl
@[simp] theorem encode_cvt : ∀ r c d a, encode (.cvt r c d a) = (encA1 0x2B r.code d a (c.val * 8)) := fun _ _ _ _ => rfl
@[simp] theorem encode_dadd : ∀ cc d a b, encode (.dadd cc d a b) = (encA 0x2C (b2n cc * 4) d a b) := fun _ _ _ _ => rfl
@[simp] theorem encode_dmul : ∀ cc d a b, encode (.dmul cc d a b) = (encA 0x2D (b2n cc * 4) d a b) := fun _ _ _ _ => rfl
@[simp] theorem encode_dfma : ∀ cc d a b, encode (.dfma cc d a b) = (encA 0x2E (b2n cc * 4) d a b) := fun _ _ _ _ => rfl
@[simp] theorem encode_dcmp : ∀ a b, encode (.dcmp a b) = (encA0 0x2F 0 a b) := fun _ _ => rfl
@[simp] theorem encode_quant : ∀ t d a b, encode (.quant t d a b) = (encA 0x30 t.code d a b) := fun _ _ _ _ => rfl
@[simp] theorem encode_deq : ∀ t d a b, encode (.deq t d a b) = (encA 0x31 t.code d a b) := fun _ _ _ _ => rfl
@[simp] theorem encode_pack : ∀ d a, encode (.pack d a) = (encA1 0x32 0 d a 0) := fun _ _ => rfl
@[simp] theorem encode_unpk : ∀ d a, encode (.unpk d a) = (encA1 0x33 0 d a 0) := fun _ _ => rfl
@[simp] theorem encode_idot4 : ∀ k d a b, encode (.idot4 k d a b) = (encA 0x34 k.code d a b) := fun _ _ _ _ => rfl
@[simp] theorem encode_fdot2 : ∀ k d a b, encode (.fdot2 k d a b) = (encA 0x35 k.code d a b) := fun _ _ _ _ => rfl
@[simp] theorem encode_shfl : ∀ m d a b, encode (.shfl m d a b) = (encA 0x38 m.code d a b) := fun _ _ _ _ => rfl
@[simp] theorem encode_vote_any : ∀ d a, encode (.vote .any d a) = (encA1 0x39 0 d a 0) := fun _ _ => rfl
@[simp] theorem encode_vote_all : ∀ d a, encode (.vote .all d a) = (encA1 0x39 1 d a 0) := fun _ _ => rfl
@[simp] theorem encode_vote_ballot : ∀ b d a, encode (.vote (.ballot b) d a) = (encA 0x39 2 d a b) := fun _ _ _ => rfl
@[simp] theorem encode_vote_count : ∀ d a, encode (.vote .count d a) = (encA1 0x39 3 d a 0) := fun _ _ => rfl
@[simp] theorem encode_vote_eq : ∀ d a, encode (.vote .eq d a) = (encA1 0x39 4 d a 0) := fun _ _ => rfl
@[simp] theorem encode_rdfirst : ∀ d a, encode (.rdfirst d a) = (encA1 0x3A 0 d a 0) := fun _ _ => rfl
@[simp] theorem encode_rdlane : ∀ d a b, encode (.rdlane d a b) = (encA 0x3B 0 d a b) := fun _ _ _ => rfl
@[simp] theorem encode_wrlane : ∀ d a b, encode (.wrlane d a b) = (encA 0x3C 0 d a b) := fun _ _ _ => rfl
@[simp] theorem encode_ccmovRd : ∀ d, encode (.ccmovRd d) = ([asmAC 0 0x3D 0 d.code 0 0]) := fun _ => rfl
@[simp] theorem encode_ccmovWr : ∀ a, encode (.ccmovWr a) = (asmAC 0 0x3D 1 0 a.code 0 :: a.lits) := fun _ => rfl
@[simp] theorem encode_addi : ∀ d a imm, encode (.addi d a imm) = (encB 0x00 d a imm.toNat) := fun _ _ _ => rfl
@[simp] theorem encode_andi : ∀ d a imm, encode (.andi d a imm) = (encB 0x01 d a imm.toNat) := fun _ _ _ => rfl
@[simp] theorem encode_ori : ∀ d a imm, encode (.ori d a imm) = (encB 0x02 d a imm.toNat) := fun _ _ _ => rfl
@[simp] theorem encode_xori : ∀ d a imm, encode (.xori d a imm) = (encB 0x03 d a imm.toNat) := fun _ _ _ => rfl
@[simp] theorem encode_shli : ∀ d a sh, encode (.shli d a sh) = (encB 0x04 d a sh.toNat) := fun _ _ _ => rfl
@[simp] theorem encode_shri : ∀ d a sh, encode (.shri d a sh) = (encB 0x05 d a sh.toNat) := fun _ _ _ => rfl
@[simp] theorem encode_sari : ∀ d a sh, encode (.sari d a sh) = (encB 0x06 d a sh.toNat) := fun _ _ _ => rfl
@[simp] theorem encode_cmpi : ∀ a imm, encode (.cmpi a imm) = (asmB 0x07 0 a.code imm.toNat :: a.lits) := fun _ _ => rfl
@[simp] theorem encode_movi : ∀ d imm, encode (.movi d imm) = ([asmB 0x08 d.code 0 imm.toNat]) := fun _ _ => rfl
@[simp] theorem encode_movhi : ∀ d a h, encode (.movhi d a h) = (encB 0x09 d a h.toNat) := fun _ _ _ => rfl
@[simp] theorem encode_brc : ∀ c off, encode (.brc c off) = ([asmB 0x0A c.code 0 off.toNat]) := fun _ _ => rfl
@[simp] theorem encode_jmp : ∀ off, encode (.jmp off) = ([asmB 0x0B 0 0 off.toNat]) := fun _ => rfl
@[simp] theorem encode_call : ∀ off, encode (.call off) = ([asmB 0x0C 0 0 off.toNat]) := fun _ => rfl
@[simp] theorem encode_ret : encode (.ret) = ([asmB 0x0D 0 0 0]) := rfl
@[simp] theorem encode_joinat : ∀ off, encode (.joinat off) = ([asmB 0x0E 0 0 off.toNat]) := fun _ => rfl
@[simp] theorem encode_join : encode (.join) = ([asmB 0x0F 0 0 0]) := rfl
@[simp] theorem encode_loop : ∀ a len w, encode (.loop a len w) = (asmB 0x10 0 a.code len.toNat :: w :: a.lits) := fun _ _ _ => rfl
@[simp] theorem encode_winbase : ∀ k, encode (.winbase k) = ([asmB 0x11 0 0 k.toNat]) := fun _ => rfl
@[simp] theorem encode_curve : ∀ d p acc, encode (.curve d p acc) = ([asmB 0x12 d.code 0 (p.toNat * 64 + acc.toNat)]) := fun _ _ _ => rfl
@[simp] theorem encode_mhint : ∀ n, encode (.mhint n) = ([asmB 0x13 0 0 n.toNat]) := fun _ => rfl
@[simp] theorem encode_trap : ∀ n, encode (.trap n) = ([asmB 0x14 0 0 n.toNat]) := fun _ => rfl
@[simp] theorem encode_brkpt : ∀ n, encode (.brkpt n) = ([asmB 0x15 0 0 n.toNat]) := fun _ => rfl
@[simp] theorem encode_exit : encode (.exit) = ([asmB 0x16 0 0 0]) := rfl
@[simp] theorem encode_nop : encode (.nop) = ([asmB 0x17 0 0 0]) := rfl
@[simp] theorem encode_lds : ∀ d a imm, encode (.lds d a imm) = (encB 0x18 d a imm.toNat) := fun _ _ _ => rfl
@[simp] theorem encode_sts : ∀ x a imm, encode (.sts x a imm) = (asmB 0x19 x.code a.code imm.toNat :: (x.lits ++ a.lits)) := fun _ _ _ => rfl
@[simp] theorem encode_ldf : ∀ d imm, encode (.ldf d imm) = ([asmB 0x1A d.code 0 imm.toNat]) := fun _ _ => rfl
@[simp] theorem encode_jmpr : ∀ a off, encode (.jmpr a off) = (asmB 0x1B 0 a.code off.toNat :: a.lits) := fun _ _ => rfl
@[simp] theorem encode_ld : ∀ w d a b, encode (.ld w d a b) = (encC 0x00 w.code d a b) := fun _ _ _ _ => rfl
@[simp] theorem encode_st : ∀ w x a b, encode (.st w x a b) = (encC3 0x01 w.code x a b) := fun _ _ _ _ => rfl
@[simp] theorem encode_ldacq : ∀ w d a obs, encode (.ldacq w d a obs) = (encC1 0x02 w.code d a obs.toNat) := fun _ _ _ _ => rfl
@[simp] theorem encode_strel : ∀ w x a obs, encode (.strel w x a obs) = (asmAC 2 0x03 w.code x.code a.code obs.toNat :: (x.lits ++ a.lits)) := fun _ _ _ _ => rfl
@[simp] theorem encode_ldstr : ∀ w d a b, encode (.ldstr w d a b) = (encC 0x04 w.code d a b) := fun _ _ _ _ => rfl
@[simp] theorem encode_ststr : ∀ w x a b, encode (.ststr w x a b) = (encC3 0x05 w.code x a b) := fun _ _ _ _ => rfl
@[simp] theorem encode_atom : ∀ o d a obs, encode (.atom o d a obs) = (encC1 0x06 o.code d a obs.toNat) := fun _ _ _ _ => rfl
@[simp] theorem encode_atom64 : ∀ o d a obs, encode (.atom64 o d a obs) = (encC1 0x07 o.code d a obs.toNat) := fun _ _ _ _ => rfl
@[simp] theorem encode_pref : ∀ k a b, encode (.pref k a b) = (asmAC 2 0x08 (b2n k) 0 a.code b.code :: (a.lits ++ b.lits)) := fun _ _ _ => rfl
@[simp] theorem encode_fence : ∀ k obs, encode (.fence k obs) = ([asmAC 2 0x09 k.code 0 0 obs.toNat]) := fun _ _ => rfl
@[simp] theorem encode_qfence : ∀ k qm, encode (.qfence k qm) = ([asmAC 2 0x0A (b2n k) 0 0 qm.toNat]) := fun _ _ => rfl
@[simp] theorem encode_talloc : ∀ z l d sh, encode (.talloc z l d sh) = ([asmAC 2 0x0B (b2n z * 4 + l.code) d.code 0 sh.val]) := fun _ _ _ _ => rfl
@[simp] theorem encode_tfree : ∀ a, encode (.tfree a) = (asmAC 2 0x0C 0 0 a.code 0 :: a.lits) := fun _ => rfl
@[simp] theorem encode_trd : ∀ w q d a b, encode (.trd w q d a b) = (encC 0x0D (b2n w * 4 + q.code) d a b) := fun _ _ _ _ _ => rfl
@[simp] theorem encode_twr : ∀ w q x a b, encode (.twr w q x a b) = (encC3 0x0E (b2n w * 4 + q.code) x a b) := fun _ _ _ _ _ => rfl
@[simp] theorem encode_tstat : ∀ d a, encode (.tstat d a) = (encC1 0x0F 0 d a 0) := fun _ _ => rfl
@[simp] theorem encode_copy : ∀ xf cq a b, encode (.copy xf cq a b) = (asmAC 2 0x10 (b2n xf * 4 + cq.val) 0 a.code b.code :: (a.lits ++ b.lits)) := fun _ _ _ _ => rfl
@[simp] theorem encode_setshape : ∀ k d a p sh, encode (.setshape k d a p sh) = (encC1 0x11 k.code d a (p.code * 4 + sh.val)) := fun _ _ _ _ _ => rfl
@[simp] theorem encode_rdshape : ∀ d sh, encode (.rdshape d sh) = ([asmAC 2 0x12 0 d.code 0 sh.val]) := fun _ _ => rfl
@[simp] theorem encode_gang : ∀ a, encode (.gang a) = (asmAC 2 0x13 0 0 a.code 0 :: a.lits) := fun _ => rfl
@[simp] theorem encode_mma : ∀ g sh d a b mode idx fmt, encode (.mma g sh d a b mode idx fmt) = (asmAC 2 0x14 (b2n g * 4 + sh.val) d.toNat a.code b.code :: BitVec.ofNat 32 (mode.code * 16384 + idx.toNat * 128 + fmt.toNat) :: (a.lits ++ b.lits)) := fun _ _ _ _ _ _ _ _ => rfl
@[simp] theorem encode_mdrain : ∀ add sh d a b, encode (.mdrain add sh d a b) = (encC3 0x15 (b2n add * 4 + sh.val) d a b) := fun _ _ _ _ _ => rfl
@[simp] theorem encode_mzero : ∀ sh a, encode (.mzero sh a) = (asmAC 2 0x16 sh.val 0 a.code 0 :: a.lits) := fun _ _ => rfl
@[simp] theorem encode_binit : ∀ d a b, encode (.binit d a b) = (encC 0x17 0 d a b) := fun _ _ _ => rfl
@[simp] theorem encode_barv : ∀ w d a, encode (.barv w d a) = (encC1 0x18 (b2n w) d a 0) := fun _ _ _ => rfl
@[simp] theorem encode_bexp : ∀ a b, encode (.bexp a b) = (asmAC 2 0x19 0 0 a.code b.code :: (a.lits ++ b.lits)) := fun _ _ => rfl
@[simp] theorem encode_bwait : ∀ d a b, encode (.bwait d a b) = (encC 0x1A 0 d a b) := fun _ _ _ => rfl
@[simp] theorem encode_btest : ∀ d a b, encode (.btest d a b) = (encC 0x1B 0 d a b) := fun _ _ _ => rfl
@[simp] theorem encode_bstat : ∀ h d a, encode (.bstat h d a) = (encC1 0x1C (b2n h) d a 0) := fun _ _ _ => rfl
@[simp] theorem encode_enq : ∀ d a, encode (.enq d a) = (encC1 0x1D 0 d a 0) := fun _ _ => rfl
@[simp] theorem encode_cont : ∀ a, encode (.cont a) = (asmAC 2 0x1E 0 0 a.code 0 :: a.lits) := fun _ => rfl
@[simp] theorem encode_pusht : ∀ d a, encode (.pusht d a) = (encC1 0x1F 0 d a 0) := fun _ _ => rfl
@[simp] theorem encode_popt : ∀ d, encode (.popt d) = ([asmAC 2 0x20 0 d.code 0 0]) := fun _ => rfl
@[simp] theorem encode_steal : ∀ d a, encode (.steal d a) = (encC1 0x21 0 d a 0) := fun _ _ => rfl
@[simp] theorem encode_pick_some : ∀ o d a b, encode (.pick o d a (some b)) = (encC3 0x22 (4 + o.code) d a b) := fun _ _ _ _ => rfl
@[simp] theorem encode_pick_none : ∀ o d a, encode (.pick o d a none) = (asmAC 2 0x22 o.code d.code a.code 0 :: (d.lits ++ a.lits)) := fun _ _ _ => rfl
@[simp] theorem encode_scan_some : ∀ a b, encode (.scan a (some b)) = (asmAC 2 0x23 4 0 a.code b.code :: (a.lits ++ b.lits)) := fun _ _ => rfl
@[simp] theorem encode_scan_none : ∀ a, encode (.scan a none) = (asmAC 2 0x23 0 0 a.code 0 :: a.lits) := fun _ => rfl
@[simp] theorem encode_rdsr_imm : ∀ d n, encode (.rdsr d (.imm n)) = ([asmAC 2 0x24 0 d.code (n.toNat / 128) (n.toNat % 128)]) := fun _ _ => rfl
@[simp] theorem encode_rdsr_ind : ∀ d a, encode (.rdsr d (.ind a)) = (encC1 0x24 1 d a 0) := fun _ _ => rfl
@[simp] theorem encode_wrsr_imm : ∀ x n, encode (.wrsr x (.imm n)) = (asmAC 2 0x25 0 x.code (n.toNat / 128) (n.toNat % 128) :: x.lits) := fun _ _ => rfl
@[simp] theorem encode_wrsr_ind : ∀ x a, encode (.wrsr x (.ind a)) = (asmAC 2 0x25 1 x.code a.code 0 :: (x.lits ++ a.lits)) := fun _ _ => rfl
@[simp] theorem encode_dbgrd : ∀ p d a, encode (.dbgrd p d a) = (encC1 0x26 (b2n p) d a 0) := fun _ _ _ => rfl
@[simp] theorem encode_dbgwr : ∀ d a b, encode (.dbgwr d a b) = (encC 0x27 0 d a b) := fun _ _ _ => rfl
@[simp] theorem encode_tresume : ∀ k d a, encode (.tresume k d a) = (encC1 0x28 (b2n k) d a 0) := fun _ _ _ => rfl
@[simp] theorem encode_evsel : ∀ k a b, encode (.evsel k a b) = (asmAC 2 0x29 (b2n k) 0 a.code b.code :: (a.lits ++ b.lits)) := fun _ _ _ => rfl
@[simp] theorem encode_evrd : ∀ k d a, encode (.evrd k d a) = (encC1 0x2A (b2n k) d a 0) := fun _ _ _ => rfl
@[simp] theorem encode_ckpt : ∀ d a b, encode (.ckpt d a b) = (encC 0x2B 0 d a b) := fun _ _ _ => rfl
@[simp] theorem encode_tlbinv : ∀ k d a b, encode (.tlbinv k d a b) = (encC3 0x2C k.code d a b) := fun _ _ _ _ => rfl
@[simp] theorem encode_deadrg : ∀ k d a b, encode (.deadrg k d a b) = (encC 0x2D k.code d a b) := fun _ _ _ _ => rfl
@[simp] theorem encode_rdcurve : ∀ d, encode (.rdcurve d) = ([asmAC 2 0x2E 0 d.code 0 0]) := fun _ => rfl
@[simp] theorem encode_binv : ∀ a, encode (.binv a) = (asmAC 2 0x2F 0 0 a.code 0 :: a.lits) := fun _ => rfl
@[simp] theorem encode_clauseStart : ∀ h, encode (.clauseStart h) = ([BitVec.ofNat 32 (3 * 2 ^ 30 + h.wait.toNat * 2 ^ 18 + h.setA.toNat * 2 ^ 14 + h.setB.toNat * 2 ^ 10 + h.len.toNat * 2 ^ 6 + h.bt.toNat * 2 ^ 4 + h.hint.toNat * 2 ^ 2 + h.rsv.toNat)]) := fun _ => rfl

end Sys2Proof.Laws
end

