-- ==== Sys2Proof/Laws/Sparse.lean ====
section
/-!
SUPPORT. The laws of association lists and sparse stores: reading after writing, and that every operation keeps the
canonical form.
-/
namespace Sys2Proof.Laws
open Sys2Proof.Machine

variable {α : Type} {w : Nat}

/-! ## Association lists -/

@[simp] theorem alook_nil (k : Nat) : alook k ([] : List (Nat × α)) = none := rfl

theorem alook_ains (k j : Nat) (v : α) (m : List (Nat × α)) (h : alook k m = none) :
    alook j (ains k v m) = if j = k then some v else alook j m := by
  induction m with
  | nil => simp [ains, alook]
  | cons e r ih =>
    obtain ⟨k', v'⟩ := e
    simp only [alook] at h
    split at h
    · cases h
    · rename_i hk
      simp only [ains]
      split
      · simp [alook]
      · simp only [alook, ih h]
        split <;> split <;> simp_all

theorem alook_adel (k j : Nat) (m : List (Nat × α)) : alook j (adel k m) = if j = k then none else alook j m := by
  induction m with
  | nil => simp [adel, alook]
  | cons e r ih =>
    obtain ⟨k', v'⟩ := e
    simp only [adel]
    split
    · subst_vars
      rw [ih]
      split <;> simp_all [alook]
    · simp only [alook, ih]
      split <;> split <;> simp_all

/-- Reading after setting: the value set at its key, and what stood before at every other. -/
theorem alook_aset (k j : Nat) (v : α) (m : List (Nat × α)) : alook j (aset k v m) = if j = k then some v else alook j m := by
  unfold aset
  rw [alook_ains _ _ _ _ (by simp [alook_adel]), alook_adel]
  split <;> simp_all

@[simp] theorem alook_aset_same (k : Nat) (v : α) (m : List (Nat × α)) : alook k (aset k v m) = some v := by
  simp [alook_aset]

theorem alook_aset_ne {k j : Nat} (h : j ≠ k) (v : α) (m : List (Nat × α)) : alook j (aset k v m) = alook j m := by
  simp [alook_aset, h]

theorem alook_amap (f : Nat → α → α) (k : Nat) (m : List (Nat × α)) : alook k (amap f m) = (alook k m).map (f k) := by
  induction m with
  | nil => rfl
  | cons e r ih =>
    obtain ⟨k', v'⟩ := e
    simp only [amap, List.map_cons, alook]
    split
    · simp_all
    · exact ih

/-! ## Rising keys -/

theorem risingFrom_mono {lo lo' : Nat} (h : lo' ≤ lo) (m : List (Nat × α)) (hm : risingFrom lo m = true) : risingFrom lo' m = true := by
  cases m with
  | nil => rfl
  | cons e r =>
    obtain ⟨k, v⟩ := e
    simp only [risingFrom, Bool.and_eq_true, Nat.ble_eq] at hm ⊢
    exact ⟨by omega, hm.2⟩

theorem risingFrom_filter (p : Nat × α → Bool) (lo : Nat) (m : List (Nat × α)) (hm : risingFrom lo m = true) :
    risingFrom lo (m.filter p) = true := by
  induction m generalizing lo with
  | nil => rfl
  | cons e r ih =>
    obtain ⟨k, v⟩ := e
    simp only [risingFrom, Bool.and_eq_true, Nat.ble_eq] at hm
    rw [List.filter_cons]
    split
    · simp only [risingFrom, Bool.and_eq_true, Nat.ble_eq]
      exact ⟨hm.1, ih _ hm.2⟩
    · exact ih _ (risingFrom_mono (by omega) r hm.2)

theorem adel_eq_filter (k : Nat) (m : List (Nat × α)) : adel k m = m.filter fun e => decide (k ≠ e.1) := by
  induction m with
  | nil => rfl
  | cons e r ih =>
    obtain ⟨k', v⟩ := e
    simp only [adel, List.filter_cons]
    split <;> simp_all

theorem risingFrom_ains (k : Nat) (v : α) (lo : Nat) (m : List (Nat × α)) (hk : lo ≤ k) (hn : ∀ e ∈ m, e.1 ≠ k)
    (hm : risingFrom lo m = true) : risingFrom lo (ains k v m) = true := by
  induction m generalizing lo with
  | nil => simp [ains, risingFrom, hk]
  | cons e r ih =>
    obtain ⟨k', v'⟩ := e
    simp only [risingFrom, Bool.and_eq_true, Nat.ble_eq] at hm
    have hne : k' ≠ k := hn (k', v') (by simp)
    simp only [ains]
    split
    · simp only [risingFrom, Bool.and_eq_true, Nat.ble_eq]
      exact ⟨hk, by omega, hm.2⟩
    · simp only [risingFrom, Bool.and_eq_true, Nat.ble_eq]
      exact ⟨hm.1, ih (k' + 1) (by omega) (fun e he => hn e (by simp [he])) hm.2⟩

/-- Setting a key keeps the keys rising. -/
theorem risingFrom_aset (k : Nat) (v : α) (m : List (Nat × α)) (hm : risingFrom 0 m = true) : risingFrom 0 (aset k v m) = true := by
  unfold aset
  refine risingFrom_ains k v 0 _ (by omega) ?_ ?_
  · intro e he
    rw [adel_eq_filter] at he
    simp at he
    exact fun h => he.2 h.symm
  · rw [adel_eq_filter]
    exact risingFrom_filter _ _ _ hm

/-! ## Sparse stores -/

@[simp] theorem sget_nil (k : Nat) : sget ([] : List (Nat × BitVec w)) k = 0 := rfl

/-- Reading after writing: the value written at its key, and what stood before at every other. -/
theorem sget_sset (m : List (Nat × BitVec w)) (k j : Nat) (v : BitVec w) : sget (sset m k v) j = if j = k then v else sget m j := by
  by_cases hv : v = 0#w <;> by_cases hj : j = k <;> simp [sget, sset, hv, hj, alook_adel, alook_aset]

@[simp] theorem sget_sset_same (m : List (Nat × BitVec w)) (k : Nat) (v : BitVec w) : sget (sset m k v) k = v := by
  simp [sget_sset]

theorem sget_sset_ne {k j : Nat} (h : j ≠ k) (m : List (Nat × BitVec w)) (v : BitVec w) : sget (sset m k v) j = sget m j := by
  simp [sget_sset, h]

theorem mem_ains {k : Nat} {v : α} {m : List (Nat × α)} {e : Nat × α} (h : e ∈ ains k v m) : e = (k, v) ∨ e ∈ m := by
  induction m with
  | nil => simpa [ains] using h
  | cons f r ih =>
    obtain ⟨k', v'⟩ := f
    simp only [ains] at h
    split at h
    · simpa using h
    · rcases List.mem_cons.1 h with h1 | h1
      · simp [h1]
      · rcases ih h1 with h2 | h2 <;> simp [h2]

/-- The canonical form is kept by a write. -/
theorem swf_sset (m : List (Nat × BitVec w)) (k : Nat) (v : BitVec w) (h : swf m = true) : swf (sset m k v) = true := by
  simp only [swf, Bool.and_eq_true, List.all_eq_true] at h ⊢
  unfold sset
  split
  · rw [adel_eq_filter]
    exact ⟨risingFrom_filter _ _ _ h.1, fun e he => h.2 e (List.mem_of_mem_filter he)⟩
  · refine ⟨risingFrom_aset k v m h.1, fun e he => ?_⟩
    rcases mem_ains he with h1 | h1
    · simpa [h1] using ‹¬v = 0›
    · rw [adel_eq_filter] at h1
      exact h.2 e (List.mem_of_mem_filter h1)

/-- The canonical form is kept by clearing a range. -/
theorem swf_sclear (m : List (Nat × BitVec w)) (lo hi : Nat) (h : swf m = true) : swf (sclear m lo hi) = true := by
  simp only [swf, Bool.and_eq_true, List.all_eq_true] at h ⊢
  exact ⟨risingFrom_filter _ _ _ h.1, fun e he => h.2 e (List.mem_of_mem_filter he)⟩

/-- The canonical form is kept by writing a byte string. -/
theorem swf_putBytes (m : List (Nat × Byte)) (a : Nat) (bs : List Byte) (h : swf m = true) : swf (putBytes m a bs) = true := by
  induction bs generalizing m a with
  | nil => exact h
  | cons b r ih => exact ih _ _ (swf_sset m a b h)

/-- Nothing is listed below the first key. -/
theorem alook_ge {m : List (Nat × α)} {lo k : Nat} (h : risingFrom lo m = true) (hk : k < lo) : alook k m = none := by
  induction m generalizing lo with
  | nil => rfl
  | cons e r ih =>
    obtain ⟨k', v⟩ := e
    simp only [risingFrom, Bool.and_eq_true, Nat.ble_eq] at h
    simp only [alook]
    rw [if_neg (by omega)]
    exact ih h.2 (by omega)

/-- A byte of a written byte string, and every byte outside it. -/
theorem sget_putBytes (m : List (Nat × Byte)) (a : Nat) (bs : List Byte) (k : Nat) :
    sget (putBytes m a bs) k = if a ≤ k ∧ k < a + bs.length then bs.getD (k - a) 0 else sget m k := by
  induction bs generalizing m a with
  | nil =>
    have : ¬(a ≤ k ∧ k < a) := by omega
    simp [putBytes, this]
  | cons b r ih =>
    rw [putBytes, ih]
    simp only [List.length_cons]
    by_cases h1 : a + 1 ≤ k ∧ k < a + 1 + r.length
    · have h2 : a ≤ k ∧ k < a + (r.length + 1) := by omega
      rw [if_pos h1, if_pos h2]
      obtain ⟨d, rfl⟩ : ∃ d, k = a + 1 + d := ⟨k - (a + 1), by omega⟩
      have e1 : a + 1 + d - (a + 1) = d := by omega
      have e2 : a + 1 + d - a = d + 1 := by omega
      rw [e1, e2]
      simp
    · rw [if_neg h1, sget_sset]
      by_cases h3 : k = a
      · subst h3
        simp
      · have h2 : ¬(a ≤ k ∧ k < a + (r.length + 1)) := by omega
        rw [if_neg h2, if_neg h3]

@[simp] theorem leBytes_length (x n : Nat) : (leBytes x n).length = n := by
  induction n generalizing x with
  | zero => rfl
  | succ n ih => simp [leBytes, ih]

end Sys2Proof.Laws
end

