-- ==== Sys2Proof/Laws/State.lean ====
section
/-!
SUPPORT. One lemma for each field and each named update of the state and of a team: what the update leaves as it was, and
what it writes.
-/
namespace Sys2Proof.Laws
open Sys2Proof Sys2Proof.Machine

/-! ## `State.setCore` -/

@[simp] theorem setCore_cur (s : State) (c : Nat) (x : CoreSt) : (s.setCore c x).cur = s.cur := rfl
@[simp] theorem setCore_agenda (s : State) (c : Nat) (x : CoreSt) : (s.setCore c x).agenda = s.agenda := rfl
@[simp] theorem setCore_nextId (s : State) (c : Nat) (x : CoreSt) : (s.setCore c x).nextId = s.nextId := rfl
@[simp] theorem setCore_freeN (s : State) (c : Nat) (x : CoreSt) : (s.setCore c x).freeN = s.freeN := rfl
@[simp] theorem setCore_clock (s : State) (c : Nat) (x : CoreSt) : (s.setCore c x).clock = s.clock := rfl
@[simp] theorem setCore_past (s : State) (c : Nat) (x : CoreSt) : (s.setCore c x).past = s.past := rfl
@[simp] theorem setCore_order (s : State) (c : Nat) (x : CoreSt) : (s.setCore c x).order = s.order := rfl
@[simp] theorem setCore_sfences (s : State) (c : Nat) (x : CoreSt) : (s.setCore c x).sfences = s.sfences := rfl
@[simp] theorem setCore_seen (s : State) (c : Nat) (x : CoreSt) : (s.setCore c x).seen = s.seen := rfl
@[simp] theorem setCore_part (s : State) (c : Nat) (x : CoreSt) : (s.setCore c x).part = s.part := rfl
@[simp] theorem setCore_mem (s : State) (c : Nat) (x : CoreSt) : (s.setCore c x).mem = s.mem := rfl
@[simp] theorem setCore_hostMem (s : State) (c : Nat) (x : CoreSt) : (s.setCore c x).hostMem = s.hostMem := rfl
@[simp] theorem setCore_peerMem (s : State) (c : Nat) (x : CoreSt) : (s.setCore c x).peerMem = s.peerMem := rfl
@[simp] theorem setCore_devRegs (s : State) (c : Nat) (x : CoreSt) : (s.setCore c x).devRegs = s.devRegs := rfl
@[simp] theorem setCore_poison (s : State) (c : Nat) (x : CoreSt) : (s.setCore c x).poison = s.poison := rfl
@[simp] theorem setCore_dead (s : State) (c : Nat) (x : CoreSt) : (s.setCore c x).dead = s.dead := rfl
@[simp] theorem setCore_t1size (s : State) (c : Nat) (x : CoreSt) : (s.setCore c x).t1size = s.t1size := rfl
@[simp] theorem setCore_retire (s : State) (c : Nat) (x : CoreSt) : (s.setCore c x).retire = s.retire := rfl
@[simp] theorem setCore_retired (s : State) (c : Nat) (x : CoreSt) : (s.setCore c x).retired = s.retired := rfl
@[simp] theorem setCore_tlb (s : State) (c : Nat) (x : CoreSt) : (s.setCore c x).tlb = s.tlb := rfl
@[simp] theorem setCore_atc (s : State) (c : Nat) (x : CoreSt) : (s.setCore c x).atc = s.atc := rfl
@[simp] theorem setCore_teams (s : State) (c : Nat) (x : CoreSt) : (s.setCore c x).teams = s.teams := rfl
@[simp] theorem setCore_ctls (s : State) (c : Nat) (x : CoreSt) : (s.setCore c x).ctls = s.ctls := rfl
@[simp] theorem setCore_groups (s : State) (c : Nat) (x : CoreSt) : (s.setCore c x).groups = s.groups := rfl
@[simp] theorem setCore_launches (s : State) (c : Nat) (x : CoreSt) : (s.setCore c x).launches = s.launches := rfl
@[simp] theorem setCore_queues (s : State) (c : Nat) (x : CoreSt) : (s.setCore c x).queues = s.queues := rfl
@[simp] theorem setCore_joins (s : State) (c : Nat) (x : CoreSt) : (s.setCore c x).joins = s.joins := rfl
@[simp] theorem setCore_bars (s : State) (c : Nat) (x : CoreSt) : (s.setCore c x).bars = s.bars := rfl
@[simp] theorem setCore_tiles (s : State) (c : Nat) (x : CoreSt) : (s.setCore c x).tiles = s.tiles := rfl
@[simp] theorem setCore_pend (s : State) (c : Nat) (x : CoreSt) : (s.setCore c x).pend = s.pend := rfl
@[simp] theorem setCore_copies (s : State) (c : Nat) (x : CoreSt) : (s.setCore c x).copies = s.copies := rfl
@[simp] theorem setCore_mqs (s : State) (c : Nat) (x : CoreSt) : (s.setCore c x).mqs = s.mqs := rfl
@[simp] theorem setCore_cmds (s : State) (c : Nat) (x : CoreSt) : (s.setCore c x).cmds = s.cmds := rfl
@[simp] theorem setCore_dies (s : State) (c : Nat) (x : CoreSt) : (s.setCore c x).dies = s.dies := rfl
@[simp] theorem setCore_decants (s : State) (c : Nat) (x : CoreSt) : (s.setCore c x).decants = s.decants := rfl
@[simp] theorem setCore_roFrames (s : State) (c : Nat) (x : CoreSt) : (s.setCore c x).roFrames = s.roFrames := rfl
@[simp] theorem setCore_ctxs (s : State) (c : Nat) (x : CoreSt) : (s.setCore c x).ctxs = s.ctxs := rfl
@[simp] theorem setCore_objs (s : State) (c : Nat) (x : CoreSt) : (s.setCore c x).objs = s.objs := rfl
@[simp] theorem setCore_faults (s : State) (c : Nat) (x : CoreSt) : (s.setCore c x).faults = s.faults := rfl
@[simp] theorem setCore_images (s : State) (c : Nat) (x : CoreSt) : (s.setCore c x).images = s.images := rfl
@[simp] theorem setCore_kports (s : State) (c : Nat) (x : CoreSt) : (s.setCore c x).kports = s.kports := rfl
@[simp] theorem setCore_mports (s : State) (c : Nat) (x : CoreSt) : (s.setCore c x).mports = s.mports := rfl
@[simp] theorem setCore_windows (s : State) (c : Nat) (x : CoreSt) : (s.setCore c x).windows = s.windows := rfl
@[simp] theorem setCore_linkcfg (s : State) (c : Nat) (x : CoreSt) : (s.setCore c x).linkcfg = s.linkcfg := rfl
@[simp] theorem setCore_bar2 (s : State) (c : Nat) (x : CoreSt) : (s.setCore c x).bar2 = s.bar2 := rfl
@[simp] theorem setCore_fw (s : State) (c : Nat) (x : CoreSt) : (s.setCore c x).fw = s.fw := rfl

@[simp] theorem setCore_cores (s : State) (c : Nat) (x : CoreSt) : (s.setCore c x).cores = aset c x s.cores := rfl

/-! ## `State.modCore` -/

@[simp] theorem modCore_cur (s : State) (c : Nat) (f : CoreSt → CoreSt) : (s.modCore c f).cur = s.cur := rfl
@[simp] theorem modCore_agenda (s : State) (c : Nat) (f : CoreSt → CoreSt) : (s.modCore c f).agenda = s.agenda := rfl
@[simp] theorem modCore_nextId (s : State) (c : Nat) (f : CoreSt → CoreSt) : (s.modCore c f).nextId = s.nextId := rfl
@[simp] theorem modCore_freeN (s : State) (c : Nat) (f : CoreSt → CoreSt) : (s.modCore c f).freeN = s.freeN := rfl
@[simp] theorem modCore_clock (s : State) (c : Nat) (f : CoreSt → CoreSt) : (s.modCore c f).clock = s.clock := rfl
@[simp] theorem modCore_past (s : State) (c : Nat) (f : CoreSt → CoreSt) : (s.modCore c f).past = s.past := rfl
@[simp] theorem modCore_order (s : State) (c : Nat) (f : CoreSt → CoreSt) : (s.modCore c f).order = s.order := rfl
@[simp] theorem modCore_sfences (s : State) (c : Nat) (f : CoreSt → CoreSt) : (s.modCore c f).sfences = s.sfences := rfl
@[simp] theorem modCore_seen (s : State) (c : Nat) (f : CoreSt → CoreSt) : (s.modCore c f).seen = s.seen := rfl
@[simp] theorem modCore_part (s : State) (c : Nat) (f : CoreSt → CoreSt) : (s.modCore c f).part = s.part := rfl
@[simp] theorem modCore_mem (s : State) (c : Nat) (f : CoreSt → CoreSt) : (s.modCore c f).mem = s.mem := rfl
@[simp] theorem modCore_hostMem (s : State) (c : Nat) (f : CoreSt → CoreSt) : (s.modCore c f).hostMem = s.hostMem := rfl
@[simp] theorem modCore_peerMem (s : State) (c : Nat) (f : CoreSt → CoreSt) : (s.modCore c f).peerMem = s.peerMem := rfl
@[simp] theorem modCore_devRegs (s : State) (c : Nat) (f : CoreSt → CoreSt) : (s.modCore c f).devRegs = s.devRegs := rfl
@[simp] theorem modCore_poison (s : State) (c : Nat) (f : CoreSt → CoreSt) : (s.modCore c f).poison = s.poison := rfl
@[simp] theorem modCore_dead (s : State) (c : Nat) (f : CoreSt → CoreSt) : (s.modCore c f).dead = s.dead := rfl
@[simp] theorem modCore_t1size (s : State) (c : Nat) (f : CoreSt → CoreSt) : (s.modCore c f).t1size = s.t1size := rfl
@[simp] theorem modCore_retire (s : State) (c : Nat) (f : CoreSt → CoreSt) : (s.modCore c f).retire = s.retire := rfl
@[simp] theorem modCore_retired (s : State) (c : Nat) (f : CoreSt → CoreSt) : (s.modCore c f).retired = s.retired := rfl
@[simp] theorem modCore_tlb (s : State) (c : Nat) (f : CoreSt → CoreSt) : (s.modCore c f).tlb = s.tlb := rfl
@[simp] theorem modCore_atc (s : State) (c : Nat) (f : CoreSt → CoreSt) : (s.modCore c f).atc = s.atc := rfl
@[simp] theorem modCore_teams (s : State) (c : Nat) (f : CoreSt → CoreSt) : (s.modCore c f).teams = s.teams := rfl
@[simp] theorem modCore_ctls (s : State) (c : Nat) (f : CoreSt → CoreSt) : (s.modCore c f).ctls = s.ctls := rfl
@[simp] theorem modCore_groups (s : State) (c : Nat) (f : CoreSt → CoreSt) : (s.modCore c f).groups = s.groups := rfl
@[simp] theorem modCore_launches (s : State) (c : Nat) (f : CoreSt → CoreSt) : (s.modCore c f).launches = s.launches := rfl
@[simp] theorem modCore_queues (s : State) (c : Nat) (f : CoreSt → CoreSt) : (s.modCore c f).queues = s.queues := rfl
@[simp] theorem modCore_joins (s : State) (c : Nat) (f : CoreSt → CoreSt) : (s.modCore c f).joins = s.joins := rfl
@[simp] theorem modCore_bars (s : State) (c : Nat) (f : CoreSt → CoreSt) : (s.modCore c f).bars = s.bars := rfl
@[simp] theorem modCore_tiles (s : State) (c : Nat) (f : CoreSt → CoreSt) : (s.modCore c f).tiles = s.tiles := rfl
@[simp] theorem modCore_pend (s : State) (c : Nat) (f : CoreSt → CoreSt) : (s.modCore c f).pend = s.pend := rfl
@[simp] theorem modCore_copies (s : State) (c : Nat) (f : CoreSt → CoreSt) : (s.modCore c f).copies = s.copies := rfl
@[simp] theorem modCore_mqs (s : State) (c : Nat) (f : CoreSt → CoreSt) : (s.modCore c f).mqs = s.mqs := rfl
@[simp] theorem modCore_cmds (s : State) (c : Nat) (f : CoreSt → CoreSt) : (s.modCore c f).cmds = s.cmds := rfl
@[simp] theorem modCore_dies (s : State) (c : Nat) (f : CoreSt → CoreSt) : (s.modCore c f).dies = s.dies := rfl
@[simp] theorem modCore_decants (s : State) (c : Nat) (f : CoreSt → CoreSt) : (s.modCore c f).decants = s.decants := rfl
@[simp] theorem modCore_roFrames (s : State) (c : Nat) (f : CoreSt → CoreSt) : (s.modCore c f).roFrames = s.roFrames := rfl
@[simp] theorem modCore_ctxs (s : State) (c : Nat) (f : CoreSt → CoreSt) : (s.modCore c f).ctxs = s.ctxs := rfl
@[simp] theorem modCore_objs (s : State) (c : Nat) (f : CoreSt → CoreSt) : (s.modCore c f).objs = s.objs := rfl
@[simp] theorem modCore_faults (s : State) (c : Nat) (f : CoreSt → CoreSt) : (s.modCore c f).faults = s.faults := rfl
@[simp] theorem modCore_images (s : State) (c : Nat) (f : CoreSt → CoreSt) : (s.modCore c f).images = s.images := rfl
@[simp] theorem modCore_kports (s : State) (c : Nat) (f : CoreSt → CoreSt) : (s.modCore c f).kports = s.kports := rfl
@[simp] theorem modCore_mports (s : State) (c : Nat) (f : CoreSt → CoreSt) : (s.modCore c f).mports = s.mports := rfl
@[simp] theorem modCore_windows (s : State) (c : Nat) (f : CoreSt → CoreSt) : (s.modCore c f).windows = s.windows := rfl
@[simp] theorem modCore_linkcfg (s : State) (c : Nat) (f : CoreSt → CoreSt) : (s.modCore c f).linkcfg = s.linkcfg := rfl
@[simp] theorem modCore_bar2 (s : State) (c : Nat) (f : CoreSt → CoreSt) : (s.modCore c f).bar2 = s.bar2 := rfl
@[simp] theorem modCore_fw (s : State) (c : Nat) (f : CoreSt → CoreSt) : (s.modCore c f).fw = s.fw := rfl

/-! ## `State.coreEvent` -/

@[simp] theorem coreEvent_cur (s : State) (c k n : Nat) : (s.coreEvent c k n).cur = s.cur := rfl
@[simp] theorem coreEvent_agenda (s : State) (c k n : Nat) : (s.coreEvent c k n).agenda = s.agenda := rfl
@[simp] theorem coreEvent_nextId (s : State) (c k n : Nat) : (s.coreEvent c k n).nextId = s.nextId := rfl
@[simp] theorem coreEvent_freeN (s : State) (c k n : Nat) : (s.coreEvent c k n).freeN = s.freeN := rfl
@[simp] theorem coreEvent_clock (s : State) (c k n : Nat) : (s.coreEvent c k n).clock = s.clock := rfl
@[simp] theorem coreEvent_past (s : State) (c k n : Nat) : (s.coreEvent c k n).past = s.past := rfl
@[simp] theorem coreEvent_order (s : State) (c k n : Nat) : (s.coreEvent c k n).order = s.order := rfl
@[simp] theorem coreEvent_sfences (s : State) (c k n : Nat) : (s.coreEvent c k n).sfences = s.sfences := rfl
@[simp] theorem coreEvent_seen (s : State) (c k n : Nat) : (s.coreEvent c k n).seen = s.seen := rfl
@[simp] theorem coreEvent_part (s : State) (c k n : Nat) : (s.coreEvent c k n).part = s.part := rfl
@[simp] theorem coreEvent_mem (s : State) (c k n : Nat) : (s.coreEvent c k n).mem = s.mem := rfl
@[simp] theorem coreEvent_hostMem (s : State) (c k n : Nat) : (s.coreEvent c k n).hostMem = s.hostMem := rfl
@[simp] theorem coreEvent_peerMem (s : State) (c k n : Nat) : (s.coreEvent c k n).peerMem = s.peerMem := rfl
@[simp] theorem coreEvent_devRegs (s : State) (c k n : Nat) : (s.coreEvent c k n).devRegs = s.devRegs := rfl
@[simp] theorem coreEvent_poison (s : State) (c k n : Nat) : (s.coreEvent c k n).poison = s.poison := rfl
@[simp] theorem coreEvent_dead (s : State) (c k n : Nat) : (s.coreEvent c k n).dead = s.dead := rfl
@[simp] theorem coreEvent_t1size (s : State) (c k n : Nat) : (s.coreEvent c k n).t1size = s.t1size := rfl
@[simp] theorem coreEvent_retire (s : State) (c k n : Nat) : (s.coreEvent c k n).retire = s.retire := rfl
@[simp] theorem coreEvent_retired (s : State) (c k n : Nat) : (s.coreEvent c k n).retired = s.retired := rfl
@[simp] theorem coreEvent_tlb (s : State) (c k n : Nat) : (s.coreEvent c k n).tlb = s.tlb := rfl
@[simp] theorem coreEvent_atc (s : State) (c k n : Nat) : (s.coreEvent c k n).atc = s.atc := rfl
@[simp] theorem coreEvent_teams (s : State) (c k n : Nat) : (s.coreEvent c k n).teams = s.teams := rfl
@[simp] theorem coreEvent_ctls (s : State) (c k n : Nat) : (s.coreEvent c k n).ctls = s.ctls := rfl
@[simp] theorem coreEvent_groups (s : State) (c k n : Nat) : (s.coreEvent c k n).groups = s.groups := rfl
@[simp] theorem coreEvent_launches (s : State) (c k n : Nat) : (s.coreEvent c k n).launches = s.launches := rfl
@[simp] theorem coreEvent_queues (s : State) (c k n : Nat) : (s.coreEvent c k n).queues = s.queues := rfl
@[simp] theorem coreEvent_joins (s : State) (c k n : Nat) : (s.coreEvent c k n).joins = s.joins := rfl
@[simp] theorem coreEvent_bars (s : State) (c k n : Nat) : (s.coreEvent c k n).bars = s.bars := rfl
@[simp] theorem coreEvent_tiles (s : State) (c k n : Nat) : (s.coreEvent c k n).tiles = s.tiles := rfl
@[simp] theorem coreEvent_pend (s : State) (c k n : Nat) : (s.coreEvent c k n).pend = s.pend := rfl
@[simp] theorem coreEvent_copies (s : State) (c k n : Nat) : (s.coreEvent c k n).copies = s.copies := rfl
@[simp] theorem coreEvent_mqs (s : State) (c k n : Nat) : (s.coreEvent c k n).mqs = s.mqs := rfl
@[simp] theorem coreEvent_cmds (s : State) (c k n : Nat) : (s.coreEvent c k n).cmds = s.cmds := rfl
@[simp] theorem coreEvent_dies (s : State) (c k n : Nat) : (s.coreEvent c k n).dies = s.dies := rfl
@[simp] theorem coreEvent_decants (s : State) (c k n : Nat) : (s.coreEvent c k n).decants = s.decants := rfl
@[simp] theorem coreEvent_roFrames (s : State) (c k n : Nat) : (s.coreEvent c k n).roFrames = s.roFrames := rfl
@[simp] theorem coreEvent_ctxs (s : State) (c k n : Nat) : (s.coreEvent c k n).ctxs = s.ctxs := rfl
@[simp] theorem coreEvent_objs (s : State) (c k n : Nat) : (s.coreEvent c k n).objs = s.objs := rfl
@[simp] theorem coreEvent_faults (s : State) (c k n : Nat) : (s.coreEvent c k n).faults = s.faults := rfl
@[simp] theorem coreEvent_images (s : State) (c k n : Nat) : (s.coreEvent c k n).images = s.images := rfl
@[simp] theorem coreEvent_kports (s : State) (c k n : Nat) : (s.coreEvent c k n).kports = s.kports := rfl
@[simp] theorem coreEvent_mports (s : State) (c k n : Nat) : (s.coreEvent c k n).mports = s.mports := rfl
@[simp] theorem coreEvent_windows (s : State) (c k n : Nat) : (s.coreEvent c k n).windows = s.windows := rfl
@[simp] theorem coreEvent_linkcfg (s : State) (c k n : Nat) : (s.coreEvent c k n).linkcfg = s.linkcfg := rfl
@[simp] theorem coreEvent_bar2 (s : State) (c k n : Nat) : (s.coreEvent c k n).bar2 = s.bar2 := rfl
@[simp] theorem coreEvent_fw (s : State) (c k n : Nat) : (s.coreEvent c k n).fw = s.fw := rfl

/-! ## `State.dieEvent` -/

@[simp] theorem dieEvent_cur (s : State) (d k n : Nat) : (s.dieEvent d k n).cur = s.cur := rfl
@[simp] theorem dieEvent_agenda (s : State) (d k n : Nat) : (s.dieEvent d k n).agenda = s.agenda := rfl
@[simp] theorem dieEvent_nextId (s : State) (d k n : Nat) : (s.dieEvent d k n).nextId = s.nextId := rfl
@[simp] theorem dieEvent_freeN (s : State) (d k n : Nat) : (s.dieEvent d k n).freeN = s.freeN := rfl
@[simp] theorem dieEvent_clock (s : State) (d k n : Nat) : (s.dieEvent d k n).clock = s.clock := rfl
@[simp] theorem dieEvent_past (s : State) (d k n : Nat) : (s.dieEvent d k n).past = s.past := rfl
@[simp] theorem dieEvent_order (s : State) (d k n : Nat) : (s.dieEvent d k n).order = s.order := rfl
@[simp] theorem dieEvent_sfences (s : State) (d k n : Nat) : (s.dieEvent d k n).sfences = s.sfences := rfl
@[simp] theorem dieEvent_seen (s : State) (d k n : Nat) : (s.dieEvent d k n).seen = s.seen := rfl
@[simp] theorem dieEvent_part (s : State) (d k n : Nat) : (s.dieEvent d k n).part = s.part := rfl
@[simp] theorem dieEvent_mem (s : State) (d k n : Nat) : (s.dieEvent d k n).mem = s.mem := rfl
@[simp] theorem dieEvent_hostMem (s : State) (d k n : Nat) : (s.dieEvent d k n).hostMem = s.hostMem := rfl
@[simp] theorem dieEvent_peerMem (s : State) (d k n : Nat) : (s.dieEvent d k n).peerMem = s.peerMem := rfl
@[simp] theorem dieEvent_devRegs (s : State) (d k n : Nat) : (s.dieEvent d k n).devRegs = s.devRegs := rfl
@[simp] theorem dieEvent_poison (s : State) (d k n : Nat) : (s.dieEvent d k n).poison = s.poison := rfl
@[simp] theorem dieEvent_dead (s : State) (d k n : Nat) : (s.dieEvent d k n).dead = s.dead := rfl
@[simp] theorem dieEvent_t1size (s : State) (d k n : Nat) : (s.dieEvent d k n).t1size = s.t1size := rfl
@[simp] theorem dieEvent_retire (s : State) (d k n : Nat) : (s.dieEvent d k n).retire = s.retire := rfl
@[simp] theorem dieEvent_retired (s : State) (d k n : Nat) : (s.dieEvent d k n).retired = s.retired := rfl
@[simp] theorem dieEvent_tlb (s : State) (d k n : Nat) : (s.dieEvent d k n).tlb = s.tlb := rfl
@[simp] theorem dieEvent_atc (s : State) (d k n : Nat) : (s.dieEvent d k n).atc = s.atc := rfl
@[simp] theorem dieEvent_teams (s : State) (d k n : Nat) : (s.dieEvent d k n).teams = s.teams := rfl
@[simp] theorem dieEvent_ctls (s : State) (d k n : Nat) : (s.dieEvent d k n).ctls = s.ctls := rfl
@[simp] theorem dieEvent_groups (s : State) (d k n : Nat) : (s.dieEvent d k n).groups = s.groups := rfl
@[simp] theorem dieEvent_launches (s : State) (d k n : Nat) : (s.dieEvent d k n).launches = s.launches := rfl
@[simp] theorem dieEvent_queues (s : State) (d k n : Nat) : (s.dieEvent d k n).queues = s.queues := rfl
@[simp] theorem dieEvent_joins (s : State) (d k n : Nat) : (s.dieEvent d k n).joins = s.joins := rfl
@[simp] theorem dieEvent_bars (s : State) (d k n : Nat) : (s.dieEvent d k n).bars = s.bars := rfl
@[simp] theorem dieEvent_tiles (s : State) (d k n : Nat) : (s.dieEvent d k n).tiles = s.tiles := rfl
@[simp] theorem dieEvent_pend (s : State) (d k n : Nat) : (s.dieEvent d k n).pend = s.pend := rfl
@[simp] theorem dieEvent_copies (s : State) (d k n : Nat) : (s.dieEvent d k n).copies = s.copies := rfl
@[simp] theorem dieEvent_mqs (s : State) (d k n : Nat) : (s.dieEvent d k n).mqs = s.mqs := rfl
@[simp] theorem dieEvent_cmds (s : State) (d k n : Nat) : (s.dieEvent d k n).cmds = s.cmds := rfl
@[simp] theorem dieEvent_cores (s : State) (d k n : Nat) : (s.dieEvent d k n).cores = s.cores := rfl
@[simp] theorem dieEvent_decants (s : State) (d k n : Nat) : (s.dieEvent d k n).decants = s.decants := rfl
@[simp] theorem dieEvent_roFrames (s : State) (d k n : Nat) : (s.dieEvent d k n).roFrames = s.roFrames := rfl
@[simp] theorem dieEvent_ctxs (s : State) (d k n : Nat) : (s.dieEvent d k n).ctxs = s.ctxs := rfl
@[simp] theorem dieEvent_objs (s : State) (d k n : Nat) : (s.dieEvent d k n).objs = s.objs := rfl
@[simp] theorem dieEvent_faults (s : State) (d k n : Nat) : (s.dieEvent d k n).faults = s.faults := rfl
@[simp] theorem dieEvent_images (s : State) (d k n : Nat) : (s.dieEvent d k n).images = s.images := rfl
@[simp] theorem dieEvent_kports (s : State) (d k n : Nat) : (s.dieEvent d k n).kports = s.kports := rfl
@[simp] theorem dieEvent_mports (s : State) (d k n : Nat) : (s.dieEvent d k n).mports = s.mports := rfl
@[simp] theorem dieEvent_windows (s : State) (d k n : Nat) : (s.dieEvent d k n).windows = s.windows := rfl
@[simp] theorem dieEvent_linkcfg (s : State) (d k n : Nat) : (s.dieEvent d k n).linkcfg = s.linkcfg := rfl
@[simp] theorem dieEvent_bar2 (s : State) (d k n : Nat) : (s.dieEvent d k n).bar2 = s.bar2 := rfl
@[simp] theorem dieEvent_fw (s : State) (d k n : Nat) : (s.dieEvent d k n).fw = s.fw := rfl

/-! ## `State.send` -/

@[simp] theorem send_cur (s : State) (b : Nat) (m : Msg) : (s.send b m).cur = s.cur := by unfold State.send; split <;> rfl
@[simp] theorem send_agenda (s : State) (b : Nat) (m : Msg) : (s.send b m).agenda = s.agenda := by unfold State.send; split <;> rfl
@[simp] theorem send_nextId (s : State) (b : Nat) (m : Msg) : (s.send b m).nextId = s.nextId := by unfold State.send; split <;> rfl
@[simp] theorem send_freeN (s : State) (b : Nat) (m : Msg) : (s.send b m).freeN = s.freeN := by unfold State.send; split <;> rfl
@[simp] theorem send_clock (s : State) (b : Nat) (m : Msg) : (s.send b m).clock = s.clock := by unfold State.send; split <;> rfl
@[simp] theorem send_past (s : State) (b : Nat) (m : Msg) : (s.send b m).past = s.past := by unfold State.send; split <;> rfl
@[simp] theorem send_order (s : State) (b : Nat) (m : Msg) : (s.send b m).order = s.order := by unfold State.send; split <;> rfl
@[simp] theorem send_sfences (s : State) (b : Nat) (m : Msg) : (s.send b m).sfences = s.sfences := by unfold State.send; split <;> rfl
@[simp] theorem send_seen (s : State) (b : Nat) (m : Msg) : (s.send b m).seen = s.seen := by unfold State.send; split <;> rfl
@[simp] theorem send_part (s : State) (b : Nat) (m : Msg) : (s.send b m).part = s.part := by unfold State.send; split <;> rfl
@[simp] theorem send_mem (s : State) (b : Nat) (m : Msg) : (s.send b m).mem = s.mem := by unfold State.send; split <;> rfl
@[simp] theorem send_hostMem (s : State) (b : Nat) (m : Msg) : (s.send b m).hostMem = s.hostMem := by unfold State.send; split <;> rfl
@[simp] theorem send_peerMem (s : State) (b : Nat) (m : Msg) : (s.send b m).peerMem = s.peerMem := by unfold State.send; split <;> rfl
@[simp] theorem send_devRegs (s : State) (b : Nat) (m : Msg) : (s.send b m).devRegs = s.devRegs := by unfold State.send; split <;> rfl
@[simp] theorem send_poison (s : State) (b : Nat) (m : Msg) : (s.send b m).poison = s.poison := by unfold State.send; split <;> rfl
@[simp] theorem send_dead (s : State) (b : Nat) (m : Msg) : (s.send b m).dead = s.dead := by unfold State.send; split <;> rfl
@[simp] theorem send_t1size (s : State) (b : Nat) (m : Msg) : (s.send b m).t1size = s.t1size := by unfold State.send; split <;> rfl
@[simp] theorem send_retire (s : State) (b : Nat) (m : Msg) : (s.send b m).retire = s.retire := by unfold State.send; split <;> rfl
@[simp] theorem send_retired (s : State) (b : Nat) (m : Msg) : (s.send b m).retired = s.retired := by unfold State.send; split <;> rfl
@[simp] theorem send_tlb (s : State) (b : Nat) (m : Msg) : (s.send b m).tlb = s.tlb := by unfold State.send; split <;> rfl
@[simp] theorem send_atc (s : State) (b : Nat) (m : Msg) : (s.send b m).atc = s.atc := by unfold State.send; split <;> rfl
@[simp] theorem send_teams (s : State) (b : Nat) (m : Msg) : (s.send b m).teams = s.teams := by unfold State.send; split <;> rfl
@[simp] theorem send_ctls (s : State) (b : Nat) (m : Msg) : (s.send b m).ctls = s.ctls := by unfold State.send; split <;> rfl
@[simp] theorem send_groups (s : State) (b : Nat) (m : Msg) : (s.send b m).groups = s.groups := by unfold State.send; split <;> rfl
@[simp] theorem send_launches (s : State) (b : Nat) (m : Msg) : (s.send b m).launches = s.launches := by unfold State.send; split <;> rfl
@[simp] theorem send_queues (s : State) (b : Nat) (m : Msg) : (s.send b m).queues = s.queues := by unfold State.send; split <;> rfl
@[simp] theorem send_joins (s : State) (b : Nat) (m : Msg) : (s.send b m).joins = s.joins := by unfold State.send; split <;> rfl
@[simp] theorem send_bars (s : State) (b : Nat) (m : Msg) : (s.send b m).bars = s.bars := by unfold State.send; split <;> rfl
@[simp] theorem send_tiles (s : State) (b : Nat) (m : Msg) : (s.send b m).tiles = s.tiles := by unfold State.send; split <;> rfl
@[simp] theorem send_pend (s : State) (b : Nat) (m : Msg) : (s.send b m).pend = s.pend := by unfold State.send; split <;> rfl
@[simp] theorem send_copies (s : State) (b : Nat) (m : Msg) : (s.send b m).copies = s.copies := by unfold State.send; split <;> rfl
@[simp] theorem send_mqs (s : State) (b : Nat) (m : Msg) : (s.send b m).mqs = s.mqs := by unfold State.send; split <;> rfl
@[simp] theorem send_cmds (s : State) (b : Nat) (m : Msg) : (s.send b m).cmds = s.cmds := by unfold State.send; split <;> rfl
@[simp] theorem send_cores (s : State) (b : Nat) (m : Msg) : (s.send b m).cores = s.cores := by unfold State.send; split <;> rfl
@[simp] theorem send_dies (s : State) (b : Nat) (m : Msg) : (s.send b m).dies = s.dies := by unfold State.send; split <;> rfl
@[simp] theorem send_decants (s : State) (b : Nat) (m : Msg) : (s.send b m).decants = s.decants := by unfold State.send; split <;> rfl
@[simp] theorem send_roFrames (s : State) (b : Nat) (m : Msg) : (s.send b m).roFrames = s.roFrames := by unfold State.send; split <;> rfl
@[simp] theorem send_ctxs (s : State) (b : Nat) (m : Msg) : (s.send b m).ctxs = s.ctxs := by unfold State.send; split <;> rfl
@[simp] theorem send_objs (s : State) (b : Nat) (m : Msg) : (s.send b m).objs = s.objs := by unfold State.send; split <;> rfl
@[simp] theorem send_faults (s : State) (b : Nat) (m : Msg) : (s.send b m).faults = s.faults := by unfold State.send; split <;> rfl
@[simp] theorem send_images (s : State) (b : Nat) (m : Msg) : (s.send b m).images = s.images := by unfold State.send; split <;> rfl
@[simp] theorem send_kports (s : State) (b : Nat) (m : Msg) : (s.send b m).kports = s.kports := by unfold State.send; split <;> rfl
@[simp] theorem send_mports (s : State) (b : Nat) (m : Msg) : (s.send b m).mports = s.mports := by unfold State.send; split <;> rfl
@[simp] theorem send_windows (s : State) (b : Nat) (m : Msg) : (s.send b m).windows = s.windows := by unfold State.send; split <;> rfl
@[simp] theorem send_linkcfg (s : State) (b : Nat) (m : Msg) : (s.send b m).linkcfg = s.linkcfg := by unfold State.send; split <;> rfl
@[simp] theorem send_bar2 (s : State) (b : Nat) (m : Msg) : (s.send b m).bar2 = s.bar2 := by unfold State.send; split <;> rfl

/-! ## `State.setAgent` -/

@[simp] theorem setAgent_cur (s : State) (a : Agent) (t : Team) : (s.setAgent a t).cur = s.cur := by cases a <;> rfl
@[simp] theorem setAgent_agenda (s : State) (a : Agent) (t : Team) : (s.setAgent a t).agenda = s.agenda := by cases a <;> rfl
@[simp] theorem setAgent_nextId (s : State) (a : Agent) (t : Team) : (s.setAgent a t).nextId = s.nextId := by cases a <;> rfl
@[simp] theorem setAgent_freeN (s : State) (a : Agent) (t : Team) : (s.setAgent a t).freeN = s.freeN := by cases a <;> rfl
@[simp] theorem setAgent_clock (s : State) (a : Agent) (t : Team) : (s.setAgent a t).clock = s.clock := by cases a <;> rfl
@[simp] theorem setAgent_past (s : State) (a : Agent) (t : Team) : (s.setAgent a t).past = s.past := by cases a <;> rfl
@[simp] theorem setAgent_order (s : State) (a : Agent) (t : Team) : (s.setAgent a t).order = s.order := by cases a <;> rfl
@[simp] theorem setAgent_sfences (s : State) (a : Agent) (t : Team) : (s.setAgent a t).sfences = s.sfences := by cases a <;> rfl
@[simp] theorem setAgent_seen (s : State) (a : Agent) (t : Team) : (s.setAgent a t).seen = s.seen := by cases a <;> rfl
@[simp] theorem setAgent_part (s : State) (a : Agent) (t : Team) : (s.setAgent a t).part = s.part := by cases a <;> rfl
@[simp] theorem setAgent_mem (s : State) (a : Agent) (t : Team) : (s.setAgent a t).mem = s.mem := by cases a <;> rfl
@[simp] theorem setAgent_hostMem (s : State) (a : Agent) (t : Team) : (s.setAgent a t).hostMem = s.hostMem := by cases a <;> rfl
@[simp] theorem setAgent_peerMem (s : State) (a : Agent) (t : Team) : (s.setAgent a t).peerMem = s.peerMem := by cases a <;> rfl
@[simp] theorem setAgent_devRegs (s : State) (a : Agent) (t : Team) : (s.setAgent a t).devRegs = s.devRegs := by cases a <;> rfl
@[simp] theorem setAgent_poison (s : State) (a : Agent) (t : Team) : (s.setAgent a t).poison = s.poison := by cases a <;> rfl
@[simp] theorem setAgent_dead (s : State) (a : Agent) (t : Team) : (s.setAgent a t).dead = s.dead := by cases a <;> rfl
@[simp] theorem setAgent_t1size (s : State) (a : Agent) (t : Team) : (s.setAgent a t).t1size = s.t1size := by cases a <;> rfl
@[simp] theorem setAgent_retire (s : State) (a : Agent) (t : Team) : (s.setAgent a t).retire = s.retire := by cases a <;> rfl
@[simp] theorem setAgent_retired (s : State) (a : Agent) (t : Team) : (s.setAgent a t).retired = s.retired := by cases a <;> rfl
@[simp] theorem setAgent_tlb (s : State) (a : Agent) (t : Team) : (s.setAgent a t).tlb = s.tlb := by cases a <;> rfl
@[simp] theorem setAgent_atc (s : State) (a : Agent) (t : Team) : (s.setAgent a t).atc = s.atc := by cases a <;> rfl
@[simp] theorem setAgent_groups (s : State) (a : Agent) (t : Team) : (s.setAgent a t).groups = s.groups := by cases a <;> rfl
@[simp] theorem setAgent_launches (s : State) (a : Agent) (t : Team) : (s.setAgent a t).launches = s.launches := by cases a <;> rfl
@[simp] theorem setAgent_queues (s : State) (a : Agent) (t : Team) : (s.setAgent a t).queues = s.queues := by cases a <;> rfl
@[simp] theorem setAgent_joins (s : State) (a : Agent) (t : Team) : (s.setAgent a t).joins = s.joins := by cases a <;> rfl
@[simp] theorem setAgent_bars (s : State) (a : Agent) (t : Team) : (s.setAgent a t).bars = s.bars := by cases a <;> rfl
@[simp] theorem setAgent_tiles (s : State) (a : Agent) (t : Team) : (s.setAgent a t).tiles = s.tiles := by cases a <;> rfl
@[simp] theorem setAgent_pend (s : State) (a : Agent) (t : Team) : (s.setAgent a t).pend = s.pend := by cases a <;> rfl
@[simp] theorem setAgent_copies (s : State) (a : Agent) (t : Team) : (s.setAgent a t).copies = s.copies := by cases a <;> rfl
@[simp] theorem setAgent_mqs (s : State) (a : Agent) (t : Team) : (s.setAgent a t).mqs = s.mqs := by cases a <;> rfl
@[simp] theorem setAgent_cmds (s : State) (a : Agent) (t : Team) : (s.setAgent a t).cmds = s.cmds := by cases a <;> rfl
@[simp] theorem setAgent_cores (s : State) (a : Agent) (t : Team) : (s.setAgent a t).cores = s.cores := by cases a <;> rfl
@[simp] theorem setAgent_dies (s : State) (a : Agent) (t : Team) : (s.setAgent a t).dies = s.dies := by cases a <;> rfl
@[simp] theorem setAgent_decants (s : State) (a : Agent) (t : Team) : (s.setAgent a t).decants = s.decants := by cases a <;> rfl
@[simp] theorem setAgent_roFrames (s : State) (a : Agent) (t : Team) : (s.setAgent a t).roFrames = s.roFrames := by cases a <;> rfl
@[simp] theorem setAgent_ctxs (s : State) (a : Agent) (t : Team) : (s.setAgent a t).ctxs = s.ctxs := by cases a <;> rfl
@[simp] theorem setAgent_objs (s : State) (a : Agent) (t : Team) : (s.setAgent a t).objs = s.objs := by cases a <;> rfl
@[simp] theorem setAgent_faults (s : State) (a : Agent) (t : Team) : (s.setAgent a t).faults = s.faults := by cases a <;> rfl
@[simp] theorem setAgent_images (s : State) (a : Agent) (t : Team) : (s.setAgent a t).images = s.images := by cases a <;> rfl
@[simp] theorem setAgent_kports (s : State) (a : Agent) (t : Team) : (s.setAgent a t).kports = s.kports := by cases a <;> rfl
@[simp] theorem setAgent_mports (s : State) (a : Agent) (t : Team) : (s.setAgent a t).mports = s.mports := by cases a <;> rfl
@[simp] theorem setAgent_windows (s : State) (a : Agent) (t : Team) : (s.setAgent a t).windows = s.windows := by cases a <;> rfl
@[simp] theorem setAgent_linkcfg (s : State) (a : Agent) (t : Team) : (s.setAgent a t).linkcfg = s.linkcfg := by cases a <;> rfl
@[simp] theorem setAgent_bar2 (s : State) (a : Agent) (t : Team) : (s.setAgent a t).bar2 = s.bar2 := by cases a <;> rfl
@[simp] theorem setAgent_fw (s : State) (a : Agent) (t : Team) : (s.setAgent a t).fw = s.fw := by cases a <;> rfl

/-! ## `State.msix` -/

@[simp] theorem msix_cur (s : State) (v : Nat) : (s.msix v).cur = s.cur := by unfold State.msix; split <;> rfl
@[simp] theorem msix_agenda (s : State) (v : Nat) : (s.msix v).agenda = s.agenda := by unfold State.msix; split <;> rfl
@[simp] theorem msix_nextId (s : State) (v : Nat) : (s.msix v).nextId = s.nextId := by unfold State.msix; split <;> rfl
@[simp] theorem msix_freeN (s : State) (v : Nat) : (s.msix v).freeN = s.freeN := by unfold State.msix; split <;> rfl
@[simp] theorem msix_clock (s : State) (v : Nat) : (s.msix v).clock = s.clock := by unfold State.msix; split <;> rfl
@[simp] theorem msix_past (s : State) (v : Nat) : (s.msix v).past = s.past := by unfold State.msix; split <;> rfl
@[simp] theorem msix_order (s : State) (v : Nat) : (s.msix v).order = s.order := by unfold State.msix; split <;> rfl
@[simp] theorem msix_sfences (s : State) (v : Nat) : (s.msix v).sfences = s.sfences := by unfold State.msix; split <;> rfl
@[simp] theorem msix_seen (s : State) (v : Nat) : (s.msix v).seen = s.seen := by unfold State.msix; split <;> rfl
@[simp] theorem msix_part (s : State) (v : Nat) : (s.msix v).part = s.part := by unfold State.msix; split <;> rfl
@[simp] theorem msix_mem (s : State) (v : Nat) : (s.msix v).mem = s.mem := by unfold State.msix; split <;> rfl
@[simp] theorem msix_hostMem (s : State) (v : Nat) : (s.msix v).hostMem = s.hostMem := by unfold State.msix; split <;> rfl
@[simp] theorem msix_peerMem (s : State) (v : Nat) : (s.msix v).peerMem = s.peerMem := by unfold State.msix; split <;> rfl
@[simp] theorem msix_devRegs (s : State) (v : Nat) : (s.msix v).devRegs = s.devRegs := by unfold State.msix; split <;> rfl
@[simp] theorem msix_poison (s : State) (v : Nat) : (s.msix v).poison = s.poison := by unfold State.msix; split <;> rfl
@[simp] theorem msix_dead (s : State) (v : Nat) : (s.msix v).dead = s.dead := by unfold State.msix; split <;> rfl
@[simp] theorem msix_t1size (s : State) (v : Nat) : (s.msix v).t1size = s.t1size := by unfold State.msix; split <;> rfl
@[simp] theorem msix_retire (s : State) (v : Nat) : (s.msix v).retire = s.retire := by unfold State.msix; split <;> rfl
@[simp] theorem msix_retired (s : State) (v : Nat) : (s.msix v).retired = s.retired := by unfold State.msix; split <;> rfl
@[simp] theorem msix_tlb (s : State) (v : Nat) : (s.msix v).tlb = s.tlb := by unfold State.msix; split <;> rfl
@[simp] theorem msix_atc (s : State) (v : Nat) : (s.msix v).atc = s.atc := by unfold State.msix; split <;> rfl
@[simp] theorem msix_teams (s : State) (v : Nat) : (s.msix v).teams = s.teams := by unfold State.msix; split <;> rfl
@[simp] theorem msix_ctls (s : State) (v : Nat) : (s.msix v).ctls = s.ctls := by unfold State.msix; split <;> rfl
@[simp] theorem msix_groups (s : State) (v : Nat) : (s.msix v).groups = s.groups := by unfold State.msix; split <;> rfl
@[simp] theorem msix_launches (s : State) (v : Nat) : (s.msix v).launches = s.launches := by unfold State.msix; split <;> rfl
@[simp] theorem msix_queues (s : State) (v : Nat) : (s.msix v).queues = s.queues := by unfold State.msix; split <;> rfl
@[simp] theorem msix_joins (s : State) (v : Nat) : (s.msix v).joins = s.joins := by unfold State.msix; split <;> rfl
@[simp] theorem msix_bars (s : State) (v : Nat) : (s.msix v).bars = s.bars := by unfold State.msix; split <;> rfl
@[simp] theorem msix_tiles (s : State) (v : Nat) : (s.msix v).tiles = s.tiles := by unfold State.msix; split <;> rfl
@[simp] theorem msix_pend (s : State) (v : Nat) : (s.msix v).pend = s.pend := by unfold State.msix; split <;> rfl
@[simp] theorem msix_copies (s : State) (v : Nat) : (s.msix v).copies = s.copies := by unfold State.msix; split <;> rfl
@[simp] theorem msix_mqs (s : State) (v : Nat) : (s.msix v).mqs = s.mqs := by unfold State.msix; split <;> rfl
@[simp] theorem msix_cmds (s : State) (v : Nat) : (s.msix v).cmds = s.cmds := by unfold State.msix; split <;> rfl
@[simp] theorem msix_cores (s : State) (v : Nat) : (s.msix v).cores = s.cores := by unfold State.msix; split <;> rfl
@[simp] theorem msix_dies (s : State) (v : Nat) : (s.msix v).dies = s.dies := by unfold State.msix; split <;> rfl
@[simp] theorem msix_decants (s : State) (v : Nat) : (s.msix v).decants = s.decants := by unfold State.msix; split <;> rfl
@[simp] theorem msix_roFrames (s : State) (v : Nat) : (s.msix v).roFrames = s.roFrames := by unfold State.msix; split <;> rfl
@[simp] theorem msix_ctxs (s : State) (v : Nat) : (s.msix v).ctxs = s.ctxs := by unfold State.msix; split <;> rfl
@[simp] theorem msix_objs (s : State) (v : Nat) : (s.msix v).objs = s.objs := by unfold State.msix; split <;> rfl
@[simp] theorem msix_faults (s : State) (v : Nat) : (s.msix v).faults = s.faults := by unfold State.msix; split <;> rfl
@[simp] theorem msix_images (s : State) (v : Nat) : (s.msix v).images = s.images := by unfold State.msix; split <;> rfl
@[simp] theorem msix_kports (s : State) (v : Nat) : (s.msix v).kports = s.kports := by unfold State.msix; split <;> rfl
@[simp] theorem msix_mports (s : State) (v : Nat) : (s.msix v).mports = s.mports := by unfold State.msix; split <;> rfl
@[simp] theorem msix_windows (s : State) (v : Nat) : (s.msix v).windows = s.windows := by unfold State.msix; split <;> rfl
@[simp] theorem msix_linkcfg (s : State) (v : Nat) : (s.msix v).linkcfg = s.linkcfg := by unfold State.msix; split <;> rfl
@[simp] theorem msix_bar2 (s : State) (v : Nat) : (s.msix v).bar2 = s.bar2 := by unfold State.msix; split <;> rfl

/-! ## `State.setCur` -/

@[simp] theorem setCur_agenda (s : State) (a : Agent) : (s.setCur a).agenda = s.agenda := rfl
@[simp] theorem setCur_nextId (s : State) (a : Agent) : (s.setCur a).nextId = s.nextId := rfl
@[simp] theorem setCur_freeN (s : State) (a : Agent) : (s.setCur a).freeN = s.freeN := rfl
@[simp] theorem setCur_clock (s : State) (a : Agent) : (s.setCur a).clock = s.clock := rfl
@[simp] theorem setCur_past (s : State) (a : Agent) : (s.setCur a).past = s.past := rfl
@[simp] theorem setCur_order (s : State) (a : Agent) : (s.setCur a).order = s.order := rfl
@[simp] theorem setCur_sfences (s : State) (a : Agent) : (s.setCur a).sfences = s.sfences := rfl
@[simp] theorem setCur_seen (s : State) (a : Agent) : (s.setCur a).seen = s.seen := rfl
@[simp] theorem setCur_part (s : State) (a : Agent) : (s.setCur a).part = s.part := rfl
@[simp] theorem setCur_mem (s : State) (a : Agent) : (s.setCur a).mem = s.mem := rfl
@[simp] theorem setCur_hostMem (s : State) (a : Agent) : (s.setCur a).hostMem = s.hostMem := rfl
@[simp] theorem setCur_peerMem (s : State) (a : Agent) : (s.setCur a).peerMem = s.peerMem := rfl
@[simp] theorem setCur_devRegs (s : State) (a : Agent) : (s.setCur a).devRegs = s.devRegs := rfl
@[simp] theorem setCur_poison (s : State) (a : Agent) : (s.setCur a).poison = s.poison := rfl
@[simp] theorem setCur_dead (s : State) (a : Agent) : (s.setCur a).dead = s.dead := rfl
@[simp] theorem setCur_t1size (s : State) (a : Agent) : (s.setCur a).t1size = s.t1size := rfl
@[simp] theorem setCur_retire (s : State) (a : Agent) : (s.setCur a).retire = s.retire := rfl
@[simp] theorem setCur_retired (s : State) (a : Agent) : (s.setCur a).retired = s.retired := rfl
@[simp] theorem setCur_tlb (s : State) (a : Agent) : (s.setCur a).tlb = s.tlb := rfl
@[simp] theorem setCur_atc (s : State) (a : Agent) : (s.setCur a).atc = s.atc := rfl
@[simp] theorem setCur_teams (s : State) (a : Agent) : (s.setCur a).teams = s.teams := rfl
@[simp] theorem setCur_ctls (s : State) (a : Agent) : (s.setCur a).ctls = s.ctls := rfl
@[simp] theorem setCur_groups (s : State) (a : Agent) : (s.setCur a).groups = s.groups := rfl
@[simp] theorem setCur_launches (s : State) (a : Agent) : (s.setCur a).launches = s.launches := rfl
@[simp] theorem setCur_queues (s : State) (a : Agent) : (s.setCur a).queues = s.queues := rfl
@[simp] theorem setCur_joins (s : State) (a : Agent) : (s.setCur a).joins = s.joins := rfl
@[simp] theorem setCur_bars (s : State) (a : Agent) : (s.setCur a).bars = s.bars := rfl
@[simp] theorem setCur_tiles (s : State) (a : Agent) : (s.setCur a).tiles = s.tiles := rfl
@[simp] theorem setCur_pend (s : State) (a : Agent) : (s.setCur a).pend = s.pend := rfl
@[simp] theorem setCur_copies (s : State) (a : Agent) : (s.setCur a).copies = s.copies := rfl
@[simp] theorem setCur_mqs (s : State) (a : Agent) : (s.setCur a).mqs = s.mqs := rfl
@[simp] theorem setCur_cmds (s : State) (a : Agent) : (s.setCur a).cmds = s.cmds := rfl
@[simp] theorem setCur_cores (s : State) (a : Agent) : (s.setCur a).cores = s.cores := rfl
@[simp] theorem setCur_dies (s : State) (a : Agent) : (s.setCur a).dies = s.dies := rfl
@[simp] theorem setCur_decants (s : State) (a : Agent) : (s.setCur a).decants = s.decants := rfl
@[simp] theorem setCur_roFrames (s : State) (a : Agent) : (s.setCur a).roFrames = s.roFrames := rfl
@[simp] theorem setCur_ctxs (s : State) (a : Agent) : (s.setCur a).ctxs = s.ctxs := rfl
@[simp] theorem setCur_objs (s : State) (a : Agent) : (s.setCur a).objs = s.objs := rfl
@[simp] theorem setCur_faults (s : State) (a : Agent) : (s.setCur a).faults = s.faults := rfl
@[simp] theorem setCur_images (s : State) (a : Agent) : (s.setCur a).images = s.images := rfl
@[simp] theorem setCur_kports (s : State) (a : Agent) : (s.setCur a).kports = s.kports := rfl
@[simp] theorem setCur_mports (s : State) (a : Agent) : (s.setCur a).mports = s.mports := rfl
@[simp] theorem setCur_windows (s : State) (a : Agent) : (s.setCur a).windows = s.windows := rfl
@[simp] theorem setCur_linkcfg (s : State) (a : Agent) : (s.setCur a).linkcfg = s.linkcfg := rfl
@[simp] theorem setCur_bar2 (s : State) (a : Agent) : (s.setCur a).bar2 = s.bar2 := rfl
@[simp] theorem setCur_fw (s : State) (a : Agent) : (s.setCur a).fw = s.fw := rfl

/-! ## `Team.writeScalar` -/

@[simp] theorem writeScalar_ctl (t : Team) (r : Reg) (x : W64) : (t.writeScalar r x).ctl = t.ctl := by cases r <;> rfl
@[simp] theorem writeScalar_level (t : Team) (r : Reg) (x : W64) : (t.writeScalar r x).level = t.level := by cases r <;> rfl
@[simp] theorem writeScalar_gid (t : Team) (r : Reg) (x : W64) : (t.writeScalar r x).gid = t.gid := by cases r <;> rfl
@[simp] theorem writeScalar_tix (t : Team) (r : Reg) (x : W64) : (t.writeScalar r x).tix = t.tix := by cases r <;> rfl
@[simp] theorem writeScalar_slot (t : Team) (r : Reg) (x : W64) : (t.writeScalar r x).slot = t.slot := by cases r <;> rfl
@[simp] theorem writeScalar_tw (t : Team) (r : Reg) (x : W64) : (t.writeScalar r x).tw = t.tw := by cases r <;> rfl
@[simp] theorem writeScalar_allot (t : Team) (r : Reg) (x : W64) : (t.writeScalar r x).allot = t.allot := by cases r <;> rfl
@[simp] theorem writeScalar_st (t : Team) (r : Reg) (x : W64) : (t.writeScalar r x).st = t.st := by cases r <;> rfl
@[simp] theorem writeScalar_wait (t : Team) (r : Reg) (x : W64) : (t.writeScalar r x).wait = t.wait := by cases r <;> rfl
@[simp] theorem writeScalar_since (t : Team) (r : Reg) (x : W64) : (t.writeScalar r x).since = t.since := by cases r <;> rfl
@[simp] theorem writeScalar_pc (t : Team) (r : Reg) (x : W64) : (t.writeScalar r x).pc = t.pc := by cases r <;> rfl
@[simp] theorem writeScalar_clause (t : Team) (r : Reg) (x : W64) : (t.writeScalar r x).clause = t.clause := by cases r <;> rfl
@[simp] theorem writeScalar_vregs (t : Team) (r : Reg) (x : W64) : (t.writeScalar r x).vregs = t.vregs := by cases r <;> rfl
@[simp] theorem writeScalar_cc (t : Team) (r : Reg) (x : W64) : (t.writeScalar r x).cc = t.cc := by cases r <;> rfl
@[simp] theorem writeScalar_flags (t : Team) (r : Reg) (x : W64) : (t.writeScalar r x).flags = t.flags := by cases r <;> rfl
@[simp] theorem writeScalar_fpflags (t : Team) (r : Reg) (x : W64) : (t.writeScalar r x).fpflags = t.fpflags := by cases r <;> rfl
@[simp] theorem writeScalar_sh0 (t : Team) (r : Reg) (x : W64) : (t.writeScalar r x).sh0 = t.sh0 := by cases r <;> rfl
@[simp] theorem writeScalar_sh1 (t : Team) (r : Reg) (x : W64) : (t.writeScalar r x).sh1 = t.sh1 := by cases r <;> rfl
@[simp] theorem writeScalar_sh2 (t : Team) (r : Reg) (x : W64) : (t.writeScalar r x).sh2 = t.sh2 := by cases r <;> rfl
@[simp] theorem writeScalar_sh3 (t : Team) (r : Reg) (x : W64) : (t.writeScalar r x).sh3 = t.sh3 := by cases r <;> rfl
@[simp] theorem writeScalar_winBase (t : Team) (r : Reg) (x : W64) : (t.writeScalar r x).winBase = t.winBase := by cases r <;> rfl
@[simp] theorem writeScalar_active (t : Team) (r : Reg) (x : W64) : (t.writeScalar r x).active = t.active := by cases r <;> rfl
@[simp] theorem writeScalar_exited (t : Team) (r : Reg) (x : W64) : (t.writeScalar r x).exited = t.exited := by cases r <;> rfl
@[simp] theorem writeScalar_fault (t : Team) (r : Reg) (x : W64) : (t.writeScalar r x).fault = t.fault := by cases r <;> rfl
@[simp] theorem writeScalar_stack (t : Team) (r : Reg) (x : W64) : (t.writeScalar r x).stack = t.stack := by cases r <;> rfl
@[simp] theorem writeScalar_trapTok (t : Team) (r : Reg) (x : W64) : (t.writeScalar r x).trapTok = t.trapTok := by cases r <;> rfl
@[simp] theorem writeScalar_loop (t : Team) (r : Reg) (x : W64) : (t.writeScalar r x).loop = t.loop := by cases r <;> rfl
@[simp] theorem writeScalar_gang (t : Team) (r : Reg) (x : W64) : (t.writeScalar r x).gang = t.gang := by cases r <;> rfl
@[simp] theorem writeScalar_pending (t : Team) (r : Reg) (x : W64) : (t.writeScalar r x).pending = t.pending := by cases r <;> rfl
@[simp] theorem writeScalar_pendOvf (t : Team) (r : Reg) (x : W64) : (t.writeScalar r x).pendOvf = t.pendOvf := by cases r <;> rfl
@[simp] theorem writeScalar_trap (t : Team) (r : Reg) (x : W64) : (t.writeScalar r x).trap = t.trap := by cases r <;> rfl
@[simp] theorem writeScalar_fromDrain (t : Team) (r : Reg) (x : W64) : (t.writeScalar r x).fromDrain = t.fromDrain := by cases r <;> rfl
@[simp] theorem writeScalar_errs (t : Team) (r : Reg) (x : W64) : (t.writeScalar r x).errs = t.errs := by cases r <;> rfl
@[simp] theorem writeScalar_replay (t : Team) (r : Reg) (x : W64) : (t.writeScalar r x).replay = t.replay := by cases r <;> rfl
@[simp] theorem writeScalar_bpSkip (t : Team) (r : Reg) (x : W64) : (t.writeScalar r x).bpSkip = t.bpSkip := by cases r <;> rfl
@[simp] theorem writeScalar_arrived (t : Team) (r : Reg) (x : W64) : (t.writeScalar r x).arrived = t.arrived := by cases r <;> rfl
@[simp] theorem writeScalar_hint (t : Team) (r : Reg) (x : W64) : (t.writeScalar r x).hint = t.hint := by cases r <;> rfl
@[simp] theorem writeScalar_hintAt (t : Team) (r : Reg) (x : W64) : (t.writeScalar r x).hintAt = t.hintAt := by cases r <;> rfl
@[simp] theorem writeScalar_hb (t : Team) (r : Reg) (x : W64) : (t.writeScalar r x).hb = t.hb := by cases r <;> rfl
@[simp] theorem writeScalar_own (t : Team) (r : Reg) (x : W64) : (t.writeScalar r x).own = t.own := by cases r <;> rfl
@[simp] theorem writeScalar_seen (t : Team) (r : Reg) (x : W64) : (t.writeScalar r x).seen = t.seen := by cases r <;> rfl
@[simp] theorem writeScalar_latent (t : Team) (r : Reg) (x : W64) : (t.writeScalar r x).latent = t.latent := by cases r <;> rfl
@[simp] theorem writeScalar_fences (t : Team) (r : Reg) (x : W64) : (t.writeScalar r x).fences = t.fences := by cases r <;> rfl
@[simp] theorem writeScalar_posts (t : Team) (r : Reg) (x : W64) : (t.writeScalar r x).posts = t.posts := by cases r <;> rfl
@[simp] theorem writeScalar_held (t : Team) (r : Reg) (x : W64) : (t.writeScalar r x).held = t.held := by cases r <;> rfl
@[simp] theorem writeScalar_relAt (t : Team) (r : Reg) (x : W64) : (t.writeScalar r x).relAt = t.relAt := by cases r <;> rfl

/-! ## `Team.writeLanes` -/

@[simp] theorem writeLanes_ctl (t : Team) (r : Nat) (ls : List Nat) (f : Nat → W32) : (t.writeLanes r ls f).ctl = t.ctl := rfl
@[simp] theorem writeLanes_level (t : Team) (r : Nat) (ls : List Nat) (f : Nat → W32) : (t.writeLanes r ls f).level = t.level := rfl
@[simp] theorem writeLanes_gid (t : Team) (r : Nat) (ls : List Nat) (f : Nat → W32) : (t.writeLanes r ls f).gid = t.gid := rfl
@[simp] theorem writeLanes_tix (t : Team) (r : Nat) (ls : List Nat) (f : Nat → W32) : (t.writeLanes r ls f).tix = t.tix := rfl
@[simp] theorem writeLanes_slot (t : Team) (r : Nat) (ls : List Nat) (f : Nat → W32) : (t.writeLanes r ls f).slot = t.slot := rfl
@[simp] theorem writeLanes_tw (t : Team) (r : Nat) (ls : List Nat) (f : Nat → W32) : (t.writeLanes r ls f).tw = t.tw := rfl
@[simp] theorem writeLanes_allot (t : Team) (r : Nat) (ls : List Nat) (f : Nat → W32) : (t.writeLanes r ls f).allot = t.allot := rfl
@[simp] theorem writeLanes_st (t : Team) (r : Nat) (ls : List Nat) (f : Nat → W32) : (t.writeLanes r ls f).st = t.st := rfl
@[simp] theorem writeLanes_wait (t : Team) (r : Nat) (ls : List Nat) (f : Nat → W32) : (t.writeLanes r ls f).wait = t.wait := rfl
@[simp] theorem writeLanes_since (t : Team) (r : Nat) (ls : List Nat) (f : Nat → W32) : (t.writeLanes r ls f).since = t.since := rfl
@[simp] theorem writeLanes_pc (t : Team) (r : Nat) (ls : List Nat) (f : Nat → W32) : (t.writeLanes r ls f).pc = t.pc := rfl
@[simp] theorem writeLanes_clause (t : Team) (r : Nat) (ls : List Nat) (f : Nat → W32) : (t.writeLanes r ls f).clause = t.clause := rfl
@[simp] theorem writeLanes_sregs (t : Team) (r : Nat) (ls : List Nat) (f : Nat → W32) : (t.writeLanes r ls f).sregs = t.sregs := rfl
@[simp] theorem writeLanes_cc (t : Team) (r : Nat) (ls : List Nat) (f : Nat → W32) : (t.writeLanes r ls f).cc = t.cc := rfl
@[simp] theorem writeLanes_flags (t : Team) (r : Nat) (ls : List Nat) (f : Nat → W32) : (t.writeLanes r ls f).flags = t.flags := rfl
@[simp] theorem writeLanes_fpflags (t : Team) (r : Nat) (ls : List Nat) (f : Nat → W32) : (t.writeLanes r ls f).fpflags = t.fpflags := rfl
@[simp] theorem writeLanes_sh0 (t : Team) (r : Nat) (ls : List Nat) (f : Nat → W32) : (t.writeLanes r ls f).sh0 = t.sh0 := rfl
@[simp] theorem writeLanes_sh1 (t : Team) (r : Nat) (ls : List Nat) (f : Nat → W32) : (t.writeLanes r ls f).sh1 = t.sh1 := rfl
@[simp] theorem writeLanes_sh2 (t : Team) (r : Nat) (ls : List Nat) (f : Nat → W32) : (t.writeLanes r ls f).sh2 = t.sh2 := rfl
@[simp] theorem writeLanes_sh3 (t : Team) (r : Nat) (ls : List Nat) (f : Nat → W32) : (t.writeLanes r ls f).sh3 = t.sh3 := rfl
@[simp] theorem writeLanes_winBase (t : Team) (r : Nat) (ls : List Nat) (f : Nat → W32) : (t.writeLanes r ls f).winBase = t.winBase := rfl
@[simp] theorem writeLanes_active (t : Team) (r : Nat) (ls : List Nat) (f : Nat → W32) : (t.writeLanes r ls f).active = t.active := rfl
@[simp] theorem writeLanes_exited (t : Team) (r : Nat) (ls : List Nat) (f : Nat → W32) : (t.writeLanes r ls f).exited = t.exited := rfl
@[simp] theorem writeLanes_fault (t : Team) (r : Nat) (ls : List Nat) (f : Nat → W32) : (t.writeLanes r ls f).fault = t.fault := rfl
@[simp] theorem writeLanes_stack (t : Team) (r : Nat) (ls : List Nat) (f : Nat → W32) : (t.writeLanes r ls f).stack = t.stack := rfl
@[simp] theorem writeLanes_trapTok (t : Team) (r : Nat) (ls : List Nat) (f : Nat → W32) : (t.writeLanes r ls f).trapTok = t.trapTok := rfl
@[simp] theorem writeLanes_loop (t : Team) (r : Nat) (ls : List Nat) (f : Nat → W32) : (t.writeLanes r ls f).loop = t.loop := rfl
@[simp] theorem writeLanes_gang (t : Team) (r : Nat) (ls : List Nat) (f : Nat → W32) : (t.writeLanes r ls f).gang = t.gang := rfl
@[simp] theorem writeLanes_pending (t : Team) (r : Nat) (ls : List Nat) (f : Nat → W32) : (t.writeLanes r ls f).pending = t.pending := rfl
@[simp] theorem writeLanes_pendOvf (t : Team) (r : Nat) (ls : List Nat) (f : Nat → W32) : (t.writeLanes r ls f).pendOvf = t.pendOvf := rfl
@[simp] theorem writeLanes_trap (t : Team) (r : Nat) (ls : List Nat) (f : Nat → W32) : (t.writeLanes r ls f).trap = t.trap := rfl
@[simp] theorem writeLanes_fromDrain (t : Team) (r : Nat) (ls : List Nat) (f : Nat → W32) : (t.writeLanes r ls f).fromDrain = t.fromDrain := rfl
@[simp] theorem writeLanes_errs (t : Team) (r : Nat) (ls : List Nat) (f : Nat → W32) : (t.writeLanes r ls f).errs = t.errs := rfl
@[simp] theorem writeLanes_replay (t : Team) (r : Nat) (ls : List Nat) (f : Nat → W32) : (t.writeLanes r ls f).replay = t.replay := rfl
@[simp] theorem writeLanes_bpSkip (t : Team) (r : Nat) (ls : List Nat) (f : Nat → W32) : (t.writeLanes r ls f).bpSkip = t.bpSkip := rfl
@[simp] theorem writeLanes_arrived (t : Team) (r : Nat) (ls : List Nat) (f : Nat → W32) : (t.writeLanes r ls f).arrived = t.arrived := rfl
@[simp] theorem writeLanes_hint (t : Team) (r : Nat) (ls : List Nat) (f : Nat → W32) : (t.writeLanes r ls f).hint = t.hint := rfl
@[simp] theorem writeLanes_hintAt (t : Team) (r : Nat) (ls : List Nat) (f : Nat → W32) : (t.writeLanes r ls f).hintAt = t.hintAt := rfl
@[simp] theorem writeLanes_hb (t : Team) (r : Nat) (ls : List Nat) (f : Nat → W32) : (t.writeLanes r ls f).hb = t.hb := rfl
@[simp] theorem writeLanes_own (t : Team) (r : Nat) (ls : List Nat) (f : Nat → W32) : (t.writeLanes r ls f).own = t.own := rfl
@[simp] theorem writeLanes_seen (t : Team) (r : Nat) (ls : List Nat) (f : Nat → W32) : (t.writeLanes r ls f).seen = t.seen := rfl
@[simp] theorem writeLanes_latent (t : Team) (r : Nat) (ls : List Nat) (f : Nat → W32) : (t.writeLanes r ls f).latent = t.latent := rfl
@[simp] theorem writeLanes_fences (t : Team) (r : Nat) (ls : List Nat) (f : Nat → W32) : (t.writeLanes r ls f).fences = t.fences := rfl
@[simp] theorem writeLanes_posts (t : Team) (r : Nat) (ls : List Nat) (f : Nat → W32) : (t.writeLanes r ls f).posts = t.posts := rfl
@[simp] theorem writeLanes_held (t : Team) (r : Nat) (ls : List Nat) (f : Nat → W32) : (t.writeLanes r ls f).held = t.held := rfl
@[simp] theorem writeLanes_relAt (t : Team) (r : Nat) (ls : List Nat) (f : Nat → W32) : (t.writeLanes r ls f).relAt = t.relAt := rfl

/-! ## `Team.writeNibs` -/

@[simp] theorem writeNibs_ctl (t : Team) (ls : List Nat) (f : Nat → BitVec 4) : (t.writeNibs ls f).ctl = t.ctl := rfl
@[simp] theorem writeNibs_level (t : Team) (ls : List Nat) (f : Nat → BitVec 4) : (t.writeNibs ls f).level = t.level := rfl
@[simp] theorem writeNibs_gid (t : Team) (ls : List Nat) (f : Nat → BitVec 4) : (t.writeNibs ls f).gid = t.gid := rfl
@[simp] theorem writeNibs_tix (t : Team) (ls : List Nat) (f : Nat → BitVec 4) : (t.writeNibs ls f).tix = t.tix := rfl
@[simp] theorem writeNibs_slot (t : Team) (ls : List Nat) (f : Nat → BitVec 4) : (t.writeNibs ls f).slot = t.slot := rfl
@[simp] theorem writeNibs_tw (t : Team) (ls : List Nat) (f : Nat → BitVec 4) : (t.writeNibs ls f).tw = t.tw := rfl
@[simp] theorem writeNibs_allot (t : Team) (ls : List Nat) (f : Nat → BitVec 4) : (t.writeNibs ls f).allot = t.allot := rfl
@[simp] theorem writeNibs_st (t : Team) (ls : List Nat) (f : Nat → BitVec 4) : (t.writeNibs ls f).st = t.st := rfl
@[simp] theorem writeNibs_wait (t : Team) (ls : List Nat) (f : Nat → BitVec 4) : (t.writeNibs ls f).wait = t.wait := rfl
@[simp] theorem writeNibs_since (t : Team) (ls : List Nat) (f : Nat → BitVec 4) : (t.writeNibs ls f).since = t.since := rfl
@[simp] theorem writeNibs_pc (t : Team) (ls : List Nat) (f : Nat → BitVec 4) : (t.writeNibs ls f).pc = t.pc := rfl
@[simp] theorem writeNibs_clause (t : Team) (ls : List Nat) (f : Nat → BitVec 4) : (t.writeNibs ls f).clause = t.clause := rfl
@[simp] theorem writeNibs_vregs (t : Team) (ls : List Nat) (f : Nat → BitVec 4) : (t.writeNibs ls f).vregs = t.vregs := rfl
@[simp] theorem writeNibs_sregs (t : Team) (ls : List Nat) (f : Nat → BitVec 4) : (t.writeNibs ls f).sregs = t.sregs := rfl
@[simp] theorem writeNibs_flags (t : Team) (ls : List Nat) (f : Nat → BitVec 4) : (t.writeNibs ls f).flags = t.flags := rfl
@[simp] theorem writeNibs_fpflags (t : Team) (ls : List Nat) (f : Nat → BitVec 4) : (t.writeNibs ls f).fpflags = t.fpflags := rfl
@[simp] theorem writeNibs_sh0 (t : Team) (ls : List Nat) (f : Nat → BitVec 4) : (t.writeNibs ls f).sh0 = t.sh0 := rfl
@[simp] theorem writeNibs_sh1 (t : Team) (ls : List Nat) (f : Nat → BitVec 4) : (t.writeNibs ls f).sh1 = t.sh1 := rfl
@[simp] theorem writeNibs_sh2 (t : Team) (ls : List Nat) (f : Nat → BitVec 4) : (t.writeNibs ls f).sh2 = t.sh2 := rfl
@[simp] theorem writeNibs_sh3 (t : Team) (ls : List Nat) (f : Nat → BitVec 4) : (t.writeNibs ls f).sh3 = t.sh3 := rfl
@[simp] theorem writeNibs_winBase (t : Team) (ls : List Nat) (f : Nat → BitVec 4) : (t.writeNibs ls f).winBase = t.winBase := rfl
@[simp] theorem writeNibs_active (t : Team) (ls : List Nat) (f : Nat → BitVec 4) : (t.writeNibs ls f).active = t.active := rfl
@[simp] theorem writeNibs_exited (t : Team) (ls : List Nat) (f : Nat → BitVec 4) : (t.writeNibs ls f).exited = t.exited := rfl
@[simp] theorem writeNibs_fault (t : Team) (ls : List Nat) (f : Nat → BitVec 4) : (t.writeNibs ls f).fault = t.fault := rfl
@[simp] theorem writeNibs_stack (t : Team) (ls : List Nat) (f : Nat → BitVec 4) : (t.writeNibs ls f).stack = t.stack := rfl
@[simp] theorem writeNibs_trapTok (t : Team) (ls : List Nat) (f : Nat → BitVec 4) : (t.writeNibs ls f).trapTok = t.trapTok := rfl
@[simp] theorem writeNibs_loop (t : Team) (ls : List Nat) (f : Nat → BitVec 4) : (t.writeNibs ls f).loop = t.loop := rfl
@[simp] theorem writeNibs_gang (t : Team) (ls : List Nat) (f : Nat → BitVec 4) : (t.writeNibs ls f).gang = t.gang := rfl
@[simp] theorem writeNibs_pending (t : Team) (ls : List Nat) (f : Nat → BitVec 4) : (t.writeNibs ls f).pending = t.pending := rfl
@[simp] theorem writeNibs_pendOvf (t : Team) (ls : List Nat) (f : Nat → BitVec 4) : (t.writeNibs ls f).pendOvf = t.pendOvf := rfl
@[simp] theorem writeNibs_trap (t : Team) (ls : List Nat) (f : Nat → BitVec 4) : (t.writeNibs ls f).trap = t.trap := rfl
@[simp] theorem writeNibs_fromDrain (t : Team) (ls : List Nat) (f : Nat → BitVec 4) : (t.writeNibs ls f).fromDrain = t.fromDrain := rfl
@[simp] theorem writeNibs_errs (t : Team) (ls : List Nat) (f : Nat → BitVec 4) : (t.writeNibs ls f).errs = t.errs := rfl
@[simp] theorem writeNibs_replay (t : Team) (ls : List Nat) (f : Nat → BitVec 4) : (t.writeNibs ls f).replay = t.replay := rfl
@[simp] theorem writeNibs_bpSkip (t : Team) (ls : List Nat) (f : Nat → BitVec 4) : (t.writeNibs ls f).bpSkip = t.bpSkip := rfl
@[simp] theorem writeNibs_arrived (t : Team) (ls : List Nat) (f : Nat → BitVec 4) : (t.writeNibs ls f).arrived = t.arrived := rfl
@[simp] theorem writeNibs_hint (t : Team) (ls : List Nat) (f : Nat → BitVec 4) : (t.writeNibs ls f).hint = t.hint := rfl
@[simp] theorem writeNibs_hintAt (t : Team) (ls : List Nat) (f : Nat → BitVec 4) : (t.writeNibs ls f).hintAt = t.hintAt := rfl
@[simp] theorem writeNibs_hb (t : Team) (ls : List Nat) (f : Nat → BitVec 4) : (t.writeNibs ls f).hb = t.hb := rfl
@[simp] theorem writeNibs_own (t : Team) (ls : List Nat) (f : Nat → BitVec 4) : (t.writeNibs ls f).own = t.own := rfl
@[simp] theorem writeNibs_seen (t : Team) (ls : List Nat) (f : Nat → BitVec 4) : (t.writeNibs ls f).seen = t.seen := rfl
@[simp] theorem writeNibs_latent (t : Team) (ls : List Nat) (f : Nat → BitVec 4) : (t.writeNibs ls f).latent = t.latent := rfl
@[simp] theorem writeNibs_fences (t : Team) (ls : List Nat) (f : Nat → BitVec 4) : (t.writeNibs ls f).fences = t.fences := rfl
@[simp] theorem writeNibs_posts (t : Team) (ls : List Nat) (f : Nat → BitVec 4) : (t.writeNibs ls f).posts = t.posts := rfl
@[simp] theorem writeNibs_held (t : Team) (ls : List Nat) (f : Nat → BitVec 4) : (t.writeNibs ls f).held = t.held := rfl
@[simp] theorem writeNibs_relAt (t : Team) (ls : List Nat) (f : Nat → BitVec 4) : (t.writeNibs ls f).relAt = t.relAt := rfl

/-! ## `Team.addFp` -/

@[simp] theorem addFp_ctl (t : Team) (f : BitVec 5) : (t.addFp f).ctl = t.ctl := rfl
@[simp] theorem addFp_level (t : Team) (f : BitVec 5) : (t.addFp f).level = t.level := rfl
@[simp] theorem addFp_gid (t : Team) (f : BitVec 5) : (t.addFp f).gid = t.gid := rfl
@[simp] theorem addFp_tix (t : Team) (f : BitVec 5) : (t.addFp f).tix = t.tix := rfl
@[simp] theorem addFp_slot (t : Team) (f : BitVec 5) : (t.addFp f).slot = t.slot := rfl
@[simp] theorem addFp_tw (t : Team) (f : BitVec 5) : (t.addFp f).tw = t.tw := rfl
@[simp] theorem addFp_allot (t : Team) (f : BitVec 5) : (t.addFp f).allot = t.allot := rfl
@[simp] theorem addFp_st (t : Team) (f : BitVec 5) : (t.addFp f).st = t.st := rfl
@[simp] theorem addFp_wait (t : Team) (f : BitVec 5) : (t.addFp f).wait = t.wait := rfl
@[simp] theorem addFp_since (t : Team) (f : BitVec 5) : (t.addFp f).since = t.since := rfl
@[simp] theorem addFp_pc (t : Team) (f : BitVec 5) : (t.addFp f).pc = t.pc := rfl
@[simp] theorem addFp_clause (t : Team) (f : BitVec 5) : (t.addFp f).clause = t.clause := rfl
@[simp] theorem addFp_vregs (t : Team) (f : BitVec 5) : (t.addFp f).vregs = t.vregs := rfl
@[simp] theorem addFp_sregs (t : Team) (f : BitVec 5) : (t.addFp f).sregs = t.sregs := rfl
@[simp] theorem addFp_cc (t : Team) (f : BitVec 5) : (t.addFp f).cc = t.cc := rfl
@[simp] theorem addFp_flags (t : Team) (f : BitVec 5) : (t.addFp f).flags = t.flags := rfl
@[simp] theorem addFp_sh0 (t : Team) (f : BitVec 5) : (t.addFp f).sh0 = t.sh0 := rfl
@[simp] theorem addFp_sh1 (t : Team) (f : BitVec 5) : (t.addFp f).sh1 = t.sh1 := rfl
@[simp] theorem addFp_sh2 (t : Team) (f : BitVec 5) : (t.addFp f).sh2 = t.sh2 := rfl
@[simp] theorem addFp_sh3 (t : Team) (f : BitVec 5) : (t.addFp f).sh3 = t.sh3 := rfl
@[simp] theorem addFp_winBase (t : Team) (f : BitVec 5) : (t.addFp f).winBase = t.winBase := rfl
@[simp] theorem addFp_active (t : Team) (f : BitVec 5) : (t.addFp f).active = t.active := rfl
@[simp] theorem addFp_exited (t : Team) (f : BitVec 5) : (t.addFp f).exited = t.exited := rfl
@[simp] theorem addFp_fault (t : Team) (f : BitVec 5) : (t.addFp f).fault = t.fault := rfl
@[simp] theorem addFp_stack (t : Team) (f : BitVec 5) : (t.addFp f).stack = t.stack := rfl
@[simp] theorem addFp_trapTok (t : Team) (f : BitVec 5) : (t.addFp f).trapTok = t.trapTok := rfl
@[simp] theorem addFp_loop (t : Team) (f : BitVec 5) : (t.addFp f).loop = t.loop := rfl
@[simp] theorem addFp_gang (t : Team) (f : BitVec 5) : (t.addFp f).gang = t.gang := rfl
@[simp] theorem addFp_pending (t : Team) (f : BitVec 5) : (t.addFp f).pending = t.pending := rfl
@[simp] theorem addFp_pendOvf (t : Team) (f : BitVec 5) : (t.addFp f).pendOvf = t.pendOvf := rfl
@[simp] theorem addFp_trap (t : Team) (f : BitVec 5) : (t.addFp f).trap = t.trap := rfl
@[simp] theorem addFp_fromDrain (t : Team) (f : BitVec 5) : (t.addFp f).fromDrain = t.fromDrain := rfl
@[simp] theorem addFp_errs (t : Team) (f : BitVec 5) : (t.addFp f).errs = t.errs := rfl
@[simp] theorem addFp_replay (t : Team) (f : BitVec 5) : (t.addFp f).replay = t.replay := rfl
@[simp] theorem addFp_bpSkip (t : Team) (f : BitVec 5) : (t.addFp f).bpSkip = t.bpSkip := rfl
@[simp] theorem addFp_arrived (t : Team) (f : BitVec 5) : (t.addFp f).arrived = t.arrived := rfl
@[simp] theorem addFp_hint (t : Team) (f : BitVec 5) : (t.addFp f).hint = t.hint := rfl
@[simp] theorem addFp_hintAt (t : Team) (f : BitVec 5) : (t.addFp f).hintAt = t.hintAt := rfl
@[simp] theorem addFp_hb (t : Team) (f : BitVec 5) : (t.addFp f).hb = t.hb := rfl
@[simp] theorem addFp_own (t : Team) (f : BitVec 5) : (t.addFp f).own = t.own := rfl
@[simp] theorem addFp_seen (t : Team) (f : BitVec 5) : (t.addFp f).seen = t.seen := rfl
@[simp] theorem addFp_latent (t : Team) (f : BitVec 5) : (t.addFp f).latent = t.latent := rfl
@[simp] theorem addFp_fences (t : Team) (f : BitVec 5) : (t.addFp f).fences = t.fences := rfl
@[simp] theorem addFp_posts (t : Team) (f : BitVec 5) : (t.addFp f).posts = t.posts := rfl
@[simp] theorem addFp_held (t : Team) (f : BitVec 5) : (t.addFp f).held = t.held := rfl
@[simp] theorem addFp_relAt (t : Team) (f : BitVec 5) : (t.addFp f).relAt = t.relAt := rfl

/-! ## `Team.applyLanes` -/

@[simp] theorem applyLanes_ctl (t : Team) (d : Option Nat) (pair cc : Bool) (f : Nat → LaneRes) : (t.applyLanes d pair cc f).ctl = t.ctl := by cases d <;> cases pair <;> cases cc <;> rfl
@[simp] theorem applyLanes_level (t : Team) (d : Option Nat) (pair cc : Bool) (f : Nat → LaneRes) : (t.applyLanes d pair cc f).level = t.level := by cases d <;> cases pair <;> cases cc <;> rfl
@[simp] theorem applyLanes_gid (t : Team) (d : Option Nat) (pair cc : Bool) (f : Nat → LaneRes) : (t.applyLanes d pair cc f).gid = t.gid := by cases d <;> cases pair <;> cases cc <;> rfl
@[simp] theorem applyLanes_tix (t : Team) (d : Option Nat) (pair cc : Bool) (f : Nat → LaneRes) : (t.applyLanes d pair cc f).tix = t.tix := by cases d <;> cases pair <;> cases cc <;> rfl
@[simp] theorem applyLanes_slot (t : Team) (d : Option Nat) (pair cc : Bool) (f : Nat → LaneRes) : (t.applyLanes d pair cc f).slot = t.slot := by cases d <;> cases pair <;> cases cc <;> rfl
@[simp] theorem applyLanes_tw (t : Team) (d : Option Nat) (pair cc : Bool) (f : Nat → LaneRes) : (t.applyLanes d pair cc f).tw = t.tw := by cases d <;> cases pair <;> cases cc <;> rfl
@[simp] theorem applyLanes_allot (t : Team) (d : Option Nat) (pair cc : Bool) (f : Nat → LaneRes) : (t.applyLanes d pair cc f).allot = t.allot := by cases d <;> cases pair <;> cases cc <;> rfl
@[simp] theorem applyLanes_st (t : Team) (d : Option Nat) (pair cc : Bool) (f : Nat → LaneRes) : (t.applyLanes d pair cc f).st = t.st := by cases d <;> cases pair <;> cases cc <;> rfl
@[simp] theorem applyLanes_wait (t : Team) (d : Option Nat) (pair cc : Bool) (f : Nat → LaneRes) : (t.applyLanes d pair cc f).wait = t.wait := by cases d <;> cases pair <;> cases cc <;> rfl
@[simp] theorem applyLanes_since (t : Team) (d : Option Nat) (pair cc : Bool) (f : Nat → LaneRes) : (t.applyLanes d pair cc f).since = t.since := by cases d <;> cases pair <;> cases cc <;> rfl
@[simp] theorem applyLanes_pc (t : Team) (d : Option Nat) (pair cc : Bool) (f : Nat → LaneRes) : (t.applyLanes d pair cc f).pc = t.pc := by cases d <;> cases pair <;> cases cc <;> rfl
@[simp] theorem applyLanes_clause (t : Team) (d : Option Nat) (pair cc : Bool) (f : Nat → LaneRes) : (t.applyLanes d pair cc f).clause = t.clause := by cases d <;> cases pair <;> cases cc <;> rfl
@[simp] theorem applyLanes_sregs (t : Team) (d : Option Nat) (pair cc : Bool) (f : Nat → LaneRes) : (t.applyLanes d pair cc f).sregs = t.sregs := by cases d <;> cases pair <;> cases cc <;> rfl
@[simp] theorem applyLanes_flags (t : Team) (d : Option Nat) (pair cc : Bool) (f : Nat → LaneRes) : (t.applyLanes d pair cc f).flags = t.flags := by cases d <;> cases pair <;> cases cc <;> rfl
@[simp] theorem applyLanes_sh0 (t : Team) (d : Option Nat) (pair cc : Bool) (f : Nat → LaneRes) : (t.applyLanes d pair cc f).sh0 = t.sh0 := by cases d <;> cases pair <;> cases cc <;> rfl
@[simp] theorem applyLanes_sh1 (t : Team) (d : Option Nat) (pair cc : Bool) (f : Nat → LaneRes) : (t.applyLanes d pair cc f).sh1 = t.sh1 := by cases d <;> cases pair <;> cases cc <;> rfl
@[simp] theorem applyLanes_sh2 (t : Team) (d : Option Nat) (pair cc : Bool) (f : Nat → LaneRes) : (t.applyLanes d pair cc f).sh2 = t.sh2 := by cases d <;> cases pair <;> cases cc <;> rfl
@[simp] theorem applyLanes_sh3 (t : Team) (d : Option Nat) (pair cc : Bool) (f : Nat → LaneRes) : (t.applyLanes d pair cc f).sh3 = t.sh3 := by cases d <;> cases pair <;> cases cc <;> rfl
@[simp] theorem applyLanes_winBase (t : Team) (d : Option Nat) (pair cc : Bool) (f : Nat → LaneRes) : (t.applyLanes d pair cc f).winBase = t.winBase := by cases d <;> cases pair <;> cases cc <;> rfl
@[simp] theorem applyLanes_active (t : Team) (d : Option Nat) (pair cc : Bool) (f : Nat → LaneRes) : (t.applyLanes d pair cc f).active = t.active := by cases d <;> cases pair <;> cases cc <;> rfl
@[simp] theorem applyLanes_exited (t : Team) (d : Option Nat) (pair cc : Bool) (f : Nat → LaneRes) : (t.applyLanes d pair cc f).exited = t.exited := by cases d <;> cases pair <;> cases cc <;> rfl
@[simp] theorem applyLanes_fault (t : Team) (d : Option Nat) (pair cc : Bool) (f : Nat → LaneRes) : (t.applyLanes d pair cc f).fault = t.fault := by cases d <;> cases pair <;> cases cc <;> rfl
@[simp] theorem applyLanes_stack (t : Team) (d : Option Nat) (pair cc : Bool) (f : Nat → LaneRes) : (t.applyLanes d pair cc f).stack = t.stack := by cases d <;> cases pair <;> cases cc <;> rfl
@[simp] theorem applyLanes_trapTok (t : Team) (d : Option Nat) (pair cc : Bool) (f : Nat → LaneRes) : (t.applyLanes d pair cc f).trapTok = t.trapTok := by cases d <;> cases pair <;> cases cc <;> rfl
@[simp] theorem applyLanes_loop (t : Team) (d : Option Nat) (pair cc : Bool) (f : Nat → LaneRes) : (t.applyLanes d pair cc f).loop = t.loop := by cases d <;> cases pair <;> cases cc <;> rfl
@[simp] theorem applyLanes_gang (t : Team) (d : Option Nat) (pair cc : Bool) (f : Nat → LaneRes) : (t.applyLanes d pair cc f).gang = t.gang := by cases d <;> cases pair <;> cases cc <;> rfl
@[simp] theorem applyLanes_pending (t : Team) (d : Option Nat) (pair cc : Bool) (f : Nat → LaneRes) : (t.applyLanes d pair cc f).pending = t.pending := by cases d <;> cases pair <;> cases cc <;> rfl
@[simp] theorem applyLanes_pendOvf (t : Team) (d : Option Nat) (pair cc : Bool) (f : Nat → LaneRes) : (t.applyLanes d pair cc f).pendOvf = t.pendOvf := by cases d <;> cases pair <;> cases cc <;> rfl
@[simp] theorem applyLanes_trap (t : Team) (d : Option Nat) (pair cc : Bool) (f : Nat → LaneRes) : (t.applyLanes d pair cc f).trap = t.trap := by cases d <;> cases pair <;> cases cc <;> rfl
@[simp] theorem applyLanes_fromDrain (t : Team) (d : Option Nat) (pair cc : Bool) (f : Nat → LaneRes) : (t.applyLanes d pair cc f).fromDrain = t.fromDrain := by cases d <;> cases pair <;> cases cc <;> rfl
@[simp] theorem applyLanes_errs (t : Team) (d : Option Nat) (pair cc : Bool) (f : Nat → LaneRes) : (t.applyLanes d pair cc f).errs = t.errs := by cases d <;> cases pair <;> cases cc <;> rfl
@[simp] theorem applyLanes_replay (t : Team) (d : Option Nat) (pair cc : Bool) (f : Nat → LaneRes) : (t.applyLanes d pair cc f).replay = t.replay := by cases d <;> cases pair <;> cases cc <;> rfl
@[simp] theorem applyLanes_bpSkip (t : Team) (d : Option Nat) (pair cc : Bool) (f : Nat → LaneRes) : (t.applyLanes d pair cc f).bpSkip = t.bpSkip := by cases d <;> cases pair <;> cases cc <;> rfl
@[simp] theorem applyLanes_arrived (t : Team) (d : Option Nat) (pair cc : Bool) (f : Nat → LaneRes) : (t.applyLanes d pair cc f).arrived = t.arrived := by cases d <;> cases pair <;> cases cc <;> rfl
@[simp] theorem applyLanes_hint (t : Team) (d : Option Nat) (pair cc : Bool) (f : Nat → LaneRes) : (t.applyLanes d pair cc f).hint = t.hint := by cases d <;> cases pair <;> cases cc <;> rfl
@[simp] theorem applyLanes_hintAt (t : Team) (d : Option Nat) (pair cc : Bool) (f : Nat → LaneRes) : (t.applyLanes d pair cc f).hintAt = t.hintAt := by cases d <;> cases pair <;> cases cc <;> rfl
@[simp] theorem applyLanes_hb (t : Team) (d : Option Nat) (pair cc : Bool) (f : Nat → LaneRes) : (t.applyLanes d pair cc f).hb = t.hb := by cases d <;> cases pair <;> cases cc <;> rfl
@[simp] theorem applyLanes_own (t : Team) (d : Option Nat) (pair cc : Bool) (f : Nat → LaneRes) : (t.applyLanes d pair cc f).own = t.own := by cases d <;> cases pair <;> cases cc <;> rfl
@[simp] theorem applyLanes_seen (t : Team) (d : Option Nat) (pair cc : Bool) (f : Nat → LaneRes) : (t.applyLanes d pair cc f).seen = t.seen := by cases d <;> cases pair <;> cases cc <;> rfl
@[simp] theorem applyLanes_latent (t : Team) (d : Option Nat) (pair cc : Bool) (f : Nat → LaneRes) : (t.applyLanes d pair cc f).latent = t.latent := by cases d <;> cases pair <;> cases cc <;> rfl
@[simp] theorem applyLanes_fences (t : Team) (d : Option Nat) (pair cc : Bool) (f : Nat → LaneRes) : (t.applyLanes d pair cc f).fences = t.fences := by cases d <;> cases pair <;> cases cc <;> rfl
@[simp] theorem applyLanes_posts (t : Team) (d : Option Nat) (pair cc : Bool) (f : Nat → LaneRes) : (t.applyLanes d pair cc f).posts = t.posts := by cases d <;> cases pair <;> cases cc <;> rfl
@[simp] theorem applyLanes_held (t : Team) (d : Option Nat) (pair cc : Bool) (f : Nat → LaneRes) : (t.applyLanes d pair cc f).held = t.held := by cases d <;> cases pair <;> cases cc <;> rfl
@[simp] theorem applyLanes_relAt (t : Team) (d : Option Nat) (pair cc : Bool) (f : Nat → LaneRes) : (t.applyLanes d pair cc f).relAt = t.relAt := by cases d <;> cases pair <;> cases cc <;> rfl

/-! ## `Team.applyScalar` -/

@[simp] theorem applyScalar_ctl (t : Team) (d : Option Reg) (cc : Bool) (r : LaneRes) : (t.applyScalar d cc r).ctl = t.ctl := by cases d <;> cases cc <;> simp [Team.applyScalar]
@[simp] theorem applyScalar_level (t : Team) (d : Option Reg) (cc : Bool) (r : LaneRes) : (t.applyScalar d cc r).level = t.level := by cases d <;> cases cc <;> simp [Team.applyScalar]
@[simp] theorem applyScalar_gid (t : Team) (d : Option Reg) (cc : Bool) (r : LaneRes) : (t.applyScalar d cc r).gid = t.gid := by cases d <;> cases cc <;> simp [Team.applyScalar]
@[simp] theorem applyScalar_tix (t : Team) (d : Option Reg) (cc : Bool) (r : LaneRes) : (t.applyScalar d cc r).tix = t.tix := by cases d <;> cases cc <;> simp [Team.applyScalar]
@[simp] theorem applyScalar_slot (t : Team) (d : Option Reg) (cc : Bool) (r : LaneRes) : (t.applyScalar d cc r).slot = t.slot := by cases d <;> cases cc <;> simp [Team.applyScalar]
@[simp] theorem applyScalar_tw (t : Team) (d : Option Reg) (cc : Bool) (r : LaneRes) : (t.applyScalar d cc r).tw = t.tw := by cases d <;> cases cc <;> simp [Team.applyScalar]
@[simp] theorem applyScalar_allot (t : Team) (d : Option Reg) (cc : Bool) (r : LaneRes) : (t.applyScalar d cc r).allot = t.allot := by cases d <;> cases cc <;> simp [Team.applyScalar]
@[simp] theorem applyScalar_st (t : Team) (d : Option Reg) (cc : Bool) (r : LaneRes) : (t.applyScalar d cc r).st = t.st := by cases d <;> cases cc <;> simp [Team.applyScalar]
@[simp] theorem applyScalar_wait (t : Team) (d : Option Reg) (cc : Bool) (r : LaneRes) : (t.applyScalar d cc r).wait = t.wait := by cases d <;> cases cc <;> simp [Team.applyScalar]
@[simp] theorem applyScalar_since (t : Team) (d : Option Reg) (cc : Bool) (r : LaneRes) : (t.applyScalar d cc r).since = t.since := by cases d <;> cases cc <;> simp [Team.applyScalar]
@[simp] theorem applyScalar_pc (t : Team) (d : Option Reg) (cc : Bool) (r : LaneRes) : (t.applyScalar d cc r).pc = t.pc := by cases d <;> cases cc <;> simp [Team.applyScalar]
@[simp] theorem applyScalar_clause (t : Team) (d : Option Reg) (cc : Bool) (r : LaneRes) : (t.applyScalar d cc r).clause = t.clause := by cases d <;> cases cc <;> simp [Team.applyScalar]
@[simp] theorem applyScalar_vregs (t : Team) (d : Option Reg) (cc : Bool) (r : LaneRes) : (t.applyScalar d cc r).vregs = t.vregs := by cases d <;> cases cc <;> simp [Team.applyScalar]
@[simp] theorem applyScalar_flags (t : Team) (d : Option Reg) (cc : Bool) (r : LaneRes) : (t.applyScalar d cc r).flags = t.flags := by cases d <;> cases cc <;> simp [Team.applyScalar]
@[simp] theorem applyScalar_sh0 (t : Team) (d : Option Reg) (cc : Bool) (r : LaneRes) : (t.applyScalar d cc r).sh0 = t.sh0 := by cases d <;> cases cc <;> simp [Team.applyScalar]
@[simp] theorem applyScalar_sh1 (t : Team) (d : Option Reg) (cc : Bool) (r : LaneRes) : (t.applyScalar d cc r).sh1 = t.sh1 := by cases d <;> cases cc <;> simp [Team.applyScalar]
@[simp] theorem applyScalar_sh2 (t : Team) (d : Option Reg) (cc : Bool) (r : LaneRes) : (t.applyScalar d cc r).sh2 = t.sh2 := by cases d <;> cases cc <;> simp [Team.applyScalar]
@[simp] theorem applyScalar_sh3 (t : Team) (d : Option Reg) (cc : Bool) (r : LaneRes) : (t.applyScalar d cc r).sh3 = t.sh3 := by cases d <;> cases cc <;> simp [Team.applyScalar]
@[simp] theorem applyScalar_winBase (t : Team) (d : Option Reg) (cc : Bool) (r : LaneRes) : (t.applyScalar d cc r).winBase = t.winBase := by cases d <;> cases cc <;> simp [Team.applyScalar]
@[simp] theorem applyScalar_active (t : Team) (d : Option Reg) (cc : Bool) (r : LaneRes) : (t.applyScalar d cc r).active = t.active := by cases d <;> cases cc <;> simp [Team.applyScalar]
@[simp] theorem applyScalar_exited (t : Team) (d : Option Reg) (cc : Bool) (r : LaneRes) : (t.applyScalar d cc r).exited = t.exited := by cases d <;> cases cc <;> simp [Team.applyScalar]
@[simp] theorem applyScalar_fault (t : Team) (d : Option Reg) (cc : Bool) (r : LaneRes) : (t.applyScalar d cc r).fault = t.fault := by cases d <;> cases cc <;> simp [Team.applyScalar]
@[simp] theorem applyScalar_stack (t : Team) (d : Option Reg) (cc : Bool) (r : LaneRes) : (t.applyScalar d cc r).stack = t.stack := by cases d <;> cases cc <;> simp [Team.applyScalar]
@[simp] theorem applyScalar_trapTok (t : Team) (d : Option Reg) (cc : Bool) (r : LaneRes) : (t.applyScalar d cc r).trapTok = t.trapTok := by cases d <;> cases cc <;> simp [Team.applyScalar]
@[simp] theorem applyScalar_loop (t : Team) (d : Option Reg) (cc : Bool) (r : LaneRes) : (t.applyScalar d cc r).loop = t.loop := by cases d <;> cases cc <;> simp [Team.applyScalar]
@[simp] theorem applyScalar_gang (t : Team) (d : Option Reg) (cc : Bool) (r : LaneRes) : (t.applyScalar d cc r).gang = t.gang := by cases d <;> cases cc <;> simp [Team.applyScalar]
@[simp] theorem applyScalar_pending (t : Team) (d : Option Reg) (cc : Bool) (r : LaneRes) : (t.applyScalar d cc r).pending = t.pending := by cases d <;> cases cc <;> simp [Team.applyScalar]
@[simp] theorem applyScalar_pendOvf (t : Team) (d : Option Reg) (cc : Bool) (r : LaneRes) : (t.applyScalar d cc r).pendOvf = t.pendOvf := by cases d <;> cases cc <;> simp [Team.applyScalar]
@[simp] theorem applyScalar_trap (t : Team) (d : Option Reg) (cc : Bool) (r : LaneRes) : (t.applyScalar d cc r).trap = t.trap := by cases d <;> cases cc <;> simp [Team.applyScalar]
@[simp] theorem applyScalar_fromDrain (t : Team) (d : Option Reg) (cc : Bool) (r : LaneRes) : (t.applyScalar d cc r).fromDrain = t.fromDrain := by cases d <;> cases cc <;> simp [Team.applyScalar]
@[simp] theorem applyScalar_errs (t : Team) (d : Option Reg) (cc : Bool) (r : LaneRes) : (t.applyScalar d cc r).errs = t.errs := by cases d <;> cases cc <;> simp [Team.applyScalar]
@[simp] theorem applyScalar_replay (t : Team) (d : Option Reg) (cc : Bool) (r : LaneRes) : (t.applyScalar d cc r).replay = t.replay := by cases d <;> cases cc <;> simp [Team.applyScalar]
@[simp] theorem applyScalar_bpSkip (t : Team) (d : Option Reg) (cc : Bool) (r : LaneRes) : (t.applyScalar d cc r).bpSkip = t.bpSkip := by cases d <;> cases cc <;> simp [Team.applyScalar]
@[simp] theorem applyScalar_arrived (t : Team) (d : Option Reg) (cc : Bool) (r : LaneRes) : (t.applyScalar d cc r).arrived = t.arrived := by cases d <;> cases cc <;> simp [Team.applyScalar]
@[simp] theorem applyScalar_hint (t : Team) (d : Option Reg) (cc : Bool) (r : LaneRes) : (t.applyScalar d cc r).hint = t.hint := by cases d <;> cases cc <;> simp [Team.applyScalar]
@[simp] theorem applyScalar_hintAt (t : Team) (d : Option Reg) (cc : Bool) (r : LaneRes) : (t.applyScalar d cc r).hintAt = t.hintAt := by cases d <;> cases cc <;> simp [Team.applyScalar]
@[simp] theorem applyScalar_hb (t : Team) (d : Option Reg) (cc : Bool) (r : LaneRes) : (t.applyScalar d cc r).hb = t.hb := by cases d <;> cases cc <;> simp [Team.applyScalar]
@[simp] theorem applyScalar_own (t : Team) (d : Option Reg) (cc : Bool) (r : LaneRes) : (t.applyScalar d cc r).own = t.own := by cases d <;> cases cc <;> simp [Team.applyScalar]
@[simp] theorem applyScalar_seen (t : Team) (d : Option Reg) (cc : Bool) (r : LaneRes) : (t.applyScalar d cc r).seen = t.seen := by cases d <;> cases cc <;> simp [Team.applyScalar]
@[simp] theorem applyScalar_latent (t : Team) (d : Option Reg) (cc : Bool) (r : LaneRes) : (t.applyScalar d cc r).latent = t.latent := by cases d <;> cases cc <;> simp [Team.applyScalar]
@[simp] theorem applyScalar_fences (t : Team) (d : Option Reg) (cc : Bool) (r : LaneRes) : (t.applyScalar d cc r).fences = t.fences := by cases d <;> cases cc <;> simp [Team.applyScalar]
@[simp] theorem applyScalar_posts (t : Team) (d : Option Reg) (cc : Bool) (r : LaneRes) : (t.applyScalar d cc r).posts = t.posts := by cases d <;> cases cc <;> simp [Team.applyScalar]
@[simp] theorem applyScalar_held (t : Team) (d : Option Reg) (cc : Bool) (r : LaneRes) : (t.applyScalar d cc r).held = t.held := by cases d <;> cases cc <;> simp [Team.applyScalar]
@[simp] theorem applyScalar_relAt (t : Team) (d : Option Reg) (cc : Bool) (r : LaneRes) : (t.applyScalar d cc r).relAt = t.relAt := by cases d <;> cases cc <;> simp [Team.applyScalar]

/-! ## What the updates write -/

/-- An agent reads back as it was written. -/
theorem agent_setAgent (s : State) (a : Agent) (t : Team) (h : a ≠ .none) (o : a.outside = false) : (s.setAgent a t).agent a = some t := by
  cases a with
  | none => exact absurd rfl h
  | host | peer => cases o
  | team k => simp [State.setAgent, State.agent, alook_aset_same]
  | ctl c x => simp [State.setAgent, State.agent, alook_aset_same]

/-- A core reads back as it was written, and every other core as before. -/
theorem core_setCore (s : State) (c d : Nat) (x : CoreSt) : (s.setCore c x).core d = if d = c then x else s.core d := by
  simp only [State.core, State.setCore, agetD, alook_aset]
  by_cases h : d = c <;> simp [h]

end Sys2Proof.Laws
end

