-- ==== Sys2Proof/Laws/Operands.lean ====
section
/-!
SUPPORT. What the shared forms of the instructions do: the frame of a meaning, the form of an arithmetic instruction and of
a compare, and the number of words of an instruction.
-/
namespace Sys2Proof.Laws
open Sys2Proof Sys2Proof.Machine

/-! ## The frame of a meaning -/

/-- An instruction whose function succeeds: its agent goes on after its words. -/
theorem runAgent_ok {s : State} {t t' : Team} {n : Nat} {f : Env → Team → Except Trap Team} (ha : s.agent s.cur = some t)
    (hf : f (s.env s.cur) t = .ok t') : runAgent s n f = .next (s.setAgent s.cur (t'.advance n)) := by
  simp [runAgent, ha, hf]

/-- An instruction whose function fails takes its trap. -/
theorem runAgent_error {s : State} {t : Team} {n : Nat} {x : Trap} {f : Env → Team → Except Trap Team} (ha : s.agent s.cur = some t)
    (hf : f (s.env s.cur) t = .error x) : runAgent s n f = .next (takeTrap s x) := by
  simp [runAgent, ha, hf]

theorem runState_ok {s s' : State} {t : Team} {f : Env → Team → Except Trap State} (ha : s.agent s.cur = some t)
    (hf : f (s.env s.cur) t = .ok s') : runState s f = .next s' := by
  simp [runState, ha, hf]

theorem runState_error {s : State} {t : Team} {x : Trap} {f : Env → Team → Except Trap State} (ha : s.agent s.cur = some t)
    (hf : f (s.env s.cur) t = .error x) : runState s f = .next (takeTrap s x) := by
  simp [runState, ha, hf]

/-- Everything an instruction of the first frame can do. -/
theorem runAgent_cases {s s' : State} {n : Nat} {f : Env → Team → Except Trap Team} (h : runAgent s n f = .next s') :
    ∃ t, s.agent s.cur = some t ∧ ((∃ t', f (s.env s.cur) t = .ok t' ∧ s' = s.setAgent s.cur (t'.advance n)) ∨
      ∃ x, f (s.env s.cur) t = .error x ∧ s' = takeTrap s x) := by
  unfold runAgent at h
  split at h
  · cases h
  · rename_i t ht
    refine ⟨t, ht, ?_⟩
    split at h
    · rename_i t' hf
      cases h
      exact .inl ⟨t', hf, rfl⟩
    · rename_i x hf
      cases h
      exact .inr ⟨x, hf, rfl⟩

/-- Everything an instruction of the second frame can do. -/
theorem runState_cases {s s' : State} {f : Env → Team → Except Trap State} (h : runState s f = .next s') :
    ∃ t, s.agent s.cur = some t ∧ (f (s.env s.cur) t = .ok s' ∨ ∃ x, f (s.env s.cur) t = .error x ∧ s' = takeTrap s x) := by
  unfold runState at h
  split at h
  · cases h
  · rename_i t ht
    refine ⟨t, ht, ?_⟩
    split at h
    · rename_i s1 hf
      cases h
      exact .inl hf
    · rename_i x hf
      cases h
      exact .inr ⟨x, hf, rfl⟩

/-- Everything a step that is no instruction can do: what it does where it has an occasion, or nothing. -/
theorem runEvent_cases {s : State} {r : Option State} {s' : State} (h : runEvent s r = .next s') : r = some s' ∨ (r = none ∧ s' = s) := by
  cases r <;> cases h
  · exact .inr ⟨rfl, rfl⟩
  · exact .inl rfl

/-- A step that is no instruction, where it has its occasion. -/
@[simp] theorem runEvent_some (s s' : State) : runEvent s (some s') = .next s' := rfl

@[simp] theorem need_true (x : Trap) : need true x = .ok () := rfl
@[simp] theorem need_false (x : Trap) : need false x = .error x := rfl

/-! ## Checks -/

theorem checkSrcs_ok {t : Team} {xs : List Src} (h : ∀ x ∈ xs, okSrc t x = true) : checkSrcs t xs = .ok () := by
  have : (xs.all fun x => okSrc t x) = true := by simpa using h
  simp [checkSrcs, needOperand, this]

theorem checkScalars_ok {t : Team} {xs : List Src} (h : ∀ x ∈ xs, okSrc t x = true ∧ isVec t x = false) : checkScalars t xs = .ok () := by
  have : (xs.all fun x => okSrc t x && !isVec t x) = true := by
    simp only [List.all_eq_true, Bool.and_eq_true, Bool.not_eq_true']
    exact fun x hx => h x hx
  simp [checkScalars, needOperand, this]

theorem checkSh0_ok {t : Team} (hk : t.sh0.kind = .vec) (hs : t.sh0.stale = false) : checkSh0 t = .ok () := by
  simp [checkSh0, hk, hs]

theorem okDst_of_scalar {t : Team} {d : Reg} (h : isScaDst d = true) : okDst t d = true := by
  cases d <;> simp_all [isScaDst, okDst]

theorem not_vec_of_scalar {d : Reg} (h : isScaDst d = true) : isVecDst d = false := by
  cases d <;> simp_all [isScaDst, isVecDst]

theorem okPairDst_of_scalar {t : Team} {d : Reg} (h : isScaDst d = true) : okPairDst t d = true := by
  cases d <;> simp_all [isScaDst, okPairDst, okDst, okPair]

/-! ## The form of an arithmetic instruction (R21, R73, R74) -/

/-- On a scalar destination it executes once. -/
theorem arith_scalar {fm : Form} {d : Reg} {xs : List Src} {sca : Env → Team → LaneRes} {vec : Env → Team → Nat → LaneRes} {e : Env}
    {t : Team} (hd : isScaDst d = true) (hx : ∀ x ∈ xs, okSrc t x = true ∧ isVec t x = false)
    (hp : fm.pair = true → ∀ x ∈ xs, okPairSrc t x = true) :
    arith fm d xs sca vec e t = .ok (t.applyScalar (some d) fm.cc (sca e t)) := by
  have h1 := checkSrcs_ok (t := t) (xs := xs) fun x h => (hx x h).1
  have h2 : (xs.any fun x => isVec t x) = false := by
    simp only [List.any_eq_false, Bool.not_eq_true]
    exact fun x h => (hx x h).2
  have h3 : fm.pair = true → (xs.all fun x => okPairSrc t x) = true := fun h => by simpa using hp h
  have h4 := okDst_of_scalar (t := t) hd
  have h5 := okPairDst_of_scalar (t := t) hd
  have h6 := not_vec_of_scalar hd
  cases hq : fm.pair
  · simp [arith, h1, h2, h4, h6, hq, needOperand, bind, Except.bind]
  · simp [arith, h1, h2, h3 hq, h4, h5, h6, hq, needOperand, bind, Except.bind]

/-- On a vector destination it executes in each live lane. -/
theorem arith_vector {fm : Form} {d : Reg} {xs : List Src} {sca : Env → Team → LaneRes} {vec : Env → Team → Nat → LaneRes} {e : Env}
    {t : Team} (hd : isVecDst d = true) (hk : okDst t d = true) (hx : ∀ x ∈ xs, okSrc t x = true)
    (hp : fm.pair = true → okPairDst t d = true ∧ ∀ x ∈ xs, okPairSrc t x = true) (h0 : t.sh0.kind = .vec) (h1 : t.sh0.stale = false) :
    arith fm d xs sca vec e t = .ok (t.applyLanes (t.dstReg d) fm.pair fm.cc (vec e t)) := by
  have hs := checkSrcs_ok (t := t) (xs := xs) hx
  have hc := checkSh0_ok h0 h1
  have h3 : fm.pair = true → (xs.all fun x => okPairSrc t x) = true := fun h => by simpa using (hp h).2
  cases hq : fm.pair
  · simp [arith, hs, hc, hd, hk, hq, needOperand, bind, Except.bind]
  · simp [arith, hs, hc, hd, hk, hq, h3 hq, (hp hq).1, needOperand, bind, Except.bind]

/-- A compare of scalars executes once, and its nibble goes to every live lane. -/
theorem compare_scalar {pair : Bool} {xs : List Src} {sca : Env → Team → LaneRes} {vec : Env → Team → Nat → LaneRes} {e : Env} {t : Team}
    (hx : ∀ x ∈ xs, okSrc t x = true ∧ isVec t x = false) (hp : pair = true → ∀ x ∈ xs, okPairSrc t x = true) :
    Sys2Proof.Machine.compare pair xs sca vec e t = .ok (t.applyScalar none true (sca e t)) := by
  have h1 := checkSrcs_ok (t := t) (xs := xs) fun x h => (hx x h).1
  have h2 : (xs.any fun x => isVec t x) = false := by
    simp only [List.any_eq_false, Bool.not_eq_true]
    exact fun x h => (hx x h).2
  have h3 : pair = true → (xs.all fun x => okPairSrc t x) = true := fun h => by simpa using hp h
  cases pair
  · simp [Sys2Proof.Machine.compare, h1, h2, bind, Except.bind]
  · simp [Sys2Proof.Machine.compare, h1, h2, h3 rfl, needOperand, bind, Except.bind]

/-- A compare with a vector source executes in each live lane. -/
theorem compare_vector {pair : Bool} {xs : List Src} {sca : Env → Team → LaneRes} {vec : Env → Team → Nat → LaneRes} {e : Env} {t : Team}
    (hv : ∃ x ∈ xs, isVec t x = true) (hx : ∀ x ∈ xs, okSrc t x = true) (hp : pair = true → ∀ x ∈ xs, okPairSrc t x = true)
    (h0 : t.sh0.kind = .vec) (h1 : t.sh0.stale = false) :
    Sys2Proof.Machine.compare pair xs sca vec e t = .ok (t.applyLanes none pair true (vec e t)) := by
  have hs := checkSrcs_ok (t := t) (xs := xs) hx
  have hc := checkSh0_ok h0 h1
  have h2 : (xs.any fun x => isVec t x) = true := by simpa using hv
  have h3 : pair = true → (xs.all fun x => okPairSrc t x) = true := fun h => by simpa using hp h
  cases pair
  · simp [Sys2Proof.Machine.compare, hs, hc, h2, bind, Except.bind]
  · simp [Sys2Proof.Machine.compare, hs, hc, h2, h3 rfl, needOperand, bind, Except.bind]

/-! ## Words -/

@[simp] theorem lits_length (a : Src) : a.lits.length = a.words := by cases a <;> rfl
@[simp] theorem words_reg (r : Reg) : (Src.reg r).words = 0 := rfl
@[simp] theorem words_lit (w : W32) : (Src.lit w).words = 1 := rfl
@[simp] theorem encA_length (op m : Nat) (d : Reg) (a b : Src) : (encA op m d a b).length = 1 + a.words + b.words := by
  simp [encA]; omega
@[simp] theorem encA1_length (op m : Nat) (d : Reg) (a : Src) (b : Nat) : (encA1 op m d a b).length = 1 + a.words := by
  simp [encA1]; omega
@[simp] theorem encA0_length (op m : Nat) (a b : Src) : (encA0 op m a b).length = 1 + a.words + b.words := by
  simp [encA0]; omega
@[simp] theorem encB_length (op : Nat) (d : Reg) (a : Src) (k : Nat) : (encB op d a k).length = 1 + a.words := by
  simp [encB]; omega
@[simp] theorem encC_length (op m : Nat) (d : Reg) (a b : Src) : (encC op m d a b).length = 1 + a.words + b.words := by
  simp [encC]; omega
@[simp] theorem encC1_length (op m : Nat) (d : Reg) (a : Src) (b : Nat) : (encC1 op m d a b).length = 1 + a.words := by
  simp [encC1]; omega
@[simp] theorem encC3_length (op m : Nat) (d a b : Src) : (encC3 op m d a b).length = 1 + d.words + a.words + b.words := by
  simp [encC3]; omega

end Sys2Proof.Laws
end

