-- ==== Sys2Proof/Laws/Memory.lean ====
section
/-!
SUPPORT. What the named operations do to memory: many leave it as it is (`…_mems`), and those that may write it keep its
canonical form (`…_ok`). `mems` gathers what a state holds in the three byte memories, the plain device registers and the
dead units.
-/
namespace Sys2Proof.Laws
open Sys2Proof Sys2Proof.Machine

/-- What a state holds in memory and in plain device registers. -/
def mems (s : State) : List Host.Cell × List Host.Cell × List Host.Cell × List (Nat × W64) × List (Nat × Nat) :=
  (s.mem, s.hostMem, s.peerMem, s.devRegs, s.dead)

@[simp] theorem mems_fold (s : State) : (s.mem, s.hostMem, s.peerMem, s.devRegs, s.dead) = mems s := rfl

theorem foldl_mems {α : Type} {f : State → α → State} (h : ∀ s x, mems (f s x) = mems s) :
    ∀ (l : List α) (s : State), mems (l.foldl f s) = mems s
  | [], _ => rfl
  | x :: r, s => (foldl_mems h r (f s x)).trans (h s x)

@[simp] theorem mems_mk (cur : Agent) (agenda : List Turn) (nextId : Nat) (freeN : Nat) (clock : Nat) (past : List PastWrite) (order : List (Nat × List Nat)) (sfences : List Release) (seen : List (Nat × List (Nat × Nat))) (part : Part) (mem : List Host.Cell) (hostMem : List Host.Cell) (peerMem : List Host.Cell) (devRegs : List (Nat × W64)) (poison : List Nat) (dead : List (Nat × Nat)) (t1size : Nat) (retire : RetireSt) (retired : List (Nat × Nat)) (tlb : List TlbEntry) (atc : List AtcEntry) (teams : List (Nat × Team)) (ctls : List (Nat × Team)) (groups : List (Nat × Group)) (launches : List (Nat × Launch)) (queues : List RunQueue) (joins : List (Nat × JoinUpd)) (bars : List (Nat × SharedBar)) (tiles : List (Nat × Tile)) (pend : List (Nat × PendOp)) (copies : List (Nat × CopyOp)) (mqs : List (Nat × MqOp)) (cmds : List (Nat × EngCmd)) (cores : List (Nat × CoreSt)) (dies : List (Nat × DieSt)) (decants : List (Nat × DecEntry)) (roFrames : List RoFrame) (ctxs : List (Nat × CtxRec)) (objs : List (Nat × ObjRec)) (faults : List (Nat × FaultRec)) (images : List (Nat × Image)) (kports : List (Nat × Port)) (mports : List (Nat × Port)) (windows : List (Nat × (W64 × W64))) (linkcfg : BitVec 10) (bar2 : Nat × Nat) (fw : Firmware) :
    mems (State.mk cur agenda nextId freeN clock past order sfences seen part mem hostMem peerMem devRegs poison dead t1size retire retired tlb atc teams ctls groups launches queues joins bars tiles pend copies mqs cmds cores dies decants roFrames ctxs objs faults images kports mports windows linkcfg bar2 fw) = (mem, hostMem, peerMem, devRegs, dead) := rfl

/-- The canonical form of what `mems` gives. -/
def memOk (m : List Host.Cell × List Host.Cell × List Host.Cell × List (Nat × W64) × List (Nat × Nat)) : Prop :=
  Memory.wf m.1 ∧ Memory.wf m.2.1 ∧ Memory.wf m.2.2.1

theorem memInv_iff (s : State) : MemInv s ↔ memOk (mems s) := Iff.rfl

theorem foldl_ok {α : Type} {f : State → α → State} (h : ∀ s x, memOk (mems s) → memOk (mems (f s x))) :
    ∀ (l : List α) (s : State), memOk (mems s) → memOk (mems (l.foldl f s))
  | [], _, hs => hs
  | x :: r, s, hs => foldl_ok h r (f s x) (h s x hs)

@[simp] theorem killUnits_ok {s : State} (lo hi : Nat) (h : memOk (mems s)) : memOk (mems (s.killUnits lo hi)) :=
  ⟨swf_sclear _ _ _ h.1, h.2⟩
@[simp] theorem reviveUnits_ok {s : State} (lo hi : Nat) (h : memOk (mems s)) : memOk (mems (s.reviveUnits lo hi)) :=
  ⟨swf_sclear _ _ _ h.1, h.2⟩
@[simp] theorem touchUnit_ok {s : State} (u : Nat) (h : memOk (mems s)) : memOk (mems (s.touchUnit u)) := by
  unfold State.touchUnit; split
  · exact reviveUnits_ok _ _ h
  · exact h
@[simp] theorem writeDev_ok {s : State} (pa : Nat) (bs : List Byte) (h : memOk (mems s)) : memOk (mems (s.writeDev pa bs)) := by
  have h1 := touchUnit_ok ((pa + bs.length - 1) / 4096) (touchUnit_ok (pa / 4096) h)
  exact ⟨swf_putBytes _ _ _ h1.1, h1.2⟩
@[simp] theorem writeReg_ok {s : State} (pa : Nat) (x : W64) (h : memOk (mems s)) : memOk (mems (s.writeReg pa x)) := by
  unfold State.writeReg; dsimp only; repeat' split
  all_goals exact h
@[simp] theorem writeTgt_ok {s : State} (t : Target) (bs : List Byte) (h : memOk (mems s)) : memOk (mems (s.writeTgt t bs)) := by
  unfold State.writeTgt; split
  · exact writeDev_ok _ _ h
  · exact ⟨h.1, swf_putBytes _ _ _ h.2.1, h.2.2⟩
  · exact ⟨h.1, h.2.1, swf_putBytes _ _ _ h.2.2⟩
  · exact writeReg_ok _ _ h
  · split <;> exact h
@[simp] theorem writeAs_ok {s : State} (op : Nat) (a : Agent) (st at_ : Bool) (r : List Release) (t : Target) (bs : List Byte) (h : memOk (mems s)) :
    memOk (mems (s.writeAs op a st at_ r t bs)) := by
  unfold State.writeAs; split
  · exact writeTgt_ok t bs h
  · repeat' split
    all_goals first | exact h | exact writeTgt_ok _ bs h
@[simp] theorem putEntry_ok {s : State} (pa x : Nat) (h : memOk (mems s)) : memOk (mems (s.putEntry pa x)) :=
  ⟨swf_putBytes _ _ _ h.1, h.2⟩
@[simp] theorem cache_mems (s : State) (ctx : Nat) (va : Nat) : mems (s.cache ctx va) = mems s := by
  unfold State.cache; split <;> simp
@[simp] theorem setCore_mems (s : State) (c : Nat) (x : CoreSt) : mems (s.setCore c x) = mems s := by
  rfl
@[simp] theorem modCore_mems (s : State) (c : Nat) (f : CoreSt → CoreSt) : mems (s.modCore c f) = mems s := by
  rfl
@[simp] theorem coreEvent_mems (s : State) (c : Nat) (code : Nat) (n : Nat) : mems (s.coreEvent c code n) = mems s := by
  rfl
@[simp] theorem ctxEvent_mems (s : State) (c : Nat) (ctx : Nat) (code : Nat) (n : Nat) : mems (s.ctxEvent c ctx code n) = mems s := by
  unfold State.ctxEvent; split <;> simp
@[simp] theorem dieEvent_mems (s : State) (d : Nat) (code : Nat) (n : Nat) : mems (s.dieEvent d code n) = mems s := by
  rfl
@[simp] theorem setPort_mems (s : State) (p : PortId) (x : Port) : mems (s.setPort p x) = mems s := by
  unfold State.setPort; split <;> simp
@[simp] theorem sendOn_mems (s : State) (t : Target) (req : Option (Nat × Nat)) : mems (s.sendOn t req) = mems s := by
  unfold State.sendOn
  repeat' (first | rfl | (simp; done) | split | (refine (foldl_mems (fun _ _ => ?_) _ _).trans ?_) | (dsimp only) | (simp only [cond_eq_ite]) | simp)
@[simp] theorem sendReqs_mems (s : State) (l : List Target) : mems (s.sendReqs l) = mems s := foldl_mems (fun _ _ => sendOn_mems _ _ _) l s
@[simp] theorem sendWalk_mems (s : State) (ctx va : Nat) : mems (s.sendWalk ctx va) = mems s := sendReqs_mems _ _
@[simp] theorem walked_mems (s : State) (ctx die va : Nat) : mems (s.walked ctx die va) = mems s := by
  rw [State.walked, sendWalk_mems, dieEvent_mems]
@[simp] theorem setAgent_mems (s : State) (a : Agent) (t : Team) : mems (s.setAgent a t) = mems s := by
  unfold State.setAgent; split <;> simp
@[simp] theorem setCur_mems (s : State) (a : Agent) : mems (s.setCur a) = mems s := by
  rfl
@[simp] theorem send_mems (s : State) (mb : Nat) (m : Msg) : mems (s.send mb m) = mems s := by
  unfold State.send; split <;> simp
@[simp] theorem msix_mems (s : State) (v : Nat) : mems (s.msix v) = mems s := by
  unfold State.msix; split <;> simp
@[simp] theorem fwSend_mems (s : State) (core : Nat) (mb : Nat) (vec : Option Nat) (m : Msg) : mems (s.fwSend core mb vec m) = mems s := by
  unfold State.fwSend; dsimp only; repeat' split
  all_goals simp
@[simp] theorem report_mems (s : State) (op : MsgOp) (vec : Nat) (body : List W64) : mems (s.report op vec body) = mems s := by
  simp [State.report]
@[simp] theorem sweepTiles_mems (s : State)  : mems (s.sweepTiles) = mems s := by
  rfl
@[simp] theorem releaseTiles_mems (s : State) (p : Nat → Tile → Bool) : mems (s.releaseTiles p) = mems s := by
  rfl
@[simp] theorem dropBars_mems (s : State) (p : SharedBar → Bool) : mems (s.dropBars p) = mems s := by
  unfold State.dropBars
  repeat' (first | rfl | (simp; done) | split | (refine (foldl_mems (fun _ _ => ?_) _ _).trans ?_) | (dsimp only) | (simp only [cond_eq_ite]) | simp)
@[simp] theorem endLaunch_mems (s : State) (launch : Nat) (d : Nat) : mems (s.endLaunch launch d) = mems s := by
  unfold State.endLaunch; dsimp only; repeat' split
  all_goals simp
@[simp] theorem closeContext_mems (s : State) (ctx : Nat) : mems (s.closeContext ctx) = mems s := by
  unfold State.closeContext
  repeat' (first | rfl | (simp; done) | split | (refine (foldl_mems (fun _ _ => ?_) _ _).trans ?_) | (dsimp only) | (simp only [cond_eq_ite]) | simp)
@[simp] theorem sweepDecants_mems (s : State)  : mems (s.sweepDecants) = mems s := by
  rfl
@[simp] theorem emptyBank_mems (s : State) (ctx c b : Nat) : mems (s.emptyBank ctx c b) = mems s := by
  unfold State.emptyBank; dsimp only; repeat' split
  all_goals simp
@[simp] theorem discardBanks_mems (s : State) (ctx : Nat) : mems (s.discardBanks ctx) = mems s := by
  unfold State.discardBanks
  repeat' (first | rfl | (simp; done) | split | (refine (foldl_mems (fun _ _ => ?_) _ _).trans ?_) | (dsimp only) | (simp only [cond_eq_ite]) | simp)
@[simp] theorem dropGroup_mems (s : State) (gid : Nat) (joined : Bool) : mems (s.dropGroup gid joined) = mems s := by
  unfold State.dropGroup; dsimp only; repeat' split
  all_goals simp
@[simp] theorem drainEnd_mems (s : State) (tid : Nat) : mems (s.drainEnd tid) = mems s := by
  unfold State.drainEnd; dsimp only; repeat' split
  all_goals simp
@[simp] theorem killCopies_mems (s : State) (dead : Nat → Bool) : mems (s.killCopies dead) = mems s := by
  rfl
@[simp] theorem killMqs_mems (s : State) (dead : Nat → Bool) : mems (s.killMqs dead) = mems s := by
  rfl
@[simp] theorem killPend_mems (s : State) (dead : Nat → Bool) : mems (s.killPend dead) = mems s := by
  rfl
@[simp] theorem discardResults_mems (s : State) (gid : Nat) : mems (s.discardResults gid) = mems s := by
  rfl
@[simp] theorem forgetTeams_mems (s : State) (gone : Nat → Bool) : mems (s.forgetTeams gone) = mems s := by
  rfl
@[simp] theorem markSwap_mems (s : State) (cores : List Nat) : mems (s.markSwap cores) = mems s := by
  unfold State.markSwap
  repeat' (first | rfl | (simp; done) | split | (refine (foldl_mems (fun _ _ => ?_) _ _).trans ?_) | (dsimp only) | (simp only [cond_eq_ite]) | simp)
@[simp] theorem killNow_mems (s : State) (ctx : Nat) (dom : Nat) : mems (s.killNow ctx dom) = mems s := by
  unfold State.killNow
  extract_lets inDom doomed dead gone cores s1 s2 s3 root s4
  have h2 : mems s2 = mems s := by simp only [s2, s1]; simp
  have h3 : mems s3 = mems s := by
    refine ((foldl_mems (fun st e => ?_) _ _).trans (foldl_mems (fun st e => ?_) _ _)).trans h2
    · split <;> simp
    · simp
  have h4 : mems s4 = mems s := by
    simp only [s4]
    split
    · rw [closeContext_mems, discardBanks_mems]; exact h3
    · exact h3
  rw [report_mems, markSwap_mems]
  exact h4
@[simp] theorem killDomain_mems (s : State) (ctx : Nat) (dom : Nat) : mems (s.killDomain ctx dom) = mems s := by
  unfold State.killDomain; split <;> simp
@[simp] theorem killTeamDomain_mems (s : State) (tid : Nat) : mems (s.killTeamDomain tid) = mems s := by
  unfold State.killTeamDomain
  repeat' (first | rfl | (simp; done) | split | (refine (foldl_mems (fun _ _ => ?_) _ _).trans ?_) | (dsimp only) | (simp only [cond_eq_ite]) | simp)
@[simp] theorem modTrapQ_mems (s : State) (gid : Nat) (f : List Nat → List Nat) : mems (s.modTrapQ gid f) = mems s := by
  unfold State.modTrapQ; repeat' split
  all_goals rfl
@[simp] theorem queueTrap_mems (s : State) (tid : Nat) (gid : Nat) : mems (s.queueTrap tid gid) = mems s := by
  exact modTrapQ_mems _ _ _
@[simp] theorem trapWalk_mems (s : State) (ctx core : Nat) (x : Trap) : mems (s.trapWalk ctx core x) = mems s := by
  unfold State.trapWalk; dsimp only; split <;> simp
@[simp] theorem stopCtl_mems (s : State) (c ctx : Nat) (x : Trap) : mems (s.stopCtl c ctx x) = mems s := by
  unfold State.stopCtl; repeat' split
  · rw [ctxEvent_mems, trapWalk_mems]; rfl
  · rfl
@[simp] theorem fwFault_mems (s : State) (a : Agent) (ctx : Nat) (va : W64) (core : Nat) : mems (s.fwFault a ctx va core) = mems s := by
  unfold State.fwFault
  repeat' (first | rfl | (simp; done) | split | (refine (foldl_mems (fun _ _ => ?_) _ _).trans ?_) | (dsimp only) | (simp only [cond_eq_ite]) | simp)
@[simp] theorem engFault_mems (s : State) (op : Nat) (ctx : Nat) (region : Nat) (core : Nat) (va : W64) : mems (s.engFault op ctx region core va) = mems s := by
  unfold State.engFault
  repeat' (first | rfl | (simp; done) | split | (refine (foldl_mems (fun _ _ => ?_) _ _).trans ?_) | (dsimp only) | (simp only [cond_eq_ite]) | simp)
@[simp] theorem recount_mems (s : State) (tid : Nat) : mems (s.recount tid) = mems s := by
  unfold State.recount; dsimp only; repeat' split
  all_goals simp
@[simp] theorem recountPartner_mems (s : State) (tid : Nat) : mems (s.recountPartner tid) = mems s := by
  unfold State.recountPartner; split <;> simp
@[simp] theorem stopTeamWith_mems (s : State) (tid : Nat) (x : Trap) (pend : Option Cause) (ovf : Bool) : mems (s.stopTeamWith tid x pend ovf) = mems s := by
  unfold State.stopTeamWith; dsimp only; repeat' split
  all_goals simp
@[simp] theorem stopTeam_mems (s : State) (tid : Nat) (x : Trap) : mems (s.stopTeam tid x) = mems s := by
  simp [State.stopTeam]
@[simp] theorem endRun_mems (s : State) (c : Nat) (ctx : Nat) : mems (s.endRun c ctx) = mems s := by
  unfold State.endRun; split <;> simp
@[simp] theorem endHandled_mems (s : State) (c ctx : Nat) : mems (s.endHandled c ctx) = mems s := by
  unfold State.endHandled; split <;> simp
@[simp] theorem escalate_mems (s : State) (c : Nat) (ctx : Nat) (x : Trap) : mems (s.escalate c ctx x) = mems s := by
  unfold State.escalate
  repeat' (first | rfl | (simp; done) | split | (refine (foldl_mems (fun _ _ => ?_) _ _).trans ?_) | (dsimp only) | (simp only [cond_eq_ite]) | simp)
@[simp] theorem trapAt_mems (s : State) (a : Agent) (x : Trap) : mems (s.trapAt a x) = mems s := by
  unfold State.trapAt; split <;> simp
@[simp] theorem resumeTeam_mems (s : State) (tid : Nat) : mems (s.resumeTeam tid) = mems s := by
  unfold State.resumeTeam; dsimp only; repeat' split
  all_goals simp
@[simp] theorem gangGone_mems (s : State) (gid : Nat) (tix : Nat) : mems (s.gangGone gid tix) = mems s := by
  unfold State.gangGone
  repeat' (first | rfl | (simp; done) | split | (refine (foldl_mems (fun _ _ => ?_) _ _).trans ?_) | (dsimp only) | (simp only [cond_eq_ite]) | simp)
@[simp] theorem afterDrain_mems (s : State) (a : Agent) : mems (s.afterDrain a) = mems s := by
  unfold State.afterDrain
  repeat' (first | rfl | (simp; done) | split | (refine (foldl_mems (fun _ _ => ?_) _ _).trans ?_) | (dsimp only) | (simp only [cond_eq_ite]) | simp)
@[simp] theorem passCycle_mems (s : State) (core : Nat) (n : Nat) : mems (s.passCycle core n) = mems s := by
  unfold State.passCycle State.countMacs; dsimp only; repeat' split
  all_goals simp
@[simp] theorem charge_mems (s : State) (e : Env) (cost : Nat) (np : Nat) : mems (s.charge e cost np) = mems s := by
  unfold State.charge; split <;> simp
@[simp] theorem rotate_mems (s : State) (core : Nat) (slot : Nat) : mems (s.rotate core slot) = mems s := by
  unfold State.rotate
  repeat' (first | rfl | (simp; done) | split | (refine (foldl_mems (fun _ _ => ?_) _ _).trans ?_) | (dsimp only) | (simp only [cond_eq_ite]) | simp)
@[simp] theorem addOrder_mems (s : State) (id : Nat) (set : List Nat) : mems (s.addOrder id set) = mems s := by
  rfl
@[simp] theorem noteRead_mems (s : State) (id : Nat) (o : PendOp) (t : Target) (n : Nat) (time : Nat) : mems (s.noteRead id o t n time) = mems s := by
  unfold State.noteRead; dsimp only; repeat' split
  all_goals simp
@[simp] theorem writeLane_ok {s : State} (id : Nat) (o : PendOp) (l : LaneAcc) (x : Nat) (h : memOk (mems s)) : memOk (mems (s.writeLane id o l x)) := by
  simp [State.writeLane, h]
@[simp] theorem performLane_ok {s : State} (id : Nat) (o : PendOp) (l : LaneAcc) (h : memOk (mems s)) : memOk (mems (s.performLane id o l).1) := by
  unfold State.performLane; dsimp only; repeat' split
  all_goals simp [h]
@[simp] theorem putLane_mems (s : State) (a : Agent) (o : PendOp) (l : LaneAcc) : mems (s.putLane a o l) = mems s := by
  unfold State.putLane; split <;> simp
@[simp] theorem putEarly_mems (s : State) (o : PendOp) (l : LaneAcc) : mems (s.putEarly o l).1 = mems s := by
  unfold State.putEarly; split
  · dsimp only; split <;> simp
  · rfl
theorem foldPair_mems {α β : Type} {f : State × β → α → State × β} (h : ∀ p x, mems (f p x).1 = mems p.1) :
    ∀ (l : List α) (p : State × β), mems (l.foldl f p).1 = mems p.1
  | [], _ => rfl
  | x :: r, p => (foldPair_mems h r (f p x)).trans (h p x)
theorem foldPair_ok {α β : Type} {f : State × β → α → State × β} (h : ∀ p x, memOk (mems p.1) → memOk (mems (f p x).1)) :
    ∀ (l : List α) (p : State × β), memOk (mems p.1) → memOk (mems (l.foldl f p).1)
  | [], _, hp => hp
  | x :: r, p, hp => foldPair_ok h r (f p x) (h p x hp)
theorem foldM_mems {α β : Type} {f : State × β → α → Option (State × β)} (h : ∀ p x q, f p x = some q → mems q.1 = mems p.1) :
    ∀ (l : List α) (p q : State × β), l.foldlM f p = some q → mems q.1 = mems p.1
  | [], p, q, e => by simp only [List.foldlM_nil, pure, Option.some.injEq] at e; rw [e]
  | x :: r, p, q, e => by
    simp only [List.foldlM_cons, bind, Option.bind_eq_some_iff] at e
    obtain ⟨u, h1, h2⟩ := e
    exact (foldM_mems h r u q h2).trans (h p x u h1)
@[simp] theorem putOp_mems (s : State) (id : Nat) (o : PendOp) : mems (s.putOp id o) = mems s := by
  unfold State.putOp; split <;> simp
@[simp] theorem performAt_ok {s : State} (id : Nat) (o : PendOp) (l : LaneAcc) (h : memOk (mems s)) : memOk (mems (s.performAt id o l)) := by
  simp [State.performAt, h]
@[simp] theorem deliver_mems (s : State) (a : Agent) (x : ErrRec) : mems (s.deliver a x) = mems s := by
  unfold State.deliver
  repeat' (first | rfl | (simp; done) | split | (refine (foldl_mems (fun _ _ => ?_) _ _).trans ?_) | (dsimp only) | (simp only [cond_eq_ite]) | simp)
@[simp] theorem failLane_mems (s : State) (id : Nat) (o : PendOp) (l : LaneAcc) (how : LaneSt) : mems (s.failLane id o l how) = mems s := by
  unfold State.failLane; dsimp only; repeat' split
  all_goals simp
@[simp] theorem useTlb_mems (s : State) (ctx : Nat) (die : Nat) (va : Nat) : mems (s.useTlb ctx die va) = mems s := by
  unfold State.useTlb; split <;> simp
@[simp] theorem walksFor_mems (s : State) (ctx : Nat) (die : Nat) (vas : List W64) : mems (s.walksFor ctx die vas) = mems s := by
  unfold State.walksFor
  repeat' (first | rfl | (simp; done) | split | (refine (foldl_mems (fun _ _ => ?_) _ _).trans ?_) | (dsimp only) | (simp only [cond_eq_ite]) | simp)
@[simp] theorem useAll_mems (s : State) (e : Env) (vas : List W64) : mems (s.useAll e vas) = mems s := by
  simp [State.useAll]
@[simp] theorem committed_mems (s : State) (gid : Nat) : mems (s.committed gid) = mems s := by
  unfold State.committed; split <;> simp
@[simp] theorem sendFlits_mems (s : State) (id : Nat) (ls : List LaneAcc) : mems (s.sendFlits id ls) = mems s := by
  unfold State.sendFlits
  repeat' (first | rfl | (simp; done) | split | (refine (foldl_mems (fun _ _ => ?_) _ _).trans ?_) | (dsimp only) | (simp only [cond_eq_ite]) | simp)
@[simp] theorem post_mems (s : State) (e : Env) (t : Team) (o : PendOp) : mems (s.post e t o) = mems s := by
  simp [State.post]
@[simp] theorem issueStore_mems (s : State) (e : Env) (t : Team) (rel : Bool) (obs : BitVec 7) (lanes : List LaneAcc) : mems (s.issueStore e t rel obs lanes) = mems s := by
  unfold State.issueStore; dsimp only; repeat' split
  all_goals simp
@[simp] theorem settle_mems (s : State) (a : Agent) : mems (s.settle a) = mems s := by
  unfold State.settle; split <;> simp
@[simp] theorem finishOp_mems (s : State) (a : Agent) (o : PendOp) : mems (s.finishOp a o) = mems s := by
  unfold State.finishOp; dsimp only; repeat' split
  all_goals simp
@[simp] theorem finishHeld_mems (s : State) (a : Agent) (o : PendOp) (n : Nat) : mems (s.finishHeld a o n) = mems s := by
  unfold State.finishHeld; dsimp only; repeat' split
  all_goals simp
@[simp] theorem holdCommit_mems (s : State) (e : Env) (t : Team) (i : Instr) : mems (s.holdCommit e t i) = mems s := by
  simp [State.holdCommit]
@[simp] theorem restoreAt_mems (s : State) (t : Target) : mems (s.restoreAt t) = mems s := by
  unfold State.restoreAt
  repeat' (first | rfl | (simp; done) | split | (refine (foldl_mems (fun _ _ => ?_) _ _).trans ?_) | (dsimp only) | (simp only [cond_eq_ite]) | simp)
@[simp] theorem operandSeen_mems (s : State) (by_ : Option Nat) (t : Nat) (off : Nat) (n : Nat) : mems (s.operandSeen by_ t off n) = mems s := by
  unfold State.operandSeen; split <;> simp
@[simp] theorem waitOrder_mems (s : State) (e : Env) (t : Team) (ops : List Nat) : mems (s.waitOrder e t ops) = mems s := by
  simp [State.waitOrder]
@[simp] theorem accepted_mems (s : State) (core : Nat) (home : Nat) : mems (s.accepted core home) = mems s := by
  unfold State.accepted
  repeat' (first | rfl | (simp; done) | split | (refine (foldl_mems (fun _ _ => ?_) _ _).trans ?_) | (dsimp only) | (simp only [cond_eq_ite]) | simp)
@[simp] theorem addPoison_mems (s : State) (line : Nat) : mems (s.addPoison line) = mems s := by
  unfold State.addPoison; split <;> simp
@[simp] theorem undelivered_ok {s : State} (id : Nat) (o : PendOp) (l : LaneAcc) (h : memOk (mems s)) : memOk (mems (s.undelivered id o l)) := by
  unfold State.undelivered; split <;> simp [h]
theorem carry_mems {s s1 : State} {id : Nat} {l : LaneAcc} (h : s.carry id l = some s1) : mems s1 = mems s := by
  unfold State.carry at h; repeat' split at h
  all_goals first | (cases h; done) | (cases h; simp)
theorem respond_mems {s s1 : State} {a : Agent} (h : s.respond a = some s1) : mems s1 = mems s := by
  unfold State.respond at h; split at h
  · obtain ⟨p, -, rfl⟩ := Option.map_eq_some_iff.1 h
    simp
  all_goals cases h; rfl
theorem requestAt_ok {s s1 : State} {id lane : Nat} {o : HomeOutcome} (h : memOk (mems s)) (hr : s.requestAt id lane o = .some s1) : memOk (mems s1) := by
  unfold State.requestAt at hr
  simp only [bind, Option.bind_eq_some_iff] at hr
  obtain ⟨op, -, l, -, hr⟩ := hr
  repeat' split at hr
  all_goals first
    | (cases hr; done)
    | (cases hr; simp [h]; done)
    | (obtain ⟨u, hu, rfl⟩ := Option.map_eq_some_iff.1 hr
       have hm := carry_mems hu
       simp [hm, h])
    | (simp only [Option.bind_eq_some_iff] at hr
       obtain ⟨u, hu, v, hv, hr⟩ := hr
       cases hr
       have hm := (respond_mems hv).trans (carry_mems hu)
       simp [hm, h])
theorem mailResend_mems {s s1 : State} {mb : Nat} (hr : s.mailResend mb = some s1) : mems s1 = mems s := by
  unfold State.mailResend at hr
  simp only [bind, Option.bind_eq_some_iff] at hr
  obtain ⟨e, -, hr⟩ := hr
  repeat' split at hr
  all_goals first | (cases hr; done) | (cases hr; rfl)
@[simp] theorem replayHome_ok {s : State} (home : Nat) (h : memOk (mems s)) : memOk (mems (s.replayHome home)) := by
  refine foldl_ok (fun st w hs => ?_) _ _ h
  repeat' split
  · rename_i hu
    obtain ⟨u, h1, h2⟩ := Option.bind_eq_some_iff.1 hu
    exact performAt_ok _ _ _ ((respond_mems h2).trans (carry_mems h1) ▸ hs)
  all_goals exact hs
@[simp] theorem watchTrap_mems (s : State) (tid : Nat) (x : Trap) (d : Diag) : mems (s.watchTrap tid x d) = mems s := by
  unfold State.watchTrap
  repeat' (first | rfl | (simp; done) | split | (refine (foldl_mems (fun _ _ => ?_) _ _).trans ?_) | (dsimp only) | (simp only [cond_eq_ite]) | simp)
@[simp] theorem release_mems (s : State) (tid : Nat) : mems (s.release tid) = mems s := by
  unfold State.release; split <;> simp
@[simp] theorem goOn_mems (s : State) (tid : Nat) (d : Reg) (x : W64) (n : Nat) : mems (s.goOn tid d x n) = mems s := by
  unfold State.goOn; split <;> simp
@[simp] theorem waitGranule_mems (s : State) (e : Env) (t : Team) (i : Instr) (k : Nat) : mems (s.waitGranule e t i k) = mems s := by
  simp [State.waitGranule]
@[simp] theorem putSome_mems (s : State) (id : Nat) (o : PendOp) : mems (s.putSome id o) = mems s := by
  unfold State.putSome
  exact foldPair_mems (fun p x => by simp) _ (s, o)
@[simp] theorem endGranuleWaits_mems (s : State) (k : Nat) : mems (s.endGranuleWaits k) = mems s := by
  unfold State.endGranuleWaits
  repeat' (first | rfl | (simp; done) | split | (refine (foldl_mems (fun _ _ => ?_) _ _).trans ?_) | (dsimp only) | (simp only [cond_eq_ite]) | simp)
@[simp] theorem checkBank_mems (s : State) (core : Nat) (b : Nat) : mems (s.checkBank core b) = mems s := by
  rfl
@[simp] theorem endCurves_mems (s : State) (core : Nat) (x : Nat) : mems (s.endCurves core x) = mems s := by
  unfold State.endCurves; exact foldl_mems (fun _ _ => by simp) _ _
@[simp] theorem writeCorr_ok {s : State} (r : CorrRec) (h : memOk (mems s)) : memOk (mems (s.writeCorr r)) := by
  unfold State.writeCorr; split
  · exact writeAs_ok _ _ _ _ _ _ _ h
  · exact h
@[simp] theorem correlate_ok {s : State} (core : Nat) (kind : Nat) (h : memOk (mems s)) : memOk (mems (s.correlate core kind)) := by
  unfold State.correlate; dsimp only; split
  · exact writeCorr_ok _ (by rw [setCore_mems]; exact h)
  · exact h
@[simp] theorem dropHints_mems (s : State) (core : Nat) (b : Nat) : mems (s.dropHints core b) = mems s := by
  rfl
@[simp] theorem engineIdle_mems (s : State) (core : Nat) : mems (s.engineIdle core) = mems s := by
  unfold State.engineIdle; split <;> simp
@[simp] theorem endHandler_mems (s : State) (core : Nat) (a : Agent) (t : Team) : mems (s.endHandler core a t) = mems s := by
  unfold State.endHandler; dsimp only; repeat' split
  all_goals simp
@[simp] theorem endFence_mems (s : State) (a : Agent) (t : Team) (k : FenceKind) (obs : BitVec 7) : mems (s.endFence a t k obs) = mems s := by
  simp [State.endFence]
@[simp] theorem placeJoin_mems (s : State) (core : Nat) (qm : Nat) (ops : List Nat) : mems (s.placeJoin core qm ops) = mems s := by
  rfl
@[simp] theorem tlbRemove_mems (s : State) (a : Agent) (t : Team) (i : Instr) (n : Nat) (r : TlbRange) : mems (s.tlbRemove a t i n r) = mems s := by
  simp [State.tlbRemove]
@[simp] theorem putBar_mems (s : State) (r : BarRef) (f : Barrier → Barrier) : mems (s.putBar r f) = mems s := by
  unfold State.putBar
  repeat' (first | rfl | (simp; done) | split | (refine (foldl_mems (fun _ _ => ?_) _ _).trans ?_) | (dsimp only) | (simp only [cond_eq_ite]) | simp)
@[simp] theorem serve_mems (s : State) (r : BarRef) : mems (s.serve r) = mems s := by
  unfold State.serve; split <;> simp
@[simp] theorem modBar_mems (s : State) (r : BarRef) (f : Barrier → Barrier) : mems (s.modBar r f) = mems s := by
  simp [State.modBar]
@[simp] theorem openGroupBar_mems (s : State) (gid : Nat) (id : Nat) (b : Barrier) : mems (s.openGroupBar gid id b) = mems s := by
  unfold State.openGroupBar; split <;> simp
@[simp] theorem waitBar_mems (s : State) (e : Env) (t : Team) (tid : Nat) (r : BarRef) (p : Nat) (n : Nat) (d : Reg) : mems (s.waitBar e t tid r p n d) = mems s := by
  simp [State.waitBar]
@[simp] theorem awaitPhase_mems (s : State) (e : Env) (t : Team) (r : BarRef) (p : Nat) (n : Nat) (d : Reg) : mems (s.awaitPhase e t r p n d) = mems s := by
  unfold State.awaitPhase; dsimp only; repeat' split
  all_goals simp
@[simp] theorem closeBar_mems (s : State) (r : BarRef) : mems (s.closeBar r) = mems s := by
  unfold State.closeBar; dsimp only; repeat' split
  all_goals simp
@[simp] theorem endBarWaits_mems (s : State) (r : BarRef) (v : W64) : mems (s.endBarWaits r v) = mems s := by
  rfl
@[simp] theorem fillTile_mems (s : State) (t : Target) (n : Nat) : mems (s.fillTile t n) = mems s := by
  unfold State.fillTile
  repeat' (first | rfl | (simp; done) | split | (refine (foldl_mems (fun _ _ => ?_) _ _).trans ?_) | (dsimp only) | (simp only [cond_eq_ite]) | simp)
@[simp] theorem engWrite_ok {s : State} (a : Agent) (seq : Nat) (op : Nat) (va : W64) (t : Target) (bs : List Byte) (h : memOk (mems s)) : memOk (mems (s.engWrite a seq op va t bs)) := by
  unfold State.engWrite; dsimp only; repeat' split
  all_goals first | exact h | simp [h]
theorem engWrites_ok (a : Agent) (seq op : Nat) : ∀ (l : List Span) (bs : List Byte) {s : State}, memOk (mems s) →
    memOk (mems (s.engWrites a seq op l bs))
  | [], _, _, h => h
  | g :: r, bs, s, h => by
    unfold State.engWrites
    refine engWrites_ok a seq op r _ ?_
    split <;> simp [h]
@[simp] theorem dropCopy_mems (s : State) (cp : Nat) : mems (s.dropCopy cp) = mems s := by
  rfl
@[simp] theorem failCopy_mems (s : State) (cp : Nat) (c : CopyOp) (code : Nat) : mems (s.failCopy cp c code) = mems s := by
  simp [State.failCopy]
@[simp] theorem clearFlag_mems (s : State) (c : CopyOp) : mems (s.clearFlag c) = mems s := by
  unfold State.clearFlag; split <;> simp
@[simp] theorem landUnit_ok {s : State} (cp : Nat) (op : Nat) (c : CopyOp) (o : UnitOut) (h : memOk (mems s)) : memOk (mems (s.landUnit cp op c o)) := by
  unfold State.landUnit; simp [engWrites_ok, h]
@[simp] theorem unitWalks_mems (s : State) (c : CopyOp) (p : Pattern) (us : List (Nat × UnitOut)) : mems (s.unitWalks c p us) = mems s := by
  simp [State.unitWalks]
@[simp] theorem landUnits_ok {s : State} (cp : Nat) (c : CopyOp) (p : Pattern) (us : List (Nat × UnitOut)) (h : memOk (mems s)) : memOk (mems (s.landUnits cp c p us)) := by
  unfold State.landUnits
  repeat' (first | exact h | assumption | (simp [h]; done) | (simp [*]; done) | split | (refine foldl_ok (fun _ _ _ => ?_) _ _ ?_) | (dsimp only) | (simp only [cond_eq_ite]) | simp)
@[simp] theorem failAll_mems (s : State) (ms : List MmaTeam) (c : Cause) (mask : Option (MmaTeam → LaneMask)) : mems (s.failAll ms c mask) = mems s := by
  unfold State.failAll
  repeat' (first | rfl | (simp; done) | split | (refine (foldl_mems (fun _ _ => ?_) _ _).trans ?_) | (dsimp only) | (simp only [cond_eq_ite]) | simp)
@[simp] theorem emptySegment_mems (s : State) (k : Nat) (rows : Nat) (n : Nat) : mems (s.emptySegment k rows n) = mems s := by
  unfold State.emptySegment; split <;> simp
@[simp] theorem enqueueMq_mems (s : State) (m : MqOp) : mems (s.enqueueMq m) = mems s := by
  rfl
@[simp] theorem issueMma_mems (s : State) (ms : List MmaTeam) (m0 : MmaTeam) (p : MmaPlan) : mems (s.issueMma ms m0 p) = mems s := by
  unfold State.issueMma; exact foldl_mems (fun _ _ => by simp) _ _
@[simp] theorem passMma_mems (s : State) (ms : List MmaTeam) (m0 : MmaTeam) : mems (s.passMma ms m0) = mems s := by
  rfl
@[simp] theorem runMma_mems (s : State) (ms : List MmaTeam) : mems (s.runMma ms) = mems s := by
  unfold State.runMma
  repeat' (first | rfl | (simp; done) | split | (refine (foldl_mems (fun _ _ => ?_) _ _).trans ?_) | (dsimp only) | (simp only [cond_eq_ite]) | simp)
@[simp] theorem gangTrap_mems (s : State) (tids : List Nat) : mems (s.gangTrap tids) = mems s := by
  unfold State.gangTrap; exact foldl_mems (fun _ _ => by simp) _ _
theorem settleLatch_mems (core : Nat) : ∀ (n : Nat) (s : State), mems (s.settleLatch core n) = mems s
  | 0, _ => rfl
  | n + 1, s => by
    unfold State.settleLatch
    split
    · rename_i s1 h
      rw [settleLatch_mems core n s1]
      unfold State.issueLatched at h
      obtain ⟨k, -, rfl⟩ := Option.map_eq_some_iff.1 h
      simp
    · rfl
@[simp] theorem arriveLatch_mems (s : State) (e : Env) (t : Team) (i : Instr) (m : MmaTeam) : mems (s.arriveLatch e t i m) = mems s := by
  unfold State.arriveLatch; dsimp only; repeat' split
  all_goals simp [settleLatch_mems]
@[simp] theorem postDrain_mems (s : State) (id : Nat) (m : MqOp) (addTo : Bool) (int : Bool) : mems (s.postDrain id m addTo int) = mems s := by
  simp [State.postDrain]
@[simp] theorem mqWrite_ok {s : State} (core : Nat) (at_ : Bool) (k : Nat) (off : Nat) (bs : List Byte) (h : memOk (mems s)) :
    memOk (mems (s.mqWrite core at_ k off bs)) := by
  unfold State.mqWrite; dsimp only; split <;> simp [h]
@[simp] theorem mqRows_ok {s : State} (core : Nat) (k : Nat) (rb : Nat) (rows : List (List Byte)) (h : memOk (mems s)) : memOk (mems (s.mqRows core k rb rows)) := by
  exact foldl_ok (fun _ _ hs => mqWrite_ok _ _ _ _ _ hs) _ _ h
@[simp] theorem lastStep_mems (s : State) (m : MqOp) : mems (s.lastStep m) = mems s := by
  unfold State.lastStep; split <;> simp
@[simp] theorem settleEngine_mems (s : State) (core : Nat) : mems (s.settleEngine core) = mems s := by
  unfold State.settleEngine; dsimp only; repeat' split
  all_goals simp
@[simp] theorem endMq_mems (s : State) (id : Nat) (m : MqOp) : mems (s.endMq id m) = mems s := by
  simp [State.endMq]
@[simp] theorem endPart_mems (s : State) (id : Nat) (p : MqPart) (err : Option ErrRec) : mems (s.endPart id p err) = mems s := by
  unfold State.endPart; dsimp only; repeat' split
  all_goals simp
@[simp] theorem drainWrite_ok {s : State} (id : Nat) (m : MqOp) (addTo : Bool) (int : Bool) (todo : List (Nat × Target)) (h : memOk (mems s)) : memOk (mems (s.drainWrite id m addTo int todo)) := by
  refine foldl_ok (fun st w hs => ?_) _ _ h
  dsimp only
  split
  · exact mqWrite_ok _ _ _ _ _ hs
  · exact engWrite_ok _ _ _ _ _ _ hs
@[simp] theorem writeRing_ok {s : State} (ctx : Nat) (region : Nat) (die : Nat) (slot : Nat) (ws : List W64) (h : memOk (mems s)) : memOk (mems (s.writeRing ctx region die slot ws)) := by
  unfold State.writeRing; repeat' split
  · rw [sendOn_mems]; exact writeAs_ok _ _ _ _ _ _ _ (by rw [walksFor_mems]; exact h)
  all_goals exact h
@[simp] theorem pushEntry_ok {s : State} (ctx : Nat) (region : Nat) (die : Nat) (x : QEntry) (head : Bool) (h : memOk (mems s)) : memOk (mems (s.pushEntry ctx region die x head)) := by
  exact writeRing_ok _ _ _ _ _ h
@[simp] theorem append_ok {s : State} (ctx : Nat) (die : Nat) (reserve : Bool) (ws : List W64) (hb : List Nat) (h : memOk (mems s)) : memOk (mems (s.append ctx die reserve ws hb)) := by
  exact pushEntry_ok _ _ _ _ _ h
@[simp] theorem postRecord_ok {s : State} (ctx : Nat) (i : Option Nat) (die : Nat) (r : Bool) (ws : List W64) (hb : List Nat) (h : memOk (mems s)) :
    memOk (mems (s.postRecord ctx i die r ws hb).2) := by
  unfold State.postRecord; dsimp only; split
  · exact append_ok _ _ _ _ _ h
  · exact h
@[simp] theorem readBy_mems (s : State) (c : CopyOp) (l : List PartyRead) : mems (s.readBy c l) = mems s := rfl
theorem ackCopy_mems {s s1 : State} {cp : Nat} {c : CopyOp} (h : s.ackCopy cp c = some s1) : mems s1 = mems s := by
  unfold State.ackCopy at h; dsimp only at h; repeat' split at h
  all_goals first | (cases h; done) | (cases h; simp)
@[simp] theorem ackCopies_mems (s : State) (gid : Nat) : mems (s.ackCopies gid) = mems s := by
  refine foldl_mems (fun st x => ?_) _ _
  split
  · cases hc : st.ackCopy x.1 x.2 with
    | none => rfl
    | some u => exact ackCopy_mems hc
  · rfl
@[simp] theorem endGroup_mems (s : State) (gid : Nat) : mems (s.endGroup gid) = mems s := by
  simp [State.endGroup]
@[simp] theorem postCmd_mems (s : State) (c : EngCmd) : mems (s.postCmd c) = mems s := by
  rfl
@[simp] theorem cmdPut_ok {s : State} (id : Nat) (g : Target) (bs : List Byte) (h : memOk (mems s)) : memOk (mems (s.cmdPut id g bs)) := by
  simp [State.cmdPut, h]
@[simp] theorem cmdWrites_ok {s : State} (id : Nat) (l : List CmdWrite) (h : memOk (mems s)) : memOk (mems (s.cmdWrites id l)) := by
  exact foldl_ok (fun _ _ hs => by simp [hs]) _ _ h
@[simp] theorem creditCmd_mems (s : State) (id : Nat) (c : EngCmd) : mems (s.creditCmd id c) = mems s := by
  unfold State.creditCmd; split <;> simp
@[simp] theorem endCmd_mems (s : State) (id : Nat) (c : EngCmd) : mems (s.endCmd id c) = mems s := by
  simp [State.endCmd]
@[simp] theorem dropCmd_mems (s : State) (id : Nat) (c : EngCmd) (err : Nat) : mems (s.dropCmd id c err) = mems s := by
  unfold State.dropCmd; dsimp only; split
  · exact modBar_mems _ _ _
  · rfl
@[simp] theorem failCmd_ok {s : State} (id : Nat) (c : EngCmd) (err : Nat) (h : memOk (mems s)) : memOk (mems (s.failCmd id c err)) := by
  unfold State.failCmd; dsimp only; repeat' split
  all_goals first | exact h | simp [h]
@[simp] theorem postWaiter_ok {s : State} (id : Nat) (j : JoinUpd) (g : Target) (a : W64) (ws : Option (List W64)) (h : memOk (mems s)) : memOk (mems (s.postWaiter id j g a ws)) := by
  unfold State.postWaiter; dsimp only; repeat' split
  all_goals simp [h]
@[simp] theorem failJoin_mems (s : State) (id : Nat) (j : JoinUpd) : mems (s.failJoin id j) = mems s := by
  simp [State.failJoin]
@[simp] theorem reply_mems (s : State) (op : MsgOp) (ctx : Option Nat) (tag : Nat) (body : List W64) : mems (s.reply op ctx tag body) = mems s := by
  simp [State.reply]
@[simp] theorem mapFrame_mems (s : State) (ctx : Nat) (launch : Nat) (frame : W64) (smask : BitVec 256) : mems (s.mapFrame ctx launch frame smask) = mems s := by
  rfl
@[simp] theorem carve_mems (s : State) (core : Nat) (launch : Nat) (l : Launch) (k : Task) (r : Rcb) (gix : Nat) (copyIdx : Nat) : mems (s.carve core launch l k r gix copyIdx) = mems s := by
  rfl
@[simp] theorem pairUp_mems (s : State) (g0 : Nat) (g1 : Nat) : mems (s.pairUp g0 g1) = mems s := by
  unfold State.pairUp; split <;> simp
@[simp] theorem takeHead_mems (s : State) (die : Nat) (h : HeadRec) (n : Nat) : mems (s.takeHead die h n) = mems s := by
  rfl
@[simp] theorem dropResidual_mems (s : State) (k : Nat) : mems (s.dropResidual k) = mems s := by
  rfl
@[simp] theorem obtain_mems (s : State) (die : Nat) (key : DecKey) (code frame : W64) (ctx : Nat) : mems (s.obtain die key code frame ctx).1 = mems s := by
  unfold State.obtain; split <;> simp
@[simp] theorem obtainPlaced_mems (s : State) (core k : Nat) : mems (s.obtainPlaced core k).1 = mems s := by
  unfold State.obtainPlaced; repeat' split
  all_goals simp
@[simp] theorem placeGroups_mems (s : State) (k : Nat) : mems (s.placeGroups k) = mems s := by
  unfold State.placeGroups
  refine foldl_mems (fun st x => ?_) _ _
  dsimp only
  repeat' split
  all_goals simp
@[simp] theorem seatGroup_mems (s : State) (gid : Nat) (core : Nat) : mems (s.seatGroup gid core) = mems s := by
  unfold State.seatGroup; split <;> simp
@[simp] theorem dropMark_mems (s : State) (gid : Nat) : mems (s.dropMark gid) = mems s := by
  unfold State.dropMark; split <;> simp
@[simp] theorem invalidate_mems (s : State) (p : DecEntry → Bool) : mems (s.invalidate p) = mems s := by
  rfl
@[simp] theorem brkInvalidate_mems (s : State) (ctx : Nat) (a : Nat) : mems (s.brkInvalidate ctx a) = mems s := by
  unfold State.brkInvalidate; split <;> simp
@[simp] theorem writeBrk_mems (s : State) (ctx : Nat) (k : Nat) (x : W64) : mems (s.writeBrk ctx k x) = mems s := by
  unfold State.writeBrk; dsimp only; repeat' split
  all_goals simp
@[simp] theorem selectEvent_mems (s : State) (e : Env) (die : Bool) (n : Nat) (src : Nat) : mems (s.selectEvent e die n src) = mems s := by
  unfold State.selectEvent; split <;> simp
@[simp] theorem unqueue_mems (s : State) (core : Nat) (tid : Nat) : mems (s.unqueue core tid) = mems s := by
  rfl
@[simp] theorem dropFault_mems (s : State) (k : Nat) : mems (s.dropFault k) = mems s := by
  rfl
@[simp] theorem setFault_mems (s : State) (k : Nat) (f : FaultRec) (x : FaultSt) : mems (s.setFault k f x) = mems s := by
  rfl
@[simp] theorem repaired_mems (s : State) (k : Nat) (f : FaultRec) : mems (s.repaired k f) = mems s := by
  unfold State.repaired; dsimp only; repeat' split
  all_goals simp
@[simp] theorem failEngine_ok {s : State} (op : Nat) (va : W64) (h : memOk (mems s)) : memOk (mems (s.failEngine op va)) := by
  unfold State.failEngine; repeat' split
  all_goals first | exact h | simp [h]
@[simp] theorem deliverFault_ok {s : State} (k : Nat) (f : FaultRec) (h : memOk (mems s)) : memOk (mems (s.deliverFault k f)) := by
  unfold State.deliverFault; dsimp only; repeat' split
  all_goals first | exact h | simp [h]
@[simp] theorem postFault_mems (s : State) (k : Nat) (f : FaultRec) : mems (s.postFault k f) = mems s := by
  simp [State.postFault]
@[simp] theorem retryFault_mems (s : State) (k : Nat) (f : FaultRec) : mems (s.retryFault k f) = mems s := by
  unfold State.retryFault
  repeat' (first | rfl | (simp; done) | split | (refine (foldl_mems (fun _ _ => ?_) _ _).trans ?_) | (dsimp only) | (simp only [cond_eq_ite]) | simp)
@[simp] theorem killGroup_mems (s : State) (gid : Nat) : mems (s.killGroup gid) = mems s := by
  simp [State.killGroup]
@[simp] theorem restart_ok {s : State} (gid : Nat) (h : memOk (mems s)) : memOk (mems (s.restart gid)) := by
  unfold State.restart; split
  · exact h
  · dsimp only; rw [killGroup_mems]; split
    · rw [killGroup_mems]; exact pushEntry_ok _ _ _ _ _ h
    · exact pushEntry_ok _ _ _ _ _ h
@[simp] theorem swapGroups_mems (s : State) (core : Nat) (b : Nat) (out : Bool) : mems (s.swapGroups core b out) = mems s := by
  rfl
@[simp] theorem saveGroups_ok {s : State} (core : Nat) (b : Nat) (h : memOk (mems s)) : memOk (mems (s.saveGroups core b)) := by
  unfold State.saveGroups
  repeat' (first | exact h | assumption | (simp [h]; done) | (simp [*]; done) | split | (refine foldl_ok (fun _ _ _ => ?_) _ _ ?_) | (dsimp only) | (simp only [cond_eq_ite]) | simp)
@[simp] theorem swapBanks_ok {s : State} (core : Nat) (h : memOk (mems s)) : memOk (mems (s.swapBanks core)) := by
  simp [State.swapBanks, h]
@[simp] theorem waitAgain_mems (s : State) (tid : Nat) (count : Nat) : mems (s.waitAgain tid count) = mems s := by
  unfold State.waitAgain; dsimp only; repeat' split
  all_goals simp
@[simp] theorem spillTiles_mems (s : State) (gids : List Nat) : mems (s.spillTiles gids) = mems s := by
  rfl
@[simp] theorem recountPartners_mems (s : State) (gids : List Nat) : mems (s.recountPartners gids) = mems s := by
  unfold State.recountPartners; exact foldl_mems (fun _ _ => by simp) _ _
@[simp] theorem releaseOne_ok {s : State} (a : Agent) (fs : List Release) (w : HeldWrite) (h : memOk (mems s)) :
    memOk (mems (s.releaseOne a fs w)) := by
  unfold State.releaseOne; split <;> simp [h]
@[simp] theorem releaseHeld_ok {s : State} (p : Pair) (h : memOk (mems s)) : memOk (mems (s.releaseHeld p)) := by
  exact foldl_ok (fun st w hs => releaseOne_ok _ _ _ hs) _ _ h
@[simp] theorem redundancyAt_mems (s : State) (tid : Nat) (pc : Loc) (count : Option Nat) : mems (s.redundancyAt tid pc count) = mems s := by
  unfold State.redundancyAt; dsimp only; repeat' split
  all_goals simp
@[simp] theorem redundancyStop_mems (s : State) (p : Pair) (tid : Nat) (count : Option Nat) : mems (s.redundancyStop p tid count) = mems s := by
  unfold State.redundancyStop; dsimp only; repeat' split
  all_goals simp
@[simp] theorem setPartner_mems (s : State) (gid : Nat) (p : Option Nat) : mems (s.setPartner gid p) = mems s := by
  unfold State.setPartner; split <;> simp
@[simp] theorem giveResult_mems (s : State) (p : Pair) (t1 : Team) (d : Reg) (n : Nat) : mems (s.giveResult p t1 d n) = mems s := by
  unfold State.giveResult; split <;> simp
@[simp] theorem reached_mems (s : State) (p : Pair) (i : Instr) : mems (s.reached p i) = mems s := by
  unfold State.reached; split <;> simp
@[simp] theorem endCkpt_mems (s : State) (core : Nat) (k : CkptSt) (status : Nat) (bytes : Nat) : mems (s.endCkpt core k status bytes) = mems s := by
  unfold State.endCkpt; dsimp only; repeat' split
  all_goals simp
@[simp] theorem failCkpt_mems (s : State) (core : Nat) (k : CkptSt) (x : Trap) : mems (s.failCkpt core k x) = mems s := by
  unfold State.failCkpt; dsimp only; repeat' split
  all_goals simp
theorem writeLines_ok (op : Nat) (a : Agent) : ∀ (ls : List LaneTgt) (bs : List Byte) (s : State), memOk (mems s) → memOk (mems (s.writeLines op a ls bs))
  | [], _, _, h => h
  | l :: r, bs, s, h => by
    unfold State.writeLines
    split
    · exact writeLines_ok op a r _ _ (by rw [sendOn_mems]; exact writeAs_ok _ _ _ _ _ _ _ h)
    · exact writeLines_ok op a r _ _ h
@[simp] theorem writeImage_ok {s : State} (core : Nat) (k : CkptSt) (t : Team) (size : Nat) (gids : List Nat) (h : memOk (mems s)) : memOk (mems (s.writeImage core k t size gids)) := by
  unfold State.writeImage; dsimp only; split
  · simp [h]
  · rw [endCkpt_mems]
    exact writeLines_ok _ _ _ _ _ (by rw [useAll_mems]; exact h)
@[simp] theorem swapCoreOut_ok {s : State} (core : Nat) (h : memOk (mems s)) : memOk (mems (s.swapCoreOut core)) := by
  simp [State.swapCoreOut, h]
@[simp] theorem addObj_mems (s : State) (o : ObjRec) : mems (s.addObj o) = mems s := by
  rfl
@[simp] theorem judge_mems (s : State) (tag : Nat) (ctx : Nat) (addr : Nat) (bs : List Byte) (accept : Bool) (require : Bool) : mems (s.judge tag ctx addr bs accept require) = mems s := by
  unfold State.judge; dsimp only; repeat' split
  all_goals simp
@[simp] theorem secReply_mems (s : State) (op : MsgOp) (tag : Nat) (status : Nat) : mems (s.secReply op tag status) = mems s := by
  simp [State.secReply]
@[simp] theorem raiseSvn_mems (s : State) (counter : Nat) (value : Nat) : mems (s.raiseSvn counter value) = mems s := by
  rfl
@[simp] theorem pf1Reply_mems (s : State) (op : MsgOp) (tag : Nat) (body : List W64) : mems (s.pf1Reply op tag body) = mems s := by
  simp [State.pf1Reply]
@[simp] theorem payOwed_ok {s : State} (fw : Nat) (h : memOk (mems s)) : memOk (mems (s.payOwed fw)) := by
  unfold State.payOwed
  refine foldl_ok (fun st e hs => ?_) _ _ h
  split
  · rw [fwSend_mems]; exact hs
  · rw [killDomain_mems]; exact hs
  · exact writeCorr_ok _ hs
@[simp] theorem redeliver_mems (s : State) (fw : Nat) : mems (s.redeliver fw) = mems s := by
  rfl
@[simp] theorem restartCore_ok {s : State} (fw : Nat) (h : memOk (mems s)) : memOk (mems (s.restartCore fw)) := by
  unfold State.restartCore
  rw [redeliver_mems]; exact payOwed_ok _ h
@[simp] theorem outside_mems (s : State) (r : OutReq) : mems (s.outside r) = mems s := by
  unfold State.outside; split <;> simp
@[simp] theorem decay_mems (s : State) (line : Nat) : mems (s.decay line) = mems s := by
  unfold State.decay; repeat' split
  all_goals simp
@[simp] theorem beat_mems (s : State) (fw : Nat) : mems (s.beat fw) = mems s := by
  unfold State.beat; split <;> simp
@[simp] theorem nameRing_mems (s : State) (base : Nat) (size : Nat) : mems (s.nameRing base size) = mems s := by
  rfl
@[simp] theorem takeRing_mems (s : State) (n : Nat) : mems (s.takeRing n) = mems s := by
  rfl
@[simp] theorem freeUnits_ok {s : State} (lo hi : Nat) (h : memOk (mems s)) : memOk (mems (s.freeUnits lo hi)) := by
  unfold State.freeUnits; split
  · exact killUnits_ok _ _ h
  · exact h
@[simp] theorem setAperture_mems (s : State) (base gib : Nat) : mems (s.setAperture base gib) = mems s := by
  unfold State.setAperture; split <;> rfl
@[simp] theorem outsideTurn_ok {s : State} (t : Turn) (h : memOk (mems s)) : memOk (mems (s.outsideTurn t)) := by
  unfold State.outsideTurn; split <;> simp [h]
@[simp] theorem dueSwap_ok {s : State} (core : Nat) (h : memOk (mems s)) : memOk (mems (s.dueSwap core)) := by
  unfold State.dueSwap; repeat' split
  all_goals first | exact h | simp [h]
@[simp] theorem tick_mems (s : State)  : mems (s.tick) = mems s := by
  rfl
theorem barrierTimeout_mems {s s1 : State} {tid : Nat} (h : s.barrierTimeout tid = some s1) : mems s1 = mems s := by
  unfold State.barrierTimeout at h
  simp only [bind, Option.bind_eq_some_iff] at h
  obtain ⟨t, -, h⟩ := h
  repeat' split at h
  all_goals first
    | (cases h; done)
    | (simp only [Option.bind_eq_some_iff] at h
       obtain ⟨b, -, f, -, h⟩ := h
       split at h <;> cases h
       exact foldl_mems (fun _ _ => by simp) _ _)
theorem granuleTimeout_mems {s s1 : State} {tid : Nat} (h : s.granuleTimeout tid = some s1) : mems s1 = mems s := by
  unfold State.granuleTimeout at h
  simp only [bind, Option.bind_eq_some_iff] at h
  obtain ⟨t, -, h⟩ := h
  repeat' split at h
  all_goals first
    | (cases h; done)
    | (simp only [Option.bind_eq_some_iff] at h
       obtain ⟨x, -, h⟩ := h
       split at h <;> cases h
       simp)
theorem rendezvousTimeout_mems {s s1 : State} {tid : Nat} (h : s.rendezvousTimeout tid = some s1) : mems s1 = mems s := by
  unfold State.rendezvousTimeout at h
  simp only [bind, Option.bind_eq_some_iff] at h
  obtain ⟨t, -, i, -, g, -, h⟩ := h
  split at h <;> cases h
  rw [settleLatch_mems]
  exact foldl_mems (fun _ _ => by simp) _ _
theorem emulTimeout_mems {s s1 : State} {tid : Nat} {r : Bool} (h : s.emulationTimeout tid r = some s1) : mems s1 = mems s := by
  unfold State.emulationTimeout at h
  simp only [bind, Option.bind_eq_some_iff] at h
  obtain ⟨t, -, h⟩ := h
  repeat' split at h
  all_goals first | (cases h; done) | (cases h; simp)
theorem redundantTimeout_mems {s s1 : State} {tid : Nat} (h : s.redundantTimeout tid = some s1) : mems s1 = mems s := by
  unfold State.redundantTimeout at h
  simp only [bind, Option.bind_eq_some_iff] at h
  obtain ⟨t, -, p, -, h⟩ := h
  repeat' split at h
  all_goals first | (cases h; done) | (cases h; simp)
theorem curveAbandon_mems {s s1 : State} {core : Nat} (h : s.curveAbandon core = some s1) : mems s1 = mems s := by
  unfold State.curveAbandon at h
  simp only [bind, Option.bind_eq_some_iff] at h
  obtain ⟨f, -, h⟩ := h
  split at h <;> cases h
  simp
theorem ckptTimeout_mems {s s1 : State} {core : Nat} (h : s.ckptTimeout core = some s1) : mems s1 = mems s := by
  unfold State.ckptTimeout at h
  simp only [bind, Option.bind_eq_some_iff] at h
  obtain ⟨f, -, h⟩ := h
  split at h <;> cases h
  simp
theorem handlerEscalation_mems {s s1 : State} {core : Nat} (h : s.handlerOverdue core = some s1) : mems s1 = mems s := by
  unfold State.handlerOverdue at h
  simp only [bind, Option.bind_eq_some_iff] at h
  obtain ⟨c, -, x, -, h⟩ := h
  split at h <;> cases h
  simp
theorem faultTimeout_ok {s s1 : State} {f : Nat} (hs : memOk (mems s)) (h : s.faultTimeout f = some s1) : memOk (mems s1) := by
  unfold State.faultTimeout at h
  simp only [bind, Option.bind_eq_some_iff] at h
  obtain ⟨x, -, h⟩ := h
  split at h <;> cases h
  exact deliverFault_ok _ _ hs
/-- A watchdog's end keeps the canonical form. -/
theorem fire_ok {s s1 : State} {core : Nat} {d : Due} (hs : memOk (mems s)) (h : s.fire core d = some s1) : memOk (mems s1) := by
  cases d with
  | team tid =>
    simp only [State.fire] at h
    repeat' split at h
    all_goals first
      | (cases h; done)
      | exact barrierTimeout_mems h ▸ hs
      | exact granuleTimeout_mems h ▸ hs
      | exact rendezvousTimeout_mems h ▸ hs
      | exact emulTimeout_mems h ▸ hs
      | exact redundantTimeout_mems h ▸ hs
  | curve => exact curveAbandon_mems h ▸ hs
  | ckpt => exact ckptTimeout_mems h ▸ hs
  | handler => exact handlerEscalation_mems h ▸ hs
  | fault f => exact faultTimeout_ok hs h
theorem fireFirst_ok {s s1 : State} {core : Nat} (hs : memOk (mems s)) (h : s.fireFirst core = some s1) : memOk (mems s1) := by
  have key : ∀ (r : List (Nat × Nat × State)) (d : Nat × Nat × State), memOk (mems d.2.2) → (∀ x ∈ r, memOk (mems x.2.2)) →
      memOk (mems (r.foldl earlier d).2.2) := by
    intro r
    induction r with
    | nil => exact fun d hd _ => hd
    | cons x r ih =>
      intro d hd hr
      refine ih _ ?_ (fun y hy => hr y (List.mem_cons_of_mem _ hy))
      unfold earlier; split
      · exact hd
      · exact hr x (List.mem_cons_self ..)
  unfold State.fireFirst at h
  split at h
  · cases h
  · rename_i d r hl
    have hall : ∀ x ∈ d :: r, memOk (mems x.2.2) := by
      intro x hx
      rw [← hl] at hx
      obtain ⟨y, -, hy⟩ := List.mem_filterMap.1 hx
      obtain ⟨s2, h2, rfl⟩ := Option.map_eq_some_iff.1 hy
      exact fire_ok hs h2
    cases h
    exact key _ _ (hall d (List.mem_cons_self ..)) (fun x hx => hall x (List.mem_cons_of_mem _ hx))
theorem sweep_ok (core : Nat) : ∀ (n : Nat) {s : State}, memOk (mems s) → memOk (mems (s.sweep core n))
  | 0, _, h => h
  | n + 1, s, h => by
    unfold State.sweep
    split
    · rename_i s1 h1; exact sweep_ok core n (fireFirst_ok h h1)
    · exact h
@[simp] theorem settleCore_ok {s : State} (core : Nat) (h : memOk (mems s)) : memOk (mems (s.settleCore core)) := by
  unfold State.settleCore; dsimp only
  rw [tick_mems]
  refine dueSwap_ok _ ?_
  rw [settleEngine_mems]
  refine sweep_ok _ _ ?_
  split
  · exact h
  · rw [settleLatch_mems]; exact h
@[simp] theorem afterStep_ok {s : State}  (h : memOk (mems s)) : memOk (mems (s.afterStep)) := by
  unfold State.afterStep
  exact foldl_ok (fun st e hs => settleCore_ok _ hs) _ _ (by rw [tick_mems]; exact h)
@[simp] theorem endIssue_mems (s : State) (a : Agent) (e : Env) (slot : Nat) (cost : Nat) (np : Nat) : mems (s.endIssue a e slot cost np) = mems s := by
  unfold State.endIssue; split <;> simp
@[simp] theorem useFetch_mems (s : State) (e : Env) (t : Team) : mems (s.useFetch e t) = mems s := by
  unfold State.useFetch
  repeat' (first | rfl | (simp; done) | split | (refine (foldl_mems (fun _ _ => ?_) _ _).trans ?_) | (dsimp only) | (simp only [cond_eq_ite]) | simp)
@[simp] theorem readyToIssue_mems (s : State) (t : Team) : mems (s.readyToIssue t) = mems s := by
  unfold State.readyToIssue; dsimp only; repeat' split
  all_goals simp
@[simp] theorem performTiles_ok {s : State} (o : PendOp) (h : memOk (mems s)) : memOk (mems (s.performTiles o).1) := by
  unfold State.performTiles
  refine foldPair_ok (fun p x hp => ?_) _ (s, o) h
  dsimp only
  split <;> simp [hp]
theorem storeForm_ok {s s1 : State} {w : Width} {x a b : Src} {obs : BitVec 7} {rel : Bool} {n : Nat} {e : Env} {t : Team} (h : memOk (mems s)) (hr : storeForm w x a b obs rel n s e t = .ok s1) : memOk (mems s1) := by
  unfold storeForm at hr; simp only [bind, Except.bind, pure, Except.pure] at hr; repeat' split at hr
  all_goals cases hr
  all_goals first | exact h | simp [h]
theorem loadForm_ok {s s1 : State} {w : Width} {d : Reg} {a b : Src} {obs : BitVec 7} {acq : Bool} {n : Nat} {e : Env} {t : Team} (h : memOk (mems s)) (hr : loadForm w d a b obs acq n s e t = .ok s1) : memOk (mems s1) := by
  unfold loadForm at hr; simp only [bind, Except.bind, pure, Except.pure] at hr; repeat' split at hr
  all_goals cases hr
  all_goals first | exact h | simp [h]
theorem strelForm_ok {s s1 : State} {w : Width} {x a : Src} {obs : BitVec 7} {e : Env} {t : Team} (h : memOk (mems s)) (hr : strelForm w x a obs s e t = .ok s1) : memOk (mems s1) := by
  unfold strelForm at hr; simp only [bind, Except.bind] at hr
  split at hr
  · cases hr
  · rename_i s2 h2
    cases hr; rw [committed_mems]; exact storeForm_ok h h2
theorem holdLoad_ok {s s1 : State} {d : Reg} {a : W64} {n : Nat} {e : Env} {t : Team} (h : memOk (mems s)) (hr : holdLoad d a n s e t = .ok s1) : memOk (mems s1) := by
  unfold holdLoad at hr; simp only [bind, Except.bind, pure, Except.pure] at hr; repeat' split at hr
  all_goals cases hr
  all_goals first | exact h | simp [h]
theorem atomForm_ok {s s1 : State} {o : AtomOp} {wide : Bool} {d : Reg} {a : Src} {obs : BitVec 7} {e : Env} {t : Team} (h : memOk (mems s)) (hr : atomForm o wide d a obs s e t = .ok s1) : memOk (mems s1) := by
  unfold atomForm at hr; simp only [bind, Except.bind, pure, Except.pure] at hr; repeat' split at hr
  all_goals cases hr
  all_goals first | exact h | simp [h]
theorem barvForm_ok {s s1 : State} {wait : Bool} {d : Reg} {a : Src} {e : Env} {t : Team} (h : memOk (mems s)) (hr : barvForm wait d a s e t = .ok s1) : memOk (mems s1) := by
  unfold barvForm at hr; simp only [bind, Except.bind, pure, Except.pure] at hr; repeat' split at hr
  all_goals cases hr
  all_goals first | exact h | simp [h]
theorem tlbinvForm_ok {s s1 : State} {k : TlbK} {d a b : Src} {e : Env} {t : Team} (h : memOk (mems s)) (hr : tlbinvForm k d a b s e t = .ok s1) : memOk (mems s1) := by
  unfold tlbinvForm at hr; simp only [bind, Except.bind, pure, Except.pure] at hr; repeat' split at hr
  all_goals cases hr
  all_goals first | exact h | simp [h]
theorem setshapeForm_ok {s s1 : State} {k : ReqKind} {d : Reg} {a : Src} {p : Pol} {sh : Fin 4} {e : Env} {t : Team} (h : memOk (mems s)) (hr : setshapeForm k d a p sh s e t = .ok s1) : memOk (mems s1) := by
  unfold setshapeForm at hr; simp only [bind, Except.bind, pure, Except.pure] at hr; repeat' split at hr
  all_goals cases hr
  all_goals first | exact h | simp [h]
@[simp] theorem fetchRecord_mems (s : State) (e : Env) (t : Team) (addr : W64) : mems (s.fetchRecord e t addr) = mems s := by
  unfold State.fetchRecord; split
  · rw [sendOn_mems, useAll_mems]
  · rfl
@[simp] theorem noteReads_mems (s : State) (p : Nat) (after : List Nat) (l : List PartyRead) : mems (s.noteReads p after l) = mems s := rfl
@[simp] theorem sawAt_mems (s : State) (p : Nat) (t : Target) (n time : Nat) : mems (s.sawAt p t n time) = mems s := rfl
@[simp] theorem withReads_mems (s1 s : State) (c : EngCmd) (l : List PartyRead) : mems (s1.withReads s c l) = mems s1 := by
  rw [State.withReads, sendReqs_mems]; rfl
@[simp] theorem arriveTwin_mems (s : State) (p : Pair) (a : Src) : mems (s.arriveTwin p a) = mems s := by
  unfold State.arriveTwin; repeat' split
  all_goals simp
theorem copyForm_ok {s s1 : State} {xf : Bool} {cq : Fin 4} {a b : Src} {e : Env} {t : Team} (h : memOk (mems s)) (hr : copyForm xf cq a b s e t = .ok s1) : memOk (mems s1) := by
  unfold copyForm at hr; simp only [bind, Except.bind, pure, Except.pure] at hr; repeat' split at hr
  all_goals cases hr
  all_goals first | exact h | simp [h]
theorem enqForm_ok {s s1 : State} {d : Reg} {a : Src} {e : Env} {t : Team} (h : memOk (mems s)) (hr : enqForm d a s e t = .ok s1) : memOk (mems s1) := by
  unfold enqForm at hr; simp only [bind, Except.bind, pure, Except.pure] at hr; repeat' split at hr
  all_goals cases hr
  all_goals first | exact h | simp [h]
theorem contForm_ok {s s1 : State} {a : Src} {e : Env} {t : Team} (h : memOk (mems s)) (hr : contForm a s e t = .ok s1) : memOk (mems s1) := by
  unfold contForm at hr; simp only [bind, Except.bind, pure, Except.pure] at hr; repeat' split at hr
  all_goals cases hr
  all_goals first | exact h | simp [h]
theorem exitForm_ok {s s1 : State}  {e : Env} {t : Team} (h : memOk (mems s)) (hr : exitForm  s e t = .ok s1) : memOk (mems s1) := by
  unfold exitForm at hr; simp only [bind, Except.bind, pure, Except.pure] at hr; repeat' split at hr
  all_goals cases hr
  all_goals first | exact h | simp [h]
theorem trdForm_ok {s s1 : State} {wide : Bool} {q : TrdQ} {d : Reg} {a b : Src} {e : Env} {t : Team} (h : memOk (mems s)) (hr : trdForm wide q d a b s e t = .ok s1) : memOk (mems s1) := by
  unfold trdForm at hr; simp only [bind, Except.bind, pure, Except.pure] at hr; repeat' split at hr
  all_goals cases hr
  all_goals first | exact h | simp [h]
theorem twrForm_ok {s s1 : State} {wide : Bool} {q : TwrQ} {x a b : Src} {e : Env} {t : Team} (h : memOk (mems s)) (hr : twrForm wide q x a b s e t = .ok s1) : memOk (mems s1) := by
  unfold twrForm at hr; simp only [bind, Except.bind, pure, Except.pure] at hr; repeat' split at hr
  all_goals cases hr
  all_goals first | exact h | (simp [h]; done) | (rw [setAgent_mems, foldl_mems (fun _ _ => operandSeen_mems _ _ _ _ _)]; exact h)
theorem reissue_ok {s : State} (a : Agent) {f : State → Env → Team → Except Trap State}
    (hf : ∀ s s1 e t, memOk (mems s) → f s e t = .ok s1 → memOk (mems s1)) (h : memOk (mems s)) : memOk (mems (s.reissue a f)) := by
  unfold State.reissue; dsimp only; repeat' split
  · exact h
  · rename_i h2; exact hf _ _ _ _ (by simp [h]) h2
  · simp [h]
theorem commitBy_ok {s : State} (p : Pair) {f : State → Env → Team → Except Trap State} {g : State → Team → State}
    (hf : ∀ s s1 e t, memOk (mems s) → f s e t = .ok s1 → memOk (mems s1)) (hg : ∀ s t, memOk (mems s) → memOk (mems (g s t)))
    (h : memOk (mems s)) : memOk (mems (s.commitBy p f g)) := by
  unfold State.commitBy; dsimp only; repeat' split
  · rename_i h2; exact hg _ _ (hf _ _ _ _ (by simp [h]) h2)
  · simp [h]
  · exact h
@[simp] theorem twinAtomic_ok {s : State} (p : Pair) (o : AtomOp) (wide : Bool) (d : Reg) (a : Src) (obs : BitVec 7) (op : Nat) (t1 : Team) (h : memOk (mems s)) : memOk (mems (s.twinAtomic p o wide d a obs op t1)) := by
  unfold State.twinAtomic; (try dsimp only); repeat' split
  all_goals first | exact h | simp [h]
@[simp] theorem commitBoth_ok {s : State} (p : Pair) (i : Instr) (h : memOk (mems s)) : memOk (mems (s.commitBoth p i)) := by
  have ef : ∀ (s s1 : State) (e : Env) (t : Team), memOk (mems s) → exitForm s e t = .ok s1 → memOk (mems s1) := fun _ _ _ _ h hr => exitForm_ok h hr
  unfold State.commitBoth; dsimp only; split
  · exact reissue_ok _ ef (reissue_ok _ ef h)
  · exact commitBy_ok _ (fun _ _ _ _ h hr => contForm_ok h hr) (fun _ _ h => by simp [h]) h
  · exact commitBy_ok _ (fun _ _ _ _ h hr => enqForm_ok h hr) (fun _ _ h => by simp [h]) h
  · rw [setPartner_mems]
    exact commitBy_ok _ (fun _ _ _ _ h hr => strelForm_ok h hr) (fun _ _ h => by simp [h]) (by simp [h])
  · exact commitBy_ok _ (fun _ _ _ _ h hr => atomForm_ok h hr) (fun _ _ h => by simp [h]) h
  · exact commitBy_ok _ (fun _ _ _ _ h hr => atomForm_ok h hr) (fun _ _ h => by simp [h]) h
  · exact commitBy_ok _ (fun _ _ _ _ h hr => barvForm_ok h hr) (fun s2 t1 h => by split <;> simp [h]) h
  · exact h
theorem tlbGoOn_ok {s s1 : State} {a : Agent} {t : Team} {i : Instr} {r : Bool} (h : memOk (mems s)) (hr : s.tlbGoOn a t i r = .some s1) : memOk (mems s1) := by
  unfold State.tlbGoOn at hr
  repeat' split at hr
  all_goals first | (cases hr; done) | (cases hr; simp [h]; done) | (obtain ⟨x, -, rfl⟩ := Option.map_eq_some_iff.1 hr; simp [h])
theorem buildRoom_mems (die n : Nat) : ∀ (k : Nat) (s : State), mems (s.makeRoom die n k) = mems s
  | 0, _ => rfl
  | k + 1, s => by
    unfold State.makeRoom
    dsimp only
    repeat' split
    · rfl
    · rw [buildRoom_mems die n k]; rfl
    · rfl
theorem roomFor_mems {s s1 : State} {die n : Nat} (h : s.roomFor die n = some s1) : mems s1 = mems s := by
  unfold State.roomFor at h; dsimp only at h; split at h <;> cases h
  exact buildRoom_mems _ _ _ _
theorem sameEntry_mems {s : State} {k die : Nat} {q : State × Nat} (h : s.sameEntry k die = some q) : mems q.1 = mems s := by
  unfold State.sameEntry at h; dsimp only at h; repeat' split at h
  all_goals first
    | (cases h; done)
    | (cases h; rfl)
    | (obtain ⟨u, hu, rfl⟩ := Option.map_eq_some_iff.1 h
       rw [mems_mk, mems_fold, dieEvent_mems]; exact roomFor_mems hu)
theorem rebaseGroup_mems {s s1 : State} {gid die : Nat} (h : s.rebaseGroup gid die = some s1) : mems s1 = mems s := by
  unfold State.rebaseGroup at h
  split at h
  · cases h; rfl
  · simp only [bind, Option.bind_eq_some_iff] at h
    obtain ⟨r, hr, h⟩ := h
    cases h
    refine (foldM_mems (fun p x q hq => ?_) _ (s, []) r hr)
    simp only [Option.bind_eq_some_iff] at hq
    obtain ⟨u, hu, hq⟩ := hq
    cases hq
    exact sameEntry_mems hu
theorem bringIn_mems {s s1 : State} {gid core b : Nat} (h : s.bringIn gid core b = some s1) : mems s1 = mems s := by
  unfold State.bringIn at h
  split at h
  · cases h; rfl
  · exact (rebaseGroup_mems h).trans rfl
theorem moveGroup_mems {s s1 : State} {gid toCore : Nat} {g : Group} (h : s.moveGroup gid g toCore = some s1) : mems s1 = mems s := by
  unfold State.moveGroup at h
  simp only [bind, Option.bind_eq_some_iff] at h
  obtain ⟨r, hr, h⟩ := h
  cases h
  rw [dieEvent_mems, mems_mk, mems_fold, rebaseGroup_mems hr, seatGroup_mems]
theorem bringAll_mems {core b : Nat} : ∀ {l : List (Nat × Group)} {s s1 : State}, l.foldlM (fun (st : State) e => st.bringIn e.1 core b) s = some s1 →
    mems s1 = mems s
  | [], s, s1, e => by simp only [List.foldlM_nil, pure, Option.some.injEq] at e; rw [e]
  | x :: r, s, s1, e => by
    simp only [List.foldlM_cons, bind, Option.bind_eq_some_iff] at e
    obtain ⟨u, h1, h2⟩ := e
    exact (bringAll_mems h2).trans (bringIn_mems h1)
theorem loadBank_mems {s s1 : State} {core image : Nat} (hr : s.loadBank core image = .some s1) : mems s1 = mems s := by
  unfold State.loadBank at hr
  simp only [bind, Option.bind_eq_some_iff] at hr
  obtain ⟨i, -, cp, -, hr⟩ := hr
  split at hr
  case isFalse => cases hr
  simp only [Option.bind_eq_some_iff] at hr
  obtain ⟨u, hu, hr⟩ := hr
  cases hr
  rw [closeContext_mems, recountPartners_mems, setCore_mems, mems_mk, mems_fold, bringAll_mems hu]
@[simp] theorem tresume_mems (s : State) (e : Env) (kill : Bool) (slot : Nat) : mems (s.tresume e kill slot).2 = mems s := by
  unfold State.tresume; repeat' split
  all_goals simp
theorem unpack_mems {s : State} {core : Nat} {i : Image} {r : Nat × State} (h : s.unpack core i = some r) : mems r.2 = mems s := by
  obtain ⟨u, hu, rfl⟩ := Option.map_eq_some_iff.1 h
  exact (roomFor_mems hu : mems u = mems s)
theorem restoreImage_mems {s s1 : State} {core ctx : Nat} {bs : List Byte} (h : s.restoreImage core ctx bs = some s1) : mems s1 = mems s := by
  unfold State.restoreImage at h
  simp only [bind, Option.bind_eq_some_iff] at h
  obtain ⟨i, -, r, hr, h⟩ := h
  split at h
  · exact (loadBank_mems h).trans (unpack_mems hr)
  · cases h
theorem hold_mems {s s1 : State} {mb : Nat} {i : Instr} (h : s.hold mb i = some s1) : mems s1 = mems s := by
  unfold State.hold at h; dsimp only at h; split at h <;> cases h
  rfl
theorem submit_ok {s s1 : State} {say : State → W64 → State} (hs : ∀ s x, mems (say s x) = mems s) {ctx addr die : Nat} (h : memOk (mems s)) (hr : s.submit say ctx addr die = .some s1) : memOk (mems s1) := by
  unfold State.submit at hr; dsimp only at hr; repeat' split at hr
  all_goals cases hr
  all_goals simp [h, hs]
theorem pickBit_ok {s s1 : State} {id : Nat} {c : EngCmd} {x : ActDesc} {i : Nat} {on : Bool} (h : memOk (mems s)) (hr : s.pickBit id c x i on = .ok s1) : memOk (mems s1) := by
  unfold State.pickBit at hr; simp only [bind, Except.bind, pure, Except.pure] at hr; repeat' split at hr
  all_goals cases hr
  all_goals first | exact h | simp [h]
theorem postBatches_ok (id : Nat) (c : EngCmd) (x : ActDesc) (ws : List W64) : ∀ (n done k : Nat) {s : State} {r : Nat × Nat × State},
    memOk (mems s) → s.postBatches id c x ws n done k = .ok r → memOk (mems r.2.2)
  | 0, _, _, _, _, h, hr => by unfold State.postBatches at hr; cases hr; exact h
  | n + 1, done, k, s, r, h, hr => by
    unfold State.postBatches at hr; dsimp only at hr; repeat' split at hr
    · cases hr; exact h
    · cases hr; exact h
    · cases hr; exact h
    · cases hr
    · exact postBatches_ok id c x ws n _ _ (postRecord_ok _ _ _ _ _ _ h) hr
theorem emitRun_ok {s s1 : State} {id : Nat} {c : EngCmd} {x : ActDesc} (h : memOk (mems s)) (hr : s.emitRun id c x = .ok s1) : memOk (mems s1) := by
  unfold State.emitRun at hr; simp only [bind, Except.bind, pure, Except.pure] at hr; repeat' split at hr
  all_goals first
    | (cases hr; done)
    | (rename_i r hb
       cases hr
       rw [withReads_mems, walksFor_mems]
       exact cmdPut_ok _ _ _ (postBatches_ok _ _ _ _ _ _ _ (cmdWrites_ok _ _ h) hb))
theorem pickRun_ok {s s1 : State} {id : Nat} {c : EngCmd} (h : memOk (mems s)) (hr : s.pickRun id c = .ok s1) : memOk (mems s1) := by
  unfold State.pickRun at hr; simp only [bind, Except.bind] at hr; repeat' split at hr
  all_goals first | (cases hr; done) | (cases hr; simp [h]; done) | (cases hr; exact h) | exact pickBit_ok h hr | exact emitRun_ok h hr
theorem joinRun_ok {s s1 : State} {id : Nat} {j : JoinUpd} (h : memOk (mems s)) (hr : s.joinRun id j = .ok s1) : memOk (mems s1) := by
  unfold State.joinRun at hr
  simp only [bind, Except.bind] at hr
  split at hr
  · cases hr
  · rename_i g _
    have hp : ∀ x, memOk (mems (((s.writeAs id .none true true [s.joinRelease id j] g (leBytes x 8)).sendOn g none).sawAt (joinParty j.die)
        g 16 s.clock)) := fun x => by
      rw [sawAt_mems, sendOn_mems]; exact writeAs_ok _ _ _ _ _ _ _ h
    repeat' split at hr
    all_goals first
      | (rw [← Except.ok.inj hr, walksFor_mems]
         exact postWaiter_ok _ _ _ _ _ (by rw [sendReqs_mems, noteReads_mems]; exact hp _))
      | (rw [← Except.ok.inj hr]; exact hp _)
      | (cases hr; done)
theorem scanRun_ok {s s1 : State} {id : Nat} {c : EngCmd} {p : List Nat} (h : memOk (mems s)) (hr : s.scanRun id c p = .ok (some s1)) : memOk (mems s1) := by
  unfold State.scanRun at hr; simp only [bind, Except.bind] at hr; repeat' split at hr
  all_goals first
    | (cases hr; done)
    | (cases hr; rw [withReads_mems]; simp [h]; done)
theorem finishCmd_ok {s s1 : State} {id : Nat} {c : EngCmd} {r : Except EngErr State} (h : memOk (mems s))
    (hk : ∀ s2, r = .ok s2 → memOk (mems s2)) (hr : s.finishCmd id c r = some s1) : memOk (mems s1) := by
  unfold State.finishCmd at hr; dsimp only at hr; split at hr
  · rename_i hq
    cases hr
    rw [endCmd_mems, addOrder_mems, walksFor_mems]
    split at hq
    · cases hq
    · exact hk _ hq
  · cases hr; simp [h]
  · cases hr; simp [h]
  · cases hr
@[simp] theorem takeTrap_mems (s : State) (x : Trap) : mems (takeTrap s x) = mems s := by
  unfold takeTrap; split <;> simp
theorem runAgent_memOk {s s' : State} {n : Nat} {f : Env → Team → Except Trap Team} (h : memOk (mems s))
    (hr : runAgent s n f = .next s') : memOk (mems s') := by
  unfold runAgent at hr; repeat' split at hr
  all_goals cases hr
  · simp [h]
  · rw [takeTrap_mems]; exact h
theorem runState_memOk {s s' : State} {f : Env → Team → Except Trap State} (h : memOk (mems s))
    (hf : ∀ e t s1, f e t = .ok s1 → memOk (mems s1)) (hr : runState s f = .next s') : memOk (mems s') := by
  unfold runState at hr; repeat' split at hr
  all_goals cases hr
  · rename_i h2; exact hf _ _ _ h2
  · rw [takeTrap_mems]; exact h
theorem runCommit_memOk {s s' : State} {i : Instr} {f : State → Env → Team → Except Trap State} (h : memOk (mems s))
    (hf : ∀ e t s1, f s e t = .ok s1 → memOk (mems s1)) (hr : runCommit i s f = .next s') : memOk (mems s') := by
  refine runState_memOk h (fun e t s1 he => ?_) hr
  split at he
  · cases he
  · cases he
    rename_i s2 h2
    split
    · simp [h]
    · exact hf _ _ _ h2
theorem runEvent_memOk {s : State} {r : Option State} {s' : State} (h : memOk (mems s)) (hf : ∀ s1, r = some s1 → memOk (mems s1))
    (hr : runEvent s r = .next s') : memOk (mems s') := by
  cases r with
  | none => cases hr; exact h
  | some x => cases hr; exact hf _ rfl
end Sys2Proof.Laws
end

