-- ==== Sys2Proof/Laws/Ops.lean ====
section
/-!
SUPPORT. What the shared operations do, said once: what a write of several keys leaves, which lanes are live, what stopping a
team changes and what it leaves, and what a step of the machine is in terms of its parts.
-/
namespace Sys2Proof.Laws
open Sys2Proof Sys2Proof.Machine

/-! ## Lanes and stores -/

/-- A key that is not written keeps its word. -/
theorem sget_ssetAll_of_notMem {w : Nat} (k : Nat) : ∀ (kv : List (Nat × BitVec w)) (m : List (Nat × BitVec w)), (∀ e ∈ kv, e.1 ≠ k) →
    sget (ssetAll m kv) k = sget m k
  | [], _, _ => rfl
  | e :: r, m, h => by
    unfold ssetAll
    rw [sget_ssetAll_of_notMem k r _ (fun x hx => h x (List.mem_cons_of_mem _ hx))]
    exact sget_sset_ne (h e (List.mem_cons_self ..)).symm _ _

/-- A listed live lane is live. -/
theorem live_of_mem {t : Team} {l : Nat} (h : l ∈ t.liveLanes) : t.live.getLsbD l = true := by
  simp only [Team.liveLanes, lanesOf, List.mem_filter] at h
  exact h.2

/-- A listed live lane is below the team's width. -/
theorem lt_tw_of_mem {t : Team} {l : Nat} (h : l ∈ t.liveLanes) : l < t.tw := by
  simp only [Team.liveLanes, lanesOf, List.mem_filter, List.mem_range] at h
  exact h.1

/-! ## A wait at a commit looked at again (R313) -/

/-- Only the teams change. -/
theorem recount_rest (s : State) (k : Nat) : s.recount k = { s with teams := (s.recount k).teams } := by
  unfold State.recount; dsimp only; repeat' split
  all_goals rfl
theorem recountPartner_rest (s : State) (k : Nat) : s.recountPartner k = { s with teams := (s.recountPartner k).teams } := by
  unfold State.recountPartner; split
  · exact recount_rest _ _
  · rfl

/-- Of a team only its wait and the COUNT at which it began change. -/
theorem recount_team {s : State} {k tid : Nat} {t : Team} (h : alook tid s.teams = some t) :
    ∃ w n, alook tid (s.recount k).teams = some { t with wait := w, since := n } := by
  unfold State.recount
  split
  · rename_i u hu
    by_cases hk : tid = k
    · subst hk
      rw [h] at hu; cases hu
      dsimp only; split
      · split
        · exact ⟨_, _, h⟩
        · exact ⟨_, t.since, alook_aset_same _ _ _⟩
      · split
        · exact ⟨_, _, alook_aset_same _ _ _⟩
        · exact ⟨_, _, h⟩
      · exact ⟨_, _, h⟩
    · refine ⟨t.wait, t.since, ?_⟩
      dsimp only; split
      · split
        · exact h
        · exact (alook_aset_ne hk _ _).trans h
      · split
        · exact (alook_aset_ne hk _ _).trans h
        · exact h
      · exact h
  · exact ⟨_, _, h⟩
theorem recountPartner_team {s : State} {k tid : Nat} {t : Team} (h : alook tid s.teams = some t) :
    ∃ w n, alook tid (s.recountPartner k).teams = some { t with wait := w, since := n } := by
  unfold State.recountPartner; split
  · exact recount_team h
  · exact ⟨_, _, h⟩

/-- A team that waits for nothing stays as it is. -/
theorem recount_idle {s : State} {k tid : Nat} {u : Team} (h : alook tid s.teams = some u) (hw : u.wait = .none) :
    alook tid (s.recount k).teams = some u := by
  unfold State.recount
  split
  · rename_i t ht
    by_cases hk : tid = k
    · subst hk
      rw [h] at ht; cases ht
      simp [hw, h]
    · dsimp only; split
      · split <;> simp [alook_aset, hk, h]
      · split <;> simp [alook_aset, hk, h]
      · exact h
  · exact h
theorem recountPartner_idle {s : State} {k tid : Nat} {u : Team} (h : alook tid s.teams = some u) (hw : u.wait = .none) :
    alook tid (s.recountPartner k).teams = some u := by
  unfold State.recountPartner; split
  · exact recount_idle h hw
  · exact h

/-! ## Stopping a team (R293) -/

/-- A trap that is queued changes no team. -/
@[simp] theorem queueTrap_teams (s : State) (tid gid : Nat) : (s.queueTrap tid gid).teams = s.teams := by
  unfold State.queueTrap State.modTrapQ; repeat' split
  all_goals rfl

/-- A request's flit changes the ports alone. -/
theorem sendOn_rest (s : State) (t : Target) (r : Option (Nat × Nat)) : ∃ k m, s.sendOn t r = { s with kports := k, mports := m } := by
  unfold State.sendOn State.setPort; repeat' split
  all_goals exact ⟨_, _, rfl⟩
theorem sendReqs_rest (l : List Target) : ∀ s : State, ∃ k m, s.sendReqs l = { s with kports := k, mports := m } := by
  induction l with
  | nil => exact fun s => ⟨_, _, rfl⟩
  | cons t r ih =>
    intro s
    obtain ⟨k, m, h⟩ := sendOn_rest s t none
    obtain ⟨k1, m1, h1⟩ := ih (s.sendOn t none)
    exact ⟨k1, m1, by rw [State.sendReqs, List.foldl_cons]; exact h1.trans (by rw [h])⟩

/-- A walk changes the ports and the dies' counters alone. -/
theorem walked_rest (s : State) (ctx die va : Nat) : ∃ d k m, s.walked ctx die va = { s with dies := d, kports := k, mports := m } := by
  obtain ⟨k, m, h⟩ := sendReqs_rest (((s.dieEvent die 18 1).walkReads ctx va).map Target.dev) (s.dieEvent die 18 1)
  exact ⟨_, k, m, h⟩

/-- The walk of a trap changes no team. -/
@[simp] theorem trapWalk_teams (s : State) (ctx core : Nat) (x : Trap) : (s.trapWalk ctx core x).teams = s.teams := by
  unfold State.trapWalk State.cache; dsimp only; repeat' split
  all_goals first
    | rfl
    | (obtain ⟨d, k, m, h⟩ := walked_rest s ctx (dieOf core) x.addr.toNat; simp only [h])

/-- What a firmware core sends changes the firmware alone. -/
theorem fwSend_rest (s : State) (core mb : Nat) (vec : Option Nat) (m : Msg) : ∃ f, s.fwSend core mb vec m = { s with fw := f } := by
  unfold State.fwSend State.msix State.send; repeat' split
  all_goals exact ⟨_, rfl⟩

/-- A fault given to the MEM firmware changes only the list of faults, the firmware, the dies' counters, the ports and the numbering. -/
theorem fwFault_rest (s : State) (a : Agent) (ctx : Nat) (va : W64) (core : Nat) :
    ∃ d kp mp l f, s.fwFault a ctx va core =
      { s with dies := d, kports := kp, mports := mp, faults := aset s.nextId l s.faults, nextId := s.nextId + 1, fw := f } ∧
      l.ag = a ∧ l.va = va ∧ l.ctx = ctx := by
  obtain ⟨d, k, m, h⟩ := walked_rest s ctx (dieOf core) (va.toNat % 2 ^ 56)
  unfold State.fwFault; dsimp only; simp only [cond_eq_ite, h]; split
  · exact ⟨_, _, _, _, _, rfl, rfl, rfl, rfl⟩
  · obtain ⟨f, hf⟩ := fwSend_rest _ _ _ _ _
    exact ⟨_, _, _, _, f, hf, rfl, rfl, rfl⟩

/-- The fault stands in the list under the next number, of the agent and at the address given. -/
theorem fwFault_listed (s : State) (a : Agent) (ctx : Nat) (va : W64) (core : Nat) :
    ∃ f, alook s.nextId (s.fwFault a ctx va core).faults = some f ∧ f.ag = a ∧ f.va = va ∧ f.ctx = ctx := by
  obtain ⟨d, kp, mp, l, f, h, ha⟩ := fwFault_rest s a ctx va core
  exact ⟨l, by rw [h]; exact alook_aset_same _ _ _, ha⟩

/-- It changes no team. -/
@[simp] theorem fwFault_teams (s : State) (a : Agent) (ctx : Nat) (va : W64) (core : Nat) : (s.fwFault a ctx va core).teams = s.teams := by
  obtain ⟨d, kp, mp, l, f, h, -⟩ := fwFault_rest s a ctx va core
  rw [h]

/-- Counting an event leaves every trap queue. -/
theorem coreEvent_trapQ (s : State) (c code n c' b : Nat) : (((s.coreEvent c code n).core c').bank b).trapQ = ((s.core c').bank b).trapQ := by
  unfold State.coreEvent State.modCore State.setCore State.core agetD
  simp only [alook_aset]
  by_cases h : c' = c
  · subst h; simp only [if_true]
    cases alook c' s.cores <;> simp only [CoreSt.modActive, CoreSt.active, CoreSt.setBank, CoreSt.bank] <;> repeat' split
    all_goals rfl
  · simp [h]

/-- Counting an event changes no team. -/
@[simp] theorem ctxEvent_teams (s : State) (c ctx code n : Nat) : (s.ctxEvent c ctx code n).teams = s.teams := by
  unfold State.ctxEvent; split <;> rfl

/-- A team stopped by a trap is left as `Team.stop` says. -/
theorem stopTeamWith_team {s : State} {tid : Nat} {t : Team} (x : Trap) (pend : Option Cause) (ovf : Bool) (h : alook tid s.teams = some t) :
    alook tid (s.stopTeamWith tid x pend ovf).teams = some (t.stop (s.inPass t x) (x.count.getD (s.core (s.agentCore (.team tid))).count) pend ovf) := by
  unfold State.stopTeamWith
  rw [h]; dsimp only
  apply recountPartner_idle
  · split
    · rw [ctxEvent_teams, fwFault_teams]; exact alook_aset_same _ _ _
    · rw [ctxEvent_teams]
      rw [queueTrap_teams, trapWalk_teams]; exact alook_aset_same _ _ _
  · rfl

/-- A team that retires no group and drains nothing is left by `drainEnd`. -/
theorem drainEnd_keep {s : State} {tid : Nat} {t : Team} (h : alook tid s.teams = some t) (hd : ¬(t.st = .draining ∧ t.flags = [])) :
    s.drainEnd tid = s := by
  unfold State.drainEnd; rw [h]; dsimp only
  rw [if_neg]
  rintro ⟨a, b, -⟩
  exact hd ⟨a, b⟩

/-! ## A step -/

/-- A step with an empty schedule is an issue of the current agent. -/
theorem step_issue {s : State} (ha : alive s = none) (hg : s.agenda = []) : step s = countStep (issue s) := by
  simp only [step, ha, turn, hg]

/-- A step whose schedule begins with an event executes it. -/
theorem step_event {s : State} {i : Instr} {r : List Turn} (ha : alive s = none) (hg : s.agenda = .event i :: r) :
    step s = countStep (exec i { s with agenda := r }) := by
  simp only [step, ha, turn, hg]

end Sys2Proof.Laws
end

