-- ==== Sys2Proof/Tests/Slice0.lean ====
section
/-!
SUPPORT. Tests: ill-formed terms that the checks refuse, words of the spec's listings that decode to their instructions, single steps whose
results the spec works out, and for every statement a state and operands that meet its hypotheses.
-/
namespace Sys2Proof.Tests
open Sys2Proof Sys2Proof.Machine Sys2Proof.Claims

set_option Elab.async false

/-! ## Each check of WellFormed refuses an ill-formed term -/

theorem test_wf_packed_scalar : (Instr.add { cc := false, ty := .p16 } (.s 0) (.reg .z) (.reg .z)).wf = false := by decide
theorem test_wf_packed_unary : (Instr.mov { cc := false, ty := .p8 } .z (.reg .z)).wf = false := by decide
theorem test_wf_plain_only : (Instr.div { cc := false, ty := .p8 } (.v 0) (.reg .z) (.reg .z)).wf = false := by decide
theorem test_wf_cmp : (Instr.cmp .p16 (.reg (.s 0)) (.lit 1)).wf = false := by decide
theorem test_wf_sel : (Instr.sel .al (.v 0) (.reg .z) (.reg .z)).wf = false := by decide
theorem test_wf_loop : (Instr.loop (.reg (.s 0)) 1 0x0100).wf = false := by decide
theorem test_wf_mma_acc : (Instr.mma false 0 127 (.reg (.s 0)) (.reg (.s 1)) .acc 0 4).wf = false := by decide
theorem test_wf_mma_idx : (Instr.mma false 0 100 (.reg (.s 0)) (.reg (.s 1)) .acc 1 4).wf = false := by decide

/-! ## Words of the spec's listings (the chapters' "assembles as follows" tables) -/

theorem test_dec_integer : decode [0x01807CFE, 3] = .ok (.sub { cc := true, ty := .i } (.v 1) (.reg .lid) (.lit 3)) ∧
    decode [0x0000C179] = .ok (.add { cc := false, ty := .i } (.v 3) (.reg (.v 2)) (.reg .lid)) ∧
    decode [0x1B1A7F00, 0x00020002] = .ok (.mov { cc := false, ty := .i } (.s 9) (.lit 0x00020002)) := by decide +kernel
theorem test_dec_packed : decode [0x00628000] = .ok (.add { cc := false, ty := .p8 } (.v 10) (.reg (.v 0)) (.reg (.v 0))) := by
  decide +kernel
theorem test_dec_immediate : decode [0x4207C803] = .ok (.andi (.v 1) (.reg .lid) 3) ∧
    decode [0x4E000800] = .ok (.cmpi (.reg (.v 1)) 0) ∧ decode [0x50080007] = .ok (.movi (.v 2) 7) ∧
    decode [0x480BC801] = .ok (.shli (.v 2) (.reg .lid) 1) ∧ decode [0x400BC864] = .ok (.addi (.v 2) (.reg .lid) 100) ∧
    decode [0x53A74804] = .ok (.movhi (.s 9) (.reg (.s 9)) 4) := by decide +kernel
theorem test_dec_float : decode [0x220080FE, 0x3F400000] = .ok (.fmul { cc := false, ty := .f32 } (.v 2) (.reg (.v 1)) (.lit 0x3F400000)) ∧
    decode [0x310101F8] = .ok (.deq .f32 (.v 4) (.reg (.v 3)) (.reg .z)) := by decide +kernel
theorem test_dec_control : decode [0x5E000000] = .ok .join ∧ decode [0x68000005] = .ok (.trap 5) ∧
    decode [0xAE180000] = .ok (.rdcurve (.s 0)) ∧ decode [0x93003100] = .ok (.gang (.reg (.s 2))) := by decide +kernel
theorem test_dec_memory : decode [0x75880000] = .ok (.ldf (.s 2) 0) := by decide +kernel
theorem test_dec_tiles : decode [0x8B190001] = .ok (.talloc false .l0 (.s 4) 1) ∧
    decode [0x8E00B201] = .ok (.twr false .fill (.reg (.v 2)) (.reg (.s 4)) (.reg (.v 1))) ∧
    decode [0x8F197200] = .ok (.tstat (.s 5) (.reg (.s 4))) ∧
    decode [0x915AB482] = .ok (.setshape .mat (.s 10) (.reg (.s 9)) .fit 2) := by decide +kernel
theorem test_dec_barriers : decode [0x9718B1E4] = .ok (.binit (.s 2) (.reg (.s 3)) (.reg (.s 4))) ∧
    decode [0x9A19B1F8] = .ok (.bwait (.s 6) (.reg (.s 3)) (.reg .z)) ∧ decode [0x89000004] = .ok (.fence .ar 4) := by
  decide +kernel
theorem test_dec_system : decode [0xAA18F080] = .ok (.evrd false (.s 3) (.reg (.s 1))) := by decide +kernel
theorem test_dec_header : decode [0xC0003DC0] =
    .ok (.clauseStart { wait := 0, setA := 0, setB := 15, len := 7, bt := 0, hint := 0, rsv := 0 }) := by decide +kernel
/-- R33's table of refusals: RESERVED-FIELD for a reserved bit of EXIT, ILLEGAL for the unassigned opcodes. -/
theorem test_dec_refusals : decode [0x6C000001] = .error .reserved ∧ decode [0x1F000000] = .error .illegal ∧
    decode [0x78000000] = .error .illegal ∧ decode [0xB0000000] = .error .illegal := by decide +kernel

/-! ## Results that the spec works out -/

/-- "lanes 0–2: 0x8 (N); lane 3: 0x6 (Z, C); lanes 4–31: 0x2 (C)" of the integer chapter's SUB.c. -/
theorem test_sub_codes : (intLaneRes opSub .i 2 3 0 false).nib = 0x8 ∧ (intLaneRes opSub .i 3 3 0 false).nib = 0x6 ∧
    (intLaneRes opSub .i 4 3 0 false).nib = 0x2 := by decide +kernel
/-- The worked DIV: 12 by −3, and by 0 with its codes 0x9. -/
theorem test_div : (intLaneRes opDiv .i 12 0xFFFFFFFD 0 false).x = 0xFFFFFFFC ∧ (intLaneRes opDiv .i 12 0 0 false).x = 0xFFFFFFFF ∧
    (intLaneRes opDiv .i 12 0 0 false).nib = 0x9 := by decide +kernel
/-- R96's example: 15 under `.ss` and 271 under `.uu`. -/
theorem test_idot4 : idot4Lane .ss 10 0x010203FF 0x01010101 = 15 ∧ idot4Lane .uu 10 0x010203FF 0x01010101 = 271 := by decide +kernel
/-- R112's example: 7.5, no flag. -/
theorem test_fdot2 : (fdot2Lane .f16 0x3F800000 0x40003C00 0x42003800).x = 0x40F00000 ∧
    (fdot2Lane .f16 0x3F800000 0x40003C00 0x42003800).fl = 0 := by decide +kernel
/-- The worked FMUL, QUANT and DEQ: 0.75 × 18 is 13.5, code 0x1F; 2.25 is code 0x15, which stands for 0x401837F0. -/
theorem test_quant : (Fmt.f32.mul 0x3F400000 0x41900000).x = 0x41580000 ∧ (quantLane .f32 0x41580000 0).x = 0x1F ∧
    (quantLane .f32 0x40100000 0).x = 0x15 ∧ (deqLane .f32 0x15 0).x = 0x401837F0 := by decide +kernel
/-- The worked barrier: BSTAT gives the two halves after both teams have arrived and before the bytes land. -/
theorem test_barrier : (((Barrier.init 2 16 1).arrive 1 []).arrive 2 []).phase = 0 ∧
    ((((Barrier.init 2 16 1).arrive 1 []).arrive 2 []).credit 16 []).phase = 1 := by decide +kernel
/-- An ADD wraps, and the step gives the issue port on with the PC past the word. -/
theorem test_add_step : (match exec (.add { cc := false, ty := .i } (.s 0) (.lit 0xFFFFFFFF) (.lit 1)) (State.reset.placeWords []) with
    | .next s => (alook 1 s.teams).map fun t => (sget t.sregs 0, t.pc)
    | _ => none) = some (0, .code 0x1000C) := by decide +kernel

/-! ## Witnesses: states and operands that meet the hypotheses of the statements -/

/-- The placed team, and a placed state in which it stands as given. -/
def t0 : Team := placeTeam false
def at0 (t : Team) (ws : List W32) : State := { State.reset.placeWords ws with teams := [(1, t)] }

theorem at0_agent (t : Team) (ws : List W32) : (at0 t ws).agent (at0 t ws).cur = some t := rfl

/-- The control thread of the placed context, current, at handler or system level. -/
def ctl0 (l : Level) : Team := { newCtl false 1 with level := l, st := .ready }
def atCtl (t : Team) : State := { at0 t0 [] with ctls := [(ctlKey 0 1, t)], cur := .ctl 0 1 }

theorem atCtl_agent (t : Team) : (atCtl t).agent (atCtl t).cur = some t := rfl

theorem t0_vectors : Vectors t0 := by unfold Vectors; decide +kernel

theorem reached_of {ls : List LaneTgt} (h : (ls.all fun l => l.r.toBool) = true) : Reached ls := by
  intro l hl
  have hx := List.all_eq_true.mp h l hl
  cases hr : l.r with
  | ok g => exact ⟨g, rfl⟩
  | error e => rw [hr] at hx; cases hx

theorem test_hyps_integer_scalar : Scalars t0 [.reg (.s 23), .lit 5] ∧ isScaDst (.s 0) = true ∧ isScaDst .z = true ∧
    ({ cc := true, ty := .n } : IntMod).ty.packed = false ∧ Scalars t0 [.reg .vl, .reg .z] := by unfold Scalars; decide +kernel
theorem test_hyps_integer_vector : VecDst t0 (.v 31) ∧ Readable t0 [.reg (.v 31), .reg .lid] ∧ Vectors t0 := by
  unfold VecDst Readable Vectors; decide +kernel
theorem test_hyps_operand_traps :
    let stale : Team := { t0 with sh0 := { t0.sh0 with stale := true } }
    okSrc t0 (.reg (.v 95)) = false ∧ okDst t0 (.v 95) = false ∧ t0.allot ≤ 32 * t0.winBase + (95 : Fin 96).val ∧
      isVec t0 (.reg .lid) = true ∧ isVecDst (.s 0) = false ∧ (LaneOp.dp .dadd false).pair = true ∧ (31 : Fin 96).val % 2 = 1 ∧
      VecDst t0 (.v 30) ∧ Readable t0 [.reg (.v 30), .lit 1] ∧ okPairDst t0 (.v 30) = true ∧ okPairSrc t0 (.reg (.v 30)) = true ∧
      okPairSrc t0 (.lit 1) = true ∧ Shape.none.kind ≠ .vec ∧ stale.sh0.kind = .vec ∧ stale.sh0.stale = true := by
  unfold VecDst Readable; decide +kernel
theorem test_hyps_compare : Readable t0 [.reg (.s 0), .lit 1] ∧ isVec t0 (.reg (.s 0)) = false ∧ isVec t0 (.reg .lid) = true ∧
    Readable t0 [.reg .lid, .reg (.v 0)] ∧ Pairs t0 [.reg (.v 30), .reg .z] := by unfold Readable Pairs; decide +kernel
theorem test_hyps_pairs : okPairDst t0 (.v 30) = true ∧ VecDst t0 (.v 30) ∧ Pairs t0 [.reg (.s 0), .reg (.v 0)] ∧
    cvtSrc64 13 = true ∧ cvtDst64 15 = true := by unfold VecDst Pairs; decide +kernel
theorem test_hyps_cross_lane : t0.inWindow 31 = true ∧ Scalars t0 [.lit 1, .lit 31] ∧
    (srcScalar ((at0 t0 []).env (at0 t0 []).cur) t0 (.lit 31)).toNat < t0.tw := by unfold Scalars; decide +kernel
theorem test_hyps_emulated : t0.inWindow 31 = true ∧ Readable t0 [.reg (.v 0), .lit 1] := by unfold Readable; decide +kernel
theorem test_hyps_emulation_end :
    let t : Team := { t0 with st := .parked, wait := .emul (.idot4 .ss (.v 0) (.reg (.v 1)) (.reg .lid)) 1 }
    let s : State := (at0 t []).modCore 0 fun x => { x with count := 2 ^ 40 }
    alook 1 s.teams = some t ∧ t.st = .parked ∧ s.fwUp 7 = true ∧ s.mayIssue 1 = true ∧ s.inActive 1 = true ∧
      s.expired 1 t.since = true ∧ (at0 t []).expired 1 t.since = false := by
  refine ⟨rfl, rfl, ?_⟩; decide +kernel

/-- Header, then EXIT: a clause that meets R26; and a header whose clause holds one load, counted on flag 0. -/
theorem test_hyps_clause_starts :
    let h : Header := { wait := 1, setA := 15, setB := 15, len := 0, bt := 0, hint := 0, rsv := 0 }
    let s := at0 t0 [0xC003FC00, 0x6C000000]
    let f := clauseForm 1 [0x6C000000]
    Sys2Proof.Machine.Header.ok h = true ∧ s.codeWords (s.env s.cur) t0 (t0.pc.plus 4) 1 = .ok [0x6C000000] ∧ f.fits = true ∧
      f.head = false ∧ f.early = false ∧ f.long ≤ 2 ∧ (∀ k < 12, sget t0.flags k = 0) ∧ t0.errs = [] := by decide +kernel
theorem test_hyps_clause_waits :
    let h : Header := { wait := 1, setA := 0, setB := 15, len := 0, bt := 2, hint := 0, rsv := 0 }
    let t : Team := { t0 with flags := [(0, 7)] }
    let w := encode (.ld .b32 (.v 0) (.reg (.s 0)) (.reg .z))
    let s := at0 t (0 :: w)
    let f := clauseForm 1 w
    Sys2Proof.Machine.Header.ok h = true ∧ s.codeWords (s.env s.cur) t (t.pc.plus 4) 1 = .ok w ∧ f.long = 1 ∧ h.setA ≠ 15 ∧
      f.fits = true ∧ f.head = false ∧ f.early = false ∧ h.wait.getLsbD 0 = true ∧ sget t.flags 0 ≠ 0 := by decide +kernel

/-- A header stands one word after the instruction. -/
def branchWords : List W32 := [0x6C000000, 0xC003FC00, 0x6C000000]
theorem test_hyps_branch :
    let t : Team := { t0 with cc := [(3, 4)] }
    let s := at0 t branchWords
    let e := s.env s.cur
    t.taken .nv = 0 ∧ t.taken .eq = 8 ∧ t.live &&& ~~~t.taken .al = 0 ∧ t.live &&& ~~~t.taken .eq ≠ 0 ∧
      needHeader s e t (t.target e 1) = .ok () ∧ t.stack.length < 32 := by decide +kernel
theorem test_hyps_jump_register :
    let t : Team := { t0 with sregs := [(0, 0x10004)] }
    let s := at0 t branchWords
    let e := s.env s.cur
    let target := srcScalar e t (.reg (.s 0)) + BitVec.ofInt 64 (4 * (0 : BitVec 11).toInt)
    plainScalar (.reg (.s 0)) = true ∧ target.toNat % 4 = 0 ∧ needHeader s e t (.code target) = .ok () := by decide +kernel
theorem test_hyps_pop :
    let k (x : TokKind) : Token := { kind := x, pc := .code 0x10004, mask := 3 }
    let t (x : TokKind) : Team := { t0 with stack := [k x], exited := 1 }
    (∀ x ∈ [TokKind.ret, .path, .join], (k x).mask &&& ~~~(t x).exited ≠ 0 ∧
      needHeader (at0 (t x) branchWords) ((at0 (t x) branchWords).env (.team 1)) (t x) (k x).pc = .ok ()) := by decide +kernel
theorem test_hyps_loop :
    let t (c : W64) : Team := { t0 with sregs := [(0, c)] }
    let s (c : W64) := at0 (t c) [0, 0, 0xC003FC00, 0x6E000000]
    let e := (s 3).env (.team 1)
    plainScalar (.reg (.s 0)) = true ∧ (s 3).codeWords e (t 3) (t0.pc.plus (4 * 2)) 2 = .ok [0xC003FC00, 0x6E000000] ∧
      (s 0).codeWords e (t 0) (t0.pc.plus (4 * 2)) 2 = .ok [0xC003FC00, 0x6E000000] ∧
      bodyOk 2 0 [0xC003FC00, 0x6E000000] = true ∧ (srcScalar e (t 3) (.reg (.s 0))).toNat % 2 ^ 32 ≠ 0 ∧
      (srcScalar e (t 0) (.reg (.s 0))).toNat % 2 ^ 32 = 0 ∧ 32 * (0 : BitVec 11).toNat + min 96 t0.allot ≤ t0.allot := by
  decide +kernel

theorem test_hyps_control_traps :
    let deep : Team := { t0 with cc := [(3, 4)], stack := List.replicate 32 Token.empty }
    let s := at0 deep branchWords
    let e := s.env s.cur
    (needHeader s e t0 (t0.target e 2)).toBool = false ∧ 32 ≤ deep.stack.length ∧ needHeader s e deep (deep.target e 1) = .ok () ∧
      deep.taken .eq ≠ 0 ∧ deep.live &&& ~~~deep.taken .eq ≠ 0 ∧ (∀ k ∈ t0.stack.head?, k.kind ≠ .path ∧ k.kind ≠ .join ∧ k.kind ≠ .ret) ∧
      (∀ k ∈ [({ kind := .ret, pc := .code 0, mask := 1 } : Token)].head?, k.kind ≠ .path ∧ k.kind ≠ .join) ∧
      t0.allot < 32 * (1023 : BitVec 11).toNat + min 96 t0.allot := by decide +kernel
theorem test_hyps_exit :
    let last : Token := { kind := .join, pc := .code 0x10004, mask := lowMask 32 }
    let t : Team := { t0 with active := 1, stack := [last] }
    let s := at0 t branchWords
    let e := s.env s.cur
    let all : Team := { t0 with exited := t0.exited ||| t0.active }
    let two : State := { s with groups := [(1, { placeGroup with partner := some 2 })] }
    t0.errs = [] ∧ s.inCopy e = false ∧ two.inCopy (two.env two.cur) = true ∧ t0.ctl = false ∧ unwind all.exited t0.stack = none ∧
      unwind (t.exited ||| t.active) t.stack = some (last, []) ∧
      needHeader s e { t with exited := t.exited ||| t.active } last.pc = .ok () ∧ (ctl0 .handler).ctl = true ∧
      (atCtl (ctl0 .handler)).inCopy ((atCtl (ctl0 .handler)).env (atCtl (ctl0 .handler)).cur) = false := by decide +kernel
theorem test_hyps_shape :
    let s := at0 t0 []
    let e := s.env s.cur
    s.marked e.gid = false ∧ ({ s with groups := [(1, { placeGroup with mark := some (1, 0) })] } : State).marked 1 = true ∧
      (grant (grantAt e t0) .vec (reqDims .vec (srcScalarX e t0 false (.lit 200))) .fit).isSome = true ∧
      (grant (grantAt e t0) .tile (reqDims .tile (srcScalarX e t0 false (.lit 0x00400004))) .exact).isSome = true ∧
      (grant (grantAt e t0) .mat (reqDims .mat 0x0000000400020002) .fit).isSome = true := by decide +kernel
theorem test_hyps_shape_traps :
    let s := at0 t0 []
    let e := s.env s.cur
    grant (grantAt e t0) .vec (reqDims .vec (srcScalarX e t0 false (.lit 0xFFFF))) .exact = none ∧ s.marked e.gid = false ∧
      t0.ctl = false := by decide +kernel
theorem test_hyps_gang_curve :
    let s : State := { at0 t0 [] with groups := [(1, { placeGroup with teams := [1, 2] })] }
    gangOk (srcScalar (s.env s.cur) t0 (.lit 3)).toNat t0.tix (s.teamCount (s.env s.cur).gid) = true ∧
      gangOk (srcScalar (s.env s.cur) t0 (.lit 0)).toNat t0.tix (s.teamCount (s.env s.cur).gid) = true ∧
      (5 : BitVec 3).toNat < 6 ∧ (0x30 : BitVec 6).getLsbD (5 : BitVec 3).toNat = true := by decide +kernel
theorem test_hyps_system_registers :
    let t : Team := { t0 with level := .handler, sregs := [(0, 0x180), (1, 0x8000000000010004)] }
    let s := at0 t []
    let e := s.env s.cur
    Scalars t [.reg (.s 0)] ∧ (srcScalar e t (.reg (.s 0))).toNat < 2 ^ 14 ∧ 1 ≤ levelRank t.level ∧
      (s.sysRead e t (srcScalar e t (.reg (.s 0))).toNat).isSome = true ∧ (s.sysRead e t0 0x010).isSome = true ∧
      bits (srcScalar e t (.lit 31)).toNat 63 5 = 0 ∧ bits (srcScalar e t (.reg (.s 1))).toNat 62 56 = 0 ∧
      bits (srcScalar e t (.reg (.s 1))).toNat 1 0 = 0 ∧ eventCode false 8 = true ∧ eventCode true 19 = true ∧
      (srcScalar e t (.lit 3)).toNat < eventCount false ∧ (srcScalar e t (.lit 3)).toNat < eventCount true := by
  unfold Scalars; decide +kernel

/-- A team whose s0 holds a mapped address, s1 an address that is not aligned, and s2 one that is not mapped. -/
def tm : Team := { t0 with sregs := [(0, 0x20000), (1, 0x20001), (2, 0x40000000)] }
def sm : State := at0 tm []
theorem sm_agent : sm.agent sm.cur = some tm := rfl

theorem test_hyps_loads : okAddr tm (.reg (.s 0)) = true ∧ okSrc tm (.reg .lid) = true ∧ okDst tm (.v 31) = true ∧
    okPairDst tm (.v 30) = true ∧ Reached (loadLanes .n8 (.v 31) (.reg (.s 0)) (.reg .lid) sm tm) ∧
    loadLanes .n8 (.v 31) (.reg (.s 0)) (.reg .lid) sm tm ≠ [] ∧ Reached (loadLanes .b64 (.s 3) (.reg (.s 0)) (.lit 8) sm tm) := by
  refine ⟨?_, ?_, ?_, ?_, reached_of ?_, ?_, reached_of ?_⟩ <;> decide +kernel
theorem test_hyps_loads_no_lane :
    let t : Team := { tm with active := 0 }
    loadLanes .b32 (.v 0) (.reg (.s 0)) (.reg .z) (at0 t []) t = [] := by decide +kernel
theorem test_hyps_stores : okSrc tm (.reg (.v 31)) = true ∧ okPairSrc tm (.reg (.v 30)) = true ∧ tm.replay = none ∧
    Reached (storeLanes .n8 (.reg (.v 31)) (.reg (.s 0)) (.reg .lid) sm tm) ∧ sm.inCopy (sm.env sm.cur) = false := by
  refine ⟨?_, ?_, rfl, reached_of ?_, ?_⟩ <;> decide +kernel
theorem test_hyps_scalar_access : Reached (oneLane false (srcScalar (sm.env sm.cur) tm (.reg (.s 0)) + BitVec.ofInt 64 (8 * 1)) sm tm) ∧
    Reached (oneLane true (srcScalar (sm.env sm.cur) tm (.reg (.s 0)) + BitVec.ofInt 64 (8 * -1)) sm tm) ∧
    Reached (oneLane false ((sm.env sm.cur).frame + BitVec.ofNat 64 (8 * 2047)) sm tm) := by
  refine ⟨reached_of ?_, reached_of ?_, reached_of ?_⟩ <;> decide +kernel
theorem test_hyps_atomics : okAtomDst .cas true tm (.v 28) = true ∧ okAtomDst .add false tm .z = true ∧
    Reached (atomLanes false (.v 31) (.reg (.s 0)) sm tm) ∧ atomLanes false (.v 31) (.reg (.s 0)) sm tm ≠ [] := by
  refine ⟨?_, ?_, reached_of ?_, ?_⟩ <;> decide +kernel
theorem test_hyps_address_faults : firstErr (loadLanes .b32 (.s 3) (.reg (.s 1)) (.reg .z) sm tm) = some .align ∧
    firstErr (loadLanes .b32 (.s 3) (.reg (.s 2)) (.reg .z) sm tm) = some .page ∧
    firstErr (storeLanes .b32 (.lit 1) (.reg (.s 1)) (.reg .z) sm tm) = some .align ∧
    firstErr (atomLanes false (.v 0) (.reg (.s 1)) sm tm) = some .align ∧ (0x20001 : W64).toNat % 4 ≠ 0 := by decide +kernel

/-- A store whose lane 1 alone meets PAGE; and the replay of one whose lane 0 did. -/
theorem test_hyps_page_store :
    let t : Team := { tm with vregs := [(1025, 0x40000000)], active := 3 }
    let x : Src := .reg (.v 0)
    let b : Src := .reg (.v 1)
    let u : Team := { t with replay := some 1 }
    let again := lanesTgt (at0 u []) ((at0 u []).env (.team 1)) u { write := true, atomic := false, n := 4 }
      (u.liveLanes.filter fun l => (1 : LaneMask).getLsbD l) (laneAddr ((at0 u []).env (.team 1)) u (.reg (.s 0)) b)
    okAddr t (.reg (.s 0)) = true ∧ okSrc t x = true ∧ okSrc t b = true ∧ (isVec t x || isVec t (.reg (.s 0)) || isVec t b) = true ∧
      t.replay = none ∧ firstErr (storeLanes .b32 x (.reg (.s 0)) b (at0 t []) t) = some .page ∧
      ((storeLanes .b32 x (.reg (.s 0)) b (at0 t []) t).map fun l => l.meets .page) = [false, true] ∧
      firstErr (storeLanes .b32 (.lit 1) (.reg (.s 2)) (.reg .z) sm tm) = some .page ∧ isVec tm (.lit 1) = false ∧
      (again.all fun l => l.r.toBool) = true ∧ again ≠ [] := by decide +kernel

/-- A pending operation of the placed team with one lane. -/
def lane0 : LaneAcc :=
  { lane := 0, va := 0x20000, tgt := .dev 0x20000, n := 4, x := 7, y := 0, st := .sent, res := 0, via := none, put := false }
def op0 (k : PendKind) (l : LaneAcc) : PendOp :=
  { ag := .team 1, gid := 1, ctx := 1, core := 0, kind := k, acq := false, rel := false, lanes := [l], flag := none, dst := .scalar 0
    pc := 0, obs := 0, fences := [], after := [], killed := false, twin := none }
def atOp (o : PendOp) : State := { sm with pend := [(5, o)], nextId := 6 }

theorem test_hyps_accesses_complete :
    let done : LaneAcc := { lane0 with st := .done }
    let t : Team := { tm with st := .waiting, wait := .load 5 1 }
    (∀ o ∈ [op0 (.load .b32) done, op0 (.atomic .add false) done, { op0 (.load .b32) done with killed := true },
        { op0 (.atomic .add false) done with twin := some 2 }],
      alook 5 (atOp o).pend = some o ∧ o.isOpen = false ∧ o.ag.outside = false ∧ (o.error ≠ none → (atOp o).ramping ((atOp o).agentCore o.ag) = false)) ∧
      t.st = .waiting ∧ t.wait = .load 5 1 ∧ tm.wait ≠ .load 5 1 := by decide +kernel
theorem test_hyps_request :
    (∀ k ∈ [PendKind.load .b32, .store, .atomic .add false],
      let o := op0 k lane0
      let s := atOp o
      alook 5 s.pend = some o ∧ o.lanes.find? (fun m => m.lane == lane0.lane) = some lane0 ∧ lane0.st = .sent ∧
        s.canPerform 5 o lane0 = true ∧ s.drainingAt lane0.tgt = false ∧ (s.carry 5 lane0).isSome = true ∧ lane0.n ≤ 8 ∧
        (s.parkedAt (s.homeOf lane0.tgt)).length < Config.homeQueueLimit ∧ lane0.tgt.isTile = false ∧ s.portFailed lane0 = false ∧
        s.heldBy o.ag 5 = [] ∧ s.tgtPoisoned lane0.tgt lane0.n = false ∧ (∀ w ∈ s.past, w.time ≤ s.clock)) ∧ Outside (.dev 0x1FFFF) 0 lane0.tgt 4 ∧
      Outside (.dev 0x20004) 0 lane0.tgt 4 ∧ Outside (.host 0x20000) 0 lane0.tgt 4 := by unfold Outside; decide +kernel
/-- An atomic whose one lane lies in a tile; and an answer that can be given. -/
theorem test_hyps_tile_atomic :
    let l : LaneAcc := { lane0 with tgt := .tile 7 0 }
    let s : State := { sm with tiles := [(7, { gid := some 1, launch := 1, ctx := 1, region := 0, die := 0, level := 0, handle := 0, rows := 4
                                               rb := 64, bytes := [], full := 1, releasing := false, cellar := 0, rels := [] })] }
    (op0 (.atomic .add false) l).lanes = [l] ∧ alook 7 s.tiles ≠ none ∧ l.n ≤ 8 ∧ (s.respond (.team 1)).isSome = true ∧
      ((atOp (op0 .store lane0)).carry 5 lane0).any (fun x => (x.respond (.team 1)).isSome) = true ∧
      deadHas (atOp (op0 .store lane0)).dead (0x20000 / 4096) = false := by decide +kernel
theorem test_hyps_parked_nacked_held :
    let p := op0 .store { lane0 with st := .parked 1 }
    let n := op0 .store { lane0 with st := .nacked }
    let h := op0 .store { lane0 with st := .held, tgt := .peer 1 0 }
    let up : State := { atOp h with kports := [(0, { Port.init with st := .active })] }
    (atOp p).parkedAt ((atOp p).homeOf lane0.tgt) ≠ [] ∧
      (sget ((atOp n).core 0).backoff (2 * (atOp n).homeOf lane0.tgt + 1)).toNat ≤ ((atOp n).core 0).count ∧
      h.lanes.find? (fun m => m.lane == lane0.lane && m.st == .held) = some { lane0 with st := .held, tgt := .peer 1 0 } ∧
      up.activePort 1 = true ∧ (atOp h).activePort 1 = false ∧ (atOp h).anyPort 1 = false := by decide +kernel

/-- Tile 7, level 0, handle 0, 4 rows of 64 bytes; and a level 1 tile with handle 1. -/
def tile0 : Tile :=
  { gid := some 1, launch := 1, ctx := 1, region := 0, die := 0, level := 0, handle := 0, rows := 4, rb := 64, bytes := [], full := 1
    releasing := false, cellar := 0, rels := [] }
def tile1 : Tile := { tile0 with level := 1, handle := 1, full := 0 }
def sTiles : State := { sm with tiles := [(7, tile0), (8, tile1)], groups := [(1, { placeGroup with l0 := 256, l1 := 4096 })] }

theorem test_hyps_tile_allocation :
    let e := sm.env sm.cur
    let room : State := { sm with groups := [(1, { placeGroup with l0 := 4096 })] }
    let none : State := { sm with tiles := (List.range 192).map fun h => (h, { tile0 with handle := h }) }
    let t : Team := { tm with sh1 := { Shape.none with kind := .tile, d0 := 4, d1 := 64 } }
    (t.shape 1).kind = .tile ∧ sm.freeHandle e .l0 = some 0 ∧ none.freeHandle e .l0 = Option.none ∧
      room.tileFits e .l0 (newTile e .l0 0 4 64 false).occupied = true ∧ sm.tileFits e .l0 (newTile e .l0 0 4 64 false).occupied = false ∧
      tileAt sTiles tm (.lit 0) = some (7, tile0) ∧ tileAt sTiles tm (.lit 9) = Option.none := by decide +kernel
theorem test_hyps_tile_cellar :
    let x : Tile := { tile0 with cellar := 3 }
    let s : State := { sTiles with tiles := [(7, x)] }
    let off : State := { sTiles with groups := [(1, { placeGroup with place := .bank 0 1 })] }
    alook 7 s.tiles = some x ∧ s.tilePlace x = some (.bank 0 0) ∧ bitAt x.cellar 1 = true ∧ 0 = (s.core 0).act ∧
      s.levelHeld 0 x.level + 16 ≤ Config.l0Bytes ∧ off.tilePlace tile0 = some (.bank 0 1) ∧ tile0.cellar ≠ tile0.allGranules := by
  decide +kernel
theorem test_hyps_tile_access :
    let e := sTiles.env sTiles.cur
    let t : Team := { tm with active := 1 }
    InTile tile0 8 (tileLanes e tm (.lit 248) false) ∧ InTile tile0 4 (tileLanes e t (.reg .lid) true) ∧
      tileLanes e t (.reg .lid) true ≠ [] ∧ tileLanes e { tm with active := 0 } (.reg .lid) true = [] ∧
      tile0.granuleOk (TrdQ.need .take) 0 = true ∧ tile0.granuleOk (TrdQ.need .take) 15 = false ∧
      tile0.granuleOk (TwrQ.need .put) 15 = true ∧ tile0.granuleOk (TwrQ.need .put) 0 = false := by unfold InTile; decide +kernel
theorem test_hyps_tile_waits :
    let i (at_ : W32) : Instr := .twr false .put (.lit 5) (.lit 0) (.lit at_)
    let t (at_ : W32) : Team := { tm with st := .waiting, wait := .granule (i at_) 7 }
    let s (at_ : W32) : State := ({ sTiles with teams := [(1, t at_)] } : State).modCore 0 fun x => { x with count := 2 ^ 40 }
    let o := op0 (.trd false) { lane0 with st := .done, tgt := .tile 7 0 }
    let need := granuleNeeds ((s 0).env (.team 1)) (t 0) (i 0)
    Waits (s 240) 1 (t 240) (.granule (i 240) 7) ∧ (granuleForm (i 240)).isSome = true ∧ (s 240).mayIssue 1 = true ∧
      ((granuleForm (i 240)).any fun f => !((s 240).reissue (.team 1) f).granuleWaiter 1) = true ∧ alook 7 (s 0).tiles = some tile0 ∧
      (s 0).expired 1 (t 0).since = true ∧ (∃ l ∈ need.1, (s 0).granuleReady 7 tile0 need.2.1 (l.2 / 16) = false) ∧ alook 5 (atOp o).pend = some o ∧ (atOp o).ramping ((atOp o).agentCore o.ag) = false := by
  unfold Waits; decide +kernel

/-- Words written to device memory. -/
def putWords (m : List Host.Cell) (a : Nat) (ws : List W64) : List Host.Cell := putBytes m a (ws.flatMap fun w => leBytes w.toNat 8)

/-- A barrier of the placed group, id 3, that expects one arrival. -/
def bar0 : Barrier := Barrier.init 1 0 0
def sBar : State := { sm with groups := [(1, { placeGroup with nb := 4, bars := [(3, bar0)] })] }

/-- A copy of the placed team, of one element of one byte from 0x20000 to 0x20400. -/
def copyRec : List W64 := [0x20000, 0x20400, 0, 0, 0, 0, 0x0001000100010001, 0]
def copy0 (st : CopySt) (pat : List W64) : CopyOp :=
  { core := 0, q := 0, ag := .team 1, gid := 1, ctx := 1, xf := false, addr := 0x20000, launch := 1, bar := .group 1 3, flag := 0, st := st
    pat := pat, src := none, dst := none, idx := none, hdr := [], err := 0, landed := [], after := [], pc := 0 }
def sCopy (c : CopyOp) : State := { sBar with copies := [(5, c)], nextId := 6 }

theorem test_hyps_copy_issue :
    let e := sBar.env sBar.cur
    let full : State := { sBar with copies := (List.range 256).map fun k => (k, copy0 .posted []) }
    barOpen sBar e tm (.lit 3) = .ok (.group 1 3) ∧ Scalars tm [.reg (.s 0), .lit 3] ∧ sBar.inFlight e.core < Config.copyLimit ∧
      Config.copyLimit ≤ full.inFlight e.core ∧
      ((lanesTgt sBar e tm { write := false, atomic := false, n := 64 } [0] fun _ => 0x20000).all fun l => l.r.toBool) = true := by
  unfold Scalars; decide +kernel
theorem test_hyps_copy_steps :
    let p := sCopy (copy0 .posted [])
    let b := sCopy (copy0 .begun copyRec)
    let u := Pattern.parse copyRec
    p.engWaits 5 = false ∧ p.engTarget 1 .program false 0x20000 = .ok (.dev 0x20000) ∧ p.tgtPoisoned (.dev 0x20000) 64 = false ∧
      u.ok false = true ∧ u.units = 1 ∧ (Pattern.parse [0, 0, 0, 0, 0, 0, 0, 1]).ok false = false ∧
      (Pattern.parse [0, 0, 0, 0, 0, 0, 0, 0]).units = 0 ∧ b.engWaits 5 = false ∧
      (b.copyUnit (copy0 .begun copyRec) u 0).toBool = true ∧
      (b.copyUnit (copy0 .begun (0x100000000000000 :: copyRec.drop 1)) (Pattern.parse (0x100000000000000 :: copyRec.drop 1)) 0).toBool =
        false := by decide +kernel
/-- A dequantise copy whose source header is valid, and one whose header is not. -/
def deqRec : List W64 := [0x20000, 0x20400, 0, 0, 0, 0, 0x0001000100010001, 0x202000]
def copyDeq : CopyOp := { copy0 .ready deqRec with xf := true }
theorem test_hyps_copy_header :
    let s : State := { sCopy copyDeq with mem := putWords sBar.mem 0x20000 [1 + 5 * 2 ^ 52 + 2 ^ 56] }
    (Pattern.parse deqRec).ok true = true ∧ (Pattern.parse deqRec).xf = 2 ∧ (s.copyHeader copyDeq (Pattern.parse deqRec)).toBool = true ∧
      (match (sCopy copyDeq).copyHeader copyDeq (Pattern.parse deqRec) with
        | .error (.code n) => n
        | _ => 0) = 0x15 ∧ (copy0 .ready copyRec).after = [] ∧ (Pattern.parse copyRec).xf ≠ 2 := by decide +kernel
/-- An open acquire of a team, and an open store, which only a release waits for. -/
theorem test_hyps_open :
    let s := atOp (op0 .store lane0)
    let m : Sys2Proof.Machine.Msg := { op := .created, snd := 1, rcv := 0, tag := 0, body := [] }
    let u : State := { sm with fw := { sm.fw with unsent := [(13, m)] } }
    s.stillOpen (.team 1) { tm with hb := [5] } false = [5] ∧ s.stillOpen (.team 1) tm false = [] ∧ s.stillOpen (.team 1) tm true = [5] ∧
      u.fw.unsent.find? (fun e => e.1 == 13) = some (13, m) ∧ (agetD [] 13 u.fw.mbox).length < Config.mailboxLimit := by decide +kernel
/-- A mailbox that refused a message and is still full, its sender's back-off over. -/
theorem test_hyps_message_again :
    let m : Sys2Proof.Machine.Msg := { op := .created, snd := 1, rcv := 0, tag := 0, body := [] }
    let u : State := { sm with fw := { sm.fw with unsent := [(13, m)], mbox := [(13, List.replicate 8 m)] } }
    Config.mailboxLimit ≤ (agetD [] 13 u.fw.mbox).length ∧ (agetD (64, 0) 13 u.fw.backoff).2 ≤ u.fwCycle ∧
      u.fw.unsent.find? (fun e => e.1 == 13) = some (13, m) := by
  refine ⟨?_, Nat.zero_le _, ?_⟩ <;> decide +kernel
theorem test_hyps_copy_stall :
    let t : Team := { tm with st := .waiting, wait := .copyStall (.copy false 0 (.reg (.s 0)) (.lit 3)) }
    let s : State := { sBar with teams := [(1, t)] }
    Waits s 1 t (.copyStall (.copy false 0 (.reg (.s 0)) (.lit 3))) ∧ s.mayIssue 1 = true ∧
      s.inFlight (s.agentCore (.team 1)) < Config.copyLimit := by unfold Waits; decide +kernel

theorem test_hyps_barriers :
    let e := sBar.env sBar.cur
    barId sBar e tm (.lit 3) = .ok 3 ∧ barId sBar e tm (.lit 1024) = .ok 1024 ∧ e.ctl = false ∧ 3 < sBar.nbOf e.gid ∧
      sBar.barRef e 3 = some (.group 1 3) ∧ sBar.barAt (.group 1 3) = some bar0 ∧ sBar.barRef e 2 = none ∧ sBar.barRef e 1024 = none ∧
      sBar.entriesHeld e.core < Config.barEntries ∧ sBar.barsFit e.ctx e.region 1 = true ∧
      Config.barEntries ≤ ({ sBar with groups := [(1, { placeGroup with nb := Config.barEntries })] } : State).entriesHeld 0 ∧
      barOpen sBar e tm (.lit 3) = .ok (.group 1 3) ∧ tm.arrived = none ∧ sBar.inCopy e = false := by decide +kernel
theorem test_hyps_barrier_waits :
    let t : Team := { tm with st := .waiting, wait := .barrier (.group 1 3) 0 2 (.s 0) none }
    let b : Barrier := { bar0 with wq := [1] }
    let s (x : Barrier) : State := ({ sBar with
      teams := [(1, t)], groups := [(1, { placeGroup with nb := 4, bars := [(3, x)] })] } : State).modCore 0 fun x => { x with count := 2 ^ 40 }
    Waits (s b) 1 t (.barrier (.group 1 3) 0 2 (.s 0) none) ∧ (s b).barAt (.group 1 3) = some b ∧ b.status 0 = none ∧
      b.wq.find? (fun k => ((s b).phaseWaiters (.group 1 3) 0).contains k) = some 1 ∧ (s b).expired 1 t.since = true ∧
      (b.arrive 1 []).status 0 = some 0 ∧ (s b).inActive 1 = true ∧ ((s b).core 0).swap = none ∧
      Waits { s b with teams := [(1, { t with wait := .barrier (.group 1 3) 0 2 (.s 0) (some 0) })] } 1
        { t with wait := .barrier (.group 1 3) 0 2 (.s 0) (some 0) } (.barrier (.group 1 3) 0 2 (.s 0) (some 0)) ∧ (s b).mayIssue 1 = true := by unfold Waits; decide +kernel
theorem test_hyps_barrier_scope :
    let e := sBar.env sBar.cur
    Scalars tm [.lit 2047, .lit 1] ∧ isScaDst (.s 0) = true ∧ e.ctl = false ∧ sBar.coresident e.launch = false ∧
      1536 ≤ (srcScalar e tm (.lit 2047)).toNat ∧ (srcScalar e tm (.lit 2047)).toNat < 2048 := by unfold Scalars; decide +kernel
theorem test_hyps_barrier_phase : Met { bar0 with cntA := 1 } ∧ ¬Met bar0 ∧ bar0.cntA ≠ bar0.expA := by
  unfold Met; decide +kernel

/-- The team of the worked MMA: tiles of level 0 for A and B, one of level 1 to accumulate, and the matrix shape 1 × 1 × 1. -/
def tMma : Team :=
  { t0 with
    sregs := [(0, 0), (1, 1), (2, 2)], vregs := [(0, 0x22)], active := 1
    sh2 := { Shape.none with kind := .mat, cp := 1, gsz := 1, d0 := 1, d1 := 1, d2 := 1 } }
def sMma (t : Team) : State := { sTiles with
  teams := [(1, t)]
  tiles := [(7, { tile0 with full := 0xFFFF }), (8, { tile0 with handle := 2, full := 0xFFFF }), (9, tile1)] }

theorem test_hyps_mma :
    (match mmaFields tMma false 2 97 (.reg (.s 0)) (.reg (.s 2)) .ovw 0 0 with
      | .ok op =>
        let m : MmaTeam := { tid := 1, t := tMma, op := op }
        (match (sMma tMma).refWord [m] with
          | some w => ((sMma tMma).mmaChecks [m] m w).toBool
          | none => false)
      | .error _ => false) = true ∧ MatShape tMma (tMma.shape 2) ∧ ({ tMma with active := 0 } : Team).liveLanes = [] := by
  unfold MatShape; decide +kernel
theorem test_hyps_mma_gang :
    let t : Team := { tMma with gang := 3, sh2 := { tMma.sh2 with gsz := 2, d0 := 2 } }
    (mmaFields t false 2 97 (.reg (.s 0)) (.reg (.s 2)) .ovw 0 0).toBool = true ∧ MatShape t (t.shape 2) ∧ t.gang ≠ 0 ∧
      (sMma t).gangDead 1 t.gang = false ∧ (sMma t).latched 1 t.gang = [] := by unfold MatShape; decide +kernel
theorem test_hyps_matrix_traps :
    let a : Src := .reg (.s 0)
    let b : Src := .reg (.s 2)
    let stale : Team := { tMma with sh2 := { tMma.sh2 with stale := true } }
    let gang : Team := { tMma with gang := 3, sh2 := { tMma.sh2 with gsz := 2, d0 := 2 } }
    let waits : Team := { gang with st := .waiting, wait := .rendezvous (.mma false 2 97 a b .acc 0 0) }
    let two : State := { sMma gang with teams := [(1, gang), (2, { waits with tix := 1, slot := 1 })] }
    let split : Team := { tMma with vregs := [(0, 0x22), (1, 0x33)], active := 3 }
    (mmaFields stale false 2 97 a b .ovw 0 0).toBool = true ∧ (stale.shape 2).kind = .mat ∧ (stale.shape 2).stale = true ∧
      (tMma.shape 1).kind ≠ .mat ∧ (gang.shape 2).stale = false ∧ ({ gang with gang := 0 } : Team).gangSize ≠ (gang.shape 2).gsz ∧
      (mmaFields gang false 2 97 a b .ovw 0 0).toBool = true ∧ MatShape gang (gang.shape 2) ∧
      two.latched 1 3 = [(2, { waits with tix := 1, slot := 1 })] ∧ (mmaTeam (2, { waits with tix := 1, slot := 1 })).isSome = true ∧
      (match mmaFields gang false 2 97 a b .ovw 0 0, mmaTeam (2, { waits with tix := 1, slot := 1 }) with
        | .ok op, some x => !two.sameArrival (.mma false 2 97 a b .ovw 0 0) { tid := 1, t := gang, op := op } x (.mma false 2 97 a b .acc 0 0)
        | _, _ => false) = true ∧
      split.liveLanes = [0, 1] ∧ (match mmaFields split false 2 97 a b .ovw 0 0 with
        | .ok op => (sMma split).fmtWord { tid := 1, t := split, op := op } 1 != (sMma split).fmtWord { tid := 1, t := split, op := op } 0
        | .error _ => false) = true ∧ alook 1 (sMma split).teams = some split ∧ (sMma split).cur = .team 1 := by
  unfold MatShape; decide +kernel
theorem test_hyps_drain :
    let t : Team := { tMma with sregs := [(0, 0x20000), (1, 1), (2, 4)] }
    let s := sMma t
    let e := s.env s.cur
    Scalars t [.reg (.s 0), .reg (.s 1), .reg (.s 2)] ∧ segmentOf s e (srcScalar e t (.reg (.s 1))).toNat 1 1 = .ok (9, tile1) ∧
      drainDest s e t 0x20000 (drainOffsets 1 1 4) = .ok [.dev 0x20000] ∧ MatShape t (t.shape 2) ∧ bits 4 63 33 = 0 := by
  unfold Scalars MatShape; decide +kernel

/-- Operations in the matrix queue. -/
def mq0 (k : MqKind) (begun : Bool) : MqOp :=
  { ownMq (sMma tMma) ((sMma tMma).env (.team 1)) tMma k (tMma.shape 2) 9 none [.dev 0x20000] with begun := begun }
def sMq (m : MqOp) : State := ({ sMma tMma with mqs := [(5, m)], nextId := 6 } : State).modCore 0 fun x => { x with mat := .active }

theorem test_hyps_matrix_queue :
    (∀ k ∈ [MqKind.mma .ovw, .mzero, .mdrain false true],
      (sMq (mq0 k false)).mqHead 0 = some (5, mq0 k false) ∧ ((sMq (mq0 k false)).core 0).mat = .active ∧ (mq0 k false).begun = false ∧
        (sMq (mq0 k false)).mqHeld (mq0 k false) = false ∧ (mq0 k false).toTile = false ∧ (mq0 k true).begun = true ∧
        alook 5 (sMq (mq0 k true)).mqs = some (mq0 k true) ∧ alook 5 (sMq (mq0 k true)).pend = none) ∧
      alook 5 ({ sMq (mq0 (.mdrain false true) true) with pend := [(5, op0 .drain { lane0 with st := .done })] } : State).pend =
        some (op0 .drain { lane0 with st := .done }) := by decide +kernel
theorem test_hyps_rendezvous_timeout :
    let i : Instr := .mma false 2 97 (.reg (.s 0)) (.reg (.s 2)) .ovw 0 0
    let t : Team := { tMma with gang := 3, st := .waiting, wait := .rendezvous i }
    let s : State := (sMma t).modCore 0 fun x => { x with count := 2 ^ 40 }
    Waits s 1 t (.rendezvous i) ∧ (alook t.gid s.groups).isSome = true ∧ t.since = openedAt (s.latched t.gid t.gang) ∧
      s.expired 1 t.since = true := by unfold Waits; decide +kernel

/-- The placed state with a valid region 0 whose block lies at 0x30000 (handler at 0x10000, movable), a code object of two words, and a
task record of one instance of one team at 0x20000. -/
def task0 : List W64 := [0x10000, 0, 0, 0x0000000100000000, 0x0000000000000800, 0, 0x1480000000000000, 0]
def obj0 : ObjRec :=
  { ctx := 1, code := 0x10000, size := 8, digest := 0, svnIdx := 0, svn := 0, down := false, signed := false, revoked := false, smask := 0
    cmap := 0 }
def sReg : State := { sm with
  ctxs := [(1, { pasid := 0, root := placeRoot, closing := false, rootRegion := 0, regions := [(0, 0x30000)], brk := [], vector := 4 })]
  objs := [(9, obj0)], nextId := 20
  mem := putWords (putWords (State.reset.placeWords [0xC003FC00, 0x6C000000]).mem 0x30000
    [0, 0x00000FFF00010A04, 0x0060040000000100, 0x0010000000100000, 0x10000, 0, 0x1000000, 0x10000000]) 0x20000 task0 }

theorem test_hyps_enqueue :
    readRecord sReg (sReg.env sReg.cur) tm (srcScalar (sReg.env sReg.cur) tm (.reg (.s 0))) = .ok task0 ∧
      sReg.postStatus 1 (some 0) 0 true (Task.parse task0) = 0 ∧ sReg.inCopy (sReg.env sReg.cur) = false ∧ tm.errs = [] ∧ tm.ctl = false := by
  decide +kernel
theorem test_hyps_hung :
    let s : State := { sReg with fw := { sReg.fw with hung := [0, 1, 2, 4], now := 10000 } }
    (∀ k ∈ [0, 1, 2, 4], s.fwUp k = false) ∧ (∀ mb ∈ [4, 8, 9, 10, 11, 15], (agetD [] mb s.fw.inbox).length < Config.mailboxLimit) ∧
      agetD 0 3 s.fw.beats + 10000 ≤ s.fw.now ∧ ({ sReg with fw := { sReg.fw with hung := [4] } } : State).fwUp 0 = true := by decide +kernel
theorem test_hyps_deque :
    let full : State := sm.modCore 0 fun y => y.modActive fun b => { b with deque := (List.replicate 256 (1, [])) }
    let one : State := sm.modCore 0 fun y => y.modActive fun b => { b with deque := [(5, [])] }
    sm.redundant (sm.env sm.cur) = false ∧ ((sm.core 0).active.deque).length < Config.dequeLimit ∧ (sm.core 0).active.deque = [] ∧
      Config.dequeLimit ≤ ((full.core 0).active.deque).length ∧ (one.core 0).active.deque = [] ++ [(5, [])] ∧
      (one.core 0).active.ctx = some (one.env one.cur).ctx ∧ (srcScalar (sm.env sm.cur) tm (.lit 383)).toNat < Config.nCores ∧
      (sm.core 383).active.ctx ≠ some 1 := by decide +kernel

/-- A Picker command whose descriptor is all zeros, and so is refused with a code of 2 in its word 4. -/
def cmd0 (k : CmdKind) (desc : W64) : EngCmd :=
  { core := 0, level := .program, die := 0, gid := 1, ctx := 1, region := 0, kind := k, desc := desc, bar := none, after := []
    src := .open, fail := none }
def sCmd (c : EngCmd) : State := { sReg with objs := [], cmds := [(5, c)] }
/-- A group of a REDUNDANT pair. -/
theorem test_hyps_redundant_queue :
    let two : State := { sReg with groups := [(1, { placeGroup with partner := some 2 })] }
    let bad : List W64 := [0x10002, 0, 0, 0, 0, 0, 0, 0]
    two.redundant (two.env two.cur) = true ∧ two.inCopy (two.env two.cur) = true ∧ srcScalar (two.env two.cur) tm (.lit 1) ≠ 0 ∧
      two.postStatus 1 (some 0) 0 true (Task.parse task0) = 0 ∧ sReg.postStatus 1 (some 0) 0 true (Task.parse bad) ≠ 0 ∧
      sReg.stillOpen (.team 1) tm false = [] := by decide +kernel
theorem test_hyps_commands :
    let e := sReg.env sReg.cur
    barOperand sReg e tm none = .ok none ∧ barOperand sBar (sBar.env sBar.cur) tm (some (.lit 3)) = .ok (some (.group 1 3)) ∧
      checkDesc sReg e tm 0x20000 64 = .ok () ∧ sReg.redundant e = false ∧
      (∀ k ∈ [CmdKind.set 0, .emit],
        afind (fun _ c => c.die == 0 && c.kind != .scan) (sCmd (cmd0 k 0x40000)).cmds = some (5, cmd0 k 0x40000) ∧
          (sCmd (cmd0 k 0x40000)).cmdReady 5 (cmd0 k 0x40000) = true ∧ ((sCmd (cmd0 k 0x40000)).pickRun 5 (cmd0 k 0x40000)).toBool = true) ∧
      ((sCmd (cmd0 .emit 0x100000000000000)).pickRun 5 (cmd0 .emit 0x100000000000000)).toBool = false ∧
      (sCmd (cmd0 .scan 0x40000)).cmdReady 5 (cmd0 .scan 0x40000) = true ∧
      (match (sCmd (cmd0 .scan 0x40000)).scanRun 5 (cmd0 .scan 0x40000) [] with
        | .ok (some _) => true
        | _ => false) = true ∧
      ((sCmd (cmd0 .scan 0x100000000000000)).scanRun 5 (cmd0 .scan 0x100000000000000) []).toBool = false := by decide +kernel
/-- A command whose page fault was refused, with a SCAN whose source is still to be read. -/
theorem test_hyps_command_fails : ∀ k ∈ [CmdKind.set 0, .scan],
    let c : EngCmd := { cmd0 k 0x40000 with fail := some 3 }
    alook 5 (sCmd c).cmds = some c ∧ (sCmd c).cmdReady 5 c = true ∧ c.fail = some 3 ∧ (cmd0 k 0x40000).fail = none ∧
      (∀ x ∈ (sCmd c).cmds, ¬x.1 < 5) := by decide +kernel
theorem test_hyps_joins :
    let j (a : W64) : JoinUpd := { ctx := 1, region := 0, die := 0, addr := a, after := [], deaf := false }
    sReg.engWaits 5 = false ∧ (({ sReg with objs := [] } : State).joinRun 5 (j 0x40000)).toBool = true ∧ (sReg.joinRun 5 (j 0x100000000000000)).toBool = false ∧
      sReg.fwUp 1 = true ∧ (7 : Nat) < Config.nDies ∧ sReg.engTarget 1 .program false (BitVec.ofNat 64 0x20000) = .ok (.dev 0x20000) ∧
      sReg.tgtPoisoned (.dev 0x20000) 64 = false := by decide +kernel

/-- The placed team stopped by a TRAP, and the control thread that handles it. -/
def rec0 : TrapRec :=
  { cause := .trap, after := true, skip := false, store := false, pc := .code 0x10000, addr := 0, info := 5, count := 0, oppc := 0, diag := []
    pend := none, ovf := false, late := false, atFw := false }
def tStop : Team := { tm with st := .stopped, trap := some rec0, trapTok := { kind := .trap, pc := .code 0x10000, mask := lowMask 32 } }
def bank0 : Bank := { Bank.init .active with ctx := some 1, trapQ := [1] }
def sStop : State := { sReg with teams := [(1, tStop)], cores := [(0, { CoreSt.init with bank0 := bank0 })] }
def sHandler : State := { sStop with
  cur := .ctl 0 1, ctls := [(ctlKey 0 1, { ctl0 .handler with sregs := [(0, 0x28000), (1, 0x40000)] })]
  cores := [(0, { CoreSt.init with
    count := 2 ^ 40, bank0 := { bank0 with trapQ := [], handling := some { tid := 1, gid := 1, frame := 0, trec := [], diag := [], since := 0, resumed := false } } })] }

/-- A record posted from memory finds its ring's page where no port or parked request holds it. -/
theorem test_hyps_submission :
    let ws := words64 (getBytes (sReg.tgtByte (.dev 0x20000)) 0 64)
    (sReg.postRecord 1 none 0 false ws []).1 = 0 ∧ sReg.ringHeld 1 (Task.parse ws).region 0 = false ∧
      ({ sReg with fw := { sReg.fw with hung := [1] } } : State).fwUp 1 = false ∧
      (sReg.hold 8 (.hostSubmit 0 1 0x20000 0)).isSome = true := by decide +kernel
theorem test_hyps_debug_window :
    let e := sHandler.env sHandler.cur
    (sHandler.agent sHandler.cur).any (fun t => t.ctl && t.level != .program) = true ∧ dbgDst true (.s 2) = true ∧
      (sHandler.windowAt e.core e.ctx 0).isSome = true ∧ sHandler.windowAt e.core e.ctx 0x100000000 = none ∧
      ((sHandler.windowAt e.core e.ctx 0).any fun x => (sHandler.windowWrite e.ctx e.core x.2.1 x.2.2 7).isSome) = true := by
  decide +kernel
theorem test_hyps_handlers : (sStop.core 0).active.ctx = some 1 ∧ (sStop.core 0).active.trapQ = [1] ∧ alook 1 sStop.teams = some tStop ∧
    (alook tStop.gid sStop.groups).isSome = true ∧ tStop.trap = some rec0 ∧ (sStop.core 0).active.st = .active ∧
    (sStop.core 0).active.handling = none ∧ Free sStop 0 ∧ sStop.handlerOf 1 0 = some 0x10000 ∧ sStop.handlerOf 1 1 = none ∧
    ((sHandler.core 0).active.handling).any (fun h => Nat.ble (h.since + 16 * 1024) (sHandler.core 0).count) = true ∧ (sHandler.core 0).swap = none := by
  unfold Free Settled; decide +kernel
theorem test_hyps_trap_entry : (sm.cur = .team 1 ∧ alook 1 sm.teams = some tm) ∧
    alook tm.gid sm.groups = some placeGroup ∧ placeGroup.place = .bank 0 0 ∧ sHandler.cur = .ctl 0 1 ∧
    (sHandler.handlingOf 0 1).isSome = true ∧ sHandler.fwUp 3 = true ∧ (alook (ctlKey 0 1) sHandler.ctls).isSome = true := by
  refine ⟨⟨rfl, rfl⟩, rfl, rfl, rfl, rfl, rfl, rfl⟩
theorem test_hyps_trap_return :
    let p : Team := { tStop with pending := some { cause := .uncorrectable, flag := none, mask := 1, addr := 0, oppc := 0 } }
    alook 1 sStop.teams = some tStop ∧ tStop.pending = none ∧ tStop.fromDrain = false ∧ tStop.trap = some rec0 ∧ rec0.after = true ∧
      tStop.loop = none ∧ p.pending.isSome = true := by decide +kernel

theorem test_hyps_faults :
    let f (x : FaultSt) : FaultRec := { ag := .team 1, eng := none, region := 0, ctx := 1, va := 0x20000, st := x, since := 0, core := 0 }
    let s (x : FaultSt) : State := ({ sReg with faults := [(5, f x)] } : State).modCore 0 fun x => { x with count := 2 ^ 40 }
    (∀ x ∈ [FaultSt.sysWait, .atsWait, .priWait], (s x).openFault 5 = some (f x) ∧ (f x).since + 16 * 1024 ≤ ((s x).core (f x).core).count ∧
      (s x).fwUp 2 = true ∧ (s x).nowValid (f x) = true) ∧ sReg.pend = [] ∧ sReg.mqs = [] := by decide +kernel

/-- A fault that an ATS answer found, whose leaf is gone when the firmware looks. -/
theorem test_hyps_fault_again :
    let f : FaultRec := { ag := .team 1, eng := none, region := 0, ctx := 1, va := 0x40000000, st := .walking, since := 0, core := 0 }
    let s : State := { sReg with faults := [(5, f)] }
    s.openFault 5 = some f ∧ f.st = .walking ∧ s.nowValid f = false ∧ s.hostPage f.ctx (f.va.toNat % 2 ^ 56) = false ∧ s.fwUp 2 = true := by
  decide +kernel
theorem test_hyps_curve :
    let t : Team := { tm with st := .waiting, wait := .curve (.s 0) 3 0x38, since := 0 }
    let s : State := ({ sReg with teams := [(1, t)] } : State).modCore 0 fun x => { x with count := 2 ^ 40 }
    (firstWaiter (s.curveTeams 0)).isSome = true ∧ Settled s 0 ∧
      (∀ p ∈ s.activeTeams 0, p.2.st = .draining ∨ (p.2.atCurve = true ∧ p.2.since < s.expiry 1 t.since)) ∧
      ¬(∀ p ∈ ({ s with teams := [(1, t), (2, tm)] } : State).activeTeams 0, p.2.st = .draining ∨ p.2.atCurve = true) ∧
      s.curveChoice 0 ≠ (s.core 0).point ∧ s.expired 1 t.since = true ∧
      ({ sReg with teams := [(1, { t with wait := .curve (.s 0) 1 0x02 })] } : State).curveChoice 0 = 1 := by unfold Settled; decide +kernel
theorem test_hyps_ramp :
    let m (r : Bool) : Move := { dest := 3, notice := 0, ramping := r }
    let s (r : Bool) : State := sReg.modCore 0 fun x => { x with count := 2 ^ 40, move := some (m r) }
    (((s false).core 0).move = some (m false) ∧ (s false).mqBusy 0 = false ∧
      (m false).notice + 5 * Config.mhz ((s false).core 0).point ≤ ((s false).core 0).count) ∧ ((s true).core 0).move = some (m true) ∧
      sReg.fwUp 1 = true ∧ (sReg.core 0).active.ctx ≠ none ∧ sReg.hinted 0 = false ∧ sReg.mqWaiting 0 = false ∧
      agetD 0 0 { sReg.fw with now := 1000 }.corrAt + 1000 ≤ { sReg.fw with now := 1000 }.now ∧
      sReg.inActive 1 = true := by decide +kernel
theorem test_hyps_matrix_engine : ∀ x ∈ [MatSt.rampup, .hold, .rampdn],
    let s := sReg.modCore 0 fun y => { y with count := 128, mat := x }
    (s.core 0).mat = x ∧ (s.core 0).matAt + 128 ≤ (s.core 0).count := by decide +kernel
theorem test_hyps_mhint :
    let t : Team := { tm with hint := 1 }
    let s : State := ({ sReg with teams := [(1, t)] } : State).modCore 0 fun y => { y with count := 4096 }
    0 < t.hint ∧ s.inActive 1 = true ∧ t.hintAt + 4096 ≤ s.countOf (.team 1) := by decide +kernel

theorem test_hyps_fences :
    let t : Team := { tm with level := .system }
    let s : State := { sReg with teams := [(1, t)], pend := [(5, op0 .store lane0)], copies := [(6, copy0 .posted [])], nextId := 7 }
    let e := sReg.env sReg.cur
    sReg.fenceOps (.team 1) tm .rel = [] ∧ s.fenceOps (.team 1) t .rel ≠ [] ∧ sReg.posted 0 1 = [] ∧ s.posted 0 1 ≠ [] ∧
      (tlbRange e t .ctx (.lit 1) (.reg .z) (.reg .z)).isSome = true ∧ levelRank t.level = 2 := by decide +kernel
theorem test_hyps_fence_ends : ∀ w ∈ [Wait.fence .rel 4 [5], .order [5], .qfence [5], .tlbinv (.tlbinv .all (.reg .z) (.reg .z) (.reg .z)) [5] true],
    let t : Team := { tm with st := .waiting, wait := w }
    let s : State := { sReg with teams := [(1, t)] }
    s.agent (s.waiterOf 1) = some t ∧ s.opOpen 5 = false ∧ s.engineOpen 5 = false ∧ s.stillToDo 5 = false := by decide +kernel

/-- A second bank that is READY, with a group of context 2 in it. -/
def sTwo : State := { sReg with
  cores := [(0, { CoreSt.init with
    count := 2 ^ 40, bank0 := { Bank.init .active with ctx := some 1 }, bank1 := { Bank.init .ready with ctx := some 2 } })]
  groups := [(1, placeGroup), (2, { placeGroup with ctx := 2, teams := [], place := .bank 0 1 })] }
/-- A context of a cellar image. -/
def image0 : Image :=
  { core := 0, ctx := 2, cellar := true, bank := { Bank.init .ready with ctx := some 2 }, ctl := none, loc := none, raw := [], teams := []
    groups := [], tiles := [], launches := [], decants := [], mqs := [] }
theorem test_hyps_preemption :
    let r : State := sTwo.modCore 0 fun x => { x with swap := some 0 }
    let l : State := { sReg with images := [(5, image0)] }
    let q : State := sReg.modCore 0 fun x => { x with count := 2 ^ 40 }
    Settled sTwo 0 ∧ ((sTwo.modCore 0 fun x => { x with swapDue := some 1 }).core 0).swapDue = some 1 ∧ (sTwo.core 0).act ≤ 1 ∧ ((sTwo.core 0).bank 1).st = .ready ∧ ((sTwo.core 0).bank 1).ctx = some 2 ∧
      (sTwo.core 0).swap = none ∧ sTwo.bankBusy 0 1 2 = false ∧ (r.core 0).swap = some 0 ∧ (r.core 0).move = none ∧
      0 + 96 ≤ (r.core 0).count ∧ (l.loadBank 0 5).isSome = true ∧ ((q.core 0).bank 1).st = .empty ∧
      ((q.core 0).bank 1).retained = false ∧ ((q.core 0).bank 1).since + 1000 * Config.mhz (q.core 0).point ≤ (q.core 0).count := by
  unfold Settled; decide +kernel

/-- A swap of the placed state saves its group, whose region may not restart it. -/
theorem test_hyps_swap_saves :
    let y := (sTwo.saveGroups 0 0).core 0
    let due : State := sTwo.modCore 0 fun x => { x with swapDue := some (2 ^ 40 + 1) }
    sTwo.fwUp 1 = true ∧ y.act ≤ 1 ∧ (y.bank (1 - y.act)).st = .ready ∧ y.swapDue = none ∧ y.active.st = .active ∧
      ((due.saveGroups 0 0).core 0).swapDue ≠ none ∧ sTwo.gidsAt 0 0 = [1] ∧
      (∀ gid ∈ sTwo.gidsAt 0 0, ∀ g ∈ alook gid sTwo.groups, sTwo.restarts g = false ∧ g.mark = none) ∧
      placeGroup.place = .bank 0 0 ∧ placeGroup.st = .running := by decide +kernel
theorem test_hyps_checkpoint :
    let t : Team := { ctl0 .handler with sregs := [(0, 0x28000), (1, 0x40000)] }
    let k : CkptSt := { ctx := 1, d := .s 2, addr := 0x28000, size := 0x40000, since := 0 }
    let h : State := { sHandler with objs := [] }
    let w : State := { h with cores := [(0, { (h.core 0) with ckpt := some k })] }
    Reached (h.bufLines (h.env h.cur) t 0x28000 1) ∧ (w.core 0).ckpt = some k ∧
      w.agent (.ctl 0 1) = some t ∧ w.groupsBusy (w.ckptGroups 0 1) = false ∧ k.since + w.wdogOf (.ctl 0 1) ≤ (w.core 0).count := by
  refine ⟨reached_of ?_, ?_, rfl, ?_, ?_⟩ <;> decide +kernel
/-- The bytes of an image that is only its header, of context 1 (R315). -/
def imageBytes0 : List Byte :=
  [0x01 * 2 ^ 32 + 0x00544B43, 1, 2 ^ 48 + sReg.pkgMark, 64, 0, 4031592935, 0, 0].flatMap fun (n : Nat) => leBytes n 8
theorem test_hyps_images :
    let i : Image := { image0 with ctx := 1, cellar := false, raw := imageBytes0, bank := { Bank.init .ready with ctx := some 1 } }
    let s : State := { sReg with images := [(5, i)], cores := [], fw := { sReg.fw with store := putBytes [] 0 imageBytes0 } }
    let none1 : State := { s with ctxs := [] }
    let hung : State := { s with fw := { s.fw with hung := [1] } }
    s.imageCheck ⟨true, 0, 0⟩ = some imageBytes0 ∧ sReg.imageCheck ⟨true, 0, 0⟩ = none ∧ s.imageCheck ⟨false, 9, 1⟩ = none ∧
      ((words64 (imageBytes0.take 64)).getD 2 0).toNat / 2 ^ 48 = 1 ∧ alook 1 s.ctxs ≠ none ∧ alook 1 none1.ctxs = none ∧
      s.imageNamed 1 imageBytes0 = some i ∧ (s.restoreImage 0 1 imageBytes0).isSome = true ∧ (sReg.restoreImage 0 1 imageBytes0).isNone = true ∧ s.quiet = true ∧
      hung.fwUp 1 = false ∧ (hung.hold 8 (.imageRestore 0 ⟨0, ⟨true, 0, 0⟩⟩)).isSome = true := by decide +kernel
theorem test_hyps_redundant :
    let i : Instr := .enq (.s 0) (.reg (.s 0))
    let t (g : Nat) : Team := { tm with gid := g, st := .waiting, wait := .commit i none }
    let s : State := ({ sReg with
      teams := [(1, t 1), (2, t 2)]
      groups := [(1, { placeGroup with partner := some 2 }), (2, { placeGroup with teams := [2], partner := some 1, copyIdx := 1 })] } :
        State).modCore 0 fun x => { x with count := 2 ^ 40 }
    ((s.pairAt 1).any fun p => p.t0.commitWait == some i && s.samePoint p i && s.commitReady p.tid0 p.t0 i && s.commitReady p.tid1 p.t1 i && signature p.t0.held == signature p.t1.held) = true ∧
      Waits s 1 (t 1) (.commit i none) ∧ s.expired 1 (t 1).since = true := by unfold Waits; decide +kernel

/-- A queue of region 0 on die 0 that holds one instance of the record; core 1 is empty. -/
def sQueue : State := { sReg with
  launches := aset 2 { ctx := 1, region := 0, die := 0, task := task0, left := 1, live := 0, hb := [] } sReg.launches
  queues := [{ ctx := 1, region := 0, die := 0, tail := 1, entries := [{ launch := 2, next := 0, hi := 1, reserve := false, slot := 0 }] }] }
theorem test_hyps_dispatch :
    sQueue.fw.frozen = false ∧ (1 : Nat) < Config.nCores ∧
      (match (sQueue.die 0).choose ((sQueue.heads 0).filter fun h => sQueue.headOk 1 h) with
        | some c => (match sQueue.headBytes 0 c.1 with
          | .ok b => (sQueue.popHead 1 c.1 b).isSome
          | .error _ => false)
        | none => false) = true := by decide +kernel
theorem test_hyps_decant :
    let k : DecKey := { obj := 0, entry := 0, smask := 0, bytes := [], dtgen := 0, svnIdx := 0, svn := 0, place := 255 }
    let e : DecEntry :=
      { die := 0, key := k, st := .decanting, placed := false, code := 0x10000, words := [], back := [], folded := [], exits := [], loops := [], used := 0, frame := 0
        ctx := 1 }
    let s : State := { sReg with decants := [(5, e)] }
    alook 5 s.decants = some e ∧ e.die = 0 ∧ e.st = .decanting ∧ s.engWaits 5 = false ∧
      (match s.buildEntry e with
        | .ok (some o) => (((s.walksFor 1 0 (s.entryPages e)).readCode e).roomFor 0 (e.built o).2).isSome
        | _ => false) = true ∧ (match s.buildEntry { e with code := 0 } with
        | .ok none => true
        | _ => false) = true ∧ (s.roomFor 0 (Config.decantBytes + 1)).isNone = true := by decide +kernel
/-- A decant whose first read of the code meets an uncorrectable error. -/
theorem test_hyps_decant_fails :
    let k : DecKey := { obj := 0, entry := 0, smask := 0, bytes := [], dtgen := 0, svnIdx := 0, svn := 0, place := 255 }
    let e : DecEntry :=
      { die := 0, key := k, st := .decanting, placed := false, code := 0x10000, words := [], back := [], folded := [], exits := []
        loops := [], used := 0, frame := 0, ctx := 1 }
    sReg.codeReads e = [.dev 0x10000, .dev 0x10004] ∧ deadHas sReg.dead (0x10000 / 4096) = false := by decide +kernel
theorem test_hyps_release :
    let g : Group := { placeGroup with st := .carving }
    let s : State := { sQueue with groups := [(1, g)], launches := aset 1 { ctx := 1, region := 0, die := 0, task := task0, left := 0, live := 1, hb := [] } [] }
    alook 1 s.groups = some g ∧ (alook g.launch s.launches).isSome = true ∧ g.place = .bank g.place.core (s.core g.place.core).act ∧
      Free s g.place.core ∧ s.residualsReady g = true := by unfold Free Settled; decide +kernel
theorem test_hyps_balancer :
    let g : Group := { placeGroup with mark := some (96, 0) }
    let t : Team := { tm with st := .waiting, wait := .setshape (.setshape .vec (.s 0) (.lit 32) .fit 0) }
    let s : State := { sQueue with teams := [(1, t)], groups := [(1, g)] }
    let late : State := s.modCore 0 fun x => { x with count := 2 ^ 40 }
    (sQueue.queues.find? fun q => q.ctx == 1 && q.region == 0 && q.die == 0).isSome = true ∧ sQueue.region 1 0 ≠ none ∧
      sQueue.queueFits 1 0 1 = true ∧ (1 : Nat) < Config.nDies ∧ placeGroup.st = .running ∧ placeGroup.resident = true ∧
      placeGroup.mark = none ∧ sQueue.movable placeGroup 96 = true ∧ g.mark = some (96, 0) ∧ Settled s g.place.core ∧
      s.moveReady 1 = true ∧ s.movable g 96 = true ∧ s.canSeat 1 g 96 = true ∧ (s.moveGroup 1 g 96).isSome = true ∧
      ¬0 + 100 * Config.mhz (s.core g.place.core).point ≤ (s.core g.place.core).count ∧
      0 + 100 * Config.mhz (late.core g.place.core).point ≤ (late.core g.place.core).count := by unfold Settled; decide +kernel

theorem test_hyps_requests :
    sReg.fwUp 0 = true ∧ sReg.fwUp 4 = true ∧ sReg.isLive 1 = true ∧ sReg.isLive 2 = false ∧ (sReg.wholeImage 1 0x40000).toBool = true ∧
      (sReg.objAt 1 (BitVec.ofNat 64 0x10000)).isSome = true ∧ sReg.objAt 1 (BitVec.ofNat 64 0x20000) = none ∧ sReg.objBusy obj0 = false ∧
      alook 2 sReg.ctxs = none ∧ alook 0 [(0, 0x30000)] = some 0x30000 ∧ (∀ c ∈ sReg.ctxs, c.2.pasid ≠ 1) ∧
      (sget sReg.fw.svn 63).toNat < 1023 ∧ sReg.fw.keys.length < 16 ∧ alook 3 (aset 3 7 sReg.fw.keys) ≠ none := by decide +kernel
theorem test_hyps_firmware :
    (∀ k < 8, sReg.fwUp k = true) ∧ sReg.recoveryTarget 0x20000 ≠ none ∧ sReg.recoveryTarget 1 = none ∧ (7 : Nat) < Config.nDies := by
  decide +kernel
/-- A verified image of a firmware core, where its signature verifies; and one that an older fuse counter refuses. -/
theorem test_hyps_recovery_image : ∀ i : FwImage, imageSigned i = true →
    secOk i [i.key] = true ∧ romOk i (Config.sha384 (leBytes i.key 96)) = true ∧ (sget sReg.fw.svn 0).toNat ≤ i.svn := by
  intro i h
  refine ⟨?_, ?_, Nat.zero_le _⟩ <;> simp [secOk, romOk, h]
theorem test_hyps_recovery_old : ∀ i : FwImage, i.svn = 0 →
    ¬(sget ({ sReg.fw with svn := [(0, 1)] } : Firmware).svn 0).toNat ≤ i.svn := by
  intro i h
  rw [h]
  decide +kernel
theorem test_hyps_dead_ranges :
    let d : State := { sReg with dead := [(0, 2 ^ 40)] }
    (srcScalar (sm.env sm.cur) tm (.lit 0x20000)).toNat % 4096 = 0 ∧ sReg.inOneTier 0x20000 0x1000 = true ∧ sReg.retire = .none ∧
      (∀ e ∈ sReg.retired, e.1 ≠ 255) ∧ d.donorDead = true ∧ sReg.donorDead = false := by decide +kernel
/-- A range with a memory port's bytes in it, its port ACTIVE and FAILED. -/
theorem test_hyps_dead_ports :
    let s (x : PortSt) : State := { sReg with
      part := { sReg.part with t2ports := 1, t2cap := [(0, 4096)] }, mports := [(0, { Port.init with st := x })] }
    let lo := 0x100000000000 / 4096
    sReg.deadTargets 0x20 0x21 = [] ∧ (s .failed).deadTargets lo (lo + 1) = [.dev 0x100000000000] ∧
      (s .failed).deadTargets lo (lo + 1) = (s .active).deadTargets lo (lo + 1) ∧
      ((s .failed).deadTargets lo (lo + 1)).find? (fun g => (s .failed).carrier g == .failed) = some (.dev 0x100000000000) ∧
      (∀ g ∈ (s .active).deadTargets lo (lo + 1), (s .active).carrier g ≠ .failed) ∧ (s .failed).inOneTier 0x100000000000 4096 = true := by
  decide +kernel
theorem test_hyps_links :
    let p : PortId := .kazeg 0
    let a : State := { sReg with kports := [(0, { Port.init with st := .active })] }
    let t : State := { sReg with kports := [(0, { Port.init with st := .training, fails := 2 })] }
    Sys2Proof.Machine.PortId.exists? p = true ∧ (a.port p).st = .active ∧ (t.port p).st = .training ∧ t.fwUp 6 = true ∧
      2 ≤ (t.port p).fails ∧ (3807 : Nat) < 3808 ∧ devReg 0xF000000000000 = .plain ∧ (2047 : Nat) ∉ sReg.fw.msixOpen ∧
      agetD [] 12 ({ sReg.fw with mbox := [(12, [{ op := .created, snd := 1, rcv := 0, tag := 0, body := [] }])] } : Firmware).mbox ≠ [] := by
  decide +kernel

theorem test_hyps_privilege : tm.level = .program ∧ tm.level ≠ .system ∧ Scalars tm [.lit 0x180] ∧
    0x100 ≤ (srcScalar (sm.env sm.cur) tm (.lit 0x180)).toNat % 2 ^ 14 := by unfold Scalars; decide +kernel
theorem test_hyps_register_frame : (match exec (LaneOp.instr (.fp .fadd { cc := true, ty := .f32 }) (.v 31) (.reg .lid) (.lit 1)) sm with
    | .next _ => true
    | _ => false) = true := by decide +kernel
theorem test_hyps_issues_only : (match exec (.st .b32 (.lit 1) (.reg (.s 0)) (.reg .z)) sm with
    | .next _ => true
    | _ => false) = true := by decide +kernel
theorem test_hyps_decode : decode (encode (.add { cc := false, ty := .i } (.v 1) (.lit 1) (.reg .z))) =
    .ok (.add { cc := false, ty := .i } (.v 1) (.lit 1) (.reg .z)) ∧ Instr.encoded (.add { cc := false, ty := .i } (.v 1) (.lit 1) (.reg .z)) = true ∧
    Instr.wf (.add { cc := false, ty := .i } (.v 1) (.lit 1) (.reg .z)) = true := by decide +kernel
/-- A state in which the bytes at the PC decode, and its step. -/
theorem test_hyps_step :
    let s := at0 tm [0x498B0803]
    alive s = none ∧ s.agenda = [] ∧ s.canIssue s.cur = true ∧ tm.pc = .code 0x10000 ∧ tm.loop = none ∧
      [(0x498B0803 : W32)].length = wordSpan 0x498B0803 ∧ s.fetchWord 1 .program 0x10000 = .ok 0x498B0803 ∧ tm.clause.inside = true ∧
      breakAt (s.brkFor (s.env s.cur) tm false) 0x10000 = none ∧ longCheck tm 0x498B0803 = .ok () ∧
      tm.flagFull (.shli (.s 2) (.reg (.s 1)) 3) = false ∧
      ({ tm with flags := [(0, 7)] } : Team).flagFull (.ld .b32 (.v 0) (.reg (.s 0)) (.reg .z)) = true ∧
      (at0 { tm with st := .waiting } []).canIssue (.team 1) = false := by decide +kernel
/-- What holds a step back: nothing in the placed state. -/
theorem test_hyps_step_free :
    let s := at0 tm [0x498B0803]
    let i : Instr := .shli (.s 2) (.reg (.s 1)) 3
    s.fetchHeld (s.env s.cur) (tm.outOf s) = false ∧ s.sideHeld (s.env s.cur) tm i = false ∧ (match exec i s with
      | .next u => !s.execHeld (s.env s.cur) tm i u
      | _ => false) = true := by decide +kernel
theorem test_hyps_kept : MemInv sReg ∧ (match step (at0 tm [0x498B0803]) with
    | .next _ => true
    | _ => false) = true := by unfold MemInv; decide +kernel
/-- The check value that CRC-32C is known by: that of the ASCII digits 1 to 9. -/
theorem test_crc32c : crc32c [0x31, 0x32, 0x33, 0x34, 0x35, 0x36, 0x37, 0x38, 0x39] = 0xE3069283 := by decide +kernel
/-- A flit as made is not corrupt, and one with TYPE 5 is (R335). -/
theorem test_flit : flitCorrupt (flitMake 5 4 1 0xABC) = false ∧ flitCorrupt (flitMake 5 4 5 0xABC) = true := by decide +kernel
end Sys2Proof.Tests
end

section
/-!
PROOF. The integer lane instructions (chapter 5): the value that an operation gives an element, as a bit vector of any width; the
values of a lane's elements; the rules of the add, subtract, logic and shift instructions; the Form B instructions; the conditions.
-/
namespace Sys2Proof.LanesInteger
open Sys2Proof Sys2Proof.Machine Sys2Proof.Claims Sys2Proof.Laws

/-! ## Numbers below 2^w and bit vectors -/

theorem sInt_toNat {w : Nat} (hw : 0 < w) (x : BitVec w) : sInt w x.toNat = x.toInt := by
  have hpow := mul_pow_sub_one hw.ne' 2
  have hiff : x.toNat < 2 ^ (w - 1) ↔ 2 * x.toNat < 2 ^ w := by omega
  simp [sInt, BitVec.toInt_eq_toNat_cond, hiff]

theorem tInt_toNat {w : Nat} (hw : 0 < w) (signed : Bool) (x : BitVec w) : tInt signed w x.toNat = asInt signed x := by
  cases signed
  · rfl
  · exact sInt_toNat hw x

theorem bitAt_msb {w : Nat} (x : BitVec w) : bitAt x.toNat (w - 1) = x.msb := by
  rw [BitVec.msb_eq_getLsbD_last, BitVec.getLsbD, Nat.testBit_eq_decide_div_mod_eq]
  rfl

theorem narrow_eq_toNat (w : Nat) (x : Int) : narrow w x = (BitVec.ofInt w x).toNat := by
  simp [narrow]

@[simp] theorem ofNat_narrow (w : Nat) (x : Int) : BitVec.ofNat w (narrow w x) = BitVec.ofInt w x := by
  rw [narrow_eq_toNat, BitVec.ofNat_toNat, BitVec.setWidth_eq]

@[simp] theorem ofNat_mod_two_pow (w x : Nat) : BitVec.ofNat w (x % 2 ^ w) = BitVec.ofNat w x := by
  apply BitVec.eq_of_toNat_eq
  simp

@[simp] theorem ofNat_b2n (w : Nat) (c : Bool) : BitVec.ofNat w (b2n c) = ofBool w c := by
  cases c <;> rfl

theorem ofInt_sub (w : Nat) (x y : Int) : BitVec.ofInt w (x - y) = BitVec.ofInt w x - BitVec.ofInt w y := by
  rw [Int.sub_eq_add_neg, BitVec.ofInt_add, BitVec.ofInt_neg, BitVec.sub_eq_add_neg]

theorem ofInt_asInt (signed : Bool) {w : Nat} (x : BitVec w) : BitVec.ofInt w (asInt signed x) = x := by
  cases signed <;> simp [asInt]

theorem ofInt_clampInt (signed : Bool) (w : Nat) (x : Int) : BitVec.ofInt w (clampInt signed w x) = clampTo signed w x := by
  cases signed <;> simp [clampInt, clampTo, min_comm]

theorem asInt_le_iff (signed : Bool) {w : Nat} (a b : BitVec w) : asInt signed a ≤ asInt signed b ↔ atMost signed a b = true := by
  cases signed <;> simp [asInt, atMost, BitVec.sle, BitVec.ule]

/-! ## Shifts and extensions (R88, R90) -/

theorem ofNat_shlBy {w : Nat} (x : BitVec w) (k : Nat) : BitVec.ofNat w (shlBy w x.toNat k) = x <<< k := by
  unfold shlBy
  split
  · apply BitVec.eq_of_toNat_eq
    simp [Nat.shiftLeft_eq]
  · rw [BitVec.shiftLeft_eq_zero (by omega)]

theorem ofNat_shrBy {w : Nat} (x : BitVec w) (k : Nat) : BitVec.ofNat w (shrBy w x.toNat k) = x >>> k := by
  unfold shrBy
  split
  · rw [← Nat.shiftRight_eq_div_pow, ← BitVec.toNat_ushiftRight, BitVec.ofNat_toNat, BitVec.setWidth_eq]
  · rw [BitVec.ushiftRight_eq_zero (by omega)]

theorem ofNat_sarBy {w : Nat} (hw : 0 < w) (x : BitVec w) (k : Nat) : BitVec.ofNat w (sarBy w x.toNat k) = x.sshiftRight k := by
  rw [sarBy, bitAt_msb, sInt_toNat hw]
  split
  · rw [ofNat_narrow, BitVec.sshiftRight_eq, Int.shiftRight_eq_div_pow, Int.fdiv_eq_ediv_of_nonneg _ (by positivity)]
    norm_cast
  · have hzero (y : BitVec w) : y >>> k = 0#w := BitVec.ushiftRight_eq_zero (by omega)
    cases hm : x.msb
    · rw [BitVec.sshiftRight_eq_of_msb_false hm, hzero]
      rfl
    · rw [BitVec.sshiftRight_eq_of_msb_true hm, hzero]
      apply BitVec.eq_of_toNat_eq
      simp

/-- The two parts of the rotated value share no bit, so that their sum is their union. -/
theorem ofNat_rotBy {w : Nat} (hw : 0 < w) (x : BitVec w) (k : Nat) : BitVec.ofNat w (rotBy w x.toNat k) = x.rotateLeft k := by
  have hr : k % w < w := Nat.mod_lt _ hw
  generalize hk : k % w = r at hr
  have hsplit : 2 ^ w = 2 ^ r * 2 ^ (w - r) := by rw [← Nat.pow_add, Nat.add_sub_cancel' hr.le]
  have hlow : x.toNat / 2 ^ (w - r) < 2 ^ r := by
    rw [Nat.div_lt_iff_lt_mul (by positivity), ← hsplit]
    exact x.isLt
  have hhigh : x.toNat * 2 ^ r % 2 ^ w = 2 ^ r * (x.toNat % 2 ^ (w - r)) := by
    rw [hsplit, Nat.mul_comm, Nat.mul_mod_mul_left]
  have hsum : 2 ^ r * (x.toNat % 2 ^ (w - r)) + x.toNat / 2 ^ (w - r) < 2 ^ w := by
    have hmod : x.toNat % 2 ^ (w - r) + 1 ≤ 2 ^ (w - r) := Nat.mod_lt _ (by positivity)
    have := Nat.mul_le_mul_left (2 ^ r) hmod
    rw [hsplit]
    linarith
  apply BitVec.eq_of_toNat_eq
  rw [BitVec.toNat_rotateLeft, hk, Nat.shiftLeft_eq, Nat.shiftRight_eq_div_pow, hhigh, ← Nat.two_pow_add_eq_or_of_lt hlow,
    ← Nat.mod_eq_of_lt hsum, ← hhigh]
  simp [rotBy, hk]

theorem ofNat_extendBits (signed : Bool) {w k : Nat} (hk : k ≤ w) (x : BitVec w) :
    BitVec.ofNat w (extendBits signed w k x.toNat) = lowExtended signed k x := by
  have hpow : 2 ^ k ≤ 2 ^ w := Nat.pow_le_pow_right (by decide) hk
  have hlow : x.toNat % 2 ^ k < 2 ^ k := Nat.mod_lt _ (by positivity)
  have hbit : bitAt (x.toNat % 2 ^ k) (k - 1) = (x.setWidth k).msb := by rw [← bitAt_msb, BitVec.toNat_setWidth]
  apply BitVec.eq_of_toNat_eq
  cases signed with
  | false => simp [extendBits, lowExtended]
  | true =>
    cases hm : (x.setWidth k).msb with
    | false => simp [extendBits, lowExtended, hbit, hm, BitVec.toNat_signExtend]
    | true =>
      simp only [extendBits, lowExtended, hbit, hm, Bool.true_and, if_true, BitVec.toNat_ofNat, BitVec.toNat_signExtend,
        BitVec.toNat_setWidth]
      rw [Nat.mod_eq_of_lt (by omega), Nat.mod_eq_of_lt (b := 2 ^ w) (by omega), Nat.add_comm]

/-! ## The value that an operation gives an element -/

/-- What an operation reads of elements that are bit vectors. -/
def elemIn (signed : Bool) {w : Nat} (a b d : BitVec w) (c : Bool) : IntIn :=
  { w := w, signed := signed, a := a.toNat, b := b.toNat, d := d.toNat, cin := c }

section
variable (signed : Bool) {w : Nat} (a b d : BitVec w) (c : Bool)

@[simp] theorem elemIn_w : (elemIn signed a b d c).w = w := rfl
@[simp] theorem elemIn_signed : (elemIn signed a b d c).signed = signed := rfl
@[simp] theorem elemIn_a : (elemIn signed a b d c).a = a.toNat := rfl
@[simp] theorem elemIn_b : (elemIn signed a b d c).b = b.toNat := rfl
@[simp] theorem elemIn_cin : (elemIn signed a b d c).cin = c := rfl

end

@[simp] theorem plain_val (x : Nat) : (plain x).val = x := rfl

/-- In every element, whatever its width, the operation of an instruction gives the value of a formula. -/
def Computes (o : IntOp) (f : Formula) : Prop :=
  ∀ (w : Nat) (signed : Bool) (a b d : BitVec w) (c : Bool), 0 < w →
    BitVec.ofNat w (o.op (elemIn signed a b d c)).val = f w signed a b d c

theorem add_computes : Computes .add fun _ _ a b _ _ => a + b := by
  intro w signed a b d c _
  simp [IntOp.op, opAdd, aluAdd, BitVec.ofNat_add]

theorem addc_computes : Computes .addc fun w _ a b _ c => a + b + ofBool w c := by
  intro w signed a b d c _
  simp [IntOp.op, opAddc, aluAdd, BitVec.ofNat_add]

theorem sub_computes : Computes .sub fun _ _ a b _ _ => a - b := by
  intro w signed a b d c _
  simp [IntOp.op, opSub, aluSub, ofInt_sub]

theorem subb_computes : Computes .subb fun w _ a b _ c => a - b - (1 - ofBool w c) := by
  intro w signed a b d c _
  have hborrow : BitVec.ofInt w ((1 - b2n c : Nat) : Int) = 1 - ofBool w c := by cases c <;> simp [ofBool, b2n]
  simp only [IntOp.op, opSubb, aluSub, elemIn_w, elemIn_a, elemIn_b, elemIn_cin, ofNat_narrow, ofInt_sub, hborrow]
  simp

theorem adds_computes : Computes .adds fun w signed a b _ _ => clampTo signed w (asInt signed a + asInt signed b) := by
  intro w signed a b d c hw
  simp [IntOp.op, opAdds, aluSat, ofInt_clampInt, tInt_toNat hw]

theorem subs_computes : Computes .subs fun w signed a b _ _ => clampTo signed w (asInt signed a - asInt signed b) := by
  intro w signed a b d c hw
  simp [IntOp.op, opSubs, aluSat, ofInt_clampInt, tInt_toNat hw]

theorem min_computes : Computes .min fun _ signed a b _ _ => if atMost signed a b then a else b := by
  intro w signed a b d c hw
  simp [IntOp.op, opMin, tInt_toNat hw, asInt_le_iff, apply_ite (BitVec.ofNat w)]

theorem max_computes : Computes .max fun _ signed a b _ _ => if atMost signed a b then b else a := by
  intro w signed a b d c hw
  simp [IntOp.op, opMax, tInt_toNat hw, asInt_le_iff, apply_ite (BitVec.ofNat w)]

theorem absd_computes : Computes .absd fun _ signed a b _ _ => if atMost signed a b then b - a else a - b := by
  intro w signed a b d c hw
  have hval : BitVec.ofNat w (opAbsd (elemIn signed a b d c)).val = BitVec.ofInt w ((asInt signed a - asInt signed b).natAbs : Int) := by
    rw [BitVec.ofInt_natCast]
    simp [opAbsd, tInt_toNat hw]
  simp only [IntOp.op, hval, ← asInt_le_iff]
  split
  · rw [Int.ofNat_natAbs_of_nonpos (by omega), Int.neg_sub, ofInt_sub, ofInt_asInt, ofInt_asInt]
  · rw [Int.natAbs_of_nonneg (by omega), ofInt_sub, ofInt_asInt, ofInt_asInt]

theorem and_computes : Computes .and fun _ _ a b _ _ => a &&& b :=
  fun _ _ _ _ _ _ _ => BitVec.ofNat_and.trans (by simp)

theorem or_computes : Computes .or fun _ _ a b _ _ => a ||| b :=
  fun _ _ _ _ _ _ _ => BitVec.ofNat_or.trans (by simp)

theorem xor_computes : Computes .xor fun _ _ a b _ _ => a ^^^ b :=
  fun _ _ _ _ _ _ _ => BitVec.ofNat_xor.trans (by simp)

theorem andn_computes : Computes .andn fun _ _ a b _ _ => a &&& ~~~b := by
  intro w signed a b d c _
  have hnot : BitVec.ofNat w (2 ^ w - 1 - b.toNat) = ~~~b := by rw [← BitVec.toNat_not, BitVec.ofNat_toNat, BitVec.setWidth_eq]
  exact BitVec.ofNat_and.trans (by simp [hnot])

theorem shl_computes : Computes .shl fun _ _ a b _ _ => a <<< (b.toNat % 256) := fun _ _ a _ _ _ _ => ofNat_shlBy a _

theorem shr_computes : Computes .shr fun _ _ a b _ _ => a >>> (b.toNat % 256) := fun _ _ a _ _ _ _ => ofNat_shrBy a _

theorem sar_computes : Computes .sar fun _ _ a b _ _ => a.sshiftRight (b.toNat % 256) := fun _ _ a _ _ _ hw => ofNat_sarBy hw a _

theorem rot_computes : Computes .rot fun _ _ a b _ _ => a.rotateLeft (b.toNat % 256) := fun _ _ a _ _ _ hw => ofNat_rotBy hw a _

theorem ext_computes : Computes .ext fun _ signed a b _ _ => extended signed a b := by
  intro w signed a b d c _
  simp only [IntOp.op, opExt, extended, elemIn_w, elemIn_a, elemIn_b, elemIn_signed]
  by_cases hzero : b.toNat % 256 = 0
  · simp [hzero]
  by_cases hwide : w ≤ b.toNat % 256
  · simp [hzero, hwide]
  · simpa [hzero, hwide] using ofNat_extendBits signed (by omega) a

/-! ## The elements of a lane (R42, R81) -/

theorem elemOf_toNat (w : Nat) {n : Nat} (x : BitVec n) (j : Nat) : elemOf w x.toNat j = (elemBits w x j).toNat := by
  simp [elemOf, elemBits, Nat.shiftRight_eq_div_pow]

theorem elemOf_packElems (w : Nat) (rs : List IntRes) (j : Nat) (hj : j < rs.length) :
    elemOf w (packElems w rs) j = rs[j].val % 2 ^ w := by
  induction rs generalizing j with
  | nil => simp at hj
  | cons r rs ih =>
    cases j with
    | zero => simp [elemOf, packElems]
    | succ j =>
      have hdiv : packElems w (r :: rs) / 2 ^ w = packElems w rs := by
        rw [packElems, Nat.add_mul_div_left _ _ (by positivity), Nat.div_eq_of_lt (Nat.mod_lt _ (by positivity)), Nat.zero_add]
      rw [elemOf, Nat.mul_succ, Nat.add_comm, Nat.pow_add, ← Nat.div_div_eq_div_mul, hdiv]
      exact ih j (by simpa using hj)

theorem elemBits_packElems (w : Nat) (rs : List IntRes) (j : Nat) (hj : j < rs.length) (hw : w * rs.length ≤ 64) :
    elemBits w (BitVec.ofNat 64 (packElems w rs)) j = BitVec.ofNat w rs[j].val := by
  have hfit : w * j + w ≤ 64 := (Nat.mul_le_mul_left w hj).trans hw
  have hsplit : 2 ^ 64 = 2 ^ (w * j) * 2 ^ (64 - w * j) := by
    rw [← Nat.pow_add]
    congr 1
    omega
  apply BitVec.eq_of_toNat_eq
  rw [BitVec.toNat_ofNat, ← elemOf_packElems w rs j hj, ← elemOf_toNat, BitVec.toNat_ofNat, elemOf, hsplit, Nat.mod_mul_right_div_self,
    Nat.mod_mod_of_dvd _ (Nat.pow_dvd_pow 2 (by omega)), elemOf]

/-- The elements of every type fill a lane. -/
theorem intElem_fills (ty : IntTy) : 0 < (intElem ty).1 ∧ (intElem ty).1 * (intElem ty).2.1 = 32 := by
  cases ty <;> decide

theorem laneElems_eq (op : IntIn → IntRes) (ty : IntTy) (a b d : W32) (c : Bool) :
    laneElems op ty a b d c = (List.range (intElem ty).2.1).map fun j =>
      op (elemIn (ty != .n) (elemBits (intElem ty).1 a j) (elemBits (intElem ty).1 b j) (elemBits (intElem ty).1 d j) c) := by
  cases ty <;> (simp only [laneElems, intElem, elemOf_toNat]; rfl)

/-- An element of a lane's result is what the operation gives the same elements of the sources. -/
theorem elemBits_intLaneRes (op : IntIn → IntRes) (ty : IntTy) (a b d : W32) (c : Bool) (j : Nat) (hj : j < (intElem ty).2.1) :
    elemBits (intElem ty).1 (intLaneRes op ty a b d c).x j = BitVec.ofNat _
      (op (elemIn (ty != .n) (elemBits (intElem ty).1 a j) (elemBits (intElem ty).1 b j) (elemBits (intElem ty).1 d j) c)).val := by
  have hlen : (laneElems op ty a b d c).length = (intElem ty).2.1 := by simp [laneElems_eq]
  obtain ⟨-, hfill⟩ := intElem_fills ty
  refine (elemBits_packElems _ _ j (hlen ▸ hj) (by rw [hlen, hfill]; decide)).trans ?_
  simp [laneElems_eq]

/-- A lane of an unpacked type is one element. -/
theorem intLaneRes_unpacked (op : IntIn → IntRes) {ty : IntTy} (hp : ty.packed = false) (a b d : W32) (c : Bool) :
    intLaneRes op ty a b d c = .int ((op (elemIn (ty != .n) a b d c)).val % 2 ^ 32) ((op (elemIn (ty != .n) a b d c)).nib 32) := by
  cases ty <;> simp [intLaneRes, laneElems_eq, intElem, packElems, combineNib, IntRes.nib, IntTy.packed, elemBits] at *

theorem intScalarRes_eq (op : IntIn → IntRes) (ty : IntTy) (a b d : W64) (c : Bool) :
    intScalarRes op ty a b d c = .int (op (elemIn (ty == .i) a b d c)).val ((op (elemIn (ty == .i) a b d c)).nib 64) := rfl

theorem firstNib_eq (t : Team) : t.firstNib = (t.liveLanes.head?.map fun l => sget t.cc l).getD 0 := by
  unfold Team.firstNib
  cases t.liveLanes <;> rfl

/-! ## The Form A integer instructions (R81) -/

theorem scalarDest_of_vector {d : Reg} (hd : isVecDst d = true) : d.scalarDest = false := by
  cases d <;> simp_all [isVecDst, Reg.scalarDest]

/-- Every one executes the same form, with or without packed types. -/
theorem exec_intOp (o : IntOp) (m : IntMod) (d : Reg) (a b : Src) (s : State) (hu : o.unary = true → b = .reg .z) :
    exec (o.instr m d a b) s = runAgent s (o.instr m d a b).words (if o.packed then intForm o.op m d a b else intFormPlain o.op m d a b) := by
  cases o
  case popc | clz | brev | mov =>
    obtain rfl := hu rfl
    simp [IntOp.instr, Instr.words, IntOp.packed, IntOp.op, execPopc, execClz, execBrev, execMov, runInt1]
  all_goals
    simp [IntOp.instr, Instr.words, IntOp.packed, IntOp.op]
    rfl

theorem intForm_eq (op : IntIn → IntRes) {m : IntMod} {d : Reg} (a b : Src) (e : Env) (t : Team)
    (h : (m.ty.packed && d.scalarDest) = false) :
    intForm op m d a b e t = arith { cc := m.cc, pair := false } d [a, b]
      (fun e t => intScalarRes op m.ty (srcScalarX e t (intSx m.ty) a) (srcScalarX e t (intSx m.ty) b) (regScalar e t d)
        (nibC t.firstNib))
      (fun e t l => intLaneRes op m.ty (srcLane e t a l) (srcLane e t b l) (dstLane e t d l) (nibC (sget t.cc l))) e t := by
  simp only [intForm, h, Bool.not_false, need_true, bind, Except.bind]

theorem intFormPlain_eq (op : IntIn → IntRes) {m : IntMod} (d : Reg) (a b : Src) (e : Env) (t : Team) (hp : m.ty.packed = false) :
    intFormPlain op m d a b e t = intForm op m d a b e t := by
  simp only [intFormPlain, hp, Bool.not_false, need_true, bind, Except.bind]

theorem intForm_scalar (op : IntIn → IntRes) {m : IntMod} {d : Reg} {a b : Src} {t : Team} (e : Env) (hd : isScaDst d = true)
    (hp : m.ty.packed = false) (hx : Scalars t [a, b]) :
    intForm op m d a b e t = .ok (t.applyScalar (some d) m.cc (intScalarRes op m.ty (srcScalarX e t (intSx m.ty) a)
      (srcScalarX e t (intSx m.ty) b) (regScalar e t d) (nibC t.firstNib))) := by
  rw [intForm_eq op a b e t (by simp [hp]), arith_scalar hd hx (by simp)]

theorem intForm_vector (op : IntIn → IntRes) {m : IntMod} {d : Reg} {a b : Src} {t : Team} (e : Env) (hd : VecDst t d)
    (hx : Readable t [a, b]) (hv : Vectors t) :
    intForm op m d a b e t = .ok (t.applyLanes (t.dstReg d) false m.cc fun l =>
      intLaneRes op m.ty (srcLane e t a l) (srcLane e t b l) (dstLane e t d l) (nibC (sget t.cc l))) := by
  obtain ⟨hvec, hok⟩ := hd
  obtain ⟨hkind, hstale⟩ := hv
  rw [intForm_eq op a b e t (by simp [scalarDest_of_vector hvec]), arith_vector hvec hok hx (by simp) hkind hstale]

theorem falls_intOp {o : IntOp} {m : IntMod} {d : Reg} {a b : Src} {s : State} {t t' : Team} (ha : s.agent s.cur = some t)
    (hu : o.unary = true → b = .reg .z) (hp : m.ty.packed = true → o.packed = true)
    (hf : intForm o.op m d a b (s.env s.cur) t = .ok t') : Falls (o.instr m d a b) s t' := by
  rw [Falls, exec_intOp o m d a b s hu]
  apply runAgent_ok ha
  split
  · exact hf
  · have hplain : m.ty.packed = false := by simpa using mt hp ‹_›
    rw [intFormPlain_eq o.op d a b _ t hplain, hf]

/-- An instruction whose operation computes a formula in an element follows it on the scalar datapath and in every lane. -/
theorem follows_of_computes {o : IntOp} {f : Formula} (h : Computes o f) : Follows o f := by
  intro m d a b s t ha hu
  constructor
  · intro hd hp hx
    refine ⟨_, falls_intOp ha hu (by simp [hp]) (intForm_scalar o.op _ hd hp hx), ?_⟩
    rw [intScalarRes_eq, LaneRes.int, h _ _ _ _ _ _ (by decide), firstNib_eq]
    rfl
  · intro hd hp hx hv
    refine ⟨_, falls_intOp ha hu hp (intForm_vector o.op _ hd hx hv), fun l j hj => ?_⟩
    rw [elemBits_intLaneRes _ _ _ _ _ _ j hj, h _ _ _ _ _ _ (intElem_fills m.ty).1]

/-- Settles O9: each of the six operations computes its formula in an element, and the instruction follows it. -/
theorem addSubtractRule : Obligations.AddSubtractRule :=
  ⟨follows_of_computes add_computes, follows_of_computes sub_computes, follows_of_computes addc_computes,
    follows_of_computes subb_computes, follows_of_computes adds_computes, follows_of_computes subs_computes⟩

/-- Settles O11: each of the twelve operations computes its formula in an element, and the instruction follows it. -/
theorem logicShiftRule : Obligations.LogicShiftRule :=
  ⟨follows_of_computes min_computes, follows_of_computes max_computes, follows_of_computes absd_computes,
    follows_of_computes and_computes, follows_of_computes or_computes, follows_of_computes xor_computes,
    follows_of_computes andn_computes, follows_of_computes shl_computes, follows_of_computes shr_computes,
    follows_of_computes sar_computes, follows_of_computes rot_computes, follows_of_computes ext_computes⟩

/-! ## The Form B instructions (R94, R95) -/

@[simp] theorem addFp_zero (t : Team) : t.addFp 0 = t := by
  simp [Team.addFp]

theorem applyScalar_noCodes (t : Team) (d : Reg) {r : LaneRes} (hf : r.fl = 0) :
    t.applyScalar (some d) false r = t.writeScalar d r.x := by
  simp only [Team.applyScalar, hf, Bool.false_eq_true, if_false, addFp_zero]

theorem applyLanes_noCodes (t : Team) (n : Nat) {f : Nat → LaneRes} (hf : ∀ l, (f l).fl = 0) :
    t.applyLanes (some n) false false f = t.writeLanes n t.liveLanes fun l => (f l).x.setWidth 32 := by
  have hfold : t.liveLanes.foldl (fun (m : BitVec 5) l => m ||| (f l).fl) 0 = 0 := by
    induction t.liveLanes with
    | nil => rfl
    | cons l ls ih => simp [hf]
  simp only [Team.applyLanes, hfold, Bool.false_eq_true, if_false, addFp_zero]

/-- A result carries the value of a Form B instruction in its low bits, and no flags. -/
def Yields (o : ImmOp) {w : Nat} (x : BitVec w) (r : LaneRes) : Prop := r.x.setWidth w = o.value x ∧ r.fl = 0

/-- A Form B instruction executes an arithmetic form without codes, of at most its source, that yields its value. -/
structure Executes (o : ImmOp) (d : Reg) (a : Src) (s : State) (srcs : List Src) (sca : Env → Team → LaneRes)
    (vec : Env → Team → Nat → LaneRes) : Prop where
  only : ∀ x ∈ srcs, x = a
  runs : exec (o.instr d a) s = runAgent s (o.instr d a).words (arith { cc := false, pair := false } d srcs sca vec)
  scalar : ∀ e t, Yields o (srcScalar e t a) (sca e t)
  vector : ∀ e t l, Yields o (srcLane e t a l) (vec e t l)

/-- One that is a Form A operation on its immediate. -/
theorem executes_of_computes {o : ImmOp} {io : IntOp} {f : Formula} (h : Computes io f) (k : Int) (d : Reg) (a : Src) (s : State)
    (hx : exec (o.instr d a) s = runAgent s (o.instr d a).words (immForm io.op d a k))
    (hv : ∀ w (x : BitVec w), 8 ≤ w → f w true x (BitVec.ofInt w k) 0 false = o.value x) :
    ∃ srcs sca vec, Executes o d a s srcs sca vec := by
  refine ⟨[a], _, _, by simp, hx, fun e t => ⟨?_, rfl⟩, fun e t l => ⟨?_, rfl⟩⟩
  · rw [BitVec.setWidth_eq, ← hv _ _ (by decide)]
    exact h _ _ _ _ _ _ (by decide)
  · rw [intLaneRes_unpacked _ rfl, LaneRes.int, BitVec.setWidth_ofNat_of_le (by decide), ofNat_mod_two_pow, ← hv _ _ (by decide)]
    exact h _ _ _ _ _ _ (by decide)

/-- A shift count is below 64, so that bits [7:0] of the extended count are the count. -/
theorem shiftAmount_mod {w : Nat} (hw : 8 ≤ w) (k : BitVec 6) : (BitVec.ofInt w (k.toNat : Int)).toNat % 256 = k.toNat := by
  have hpow : 2 ^ 8 ≤ 2 ^ w := Nat.pow_le_pow_right (by decide) hw
  have hk := k.isLt
  rw [BitVec.ofInt_natCast, BitVec.toNat_ofNat, Nat.mod_eq_of_lt (b := 2 ^ w) (by omega), Nat.mod_eq_of_lt (by omega)]

/-- High bits that are supplied over low bits that are kept (R95). -/
theorem ofNat_highBits {w n m : Nat} (h : BitVec m) (x : BitVec w) (hn : m + n ≤ w) :
    BitVec.ofNat w (h.toNat * 2 ^ n + x.toNat % 2 ^ n) = h.setWidth w <<< n ||| (x &&& BitVec.ofNat w (2 ^ n - 1)) := by
  have hfit : 2 ^ n * 2 ^ m ≤ 2 ^ w := by
    rw [← Nat.pow_add]
    exact Nat.pow_le_pow_right (by decide) (by omega)
  have hm : h.toNat < 2 ^ w := h.isLt.trans_le (Nat.pow_le_pow_right (by decide) (by omega))
  have hmask : 2 ^ n - 1 < 2 ^ w :=
    (Nat.sub_lt (by positivity) (by decide)).trans_le (Nat.pow_le_pow_right (by decide) (by omega))
  have hlow : x.toNat % 2 ^ n < 2 ^ n := Nat.mod_lt _ (by positivity)
  have hsum : 2 ^ n * h.toNat + x.toNat % 2 ^ n < 2 ^ w := by
    have := Nat.mul_le_mul_left (2 ^ n) (Nat.succ_le_of_lt h.isLt)
    linarith
  have hhigh : (h.setWidth w <<< n).toNat = 2 ^ n * h.toNat := by
    rw [BitVec.toNat_shiftLeft, BitVec.toNat_setWidth, Nat.mod_eq_of_lt hm, Nat.shiftLeft_eq, Nat.mul_comm, Nat.mod_eq_of_lt (by omega)]
  apply BitVec.eq_of_toNat_eq
  rw [BitVec.toNat_or, hhigh, BitVec.toNat_and, BitVec.toNat_ofNat, BitVec.toNat_ofNat, Nat.mod_eq_of_lt hmask,
    Nat.and_two_pow_sub_one_eq_mod, ← Nat.two_pow_add_eq_or_of_lt hlow, Nat.mul_comm, Nat.mod_eq_of_lt hsum]

theorem executes_movi (k : BitVec 11) (d : Reg) (a : Src) (s : State) : ∃ srcs sca vec, Executes (.movi k) d a s srcs sca vec := by
  refine ⟨[], _, _, by simp, rfl, fun e t => ⟨?_, rfl⟩, fun e t l => ⟨?_, rfl⟩⟩
  · exact (BitVec.setWidth_eq _).trans ((BitVec.ofNat_toNat _ _).trans (BitVec.setWidth_eq _))
  · exact (BitVec.setWidth_ofNat_of_le (by decide) _).trans ((BitVec.ofNat_toNat _ _).trans (BitVec.setWidth_eq _))

theorem executes_movhi (k : BitVec 11) (d : Reg) (a : Src) (s : State) : ∃ srcs sca vec, Executes (.movhi k) d a s srcs sca vec := by
  have hwords : (ImmOp.instr (.movhi k) d a).words = 1 + a.words := by simp [ImmOp.instr, Instr.words]
  refine ⟨[a], _, _, by simp, by rw [hwords]; rfl, fun e t => ⟨?_, rfl⟩, fun e t l => ⟨?_, rfl⟩⟩
  · exact (BitVec.setWidth_eq _).trans (ofNat_highBits k _ (by decide))
  · exact (BitVec.setWidth_ofNat_of_le (by decide) _).trans (ofNat_highBits k _ (by decide))

theorem executes_immOp (o : ImmOp) (d : Reg) (a : Src) (s : State) : ∃ srcs sca vec, Executes o d a s srcs sca vec := by
  cases o with
  | addi k => exact executes_of_computes add_computes k.toInt d a s (by simp [ImmOp.instr, Instr.words]; rfl) fun _ _ _ => rfl
  | andi k => exact executes_of_computes and_computes k.toInt d a s (by simp [ImmOp.instr, Instr.words]; rfl) fun _ _ _ => rfl
  | ori k => exact executes_of_computes or_computes k.toInt d a s (by simp [ImmOp.instr, Instr.words]; rfl) fun _ _ _ => rfl
  | xori k => exact executes_of_computes xor_computes k.toInt d a s (by simp [ImmOp.instr, Instr.words]; rfl) fun _ _ _ => rfl
  | shli k =>
    exact executes_of_computes shl_computes k.toNat d a s (by simp [ImmOp.instr, Instr.words]; rfl) fun _ _ hw => by
      rw [shiftAmount_mod hw, ImmOp.value]
  | shri k =>
    exact executes_of_computes shr_computes k.toNat d a s (by simp [ImmOp.instr, Instr.words]; rfl) fun _ _ hw => by
      rw [shiftAmount_mod hw, ImmOp.value]
  | sari k =>
    exact executes_of_computes sar_computes k.toNat d a s (by simp [ImmOp.instr, Instr.words]; rfl) fun _ _ hw => by
      rw [shiftAmount_mod hw, ImmOp.value]
  | movi k => exact executes_movi k d a s
  | movhi k => exact executes_movhi k d a s

/-- Settles O3: every Form B instruction executes an arithmetic form that yields its value and writes no codes and no flags. -/
theorem immediateResult : Obligations.ImmediateResult := by
  intro o d a s t ha _
  obtain ⟨srcs, sca, vec, only, runs, scalar, vector⟩ := executes_immOp o d a s
  constructor
  · intro hd hx
    obtain ⟨hval, hfl⟩ := scalar (s.env s.cur) t
    have hsrcs : ∀ x ∈ srcs, okSrc t x = true ∧ isVec t x = false := fun x h => only x h ▸ hx a (by simp)
    rw [Falls, runs, runAgent_ok ha (arith_scalar hd hsrcs (by simp)), applyScalar_noCodes t d hfl, ← hval, BitVec.setWidth_eq]
  · rintro n rfl ⟨hvec, hok⟩ hx ⟨hkind, hstale⟩
    have hval l := (vector (s.env s.cur) t l).1
    have hfl l := (vector (s.env s.cur) t l).2
    have hsrcs : ∀ x ∈ srcs, okSrc t x = true := fun x h => only x h ▸ hx a (by simp)
    rw [Falls, runs, runAgent_ok ha (arith_vector hvec hok hsrcs (by simp) hkind hstale), Team.dstReg, applyLanes_noCodes t _ hfl]
    simp only [hval]

/-! ## The conditions (R76) -/

@[simp] theorem nibN_nibble : ∀ n z c v, nibN (nibble n z c v) = n := by decide
@[simp] theorem nibZ_nibble : ∀ n z c v, nibZ (nibble n z c v) = z := by decide
@[simp] theorem nibC_nibble : ∀ n z c v, nibC (nibble n z c v) = c := by decide
@[simp] theorem nibV_nibble : ∀ n z c v, nibV (nibble n z c v) = v := by decide

theorem not_fits_sub {w : Nat} (a b : BitVec w) : (!fits true w (a.toInt - b.toInt)) = BitVec.ssubOverflow a b := by
  rw [Bool.eq_iff_iff]
  simp only [fits, if_true, BitVec.ssubOverflow, Bool.not_eq_true', Bool.and_eq_false_iff, decide_eq_false_iff_not, Bool.or_eq_true,
    decide_eq_true_eq]
  omega

/-- The sign of a difference is wrong where it overflows, and right elsewhere. -/
theorem msb_sub_bne_overflow {w : Nat} (a b : BitVec w) : ((a - b).msb != BitVec.ssubOverflow a b) = a.slt b := by
  rw [BitVec.msb_eq_toInt, BitVec.slt_eq_decide]
  cases ho : BitVec.ssubOverflow a b with
  | false =>
    rw [BitVec.toInt_sub_of_not_ssubOverflow (by simp [ho])]
    simp
  | true =>
    rw [BitVec.ssubOverflow, Bool.or_eq_true, decide_eq_true_eq, decide_eq_true_eq, ge_iff_le,
      BitVec.twoPow_le_toInt_sub_toInt_iff, BitVec.toInt_sub_toInt_lt_twoPow_iff, ← BitVec.toInt_sub] at ho
    rw [Bool.bne_true, Bool.not_eq_eq_eq_not, ← decide_not, decide_eq_decide]
    omega

theorem ule_eq_ult_or_eq {w : Nat} (a b : BitVec w) : a.ule b = (a.ult b || a == b) := by
  rw [Bool.eq_iff_iff]
  simp [BitVec.ule, BitVec.ult, ← BitVec.toNat_inj]
  omega

/-- The nibble of a compare, in bit-vector terms (R77). -/
theorem nib_opSub {w : Nat} (hw : 0 < w) (signed : Bool) (a b d : BitVec w) (c : Bool) :
    (opSub (elemIn signed a b d c)).nib w = nibble (a - b).msb (a == b) (b.ule a) (BitVec.ssubOverflow a b) := by
  have hval : (aluSub w a.toNat b.toNat 0).val = (a - b).toNat := by simp [aluSub, narrow_eq_toNat, ofInt_sub]
  have hz : ((a - b).toNat == 0) = (a == b) := by
    rw [Bool.eq_iff_iff, beq_iff_eq, beq_iff_eq]
    exact (BitVec.toNat_inj (y := 0)).trans sub_eq_zero
  have hc : Nat.ble (b.toNat + 0) a.toNat = b.ule a := by
    rw [Bool.eq_iff_iff]
    simp [BitVec.ule]
  have hv : (!fits true w (sInt w a.toNat - sInt w b.toNat - (0 : Nat))) = BitVec.ssubOverflow a b := by
    rw [sInt_toNat hw, sInt_toNat hw, Nat.cast_zero, Int.sub_zero, not_fits_sub]
  simp only [IntRes.nib, opSub, elemIn_w, elemIn_a, elemIn_b, hval, bitAt_msb, hz]
  rw [aluSub, hc, hv]

/-- The conditions on a nibble order two elements, signed and unsigned. -/
def Orders {w : Nat} (a b : BitVec w) (x : BitVec 4) : Prop :=
  condTest .lt x = a.slt b ∧ condTest .ge x = !a.slt b ∧ condTest .le x = a.sle b ∧ condTest .gt x = !a.sle b ∧
  condTest .lo x = a.ult b ∧ condTest .hs x = !a.ult b ∧ condTest .ls x = a.ule b ∧ condTest .hi x = !a.ule b ∧
  condTest .eq x = (a == b) ∧ condTest .ne x = (a != b)

theorem nib_opSub_orders {w : Nat} (hw : 0 < w) (signed : Bool) (a b d : BitVec w) (c : Bool) :
    Orders a b ((opSub (elemIn signed a b d c)).nib w) := by
  have hlt := msb_sub_bne_overflow a b
  have hge : ((a - b).msb == BitVec.ssubOverflow a b) = !a.slt b := by rw [← hlt, bne, Bool.not_not]
  have hle : (a == b || a.slt b) = a.sle b := by rw [BitVec.sle_eq_slt_or_eq, Bool.or_comm]
  have hhs : b.ule a = !a.ult b := BitVec.ule_eq_not_ult b a
  have hls := ule_eq_ult_or_eq a b
  rw [nib_opSub hw]
  simp only [Orders, condTest, nibN_nibble, nibZ_nibble, nibC_nibble, nibV_nibble, hlt, hge, hle, hhs, hls, ← Bool.not_or, Bool.not_not]
  simp [bne]

theorem condTest_fpCmp (r : FpCmp) :
    condTest .mi r.nib = (r == .less) ∧ condTest .lt r.nib = (r == .less || r == .unordered) ∧ condTest .vs r.nib = (r == .unordered) := by
  cases r <;> decide

/-- A lane of FP32 is one element. -/
theorem nib_fcmpLane_f32 (a b : W32) : (fcmpLane .f32 a b).nib = ((Fmt.f32.decode a.toNat).cmp (Fmt.f32.decode b.toNat)).nib := by
  have helem (x : W32) : elemOf 32 x.toNat 0 = x.toNat := by
    rw [elemOf_toNat]
    simp [elemBits]
  have hnib (r : FpCmp) : fNib [r] = r.nib := by cases r <;> decide
  rw [← hnib]
  simp [fcmpLane, fElem, Fmt.cmp, helem]

/-- Settles O58: the nibble of a compare holds the sign, the equality, no borrow and the overflow of the difference, which order its
sources; the nibble of a floating compare is that of its outcome. -/
theorem conditionsRule : Obligations.ConditionsRule := by
  refine ⟨fun n z c v => by simp [condTest], rfl, fun ty a b _ => ?_, fun ty a b hp => ?_, fun a b => ?_, fun a b => condTest_fpCmp _⟩
  · exact nib_opSub_orders (by decide) _ a b _ _
  · change Orders a b _
    rw [intLaneRes_unpacked opSub hp]
    exact nib_opSub_orders (by decide) _ a b _ _
  · simp only [nib_fcmpLane_f32]
    exact condTest_fpCmp _

end Sys2Proof.LanesInteger
end

section
/-!
PROOF. The entry of a barrier (chapter 11): what its check leaves, the steps that end with the check, and the distance of its phase.
-/
namespace Sys2Proof.BarrierEntry
open Sys2Proof Sys2Proof.Machine Sys2Proof.Claims

/-! ## Completion and check (R221) -/

theorem completed_engineError (b : Barrier) (code : Nat) : Completed b (b.engineError code) code :=
  ⟨rfl, rfl, rfl, rfl, rfl, rfl, rfl, rfl, rfl, rfl⟩

theorem check_of_not_met {b : Barrier} (h : ¬Met b) : b.check = b := if_neg h

/-- A check that completes the phase is the step of an engine's error, with OVERRUN or the error that stood. -/
theorem check_of_met {b : Barrier} (h : Met b) : b.check = b.engineError (if b.err = 0 ∧ b.expB < b.cntB then 1 else b.err) := by
  refine (if_pos h).trans ?_
  by_cases hover : b.err = 0 ∧ b.expB < b.cntB
  · rw [if_pos hover, if_pos hover.symm]
    rfl
  · rw [if_neg hover, if_neg (mt And.symm hover)]
    rfl

theorem checked_check (b : Barrier) : Checked b b.check :=
  ⟨fun h => check_of_met h ▸ completed_engineError b _, check_of_not_met⟩

/-! ## Arrivals (R221) -/

theorem arrive_excess {b : Barrier} (h : b.cntA = b.expA) (tid : Nat) (ops : List Nat) :
    b.arrive tid ops = { b with err := if b.err = 0 then 3 else b.err }.check := by rw [Barrier.arrive, if_pos h]

theorem arrive_counted {b : Barrier} (h : b.cntA ≠ b.expA) (tid : Nat) (ops : List Nat) :
    b.arrive tid ops = { b with cntA := b.cntA + 1, arr := b.arr ++ [tid], rel := b.rel ++ ops }.check := by
  rw [Barrier.arrive, if_neg h]

/-! ## The distance of PHASE (R223, R224) -/

/-- PHASE wraps at 2^16: a phase with a greater number than PHASE belongs to the round before (R223). -/
theorem phase_distance {phase p : Nat} (hphase : phase < 2 ^ 16) (hp : p < 2 ^ 16) :
    (phase + 2 ^ 16 - p % 2 ^ 16) % 2 ^ 16 = if p ≤ phase then phase - p else phase + 2 ^ 16 - p := by
  split <;> omega

/-- The table of R223, and the releases of R224: the completed phases, less those after the phase that is asked for. -/
theorem status_releases_of_distance (b : Barrier) (p : Nat) {diff : Nat} (hdiff : (b.phase + 2 ^ 16 - p % 2 ^ 16) % 2 ^ 16 = diff) :
    ((diff = 0 ∨ 2 ^ 15 ≤ diff) → b.status p = none) ∧ (diff = 1 → b.status p = some b.lastErr) ∧
    (2 ≤ diff → diff < 2 ^ 15 → b.status p = some 2) ∧ b.releases p = (b.done.take (b.done.length + 1 - diff)).flatten := by
  simp only [Barrier.status, Barrier.releases, hdiff]
  refine ⟨fun hopen => if_pos hopen, fun hlast => ?_, fun hlow hhigh => ?_, trivial⟩
  · rw [if_neg (by omega), if_pos hlast]
  · rw [if_neg (by omega), if_neg (by omega)]

/-- Settles O59: an arrival, a credit and a BEXP are each a change of the entry and its check, which completes the phase or leaves the entry;
the status and the releases of a phase are those of its distance from PHASE. -/
theorem barrierPhaseRule : Obligations.BarrierPhaseRule := by
  refine fun b => ⟨fun tid ops => ⟨fun h => ?_, fun h => ?_⟩, fun n ops => ⟨checked_check _, checked_check _⟩,
    completed_engineError b, fun p hp hphase => ?_⟩
  · exact arrive_excess h tid ops ▸ checked_check _
  · exact arrive_counted h tid ops ▸ checked_check _
  · obtain ⟨hopen, hlast, haged, hreleases⟩ := status_releases_of_distance b p (phase_distance hphase hp)
    exact ⟨hopen, hlast, haged, fun _ => hreleases⟩

end Sys2Proof.BarrierEntry
end

section
/-!
PROOF. The encoding (chapter 2): the codes of registers, sources and modifiers; the fields of an assembled word; what the decoder reads
from the words of an instruction, and what the words are from which it reads one.
-/
namespace Sys2Proof.Encoding
open Sys2Proof Sys2Proof.Laws

/-! ## Codes of registers and sources (R20, R24) -/

theorem ofCode_code (r : Reg) : Reg.ofCode r.code = some r := by
  cases r with
  | v n => simp [Reg.code, Reg.ofCode]
  | s n => simp [Reg.code, Reg.ofCode]
  | _ => rfl

theorem ofCode_eq_some {c : Nat} {r : Reg} : Reg.ofCode c = some r ↔ c = r.code := by
  refine ⟨fun h => ?_, fun h => h ▸ ofCode_code r⟩
  unfold Reg.ofCode at h
  split at h
  · obtain rfl := Option.some.inj h
    rfl
  split at h
  · obtain rfl := Option.some.inj h
    simp only [Reg.code]
    omega
  split at h
  all_goals try (obtain rfl := Option.some.inj h; simp only [Reg.code]; omega)
  cases h

theorem regCode_lt (r : Reg) : r.code < 126 := by
  cases r <;> simp only [Reg.code] <;> omega

theorem srcCode_lt (p : Src) : p.code < 127 := by
  cases p with
  | reg r => exact (regCode_lt r).trans (by decide)
  | lit w => exact Nat.lt_succ_self _

@[simp] theorem badD_regCode (r : Reg) : badD r.code = false := by
  have := regCode_lt r
  simp only [badD, Bool.or_eq_false_iff, beq_eq_false_iff_ne]
  omega

@[simp] theorem badS_srcCode (p : Src) : badS p.code = false := by
  have := srcCode_lt p
  simp only [badS, beq_eq_false_iff_ne]
  omega

theorem scalarCode_code (r : Reg) : scalarCode r.code = r.scalarDest := by
  cases r <;> simp [scalarCode, Reg.code, Reg.scalarDest]
  all_goals omega

theorem vecCode_code (p : Src) : vecCode p.code = p.vecClass := by
  rw [Bool.eq_iff_iff]
  rcases p with (_ | _ | _) | _ <;> simp [vecCode, Src.code, Reg.code, Src.vecClass]
  omega

theorem words_eq (p : Src) : p.words = b2n (p.code == 126) := by
  cases p with
  | reg r => simp [Src.words, Src.code, b2n, (regCode_lt r).ne]
  | lit w => rfl

/-! ## Reading source fields (R25) -/

@[simp] theorem srcField_code (p : Src) (x : List W32) : srcField p.code (p.lits ++ x) = some (p, x) := by
  cases p with
  | reg r => simp [srcField, Src.code, Src.lits, (regCode_lt r).ne, ofCode_code]
  | lit w => rfl

theorem srcField_eq_some {c : Nat} {x y : List W32} {p : Src} : srcField c x = some (p, y) ↔ c = p.code ∧ x = p.lits ++ y := by
  refine ⟨fun h => ?_, fun ⟨hc, hx⟩ => hc ▸ hx ▸ srcField_code p y⟩
  unfold srcField at h
  split at h
  case isTrue hc =>
    cases x with
    | nil => cases h
    | cons w r =>
      cases h
      exact ⟨hc, rfl⟩
  case isFalse hc =>
    split at h
    case h_1 r hr =>
      cases h
      exact ⟨ofCode_eq_some.1 hr, rfl⟩
    case h_2 => cases h

theorem src1_eq_some {a : Nat} {x : List W32} {f : Src → Instr} {i : Instr} :
    src1 a x f = some i ↔ ∃ p : Src, a = p.code ∧ p.lits <+: x ∧ f p = i := by
  constructor
  · intro h
    unfold src1 at h
    split at h
    · obtain ⟨ha, hx⟩ := srcField_eq_some.1 ‹_›
      exact ⟨_, ha, ⟨_, hx.symm⟩, Option.some.inj h⟩
    · cases h
  · rintro ⟨p, rfl, ⟨y, rfl⟩, rfl⟩
    simp [src1]

theorem src2_eq_some {a b : Nat} {x : List W32} {f : Src → Src → Instr} {i : Instr} :
    src2 a b x f = some i ↔ ∃ p q : Src, a = p.code ∧ b = q.code ∧ p.lits ++ q.lits <+: x ∧ f p q = i := by
  constructor
  · intro h
    unfold src2 at h
    split at h
    · obtain ⟨ha, rfl⟩ := srcField_eq_some.1 ‹_›
      split at h
      · obtain ⟨hb, rfl⟩ := srcField_eq_some.1 ‹_›
        exact ⟨_, _, ha, hb, ⟨_, List.append_assoc _ _ _⟩, Option.some.inj h⟩
      · cases h
    · cases h
  · rintro ⟨p, q, rfl, rfl, ⟨y, rfl⟩, rfl⟩
    simp [src2]

theorem src3_eq_some {d a b : Nat} {x : List W32} {f : Src → Src → Src → Instr} {i : Instr} :
    src3 d a b x f = some i ↔
      ∃ o p q : Src, d = o.code ∧ a = p.code ∧ b = q.code ∧ o.lits ++ (p.lits ++ q.lits) <+: x ∧ f o p q = i := by
  constructor
  · intro h
    unfold src3 at h
    split at h
    · obtain ⟨hd, rfl⟩ := srcField_eq_some.1 ‹_›
      obtain ⟨p, q, ha, hb, hx, hi⟩ := src2_eq_some.1 h
      exact ⟨_, p, q, hd, ha, hb, List.prefix_append_right_inj _ |>.2 hx, hi⟩
    · cases h
  · rintro ⟨o, p, q, rfl, rfl, rfl, ⟨y, rfl⟩, rfl⟩
    simp [src3, src2]

theorem dst_eq_some {d : Nat} {f : Reg → Option Instr} {i : Instr} : dst d f = some i ↔ ∃ r : Reg, d = r.code ∧ f r = some i := by
  constructor
  · intro h
    unfold dst at h
    split at h
    · exact ⟨_, ofCode_eq_some.1 ‹_›, h⟩
    · cases h
  · rintro ⟨r, rfl, h⟩
    simp [dst, ofCode_code, h]

theorem outcome_eq_ok {ill rsv : Bool} {o : Option Instr} {i : Instr} :
    outcome ill rsv o = .ok i ↔ ill = false ∧ rsv = false ∧ o = some i := by
  cases ill <;> cases rsv <;> cases o <;> simp [outcome]

@[simp] theorem dst_code (r : Reg) (f : Reg → Option Instr) : dst r.code f = f r := by simp [dst, ofCode_code]

@[simp] theorem src1_code (p : Src) (x : List W32) (f : Src → Instr) : src1 p.code (p.lits ++ x) f = some (f p) := by simp [src1]

@[simp] theorem src2_code (p q : Src) (x : List W32) (f : Src → Src → Instr) :
    src2 p.code q.code (p.lits ++ (q.lits ++ x)) f = some (f p q) := by simp [src2]

@[simp] theorem src3_code (o p q : Src) (x : List W32) (f : Src → Src → Src → Instr) :
    src3 o.code p.code q.code (o.lits ++ (p.lits ++ (q.lits ++ x))) f = some (f o p q) := by simp [src3]

@[simp] theorem outcome_ok (i : Instr) : outcome false false (some i) = .ok i := rfl

/-! ## Codes of modifiers -/

/-- The codes of a modifier are the numbers below a bound, each of one value. -/
structure Codes {α : Type} (ofCode : Nat → α) (code : α → Nat) (n : Nat) : Prop where
  lt : ∀ t, code t < n
  decode : ∀ t, ofCode (code t) = t
  encode : ∀ m < n, code (ofCode m) = m

theorem codes_flag : Codes flagOf b2n 2 := ⟨by decide, by decide, by decide⟩
theorem codes_intTy : Codes IntTy.ofCode IntTy.code 4 := ⟨by rintro ⟨⟩ <;> decide, by rintro ⟨⟩ <;> rfl, by decide⟩
theorem codes_fTy : Codes FTy.ofCode FTy.code 3 := ⟨by rintro ⟨⟩ <;> decide, by rintro ⟨⟩ <;> rfl, by decide⟩
theorem codes_cond : Codes Cond.ofCode Cond.code 16 := ⟨by rintro ⟨⟩ <;> decide, by rintro ⟨⟩ <;> rfl, by decide⟩
theorem codes_width : Codes Width.ofCode Width.code 6 := ⟨by rintro ⟨⟩ <;> decide, by rintro ⟨⟩ <;> rfl, by decide⟩
theorem codes_atomOp : Codes AtomOp.ofCode AtomOp.code 8 := ⟨by rintro ⟨⟩ <;> decide, by rintro ⟨⟩ <;> rfl, by decide⟩
theorem codes_sfu : Codes Sfu.ofCode Sfu.code 6 := ⟨by rintro ⟨⟩ <;> decide, by rintro ⟨⟩ <;> rfl, by decide⟩
theorem codes_rm : Codes Rm.ofCode Rm.code 5 := ⟨by rintro ⟨⟩ <;> decide, by rintro ⟨⟩ <;> rfl, by decide⟩
theorem codes_shflMode : Codes ShflMode.ofCode ShflMode.code 4 := ⟨by rintro ⟨⟩ <;> decide, by rintro ⟨⟩ <;> rfl, by decide⟩
theorem codes_dotK : Codes DotK.ofCode DotK.code 3 := ⟨by rintro ⟨⟩ <;> decide, by rintro ⟨⟩ <;> rfl, by decide⟩
theorem codes_trdQ : Codes TrdQ.ofCode TrdQ.code 3 := ⟨by rintro ⟨⟩ <;> decide, by rintro ⟨⟩ <;> rfl, by decide⟩
theorem codes_twrQ : Codes TwrQ.ofCode TwrQ.code 3 := ⟨by rintro ⟨⟩ <;> decide, by rintro ⟨⟩ <;> rfl, by decide⟩
theorem codes_tileLevel : Codes TileLevel.ofCode TileLevel.code 3 := ⟨by rintro ⟨⟩ <;> decide, by rintro ⟨⟩ <;> rfl, by decide⟩
theorem codes_fenceKind : Codes FenceKind.ofCode FenceKind.code 3 := ⟨by rintro ⟨⟩ <;> decide, by rintro ⟨⟩ <;> rfl, by decide⟩
theorem codes_reqKind : Codes ReqKind.ofCode ReqKind.code 3 := ⟨by rintro ⟨⟩ <;> decide, by rintro ⟨⟩ <;> rfl, by decide⟩
theorem codes_pol : Codes Pol.ofCode Pol.code 3 := ⟨by rintro ⟨⟩ <;> decide, by rintro ⟨⟩ <;> rfl, by decide⟩
theorem codes_pickOp : Codes PickOp.ofCode PickOp.code 3 := ⟨by rintro ⟨⟩ <;> decide, by rintro ⟨⟩ <;> rfl, by decide⟩
theorem codes_tlbK : Codes TlbK.ofCode TlbK.code 4 := ⟨by rintro ⟨⟩ <;> decide, by rintro ⟨⟩ <;> rfl, by decide⟩
theorem codes_deadK : Codes DeadK.ofCode DeadK.code 3 := ⟨by rintro ⟨⟩ <;> decide, by rintro ⟨⟩ <;> rfl, by decide⟩
theorem codes_mmaMode : Codes MmaMode.ofCode MmaMode.code 2 := ⟨by rintro ⟨⟩ <;> decide, by rintro ⟨⟩ <;> rfl, by decide⟩

/-! ## The fields of an assembled word (R17, R18) -/

theorem asmAC_fields {cls op m d a b : Nat} (hc : cls < 4) (ho : op < 64) (hm : m < 8) (hd : d < 128) (ha : a < 128) (hb : b < 128) :
    let w := (asmAC cls op m d a b).toNat
    bits w 31 30 = cls ∧ bits w 29 24 = op ∧ bits w 23 21 = m ∧ bits w 20 14 = d ∧ bits w 13 7 = a ∧ bits w 6 0 = b := by
  simp only [asmAC, bits, BitVec.toNat_ofNat]
  omega

theorem asmB_fields {op d a k : Nat} (ho : op < 32) (hd : d < 128) (ha : a < 128) (hk : k < 2048) :
    let w := (asmB op d a k).toNat
    bits w 31 30 = 1 ∧ bits w 29 25 = op ∧ bits w 24 18 = d ∧ bits w 17 11 = a ∧ bits w 10 0 = k := by
  simp only [asmB, bits, BitVec.toNat_ofNat]
  omega

theorem decode_asmA {op m d a b : Nat} (x : List W32) (ho : op < 64) (hm : m < 8) (hd : d < 128) (ha : a < 128) (hb : b < 128) :
    decode (asmAC 0 op m d a b :: x) = decodeA op m d a b x := by
  obtain ⟨hcls, hop, hmod, hdst, hsrcA, hsrcB⟩ := asmAC_fields (by decide : 0 < 4) ho hm hd ha hb
  simp only [decode, decodeWord, hcls, hop, hmod, hdst, hsrcA, hsrcB]

theorem decode_asmC {op m d a b : Nat} (x : List W32) (ho : op < 64) (hm : m < 8) (hd : d < 128) (ha : a < 128) (hb : b < 128) :
    decode (asmAC 2 op m d a b :: x) = decodeC op m d a b x := by
  obtain ⟨hcls, hop, hmod, hdst, hsrcA, hsrcB⟩ := asmAC_fields (by decide : 2 < 4) ho hm hd ha hb
  simp only [decode, decodeWord, hcls, hop, hmod, hdst, hsrcA, hsrcB]

theorem decode_asmB {op d a k : Nat} (x : List W32) (ho : op < 32) (hd : d < 128) (ha : a < 128) (hk : k < 2048) :
    decode (asmB op d a k :: x) = decodeB op d a k x := by
  obtain ⟨hcls, hop, hdst, hsrc, himm⟩ := asmB_fields ho hd ha hk
  simp only [decode, decodeWord, hcls, hop, hdst, hsrc, himm]

/-- A word is the one assembled from its fields. -/
theorem asmAC_bits {w : W32} {cls : Nat} (h : bits w.toNat 31 30 = cls) :
    asmAC cls (bits w.toNat 29 24) (bits w.toNat 23 21) (bits w.toNat 20 14) (bits w.toNat 13 7) (bits w.toNat 6 0) = w := by
  subst h
  apply BitVec.eq_of_toNat_eq
  simp only [asmAC, bits, BitVec.toNat_ofNat]
  have := w.isLt
  omega

theorem asmB_bits {w : W32} (h : bits w.toNat 31 30 = 1) :
    asmB (bits w.toNat 29 25) (bits w.toNat 24 18) (bits w.toNat 17 11) (bits w.toNat 10 0) = w := by
  apply BitVec.eq_of_toNat_eq
  simp only [asmB, bits, BitVec.toNat_ofNat] at *
  have := w.isLt
  omega

theorem bits_lt (w hi lo : Nat) : bits w hi lo < 2 ^ (hi + 1 - lo) := Nat.mod_lt _ (Nat.two_pow_pos _)

section
variable {α : Type} {ofCode : Nat → α} {code : α → Nat} {n : Nat} (h : Codes ofCode code n) (t : α)
include h

theorem Codes.ble : Nat.ble n (code t) = false := by
  have := h.lt t
  simp only [← Bool.not_eq_true, Nat.ble_eq]
  omega

/-- A code in mod3[1:0] below a clear bit mod3[2]. -/
theorem Codes.low (hn : n ≤ 4) : code t / 4 = 0 ∧ code t % 4 = code t := by
  have := h.lt t
  omega

/-- A code in mod3[1:0] below a flag in mod3[2]. -/
theorem Codes.flagged (hn : n ≤ 4) (c : Bool) :
    (b2n c * 4 + code t) / 4 = b2n c ∧ (b2n c * 4 + code t) % 4 = code t ∧ b2n c * 4 + code t < 8 := by
  have := h.lt t
  have := codes_flag.lt c
  omega

theorem Codes.beq : (code t == n) = false := beq_false_of_ne (h.lt t).ne

end

/-- A number of two bits in mod3[1:0] below a flag in mod3[2]. -/
theorem flagged_fin (c : Bool) (k : Fin 4) :
    (b2n c * 4 + k.val) / 4 = b2n c ∧ Fin.ofNat 4 (b2n c * 4 + k.val) = k ∧ b2n c * 4 + k.val < 8 := by
  have := codes_flag.lt c
  refine ⟨by omega, Fin.ext ?_, by omega⟩
  simp

theorem ble_intTy (t : IntTy) : Nat.ble 2 t.code = t.packed := by cases t <;> rfl

theorem notOkPacked {m : IntMod} {d : Reg} (h : m.okPacked d = true) : (m.ty.packed && d.scalarDest) = false := by
  simpa only [IntMod.okPacked, Bool.not_eq_true'] using h

theorem regCode_lt_field (r : Reg) : r.code < 128 := (regCode_lt r).trans (by decide)
theorem srcCode_lt_field (p : Src) : p.code < 128 := (srcCode_lt p).trans (by decide)

section
variable {op m k b : Nat} (d : Reg) (o p q : Src) (x : List W32)

theorem decode_encA (ho : op < 64) (hm : m < 8) :
    decode (encA op m d p q ++ x) = decodeA op m d.code p.code q.code (p.lits ++ (q.lits ++ x)) := by
  rw [encA, List.cons_append, List.append_assoc,
    decode_asmA _ ho hm (regCode_lt_field d) (srcCode_lt_field p) (srcCode_lt_field q)]

theorem decode_encA1 (ho : op < 64) (hm : m < 8) (hb : b < 128) :
    decode (encA1 op m d p b ++ x) = decodeA op m d.code p.code b (p.lits ++ x) := by
  rw [encA1, List.cons_append, decode_asmA _ ho hm (regCode_lt_field d) (srcCode_lt_field p) hb]

theorem decode_encA0 (ho : op < 64) (hm : m < 8) :
    decode (encA0 op m p q ++ x) = decodeA op m 0 p.code q.code (p.lits ++ (q.lits ++ x)) := by
  rw [encA0, List.cons_append, List.append_assoc, decode_asmA _ ho hm (by decide) (srcCode_lt_field p) (srcCode_lt_field q)]

theorem decode_encB (ho : op < 32) (hk : k < 2048) :
    decode (encB op d p k ++ x) = decodeB op d.code p.code k (p.lits ++ x) := by
  rw [encB, List.cons_append, decode_asmB _ ho (regCode_lt_field d) (srcCode_lt_field p) hk]

theorem decode_encC (ho : op < 64) (hm : m < 8) :
    decode (encC op m d p q ++ x) = decodeC op m d.code p.code q.code (p.lits ++ (q.lits ++ x)) := by
  rw [encC, List.cons_append, List.append_assoc,
    decode_asmC _ ho hm (regCode_lt_field d) (srcCode_lt_field p) (srcCode_lt_field q)]

theorem decode_encC1 (ho : op < 64) (hm : m < 8) (hb : b < 128) :
    decode (encC1 op m d p b ++ x) = decodeC op m d.code p.code b (p.lits ++ x) := by
  rw [encC1, List.cons_append, decode_asmC _ ho hm (regCode_lt_field d) (srcCode_lt_field p) hb]

theorem decode_encC3 (ho : op < 64) (hm : m < 8) :
    decode (encC3 op m o p q ++ x) = decodeC op m o.code p.code q.code (o.lits ++ (p.lits ++ (q.lits ++ x))) := by
  rw [encC3, List.cons_append, List.append_assoc, List.append_assoc,
    decode_asmC _ ho hm (srcCode_lt_field o) (srcCode_lt_field p) (srcCode_lt_field q)]

end

/-- The fields of the operand word of MMA (R205). -/
theorem mmaWord_fields (t : MmaMode) (k f : BitVec 7) :
    let w := (BitVec.ofNat 32 (t.code * 16384 + k.toNat * 128 + f.toNat)).toNat
    w / 16384 % 4 = t.code ∧ w / 128 % 128 = k.toNat ∧ w % 128 = f.toNat ∧ w / 65536 = 0 := by
  have ht := codes_mmaMode.lt t
  simp only [BitVec.toNat_ofNat]
  omega

theorem decode_header (h : Header) (x : List W32) :
    decode (BitVec.ofNat 32 (3 * 2 ^ 30 + h.wait.toNat * 2 ^ 18 + h.setA.toNat * 2 ^ 14 + h.setB.toNat * 2 ^ 10 +
      h.len.toNat * 2 ^ 6 + h.bt.toNat * 2 ^ 4 + h.hint.toNat * 2 ^ 2 + h.rsv.toNat) :: x) = .ok (.clauseStart h) := by
  obtain ⟨wait, setA, setB, len, bt, hint, rsv⟩ := h
  generalize hw : BitVec.ofNat 32 _ = w
  have hfields : bits w.toNat 31 30 = 3 ∧ bits w.toNat 29 18 = wait.toNat ∧ bits w.toNat 17 14 = setA.toNat ∧
      bits w.toNat 13 10 = setB.toNat ∧ bits w.toNat 9 6 = len.toNat ∧ bits w.toNat 5 4 = bt.toNat ∧ bits w.toNat 3 2 = hint.toNat ∧
      bits w.toNat 1 0 = rsv.toNat := by
    simp only [← hw, bits, BitVec.toNat_ofNat]
    omega
  obtain ⟨hcls, h1, h2, h3, h4, h5, h6, h7⟩ := hfields
  simp only [decode, decodeWord, decodeH, hcls, h1, h2, h3, h4, h5, h6, h7, BitVec.ofNat_toNat, BitVec.setWidth_eq]

/-! ## What the decoder reads from the words of an instruction -/

section
variable {op : Nat} {d : Reg} {p q : Src} {x : List W32}

theorem decode_intPacked {f : IntMod → Reg → Src → Src → Instr} {m : IntMod} (ho : op < 64)
    (hdec : ∀ m d a b x, decodeA op m d a b x = intPacked f m d a b x) (h : m.okPacked d = true) :
    decode (encA op m.code d p q ++ x) = .ok (f m d p q) := by
  obtain ⟨hdiv, hmod, hlt⟩ := codes_intTy.flagged m.ty (by decide) m.cc
  rw [IntMod.code, decode_encA d p q x ho hlt, hdec, intPacked, hdiv, hmod]
  simp [codes_flag.decode, codes_intTy.decode, scalarCode_code, ble_intTy, notOkPacked h]

theorem decode_intPlain {f : IntMod → Reg → Src → Src → Instr} {m : IntMod} (ho : op < 64)
    (hdec : ∀ m d a b x, decodeA op m d a b x = intPlain f m d a b x) (h : m.okPlain = true) :
    decode (encA op m.code d p q ++ x) = .ok (f m d p q) := by
  obtain ⟨hdiv, hmod, hlt⟩ := codes_intTy.flagged m.ty (by decide) m.cc
  have hplain : m.ty.packed = false := by simpa only [IntMod.okPlain, Bool.not_eq_true'] using h
  rw [IntMod.code, decode_encA d p q x ho hlt, hdec, intPlain, hdiv, hmod]
  simp [codes_flag.decode, codes_intTy.decode, ble_intTy, hplain]

theorem decode_intUnary {f : IntMod → Reg → Src → Instr} {m : IntMod} (ho : op < 64)
    (hdec : ∀ m d a b x, decodeA op m d a b x = intUnary f m d a b x) (h : m.okPacked d = true) :
    decode (encA1 op m.code d p 0 ++ x) = .ok (f m d p) := by
  obtain ⟨hdiv, hmod, hlt⟩ := codes_intTy.flagged m.ty (by decide) m.cc
  rw [IntMod.code, decode_encA1 d p x ho hlt (by decide), hdec, intUnary, hdiv, hmod]
  simp [codes_flag.decode, codes_intTy.decode, scalarCode_code, ble_intTy, notOkPacked h]

theorem decode_fpBinary {f : FMod → Reg → Src → Src → Instr} {m : FMod} (ho : op < 64)
    (hdec : ∀ m d a b x, decodeA op m d a b x = fpBinary f m d a b x) :
    decode (encA op m.code d p q ++ x) = .ok (f m d p q) := by
  obtain ⟨hdiv, hmod, hlt⟩ := codes_fTy.flagged m.ty (by decide) m.cc
  rw [FMod.code, decode_encA d p q x ho hlt, hdec, fpBinary, hdiv, hmod]
  simp [codes_flag.decode, codes_fTy.decode, codes_fTy.beq]

theorem decode_dpBinary {f : Bool → Reg → Src → Src → Instr} {c : Bool} (ho : op < 64)
    (hdec : ∀ m d a b x, decodeA op m d a b x = dpBinary f m d a b x) :
    decode (encA op (b2n c * 4) d p q ++ x) = .ok (f c d p q) := by
  have hlt := codes_flag.lt c
  rw [decode_encA d p q x ho (by omega), hdec, dpBinary]
  simp [codes_flag.decode]

theorem decode_lgBinary {f : FTy → Reg → Src → Src → Instr} {t : FTy} (ho : op < 64)
    (hdec : ∀ m d a b x, decodeA op m d a b x = lgBinary f m d a b x) :
    decode (encA op t.code d p q ++ x) = .ok (f t d p q) := by
  obtain ⟨hdiv, hmod⟩ := codes_fTy.low t (by decide)
  rw [decode_encA d p q x ho (by omega), hdec, lgBinary, hdiv, hmod]
  simp [codes_fTy.decode, codes_fTy.beq]

theorem decode_packUnary {f : Reg → Src → Instr} (ho : op < 64) (hdec : ∀ m d a b x, decodeA op m d a b x = packUnary f m d a b x) :
    decode (encA1 op 0 d p 0 ++ x) = .ok (f d p) := by
  rw [decode_encA1 d p x ho (by decide) (by decide), hdec]
  simp [packUnary]

theorem decode_immBinary {f : Reg → Src → BitVec 11 → Instr} {k : BitVec 11} (ho : op < 32)
    (hdec : ∀ d a k x, decodeB op d a k x = immBinary f d a k x) : decode (encB op d p k.toNat ++ x) = .ok (f d p k) := by
  rw [decode_encB d p x ho k.isLt, hdec]
  simp [immBinary]

theorem decode_immShift {f : Reg → Src → BitVec 6 → Instr} {k : BitVec 6} (ho : op < 32)
    (hdec : ∀ d a k x, decodeB op d a k x = immShift f d a k x) : decode (encB op d p k.toNat ++ x) = .ok (f d p k) := by
  have hk := k.isLt
  rw [decode_encB d p x ho (by omega), hdec]
  simp [immShift, Nat.div_eq_of_lt hk]

theorem decode_immOnly {f : BitVec 11 → Instr} {k : BitVec 11} (ho : op < 32) (hdec : ∀ d a k x, decodeB op d a k x = immOnly f d a k) :
    decode ([asmB op 0 0 k.toNat] ++ x) = .ok (f k) := by
  rw [List.singleton_append, decode_asmB x ho (by decide) (by decide) k.isLt, hdec]
  simp [immOnly]

theorem decode_noField {i : Instr} (ho : op < 32) (hdec : ∀ d a k x, decodeB op d a k x = noField i d a k) :
    decode ([asmB op 0 0 0] ++ x) = .ok i := by
  rw [List.singleton_append, decode_asmB x ho (by decide) (by decide) (by decide), hdec]
  rfl

theorem decode_loadC {f : Width → Reg → Src → Src → Instr} {t : Width} (ho : op < 64)
    (hdec : ∀ m d a b x, decodeC op m d a b x = loadC f m d a b x) : decode (encC op t.code d p q ++ x) = .ok (f t d p q) := by
  have hlt := codes_width.lt t
  rw [decode_encC d p q x ho (by omega), hdec, loadC]
  simp [codes_width.decode, codes_width.ble]

theorem decode_storeC {f : Width → Src → Src → Src → Instr} {t : Width} {o : Src} (ho : op < 64)
    (hdec : ∀ m d a b x, decodeC op m d a b x = storeC f m d a b x) : decode (encC3 op t.code o p q ++ x) = .ok (f t o p q) := by
  have hlt := codes_width.lt t
  rw [decode_encC3 o p q x ho (by omega), hdec, storeC]
  simp [codes_width.decode, codes_width.ble]

theorem decode_atomC {f : AtomOp → Reg → Src → BitVec 7 → Instr} {t : AtomOp} {k : BitVec 7} (ho : op < 64)
    (hdec : ∀ m d a b x, decodeC op m d a b x = atomC f m d a b x) : decode (encC1 op t.code d p k.toNat ++ x) = .ok (f t d p k) := by
  rw [decode_encC1 d p x ho (codes_atomOp.lt t) k.isLt, hdec, atomC]
  simp [codes_atomOp.decode]

theorem decode_dabC {f : Reg → Src → Src → Instr} (ho : op < 64) (hdec : ∀ m d a b x, decodeC op m d a b x = dabC f m d a b x) :
    decode (encC op 0 d p q ++ x) = .ok (f d p q) := by
  rw [decode_encC d p q x ho (by decide), hdec]
  simp [dabC]

theorem decode_daC {f : Reg → Src → Instr} (ho : op < 64) (hdec : ∀ m d a b x, decodeC op m d a b x = daC f m d a b x) :
    decode (encC1 op 0 d p 0 ++ x) = .ok (f d p) := by
  rw [decode_encC1 d p x ho (by decide) (by decide), hdec]
  simp [daC]

theorem decode_aC {f : Src → Instr} (ho : op < 64) (hdec : ∀ m d a b x, decodeC op m d a b x = aC f m d a b x) :
    decode (asmAC 2 op 0 0 p.code 0 :: p.lits ++ x) = .ok (f p) := by
  rw [List.cons_append, decode_asmC _ ho (by decide) (by decide) (srcCode_lt_field p) (by decide), hdec]
  simp [aC]

theorem decode_dC {f : Reg → Instr} (ho : op < 64) (hdec : ∀ m d a b x, decodeC op m d a b x = dC f m d a b) :
    decode ([asmAC 2 op 0 d.code 0 0] ++ x) = .ok (f d) := by
  rw [List.singleton_append, decode_asmC _ ho (by decide) (regCode_lt_field d) (by decide) (by decide), hdec]
  simp [dC]

theorem decode_flagDa {f : Bool → Reg → Src → Instr} {c : Bool} (ho : op < 64)
    (hdec : ∀ m d a b x, decodeC op m d a b x = flagDa f m d a b x) : decode (encC1 op (b2n c) d p 0 ++ x) = .ok (f c d p) := by
  have hlt := codes_flag.lt c
  rw [decode_encC1 d p x ho (by omega) (by decide), hdec, flagDa, Nat.div_eq_of_lt hlt, Nat.mod_eq_of_lt hlt]
  simp [codes_flag.decode]

end

theorem decode_encode {i : Instr} (x : List W32) (he : i.encoded = true) (hw : i.wf = true) : decode (encode i ++ x) = .ok i := by
  cases i with
  | add | sub | mul | mulh | mad | min | max | absd | and | or | xor | andn | shl | shr | sar | rot | adds | subs =>
    exact decode_intPacked (by decide) (fun _ _ _ _ _ => rfl) hw
  | addc | subb | div | rem | bfe | bfi | ext => exact decode_intPlain (by decide) (fun _ _ _ _ _ => rfl) hw
  | popc | clz | brev | mov => exact decode_intUnary (by decide) (fun _ _ _ _ _ => rfl) hw
  | fadd | fsub | fmul | ffma | fmin | fmax | fdiv => exact decode_fpBinary (by decide) fun _ _ _ _ _ => rfl
  | dadd | dmul | dfma => exact decode_dpBinary (by decide) fun _ _ _ _ _ => rfl
  | quant | deq => exact decode_lgBinary (by decide) fun _ _ _ _ _ => rfl
  | pack | unpk => exact decode_packUnary (by decide) fun _ _ _ _ _ => rfl
  | addi | andi | ori | xori | movhi | lds => exact decode_immBinary (by decide) fun _ _ _ _ => rfl
  | shli | shri | sari => exact decode_immShift (by decide) fun _ _ _ _ => rfl
  | jmp | call | joinat | winbase | mhint | trap | brkpt => exact decode_immOnly (by decide) fun _ _ _ _ => rfl
  | ret | join | exit | nop => exact decode_noField (by decide) fun _ _ _ _ => rfl
  | ld | ldstr => exact decode_loadC (by decide) fun _ _ _ _ _ => rfl
  | st | ststr => exact decode_storeC (by decide) fun _ _ _ _ _ => rfl
  | atom | atom64 => exact decode_atomC (by decide) fun _ _ _ _ _ => rfl
  | binit | bwait | btest | dbgwr | ckpt => exact decode_dabC (by decide) fun _ _ _ _ _ => rfl
  | tstat | enq | pusht | steal => exact decode_daC (by decide) fun _ _ _ _ _ => rfl
  | tfree | gang | cont | binv => exact decode_aC (by decide) fun _ _ _ _ _ => rfl
  | popt | rdcurve => exact decode_dC (by decide) fun _ _ _ _ _ => rfl
  | barv | bstat | dbgrd | evrd => exact decode_flagDa (by decide) fun _ _ _ _ _ => rfl
  | cmp t p q =>
    obtain ⟨hdiv, hmod⟩ := codes_intTy.low t (by decide)
    rw [encode_cmp, decode_encA0 p q x (by decide) (by omega)]
    have hill : (t.packed && !p.vecClass && !q.vecClass) = false := by
      revert hw
      cases ht : t.packed <;> cases hp : p.vecClass <;> cases hq : q.vecClass <;> simp [Instr.wf, ht, hp, hq]
    simp [decodeA, hdiv, hmod, ble_intTy, vecCode_code, codes_intTy.decode, hill]
  | sel c d p q =>
    have hlt : c.code < 8 := by cases c <;> simp_all [Instr.wf, Cond.code]
    rw [encode_sel, decode_encA d p q x (by decide) hlt]
    simp [decodeA, codes_cond.decode]
  | fcmp t p q =>
    obtain ⟨hdiv, hmod⟩ := codes_fTy.low t (by decide)
    rw [encode_fcmp, decode_encA0 p q x (by decide) (by omega)]
    simp [decodeA, hdiv, hmod, codes_fTy.beq, codes_fTy.decode]
  | fsqrt m d p =>
    obtain ⟨hdiv, hmod, hlt⟩ := codes_fTy.flagged m.ty (by decide) m.cc
    rw [encode_fsqrt, FMod.code, decode_encA1 d p x (by decide) hlt (by decide)]
    simp [decodeA, hdiv, hmod, codes_fTy.beq, codes_fTy.decode, codes_flag.decode]
  | fsfu f d p =>
    have hlt := codes_sfu.lt f
    rw [encode_fsfu, decode_encA1 d p x (by decide) (by omega) (by decide)]
    simp [decodeA, codes_sfu.ble, codes_sfu.decode]
  | fclass t d p =>
    obtain ⟨hdiv, hmod⟩ := codes_fTy.low t (by decide)
    rw [encode_fclass, decode_encA1 d p x (by decide) (by omega) (by decide)]
    simp [decodeA, hdiv, hmod, codes_fTy.beq, codes_fTy.decode]
  | cvt r c d p =>
    have hlt := codes_rm.lt r
    rw [encode_cvt, decode_encA1 d p x (by decide) (by omega) (by omega)]
    simp [decodeA, codes_rm.ble, codes_rm.decode]
  | dcmp p q =>
    rw [encode_dcmp, decode_encA0 p q x (by decide) (by decide)]
    simp [decodeA]
  | idot4 t d p q =>
    obtain ⟨hdiv, hmod⟩ := codes_dotK.low t (by decide)
    rw [encode_idot4, decode_encA d p q x (by decide) (by omega)]
    simp [decodeA, hdiv, hmod, codes_dotK.beq, codes_dotK.decode]
  | fdot2 t d p q =>
    rw [encode_fdot2, decode_encA d p q x (by decide) (by cases t <;> decide)]
    cases t <;> simp [decodeA, FDotK.code, FDotK.ofCode]
  | shfl t d p q =>
    have hlt := codes_shflMode.lt t
    rw [encode_shfl, decode_encA d p q x (by decide) (by omega)]
    simp [decodeA, codes_shflMode.ble, codes_shflMode.decode]
  | vote f d p =>
    cases f with
    | ballot q =>
      rw [encode_vote_ballot, decode_encA d p q x (by decide) (by decide)]
      simp [decodeA, decVote]
    | any | all | count | eq =>
      refine (decode_encA1 d p x (by decide) (by decide) (by decide)).trans ?_
      simp [decodeA, decVote]
  | rdfirst d p =>
    rw [encode_rdfirst, decode_encA1 d p x (by decide) (by decide) (by decide)]
    simp [decodeA]
  | rdlane d p q =>
    rw [encode_rdlane, decode_encA d p q x (by decide) (by decide)]
    simp [decodeA]
  | wrlane d p q =>
    rw [encode_wrlane, decode_encA d p q x (by decide) (by decide)]
    simp [decodeA]
  | ccmovRd d =>
    rw [encode_ccmovRd, List.singleton_append, decode_asmA x (by decide) (by decide) (regCode_lt_field d) (by decide) (by decide)]
    simp [decodeA, decCcmov]
  | ccmovWr p =>
    rw [encode_ccmovWr, List.cons_append, decode_asmA _ (by decide) (by decide) (by decide) (srcCode_lt_field p) (by decide)]
    simp [decodeA, decCcmov]
  | cmpi p k =>
    rw [encode_cmpi, List.cons_append, decode_asmB _ (by decide) (by decide) (srcCode_lt_field p) k.isLt]
    simp [decodeB]
  | movi d k =>
    rw [encode_movi, List.singleton_append, decode_asmB x (by decide) (regCode_lt_field d) (by decide) k.isLt]
    simp [decodeB]
  | brc c k =>
    have hlt := codes_cond.lt c
    rw [encode_brc, List.singleton_append, decode_asmB x (by decide) (by omega) (by decide) k.isLt]
    simp [decodeB, Nat.div_eq_of_lt hlt, Nat.mod_eq_of_lt hlt, codes_cond.decode]
  | loop p k w =>
    have hk := k.isLt
    rw [encode_loop, List.cons_append, decode_asmB _ (by decide) (by decide) (srcCode_lt_field p) (by omega)]
    simp_all [decodeB, decLoop, Nat.div_eq_of_lt hk, Instr.wf]
  | curve d k acc =>
    have hk := k.isLt
    have hacc := acc.isLt
    have hp : (k.toNat * 64 + acc.toNat) / 64 = k.toNat := by omega
    have ha : BitVec.ofNat 6 (k.toNat * 64 + acc.toNat) = acc := BitVec.eq_of_toNat_eq (by simp; omega)
    rw [encode_curve, List.singleton_append, decode_asmB x (by decide) (regCode_lt_field d) (by decide) (by omega)]
    have hdiv : (k.toNat * 64 + acc.toNat) / 512 = 0 := by omega
    simp [decodeB, hp, ha, hdiv]
  | sts o p k =>
    rw [encode_sts, List.cons_append, List.append_assoc,
      decode_asmB _ (by decide) (srcCode_lt_field o) (srcCode_lt_field p) k.isLt]
    simp [decodeB]
  | ldf d k =>
    rw [encode_ldf, List.singleton_append, decode_asmB x (by decide) (regCode_lt_field d) (by decide) k.isLt]
    simp [decodeB]
  | jmpr p k =>
    rw [encode_jmpr, List.cons_append, decode_asmB _ (by decide) (by decide) (srcCode_lt_field p) k.isLt]
    simp [decodeB]
  | ldacq t d p k =>
    have hlt := codes_width.lt t
    rw [encode_ldacq, decode_encC1 d p x (by decide) (by omega) k.isLt]
    simp [decodeC, codes_width.ble, codes_width.decode]
  | strel t o p k =>
    have hlt := codes_width.lt t
    rw [encode_strel, List.cons_append, List.append_assoc,
      decode_asmC _ (by decide) (by omega) (srcCode_lt_field o) (srcCode_lt_field p) k.isLt]
    simp [decodeC, codes_width.ble, codes_width.decode]
  | pref c p q =>
    have hlt := codes_flag.lt c
    rw [encode_pref, List.cons_append, List.append_assoc,
      decode_asmC _ (by decide) (by omega) (by decide) (srcCode_lt_field p) (srcCode_lt_field q)]
    simp [decodeC, codes_flag.ble, codes_flag.decode]
  | fence t k =>
    obtain ⟨hdiv, hmod⟩ := codes_fenceKind.low t (by decide)
    rw [encode_fence, List.singleton_append, decode_asmC _ (by decide) (by omega) (by decide) (by decide) k.isLt]
    simp [decodeC, hdiv, hmod, codes_fenceKind.beq, codes_fenceKind.decode]
  | qfence c k =>
    have hlt := codes_flag.lt c
    rw [encode_qfence, List.singleton_append, decode_asmC _ (by decide) (by omega) (by decide) (by decide) k.isLt]
    simp [decodeC, codes_flag.ble, codes_flag.decode]
  | talloc c t d sh =>
    obtain ⟨hdiv, hmod, hlt⟩ := codes_tileLevel.flagged t (by decide) c
    rw [encode_talloc, List.singleton_append,
      decode_asmC _ (by decide) hlt (regCode_lt_field d) (by decide) (sh.isLt.trans (by decide))]
    simp [decodeC, hdiv, hmod, codes_flag.decode, codes_tileLevel.beq, codes_tileLevel.decode, Nat.div_eq_of_lt sh.isLt]
  | trd c t d p q =>
    obtain ⟨hdiv, hmod, hlt⟩ := codes_trdQ.flagged t (by decide) c
    rw [encode_trd, decode_encC d p q x (by decide) hlt]
    simp [decodeC, hdiv, hmod, codes_flag.decode, codes_trdQ.beq, codes_trdQ.decode]
  | twr c t o p q =>
    obtain ⟨hdiv, hmod, hlt⟩ := codes_twrQ.flagged t (by decide) c
    rw [encode_twr, decode_encC3 o p q x (by decide) hlt]
    simp [decodeC, hdiv, hmod, codes_flag.decode, codes_twrQ.beq, codes_twrQ.decode]
  | copy c k p q =>
    obtain ⟨hdiv, hlow, hlt⟩ := flagged_fin c k
    rw [encode_copy, List.cons_append, List.append_assoc,
      decode_asmC _ (by decide) hlt (by decide) (srcCode_lt_field p) (srcCode_lt_field q)]
    simp [-Fin.ofNat_eq_cast, decodeC, hdiv, hlow, codes_flag.decode]
  | setshape t d p l sh =>
    obtain ⟨hdiv, hmod⟩ := codes_reqKind.low t (by decide)
    obtain ⟨-, hl⟩ := codes_pol.low l (by decide)
    have hb : (l.code * 4 + sh.val) / 4 = l.code := by omega
    have hb' : (l.code * 4 + sh.val) / 16 = 0 := by omega
    have hsh : Fin.ofNat 4 (l.code * 4 + sh.val) = sh := Fin.ext (by simp)
    rw [encode_setshape, decode_encC1 d p x (by decide) (by omega) (by omega)]
    simp [-Fin.ofNat_eq_cast, decodeC, hdiv, hmod, hb, hl, hb', hsh, codes_reqKind.beq, codes_reqKind.decode, codes_pol.beq,
      codes_pol.decode]
  | rdshape d sh =>
    rw [encode_rdshape, List.singleton_append,
      decode_asmC _ (by decide) (by decide) (regCode_lt_field d) (by decide) (sh.isLt.trans (by decide))]
    simp [decodeC, Nat.div_eq_of_lt sh.isLt]
  | mma c sh d p q t k fmt =>
    obtain ⟨hdiv, hlow, hlt⟩ := flagged_fin c sh
    obtain ⟨hmode, hidx, hfmt, hhigh⟩ := mmaWord_fields t k fmt
    rw [encode_mma, List.cons_append, List.cons_append, List.append_assoc,
      decode_asmC _ (by decide) hlt d.isLt (srcCode_lt_field p) (srcCode_lt_field q)]
    simp only [Instr.wf, bne_iff_ne, Bool.and_eq_true] at hw
    obtain ⟨⟨hd, hf⟩, hk⟩ := hw
    have hbad : badS d.toNat = false ∧ badS fmt.toNat = false := ⟨beq_false_of_ne hd, beq_false_of_ne hf⟩
    generalize BitVec.ofNat 32 (t.code * 16384 + k.toNat * 128 + fmt.toNat) = w at hmode hidx hfmt hhigh ⊢
    have hill : (c && badS k.toNat) = false ∧ (!c && k.toNat != 0) = false := by
      cases c <;> simp_all [badS]
    simp [-Fin.ofNat_eq_cast, decodeC, decMma, hdiv, hlow, hmode, hidx, hfmt, hhigh, hbad, hill, codes_mmaMode.ble, codes_mmaMode.decode, codes_flag.decode]
  | mdrain c k o p q =>
    obtain ⟨hdiv, hlow, hlt⟩ := flagged_fin c k
    rw [encode_mdrain, decode_encC3 o p q x (by decide) hlt]
    simp [-Fin.ofNat_eq_cast, decodeC, hdiv, hlow, codes_flag.decode]
  | mzero sh p =>
    rw [encode_mzero, List.cons_append, decode_asmC _ (by decide) (by omega) (by decide) (srcCode_lt_field p) (by decide)]
    simp [decodeC, Nat.div_eq_of_lt sh.isLt]
  | bexp p q =>
    rw [encode_bexp, List.cons_append, List.append_assoc,
      decode_asmC _ (by decide) (by decide) (by decide) (srcCode_lt_field p) (srcCode_lt_field q)]
    simp [decodeC]
  | pick t o p c =>
    have hlt := codes_pickOp.lt t
    cases c with
    | none =>
      rw [encode_pick_none, List.cons_append, List.append_assoc,
        decode_asmC _ (by decide) (by omega) (srcCode_lt_field o) (srcCode_lt_field p) (by decide)]
      obtain ⟨hdiv, hmod⟩ := codes_pickOp.low t (by decide)
      have hb : Nat.ble 4 t.code = false := by cases t <;> rfl
      simp [decodeC, decPick, hb, hmod, codes_pickOp.beq, codes_pickOp.decode]
    | some q =>
      rw [encode_pick_some, decode_encC3 o p q x (by decide) (by omega)]
      have hmod : (4 + t.code) % 4 = t.code := by omega
      have hb : Nat.ble 4 (4 + t.code) = true := by simp
      simp [decodeC, decPick, hb, hmod, codes_pickOp.beq, codes_pickOp.decode]
  | scan p c =>
    cases c with
    | none =>
      rw [encode_scan_none, List.cons_append, decode_asmC _ (by decide) (by decide) (by decide) (srcCode_lt_field p) (by decide)]
      simp [decodeC, decScan]
    | some q =>
      rw [encode_scan_some, List.cons_append, List.append_assoc,
        decode_asmC _ (by decide) (by decide) (by decide) (srcCode_lt_field p) (srcCode_lt_field q)]
      simp [decodeC, decScan]
  | rdsr d n =>
    cases n with
    | imm n =>
      rw [encode_rdsr_imm, List.singleton_append,
        decode_asmC _ (by decide) (by decide) (regCode_lt_field d) (by omega) (by omega)]
      simp [decodeC, decRdsr, Nat.div_add_mod']
    | ind p =>
      rw [encode_rdsr_ind, decode_encC1 d p x (by decide) (by decide) (by decide)]
      simp [decodeC, decRdsr]
  | wrsr o n =>
    cases n with
    | imm n =>
      rw [encode_wrsr_imm, List.cons_append,
        decode_asmC _ (by decide) (by decide) (srcCode_lt_field o) (by omega) (by omega)]
      simp [decodeC, decWrsr, Nat.div_add_mod']
    | ind p =>
      rw [encode_wrsr_ind, List.cons_append, List.append_assoc,
        decode_asmC _ (by decide) (by decide) (srcCode_lt_field o) (srcCode_lt_field p) (by decide)]
      simp [decodeC, decWrsr]
  | tresume c d p =>
    have hlt := codes_flag.lt c
    rw [encode_tresume, decode_encC1 d p x (by decide) (by omega) (by decide)]
    simp [decodeC, codes_flag.ble, codes_flag.decode]
  | evsel c p q =>
    have hlt := codes_flag.lt c
    rw [encode_evsel, List.cons_append, List.append_assoc,
      decode_asmC _ (by decide) (by omega) (by decide) (srcCode_lt_field p) (srcCode_lt_field q)]
    simp [decodeC, Nat.div_eq_of_lt hlt, Nat.mod_eq_of_lt hlt, codes_flag.decode]
  | tlbinv t o p q =>
    have hlt := codes_tlbK.lt t
    rw [encode_tlbinv, decode_encC3 o p q x (by decide) (by omega)]
    simp [decodeC, codes_tlbK.ble, codes_tlbK.decode]
  | deadrg t d p q =>
    have hlt := codes_deadK.lt t
    rw [encode_deadrg, decode_encC d p q x (by decide) (by omega)]
    simp [decodeC, codes_deadK.ble, codes_deadK.decode]
  | clauseStart h =>
    rw [encode_clauseStart, List.singleton_append, decode_header]
  | _ => exact Bool.noConfusion he

/-- Settles O45, by the form of the instruction: its words assemble to fields that the form's decoder reads back. -/
theorem decodeEncodeAgree : Obligations.DecodeEncodeAgree := fun _ x he hw => decode_encode x he hw

/-! ## The words from which the decoder reads an instruction -/

/-- A well-formed instruction whose words are a word and n literal words at the head of those that follow it. -/
def Accepts (w : W32) (x : List W32) (n : Nat) (i : Instr) : Prop := i.wf = true ∧ ∃ l, encode i = w :: l ∧ l <+: x ∧ l.length = n

theorem litCount_ab (p q : Src) (d : Nat) : (p.lits ++ q.lits).length = litCount (false, true, true) d p.code q.code := by
  simp [litCount, words_eq, b2n]

theorem litCount_a (p : Src) (d b : Nat) : p.lits.length = litCount (false, true, false) d p.code b := by
  simp [litCount, words_eq, b2n]

theorem litCount_da (o p : Src) (b : Nat) : (o.lits ++ p.lits).length = litCount (true, true, false) o.code p.code b := by
  simp [litCount, words_eq, b2n]

theorem litCount_d (o : Src) (a b : Nat) : o.lits.length = litCount (true, false, false) o.code a b := by
  simp [litCount, words_eq, b2n]

theorem litCount_dab (o p q : Src) : (o.lits ++ (p.lits ++ q.lits)).length = litCount (true, true, true) o.code p.code q.code := by
  simp [litCount, words_eq, b2n, Nat.add_assoc]

section
variable {ill rsv : Bool} {d a b : Nat} {x : List W32} {i : Instr}

theorem accepts_dab {f : Reg → Src → Src → Instr} {W : Nat → Nat → Nat → W32}
    (h : outcome ill rsv (dst d fun r => src2 a b x (f r)) = .ok i)
    (hf : ill = false → rsv = false → ∀ r p q, d = r.code → a = p.code → b = q.code →
      encode (f r p q) = W r.code p.code q.code :: (p.lits ++ q.lits) ∧ (f r p q).wf = true) :
    Accepts (W d a b) x (litCount (false, true, true) d a b) i := by
  obtain ⟨hill, hrsv, hd⟩ := outcome_eq_ok.1 h
  obtain ⟨r, hr, hs⟩ := dst_eq_some.1 hd
  obtain ⟨p, q, hp, hq, hx, hi⟩ := src2_eq_some.1 hs
  obtain ⟨henc, hwf⟩ := hf hill hrsv r p q hr hp hq
  subst hr hp hq hi
  exact ⟨hwf, _, henc, hx, litCount_ab p q _⟩

theorem accepts_da {f : Reg → Src → Instr} {W : Nat → Nat → W32} (h : outcome ill rsv (dst d fun r => src1 a x (f r)) = .ok i)
    (hf : ill = false → rsv = false → ∀ r p, d = r.code → a = p.code →
      encode (f r p) = W r.code p.code :: p.lits ∧ (f r p).wf = true) :
    Accepts (W d a) x (litCount (false, true, false) d a b) i := by
  obtain ⟨hill, hrsv, hd⟩ := outcome_eq_ok.1 h
  obtain ⟨r, hr, hs⟩ := dst_eq_some.1 hd
  obtain ⟨p, hp, hx, hi⟩ := src1_eq_some.1 hs
  obtain ⟨henc, hwf⟩ := hf hill hrsv r p hr hp
  subst hr hp hi
  exact ⟨hwf, _, henc, hx, litCount_a p _ _⟩

theorem accepts_d {f : Reg → Instr} {W : Nat → W32} (h : outcome ill rsv (dst d fun r => some (f r)) = .ok i)
    (hf : ill = false → rsv = false → ∀ r, d = r.code → encode (f r) = [W r.code] ∧ (f r).wf = true) :
    Accepts (W d) x (litCount (false, false, false) d a b) i := by
  obtain ⟨hill, hrsv, hd⟩ := outcome_eq_ok.1 h
  obtain ⟨r, hr, hs⟩ := dst_eq_some.1 hd
  obtain ⟨henc, hwf⟩ := hf hill hrsv r hr
  subst hr
  obtain rfl := Option.some.inj hs
  exact ⟨hwf, _, henc, List.nil_prefix, rfl⟩

theorem accepts_ab {f : Src → Src → Instr} {W : Nat → Nat → W32} (h : outcome ill rsv (src2 a b x f) = .ok i)
    (hf : ill = false → rsv = false → ∀ p q, a = p.code → b = q.code →
      encode (f p q) = W p.code q.code :: (p.lits ++ q.lits) ∧ (f p q).wf = true) :
    Accepts (W a b) x (litCount (false, true, true) d a b) i := by
  obtain ⟨hill, hrsv, hs⟩ := outcome_eq_ok.1 h
  obtain ⟨p, q, hp, hq, hx, hi⟩ := src2_eq_some.1 hs
  obtain ⟨henc, hwf⟩ := hf hill hrsv p q hp hq
  subst hp hq hi
  exact ⟨hwf, _, henc, hx, litCount_ab p q _⟩

theorem accepts_a {f : Src → Instr} {W : Nat → W32} (h : outcome ill rsv (src1 a x f) = .ok i)
    (hf : ill = false → rsv = false → ∀ p, a = p.code → encode (f p) = W p.code :: p.lits ∧ (f p).wf = true) :
    Accepts (W a) x (litCount (false, true, false) d a b) i := by
  obtain ⟨hill, hrsv, hs⟩ := outcome_eq_ok.1 h
  obtain ⟨p, hp, hx, hi⟩ := src1_eq_some.1 hs
  obtain ⟨henc, hwf⟩ := hf hill hrsv p hp
  subst hp hi
  exact ⟨hwf, _, henc, hx, litCount_a p _ _⟩

/-- A destination field that is a source, with a source a. -/
theorem accepts_sa {f : Src → Src → Instr} {W : Nat → Nat → W32} (h : outcome ill rsv (src2 d a x f) = .ok i)
    (hf : ill = false → rsv = false → ∀ o p, d = o.code → a = p.code →
      encode (f o p) = W o.code p.code :: (o.lits ++ p.lits) ∧ (f o p).wf = true) :
    Accepts (W d a) x (litCount (true, true, false) d a b) i := by
  obtain ⟨hill, hrsv, hs⟩ := outcome_eq_ok.1 h
  obtain ⟨o, p, ho, hp, hx, hi⟩ := src2_eq_some.1 hs
  obtain ⟨henc, hwf⟩ := hf hill hrsv o p ho hp
  subst ho hp hi
  exact ⟨hwf, _, henc, hx, litCount_da o p _⟩

/-- A destination field that is the only source. -/
theorem accepts_s {f : Src → Instr} {W : Nat → W32} (h : outcome ill rsv (src1 d x f) = .ok i)
    (hf : ill = false → rsv = false → ∀ o, d = o.code → encode (f o) = W o.code :: o.lits ∧ (f o).wf = true) :
    Accepts (W d) x (litCount (true, false, false) d a b) i := by
  obtain ⟨hill, hrsv, hs⟩ := outcome_eq_ok.1 h
  obtain ⟨o, ho, hx, hi⟩ := src1_eq_some.1 hs
  obtain ⟨henc, hwf⟩ := hf hill hrsv o ho
  subst ho hi
  exact ⟨hwf, _, henc, hx, litCount_d o _ _⟩

/-- Three source fields. -/
theorem accepts_sab {f : Src → Src → Src → Instr} {W : Nat → Nat → Nat → W32} (h : outcome ill rsv (src3 d a b x f) = .ok i)
    (hf : ill = false → rsv = false → ∀ o p q, d = o.code → a = p.code → b = q.code →
      encode (f o p q) = W o.code p.code q.code :: (o.lits ++ (p.lits ++ q.lits)) ∧ (f o p q).wf = true) :
    Accepts (W d a b) x (litCount (true, true, true) d a b) i := by
  obtain ⟨hill, hrsv, hs⟩ := outcome_eq_ok.1 h
  obtain ⟨o, p, q, ho, hp, hq, hx, hi⟩ := src3_eq_some.1 hs
  obtain ⟨henc, hwf⟩ := hf hill hrsv o p q ho hp hq
  subst ho hp hq hi
  exact ⟨hwf, _, henc, hx, litCount_dab o p q⟩

theorem accepts_fixed {j : Instr} {w : W32} (h : outcome ill rsv (some j) = .ok i)
    (hf : ill = false → rsv = false → encode j = [w] ∧ j.wf = true) : Accepts w x (litCount (false, false, false) d a b) i := by
  obtain ⟨hill, hrsv, hs⟩ := outcome_eq_ok.1 h
  obtain rfl := Option.some.inj hs
  obtain ⟨henc, hwf⟩ := hf hill hrsv
  exact ⟨hwf, _, henc, List.nil_prefix, rfl⟩

end

theorem intMod_code {m : Nat} (hm : m < 8) : IntMod.code ⟨flagOf (m / 4), IntTy.ofCode (m % 4)⟩ = m := by
  rw [IntMod.code, codes_flag.encode _ (by omega), codes_intTy.encode _ (by omega)]
  omega

theorem fMod_code {m : Nat} (hm : m < 8) (h : m % 4 ≠ 3) : FMod.code ⟨flagOf (m / 4), FTy.ofCode (m % 4)⟩ = m := by
  rw [FMod.code, codes_flag.encode _ (by omega), codes_fTy.encode _ (by omega)]
  omega

theorem intTy_packed {m : Nat} : (IntTy.ofCode (m % 4)).packed = Nat.ble 2 (m % 4) := by
  rw [← ble_intTy, codes_intTy.encode _ (Nat.mod_lt _ (by decide))]

theorem okPacked_ofCode {m : Nat} {c : Bool} {r : Reg} (h : (Nat.ble 2 (m % 4) && scalarCode r.code) = false) :
    IntMod.okPacked ⟨c, IntTy.ofCode (m % 4)⟩ r = true := by
  rw [IntMod.okPacked, intTy_packed, ← scalarCode_code, h]
  rfl

section
variable {α : Type} {ofCode : Nat → α} {code : α → Nat} (h : Codes ofCode code 3) {m : Nat}
include h

theorem Codes.encode_low (hmod : m % 4 ≠ 3) : code (ofCode (m % 4)) = m % 4 := h.encode _ (by omega)

theorem Codes.encode_flagged (hm : m < 8) (hmod : m % 4 ≠ 3) : b2n (flagOf (m / 4)) * 4 + code (ofCode (m % 4)) = m := by
  rw [codes_flag.encode _ (by omega), h.encode _ (by omega)]
  omega

end

theorem toNat_field {n k : Nat} (h : k < 2 ^ n) : (BitVec.ofNat n k).toNat = k := Nat.mod_eq_of_lt h

theorem Codes.encode_of_ble {α : Type} {ofCode : Nat → α} {code : α → Nat} {n m : Nat} (h : Codes ofCode code n)
    (hm : Nat.ble n m = false) : code (ofCode m) = m := by
  refine h.encode m ?_
  simp only [← Bool.not_eq_true, Nat.ble_eq] at hm
  omega

section
variable {op m d a b : Nat} {x : List W32} {i : Instr}

theorem intPacked_accepts {f : IntMod → Reg → Src → Src → Instr} (henc : ∀ m d a b, encode (f m d a b) = encA op m.code d a b)
    (hwf : ∀ m d a b, (f m d a b).wf = m.okPacked d) (hm : m < 8) (h : intPacked f m d a b x = .ok i) :
    Accepts (asmAC 0 op m d a b) x (litCount (false, true, true) d a b) i := by
  refine accepts_dab h fun hill _ r p q hr _ _ => ⟨by rw [henc, encA, intMod_code hm], ?_⟩
  rw [hwf, okPacked_ofCode (hr ▸ (Bool.or_eq_false_iff.1 hill).2)]

theorem intPlain_accepts {f : IntMod → Reg → Src → Src → Instr} (henc : ∀ m d a b, encode (f m d a b) = encA op m.code d a b)
    (hwf : ∀ m d a b, (f m d a b).wf = m.okPlain) (hm : m < 8) (h : intPlain f m d a b x = .ok i) :
    Accepts (asmAC 0 op m d a b) x (litCount (false, true, true) d a b) i := by
  refine accepts_dab h fun hill _ r p q _ _ _ => ⟨by rw [henc, encA, intMod_code hm], ?_⟩
  simp_all [IntMod.okPlain, intTy_packed]

theorem intUnary_accepts {f : IntMod → Reg → Src → Instr} (henc : ∀ m d a, encode (f m d a) = encA1 op m.code d a 0)
    (hwf : ∀ m d a, (f m d a).wf = m.okPacked d) (hm : m < 8) (h : intUnary f m d a b x = .ok i) :
    Accepts (asmAC 0 op m d a b) x (litCount (false, true, false) d a b) i := by
  refine accepts_da (W := fun d a => asmAC 0 op m d a b) h fun hill hrsv r p hr _ => ⟨?_, ?_⟩
  · rw [henc, encA1, intMod_code hm, bne_eq_false_iff_eq.1 hrsv]
  · rw [hwf, okPacked_ofCode (hr ▸ (Bool.or_eq_false_iff.1 hill).2)]

theorem fpBinary_accepts {f : FMod → Reg → Src → Src → Instr} (henc : ∀ m d a b, encode (f m d a b) = encA op m.code d a b)
    (hwf : ∀ m d a b, (f m d a b).wf = true) (hm : m < 8) (h : fpBinary f m d a b x = .ok i) :
    Accepts (asmAC 0 op m d a b) x (litCount (false, true, true) d a b) i := by
  refine accepts_dab h fun hill _ r p q _ _ _ => ⟨?_, hwf _ _ _ _⟩
  rw [henc, encA, fMod_code hm (by simp_all)]

theorem dpBinary_accepts {f : Bool → Reg → Src → Src → Instr} (henc : ∀ c d a b, encode (f c d a b) = encA op (b2n c * 4) d a b)
    (hwf : ∀ m d a b, (f m d a b).wf = true) (hm : m < 8) (h : dpBinary f m d a b x = .ok i) :
    Accepts (asmAC 0 op m d a b) x (litCount (false, true, true) d a b) i := by
  refine accepts_dab h fun hill _ r p q _ _ _ => ⟨?_, hwf _ _ _ _⟩
  have hlow : m % 4 = 0 := by simp_all
  rw [henc, encA, codes_flag.encode _ (by omega)]
  congr 2
  omega

theorem lgBinary_accepts {f : FTy → Reg → Src → Src → Instr} (henc : ∀ t d a b, encode (f t d a b) = encA op t.code d a b)
    (hwf : ∀ m d a b, (f m d a b).wf = true) (h : lgBinary f m d a b x = .ok i) :
    Accepts (asmAC 0 op m d a b) x (litCount (false, true, true) d a b) i := by
  refine accepts_dab h fun hill hrsv r p q _ _ _ => ⟨?_, hwf _ _ _ _⟩
  have hhigh : m / 4 = 0 := bne_eq_false_iff_eq.1 hrsv
  rw [henc, encA, codes_fTy.encode_low (by simp_all)]
  congr 2
  omega

theorem packUnary_accepts {f : Reg → Src → Instr} (henc : ∀ d a, encode (f d a) = encA1 op 0 d a 0) (hwf : ∀ d a, (f d a).wf = true)
    (h : packUnary f m d a b x = .ok i) : Accepts (asmAC 0 op m d a b) x (litCount (false, true, false) d a b) i := by
  refine accepts_da (W := fun d a => asmAC 0 op m d a b) h fun hill hrsv r p _ _ => ⟨?_, hwf _ _⟩
  obtain ⟨hm, rfl⟩ : m = 0 ∧ b = 0 := by
    simp at hill hrsv
    omega
  rw [henc, encA1, hm]

theorem immBinary_accepts {f : Reg → Src → BitVec 11 → Instr} (henc : ∀ d a k, encode (f d a k) = encB op d a k.toNat)
    (hwf : ∀ d a k, (f d a k).wf = true) {k : Nat} (hk : k < 2048) (h : immBinary f d a k x = .ok i) :
    Accepts (asmB op d a k) x (litCount (false, true, false) d a 0) i := by
  refine accepts_da (W := fun d a => asmB op d a k) h fun _ _ r p _ _ => ⟨?_, hwf _ _ _⟩
  rw [henc, encB, toNat_field hk]

theorem immShift_accepts {f : Reg → Src → BitVec 6 → Instr} (henc : ∀ d a k, encode (f d a k) = encB op d a k.toNat)
    (hwf : ∀ d a k, (f d a k).wf = true) {k : Nat} (h : immShift f d a k x = .ok i) :
    Accepts (asmB op d a k) x (litCount (false, true, false) d a 0) i := by
  refine accepts_da (W := fun d a => asmB op d a k) h fun _ hrsv r p _ _ => ⟨?_, hwf _ _ _⟩
  have hhigh : k / 64 = 0 := bne_eq_false_iff_eq.1 hrsv
  rw [henc, encB, toNat_field (n := 6) (by omega)]

theorem immOnly_accepts {f : BitVec 11 → Instr} (henc : ∀ k, encode (f k) = [asmB op 0 0 k.toNat]) (hwf : ∀ k, (f k).wf = true)
    {k : Nat} (hk : k < 2048) (h : immOnly f d a k = .ok i) : Accepts (asmB op d a k) x (litCount (false, false, false) d a 0) i := by
  refine accepts_fixed h fun _ hrsv => ⟨?_, hwf _⟩
  obtain ⟨rfl, rfl⟩ : d = 0 ∧ a = 0 := by simpa using hrsv
  rw [henc, toNat_field hk]

theorem noField_accepts {j : Instr} {k : Nat} (henc : encode j = [asmB op 0 0 0]) (hwf : j.wf = true) (h : noField j d a k = .ok i) :
    Accepts (asmB op d a k) x (litCount (false, false, false) d a 0) i := by
  refine accepts_fixed h fun _ hrsv => ⟨?_, hwf⟩
  obtain ⟨⟨rfl, rfl⟩, rfl⟩ : (d = 0 ∧ a = 0) ∧ k = 0 := by simpa using hrsv
  rw [henc]

theorem loadC_accepts {f : Width → Reg → Src → Src → Instr} (henc : ∀ t d a b, encode (f t d a b) = encC op t.code d a b)
    (hwf : ∀ t d a b, (f t d a b).wf = true) (h : loadC f m d a b x = .ok i) :
    Accepts (asmAC 2 op m d a b) x (litCount (false, true, true) d a b) i := by
  refine accepts_dab h fun hill _ r p q _ _ _ => ⟨?_, hwf _ _ _ _⟩
  rw [henc, encC, codes_width.encode_of_ble (Bool.or_eq_false_iff.1 hill).2]

theorem storeC_accepts {f : Width → Src → Src → Src → Instr} (henc : ∀ t d a b, encode (f t d a b) = encC3 op t.code d a b)
    (hwf : ∀ t d a b, (f t d a b).wf = true) (h : storeC f m d a b x = .ok i) :
    Accepts (asmAC 2 op m d a b) x (litCount (true, true, true) d a b) i := by
  refine accepts_sab h fun hill _ o p q _ _ _ => ⟨?_, hwf _ _ _ _⟩
  rw [henc, encC3, codes_width.encode_of_ble (Bool.or_eq_false_iff.1 hill).2]

theorem atomC_accepts {f : AtomOp → Reg → Src → BitVec 7 → Instr} (henc : ∀ t d a k, encode (f t d a k) = encC1 op t.code d a k.toNat)
    (hwf : ∀ t d a k, (f t d a k).wf = true) (hm : m < 8) (hb : b < 128) (h : atomC f m d a b x = .ok i) :
    Accepts (asmAC 2 op m d a b) x (litCount (false, true, false) d a b) i := by
  refine accepts_da (W := fun d a => asmAC 2 op m d a b) h fun _ _ r p _ _ => ⟨?_, hwf _ _ _ _⟩
  rw [henc, encC1, codes_atomOp.encode _ hm, toNat_field hb]

theorem dabC_accepts {f : Reg → Src → Src → Instr} (henc : ∀ d a b, encode (f d a b) = encC op 0 d a b)
    (hwf : ∀ d a b, (f d a b).wf = true) (h : dabC f m d a b x = .ok i) :
    Accepts (asmAC 2 op m d a b) x (litCount (false, true, true) d a b) i := by
  refine accepts_dab h fun _ hrsv r p q _ _ _ => ⟨?_, hwf _ _ _⟩
  rw [henc, encC, bne_eq_false_iff_eq.1 hrsv]

theorem daC_accepts {f : Reg → Src → Instr} (henc : ∀ d a, encode (f d a) = encC1 op 0 d a 0) (hwf : ∀ d a, (f d a).wf = true)
    (h : daC f m d a b x = .ok i) : Accepts (asmAC 2 op m d a b) x (litCount (false, true, false) d a b) i := by
  refine accepts_da (W := fun d a => asmAC 2 op m d a b) h fun _ hrsv r p _ _ => ⟨?_, hwf _ _⟩
  obtain ⟨rfl, rfl⟩ : m = 0 ∧ b = 0 := by simpa using hrsv
  rw [henc, encC1]

theorem aC_accepts {f : Src → Instr} (henc : ∀ a, encode (f a) = asmAC 2 op 0 0 a.code 0 :: a.lits) (hwf : ∀ a, (f a).wf = true)
    (h : aC f m d a b x = .ok i) : Accepts (asmAC 2 op m d a b) x (litCount (false, true, false) d a b) i := by
  refine accepts_a (W := fun a => asmAC 2 op m d a b) h fun _ hrsv p _ => ⟨?_, hwf _⟩
  obtain ⟨⟨rfl, rfl⟩, rfl⟩ : (m = 0 ∧ d = 0) ∧ b = 0 := by simpa using hrsv
  rw [henc]

theorem dC_accepts {f : Reg → Instr} (henc : ∀ d, encode (f d) = [asmAC 2 op 0 d.code 0 0]) (hwf : ∀ d, (f d).wf = true)
    (h : dC f m d a b = .ok i) : Accepts (asmAC 2 op m d a b) x (litCount (false, false, false) d a b) i := by
  refine accepts_d (W := fun d => asmAC 2 op m d a b) h fun _ hrsv r _ => ⟨?_, hwf _⟩
  obtain ⟨⟨rfl, rfl⟩, rfl⟩ : (m = 0 ∧ a = 0) ∧ b = 0 := by simpa using hrsv
  rw [henc]

theorem flagDa_accepts {f : Bool → Reg → Src → Instr} (henc : ∀ c d a, encode (f c d a) = encC1 op (b2n c) d a 0)
    (hwf : ∀ c d a, (f c d a).wf = true) (h : flagDa f m d a b x = .ok i) :
    Accepts (asmAC 2 op m d a b) x (litCount (false, true, false) d a b) i := by
  refine accepts_da (W := fun d a => asmAC 2 op m d a b) h fun _ hrsv r p _ _ => ⟨?_, hwf _ _ _⟩
  obtain ⟨hm, rfl⟩ : m / 2 = 0 ∧ b = 0 := by
    simp only [Bool.or_eq_false_iff, bne_eq_false_iff_eq] at hrsv
    exact hrsv
  rw [henc, encC1, codes_flag.encode _ (by omega), Nat.mod_eq_of_lt (by omega)]

end

section
variable {op m d a b : Nat} {x : List W32} {i : Instr}

theorem vote_accepts (h : decVote m d a b x = .ok i) : Accepts (asmAC 0 0x39 m d a b) x (litCount (sourcesA 0x39 m) d a b) i := by
  unfold decVote at h
  split at h
  case h_3 => exact accepts_dab h fun _ _ r p q _ _ _ => ⟨rfl, rfl⟩
  case h_6 => cases h
  all_goals
    refine accepts_da (W := fun d a => asmAC 0 0x39 _ d a b) h fun _ hrsv r p _ _ => ⟨?_, rfl⟩
    rw [bne_eq_false_iff_eq.1 hrsv]
    rfl

theorem ccmov_accepts (h : decCcmov m d a b x = .ok i) : Accepts (asmAC 0 0x3D m d a b) x (litCount (sourcesA 0x3D m) d a b) i := by
  unfold decCcmov at h
  split at h
  · refine accepts_d (W := fun d => asmAC 0 0x3D 0 d a b) h fun _ hrsv r _ => ⟨?_, rfl⟩
    obtain ⟨rfl, rfl⟩ : a = 0 ∧ b = 0 := by simpa using hrsv
    rfl
  · refine accepts_a (W := fun a => asmAC 0 0x3D 1 d a b) h fun _ hrsv p _ => ⟨?_, rfl⟩
    obtain ⟨rfl, rfl⟩ : d = 0 ∧ b = 0 := by simpa using hrsv
    rfl
  · cases h

end

theorem decodeA_accepts {op m d a b : Nat} {x : List W32} {i : Instr} (hm : m < 8) (hb : b < 128) (h : decodeA op m d a b x = .ok i) :
    Accepts (asmAC 0 op m d a b) x (litCount (sourcesA op m) d a b) i := by
  unfold decodeA at h
  split at h
  case h_1 | h_2 | h_5 | h_6 | h_7 | h_10 | h_11 | h_12 | h_13 | h_14 | h_15 | h_16 | h_17 | h_18 | h_19 | h_20 | h_30 | h_31 => exact intPacked_accepts (fun _ _ _ _ => rfl) (fun _ _ _ _ => rfl) hm h
  case h_3 | h_4 | h_8 | h_9 | h_21 | h_22 | h_29 => exact intPlain_accepts (fun _ _ _ _ => rfl) (fun _ _ _ _ => rfl) hm h
  case h_23 | h_24 | h_25 | h_28 => exact intUnary_accepts (fun _ _ _ => rfl) (fun _ _ _ => rfl) hm h
  case h_32 | h_33 | h_34 | h_35 | h_36 | h_37 | h_39 => exact fpBinary_accepts (fun _ _ _ _ => rfl) (fun _ _ _ _ => rfl) hm h
  case h_44 | h_45 | h_46 => exact dpBinary_accepts (fun _ _ _ _ => rfl) (fun _ _ _ _ => rfl) hm h
  case h_48 | h_49 => exact lgBinary_accepts (fun _ _ _ _ => rfl) (fun _ _ _ _ => rfl) h
  case h_50 | h_51 => exact packUnary_accepts (fun _ _ => rfl) (fun _ _ => rfl) h
  case h_26 =>
    refine accepts_ab (W := fun a b => asmAC 0 0x19 m d a b) h fun hill hrsv p q hp hq => ?_
    obtain ⟨hhigh, rfl⟩ : m / 4 = 0 ∧ d = 0 := by simpa only [Bool.or_eq_false_iff, bne_eq_false_iff_eq] using hrsv
    have hpk : (Nat.ble 2 (m % 4) && !vecCode p.code && !vecCode q.code) = false := hp ▸ hq ▸ (Bool.or_eq_false_iff.1 hill).2
    rw [vecCode_code, vecCode_code, ← intTy_packed] at hpk
    constructor
    · rw [encode_cmp, encA0, codes_intTy.encode _ (by omega), Nat.mod_eq_of_lt (by omega)]
    · revert hpk
      simp only [Instr.wf]
      generalize (IntTy.ofCode (m % 4)).packed = c
      cases c <;> cases p.vecClass <;> cases q.vecClass <;> decide
  case h_27 =>
    refine accepts_dab h fun _ _ r p q _ _ _ => ⟨by rw [encode_sel, encA, codes_cond.encode _ (by omega)], ?_⟩
    interval_cases m <;> rfl
  case h_38 =>
    refine accepts_ab (W := fun a b => asmAC 0 0x26 m d a b) h fun hill hrsv p q _ _ => ⟨?_, rfl⟩
    obtain ⟨hhigh, rfl⟩ : m / 4 = 0 ∧ d = 0 := by simpa only [Bool.or_eq_false_iff, bne_eq_false_iff_eq] using hrsv
    rw [encode_fcmp, encA0, codes_fTy.encode_low (by simp_all), Nat.mod_eq_of_lt (by omega)]
  case h_40 =>
    refine accepts_da (W := fun d a => asmAC 0 0x28 m d a b) h fun hill hrsv r p _ _ => ⟨?_, rfl⟩
    rw [encode_fsqrt, encA1, fMod_code hm (by simp_all), bne_eq_false_iff_eq.1 hrsv]
  case h_41 =>
    refine accepts_da (W := fun d a => asmAC 0 0x29 m d a b) h fun hill hrsv r p _ _ => ⟨?_, rfl⟩
    rw [encode_fsfu, encA1, codes_sfu.encode_of_ble (Bool.or_eq_false_iff.1 hill).2, bne_eq_false_iff_eq.1 hrsv]
  case h_42 =>
    refine accepts_da (W := fun d a => asmAC 0 0x2A m d a b) h fun hill hrsv r p _ _ => ⟨?_, rfl⟩
    obtain ⟨hhigh, rfl⟩ : m / 4 = 0 ∧ b = 0 := by simpa only [Bool.or_eq_false_iff, bne_eq_false_iff_eq] using hrsv
    rw [encode_fclass, encA1, codes_fTy.encode_low (by simp_all), Nat.mod_eq_of_lt (by omega)]
  case h_43 =>
    refine accepts_da (W := fun d a => asmAC 0 0x2B m d a b) h fun hill hrsv r p _ _ => ⟨?_, rfl⟩
    have hlow : b % 8 = 0 := bne_eq_false_iff_eq.1 hrsv
    have hfield : (Fin.ofNat 16 (b / 8)).val * 8 = b := by
      simp only [Fin.val_ofNat]
      omega
    rw [encode_cvt, encA1, codes_rm.encode_of_ble (Bool.or_eq_false_iff.1 hill).2, hfield]
  case h_47 =>
    refine accepts_ab (W := fun a b => asmAC 0 0x2F m d a b) h fun hill hrsv p q _ _ => ⟨?_, rfl⟩
    obtain ⟨hm0, rfl⟩ : m = 0 ∧ d = 0 := by
      simp at hill hrsv
      omega
    rw [encode_dcmp, encA0, hm0]
  case h_52 =>
    refine accepts_dab h fun hill hrsv r p q _ _ _ => ⟨?_, rfl⟩
    have hhigh : m / 4 = 0 := bne_eq_false_iff_eq.1 hrsv
    rw [encode_idot4, encA, codes_dotK.encode_low (by simp_all), Nat.mod_eq_of_lt (by omega)]
  case h_53 =>
    refine accepts_dab h fun hill hrsv r p q _ _ _ => ⟨?_, rfl⟩
    have hhigh : m / 4 = 0 := bne_eq_false_iff_eq.1 hrsv
    obtain rfl | rfl : m = 1 ∨ m = 2 := by
      simp at hill
      omega
    all_goals rfl
  case h_54 =>
    refine accepts_dab h fun hill _ r p q _ _ _ => ⟨?_, rfl⟩
    rw [encode_shfl, encA, codes_shflMode.encode_of_ble (Bool.or_eq_false_iff.1 hill).2]
  case h_55 => exact vote_accepts h
  case h_56 =>
    refine accepts_da (W := fun d a => asmAC 0 0x3A m d a b) h fun _ hrsv r p _ _ => ⟨?_, rfl⟩
    obtain ⟨rfl, rfl⟩ : m = 0 ∧ b = 0 := by simpa using hrsv
    rfl
  case h_57 =>
    refine accepts_dab h fun _ hrsv r p q _ _ _ => ⟨?_, rfl⟩
    rw [encode_rdlane, encA, bne_eq_false_iff_eq.1 hrsv]
  case h_58 =>
    refine accepts_dab h fun _ hrsv r p q _ _ _ => ⟨?_, rfl⟩
    rw [encode_wrlane, encA, bne_eq_false_iff_eq.1 hrsv]
  case h_59 => exact ccmov_accepts h
  case h_60 => cases h

theorem loop_accepts {d a k : Nat} {x : List W32} {i : Instr} (h : decLoop d a k x = .ok i) :
    Accepts (asmB 0x10 d a k) x (litCount (false, true, false) d a 0 + 1) i := by
  unfold decLoop at h
  cases x with
  | nil =>
    obtain ⟨-, -, hs⟩ := outcome_eq_ok.1 h
    cases hs
  | cons w y =>
    obtain ⟨-, hrsv, hs⟩ := outcome_eq_ok.1 h
    obtain ⟨p, rfl, hx, rfl⟩ := src1_eq_some.1 hs
    obtain ⟨⟨rfl, hk⟩, hw⟩ : (d = 0 ∧ k / 128 = 0) ∧ stepWordOk w = true := by
      simpa only [Bool.or_eq_false_iff, bne_eq_false_iff_eq, Bool.not_eq_false'] using hrsv
    refine ⟨hw, w :: p.lits, ?_, List.cons_prefix_cons.2 ⟨rfl, hx⟩, congrArg (· + 1) (litCount_a p _ _)⟩
    rw [encode_loop, toNat_field (n := 7) (by omega)]

theorem decodeB_accepts {op d a k : Nat} {x : List W32} {i : Instr} (hd : d < 128) (hk : k < 2048) (h : decodeB op d a k x = .ok i) :
    Accepts (asmB op d a k) x (litCount (sourcesB op) d a 0 + b2n (op == 0x10)) i := by
  unfold decodeB at h
  split at h
  case h_1 | h_2 | h_3 | h_4 | h_10 | h_25 => exact immBinary_accepts (fun _ _ _ => rfl) (fun _ _ _ => rfl) hk h
  case h_5 | h_6 | h_7 => exact immShift_accepts (fun _ _ _ => rfl) (fun _ _ _ => rfl) h
  case h_12 | h_13 | h_15 | h_18 | h_20 | h_21 | h_22 => exact immOnly_accepts (fun _ => rfl) (fun _ => rfl) hk h
  case h_14 | h_16 | h_23 | h_24 => exact noField_accepts rfl rfl h
  case h_17 => exact loop_accepts h
  case h_8 =>
    refine accepts_a (b := 0) (W := fun a => asmB 0x07 d a k) h fun _ hrsv p _ => ⟨?_, rfl⟩
    rw [encode_cmpi, bne_eq_false_iff_eq.1 hrsv, toNat_field hk]
  case h_9 =>
    refine accepts_d (b := 0) (W := fun d => asmB 0x08 d a k) h fun _ hrsv r _ => ⟨?_, rfl⟩
    rw [encode_movi, bne_eq_false_iff_eq.1 hrsv, toNat_field hk]
  case h_11 =>
    refine accepts_fixed (d := d) (b := 0) h fun _ hrsv => ⟨?_, rfl⟩
    obtain ⟨hhigh, rfl⟩ : d / 16 = 0 ∧ a = 0 := by simpa only [Bool.or_eq_false_iff, bne_eq_false_iff_eq] using hrsv
    rw [encode_brc, codes_cond.encode _ (by omega), toNat_field hk, Nat.mod_eq_of_lt (by omega)]
  case h_19 =>
    refine accepts_d (b := 0) (W := fun d => asmB 0x12 d a k) h fun _ hrsv r _ => ⟨?_, rfl⟩
    obtain ⟨rfl, hhigh⟩ : a = 0 ∧ k / 512 = 0 := by simpa only [Bool.or_eq_false_iff, bne_eq_false_iff_eq] using hrsv
    have hfield : (BitVec.ofNat 3 (k / 64)).toNat * 64 + (BitVec.ofNat 6 k).toNat = k := by
      simp only [BitVec.toNat_ofNat]
      omega
    rw [encode_curve, hfield]
  case h_26 =>
    refine accepts_sa (b := 0) (W := fun d a => asmB 0x19 d a k) h fun _ _ o p _ _ => ⟨?_, rfl⟩
    rw [encode_sts, toNat_field hk]
  case h_27 =>
    refine accepts_d (b := 0) (W := fun d => asmB 0x1A d a k) h fun _ hrsv r _ => ⟨?_, rfl⟩
    rw [encode_ldf, bne_eq_false_iff_eq.1 hrsv, toNat_field hk]
  case h_28 =>
    refine accepts_a (b := 0) (W := fun a => asmB 0x1B d a k) h fun _ hrsv p _ => ⟨?_, rfl⟩
    rw [encode_jmpr, bne_eq_false_iff_eq.1 hrsv, toNat_field hk]
  case h_29 => cases h

section
variable {op m d a b : Nat} {x : List W32} {i : Instr}

theorem flagged_fin_encode (hm : m < 8) : b2n (flagOf (m / 4)) * 4 + (Fin.ofNat 4 m).val = m := by
  rw [codes_flag.encode _ (by omega)]
  simp only [Fin.val_ofNat]
  omega

theorem mma_accepts (hm : m < 8) (hd : d < 128) (h : decMma m d a b x = .ok i) :
    Accepts (asmAC 2 0x14 m d a b) x (litCount (false, true, true) d a b + 1) i := by
  unfold decMma at h
  cases x with
  | nil =>
    obtain ⟨-, -, hs⟩ := outcome_eq_ok.1 h
    cases hs
  | cons w y =>
    obtain ⟨hill, hrsv, hs⟩ := outcome_eq_ok.1 h
    obtain ⟨p, q, rfl, rfl, hx, rfl⟩ := src2_eq_some.1 hs
    obtain ⟨hhigh, hidx⟩ : w.toNat / 65536 = 0 ∧ (flagOf (m / 4) = false → w.toNat / 128 % 128 = 0) := by
      simpa only [Bool.or_eq_false_iff, bne_eq_false_iff_eq, Bool.and_eq_false_iff, Bool.not_eq_false', or_iff_not_imp_left,
        Bool.not_eq_true] using hrsv
    simp only [Bool.or_eq_false_iff] at hill
    obtain ⟨⟨⟨⟨⟨hbd, -⟩, -⟩, hmode⟩, hbf⟩, hbi⟩ := hill
    have hword : MmaMode.code (MmaMode.ofCode (w.toNat / 16384 % 4)) * 16384 + (BitVec.ofNat 7 (w.toNat / 128 % 128)).toNat * 128 +
        (BitVec.ofNat 7 (w.toNat % 128)).toNat = w.toNat := by
      rw [codes_mmaMode.encode_of_ble hmode, toNat_field (n := 7) (by omega), toNat_field (n := 7) (by omega)]
      omega
    refine ⟨?_, w :: (p.lits ++ q.lits), ?_, List.cons_prefix_cons.2 ⟨rfl, hx⟩, congrArg (· + 1) (litCount_ab p q _)⟩
    · simp only [badS, beq_eq_false_iff_ne] at hbd hbf
      cases hc : flagOf (m / 4) <;> simp_all [Instr.wf, badS, toNat_field (n := 7)]
    · rw [encode_mma, flagged_fin_encode hm, toNat_field hd, hword, BitVec.ofNat_toNat, BitVec.setWidth_eq]

theorem pick_accepts (hm : m < 8) (h : decPick m d a b x = .ok i) :
    Accepts (asmAC 2 0x22 m d a b) x (litCount (sourcesC 0x22 m) d a b) i := by
  unfold decPick at h
  change Accepts _ _ (litCount (true, true, Nat.ble 4 m) d a b) i
  split at h
  case isTrue hb =>
    rw [hb]
    refine accepts_sab h fun hill _ o p q _ _ _ => ⟨?_, rfl⟩
    have := Nat.le_of_ble_eq_true hb
    rw [encode_pick_some, encC3, codes_pickOp.encode_low (by simp_all)]
    congr 2
    omega
  case isFalse hb =>
    rw [Bool.eq_false_of_not_eq_true hb]
    refine accepts_sa (W := fun d a => asmAC 2 0x22 m d a b) h fun hill hrsv o p _ _ => ⟨?_, rfl⟩
    have := Nat.not_le_of_not_ble_eq_true hb
    rw [encode_pick_none, codes_pickOp.encode_low (by simp_all), Nat.mod_eq_of_lt (by omega), bne_eq_false_iff_eq.1 hrsv]

theorem scan_accepts (hm : m < 8) (h : decScan m d a b x = .ok i) :
    Accepts (asmAC 2 0x23 m d a b) x (litCount (sourcesC 0x23 m) d a b) i := by
  unfold decScan at h
  change Accepts _ _ (litCount (false, true, Nat.ble 4 m) d a b) i
  split at h
  case isTrue hb =>
    rw [hb]
    refine accepts_ab (W := fun a b => asmAC 2 0x23 m d a b) h fun _ hrsv p q _ _ => ⟨?_, rfl⟩
    have := Nat.le_of_ble_eq_true hb
    obtain ⟨hlow, rfl⟩ : m % 4 = 0 ∧ d = 0 := by simpa only [Bool.or_eq_false_iff, bne_eq_false_iff_eq] using hrsv
    obtain rfl : m = 4 := by omega
    rfl
  case isFalse hb =>
    rw [Bool.eq_false_of_not_eq_true hb]
    refine accepts_a (W := fun a => asmAC 2 0x23 m d a b) h fun _ hrsv p _ => ⟨?_, rfl⟩
    have := Nat.not_le_of_not_ble_eq_true hb
    obtain ⟨⟨hlow, rfl⟩, rfl⟩ : (m % 4 = 0 ∧ d = 0) ∧ b = 0 := by
      simpa only [Bool.or_eq_false_iff, bne_eq_false_iff_eq] using hrsv
    obtain rfl : m = 0 := by omega
    rfl

/-- The number of a system register in the fields a and b (R300). -/
theorem sysNum_fields (ha : a < 128) (hb : b < 128) :
    (BitVec.ofNat 14 (a * 128 + b)).toNat / 128 = a ∧ (BitVec.ofNat 14 (a * 128 + b)).toNat % 128 = b := by
  rw [toNat_field (n := 14) (by omega)]
  omega

theorem rdsr_accepts (ha : a < 128) (hb : b < 128) (h : decRdsr m d a b x = .ok i) :
    Accepts (asmAC 2 0x24 m d a b) x (litCount (sourcesC 0x24 m) d a b) i := by
  unfold decRdsr at h
  change Accepts _ _ (litCount (false, m % 2 == 1, false) d a b) i
  split at h
  case isTrue hc =>
    rw [hc]
    refine accepts_da (W := fun d a => asmAC 2 0x24 m d a b) h fun _ hrsv r p _ _ => ⟨?_, rfl⟩
    obtain ⟨hhigh, rfl⟩ : m / 2 = 0 ∧ b = 0 := by simpa only [Bool.or_eq_false_iff, bne_eq_false_iff_eq] using hrsv
    obtain rfl : m = 1 := by
      rw [beq_iff_eq] at hc
      omega
    rfl
  case isFalse hc =>
    rw [Bool.eq_false_of_not_eq_true hc]
    refine accepts_d (W := fun d => asmAC 2 0x24 m d a b) h fun _ hrsv r _ => ⟨?_, rfl⟩
    have hhigh : m / 2 = 0 := bne_eq_false_iff_eq.1 hrsv
    obtain rfl : m = 0 := by
      rw [beq_iff_eq] at hc
      omega
    obtain ⟨h1, h2⟩ := sysNum_fields ha hb
    rw [encode_rdsr_imm, h1, h2]

theorem wrsr_accepts (ha : a < 128) (hb : b < 128) (h : decWrsr m d a b x = .ok i) :
    Accepts (asmAC 2 0x25 m d a b) x (litCount (sourcesC 0x25 m) d a b) i := by
  unfold decWrsr at h
  change Accepts _ _ (litCount (true, m % 2 == 1, false) d a b) i
  split at h
  case isTrue hc =>
    rw [hc]
    refine accepts_sa (W := fun d a => asmAC 2 0x25 m d a b) h fun _ hrsv o p _ _ => ⟨?_, rfl⟩
    obtain ⟨hhigh, rfl⟩ : m / 2 = 0 ∧ b = 0 := by simpa only [Bool.or_eq_false_iff, bne_eq_false_iff_eq] using hrsv
    obtain rfl : m = 1 := by
      rw [beq_iff_eq] at hc
      omega
    rfl
  case isFalse hc =>
    rw [Bool.eq_false_of_not_eq_true hc]
    refine accepts_s (W := fun d => asmAC 2 0x25 m d a b) h fun _ hrsv o _ => ⟨?_, rfl⟩
    have hhigh : m / 2 = 0 := bne_eq_false_iff_eq.1 hrsv
    obtain rfl : m = 0 := by
      rw [beq_iff_eq] at hc
      omega
    obtain ⟨h1, h2⟩ := sysNum_fields ha hb
    rw [encode_wrsr_imm, h1, h2]

theorem setshape_accepts
    (h : outcome (badD d || badS a || m % 4 == 3 || b / 4 % 4 == 3) (m / 4 != 0 || b / 16 != 0) (dst d fun r => src1 a x fun p =>
      .setshape (ReqKind.ofCode (m % 4)) r p (Pol.ofCode (b / 4 % 4)) (Fin.ofNat 4 b)) = .ok i) :
    Accepts (asmAC 2 0x11 m d a b) x (litCount (false, true, false) d a b) i := by
  refine accepts_da (W := fun d a => asmAC 2 0x11 m d a b) h fun hill hrsv r p _ _ => ⟨?_, rfl⟩
  obtain ⟨hm, hbb⟩ : m / 4 = 0 ∧ b / 16 = 0 := by simpa only [Bool.or_eq_false_iff, bne_eq_false_iff_eq] using hrsv
  simp only [Bool.or_eq_false_iff, beq_eq_false_iff_ne] at hill
  obtain ⟨⟨-, hk⟩, hp⟩ := hill
  rw [encode_setshape, encC1, codes_reqKind.encode_low hk, codes_pol.encode_low hp, Nat.mod_eq_of_lt (by omega)]
  congr 2
  simp only [Fin.val_ofNat]
  omega

theorem val_ofNat_of_div (h : m / 4 = 0) : (Fin.ofNat 4 m).val = m := by
  simp only [Fin.val_ofNat]
  omega

theorem decodeC_accepts (hm : m < 8) (hd : d < 128) (ha : a < 128) (hb : b < 128) (h : decodeC op m d a b x = .ok i) :
    Accepts (asmAC 2 op m d a b) x (litCount (sourcesC op m) d a b + b2n (op == 0x14)) i := by
  unfold decodeC at h
  split at h
  case h_1 | h_5 => exact loadC_accepts (fun _ _ _ _ => rfl) (fun _ _ _ _ => rfl) h
  case h_2 | h_6 => exact storeC_accepts (fun _ _ _ _ => rfl) (fun _ _ _ _ => rfl) h
  case h_7 | h_8 => exact atomC_accepts (fun _ _ _ _ => rfl) (fun _ _ _ _ => rfl) hm hb h
  case h_13 | h_20 | h_31 | h_48 => exact aC_accepts (fun _ => rfl) (fun _ => rfl) h
  case h_16 | h_30 | h_32 | h_34 => exact daC_accepts (fun _ _ => rfl) (fun _ _ => rfl) h
  case h_24 | h_27 | h_28 | h_40 | h_44 => exact dabC_accepts (fun _ _ _ => rfl) (fun _ _ _ => rfl) h
  case h_25 | h_29 | h_39 | h_43 => exact flagDa_accepts (fun _ _ _ => rfl) (fun _ _ _ => rfl) h
  case h_33 | h_47 => exact dC_accepts (fun _ => rfl) (fun _ => rfl) h
  case h_21 => exact mma_accepts hm hd h
  case h_35 => exact pick_accepts hm h
  case h_36 => exact scan_accepts hm h
  case h_37 => exact rdsr_accepts ha hb h
  case h_38 => exact wrsr_accepts ha hb h
  case h_18 => exact setshape_accepts h
  case h_3 =>
    refine accepts_da (b := b) (W := fun d a => asmAC 2 0x02 m d a b) h fun hill _ r p _ _ => ⟨?_, rfl⟩
    rw [encode_ldacq, encC1, codes_width.encode_of_ble (Bool.or_eq_false_iff.1 hill).2, toNat_field hb]
  case h_4 =>
    refine accepts_sa (b := b) (W := fun d a => asmAC 2 0x03 m d a b) h fun hill _ o p _ _ => ⟨?_, rfl⟩
    rw [encode_strel, codes_width.encode_of_ble (Bool.or_eq_false_iff.1 hill).2, toNat_field hb]
  case h_9 =>
    refine accepts_ab (W := fun a b => asmAC 2 0x08 m d a b) h fun hill hrsv p q _ _ => ⟨?_, rfl⟩
    rw [encode_pref, codes_flag.encode_of_ble (Bool.or_eq_false_iff.1 hill).2, bne_eq_false_iff_eq.1 hrsv]
  case h_10 =>
    refine accepts_fixed (d := d) (b := b) h fun hill hrsv => ⟨?_, rfl⟩
    obtain ⟨⟨hhigh, rfl⟩, rfl⟩ : (m / 4 = 0 ∧ d = 0) ∧ a = 0 := by
      simpa only [Bool.or_eq_false_iff, bne_eq_false_iff_eq] using hrsv
    rw [encode_fence, codes_fenceKind.encode_low (beq_eq_false_iff_ne.1 hill), toNat_field hb, Nat.mod_eq_of_lt (by omega)]
  case h_11 =>
    refine accepts_fixed (d := d) (b := b) h fun hill hrsv => ⟨?_, rfl⟩
    obtain ⟨rfl, rfl⟩ : d = 0 ∧ a = 0 := by simpa using hrsv
    rw [encode_qfence, codes_flag.encode_of_ble hill, toNat_field hb]
  case h_12 =>
    refine accepts_d (b := b) (W := fun d => asmAC 2 0x0B m d a b) h fun hill hrsv r _ => ⟨?_, rfl⟩
    obtain ⟨rfl, hbb⟩ : a = 0 ∧ b / 4 = 0 := by simpa only [Bool.or_eq_false_iff, bne_eq_false_iff_eq] using hrsv
    rw [encode_talloc, codes_tileLevel.encode_flagged hm (by simp_all), val_ofNat_of_div hbb]
  case h_14 =>
    refine accepts_dab h fun hill _ r p q _ _ _ => ⟨?_, rfl⟩
    rw [encode_trd, encC, codes_trdQ.encode_flagged hm (by simp_all)]
  case h_15 =>
    refine accepts_sab h fun hill _ o p q _ _ _ => ⟨?_, rfl⟩
    rw [encode_twr, encC3, codes_twrQ.encode_flagged hm (by simp_all)]
  case h_17 =>
    refine accepts_ab (W := fun a b => asmAC 2 0x10 m d a b) h fun _ hrsv p q _ _ => ⟨?_, rfl⟩
    rw [encode_copy, flagged_fin_encode hm, bne_eq_false_iff_eq.1 hrsv]
  case h_19 =>
    refine accepts_d (b := b) (W := fun d => asmAC 2 0x12 m d a b) h fun _ hrsv r _ => ⟨?_, rfl⟩
    obtain ⟨⟨rfl, rfl⟩, hbb⟩ : (m = 0 ∧ a = 0) ∧ b / 4 = 0 := by simpa only [Bool.or_eq_false_iff, bne_eq_false_iff_eq] using hrsv
    rw [encode_rdshape, val_ofNat_of_div hbb]
  case h_22 =>
    refine accepts_sab h fun _ _ o p q _ _ _ => ⟨?_, rfl⟩
    rw [encode_mdrain, encC3, flagged_fin_encode hm]
  case h_23 =>
    refine accepts_a (b := b) (W := fun a => asmAC 2 0x16 m d a b) h fun _ hrsv p _ => ⟨?_, rfl⟩
    obtain ⟨⟨hhigh, rfl⟩, rfl⟩ : (m / 4 = 0 ∧ d = 0) ∧ b = 0 := by
      simpa only [Bool.or_eq_false_iff, bne_eq_false_iff_eq] using hrsv
    rw [encode_mzero, val_ofNat_of_div hhigh]
  case h_26 =>
    refine accepts_ab (W := fun a b => asmAC 2 0x19 m d a b) h fun _ hrsv p q _ _ => ⟨?_, rfl⟩
    obtain ⟨rfl, rfl⟩ : m = 0 ∧ d = 0 := by simpa using hrsv
    rfl
  case h_41 =>
    refine accepts_da (b := b) (W := fun d a => asmAC 2 0x28 m d a b) h fun hill hrsv r p _ _ => ⟨?_, rfl⟩
    rw [encode_tresume, encC1, codes_flag.encode_of_ble (Bool.or_eq_false_iff.1 hill).2, bne_eq_false_iff_eq.1 hrsv]
  case h_42 =>
    refine accepts_ab (W := fun a b => asmAC 2 0x29 m d a b) h fun _ hrsv p q _ _ => ⟨?_, rfl⟩
    obtain ⟨hhigh, rfl⟩ : m / 2 = 0 ∧ d = 0 := by simpa only [Bool.or_eq_false_iff, bne_eq_false_iff_eq] using hrsv
    rw [encode_evsel, codes_flag.encode _ (by omega), Nat.mod_eq_of_lt (by omega)]
  case h_45 =>
    refine accepts_sab h fun hill _ o p q _ _ _ => ⟨?_, rfl⟩
    rw [encode_tlbinv, encC3, codes_tlbK.encode_of_ble (Bool.or_eq_false_iff.1 hill).2]
  case h_46 =>
    refine accepts_dab h fun hill _ r p q _ _ _ => ⟨?_, rfl⟩
    rw [encode_deadrg, encC, codes_deadK.encode_of_ble (Bool.or_eq_false_iff.1 hill).2]
  case h_49 => cases h

end

theorem encode_header {w : W32} (h : bits w.toNat 31 30 = 3) : encode (decodeH w.toNat) = [w] := by
  rw [decodeH, encode_clauseStart, List.singleton_inj]
  dsimp only
  rw [toNat_field (n := 12) (bits_lt _ _ _), toNat_field (n := 4) (bits_lt _ 17 14), toNat_field (n := 4) (bits_lt _ 13 10),
    toNat_field (n := 4) (bits_lt _ 9 6), toNat_field (n := 2) (bits_lt _ 5 4), toNat_field (n := 2) (bits_lt _ 3 2),
    toNat_field (n := 2) (bits_lt _ 1 0)]
  apply BitVec.eq_of_toNat_eq
  simp only [bits, BitVec.toNat_ofNat] at *
  have := w.isLt
  omega

theorem decodeWord_accepts {w : W32} {x : List W32} {i : Instr} (h : decodeWord w.toNat x = .ok i) :
    ∃ n, Accepts w x n i ∧ wordSpan w = n + 1 := by
  have hlt (hi lo : Nat) := bits_lt w.toNat hi lo
  obtain hcls | hcls | hcls | hcls : bits w.toNat 31 30 = 0 ∨ bits w.toNat 31 30 = 1 ∨ bits w.toNat 31 30 = 2 ∨ bits w.toNat 31 30 = 3 := by
    have := hlt 31 30
    omega
  all_goals simp only [decodeWord, hcls] at h
  · have hacc := decodeA_accepts (hlt 23 21) (hlt 6 0) h
    rw [asmAC_bits hcls] at hacc
    refine ⟨_, hacc, ?_⟩
    simp only [wordSpan, hcls, Nat.add_comm]
  · have hacc := decodeB_accepts (hlt 24 18) (hlt 10 0) h
    rw [asmB_bits hcls] at hacc
    refine ⟨_, hacc, ?_⟩
    simp only [wordSpan, hcls]
    omega
  · have hacc := decodeC_accepts (hlt 23 21) (hlt 20 14) (hlt 13 7) (hlt 6 0) h
    rw [asmAC_bits hcls] at hacc
    refine ⟨_, hacc, ?_⟩
    simp only [wordSpan, hcls]
    omega
  · obtain rfl := Except.ok.inj h
    exact ⟨0, ⟨rfl, [], encode_header hcls, List.nil_prefix, rfl⟩, by simp only [wordSpan, hcls]⟩

/-- Settles O46, by the opcode of the first word: what its decoder accepts encodes to that word and the literals it has read. -/
theorem encodeDecodeAgree : Obligations.EncodeDecodeAgree := by
  intro i ws h
  cases ws with
  | nil => cases h
  | cons w x =>
    obtain ⟨n, ⟨hwf, l, henc, hl, hlen⟩, hspan⟩ := decodeWord_accepts h
    have hwords : i.words = n + 1 := by rw [Instr.words, henc, List.length_cons, hlen]
    refine ⟨by rw [Instr.encoded, henc]; rfl, hwf, ?_, ?_⟩
    · rw [henc, hwords, List.take_succ_cons, ← hlen, List.prefix_iff_eq_take.1 hl]
      simp
    · rintro _ _ ⟨⟩
      rw [hwords, hspan]

end Sys2Proof.Encoding
end

section
/-!
PROOF. O48: every step keeps the canonical form of the memories. Each instruction and each event is shown to keep it, then the step.
-/
namespace Sys2Proof.Canon
open Sys2Proof Sys2Proof.Machine Sys2Proof.Laws

/-! ## Outcomes whose state is canonical -/

/-- A state that a computation may give is canonical: none, where it gives none. -/
def KeptO (r : Option State) : Prop := ∀ s, r = some s → memOk (mems s)

/-- A state that an instruction's meaning may give is canonical: none, where it traps. -/
def KeptE {ε : Type} (r : Except ε State) : Prop := ∀ s, r = .ok s → memOk (mems s)

/-- The next state of an outcome is canonical. -/
def KeptN (r : Host.Outcome State Fault Refusal) : Prop := ∀ s, r = .next s → memOk (mems s)

@[simp] theorem keptO_none : KeptO none := fun _ h => nomatch h
@[simp] theorem keptO_some {s : State} : KeptO (some s) ↔ memOk (mems s) := ⟨fun h => h s rfl, fun h _ e => Option.some.inj e ▸ h⟩
@[simp] theorem keptE_error {ε : Type} (x : ε) : KeptE (Except.error x : Except ε State) := fun _ h => nomatch h
@[simp] theorem keptE_ok {ε : Type} {s : State} : KeptE (Except.ok s : Except ε State) ↔ memOk (mems s) :=
  ⟨fun h => h s rfl, fun h _ e => Except.ok.inj e ▸ h⟩
@[simp] theorem keptN_next {s : State} : KeptN (.next s) ↔ memOk (mems s) :=
  ⟨fun h => h s rfl, fun h _ e => Host.Outcome.next.inj e ▸ h⟩

theorem keptE_bind {ε α : Type} {x : Except ε α} {f : α → Except ε State} (h : ∀ a, x = .ok a → KeptE (f a)) : KeptE (x >>= f) := by
  cases x with
  | error e => exact keptE_error e
  | ok a => exact h a rfl

theorem keptO_bind {α : Type} {x : Option α} {f : α → Option State} (h : ∀ a, x = some a → KeptO (f a)) : KeptO (x >>= f) := by
  cases x with
  | none => exact keptO_none
  | some a => exact h a rfl

section
variable {s : State} (h : memOk (mems s))
include h

theorem kept_runAgent (n : Nat) (f : Env → Team → Except Trap Team) : KeptN (runAgent s n f) := fun _ hr => runAgent_memOk h hr

theorem kept_runState {f : Env → Team → Except Trap State} (hf : ∀ e t, KeptE (f e t)) : KeptN (runState s f) :=
  fun _ hr => runState_memOk h hf hr

theorem kept_runCommit (i : Instr) {f : State → Env → Team → Except Trap State} (hf : ∀ e t, KeptE (f s e t)) : KeptN (runCommit i s f) :=
  fun _ hr => runCommit_memOk h hf hr

theorem kept_runEvent {r : Option State} (hr : KeptO r) : KeptN (runEvent s r) := fun _ he => runEvent_memOk h hr he

theorem kept_runMove (f : Env → Team → Except Trap Team) : KeptN (runMove s f) :=
  kept_runState h fun e t => by split <;> simp [h]

theorem kept_runUnwind (f : Env → Team → Except Trap Team) : KeptN (runUnwind s f) :=
  kept_runState h fun e t => by split <;> simp [h]

theorem kept_runPark (i : Instr) (d : Reg) (a b : Src) : KeptN (runPark i d a b s) :=
  kept_runState h fun e t => keptE_bind fun t' _ => by simp [h]

theorem kept_onPort (p : PortId) {r : Option State} (hr : KeptO r) : KeptN (onPort s p r) :=
  kept_runEvent h (by split <;> simp [hr])

end

section
variable {s : State} (h : memOk (mems s))
include h

@[simp] theorem kept_hold (mb : Nat) (i : Instr) : KeptO (s.hold mb i) := fun _ hr => by
  rw [hold_mems hr]
  exact h

end

theorem kept_spdm {s : State} (h : memOk (mems s)) (i : Instr) (op : MsgOp) (tag : Nat) (body : List W64) : KeptN (s.spdm i op tag body) := by
  refine kept_runEvent h ?_
  split <;> simp [h]

theorem kept_finishCmd {s : State} (h : memOk (mems s)) (id : Nat) (c : EngCmd) {r : Except EngErr State} (hr : KeptE r) :
    KeptO (s.finishCmd id c r) := fun _ he => finishCmd_ok h hr he

theorem granuleForm_ok {i : Instr} {f : State → Env → Team → Except Trap State} (hf : granuleForm i = some f) (s s1 : State) (e : Env)
    (t : Team) (h : memOk (mems s)) (hr : f s e t = .ok s1) : memOk (mems s1) := by
  unfold granuleForm at hf
  split at hf
  · obtain rfl := Option.some.inj hf
    exact trdForm_ok h hr
  · obtain rfl := Option.some.inj hf
    exact twrForm_ok h hr
  · cases hf

theorem foldl_fst_mems {α β : Type} {f : State × β → α → State × β} (h : ∀ r x, mems (f r x).1 = mems r.1) :
    ∀ (l : List α) (r : State × β), mems (l.foldl f r).1 = mems r.1
  | [], _ => rfl
  | x :: l, r => (foldl_fst_mems h l (f r x)).trans (h r x)

theorem keepImage_mems (r : State × List KeepData) (i : Image) : mems (State.keepImage r i).1 = mems r.1 := rfl

theorem keptO_withFw {s : State} (f : Firmware) (h : memOk (mems s)) : KeptO (some { s with fw := f }) := keptO_some.2 h

theorem copyUncorrectable_mems {s s1 : State} {c : CopyOp} {p : Pattern} {u : Nat} (h : s.copyUncorrectable c p u = some s1) :
    mems s1 = mems s := by
  simp only [State.copyUncorrectable, ite_eq_iff (c := some s1)] at h
  obtain ⟨-, h⟩ | ⟨-, h⟩ := h
  · rw [Option.some.inj h]
  · obtain ⟨g, -, hg⟩ := Option.bind_eq_some_iff.1 h
    split at hg
    · split at hg
      · cases hg
      · rw [← Option.some.inj hg, addPoison_mems]
    · rw [Option.some.inj hg]

theorem codeUncorrectable_mems {s s1 : State} {e : DecEntry} (h : s.codeUncorrectable e = some s1) : mems s1 = mems s := by
  simp only [State.codeUncorrectable] at h
  obtain ⟨g, -, hg⟩ := Option.bind_eq_some_iff.1 h
  split at hg
  · split at hg
    · cases hg
    · rw [← Option.some.inj hg, addPoison_mems]
  · rw [Option.some.inj hg]

@[simp] theorem findResiduals_mems (s : State) (gid core : Nat) (o : ObjRec) (k : Task) (bs : Option (List (Nat × Byte))) :
    mems (s.findResiduals gid core o k bs) = mems s := by
  unfold State.findResiduals
  cases bs with
  | none => rfl
  | some bs =>
    dsimp only
    split
    · rfl
    · split <;> exact foldl_fst_mems (fun r x => by simp) _ _

theorem carveInstance_mems {s s1 : State} {core launch : Nat} {l : Launch} {k : Task} {r : Rcb} {o : ObjRec} {bs : Option (List (Nat × Byte))}
    {gix : Nat} (h : s.carveInstance core launch l k r o bs gix = some s1) : mems s1 = mems s := by
  simp only [State.carveInstance] at h
  split at h
  · cases h
  split at h
  · simp [← Option.some.inj h]
  split at h
  · simp [← Option.some.inj h]
  · cases h

theorem carveAll_mems {cores : List Nat} {launch : Nat} {l : Launch} {k : Task} {r : Rcb} {o : ObjRec} {bs : Option (List (Nat × Byte))}
    {s1 : State} : ∀ (is : List Nat) {s : State}, s.carveAll cores launch l k r o bs is = some s1 → mems s1 = mems s
  | [], s, h => by rw [Option.some.inj h]
  | i :: is, s, h => by
    simp only [State.carveAll] at h
    split at h
    case h_1 s2 hs =>
      obtain ⟨c, -, hc⟩ := List.exists_of_findSome?_eq_some hs
      rw [carveAll_mems is h, carveInstance_mems hc]
    case h_2 => cases h

theorem popHead_mems {s s1 : State} {core : Nat} {hd : HeadRec} {bs : Option (List (Nat × Byte))} (h : s.popHead core hd bs = some s1) :
    mems s1 = mems s := by
  simp only [State.popHead] at h
  split at h
  · rw [Option.some.inj h]
  have hframe : mems (if hd.task.decant then s.mapFrame hd.ctx hd.entry.launch hd.task.frame ‹ObjRec›.smask else s) = mems s := by
    split <;> simp
  split at h
  · rw [carveAll_mems _ h, hframe]
  · rw [carveInstance_mems h, hframe]

@[simp] theorem readHead_mems (s s0 : State) (die : Nat) (hd : HeadRec) : mems (s.readHead s0 die hd) = mems s := by
  simp only [State.readHead]
  repeat' split
  · exact sendReqs_mems _ _
  all_goals rfl

@[simp] theorem readCode_mems (s : State) (e : DecEntry) : mems (s.readCode e) = mems s := by
  simp only [State.readCode, sendReqs_mems]
  exact foldl_mems (fun _ _ => sawAt_mems _ _ _ _ _) _ _

@[simp] theorem takeImage_mems (s : State) (x : FwReload) : mems (s.takeImage x) = mems s := by
  simp only [State.takeImage]
  split <;> rfl

section
variable {s : State} (h : memOk (mems s))
include h

theorem execLd_kept (w : Width) (d : Reg) (a b : Src) : KeptN (execLd w d a b s) := kept_runState h fun _ _ _ hr => loadForm_ok h hr
theorem execLdstr_kept (w : Width) (d : Reg) (a b : Src) : KeptN (execLdstr w d a b s) := kept_runState h fun _ _ _ hr => loadForm_ok h hr
theorem execLdacq_kept (w : Width) (d : Reg) (a : Src) (obs : BitVec 7) : KeptN (execLdacq w d a obs s) :=
  kept_runState h fun _ _ _ hr => loadForm_ok h hr
theorem execSt_kept (w : Width) (x a b : Src) : KeptN (execSt w x a b s) := kept_runState h fun _ _ _ hr => storeForm_ok h hr
theorem execStstr_kept (w : Width) (x a b : Src) : KeptN (execStstr w x a b s) := kept_runState h fun _ _ _ hr => storeForm_ok h hr
theorem execStrel_kept (w : Width) (x a : Src) (obs : BitVec 7) : KeptN (execStrel w x a obs s) :=
  kept_runCommit h _ fun _ _ _ hr => strelForm_ok h hr
theorem execLds_kept (d : Reg) (a : Src) (imm : BitVec 11) : KeptN (execLds d a imm s) :=
  kept_runState h fun _ _ => keptE_bind fun _ _ _ hr => holdLoad_ok h hr
theorem execLdf_kept (d : Reg) (imm : BitVec 11) : KeptN (execLdf d imm s) := kept_runState h fun _ _ _ hr => holdLoad_ok h hr
theorem execAtom_kept (o : AtomOp) (d : Reg) (a : Src) (obs : BitVec 7) : KeptN (execAtom o d a obs s) :=
  kept_runCommit h _ fun _ _ _ hr => atomForm_ok h hr
theorem execAtom64_kept (o : AtomOp) (d : Reg) (a : Src) (obs : BitVec 7) : KeptN (execAtom64 o d a obs s) :=
  kept_runCommit h _ fun _ _ _ hr => atomForm_ok h hr
theorem execTrd_kept (wide : Bool) (q : TrdQ) (d : Reg) (a b : Src) : KeptN (execTrd wide q d a b s) :=
  kept_runState h fun _ _ _ hr => trdForm_ok h hr
theorem execTwr_kept (wide : Bool) (q : TwrQ) (x a b : Src) : KeptN (execTwr wide q x a b s) :=
  kept_runState h fun _ _ _ hr => twrForm_ok h hr
theorem execSetshape_kept (k : ReqKind) (d : Reg) (a : Src) (p : Pol) (sh : Fin 4) : KeptN (execSetshape k d a p sh s) := by
  refine kept_runState h fun e t => ?_
  split
  · simp [h]
  · exact fun _ hr => setshapeForm_ok h hr
theorem execTlbinv_kept (k : TlbK) (d a b : Src) : KeptN (execTlbinv k d a b s) := kept_runState h fun _ _ _ hr => tlbinvForm_ok h hr
theorem execBarv_kept (wait : Bool) (d : Reg) (a : Src) : KeptN (execBarv wait d a s) := by
  refine kept_runState h fun e t => ?_
  split
  · exact keptE_error _
  case h_2 s1 hr =>
    rw [keptE_ok]
    split
    · simp [h]
    · exact barvForm_ok h hr
theorem execCopy_kept (xf : Bool) (cq : Fin 4) (a b : Src) : KeptN (execCopy xf cq a b s) := kept_runState h fun _ _ _ hr => copyForm_ok h hr
theorem execExit_kept : KeptN (execExit s) := kept_runCommit h _ fun _ _ _ hr => exitForm_ok h hr
theorem execEnq_kept (d : Reg) (a : Src) : KeptN (execEnq d a s) := kept_runCommit h _ fun _ _ _ hr => enqForm_ok h hr
theorem execCont_kept (a : Src) : KeptN (execCont a s) := kept_runCommit h _ fun _ _ _ hr => contForm_ok h hr
theorem execMemoryRequestAtHome_kept (op lane : Nat) (o : HomeOutcome) : KeptN (execMemoryRequestAtHome op lane o s) :=
  kept_runEvent h fun _ hr => requestAt_ok h hr
theorem execBankLoad_kept (core image : Nat) : KeptN (execBankLoad core image s) := kept_runEvent h fun _ hr => by
  rw [loadBank_mems hr]
  exact h
theorem execGranuleWaitTimeout_kept (tid : Nat) : KeptN (execGranuleWaitTimeout tid s) := kept_runEvent h fun _ hr => by
  rw [granuleTimeout_mems hr]
  exact h
theorem execBarrierTimeout_kept (tid : Nat) : KeptN (execBarrierTimeout tid s) := kept_runEvent h fun _ hr => by
  rw [barrierTimeout_mems hr]
  exact h
theorem execRendezvousTimeout_kept (tid : Nat) : KeptN (execRendezvousTimeout tid s) := kept_runEvent h fun _ hr => by
  rw [rendezvousTimeout_mems hr]
  exact h
theorem execHostSubmit_kept (tag ctx addr die : Nat) : KeptN (execHostSubmit tag ctx addr die s) := by
  refine kept_runEvent h ?_
  split
  · exact keptO_none
  split
  · exact fun _ hr => submit_ok (fun _ _ => reply_mems _ _ _ _ _) h hr
  · exact kept_hold h _ _
theorem execRecoveryPlace_kept (ctx : Tagged Nat) (addr die : Nat) : KeptN (execRecoveryPlace ctx addr die s) := by
  refine kept_runEvent h ?_
  split
  · exact fun _ hr => submit_ok (fun _ _ => pf1Reply_mems _ _ _ _) h hr
  · exact keptO_none
theorem execPickCommandExecute_kept (die : Nat) : KeptN (execPickCommandExecute die s) := by
  refine kept_runEvent h (keptO_bind fun x _ => ?_)
  split
  · exact kept_finishCmd h _ _ fun _ hr => pickRun_ok h hr
  · exact keptO_none
theorem execScanCommandExecute_kept (cmd : Nat) (picked : List Nat) : KeptN (execScanCommandExecute cmd picked s) := by
  refine kept_runEvent h (keptO_bind fun c _ => ?_)
  split
  · split
    case h_1 => exact keptO_none
    case h_2 s1 hs => exact kept_finishCmd h _ _ (keptE_ok.2 (scanRun_ok h hs))
    case h_3 x _ => exact kept_finishCmd (by simp [h]) _ _ (keptE_error x)
  · exact keptO_none
theorem execJoinBlockUpdate_kept (id : Nat) : KeptN (execJoinBlockUpdate id s) := by
  refine kept_runEvent h (keptO_bind fun j _ => ?_)
  split
  · split
    case h_1 s1 hs =>
      have := joinRun_ok h hs
      simp [this]
    case h_4 => exact keptO_none
    all_goals simp [h]
  · exact keptO_none
theorem execCopyStallEnd_kept (tid : Nat) : KeptN (execCopyStallEnd tid s) := by
  refine kept_runEvent h (keptO_bind fun t _ => ?_)
  repeat' split
  · exact keptO_some.2 (reissue_ok _ (fun _ _ _ _ h1 hr => copyForm_ok h1 hr) h)
  · exact keptO_none
  · exact keptO_none
theorem execGranuleWaitEnd_kept (tid : Nat) : KeptN (execGranuleWaitEnd tid s) := by
  refine kept_runEvent h (keptO_bind fun t _ => ?_)
  split
  · refine keptO_bind fun f hf => ?_
    dsimp only
    split
    · exact keptO_some.2 (reissue_ok _ (granuleForm_ok hf) h)
    · exact keptO_none
  · exact keptO_none
theorem execCopyAcknowledge_kept (cp : Nat) : KeptN (execCopyAcknowledge cp s) := by
  refine kept_runEvent h (keptO_bind fun c _ => ?_)
  split
  · exact fun _ hr => by
      rw [ackCopy_mems hr]
      exact h
  · exact keptO_none
theorem execCopyBegin_kept (cp : Nat) : KeptN (execCopyBegin cp s) := by
  refine kept_runEvent h (keptO_bind fun c _ => ?_)
  dsimp only
  repeat' split
  all_goals simp [h]
theorem execFenceWaitEnd_kept (tid : Nat) : KeptN (execFenceWaitEnd tid s) := by
  refine kept_runEvent h (keptO_bind fun t _ => ?_)
  split
  · split <;> simp [h]
  · split <;> simp [h]
  · split
    · exact fun _ hr => tlbGoOn_ok h hr
    · exact keptO_none
  · exact keptO_none
theorem execBalancerMoveSwap_kept (gid : Nat) : KeptN (execBalancerMoveSwap gid s) := by
  refine kept_runEvent h (keptO_bind fun g _ => keptO_bind fun m _ => ?_)
  dsimp only
  split
  · exact fun _ hr => by
      rw [moveGroup_mems hr]
      exact h
  · exact keptO_none
theorem execReset_kept (sec : FwImage) (others : List FwImage) : KeptN (execReset sec others s) :=
  kept_runEvent h (keptO_some.2 ⟨rfl, h.2⟩)
theorem execPowerLoss_kept : KeptN (execPowerLoss s) := by
  refine kept_runEvent h ?_
  split
  · generalize List.range Config.nCores = cores
    refine keptO_withFw _ ?_
    rw [foldl_fst_mems keepImage_mems]
    exact foldl_ok (fun _ _ => swapCoreOut_ok _) _ _ h
  · exact keptO_none

theorem execInternalQueueResend_kept (core home : Nat) : KeptN (execInternalQueueResend core home s) := by
  refine kept_runEvent h ?_
  split
  · exact fun _ hr => by
      rw [mailResend_mems hr]
      exact h
  · split <;> simp [h]
theorem execTrdComplete_kept (op : Nat) (bad : List Nat) : KeptN (execTrdComplete op bad s) := by
  refine kept_runEvent h (keptO_bind fun o _ => ?_)
  dsimp only
  repeat' split
  all_goals simp [h]
theorem execCurveDecision_kept (core : Nat) : KeptN (execCurveDecision core s) := by
  refine kept_runEvent h (keptO_bind fun f _ => ?_)
  dsimp only
  repeat' split
  all_goals simp [h]
theorem execEmulationComplete_kept (tid : Nat) : KeptN (execEmulationComplete tid s) := by
  refine kept_runEvent h (keptO_bind fun t _ => ?_)
  split
  · refine keptO_bind fun t1 _ => ?_
    split <;> simp [h]
  · exact keptO_none
theorem execCopyLand_kept (cp elem : Nat) (o : LandOutcome) : KeptN (execCopyLand cp elem o s) := by
  refine kept_runEvent h (keptO_bind fun c _ => ?_)
  dsimp only
  split
  · split
    · intro s2 hs
      obtain ⟨s1, h1, rfl⟩ := Option.map_eq_some_iff.1 hs
      simp [copyUncorrectable_mems h1, h]
    · split <;> simp [h]
  · exact keptO_none
theorem execMma_kept (g : Bool) (sh : Fin 4) (d : BitVec 7) (a b : Src) (mode : MmaMode) (idx fmt : BitVec 7) :
    KeptN (execMma g sh d a b mode idx fmt s) := by
  refine kept_runState h fun e t => keptE_bind fun op _ => keptE_bind fun _ _ => ?_
  dsimp only
  split <;> simp [h]
theorem execMqOperationBegin_kept (core : Nat) : KeptN (execMqOperationBegin core s) := by
  refine kept_runEvent h (keptO_bind fun m _ => ?_)
  dsimp only
  repeat' split
  all_goals simp [h]
theorem execMmaComplete_kept (op : Nat) (err : Bool) : KeptN (execMmaComplete op err s) := by
  refine kept_runEvent h (keptO_bind fun m _ => ?_)
  split
  · split
    · exact keptO_none
    · refine keptO_some.2 (foldl_ok (fun _ _ h1 => by simp [h1]) _ _ ?_)
      rw [endMq_mems, ctxEvent_mems]
      exact foldl_ok (fun _ _ h1 => mqRows_ok _ _ _ _ h1) _ _ h
  · exact keptO_none
  · exact keptO_none
theorem execMdrainComplete_kept (op : Nat) (bad : List Nat) : KeptN (execMdrainComplete op bad s) := by
  refine kept_runEvent h (keptO_bind fun m _ => ?_)
  split
  · dsimp only
    repeat' split
    all_goals simp [h, foldl_mems (fun _ _ => endPart_mems _ _ _ _)]
  · exact keptO_none
  · exact keptO_none
theorem execPick_kept (o : PickOp) (d a : Src) (b : Option Src) : KeptN (execPick o d a b s) := by
  refine kept_runState h fun e t => ?_
  simp only [bind, Except.bind]
  repeat' split
  all_goals simp [h, foldl_mems (fun _ _ => postCmd_mems _ _)]
theorem execDispatchPop_kept (core : Nat) : KeptN (execDispatchPop core s) := by
  refine kept_runEvent h ?_
  dsimp only
  split
  · exact keptO_none
  refine keptO_bind fun c _ => ?_
  split
  · simp [h]
  · exact keptO_none
  · refine keptO_bind fun s1 hs => keptO_some.2 ?_
    have hpop : memOk (mems (((s1.readHead s (dieOf core) c.1).takeHead (dieOf core) c.1 (s.popCount c.1)))) := by
      simp [popHead_mems hs, h]
    split
    · rw [closeContext_mems, endLaunch_mems]
      exact hpop
    · exact hpop
theorem execDecantComplete_kept (die entry : Nat) (failed : Bool) : KeptN (execDecantComplete die entry failed s) := by
  refine kept_runEvent h (keptO_bind fun e _ => ?_)
  split
  case isFalse => exact keptO_none
  split
  · intro s2 hs
    obtain ⟨s1, h1, rfl⟩ := Option.map_eq_some_iff.1 hs
    simp [codeUncorrectable_mems h1, h]
  split
  · simp [h]
  · dsimp only
    split
    · simp [h]
    case h_2 s1 hr =>
      have hroom : memOk (mems s1) := by simp [roomFor_mems hr, h]
      rw [keptO_some]
      split
      · rw [placeGroups_mems]
        exact hroom
      · exact hroom
  · simp [h]
  · exact keptO_none
theorem execGroupRelease_kept (gid : Nat) : KeptN (execGroupRelease gid s) := by
  refine kept_runEvent h (keptO_bind fun g _ => keptO_bind fun l _ => ?_)
  dsimp only
  split <;> simp [h]
theorem execBalancerQueueMove_kept (ctx region die idx toDie : Nat) : KeptN (execBalancerQueueMove ctx region die idx toDie s) := by
  refine kept_runEvent h (keptO_bind fun q _ => keptO_bind fun e _ => ?_)
  generalize hb : (_ && _ : Bool) = ok
  cases ok with
  | false => exact keptO_none
  | true => 
    refine keptO_some.2 ?_
    rw [dieEvent_mems]
    exact pushEntry_ok _ _ _ _ _ h
theorem execHandlerStart_kept (core : Nat) : KeptN (execHandlerStart core s) := by
  refine kept_runEvent h ?_
  dsimp only
  refine keptO_bind fun ctx _ => keptO_bind fun tid _ => keptO_bind fun t _ => keptO_bind fun g _ => keptO_bind fun r _ => ?_
  repeat' split
  all_goals simp [h]
theorem execSwapResume_kept (core : Nat) : KeptN (execSwapResume core s) := by
  refine kept_runEvent h ?_
  dsimp only
  refine keptO_bind fun c _ => ?_
  split
  · rw [keptO_some, foldl_mems (fun _ _ => waitAgain_mems _ _ _)]
    simp [h]
  · exact keptO_none
theorem execCorrelationRecordPeriodic_kept (core : Nat) : KeptN (execCorrelationRecordPeriodic core s) := by
  refine kept_runEvent h ?_
  split
  · exact keptO_some.2 (correlate_ok _ _ h)
  · exact keptO_none
theorem execCkptImageWrite_kept (core : Nat) : KeptN (execCkptImageWrite core s) := by
  refine kept_runEvent h (keptO_bind fun k _ => keptO_bind fun t _ => ?_)
  dsimp only
  repeat' split
  all_goals simp [h]
theorem execImageRestore_kept (core : Nat) (place : Tagged ImagePlace) : KeptN (execImageRestore core place s) := by
  refine kept_runEvent h ?_
  split
  case isFalse => exact kept_hold h _ _
  split
  · simp [h]
  dsimp only
  split
  case h_1 s1 hs =>
    split at hs
    · simp [restoreImage_mems hs, h]
    · cases hs
  case h_2 => simp [h]
theorem execTrainingAttemptEnd_kept (p : PortId) (ok : Bool) (peer : Nat) : KeptN (execTrainingAttemptEnd p ok peer s) := by
  refine kept_onPort h _ ?_
  dsimp only
  repeat' split
  all_goals simp [h]
theorem execFlitReceive_kept (p : PortId) (f : Flit) : KeptN (execFlitReceive p f s) := by
  refine kept_onPort h _ ?_
  dsimp only
  split <;> simp [h]
theorem execContextCreate_kept (tag ctx pasid root : Nat) (regions : List (Nat × Nat)) (rootRegion : Nat) :
    KeptN (execContextCreate tag ctx pasid root regions rootRegion s) := by
  refine kept_runEvent h ?_
  dsimp only
  repeat' split
  all_goals simp [h]
theorem execRecoveryReset_kept (core : Tagged FwReload) : KeptN (execRecoveryReset core s) := by
  refine kept_runEvent h ?_
  dsimp only
  split
  · rw [keptO_some]
    split
    · rw [pf1Reply_mems]
      exact restartCore_ok _ (by simp [h])
    · simp [h]
  · exact keptO_none

end

section
variable {s : State} (h : memOk (mems s))
include h

theorem execSts_kept (x a : Src) (imm : BitVec 11) : KeptN (execSts x a imm s) := by
  refine kept_runState h fun e t => ?_
  dsimp only [bind, Except.bind]
  repeat' split
  all_goals simp [h]

theorem execLoadComplete_kept (op : Nat) : KeptN (execLoadComplete op s) := by
  refine kept_runEvent h (keptO_bind fun x hx => ?_)
  repeat' split
  all_goals simp [h]

theorem execAtomicComplete_kept (op : Nat) : KeptN (execAtomicComplete op s) := by
  refine kept_runEvent h (keptO_bind fun x hx => ?_)
  repeat' split
  all_goals simp [h]

theorem execHomeFaultReplay_kept (home : Nat) : KeptN (execHomeFaultReplay home s) := by
  refine kept_runEvent h ?_
  repeat' split
  all_goals simp [h]

theorem execPeerHoldRelease_kept (op lane : Nat) : KeptN (execPeerHoldRelease op lane s) := by
  refine kept_runEvent h (keptO_bind fun x hx => keptO_bind fun y hy => ?_)
  repeat' split
  all_goals simp [h]

theorem execTalloc_kept (full : Bool) (l : TileLevel) (d : Reg) (sh : Fin 4) : KeptN (execTalloc full l d sh s) := by
  refine kept_runState h fun e t => ?_
  dsimp only [bind, Except.bind]
  repeat' split
  all_goals simp [h]

theorem execTfree_kept (a : Src) : KeptN (execTfree a s) := by
  refine kept_runState h fun e t => ?_
  dsimp only [bind, Except.bind]
  repeat' split
  all_goals simp [h]

theorem execTileRestore_kept (tile granule : Nat) : KeptN (execTileRestore tile granule s) := by
  refine kept_runEvent h (keptO_bind fun x hx => keptO_bind fun y hy => ?_)
  repeat' split
  all_goals simp [h]

theorem execTileSpill_kept (tile : Nat) : KeptN (execTileSpill tile s) := by
  refine kept_runEvent h (keptO_bind fun x hx => keptO_bind fun y hy => ?_)
  repeat' split
  all_goals simp [h]

theorem execCurve_kept (d : Reg) (p : BitVec 3) (acc : BitVec 6) : KeptN (execCurve d p acc s) := by
  refine kept_runState h fun e t => ?_
  dsimp only [bind, Except.bind]
  repeat' split
  all_goals simp [h]

theorem execCurveDecisionAbandon_kept (core : Nat) : KeptN (execCurveDecisionAbandon core s) := by
  refine kept_runEvent h (keptO_bind fun x hx => ?_)
  repeat' split
  all_goals simp [h]

theorem execCurveRampStart_kept (core : Nat) : KeptN (execCurveRampStart core s) := by
  refine kept_runEvent h (keptO_bind fun x hx => ?_)
  repeat' split
  all_goals simp [h]

theorem execCurveRampEnd_kept (core : Nat) : KeptN (execCurveRampEnd core s) := by
  refine kept_runEvent h (keptO_bind fun x hx => ?_)
  repeat' split
  all_goals simp [h]

theorem execMhint_kept (n : BitVec 11) : KeptN (execMhint n s) := by
  refine kept_runState h fun e t => ?_
  repeat' split
  all_goals simp [h]

theorem execMhintExpiry_kept (tid : Nat) : KeptN (execMhintExpiry tid s) := by
  refine kept_runEvent h (keptO_bind fun x hx => ?_)
  repeat' split
  all_goals simp [h]

theorem execMatrixRampupEnd_kept (core : Nat) : KeptN (execMatrixRampupEnd core s) := by
  refine kept_runEvent h ?_
  dsimp only [bind, Option.bind]
  repeat' split
  all_goals simp [h]

theorem execMatrixHoldExpiry_kept (core : Nat) : KeptN (execMatrixHoldExpiry core s) := by
  refine kept_runEvent h ?_
  dsimp only [bind, Option.bind]
  repeat' split
  all_goals simp [h]

theorem execMatrixRampdnEnd_kept (core : Nat) : KeptN (execMatrixRampdnEnd core s) := by
  refine kept_runEvent h ?_
  dsimp only [bind, Option.bind]
  repeat' split
  all_goals simp [h]

theorem execEmulationTimeout_kept (tid : Nat) (reported : Bool) : KeptN (execEmulationTimeout tid reported s) := by
  refine kept_runEvent h (keptO_bind fun x hx => ?_)
  repeat' split
  all_goals simp [h]

theorem execFence_kept (k : FenceKind) (obs : BitVec 7) : KeptN (execFence k obs s) := by
  refine kept_runState h fun e t => ?_
  dsimp only [bind, Except.bind]
  repeat' split
  all_goals simp [h]

theorem execQfence_kept (wait : Bool) (qm : BitVec 7) : KeptN (execQfence wait qm s) := by
  refine kept_runState h fun e t => ?_
  dsimp only [bind, Except.bind]
  repeat' split
  all_goals simp [h]

theorem execQfenceWaitEnd_kept (tid : Nat) : KeptN (execQfenceWaitEnd tid s) := by
  refine kept_runEvent h (keptO_bind fun x hx => ?_)
  repeat' split
  all_goals simp [h]

theorem execBinit_kept (d : Reg) (a b : Src) : KeptN (execBinit d a b s) := by
  refine kept_runState h fun e t => ?_
  dsimp only [bind, Except.bind]
  repeat' split
  all_goals simp [h]

theorem execBwait_kept (d : Reg) (a b : Src) : KeptN (execBwait d a b s) := by
  refine kept_runState h fun e t => ?_
  dsimp only [bind, Except.bind]
  repeat' split
  all_goals simp [h]

theorem execBexp_kept (a b : Src) : KeptN (execBexp a b s) := by
  refine kept_runState h fun e t => ?_
  dsimp only [bind, Except.bind]
  repeat' split
  all_goals simp [h]

theorem execBinv_kept (a : Src) : KeptN (execBinv a s) := by
  refine kept_runState h fun e t => ?_
  dsimp only [bind, Except.bind]
  repeat' split
  all_goals simp [h]

theorem execBarrierWaitWake_kept (tid : Nat) : KeptN (execBarrierWaitWake tid s) := by
  refine kept_runEvent h (keptO_bind fun x hx => ?_)
  repeat' split
  all_goals simp [h]

theorem execMdrain_kept (addTo : Bool) (sh : Fin 4) (d a b : Src) : KeptN (execMdrain addTo sh d a b s) := by
  refine kept_runState h fun e t => ?_
  dsimp only [bind, Except.bind]
  repeat' split
  all_goals simp [h]

theorem execMzero_kept (sh : Fin 4) (a : Src) : KeptN (execMzero sh a s) := by
  refine kept_runState h fun e t => ?_
  dsimp only [bind, Except.bind]
  repeat' split
  all_goals simp [h]

theorem execMzeroComplete_kept (op : Nat) : KeptN (execMzeroComplete op s) := by
  refine kept_runEvent h (keptO_bind fun x hx => ?_)
  repeat' split
  all_goals simp [h]

theorem execPusht_kept (d : Reg) (a : Src) : KeptN (execPusht d a s) := by
  refine kept_runState h fun e t => ?_
  dsimp only [bind, Except.bind]
  repeat' split
  all_goals simp [h]

theorem execPopt_kept (d : Reg) : KeptN (execPopt d s) := by
  refine kept_runState h fun e t => ?_
  dsimp only [bind, Except.bind]
  repeat' split
  all_goals simp [h]

theorem execSteal_kept (d : Reg) (a : Src) : KeptN (execSteal d a s) := by
  refine kept_runState h fun e t => ?_
  dsimp only [bind, Except.bind]
  repeat' split
  all_goals simp [h]

theorem execScan_kept (a : Src) (b : Option Src) : KeptN (execScan a b s) := by
  refine kept_runState h fun e t => ?_
  dsimp only [bind, Except.bind]
  repeat' split
  all_goals simp [h]

theorem execBalancerMoveMark_kept (gid toCore : Nat) : KeptN (execBalancerMoveMark gid toCore s) := by
  refine kept_runEvent h (keptO_bind fun x hx => ?_)
  repeat' split
  all_goals simp [h]

theorem execBalancerMoveTimeout_kept (gid : Nat) : KeptN (execBalancerMoveTimeout gid s) := by
  refine kept_runEvent h (keptO_bind fun x hx => keptO_bind fun y hy => ?_)
  repeat' split
  all_goals simp [h]

theorem execWrsr_kept (x : Src) (n : SysNum) : KeptN (execWrsr x n s) := by
  refine kept_runState h fun e t => ?_
  dsimp only [bind, Except.bind]
  repeat' split
  all_goals simp [h]

theorem execEvsel_kept (die : Bool) (a b : Src) : KeptN (execEvsel die a b s) := by
  refine kept_runState h fun e t => ?_
  dsimp only [bind, Except.bind]
  repeat' split
  all_goals simp [h]

theorem execDbgwr_kept (d : Reg) (a b : Src) : KeptN (execDbgwr d a b s) := by
  refine kept_runState h fun e t => ?_
  dsimp only [bind, Except.bind]
  repeat' split
  all_goals simp [h]

theorem execTresume_kept (kill : Bool) (d : Reg) (a : Src) : KeptN (execTresume kill d a s) := by
  refine kept_runState h fun e t => ?_
  dsimp only [bind, Except.bind]
  repeat' split
  all_goals simp [h]

theorem execHandlerWatchdogEscalation_kept (core : Nat) : KeptN (execHandlerWatchdogEscalation core s) := by
  refine kept_runEvent h (keptO_bind fun x hx => keptO_bind fun y hy => ?_)
  repeat' split
  all_goals simp [h]

theorem execFaultRepairTimeout_kept (f : Nat) : KeptN (execFaultRepairTimeout f s) := by
  refine kept_runEvent h (keptO_bind fun x hx => ?_)
  repeat' split
  all_goals simp [h]

theorem execFaultRepairComplete_kept (f : Nat) : KeptN (execFaultRepairComplete f s) := by
  refine kept_runEvent h (keptO_bind fun x hx => ?_)
  repeat' split
  all_goals simp [h]

theorem execFaultRecordReply_kept (f : Nat) (ok : Bool) : KeptN (execFaultRecordReply f ok s) := by
  refine kept_runEvent h (keptO_bind fun x hx => ?_)
  repeat' split
  all_goals simp [h]

theorem execAtsTranslationCompletion_kept (f : Nat) (host : Option Nat) : KeptN (execAtsTranslationCompletion f host s) := by
  refine kept_runEvent h (keptO_bind fun x hx => ?_)
  repeat' split
  all_goals simp [h]

theorem execPriPageResponse_kept (f : Nat) (ok : Bool) : KeptN (execPriPageResponse f ok s) := by
  refine kept_runEvent h (keptO_bind fun x hx => ?_)
  repeat' split
  all_goals simp [h]

theorem execAtsInvalidateRequest_kept (ctx page count : Nat) : KeptN (execAtsInvalidateRequest ctx page count s) := by
  refine kept_runEvent h ?_
  dsimp only [bind, Option.bind]
  repeat' split
  all_goals simp [h]

theorem execDeadrg_kept (k : DeadK) (d : Reg) (a b : Src) : KeptN (execDeadrg k d a b s) := by
  refine kept_runState h fun e t => ?_
  dsimp only [bind, Except.bind]
  repeat' split
  all_goals simp [h]

theorem execChannelRetirementRequest_kept (channel : Tagged Nat) : KeptN (execChannelRetirementRequest channel s) := by
  refine kept_runEvent h ?_
  repeat' split
  all_goals simp [h]

theorem execChannelCopyDone_kept  : KeptN (execChannelCopyDone s) := by
  refine kept_runEvent h ?_
  repeat' split
  all_goals simp [h]

theorem execChannelSwitch_kept  : KeptN (execChannelSwitch s) := by
  refine kept_runEvent h ?_
  repeat' split
  all_goals simp [h]

theorem execPreemptionSwap_kept (core : Nat) : KeptN (execPreemptionSwap core s) := by
  refine kept_runEvent h ?_
  repeat' split
  all_goals simp [h]

theorem execBankSpill_kept (core : Nat) : KeptN (execBankSpill core s) := by
  refine kept_runEvent h (keptO_bind fun x hx => ?_)
  repeat' split
  all_goals simp [h]

theorem execBankRetention_kept (core bank : Nat) : KeptN (execBankRetention core bank s) := by
  refine kept_runEvent h ?_
  dsimp only [bind, Option.bind]
  repeat' split
  all_goals simp [h]

theorem execRedundantCommitCompare_kept (tid : Nat) : KeptN (execRedundantCommitCompare tid s) := by
  refine kept_runEvent h (keptO_bind fun x hx => keptO_bind fun y hy => ?_)
  repeat' split
  all_goals simp [h]

theorem execRedundantWaitTimeout_kept (tid : Nat) : KeptN (execRedundantWaitTimeout tid s) := by
  refine kept_runEvent h (keptO_bind fun x hx => keptO_bind fun y hy => ?_)
  repeat' split
  all_goals simp [h]

theorem execCkpt_kept (d : Reg) (a b : Src) : KeptN (execCkpt d a b s) := by
  refine kept_runState h fun e t => ?_
  dsimp only [bind, Except.bind]
  repeat' split
  all_goals simp [h]

theorem execCkptTimeout_kept (core : Nat) : KeptN (execCkptTimeout core s) := by
  refine kept_runEvent h (keptO_bind fun x hx => ?_)
  repeat' split
  all_goals simp [h]

theorem execPortEnable_kept (p : PortId) : KeptN (execPortEnable p s) := by
  refine kept_onPort h _ ?_
  simp [h]

theorem execPortDisable_kept (p : PortId) : KeptN (execPortDisable p s) := by
  refine kept_onPort h _ ?_
  simp [h]

theorem execPortLockLoss_kept (p : PortId) : KeptN (execPortLockLoss p s) := by
  refine kept_onPort h _ ?_
  repeat' split
  all_goals simp [h]

theorem execPeerWindowWrite_kept (w : Nat) (w0 w1 : BitVec 64) : KeptN (execPeerWindowWrite w w0 w1 s) := by
  refine kept_runEvent h ?_
  repeat' split
  all_goals simp [h]

theorem execLinkcfgWrite_kept (x : BitVec 64) : KeptN (execLinkcfgWrite x s) := by
  refine kept_runEvent h ?_
  simp [h]

theorem execDeviceRegisterWrite_kept (addr : Nat) (x : BitVec 64) : KeptN (execDeviceRegisterWrite addr x s) := by
  refine kept_runEvent h ?_
  repeat' split
  all_goals simp [h]

theorem execMsixUnmask_kept (vec : Nat) : KeptN (execMsixUnmask vec s) := by
  refine kept_runEvent h ?_
  repeat' split
  all_goals simp [h]

theorem execMailboxRead_kept (mb : Nat) : KeptN (execMailboxRead mb s) := by
  refine kept_runEvent h ?_
  repeat' split
  all_goals simp [h]

theorem execDoeDiscovery_kept (index : Nat) : KeptN (execDoeDiscovery index s) := by
  refine kept_runEvent h ?_
  simp [h]

theorem execObjectLoad_kept (tag ctx addr : Nat) (acceptDownlevel requireSigned : Bool) : KeptN (execObjectLoad tag ctx addr acceptDownlevel requireSigned s) := by
  refine kept_runEvent h ?_
  repeat' split
  all_goals simp [h]

theorem execObjectUnload_kept (tag ctx code : Nat) : KeptN (execObjectUnload tag ctx code s) := by
  refine kept_runEvent h ?_
  repeat' split
  all_goals simp [h]

theorem execContextDestroy_kept (tag ctx : Nat) : KeptN (execContextDestroy tag ctx s) := by
  refine kept_runEvent h ?_
  repeat' split
  all_goals simp [h]

theorem execSvnRaise_kept (counter value : Nat) (signedOk : Tagged Bool) : KeptN (execSvnRaise counter value signedOk s) := by
  refine kept_runEvent h ?_
  repeat' split
  all_goals simp [h]

theorem execDecodeTableUpdate_kept (signedOk : Tagged Bool) : KeptN (execDecodeTableUpdate signedOk s) := by
  refine kept_runEvent h ?_
  repeat' split
  all_goals simp [h]

theorem execKeyInstall_kept (keyid key : Nat) (signedOk : Tagged Bool) : KeptN (execKeyInstall keyid key signedOk s) := by
  refine kept_runEvent h ?_
  repeat' split
  all_goals simp [h]

theorem execKeyRemove_kept (keyid : Nat) (signedOk : Tagged Bool) : KeptN (execKeyRemove keyid signedOk s) := by
  refine kept_runEvent h ?_
  repeat' split
  all_goals simp [h]

theorem execFirmwareHeartbeatLapse_kept (fw : Nat) : KeptN (execFirmwareHeartbeatLapse fw s) := by
  refine kept_runEvent h ?_
  repeat' split
  all_goals simp [h]

theorem execRecoveryRead_kept (addr : Tagged Nat) : KeptN (execRecoveryRead addr s) := by
  refine kept_runEvent h ?_
  repeat' split
  all_goals simp [h]

theorem execRecoveryWrite_kept (addr : Tagged Nat) (x : BitVec 64) : KeptN (execRecoveryWrite addr x s) := by
  refine kept_runEvent h ?_
  repeat' split
  all_goals simp [h]

theorem execRecoveryThaw_kept  : KeptN (execRecoveryThaw s) := by
  refine kept_runEvent h ?_
  simp [h]

end

/-- Every instruction and every event of the part keeps the canonical form. -/
theorem exec_kept {s : State} (hs : memOk (mems s)) (i : Instr) : KeptN (exec i s) := by
  unfold exec
  cases i with
  | clauseStart _ => exact kept_runMove hs _
  | brc _ _ => exact kept_runMove hs _
  | jmp _ => exact kept_runMove hs _
  | jmpr _ _ => exact kept_runMove hs _
  | call _ => exact kept_runMove hs _
  | ret => exact kept_runUnwind hs _
  | joinat _ => exact kept_runAgent hs _ _
  | join => exact kept_runUnwind hs _
  | nop => exact kept_runAgent hs _ _
  | winbase _ => exact kept_runAgent hs _ _
  | loop _ _ _ => exact kept_runMove hs _
  | ld _ _ _ _ => exact execLd_kept hs _ _ _ _
  | ldstr _ _ _ _ => exact execLdstr_kept hs _ _ _ _
  | ldacq _ _ _ _ => exact execLdacq_kept hs _ _ _ _
  | st _ _ _ _ => exact execSt_kept hs _ _ _ _
  | ststr _ _ _ _ => exact execStstr_kept hs _ _ _ _
  | strel _ _ _ _ => exact execStrel_kept hs _ _ _ _
  | lds _ _ _ => exact execLds_kept hs _ _ _
  | ldf _ _ => exact execLdf_kept hs _ _
  | sts _ _ _ => exact execSts_kept hs _ _ _
  | pref _ _ _ => exact kept_runAgent hs _ _
  | atom _ _ _ _ => exact execAtom_kept hs _ _ _ _
  | atom64 _ _ _ _ => exact execAtom64_kept hs _ _ _ _
  | loadComplete _ => exact execLoadComplete_kept hs _
  | atomicComplete _ => exact execAtomicComplete_kept hs _
  | memoryRequestAtHome _ _ _ => exact execMemoryRequestAtHome_kept hs _ _ _
  | homeFaultReplay _ => exact execHomeFaultReplay_kept hs _
  | internalQueueResend _ _ => exact execInternalQueueResend_kept hs _ _
  | peerHoldRelease _ _ => exact execPeerHoldRelease_kept hs _ _
  | talloc _ _ _ _ => exact execTalloc_kept hs _ _ _ _
  | trd _ _ _ _ _ => exact execTrd_kept hs _ _ _ _ _
  | twr _ _ _ _ _ => exact execTwr_kept hs _ _ _ _ _
  | trdComplete _ _ => exact execTrdComplete_kept hs _ _
  | tfree _ => exact execTfree_kept hs _
  | tstat _ _ => exact kept_runAgent hs _ _
  | granuleWaitEnd _ => exact execGranuleWaitEnd_kept hs _
  | granuleWaitTimeout _ => exact execGranuleWaitTimeout_kept hs _
  | tileRestore _ _ => exact execTileRestore_kept hs _ _
  | tileSpill _ => exact execTileSpill_kept hs _
  | gang _ => exact kept_runAgent hs _ _
  | setshape _ _ _ _ _ => exact execSetshape_kept hs _ _ _ _ _
  | rdshape _ _ => exact kept_runAgent hs _ _
  | rdcurve _ => exact kept_runAgent hs _ _
  | curve _ _ _ => exact execCurve_kept hs _ _ _
  | curveDecision _ => exact execCurveDecision_kept hs _
  | curveDecisionAbandon _ => exact execCurveDecisionAbandon_kept hs _
  | curveRampStart _ => exact execCurveRampStart_kept hs _
  | curveRampEnd _ => exact execCurveRampEnd_kept hs _
  | mhint _ => exact execMhint_kept hs _
  | mhintExpiry _ => exact execMhintExpiry_kept hs _
  | matrixRampupEnd _ => exact execMatrixRampupEnd_kept hs _
  | matrixHoldExpiry _ => exact execMatrixHoldExpiry_kept hs _
  | matrixRampdnEnd _ => exact execMatrixRampdnEnd_kept hs _
  | add _ _ _ _ => exact kept_runAgent hs _ _
  | sub _ _ _ _ => exact kept_runAgent hs _ _
  | addc _ _ _ _ => exact kept_runAgent hs _ _
  | subb _ _ _ _ => exact kept_runAgent hs _ _
  | mul _ _ _ _ => exact kept_runAgent hs _ _
  | mulh _ _ _ _ => exact kept_runAgent hs _ _
  | mad _ _ _ _ => exact kept_runAgent hs _ _
  | div _ _ _ _ => exact kept_runAgent hs _ _
  | rem _ _ _ _ => exact kept_runAgent hs _ _
  | min _ _ _ _ => exact kept_runAgent hs _ _
  | max _ _ _ _ => exact kept_runAgent hs _ _
  | absd _ _ _ _ => exact kept_runAgent hs _ _
  | and _ _ _ _ => exact kept_runAgent hs _ _
  | or _ _ _ _ => exact kept_runAgent hs _ _
  | xor _ _ _ _ => exact kept_runAgent hs _ _
  | andn _ _ _ _ => exact kept_runAgent hs _ _
  | shl _ _ _ _ => exact kept_runAgent hs _ _
  | shr _ _ _ _ => exact kept_runAgent hs _ _
  | sar _ _ _ _ => exact kept_runAgent hs _ _
  | rot _ _ _ _ => exact kept_runAgent hs _ _
  | bfe _ _ _ _ => exact kept_runAgent hs _ _
  | bfi _ _ _ _ => exact kept_runAgent hs _ _
  | popc _ _ _ => exact kept_runAgent hs _ _
  | clz _ _ _ => exact kept_runAgent hs _ _
  | brev _ _ _ => exact kept_runAgent hs _ _
  | mov _ _ _ => exact kept_runAgent hs _ _
  | ext _ _ _ _ => exact kept_runAgent hs _ _
  | adds _ _ _ _ => exact kept_runAgent hs _ _
  | subs _ _ _ _ => exact kept_runAgent hs _ _
  | cmp _ _ _ => exact kept_runAgent hs _ _
  | sel _ _ _ _ => exact kept_runAgent hs _ _
  | addi _ _ _ => exact kept_runAgent hs _ _
  | andi _ _ _ => exact kept_runAgent hs _ _
  | ori _ _ _ => exact kept_runAgent hs _ _
  | xori _ _ _ => exact kept_runAgent hs _ _
  | shli _ _ _ => exact kept_runAgent hs _ _
  | shri _ _ _ => exact kept_runAgent hs _ _
  | sari _ _ _ => exact kept_runAgent hs _ _
  | cmpi _ _ => exact kept_runAgent hs _ _
  | movi _ _ => exact kept_runAgent hs _ _
  | movhi _ _ _ => exact kept_runAgent hs _ _
  | idot4 _ _ _ _ => exact kept_runPark hs _ _ _ _
  | fadd _ _ _ _ => exact kept_runAgent hs _ _
  | fsub _ _ _ _ => exact kept_runAgent hs _ _
  | fmul _ _ _ _ => exact kept_runAgent hs _ _
  | ffma _ _ _ _ => exact kept_runAgent hs _ _
  | fmin _ _ _ _ => exact kept_runAgent hs _ _
  | fmax _ _ _ _ => exact kept_runAgent hs _ _
  | fdiv _ _ _ _ => exact kept_runAgent hs _ _
  | fsqrt _ _ _ => exact kept_runAgent hs _ _
  | fcmp _ _ _ => exact kept_runAgent hs _ _
  | fsfu _ _ _ => exact kept_runAgent hs _ _
  | fclass _ _ _ => exact kept_runAgent hs _ _
  | cvt _ _ _ _ => exact kept_runAgent hs _ _
  | dadd _ _ _ _ => exact kept_runAgent hs _ _
  | dmul _ _ _ _ => exact kept_runAgent hs _ _
  | dfma _ _ _ _ => exact kept_runAgent hs _ _
  | dcmp _ _ => exact kept_runAgent hs _ _
  | quant _ _ _ _ => exact kept_runAgent hs _ _
  | deq _ _ _ _ => exact kept_runAgent hs _ _
  | pack _ _ => exact kept_runAgent hs _ _
  | unpk _ _ => exact kept_runAgent hs _ _
  | fdot2 _ _ _ _ => exact kept_runPark hs _ _ _ _
  | trap _ => exact kept_runAgent hs _ _
  | brkpt _ => exact kept_runAgent hs _ _
  | exit => exact execExit_kept hs
  | emulationComplete _ => exact execEmulationComplete_kept hs _
  | emulationTimeout _ _ => exact execEmulationTimeout_kept hs _ _
  | fence _ _ => exact execFence_kept hs _ _
  | qfence _ _ => exact execQfence_kept hs _ _
  | tlbinv _ _ _ _ => exact execTlbinv_kept hs _ _ _ _
  | fenceWaitEnd _ => exact execFenceWaitEnd_kept hs _
  | qfenceWaitEnd _ => exact execQfenceWaitEnd_kept hs _
  | binit _ _ _ => exact execBinit_kept hs _ _ _
  | barv _ _ _ => exact execBarv_kept hs _ _ _
  | bwait _ _ _ => exact execBwait_kept hs _ _ _
  | btest _ _ _ => exact kept_runAgent hs _ _
  | bexp _ _ => exact execBexp_kept hs _ _
  | bstat _ _ _ => exact kept_runAgent hs _ _
  | binv _ => exact execBinv_kept hs _
  | barrierWaitWake _ => exact execBarrierWaitWake_kept hs _
  | barrierTimeout _ => exact execBarrierTimeout_kept hs _
  | copy _ _ _ _ => exact execCopy_kept hs _ _ _ _
  | copyStallEnd _ => exact execCopyStallEnd_kept hs _
  | copyAcknowledge _ => exact execCopyAcknowledge_kept hs _
  | copyBegin _ => exact execCopyBegin_kept hs _
  | copyLand _ _ _ => exact execCopyLand_kept hs _ _ _
  | mma _ _ _ _ _ _ _ _ => exact execMma_kept hs _ _ _ _ _ _ _ _
  | rendezvousTimeout _ => exact execRendezvousTimeout_kept hs _
  | mdrain _ _ _ _ _ => exact execMdrain_kept hs _ _ _ _ _
  | mzero _ _ => exact execMzero_kept hs _ _
  | mqOperationBegin _ => exact execMqOperationBegin_kept hs _
  | mmaComplete _ _ => exact execMmaComplete_kept hs _ _
  | mzeroComplete _ => exact execMzeroComplete_kept hs _
  | mdrainComplete _ _ => exact execMdrainComplete_kept hs _ _
  | enq _ _ => exact execEnq_kept hs _ _
  | cont _ => exact execCont_kept hs _
  | pusht _ _ => exact execPusht_kept hs _ _
  | popt _ => exact execPopt_kept hs _
  | steal _ _ => exact execSteal_kept hs _ _
  | pick _ _ _ _ => exact execPick_kept hs _ _ _ _
  | scan _ _ => exact execScan_kept hs _ _
  | pickCommandExecute _ => exact execPickCommandExecute_kept hs _
  | scanCommandExecute _ _ => exact execScanCommandExecute_kept hs _ _
  | joinBlockUpdate _ => exact execJoinBlockUpdate_kept hs _
  | hostSubmit _ _ _ _ => exact execHostSubmit_kept hs _ _ _ _
  | dispatchPop _ => exact execDispatchPop_kept hs _
  | decantComplete _ _ _ => exact execDecantComplete_kept hs _ _ _
  | groupRelease _ => exact execGroupRelease_kept hs _
  | balancerQueueMove _ _ _ _ _ => exact execBalancerQueueMove_kept hs _ _ _ _ _
  | balancerMoveMark _ _ => exact execBalancerMoveMark_kept hs _ _
  | balancerMoveSwap _ => exact execBalancerMoveSwap_kept hs _
  | balancerMoveTimeout _ => exact execBalancerMoveTimeout_kept hs _
  | rdsr _ _ => exact kept_runAgent hs _ _
  | wrsr _ _ => exact execWrsr_kept hs _ _
  | evsel _ _ _ => exact execEvsel_kept hs _ _ _
  | evrd _ _ _ => exact kept_runAgent hs _ _
  | dbgrd _ _ _ => exact kept_runAgent hs _ _
  | dbgwr _ _ _ => exact execDbgwr_kept hs _ _ _
  | tresume _ _ _ => exact execTresume_kept hs _ _ _
  | handlerStart _ => exact execHandlerStart_kept hs _
  | handlerWatchdogEscalation _ => exact execHandlerWatchdogEscalation_kept hs _
  | faultRepairTimeout _ => exact execFaultRepairTimeout_kept hs _
  | faultRepairComplete _ => exact execFaultRepairComplete_kept hs _
  | faultRecordReply _ _ => exact execFaultRecordReply_kept hs _ _
  | atsTranslationCompletion _ _ => exact execAtsTranslationCompletion_kept hs _ _
  | priPageResponse _ _ => exact execPriPageResponse_kept hs _ _
  | atsInvalidateRequest _ _ _ => exact execAtsInvalidateRequest_kept hs _ _ _
  | deadrg _ _ _ _ => exact execDeadrg_kept hs _ _ _ _
  | channelRetirementRequest _ => exact execChannelRetirementRequest_kept hs _
  | channelCopyDone => exact execChannelCopyDone_kept hs
  | channelSwitch => exact execChannelSwitch_kept hs
  | preemptionSwap _ => exact execPreemptionSwap_kept hs _
  | swapResume _ => exact execSwapResume_kept hs _
  | bankSpill _ => exact execBankSpill_kept hs _
  | bankLoad _ _ => exact execBankLoad_kept hs _ _
  | bankRetention _ _ => exact execBankRetention_kept hs _ _
  | correlationRecordPeriodic _ => exact execCorrelationRecordPeriodic_kept hs _
  | redundantCommitCompare _ => exact execRedundantCommitCompare_kept hs _
  | redundantWaitTimeout _ => exact execRedundantWaitTimeout_kept hs _
  | ckpt _ _ _ => exact execCkpt_kept hs _ _ _
  | ckptImageWrite _ => exact execCkptImageWrite_kept hs _
  | ckptTimeout _ => exact execCkptTimeout_kept hs _
  | imageRestore _ _ => exact execImageRestore_kept hs _ _
  | powerLoss => exact execPowerLoss_kept hs
  | reset _ _ => exact execReset_kept hs _ _
  | shfl _ _ _ _ => exact kept_runAgent hs _ _
  | vote _ _ _ => exact kept_runAgent hs _ _
  | rdfirst _ _ => exact kept_runAgent hs _ _
  | rdlane _ _ _ => exact kept_runAgent hs _ _
  | wrlane _ _ _ => exact kept_runAgent hs _ _
  | ccmovRd _ => exact kept_runAgent hs _ _
  | ccmovWr _ => exact kept_runAgent hs _ _
  | portEnable _ => exact execPortEnable_kept hs _
  | portDisable _ => exact execPortDisable_kept hs _
  | trainingAttemptEnd _ _ _ => exact execTrainingAttemptEnd_kept hs _ _ _
  | portLockLoss _ => exact execPortLockLoss_kept hs _
  | flitReceive _ _ => exact execFlitReceive_kept hs _ _
  | peerWindowWrite _ _ _ => exact execPeerWindowWrite_kept hs _ _ _
  | linkcfgWrite _ => exact execLinkcfgWrite_kept hs _
  | deviceRegisterWrite _ _ => exact execDeviceRegisterWrite_kept hs _ _
  | msixUnmask _ => exact execMsixUnmask_kept hs _
  | mailboxRead _ => exact execMailboxRead_kept hs _
  | doeDiscovery _ => exact execDoeDiscovery_kept hs _
  | objectLoad _ _ _ _ _ => exact execObjectLoad_kept hs _ _ _ _ _
  | objectUnload _ _ _ => exact execObjectUnload_kept hs _ _ _
  | contextCreate _ _ _ _ _ _ => exact execContextCreate_kept hs _ _ _ _ _ _
  | contextDestroy _ _ => exact execContextDestroy_kept hs _ _
  | svnRaise _ _ _ => exact execSvnRaise_kept hs _ _ _
  | decodeTableUpdate _ => exact execDecodeTableUpdate_kept hs _
  | keyInstall _ _ _ => exact execKeyInstall_kept hs _ _ _
  | keyRemove _ _ => exact execKeyRemove_kept hs _ _
  | firmwareHeartbeatLapse _ => exact execFirmwareHeartbeatLapse_kept hs _
  | recoveryRead _ => exact execRecoveryRead_kept hs _
  | recoveryWrite _ _ => exact execRecoveryWrite_kept hs _ _
  | recoveryPlace _ _ _ => exact execRecoveryPlace_kept hs _ _ _
  | recoveryReset _ => exact execRecoveryReset_kept hs _
  | recoveryThaw => exact execRecoveryThaw_kept hs
  | getVersion _ => exact kept_spdm hs _ _ _ _
  | getCapabilities _ => exact kept_spdm hs _ _ _ _
  | negotiateAlgorithms _ => exact kept_spdm hs _ _ _ _
  | getDigests _ => exact kept_spdm hs _ _ _ _
  | getCertificate _ => exact kept_spdm hs _ _ _ _
  | challenge _ _ => exact kept_spdm hs _ _ _ _
  | getMeasurements _ _ => exact kept_spdm hs _ _ _ _

/-! ## A step -/

theorem kept_unlessHeld {s : State} (h : memOk (mems s)) (e : Env) (t : Team) (i : Instr) {o : Host.Outcome State Fault Refusal} (ho : KeptN o)
    {k : State → State} (hk : ∀ u, mems (k u) = mems u) : KeptN (s.unlessHeld e t i o k) := by
  intro s' hs
  unfold State.unlessHeld at hs
  split at hs
  case h_1 u =>
    rw [← Host.Outcome.next.inj hs]
    split
    · rw [rotate_mems]
      exact h
    · rw [hk]
      exact ho u rfl
  all_goals cases hs

theorem issueInstr_kept {s : State} (h : memOk (mems s)) (e : Env) (t : Team) (i : Instr) : KeptN (issueInstr s e t i) := by
  unfold issueInstr
  split
  · simp [h]
  split
  · exact kept_unlessHeld h _ _ _ (exec_kept (by simp [h]) _) fun _ => rotate_mems _ _ _
  · exact kept_unlessHeld h _ _ _ (exec_kept h _) fun _ => endIssue_mems _ _ _ _ _ _

theorem issueNow_kept {s : State} (h : memOk (mems s)) : KeptN (issueNow s) := by
  unfold issueNow
  split
  · simp [h]
  · dsimp only
    split
    · simp [h]
    · exact issueInstr_kept h _ _ _

theorem issue_kept {s : State} (h : memOk (mems s)) : KeptN (issue s) := by
  unfold issue
  split
  · simp [h]
  split
  · exact issueNow_kept (by simp [h])
  · simp [h]

theorem turn_kept {s : State} (h : memOk (mems s)) : KeptN (turn s) := by
  unfold turn
  split
  · exact issue_kept h
  · refine exec_kept ?_ _
    exact h
  · refine issue_kept ?_
    exact h
  · exact keptN_next.2 (outsideTurn_ok _ h)

theorem countStep_kept {o : Host.Outcome State Fault Refusal} (ho : KeptN o) : KeptN (countStep o) := by
  intro s' hs
  cases o with
  | next s =>
    rw [← Host.Outcome.next.inj hs]
    exact afterStep_ok (ho s rfl)
  | fault f => cases hs
  | refused r => cases hs

theorem step_kept {s : State} (h : memOk (mems s)) : KeptN (step s) := by
  have hturn : KeptN (countStep (turn s)) := countStep_kept (turn_kept h)
  unfold step
  split
  · split
    · exact hturn
    · exact fun _ hs => nomatch hs
  · exact hturn

/-- Settles O48: a step is an issue, an event or a turn of the schedule's, and each of them leaves the three memories alone or writes
them by the operations that keep their form. -/
theorem memoryStaysCanonical : Obligations.MemoryStaysCanonical := fun s s' h hs =>
  (memInv_iff s').2 (step_kept ((memInv_iff s).1 h) s' hs)

end Sys2Proof.Canon
end

section
/-!
PROOF. The lane instructions (chapters 5 to 7): the integer forms, the compares, the floating and narrow instructions, the conversions,
the select and the cross-lane instructions. Each executes one of the shared forms, whose laws say what it gives.
-/
namespace Sys2Proof.LaneResults
open Sys2Proof Sys2Proof.Machine Sys2Proof.Claims Sys2Proof.Laws Sys2Proof.LanesInteger

/-- Settles O1: the integer form on a scalar destination. -/
theorem integerScalarResult : Obligations.IntegerScalarResult := by
  intro o m d a b s t ha hd hp hx hu
  exact falls_intOp ha hu (by simp [hp]) (intForm_scalar o.op _ hd hp hx)

/-- Settles O2: the integer form on a vector destination. -/
theorem integerVectorResult : Obligations.IntegerVectorResult := by
  intro o m d a b s t ha hd hp hx hv hu
  exact falls_intOp ha hu hp (intForm_vector o.op _ hd hx hv)

/-! ## Forms and sources -/

/-- A lane's value is what its 64-bit result holds in its low half. -/
theorem setWidth_lane (x : W32) : (x.setWidth 64).setWidth 32 = x := by
  simp

theorem scalars_of_readable {t : Team} {xs : List Src} (hr : Readable t xs) (hv : ∀ x ∈ xs, isVec t x = false) : Scalars t xs :=
  fun x hx => ⟨hr x hx, hv x hx⟩

theorem dstReg_of_scalar {d : Reg} (hd : isScaDst d = true) (t : Team) : t.dstReg d = none := by
  cases d <;> simp_all [isScaDst, Team.dstReg]

/-- An instruction whose meaning is a function of its team, where the function succeeds. -/
theorem falls_of {i : Instr} {s : State} {t t' : Team} {n : Nat} {f : Env → Team → Except Trap Team} (ha : s.agent s.cur = some t)
    (hx : exec i s = runAgent s n f) (hn : i.words = n) (hf : f (s.env s.cur) t = .ok t') : Falls i s t' := by
  rw [Falls, hx, hn, runAgent_ok ha hf]

section
variable {i : Instr} {s : State} {t : Team} {n : Nat} {fm : Form} {d : Reg} {xs : List Src} {sca : Env → Team → LaneRes}
  {vec : Env → Team → Nat → LaneRes}

/-- An arithmetic instruction on the scalar datapath. -/
theorem falls_arith_scalar (ha : s.agent s.cur = some t) (hx : exec i s = runAgent s n (arith fm d xs sca vec)) (hn : i.words = n)
    (hd : isScaDst d = true) (hs : Scalars t xs) (hp : fm.pair = true → Pairs t xs) :
    Falls i s (t.applyScalar (some d) fm.cc (sca (s.env s.cur) t)) :=
  falls_of ha hx hn (arith_scalar hd hs hp)

/-- An arithmetic instruction in the live lanes. -/
theorem falls_arith_vector (ha : s.agent s.cur = some t) (hx : exec i s = runAgent s n (arith fm d xs sca vec)) (hn : i.words = n)
    (hd : VecDst t d) (hr : Readable t xs) (hv : Vectors t) (hp : fm.pair = true → okPairDst t d = true ∧ Pairs t xs) :
    Falls i s (t.applyLanes (t.dstReg d) fm.pair fm.cc (vec (s.env s.cur) t)) :=
  falls_of ha hx hn (arith_vector hd.1 hd.2 hr hp hv.1 hv.2)

end

/-! ## Compares (R91, R94, R102, R109) -/

/-- Both sources of a compare are of scalar class, or one is of vector class. -/
theorem any_vec_pair {t : Team} {a b : Src} (h : isVec t a = true ∨ isVec t b = true) : ∃ x ∈ [a, b], isVec t x = true := by
  simpa using h

theorem scalars_pair {t : Team} {a b : Src} (hr : Readable t [a, b]) (h : isVec t a = false ∧ isVec t b = false) : Scalars t [a, b] :=
  scalars_of_readable hr (by simpa using h)

theorem falls_cmp {s : State} {t t' : Team} {ty : IntTy} {a b : Src} (ha : s.agent s.cur = some t)
    (hp : (ty.packed && !isVec t a && !isVec t b) = false)
    (hf : Sys2Proof.Machine.compare false [a, b]
      (fun e t => intScalarRes opSub ty (srcScalarX e t (intSx ty) a) (srcScalarX e t (intSx ty) b) 0 false)
      (fun e t l => intLaneRes opSub ty (srcLane e t a l) (srcLane e t b l) 0 false) (s.env s.cur) t = .ok t') :
    Falls (.cmp ty a b) s t' := by
  refine falls_of ha (exec_cmp ..) (by simp [Instr.words]) ?_
  simp only [hp, Bool.not_false, need_true, bind, Except.bind, hf]

theorem falls_cmpi {s : State} {t t' : Team} {a : Src} {k : BitVec 11} (ha : s.agent s.cur = some t)
    (hf : Sys2Proof.Machine.compare false [a]
      (fun e t => intScalarRes opSub .i (srcScalar e t a) (k.signExtend 64) 0 false)
      (fun e t l => intLaneRes opSub .i (srcLane e t a l) (k.signExtend 32) 0 false) (s.env s.cur) t = .ok t') :
    Falls (.cmpi a k) s t' :=
  falls_of ha (exec_cmpi ..) (by simp [Instr.words, Nat.add_comm]) hf

theorem falls_fcmp {s : State} {t t' : Team} {ty : FTy} {a b : Src} (ha : s.agent s.cur = some t)
    (hf : Sys2Proof.Machine.compare false [a, b]
      (fun e t => fcmpLane .f32 ((srcScalar e t a).setWidth 32) ((srcScalar e t b).setWidth 32))
      (fun e t l => fcmpLane ty (srcLane e t a l) (srcLane e t b l)) (s.env s.cur) t = .ok t') :
    Falls (.fcmp ty a b) s t' :=
  falls_of ha (exec_fcmp ..) (by simp [Instr.words]) hf

theorem falls_dcmp {s : State} {t t' : Team} {a b : Src} (ha : s.agent s.cur = some t)
    (hf : Sys2Proof.Machine.compare true [a, b]
      (fun e t => dcmpRes (srcScalarD e t a) (srcScalarD e t b))
      (fun e t l => dcmpRes (srcLaneD e t a l) (srcLaneD e t b l)) (s.env s.cur) t = .ok t') :
    Falls (.dcmp a b) s t' :=
  falls_of ha (exec_dcmp ..) (by simp [Instr.words]) hf

/-- Settles O4: each compare executes the form of a compare, once or in each live lane. -/
theorem compareResult : Obligations.CompareResult := by
  intro s t ha
  refine ⟨fun ty a b hr => ⟨fun hs hp => ?_, fun hv hk => ?_⟩, fun a k hr => ⟨fun hs => ?_, fun hv hk => ?_⟩,
    fun ty a b hr => ⟨fun hs => ?_, fun hv hk => ?_⟩, fun a b hr hpair => ⟨fun hs => ?_, fun hv hk => ?_⟩⟩
  · exact falls_cmp ha (by simp [hp]) (compare_scalar (scalars_pair hr hs) (by simp))
  · refine falls_cmp ha ?_ (compare_vector (any_vec_pair hv) hr (by simp) hk.1 hk.2)
    cases hv with
    | inl h => simp [h]
    | inr h => simp [h]
  · exact falls_cmpi ha (compare_scalar (scalars_of_readable hr (by simpa using hs)) (by simp))
  · exact falls_cmpi ha (compare_vector ⟨a, by simp, hv⟩ hr (by simp) hk.1 hk.2)
  · exact falls_fcmp ha (compare_scalar (scalars_pair hr hs) (by simp))
  · exact falls_fcmp ha (compare_vector (any_vec_pair hv) hr (by simp) hk.1 hk.2)
  · exact falls_dcmp ha (compare_scalar (scalars_pair hr hs) fun _ => hpair)
  · exact falls_dcmp ha (compare_vector (any_vec_pair hv) hr (fun _ => hpair) hk.1 hk.2)

/-! ## Floating instructions (R97, R100, R101, R109) -/

/-- Every floating instruction that forms codes executes one form. -/
theorem exec_fpOp (o : FpOp) (m : FMod) (d : Reg) (a b : Src) (s : State) (hu : o = .fsqrt → b = .reg .z) :
    exec (o.instr m d a b) s = runAgent s (o.instr m d a b).words (fForm o.op m d a b) := by
  cases o
  case fsqrt =>
    obtain rfl := hu rfl
    simp [FpOp.instr, Instr.words]
    rfl
  all_goals
    simp [FpOp.instr, Instr.words]
    rfl

theorem exec_dpOp (o : DpOp) (cc : Bool) (d : Reg) (a b : Src) (s : State) :
    exec (o.instr cc d a b) s = runAgent s (o.instr cc d a b).words (dForm o.op cc d a b) := by
  cases o <;> (simp [DpOp.instr, Instr.words]; rfl)

/-- Settles O5: the floating form and the FP64 form, once or in each live lane. -/
theorem floatAndDoubleResult : Obligations.FloatAndDoubleResult := by
  refine ⟨fun o m d a b s t ha hu => ⟨fun hd hs => ?_, fun hd hr hv => ?_⟩, fun o cc d a b s t ha hp => ⟨fun hd hs => ?_, fun hd hq hr hv => ?_⟩⟩
  · exact falls_arith_scalar ha (exec_fpOp o m d a b s hu) rfl hd hs (by simp)
  · exact falls_arith_vector ha (exec_fpOp o m d a b s hu) rfl hd hr hv (by simp)
  · exact falls_arith_scalar ha (exec_dpOp o cc d a b s) rfl hd hs fun _ => hp
  · exact falls_arith_vector ha (exec_dpOp o cc d a b s) rfl hd hr hv fun _ => ⟨hq, hp⟩

/-! ## Narrow instructions and conversions (R103, R105 to R107, R110, R111) -/

/-- The sources of a narrow instruction. -/
def narrowSrcs (o : NarrowOp) (a b : Src) : List Src := if o.unary then [a] else [a, b]

theorem narrowSrcs_subset (o : NarrowOp) (a b : Src) : ∀ x ∈ narrowSrcs o a b, x ∈ [a, b] := by
  unfold narrowSrcs
  split <;> simp

theorem exec_narrowOp (o : NarrowOp) (d : Reg) (a b : Src) (s : State) (hu : o.unary = true → b = .reg .z) :
    exec (o.instr d a b) s = runAgent s (o.instr d a b).words (arith { cc := false, pair := false } d (narrowSrcs o a b)
      (fun e t => noCodes (o.op ((srcScalar e t a).setWidth 32) ((srcScalar e t b).setWidth 32)))
      (fun e t l => noCodes (o.op (srcLane e t a l) (srcLane e t b l)))) := by
  cases o <;> (simp [NarrowOp.instr, Instr.words]; rfl)

theorem cvtForm_scalar {r : Rm} {c : Nat} {d : Reg} {a : Src} {e : Env} {t : Team} (hd : isScaDst d = true) (hs : Scalars t [a])
    (hp : cvtSrc64 c = true → okPairSrc t a = true) :
    cvtForm r c d a e t = .ok (t.applyScalar (some d) false
      { x := BitVec.ofNat 64 (cvtCode r c (if cvtSrc64 c then (srcScalarD e t a).toNat else (srcScalar e t a).toNat) (regScalar e t d).toNat).x
        nib := 0
        fl := (cvtCode r c (if cvtSrc64 c then (srcScalarD e t a).toNat else (srcScalar e t a).toNat) (regScalar e t d).toNat).fl }) := by
  have hsrc : checkSrcs t [a] = .ok () := checkSrcs_ok fun x hx => (hs x hx).1
  have hcls : isVec t a = false := (hs a (by simp)).2
  have hvec := not_vec_of_scalar hd
  cases hq : cvtSrc64 c <;> cases hr : cvtDst64 c <;>
    simp [cvtForm, hsrc, hcls, hvec, hq, hr, okDst_of_scalar hd, okPairDst_of_scalar hd, hp, needOperand, bind, Except.bind]

theorem cvtForm_vector {r : Rm} {c : Nat} {d : Reg} {a : Src} {e : Env} {t : Team} (hd : VecDst t d) (hs : Readable t [a]) (hv : Vectors t)
    (hp : cvtSrc64 c = true → okPairSrc t a = true) (hq : cvtDst64 c = true → okPairDst t d = true) :
    cvtForm r c d a e t = .ok (t.applyLanes (t.dstReg d) (cvtDst64 c) false fun l =>
      { x := BitVec.ofNat 64 (cvtCode r c (if cvtSrc64 c then (srcLaneD e t a l).toNat else (srcLane e t a l).toNat) (dstLane e t d l).toNat).x
        nib := 0
        fl := (cvtCode r c (if cvtSrc64 c then (srcLaneD e t a l).toNat else (srcLane e t a l).toNat) (dstLane e t d l).toNat).fl }) := by
  have hsrc : checkSrcs t [a] = .ok () := checkSrcs_ok hs
  obtain ⟨hvec, hok⟩ := hd
  have hsh := checkSh0_ok hv.1 hv.2
  cases h1 : cvtSrc64 c <;> cases h2 : cvtDst64 c <;>
    simp [cvtForm, hsrc, hvec, hok, hsh, h1, h2, hp, hq, needOperand, bind, Except.bind]

/-- Settles O6: the narrow instructions execute the arithmetic form without codes, and CVT its own. -/
theorem narrowAndConvertResult : Obligations.NarrowAndConvertResult := by
  refine ⟨fun o d a b s t ha hu => ⟨fun hd hs => ?_, fun hd hr hv => ?_⟩, fun r c d a s t ha hp hq => ⟨fun hd hs => ?_, fun hd hr hv => ?_⟩⟩
  · exact falls_arith_scalar ha (exec_narrowOp o d a b s hu) rfl hd (fun x hx => hs x (narrowSrcs_subset o a b x hx)) (by simp)
  · exact falls_arith_vector ha (exec_narrowOp o d a b s hu) rfl hd (fun x hx => hr x (narrowSrcs_subset o a b x hx)) hv (by simp)
  · exact falls_of ha (exec_cvt ..) (by simp [Instr.words]) (cvtForm_scalar hd hs hp)
  · exact falls_of ha (exec_cvt ..) (by simp [Instr.words]) (cvtForm_vector hd hr hv hp hq)

/-! ## Select (R92) -/

/-- Settles O7: SEL executes the arithmetic form without codes and without flags. -/
theorem selectResult : Obligations.SelectResult := by
  intro c d a b s t ha
  have hw : (Instr.sel c d a b).words = 1 + a.words + b.words := by simp [Instr.words]
  constructor
  · intro hd hs
    have h := falls_arith_scalar ha (exec_sel c d a b s) hw hd hs (by simp)
    rw [applyScalar_noCodes t d rfl] at h
    simpa only [LaneRes.int, BitVec.ofNat_toNat, BitVec.setWidth_eq] using h
  · rintro n rfl hd hr hv
    have h := falls_arith_vector ha (exec_sel c (.v n) a b s) hw hd hr hv (by simp)
    rw [Team.dstReg, applyLanes_noCodes t _ fun l => rfl] at h
    simpa only [LaneRes.int, BitVec.ofNat_toNat, setWidth_lane] using h

/-! ## Cross-lane instructions (R143 to R147) -/

/-- A window code that the allotment holds is a vector destination. -/
theorem okDst_window {t : Team} {n : Fin 96} (h : t.inWindow n.val = true) : okDst t (.v n) = true := h

theorem falls_shfl {s : State} {t : Team} (ha : s.agent s.cur = some t) (m : ShflMode) {n : Fin 96} {a b : Src} (hn : t.inWindow n.val = true)
    (hr : Readable t [a, b]) (hv : Vectors t) :
    Falls (.shfl m (.v n) a b) s (t.writeLanes (t.reg n.val) t.liveLanes fun l =>
      srcLane (s.env s.cur) t a (shflSrc m t.tw l (srcLane (s.env s.cur) t b l).toNat)) := by
  refine falls_of ha (exec_shfl ..) (by simp [Instr.words]) ?_
  simp only [checkSrcs_ok hr, checkSh0_ok hv.1 hv.2, okDst_window hn, isVecDst, needOperand, Bool.and_self, need_true, bind, Except.bind,
    Team.dstReg]
  rw [applyLanes_noCodes t _ fun l => rfl]
  simp only [LaneRes.int, BitVec.ofNat_toNat, setWidth_lane]

theorem falls_vote {s : State} {t : Team} (ha : s.agent s.cur = some t) (f : VoteFn) {d : Reg} {a : Src} (hd : isScaDst d = true)
    (hr : Readable t [a]) (hb : ∀ b, f = .ballot b → Scalars t [b]) (hv : Vectors t) :
    Falls (.vote f d a) s (t.writeScalar d (BitVec.ofNat 64 (voteResult f (s.env s.cur) t a))) := by
  have hsrcs : Scalars t (Sys2Proof.Machine.VoteFn.srcs f) := by
    cases f with
    | ballot b => exact hb b rfl
    | _ => exact fun x hx => nomatch hx
  refine falls_of ha (exec_vote ..) (by cases f <;> simp [Instr.words, Sys2Proof.Machine.VoteFn.srcs]) ?_
  simp only [checkSrcs_ok hr, checkScalars_ok hsrcs, checkSh0_ok hv.1 hv.2, hd, needOperand, need_true, bind, Except.bind]

theorem falls_rdfirst {s : State} {t : Team} (ha : s.agent s.cur = some t) {d : Reg} {a : Src} (hd : isScaDst d = true)
    (hr : Readable t [a]) (hv : Vectors t) :
    Falls (.rdfirst d a) s (t.writeScalar d (if isVec t a = true then
        (match t.liveLanes with
          | l :: _ => (srcLane (s.env s.cur) t a l).setWidth 64
          | [] => 0)
      else srcScalar (s.env s.cur) t a)) := by
  refine falls_of ha (exec_rdfirst ..) (by simp [Instr.words]) ?_
  simp only [checkSrcs_ok hr, checkSh0_ok hv.1 hv.2, hd, needOperand, need_true, bind, Except.bind] <;> rfl

theorem falls_rdlane {s : State} {t : Team} (ha : s.agent s.cur = some t) {d : Reg} {a b : Src} (hd : isScaDst d = true)
    (hr : Readable t [a]) (hb : Scalars t [b]) (hl : (srcScalar (s.env s.cur) t b).toNat < t.tw) :
    Falls (.rdlane d a b) s (t.writeScalar d (if isVec t a = true then
      (srcLane (s.env s.cur) t a (srcScalar (s.env s.cur) t b).toNat).setWidth 64 else srcScalar (s.env s.cur) t a)) := by
  refine falls_of ha (exec_rdlane ..) (by simp [Instr.words]) ?_
  have hlane : Nat.blt (srcScalar (s.env s.cur) t b).toNat t.tw = true := Nat.blt_eq ▸ hl
  simp only [checkSrcs_ok hr, checkScalars_ok hb, hd, hlane, Bool.and_self, needOperand, need_true, bind, Except.bind]

theorem falls_wrlane {s : State} {t : Team} (ha : s.agent s.cur = some t) {n : Fin 96} {a b : Src} (hn : t.inWindow n.val = true)
    (hs : Scalars t [a, b]) (hl : (srcScalar (s.env s.cur) t b).toNat < t.tw) :
    Falls (.wrlane (.v n) a b) s (t.writeLanes (t.reg n.val) [(srcScalar (s.env s.cur) t b).toNat] fun _ =>
      (srcScalar (s.env s.cur) t a).setWidth 32) := by
  refine falls_of ha (exec_wrlane ..) (by simp [Instr.words]) ?_
  have hlane : Nat.blt (srcScalar (s.env s.cur) t b).toNat t.tw = true := Nat.blt_eq ▸ hl
  simp only [checkScalars_ok hs, okDst_window hn, isVecDst, hlane, Bool.and_self, needOperand, need_true, bind, Except.bind,
    Team.dstReg]

theorem falls_ccmovRd_vector {s : State} {t : Team} (ha : s.agent s.cur = some t) {n : Fin 96} (hn : t.inWindow n.val = true)
    (hv : Vectors t) :
    Falls (.ccmovRd (.v n)) s (t.writeLanes (t.reg n.val) t.liveLanes fun l => (sget t.cc l).setWidth 32) := by
  refine falls_of ha (exec_ccmovRd ..) (by simp [Instr.words]) ?_
  simp only [checkSh0_ok hv.1 hv.2, okDst_window hn, needOperand, need_true, bind, Except.bind, Team.dstReg]

theorem falls_ccmovRd_scalar {s : State} {t : Team} (ha : s.agent s.cur = some t) {d : Reg} (hd : isScaDst d = true) (hv : Vectors t) :
    Falls (.ccmovRd d) s (t.writeScalar d (t.firstNib.setWidth 64)) := by
  refine falls_of ha (exec_ccmovRd ..) (by simp [Instr.words]) ?_
  simp only [checkSh0_ok hv.1 hv.2, okDst_of_scalar hd, needOperand, need_true, bind, Except.bind, dstReg_of_scalar hd]

theorem falls_ccmovWr {s : State} {t : Team} (ha : s.agent s.cur = some t) {a : Src} (hr : Readable t [a]) (hv : Vectors t) :
    Falls (.ccmovWr a) s (t.writeNibs t.liveLanes fun l => (srcLane (s.env s.cur) t a l).setWidth 4) := by
  refine falls_of ha (exec_ccmovWr ..) (by simp [Instr.words, Nat.add_comm]) ?_
  simp only [checkSrcs_ok hr, checkSh0_ok hv.1 hv.2, bind, Except.bind]

/-- Settles O8: each cross-lane instruction passes its checks and writes its destination. -/
theorem crossLaneResult : Obligations.CrossLaneResult := fun _ _ ha =>
  ⟨fun m _ _ _ => falls_shfl ha m, fun f _ _ => falls_vote ha f, fun _ _ => falls_rdfirst ha, fun _ _ _ => falls_rdlane ha,
    fun _ _ _ => falls_wrlane ha, fun _ => falls_ccmovRd_vector ha, fun _ => falls_ccmovRd_scalar ha, fun _ => falls_ccmovWr ha⟩

end Sys2Proof.LaneResults
end

section
/-!
PROOF. The products, divisions, bit fields and bit counts (R85, R86, R89, R93), as bit vectors of any width; and the nibble that each
integer instruction forms (R77).
-/
namespace Sys2Proof.LaneBits
open Sys2Proof Sys2Proof.Machine Sys2Proof.Claims Sys2Proof.Laws Sys2Proof.LanesInteger

@[simp] theorem elemIn_d (signed : Bool) {w : Nat} (a b d : BitVec w) (c : Bool) : (elemIn signed a b d c).d = d.toNat := rfl

theorem bitAt_toNat {w : Nat} (x : BitVec w) (i : Nat) : bitAt x.toNat i = x.getLsbD i := by
  rw [BitVec.getLsbD, Nat.testBit_eq_decide_div_mod_eq]
  rfl

/-! ## Products (R85) -/

theorem mul_computes : Computes .mul fun _ _ a b _ _ => a * b := by
  intro w signed a b d c hw
  simp [IntOp.op, opMul, tInt_toNat hw, BitVec.ofInt_mul, ofInt_asInt]

theorem mulh_computes : Computes .mulh fun w signed a b _ _ => BitVec.ofInt w (asInt signed a * asInt signed b / 2 ^ w) := by
  intro w signed a b d c hw
  simp only [IntOp.op, opMulh, plain_val, elemIn_w, elemIn_signed, elemIn_a, elemIn_b, tInt_toNat hw, ofNat_narrow]
  rw [Int.fdiv_eq_ediv_of_nonneg _ (by positivity)]

theorem mad_computes : Computes .mad fun _ _ a b d _ => a * b + d := by
  intro w signed a b d c hw
  simp [IntOp.op, opMad, tInt_toNat hw, BitVec.ofInt_mul, BitVec.ofInt_add, ofInt_asInt]

/-! ## Division (R86) -/

theorem toNat_minOf {w : Nat} (hw : 0 < w) : (minOf w).toNat = 2 ^ (w - 1) := by
  rw [minOf, BitVec.toNat_twoPow, Nat.mod_eq_of_lt (Nat.pow_lt_pow_right (by decide) (by omega))]

theorem toNat_eq_minOf {w : Nat} (hw : 0 < w) (a : BitVec w) : a.toNat = 2 ^ (w - 1) ↔ a = minOf w := by
  rw [← toNat_minOf hw, BitVec.toNat_inj]

theorem toNat_eq_allOnes {w : Nat} (b : BitVec w) : b.toNat = 2 ^ w - 1 ↔ b = BitVec.allOnes w := by
  rw [← BitVec.toNat_allOnes, BitVec.toNat_inj]

theorem toNat_eq_zero {w : Nat} (b : BitVec w) : b.toNat = 0 ↔ b = 0 := BitVec.toNat_inj (y := 0)

theorem ofNat_toNat_self {w : Nat} (a : BitVec w) : BitVec.ofNat w a.toNat = a := by simp

/-- The quotient and the remainder of two elements, and where V is set. -/
theorem divRem_elemIn {w : Nat} (hw : 0 < w) (signed : Bool) (a b d : BitVec w) (c : Bool) :
    divRem (elemIn signed a b d c) =
      if b = 0 then (2 ^ w - 1, a.toNat, true)
      else if signed = true ∧ a = minOf w ∧ b = BitVec.allOnes w then (2 ^ (w - 1), 0, true)
      else (narrow w (Int.tdiv (asInt signed a) (asInt signed b)), narrow w (Int.tmod (asInt signed a) (asInt signed b)), false) := by
  simp only [divRem, elemIn_w, elemIn_signed, elemIn_a, elemIn_b, tInt_toNat hw, toNat_eq_minOf hw, toNat_eq_allOnes, toNat_eq_zero]

theorem ofInt_tdiv (signed : Bool) {w : Nat} (a b : BitVec w) :
    BitVec.ofInt w (Int.tdiv (asInt signed a) (asInt signed b)) = if signed then a.sdiv b else a / b := by
  cases signed with
  | true =>
    apply BitVec.eq_of_toInt_eq
    simp [asInt, BitVec.toInt_sdiv]
  | false =>
    apply BitVec.eq_of_toNat_eq
    have hcast : Int.tdiv (a.toNat : Int) b.toNat = ((a.toNat / b.toNat : Nat) : Int) := rfl
    have hlt : a.toNat / b.toNat < 2 ^ w := (Nat.div_le_self _ _).trans_lt a.isLt
    simp only [asInt, Bool.false_eq_true, if_false, hcast, BitVec.ofInt_natCast, BitVec.toNat_ofNat, Nat.mod_eq_of_lt hlt, BitVec.toNat_udiv]

theorem ofInt_tmod (signed : Bool) {w : Nat} (a b : BitVec w) :
    BitVec.ofInt w (Int.tmod (asInt signed a) (asInt signed b)) = if signed then a.srem b else a % b := by
  cases signed with
  | true =>
    apply BitVec.eq_of_toInt_eq
    rw [if_pos rfl, BitVec.toInt_srem, BitVec.toInt_ofInt, ← BitVec.toInt_srem, asInt, asInt, if_pos rfl, if_pos rfl, ← BitVec.toInt_srem,
      ← BitVec.toInt_ofInt, BitVec.ofInt_toInt]
  | false =>
    apply BitVec.eq_of_toNat_eq
    have hcast : Int.tmod (a.toNat : Int) b.toNat = ((a.toNat % b.toNat : Nat) : Int) := rfl
    have hlt : a.toNat % b.toNat < 2 ^ w := (Nat.mod_le _ _).trans_lt a.isLt
    simp only [asInt, Bool.false_eq_true, if_false, hcast, BitVec.ofInt_natCast, BitVec.toNat_ofNat, Nat.mod_eq_of_lt hlt, BitVec.toNat_umod]

theorem div_computes : Computes .div fun _ signed a b _ _ => quotient signed a b := by
  intro w signed a b d c hw
  simp only [IntOp.op, opDiv, divRem_elemIn hw, quotient]
  split
  · rw [← BitVec.toNat_allOnes, ofNat_toNat_self]
  · cases signed with
    | true =>
      simp only [true_and, if_true]
      split
      · rw [← toNat_minOf hw, ofNat_toNat_self]
      · rw [ofNat_narrow, ofInt_tdiv, if_pos rfl]
    | false =>
      simp only [Bool.false_eq_true, false_and, if_false]
      rw [ofNat_narrow, ofInt_tdiv, if_neg Bool.false_ne_true]

theorem rem_computes : Computes .rem fun _ signed a b _ _ => remainder signed a b := by
  intro w signed a b d c hw
  simp only [IntOp.op, opRem, divRem_elemIn hw, remainder]
  split
  · exact ofNat_toNat_self a
  · cases signed with
    | true =>
      simp only [true_and, if_true]
      split
      · rfl
      · rw [ofNat_narrow, ofInt_tmod, if_pos rfl]
    | false =>
      simp only [Bool.false_eq_true, false_and, if_false]
      rw [ofNat_narrow, ofInt_tmod, if_neg Bool.false_ne_true]

/-! ## Bit fields (R89) -/

theorem bfe_computes : Computes .bfe fun _ signed a b _ _ => bitField signed a b := by
  intro w signed a b d c hw
  simp only [IntOp.op, opBfe, bitField, elemIn_w, elemIn_signed, elemIn_a, elemIn_b]
  by_cases hempty : b.toNat / 256 % 256 = 0 ∨ w ≤ b.toNat % 256
  · simp [hempty]
  · simp only [hempty, if_false, plain_val, ← Nat.shiftRight_eq_div_pow, ← BitVec.toNat_ushiftRight]
    exact ofNat_extendBits signed (by omega) _

/-- A value without the bits of a mask. -/
theorem sub_and_eq_and_not {w : Nat} (d m : BitVec w) : d - (d &&& m) = d &&& ~~~m := by
  have hsplit : (d &&& ~~~m) + (d &&& m) = d := by
    rw [BitVec.add_eq_or_of_and_eq_zero]
    · ext i hi
      simp
      cases d[i] <;> cases m[i] <;> rfl
    · ext i hi
      simp
      intro _ h _
      exact h
  rw [sub_eq_iff_eq_add]
  exact hsplit.symm

/-- A field put in the place of a mask's bits. -/
theorem ofNat_insert {w : Nat} (a d m : BitVec w) (p : Nat) :
    BitVec.ofNat w (d.toNat - Nat.land d.toNat m.toNat + Nat.land (a.toNat * 2 ^ p) m.toNat) = (d &&& ~~~m) ||| ((a <<< p) &&& m) := by
  have hkeep : BitVec.ofNat w (d.toNat - Nat.land d.toNat m.toNat) = d &&& ~~~m := by
    have hle : d &&& m ≤ d := BitVec.le_def.2 (by rw [BitVec.toNat_and]; exact Nat.and_le_left)
    rw [← sub_and_eq_and_not, ← ofNat_toNat_self (d - (d &&& m)), BitVec.toNat_sub_of_le hle, BitVec.toNat_and]
    rfl
  have hput : BitVec.ofNat w (Nat.land (a.toNat * 2 ^ p) m.toNat) = (a <<< p) &&& m := by
    have hshift : BitVec.ofNat w (a.toNat * 2 ^ p) = a <<< p := by
      apply BitVec.eq_of_toNat_eq
      simp [Nat.shiftLeft_eq]
    exact BitVec.ofNat_and.trans (by rw [hshift, ofNat_toNat_self])
  rw [BitVec.ofNat_add, hkeep, hput, BitVec.add_eq_or_of_and_eq_zero]
  ext i hi
  simp
  intro _ h _ _
  exact h

theorem toNat_mask {w k p : Nat} (hk : k + p ≤ w) : (BitVec.ofNat w (2 ^ k - 1) <<< p).toNat = (2 ^ k - 1) * 2 ^ p := by
  have hpow : 2 ^ k * 2 ^ p ≤ 2 ^ w := by
    rw [← Nat.pow_add]
    exact Nat.pow_le_pow_right (by decide) hk
  have hk' : 2 ^ k ≤ 2 ^ w := Nat.pow_le_pow_right (by decide) (by omega)
  have hpos : 0 < 2 ^ k := by positivity
  have hpos' : 0 < 2 ^ p := by positivity
  have hmul : (2 ^ k - 1) * 2 ^ p < 2 ^ w := lt_of_lt_of_le (Nat.mul_lt_mul_of_pos_right (by omega) hpos') hpow
  rw [BitVec.toNat_shiftLeft, BitVec.toNat_ofNat, Nat.mod_eq_of_lt (a := 2 ^ k - 1) (by omega), Nat.shiftLeft_eq, Nat.mod_eq_of_lt hmul]

theorem bfi_computes : Computes .bfi fun _ _ a b d _ => bitInsert a b d := by
  intro w signed a b d c hw
  simp only [IntOp.op, opBfi, bitInsert, elemIn_w, elemIn_a, elemIn_b, elemIn_d]
  by_cases hempty : b.toNat / 256 % 256 = 0 ∨ w ≤ b.toNat % 256
  · simp [hempty]
  · simp only [hempty, if_false, plain_val]
    rw [← toNat_mask (by omega : min (b.toNat / 256 % 256) (w - b.toNat % 256) + b.toNat % 256 ≤ w)]
    exact ofNat_insert a d _ _

/-! ## Counts and reversal (R89), MOV (R93) -/

theorem popCount_eq {w : Nat} (x : BitVec w) (n : Nat) : popCount x.toNat n = (List.range n).countP fun i => x.getLsbD i := by
  induction n with
  | zero => rfl
  | succ n ih =>
    rw [popCount, ih, bitAt_toNat, List.range_succ, List.countP_append, Nat.add_comm]
    cases h : x.getLsbD n <;> simp [b2n, h]

theorem popc_computes : Computes .popc fun w _ a _ _ _ => BitVec.ofNat w ((List.range w).countP fun i => a.getLsbD i) := by
  intro w signed a b d c _
  exact congrArg (BitVec.ofNat w) (popCount_eq a w)

/-- The zeros above the highest set bit among the low n + 1 bits, and those above them. -/
theorem clzAuxRec_eq {w : Nat} (x : BitVec w) (n : Nat) (hn : n < w) :
    x.clzAuxRec n = BitVec.ofNat w (w - 1 - n + leadZeros x.toNat (n + 1)) := by
  induction n with
  | zero =>
    rw [BitVec.clzAuxRec_zero, leadZeros, bitAt_toNat]
    cases x.getLsbD 0
    · simp only [leadZeros, Bool.false_eq_true, if_false]
      rw [show w - 1 - 0 + (1 + 0) = w by omega]
    · rfl
  | succ n ih =>
    rw [BitVec.clzAuxRec_succ, leadZeros, bitAt_toNat]
    cases x.getLsbD (n + 1)
    · rw [if_neg Bool.false_ne_true, if_neg Bool.false_ne_true, ih (by omega)]
      rw [show w - 1 - (n + 1) + (1 + leadZeros x.toNat (n + 1)) = w - 1 - n + leadZeros x.toNat (n + 1) by omega]
    · rfl

theorem clz_computes : Computes .clz fun _ _ a _ _ _ => a.clz := by
  intro w signed a b d c hw
  obtain ⟨n, rfl⟩ : ∃ n, w = n + 1 := ⟨w - 1, by omega⟩
  change BitVec.ofNat (n + 1) (leadZeros a.toNat (n + 1)) = a.clzAuxRec n
  rw [clzAuxRec_eq a n (by omega)]
  simp

/-- The low n bits in reverse order. -/
def revLow (x : Nat) : Nat → Nat
  | 0 => 0
  | n + 1 => b2n (bitAt x n) + 2 * revLow x n

theorem revBits_eq (x w : Nat) : ∀ n ≤ w, revBits x w n = 2 ^ (w - n) * revLow x n
  | 0, _ => by simp [revBits, revLow]
  | n + 1, h => by
    have hpow : 2 ^ (w - n) = 2 ^ (w - (n + 1)) * 2 := by
      rw [← Nat.pow_succ]
      congr 1
      omega
    rw [revBits, revLow, revBits_eq x w n (by omega), hpow, show w - 1 - n = w - (n + 1) by omega]
    ring

theorem testBit_revLow {w : Nat} (x : BitVec w) : ∀ n i, i < n → (revLow x.toNat n).testBit i = x.getLsbD (n - 1 - i)
  | n + 1, 0, _ => by
    rw [revLow, bitAt_toNat, Nat.testBit_zero]
    cases h : x.getLsbD n <;> simp [b2n, h]
  | n + 1, i + 1, h => by
    have hhalf : revLow x.toNat (n + 1) / 2 = revLow x.toNat n := by
      rw [revLow]
      cases bitAt x.toNat n
      · exact Nat.div_eq_of_lt_le (by simp [b2n]; omega) (by simp [b2n]; omega)
      · exact Nat.div_eq_of_lt_le (by simp [b2n]; omega) (by simp [b2n]; omega)
    rw [Nat.testBit_add_one, hhalf, testBit_revLow x n i (by omega), show n + 1 - 1 - (i + 1) = n - 1 - i by omega]

theorem brev_computes : Computes .brev fun _ _ a _ _ _ => a.reverse := by
  intro w signed a b d c _
  apply BitVec.eq_of_getLsbD_eq
  intro i hi
  change (BitVec.ofNat w (revBits a.toNat w w)).getLsbD i = _
  rw [revBits_eq a.toNat w w le_rfl, Nat.sub_self, Nat.pow_zero, Nat.one_mul, BitVec.getLsbD_ofNat, testBit_revLow a w i hi,
    BitVec.getLsbD_reverse, BitVec.getMsbD]

theorem mov_computes : Computes .mov fun _ _ a _ _ _ => a := fun _ _ a _ _ _ _ => ofNat_toNat_self a

/-- Settles O10: each of the eleven operations computes its formula in an element, and the instruction follows it. -/
theorem multiplyDivideBitsRule : Obligations.MultiplyDivideBitsRule :=
  ⟨follows_of_computes mul_computes, follows_of_computes mulh_computes, follows_of_computes mad_computes,
    follows_of_computes div_computes, follows_of_computes rem_computes, follows_of_computes bfe_computes,
    follows_of_computes bfi_computes, follows_of_computes popc_computes, follows_of_computes clz_computes,
    follows_of_computes brev_computes, follows_of_computes mov_computes⟩

/-! ## What an operation sets of the nibble (R77) -/

/-- In every element an operation gives a value of the element's width, and the carry and the overflow that R77 says. -/
def FormsCodes (o : IntOp) : Prop :=
  ∀ (w : Nat) (signed : Bool) (a b d : BitVec w) (c : Bool), 0 < w →
    (o.op (elemIn signed a b d c)).val < 2 ^ w ∧ (o.op (elemIn signed a b d c)).c = elemCarry o a b c ∧
      (o.op (elemIn signed a b d c)).v = elemOverflow o signed a b d c

theorem narrow_lt (w : Nat) (x : Int) : narrow w x < 2 ^ w := by
  rw [narrow_eq_toNat]
  exact (BitVec.ofInt w x).isLt

/-- An exact value fits a type where the element it wraps to reads as itself. -/
theorem fits_eq (signed : Bool) {w : Nat} (hw : 0 < w) (x : Int) : fits signed w x = (asInt signed (BitVec.ofInt w x) == x) := by
  have hpow : (2 : Int) ^ w = 2 * 2 ^ (w - 1) := by
    rw [← pow_succ']
    congr 1
    omega
  have hcast : ((2 ^ w : Nat) : Int) = 2 ^ w := by push_cast; rfl
  have hpos : (0 : Int) < 2 ^ (w - 1) := by positivity
  have hdiv : ((2 ^ w : Nat) : Int) / 2 = 2 ^ (w - 1) := by omega
  rw [Bool.eq_iff_iff, beq_iff_eq]
  cases signed with
  | true =>
    simp only [fits, asInt, if_true, Bool.and_eq_true, decide_eq_true_eq, BitVec.toInt_ofInt]
    constructor
    · rintro ⟨hlo, hhi⟩
      exact Int.bmod_eq_of_le (by omega) (by omega)
    · intro h
      have hlo := Int.le_bmod (x := x) (m := 2 ^ w) (by positivity)
      have hhi := Int.bmod_lt (x := x) (m := 2 ^ w) (by positivity)
      rw [h] at hlo hhi
      omega
  | false =>
    simp only [fits, asInt, Bool.false_eq_true, if_false, Bool.and_eq_true, decide_eq_true_eq, BitVec.toNat_ofInt]
    rw [Int.toNat_of_nonneg (Int.emod_nonneg _ (by positivity)), hcast]
    constructor
    · rintro ⟨hlo, hhi⟩
      exact Int.emod_eq_of_lt hlo hhi
    · intro h
      have hlo := Int.emod_nonneg x (b := 2 ^ w) (by positivity)
      have hhi := Int.emod_lt_of_pos x (b := 2 ^ w) (by positivity)
      rw [h] at hlo hhi
      exact ⟨hlo, hhi⟩

theorem ble_eq_decide (m n : Nat) : Nat.ble m n = decide (m ≤ n) := by
  rw [Bool.eq_iff_iff]
  simp

theorem b2n_eq_toNat (c : Bool) : b2n c = c.toNat := by cases c <;> rfl

theorem one_sub_b2n (c : Bool) : 1 - b2n c = (!c).toNat := by cases c <;> rfl

theorem aluAdd_codes {w : Nat} (hw : 0 < w) (a b : BitVec w) (k : Nat) :
    (aluAdd w a.toNat b.toNat k).val < 2 ^ w ∧ (aluAdd w a.toNat b.toNat k).c = decide (2 ^ w ≤ a.toNat + b.toNat + k) ∧
      (aluAdd w a.toNat b.toNat k).v = !(asInt true (BitVec.ofInt w (a.toInt + b.toInt + k)) == a.toInt + b.toInt + k) := by
  refine ⟨Nat.mod_lt _ (by positivity), ble_eq_decide _ _, ?_⟩
  rw [aluAdd, sInt_toNat hw, sInt_toNat hw, fits_eq true hw]

theorem aluSub_codes {w : Nat} (hw : 0 < w) (a b : BitVec w) (k : Nat) :
    (aluSub w a.toNat b.toNat k).val < 2 ^ w ∧ (aluSub w a.toNat b.toNat k).c = decide (b.toNat + k ≤ a.toNat) ∧
      (aluSub w a.toNat b.toNat k).v = !(asInt true (BitVec.ofInt w (a.toInt - b.toInt - k)) == a.toInt - b.toInt - k) := by
  refine ⟨narrow_lt _ _, ble_eq_decide _ _, ?_⟩
  rw [aluSub, sInt_toNat hw, sInt_toNat hw, fits_eq true hw]

theorem add_codes : FormsCodes .add := by
  intro w signed a b d c hw
  simpa [IntOp.op, opAdd, elemCarry, elemOverflow] using aluAdd_codes hw a b 0

theorem addc_codes : FormsCodes .addc := by
  intro w signed a b d c hw
  have h := aluAdd_codes hw a b (b2n c)
  rw [b2n_eq_toNat] at h
  simpa only [IntOp.op, opAddc, elemIn_w, elemIn_a, elemIn_b, elemIn_cin, b2n_eq_toNat, elemCarry, elemOverflow] using h

theorem sub_codes : FormsCodes .sub := by
  intro w signed a b d c hw
  simpa [IntOp.op, opSub, elemCarry, elemOverflow] using aluSub_codes hw a b 0

theorem subb_codes : FormsCodes .subb := by
  intro w signed a b d c hw
  have h := aluSub_codes hw a b (1 - b2n c)
  rw [one_sub_b2n] at h
  simpa only [IntOp.op, opSubb, elemIn_w, elemIn_a, elemIn_b, elemIn_cin, one_sub_b2n, elemCarry, elemOverflow] using h

theorem adds_codes : FormsCodes .adds := fun w signed a b d c hw =>
  ⟨narrow_lt _ _, rfl, by simp [IntOp.op, opAdds, aluSat, tInt_toNat hw, fits_eq signed hw, elemOverflow]⟩

theorem subs_codes : FormsCodes .subs := fun w signed a b d c hw =>
  ⟨narrow_lt _ _, rfl, by simp [IntOp.op, opSubs, aluSat, tInt_toNat hw, fits_eq signed hw, elemOverflow]⟩

theorem mul_codes : FormsCodes .mul := fun w signed a b d c hw =>
  ⟨narrow_lt _ _, rfl, by simp [IntOp.op, opMul, tInt_toNat hw, fits_eq signed hw, elemOverflow]⟩

theorem mad_codes : FormsCodes .mad := fun w signed a b d c hw =>
  ⟨narrow_lt _ _, rfl, by simp [IntOp.op, opMad, tInt_toNat hw, fits_eq signed hw, elemOverflow]⟩

theorem divRem_lt {w : Nat} (hw : 0 < w) (signed : Bool) (a b d : BitVec w) (c : Bool) :
    (divRem (elemIn signed a b d c)).1 < 2 ^ w ∧ (divRem (elemIn signed a b d c)).2.1 < 2 ^ w := by
  have hpos : 0 < 2 ^ w := by positivity
  have hhalf : 2 ^ (w - 1) < 2 ^ w := Nat.pow_lt_pow_right (by decide) (by omega)
  rw [divRem_elemIn hw]
  split
  · exact ⟨by omega, a.isLt⟩
  split
  · exact ⟨hhalf, hpos⟩
  · exact ⟨narrow_lt _ _, narrow_lt _ _⟩

theorem divRem_overflow {w : Nat} (hw : 0 < w) (signed : Bool) (a b d : BitVec w) (c : Bool) :
    (divRem (elemIn signed a b d c)).2.2 = (b == 0 || (signed && a == minOf w && b == BitVec.allOnes w)) := by
  rw [divRem_elemIn hw]
  by_cases hzero : b = 0
  · simp [hzero]
  by_cases hcorner : signed = true ∧ a = minOf w ∧ b = BitVec.allOnes w
  · rw [if_neg hzero, if_pos hcorner]
    obtain ⟨hs, ha, hb⟩ := hcorner
    simp [hs, ha, hb]
  · have hzero' : (b == 0) = false := by simpa using hzero
    rw [if_neg hzero, if_neg hcorner, hzero', Bool.false_or, eq_comm, Bool.eq_false_iff]
    simpa [and_assoc] using hcorner

theorem div_codes : FormsCodes .div := fun _ signed a b d c hw => ⟨(divRem_lt hw signed a b d c).1, rfl, divRem_overflow hw signed a b d c⟩

theorem rem_codes : FormsCodes .rem := fun _ signed a b d c hw => ⟨(divRem_lt hw signed a b d c).2, rfl, divRem_overflow hw signed a b d c⟩

/-- An operation that sets neither C nor V: what is left to say is that its value has the element's width. -/
theorem codes_of_plain {o : IntOp} (hop : ∀ i, o.op i = plain (o.op i).val) (hc : ∀ {w : Nat} (a b : BitVec w) c, elemCarry o a b c = false)
    (hv : ∀ signed {w : Nat} (a b d : BitVec w) c, elemOverflow o signed a b d c = false)
    (hlt : ∀ (w : Nat) (signed : Bool) (a b d : BitVec w) (c : Bool), 0 < w → (o.op (elemIn signed a b d c)).val < 2 ^ w) :
    FormsCodes o := by
  intro w signed a b d c hw
  refine ⟨hlt w signed a b d c hw, ?_, ?_⟩
  · rw [hop, hc]
    rfl
  · rw [hop, hv]
    rfl

theorem natAbs_sub_lt (signed : Bool) {w : Nat} (a b : BitVec w) : (asInt signed a - asInt signed b).natAbs < 2 ^ w := by
  have ha := a.isLt
  have hb := b.isLt
  cases signed with
  | true =>
    simp only [asInt, if_true, BitVec.toInt_eq_toNat_cond]
    split <;> split <;> omega
  | false =>
    simp only [asInt, Bool.false_eq_true, if_false]
    omega

theorem extendBits_lt (signed : Bool) {w k : Nat} (hk : k ≤ w) (x : Nat) : extendBits signed w k x < 2 ^ w := by
  have hpow : 2 ^ k ≤ 2 ^ w := Nat.pow_le_pow_right (by decide) hk
  have hmod : x % 2 ^ k < 2 ^ k := Nat.mod_lt _ (by positivity)
  unfold extendBits
  dsimp only
  split <;> omega

theorem insert_lt {w : Nat} (a : Nat) (d m : BitVec w) : d.toNat - Nat.land d.toNat m.toNat + Nat.land a m.toNat < 2 ^ w := by
  have hle : d &&& m ≤ d := BitVec.le_def.2 (by rw [BitVec.toNat_and]; exact Nat.and_le_left)
  have hkeep : d.toNat - Nat.land d.toNat m.toNat = (d &&& ~~~m).toNat := by
    rw [← sub_and_eq_and_not, BitVec.toNat_sub_of_le hle, BitVec.toNat_and]
    rfl
  have hput : Nat.land a m.toNat ≤ m.toNat := Nat.and_le_right
  have hdisjoint : (d &&& ~~~m) + m = (d &&& ~~~m) ||| m := by
    apply BitVec.add_eq_or_of_and_eq_zero
    ext i hi
    simp
  have hsum : (d &&& ~~~m).toNat + m.toNat < 2 ^ w := by
    rw [← BitVec.toNat_add_of_and_eq_zero]
    · exact ((d &&& ~~~m) + m).isLt
    · ext i hi
      simp
  omega

theorem popCount_le (x n : Nat) : popCount x n ≤ n := by
  induction n with
  | zero => exact le_rfl
  | succ n ih =>
    rw [popCount]
    cases bitAt x n <;> simp [b2n] <;> omega

theorem leadZeros_le (x n : Nat) : leadZeros x n ≤ n := by
  induction n with
  | zero => exact le_rfl
  | succ n ih =>
    rw [leadZeros]
    split <;> omega

theorem revLow_lt (x n : Nat) : revLow x n < 2 ^ n := by
  induction n with
  | zero => exact Nat.one_pos
  | succ n ih =>
    rw [revLow, Nat.pow_succ]
    cases bitAt x n <;> simp [b2n] <;> omega

theorem shift_lt {w : Nat} (a k : Nat) : shlBy w a k < 2 ^ w ∧ rotBy w a k < 2 ^ w := by
  have hpos : 0 < 2 ^ w := by positivity
  refine ⟨?_, Nat.mod_lt _ hpos⟩
  unfold shlBy
  split
  · exact Nat.mod_lt _ hpos
  · exact hpos

theorem shrBy_lt {w : Nat} (a : BitVec w) (k : Nat) : shrBy w a.toNat k < 2 ^ w := by
  unfold shrBy
  split
  · exact (Nat.div_le_self _ _).trans_lt a.isLt
  · positivity

theorem sarBy_lt {w : Nat} (a k : Nat) : sarBy w a k < 2 ^ w := by
  have hpos : 0 < 2 ^ w := by positivity
  unfold sarBy
  split
  · exact narrow_lt _ _
  · split <;> omega

theorem bfe_plain (i : IntIn) : opBfe i = plain (opBfe i).val := by
  unfold opBfe
  dsimp only
  split <;> rfl

theorem bfi_plain (i : IntIn) : opBfi i = plain (opBfi i).val := by
  unfold opBfi
  dsimp only
  split <;> rfl

theorem ext_plain (i : IntIn) : opExt i = plain (opExt i).val := by
  unfold opExt
  dsimp only
  split
  · rfl
  · split <;> rfl

theorem bfe_lt {w : Nat} (signed : Bool) (a b d : BitVec w) (c : Bool) : (opBfe (elemIn signed a b d c)).val < 2 ^ w := by
  by_cases hempty : b.toNat / 256 % 256 = 0 ∨ w ≤ b.toNat % 256
  · simp [opBfe, hempty]
  · simp only [opBfe, elemIn_w, elemIn_a, elemIn_b, elemIn_signed, hempty, if_false, plain_val]
    exact extendBits_lt signed (by omega) _

theorem bfi_lt {w : Nat} (signed : Bool) (a b d : BitVec w) (c : Bool) : (opBfi (elemIn signed a b d c)).val < 2 ^ w := by
  by_cases hempty : b.toNat / 256 % 256 = 0 ∨ w ≤ b.toNat % 256
  · simp [opBfi, hempty, d.isLt]
  · simp only [opBfi, elemIn_w, elemIn_a, elemIn_b, elemIn_d, hempty, if_false, plain_val]
    rw [← toNat_mask (by omega : min (b.toNat / 256 % 256) (w - b.toNat % 256) + b.toNat % 256 ≤ w)]
    exact insert_lt _ d _

theorem ext_lt {w : Nat} (signed : Bool) (a b d : BitVec w) (c : Bool) : (opExt (elemIn signed a b d c)).val < 2 ^ w := by
  simp only [opExt, elemIn_w, elemIn_a, elemIn_b, elemIn_signed]
  by_cases hzero : b.toNat % 256 = 0
  · simp [hzero]
  by_cases hwide : w ≤ b.toNat % 256
  · simp [hzero, hwide, a.isLt]
  · simp only [hzero, hwide, if_false, plain_val]
    exact extendBits_lt signed (by omega) _

theorem formsCodes (o : IntOp) : FormsCodes o := by
  cases o with
  | add => exact add_codes
  | sub => exact sub_codes
  | addc => exact addc_codes
  | subb => exact subb_codes
  | mul => exact mul_codes
  | mad => exact mad_codes
  | div => exact div_codes
  | rem => exact rem_codes
  | adds => exact adds_codes
  | subs => exact subs_codes
  | mulh => exact codes_of_plain (fun _ => rfl) (fun _ _ _ => rfl) (fun _ _ _ _ _ _ => rfl) fun _ _ _ _ _ _ _ => narrow_lt _ _
  | min =>
    refine codes_of_plain (fun _ => rfl) (fun _ _ _ => rfl) (fun _ _ _ _ _ _ => rfl) fun w signed a b d c _ => ?_
    rw [IntOp.op, opMin, plain_val]
    split
    · exact a.isLt
    · exact b.isLt
  | max =>
    refine codes_of_plain (fun _ => rfl) (fun _ _ _ => rfl) (fun _ _ _ _ _ _ => rfl) fun w signed a b d c _ => ?_
    rw [IntOp.op, opMax, plain_val]
    split
    · exact b.isLt
    · exact a.isLt
  | absd =>
    refine codes_of_plain (fun _ => rfl) (fun _ _ _ => rfl) (fun _ _ _ _ _ _ => rfl) fun w signed a b d c hw => ?_
    simpa [IntOp.op, opAbsd, tInt_toNat hw] using natAbs_sub_lt signed a b
  | and =>
    exact codes_of_plain (fun _ => rfl) (fun _ _ _ => rfl) (fun _ _ _ _ _ _ => rfl) fun _ _ a _ _ _ _ => Nat.and_le_left.trans_lt a.isLt
  | or =>
    exact codes_of_plain (fun _ => rfl) (fun _ _ _ => rfl) (fun _ _ _ _ _ _ => rfl) fun _ _ a b _ _ _ => Nat.or_lt_two_pow a.isLt b.isLt
  | xor =>
    exact codes_of_plain (fun _ => rfl) (fun _ _ _ => rfl) (fun _ _ _ _ _ _ => rfl) fun _ _ a b _ _ _ => Nat.xor_lt_two_pow a.isLt b.isLt
  | andn =>
    exact codes_of_plain (fun _ => rfl) (fun _ _ _ => rfl) (fun _ _ _ _ _ _ => rfl) fun _ _ a _ _ _ _ => Nat.and_le_left.trans_lt a.isLt
  | shl => exact codes_of_plain (fun _ => rfl) (fun _ _ _ => rfl) (fun _ _ _ _ _ _ => rfl) fun _ _ _ _ _ _ _ => (shift_lt _ _).1
  | shr => exact codes_of_plain (fun _ => rfl) (fun _ _ _ => rfl) (fun _ _ _ _ _ _ => rfl) fun _ _ a _ _ _ _ => shrBy_lt a _
  | sar => exact codes_of_plain (fun _ => rfl) (fun _ _ _ => rfl) (fun _ _ _ _ _ _ => rfl) fun _ _ _ _ _ _ _ => sarBy_lt _ _
  | rot => exact codes_of_plain (fun _ => rfl) (fun _ _ _ => rfl) (fun _ _ _ _ _ _ => rfl) fun _ _ _ _ _ _ _ => (shift_lt _ _).2
  | bfe => exact codes_of_plain bfe_plain (fun _ _ _ => rfl) (fun _ _ _ _ _ _ => rfl) fun _ signed a b d c _ => bfe_lt signed a b d c
  | bfi => exact codes_of_plain bfi_plain (fun _ _ _ => rfl) (fun _ _ _ _ _ _ => rfl) fun _ signed a b d c _ => bfi_lt signed a b d c
  | ext => exact codes_of_plain ext_plain (fun _ _ _ => rfl) (fun _ _ _ _ _ _ => rfl) fun _ signed a b d c _ => ext_lt signed a b d c
  | popc =>
    exact codes_of_plain (fun _ => rfl) (fun _ _ _ => rfl) (fun _ _ _ _ _ _ => rfl) fun w _ a _ _ _ _ =>
      (popCount_le a.toNat w).trans_lt Nat.lt_two_pow_self
  | clz =>
    exact codes_of_plain (fun _ => rfl) (fun _ _ _ => rfl) (fun _ _ _ _ _ _ => rfl) fun w _ a _ _ _ _ =>
      (leadZeros_le a.toNat w).trans_lt Nat.lt_two_pow_self
  | brev =>
    refine codes_of_plain (fun _ => rfl) (fun _ _ _ => rfl) (fun _ _ _ _ _ _ => rfl) fun w signed a b d c _ => ?_
    simpa [IntOp.op, opBrev, revBits_eq a.toNat w w le_rfl] using revLow_lt a.toNat w
  | mov => exact codes_of_plain (fun _ => rfl) (fun _ _ _ => rfl) (fun _ _ _ _ _ _ => rfl) fun _ _ a _ _ _ _ => a.isLt

/-! ## The nibble of a lane -/

theorem msb_ofNat {w v : Nat} (h : v < 2 ^ w) : (BitVec.ofNat w v).msb = bitAt v (w - 1) := by
  rw [← bitAt_msb, BitVec.toNat_ofNat, Nat.mod_eq_of_lt h]

theorem ofNat_beq_zero {w v : Nat} (h : v < 2 ^ w) : (BitVec.ofNat w v == 0) = (v == 0) := by
  rw [Bool.eq_iff_iff, beq_iff_eq, beq_iff_eq, ← toNat_eq_zero, BitVec.toNat_ofNat, Nat.mod_eq_of_lt h]

theorem combineNib_map (w : Nat) {n : Nat} (hn : 0 < n) (f : Nat → IntRes) :
    combineNib w ((List.range n).map f) = nibble (bitAt (f (n - 1)).val (w - 1)) ((List.range n).all fun j => (f j).val == 0)
      (f (n - 1)).c ((List.range n).any fun j => (f j).v) := by
  have hlast : ((List.range n).map f).getLast? = some (f (n - 1)) := by
    rw [List.getLast?_map, List.getLast?_range, if_neg hn.ne']
    rfl
  simp only [combineNib, hlast, List.all_map, List.any_map]
  rfl

theorem all_range_congr {n : Nat} {f g : Nat → Bool} (h : ∀ j < n, f j = g j) : (List.range n).all f = (List.range n).all g := by
  rw [Bool.eq_iff_iff]
  simp only [List.all_eq_true, List.mem_range]
  exact forall₂_congr fun j hj => by rw [h j hj]

/-- The elements of every type are of a positive width, and there is one at least. -/
theorem intElem_pos (ty : IntTy) : 0 < (intElem ty).1 ∧ 0 < (intElem ty).2.1 := by
  cases ty <;> decide

theorem nib_intLaneRes (o : IntOp) (ty : IntTy) (a b d : W32) (c : Bool) :
    (intLaneRes o.op ty a b d c).nib = combineNib (intElem ty).1 (laneElems o.op ty a b d c) := rfl

/-- Settles O12: the nibble of a lane is made of its elements' results, of which each operation sets C and V as R77 says. -/
theorem codesRule : Obligations.CodesRule := by
  constructor
  · intro o ty a b d c
    obtain ⟨hw, hn⟩ := intElem_pos ty
    have hforms j := formsCodes o (intElem ty).1 (ty != .n) (elemBits (intElem ty).1 a j) (elemBits (intElem ty).1 b j)
      (elemBits (intElem ty).1 d j) c hw
    dsimp only
    rw [nib_intLaneRes, laneElems_eq, combineNib_map _ hn, elemBits_intLaneRes _ _ _ _ _ _ _ (by omega), msb_ofNat (hforms _).1]
    congr 1
    · exact all_range_congr fun j hj => by rw [elemBits_intLaneRes _ _ _ _ _ _ j hj, ofNat_beq_zero (hforms j).1]
    · exact (hforms _).2.1
    · simp only [(hforms _).2.2]
  · intro o ty a b d c
    obtain ⟨hlt, hcarry, hover⟩ := formsCodes o 64 (ty == .i) a b d c (by decide)
    dsimp only
    rw [intScalarRes_eq, LaneRes.int, msb_ofNat hlt, ofNat_beq_zero hlt, ← hcarry, ← hover]
    rfl

end Sys2Proof.LaneBits
end

section
/-!
PROOF. The clause header (R26 to R28) and the control-flow instructions (R120 to R139, R296, R298): what each moves, and the traps
that it takes.
-/
namespace Sys2Proof.ControlFlow
open Sys2Proof Sys2Proof.Machine Sys2Proof.Claims Sys2Proof.Laws Sys2Proof.LaneResults

/-! ## The frames of the instructions that move their agent -/

section
variable {s : State} {t : Team} (ha : s.agent s.cur = some t)
include ha

theorem runMove_ok {t' : Team} {f : Env → Team → Except Trap Team} (hf : f (s.env s.cur) t = .ok t') :
    runMove s f = .next (s.setAgent s.cur t') :=
  runState_ok ha (by rw [hf])

theorem runMove_error {x : Trap} {f : Env → Team → Except Trap Team} (hf : f (s.env s.cur) t = .error x) :
    runMove s f = .next (takeTrap s x) :=
  runState_error ha (by rw [hf])

theorem runUnwind_ok {t' : Team} {f : Env → Team → Except Trap Team} (hf : f (s.env s.cur) t = .ok t') :
    runUnwind s f = .next ((s.setAgent s.cur t').afterDrain s.cur) :=
  runState_ok ha (by rw [hf])

theorem runUnwind_error {x : Trap} {f : Env → Team → Except Trap Team} (hf : f (s.env s.cur) t = .error x) :
    runUnwind s f = .next (takeTrap s x) :=
  runState_error ha (by rw [hf])

/-- A commit of a team of no REDUNDANT group takes effect at once (R313). -/
theorem runCommit_ok {s' : State} {i : Instr} {f : State → Env → Team → Except Trap State} (hc : s.inCopy (s.env s.cur) = false)
    (hf : f s (s.env s.cur) t = .ok s') : runCommit i s f = .next s' :=
  runState_ok ha (by simp [hf, hc])

/-- A commit of a team of a REDUNDANT group waits for the partner (R313). -/
theorem runCommit_hold {s' : State} {i : Instr} {f : State → Env → Team → Except Trap State} (hc : s.inCopy (s.env s.cur) = true)
    (hf : f s (s.env s.cur) t = .ok s') : runCommit i s f = .next (s.holdCommit (s.env s.cur) t i) :=
  runState_ok ha (by simp [hf, hc])

theorem runCommit_error {x : Trap} {i : Instr} {f : State → Env → Team → Except Trap State} (hf : f s (s.env s.cur) t = .error x) :
    runCommit i s f = .next (takeTrap s x) :=
  runState_error ha (by rw [hf])

end

/-! ## The clause header (R26 to R28) -/

/-- A clause may start: the flags that it waits for are clear, and those that it counts on have room. -/
theorem clauseOpen_iff (t : Team) (h : Header) (long : Nat) :
    t.clauseOpen h long = true ↔ ∀ k < 12, (h.wait.getLsbD k = true → sget t.flags k = 0) ∧
      (sget t.flags k).toNat + Sys2Proof.Machine.Header.adds h long k ≤ 7 := by
  have hbit (k : Nat) : bitAt h.wait.toNat k = h.wait.getLsbD k := by
    rw [BitVec.getLsbD, Nat.testBit_eq_decide_div_mod_eq]
    rfl
  have hzero (k : Nat) : t.flag k = 0 ↔ sget t.flags k = 0 := BitVec.toNat_inj (y := 0)
  have himp (a b : Bool) : (!a || b) = true ↔ (a = true → b = true) := by cases a <;> simp
  simp only [Team.clauseOpen, List.all_eq_true, List.mem_range, Bool.and_eq_true, himp, hbit, beq_iff_eq, hzero, Nat.ble_eq]
  rfl

/-- A header and words that pass the checks of R26. -/
theorem clauseCheck_ok {s : State} {h : Header} {e : Env} {t : Team} {ws : List W32} (hok : Sys2Proof.Machine.Header.ok h = true)
    (hws : s.codeWords e t (t.pc.plus 4) (h.len.toNat + 1) = .ok ws) (hlen : ws.length = h.len.toNat + 1)
    (hfits : (clauseForm (h.len.toNat + 1) ws).fits = true) (hhead : (clauseForm (h.len.toNat + 1) ws).head = false)
    (hearly : (clauseForm (h.len.toNat + 1) ws).early = false) (hlong : (clauseForm (h.len.toNat + 1) ws).long ≤ 2)
    (hA : 1 ≤ (clauseForm (h.len.toNat + 1) ws).long → h.setA ≠ 15) (hB : 2 ≤ (clauseForm (h.len.toNat + 1) ws).long → h.setB ≠ 15) :
    clauseCheck s h e t = .ok (clauseForm (h.len.toNat + 1) ws) := by
  have hflags : (!(Nat.ble 1 (clauseForm (h.len.toNat + 1) ws).long && h.setA == 15) &&
      !(Nat.ble 2 (clauseForm (h.len.toNat + 1) ws).long && h.setB == 15)) = true := by
    simp only [Bool.and_eq_true, Bool.not_eq_true', Bool.and_eq_false_imp, beq_eq_false_iff_ne, Nat.ble_eq]
    exact ⟨hA, hB⟩
  have hform : clauseForms s h e t = .ok (clauseForm (h.len.toNat + 1) ws) := by
    simp only [clauseForms, hok, hws, hlen, hfits, hhead, hearly, Nat.ble_eq ▸ hlong, hflags, bind, Except.bind, need_true, beq_self_eq_true,
      Bool.not_false, Bool.and_self]
  rw [clauseCheck, hform]

theorem needNoErr_ok {t : Team} {h : Header} (he : ∀ x ∈ t.errs, ∀ k, x.flag = some k → bitAt h.wait.toNat k = false) :
    needNoErr t h = .ok () := by
  have hnone : t.errs.find? (fun x => match x.flag with
      | some f => bitAt h.wait.toNat f
      | none => false) = none := by
    rw [List.find?_eq_none]
    intro x hx
    cases hf : x.flag with
    | none => simp
    | some k => simp [he x hx k hf]
  unfold needNoErr
  split
  case h_1 x hs => exact absurd (hs.symm.trans hnone) (by simp)
  case h_2 => rfl

/-- Settles O13: with the checks of R26 passed, the condition of R28 says whether the clause starts or waits. -/
theorem clauseStarts : Obligations.ClauseStarts := by
  intro h s t ws ha hok e n f hws hlen hfits hhead hearly hlong hA hB ready
  have hcheck : clauseCheck s h e t = .ok f := clauseCheck_ok hok hws hlen hfits hhead hearly hlong hA hB
  have hopen : t.clauseOpen h (formLong (.ok f)) = true ↔ ready := clauseOpen_iff t h f.long
  constructor
  · intro hready herr
    rw [exec_clauseStart]
    refine runMove_ok ha ?_
    simp only [e, hcheck, hopen.2 hready, if_true, bind, Except.bind, needNoErr_ok herr]
  · intro hready
    rw [exec_clauseStart]
    refine runMove_ok ha ?_
    have hshut : ¬ t.clauseOpen h f.long = true := mt hopen.1 hready
    simp only [e, hcheck, formLong, hshut, Bool.false_eq_true, if_false]

/-! ## The stack (R120, R124, R132) -/

theorem push_ok {t : Team} {k : Token} (h : t.stack.length < 32) : t.push k = .ok { t with stack := k :: t.stack } := by
  simp [Team.push, need, h, bind, Except.bind]

theorem push_full {t : Team} {k : Token} (h : 32 ≤ t.stack.length) : t.push k = .error (Trap.of .stack) := by
  have hlt : ¬ t.stack.length < 32 := by omega
  simp [Team.push, need, hlt, bind, Except.bind]

/-- The lanes of a token that are counted by an unwinding are those that go on. -/
theorem unwind_mask (m exited low : LaneMask) : m &&& ~~~(exited ||| ~~~low) = m &&& ~~~exited &&& low := by
  ext i hi
  simp
  cases m[i] <;> cases exited[i] <;> cases low[i] <;> rfl

theorem popTo_ok {s : State} {e : Env} {t : Team} {k : Token} {r : List Token} (hs : t.stack = k :: r) (hl : left k t ≠ 0)
    (hn : needHeader s e t k.pc = .ok ()) : popTo s e t = .ok { t.at k.pc with stack := r, active := left k t } := by
  have hmask : ¬ k.mask &&& ~~~(t.exited ||| ~~~lowMask t.tw) = 0 := by
    rw [unwind_mask]
    exact hl
  simp only [popTo, unwindTo, hs, unwind, hmask, if_false, hn, bind, Except.bind]
  rfl

/-! ## The transfers of control (R127 to R131) -/

section
variable {s : State} {t : Team} (ha : s.agent s.cur = some t)
include ha

theorem brc_none (c : Cond) (off : BitVec 11) (hv : Vectors t) (h0 : t.taken c = 0) : Falls (.brc c off) s t := by
  rw [Falls, exec_brc]
  refine runMove_ok ha ?_
  simp [checkSh0_ok hv.1 hv.2, h0, bind, Except.bind, Instr.words]

theorem brc_all (c : Cond) (off : BitVec 11) (hv : Vectors t) (h0 : t.taken c ≠ 0)
    (hn : needHeader s (s.env s.cur) t (t.target (s.env s.cur) off) = .ok ()) (hr : t.live &&& ~~~t.taken c = 0) :
    exec (.brc c off) s = .next (s.setAgent s.cur (t.at (t.target (s.env s.cur) off))) := by
  rw [exec_brc]
  refine runMove_ok ha ?_
  simp only [checkSh0_ok hv.1 hv.2, h0, hr, hn, bind, Except.bind, if_true, if_false]

theorem brc_some (c : Cond) (off : BitVec 11) (hv : Vectors t) (h0 : t.taken c ≠ 0)
    (hn : needHeader s (s.env s.cur) t (t.target (s.env s.cur) off) = .ok ()) (hr : t.live &&& ~~~t.taken c ≠ 0)
    (hd : t.stack.length < 32) :
    exec (.brc c off) s = .next (s.setAgent s.cur
      { t.at (t.target (s.env s.cur) off) with
        active := t.active &&& ~~~(t.live &&& ~~~t.taken c)
        stack := { kind := .path, pc := t.pc.plus 4, mask := t.live &&& ~~~t.taken c } :: t.stack }) := by
  rw [exec_brc]
  refine runMove_ok ha ?_
  simp only [checkSh0_ok hv.1 hv.2, h0, hr, hn, bind, Except.bind, if_false, push_ok hd]
  rfl

theorem brc_full (c : Cond) (off : BitVec 11) (hv : Vectors t) (h0 : t.taken c ≠ 0)
    (hn : needHeader s (s.env s.cur) t (t.target (s.env s.cur) off) = .ok ()) (hr : t.live &&& ~~~t.taken c ≠ 0)
    (hd : 32 ≤ t.stack.length) : exec (.brc c off) s = .next (takeTrap s (Trap.of .stack)) := by
  rw [exec_brc]
  refine runMove_error ha ?_
  simp only [checkSh0_ok hv.1 hv.2, h0, hr, hn, bind, Except.bind, if_false, push_full hd]

theorem jmp_ok (off : BitVec 11) (hn : needHeader s (s.env s.cur) t (t.target (s.env s.cur) off) = .ok ()) :
    exec (.jmp off) s = .next (s.setAgent s.cur (t.at (t.target (s.env s.cur) off))) := by
  rw [exec_jmp]
  refine runMove_ok ha ?_
  simp only [hn, bind, Except.bind]

theorem jmp_error (off : BitVec 11) {x : Trap} (hn : needHeader s (s.env s.cur) t (t.target (s.env s.cur) off) = .error x) :
    exec (.jmp off) s = .next (takeTrap s x) := by
  rw [exec_jmp]
  refine runMove_error ha ?_
  simp only [hn, bind, Except.bind]

theorem call_ok (off : BitVec 11) (hn : needHeader s (s.env s.cur) t (t.target (s.env s.cur) off) = .ok ()) (hd : t.stack.length < 32) :
    exec (.call off) s = .next (s.setAgent s.cur
      { t.at (t.target (s.env s.cur) off) with stack := { kind := .ret, pc := t.pc.plus 4, mask := t.active } :: t.stack }) := by
  rw [exec_call]
  refine runMove_ok ha ?_
  simp only [hn, bind, Except.bind, push_ok hd]
  rfl

theorem call_error (off : BitVec 11) {x : Trap} (hn : needHeader s (s.env s.cur) t (t.target (s.env s.cur) off) = .error x) :
    exec (.call off) s = .next (takeTrap s x) := by
  rw [exec_call]
  refine runMove_error ha ?_
  simp only [hn, bind, Except.bind]

theorem call_full (off : BitVec 11) (hn : needHeader s (s.env s.cur) t (t.target (s.env s.cur) off) = .ok ()) (hd : 32 ≤ t.stack.length) :
    exec (.call off) s = .next (takeTrap s (Trap.of .stack)) := by
  rw [exec_call]
  refine runMove_error ha ?_
  simp only [hn, bind, Except.bind, push_full hd]

theorem jmpr_ok (a : Src) (off : BitVec 11) (hp : plainScalar a = true)
    (hal : (srcScalar (s.env s.cur) t a + BitVec.ofInt 64 (4 * off.toInt)).toNat % 4 = 0)
    (hn : needHeader s (s.env s.cur) t (.code (srcScalar (s.env s.cur) t a + BitVec.ofInt 64 (4 * off.toInt))) = .ok ()) :
    exec (.jmpr a off) s =
      .next (s.setAgent s.cur (t.at (.code (srcScalar (s.env s.cur) t a + BitVec.ofInt 64 (4 * off.toInt))))) := by
  rw [exec_jmpr]
  refine runMove_ok ha ?_
  simp only [hp, hal, hn, needOperand, need_true, bind, Except.bind, beq_self_eq_true]

theorem joinat_ok (off : BitVec 11) (hd : t.stack.length < 32) :
    Falls (.joinat off) s { t with stack := { kind := .join, pc := t.target (s.env s.cur) off, mask := t.active } :: t.stack } :=
  falls_of ha (exec_joinat off s) (by simp [Instr.words]) (push_ok hd)

theorem joinat_full (off : BitVec 11) (hd : 32 ≤ t.stack.length) : exec (.joinat off) s = .next (takeTrap s (Trap.of .stack)) := by
  rw [exec_joinat]
  exact runAgent_error ha (push_full hd)

theorem ret_ok {k : Token} {r : List Token} (hs : t.stack = k :: r) (hl : left k t ≠ 0)
    (hn : needHeader s (s.env s.cur) t k.pc = .ok ()) (hk : k.kind = .ret) :
    exec .ret s = .next ((s.setAgent s.cur { t.at k.pc with stack := r, active := left k t }).afterDrain s.cur) := by
  rw [exec_ret]
  refine runUnwind_ok ha ?_
  rw [← popTo_ok hs hl hn, hs]
  simp [hk, bind, Except.bind]

theorem join_ok {k : Token} {r : List Token} (hs : t.stack = k :: r) (hl : left k t ≠ 0)
    (hn : needHeader s (s.env s.cur) t k.pc = .ok ()) (hk : k.kind = .path ∨ k.kind = .join) :
    exec .join s = .next ((s.setAgent s.cur { t.at k.pc with stack := r, active := left k t }).afterDrain s.cur) := by
  have hkind : (k.kind == .path || k.kind == .join) = true := by simpa using hk
  rw [exec_join]
  refine runUnwind_ok ha ?_
  rw [← popTo_ok hs hl hn, hs]
  simp [hkind, bind, Except.bind]

theorem ret_stack (hk : ∀ k ∈ t.stack.head?, k.kind ≠ .ret) : exec .ret s = .next (takeTrap s (Trap.of .stack)) := by
  rw [exec_ret]
  refine runUnwind_error ha ?_
  cases hs : t.stack with
  | nil => rfl
  | cons k r =>
    have hne : (k.kind == .ret) = false := by simpa using hk k (by simp [hs])
    simp [hne, bind, Except.bind]

theorem join_stack (hk : ∀ k ∈ t.stack.head?, k.kind ≠ .path ∧ k.kind ≠ .join) : exec .join s = .next (takeTrap s (Trap.of .stack)) := by
  rw [exec_join]
  refine runUnwind_error ha ?_
  cases hs : t.stack with
  | nil => rfl
  | cons k r =>
    have hne : (k.kind == .path || k.kind == .join) = false := by simpa using hk k (by simp [hs])
    simp [hne, bind, Except.bind]

/-! ## WINBASE and LOOP (R134, R136 to R139) -/

theorem winbase_ok (k : BitVec 11) (hk : 32 * k.toNat + min 96 t.allot ≤ t.allot) : Falls (.winbase k) s { t with winBase := k.toNat } := by
  refine falls_of ha (exec_winbase k s) (by simp [Instr.words]) ?_
  simp only [windowOk, Nat.ble_eq ▸ hk, need_true, bind, Except.bind]

theorem winbase_window (k : BitVec 11) (hk : t.allot < 32 * k.toNat + min 96 t.allot) :
    exec (.winbase k) s = .next (takeTrap s (Trap.of .window)) := by
  rw [exec_winbase]
  refine runAgent_error ha ?_
  have hbad : Nat.ble (32 * k.toNat + min 96 t.allot) t.allot = false := by
    rw [Bool.eq_false_iff, ne_eq, Nat.ble_eq]
    omega
  simp only [windowOk, hbad, need_false, bind, Except.bind]

theorem loop_ok {a : Src} {len : BitVec 7} {w : W32} {body : List W32} {t' : Team} (hlen : len ≠ 0) (hp : plainScalar a = true)
    (hb : s.codeWords (s.env s.cur) t (t.pc.plus (4 * (2 + a.words))) len.toNat = .ok body) (hok : bodyOk len.toNat w body = true)
    (ht : (if (srcScalar (s.env s.cur) t a).toNat % 2 ^ 32 = 0 then
        { t.at ((t.pc.plus (4 * (2 + a.words))).plus (4 * len.toNat)) with loop := none }
      else { t.at (t.pc.plus (4 * (2 + a.words))) with loop := some { start := t.pc.plus (4 * (2 + a.words)), len := len.toNat, stepw := w
                                                                      c := (srcScalar (s.env s.cur) t a).toNat % 2 ^ 32, p := 0, buf := body } })
      = t') : exec (.loop a len w) s = .next (s.setAgent s.cur t') := by
  have hne : (len != 0) = true := by simpa using hlen
  rw [exec_loop]
  refine runMove_ok ha ?_
  simp only [hne, hb, hok, hp, needOperand, need_true, bind, Except.bind, ← ht]
  split <;> rfl

end

/-- Settles O14: each transfer, LOOP, WINBASE and NOP where its checks pass; and the trap where one does not. -/
theorem controlFlowResult : Obligations.ControlFlowResult := by
  refine ⟨fun s t ha => ⟨fun c off hv => ⟨brc_none ha c off hv, fun h0 hn => ⟨brc_all ha c off hv h0 hn, brc_some ha c off hv h0 hn⟩⟩,
      fun off hn => ⟨jmp_ok ha off hn, call_ok ha off hn⟩, fun a off hp hal hn => jmpr_ok ha a off hp hal hn, fun off hd => joinat_ok ha off hd,
      fun k r hs hl hn => ⟨ret_ok ha hs hl hn, join_ok ha hs hl hn⟩⟩,
    fun s t ha => ⟨falls_of ha (exec_nop s) (by simp [Instr.words]) rfl, fun k hk => winbase_ok ha k hk,
      fun a len w body hlen hp hb hok => ⟨fun hc => loop_ok ha hlen hp hb hok (if_pos hc), fun hc => loop_ok ha hlen hp hb hok (if_neg hc)⟩⟩,
    fun s t ha => ⟨fun off => ⟨fun x hx => ⟨jmp_error ha off hx, call_error ha off hx⟩, fun hd => ⟨joinat_full ha off hd, fun hn =>
      ⟨call_full ha off hn hd, fun c hv h0 hr => brc_full ha c off hv h0 hn hr hd⟩⟩⟩, join_stack ha, ret_stack ha, fun k hk => winbase_window ha k hk⟩⟩

/-! ## EXIT, TRAP and BRKPT (R132, R296, R298) -/

theorem unwindTo_none {s : State} {e : Env} {t : Team} {st : List Token} (h : unwind (t.exited ||| ~~~lowMask t.tw) st = none) :
    unwindTo s e t st = .ok t.drain := by
  simp only [unwindTo, h]

theorem unwindTo_some {s : State} {e : Env} {t : Team} {st r : List Token} {k : Token}
    (h : unwind (t.exited ||| ~~~lowMask t.tw) st = some (k, r)) (hn : needHeader s e t k.pc = .ok ()) :
    unwindTo s e t st = .ok { t.at k.pc with stack := r, active := left k t } := by
  simp only [unwindTo, h, hn, bind, Except.bind]
  rfl

theorem exitForm_ctl {s : State} {e : Env} {t : Team} (he : t.errs = []) (hc : t.ctl = true) :
    exitForm s e t = .ok (s.endHandler e.core e.ag t) := by
  simp only [exitForm, needNoErrs, he, hc, bind, Except.bind, if_true]

theorem exitForm_team {s : State} {e : Env} {t t1 : Team} (he : t.errs = []) (hc : t.ctl = false)
    (hu : unwindTo s e { t with exited := t.exited ||| t.active } t.stack = .ok t1) :
    exitForm s e t = .ok ((s.setAgent e.ag t1).afterDrain e.ag) := by
  have hne : needNoErrs t = .ok () := by simp only [needNoErrs, he]
  simp only [exitForm, hne, bind, Except.bind]
  rw [if_neg (by simp [hc]), hu]

/-- Settles O15: TRAP and BRKPT take their trap; EXIT ends the handler run, or unwinds the stack, or waits for the partner. -/
theorem exitAndTrapsResult : Obligations.ExitAndTrapsResult := by
  intro s t ha e t1 top
  refine ⟨fun n => ⟨?_, ?_⟩, fun he hc => ⟨fun hctl => ?_, fun hctl htop => ?_, fun k r hctl htop hn => ?_⟩, fun he hc hctl hn => ?_⟩
  · rw [exec_trap]
    exact runAgent_error ha rfl
  · rw [exec_brkpt]
    exact runAgent_error ha rfl
  · rw [exec_exit]
    exact runCommit_ok ha hc (exitForm_ctl he hctl)
  · rw [exec_exit]
    exact runCommit_ok ha hc (exitForm_team he hctl (unwindTo_none htop))
  · rw [exec_exit]
    exact runCommit_ok ha hc (exitForm_team he hctl (unwindTo_some htop hn))
  · rw [exec_exit]
    cases htop : top with
    | none => exact runCommit_hold ha hc (exitForm_team he hctl (unwindTo_none htop))
    | some x => exact runCommit_hold ha hc (exitForm_team he hctl (unwindTo_some htop (hn x.1 x.2 htop)))

end Sys2Proof.ControlFlow
end

section
/-!
PROOF. The shape, gang, curve and hint instructions (R64 to R69, R157, R158, R201), and the system registers and event counters
(R299 to R301, R366).
-/
namespace Sys2Proof.SystemState
open Sys2Proof Sys2Proof.Machine Sys2Proof.Claims Sys2Proof.Laws Sys2Proof.LaneResults

/-- The agent of an agent's surroundings is that agent. -/
@[simp] theorem env_ag (s : State) (a : Agent) : (s.env a).ag = a := by
  unfold State.env
  cases a with
  | none => rfl
  | host m => rfl
  | peer m k => rfl
  | team tid =>
    dsimp only
    split
    · dsimp only
      split <;> rfl
    · rfl
  | ctl c x =>
    dsimp only
    split <;> rfl

theorem scalars_of_mem {t : Team} {xs ys : List Src} (h : Scalars t xs) (hs : ∀ y ∈ ys, y ∈ xs) : Scalars t ys := fun y hy => h y (hs y hy)

/-! ## The checks that system instructions share -/

theorem sysLevel_ok {t : Team} {n : Nat} (h : 0x100 ≤ n → 1 ≤ levelRank t.level) : sysLevel t n = .ok () := by
  unfold sysLevel
  split
  · have hle : Nat.ble (levelRank .handler) (levelRank t.level) = true := Nat.ble_eq ▸ h ‹_›
    simp only [checkLevel, hle, need_true]
  · rfl

theorem sysNum_ind {e : Env} {t : Team} {a : Src} (hx : Scalars t [a]) (hn : (srcScalar e t a).toNat < 2 ^ 14) :
    sysNum e t (.ind a) = .ok ((srcScalar e t a).toNat, true) := by
  simp only [sysNum, checkScalars_ok hx, bind, Except.bind, Nat.mod_eq_of_lt hn, Nat.div_eq_of_lt hn, beq_self_eq_true]

theorem eventIdx_ok {e : Env} {t : Team} {die : Bool} {a : Src} (hx : Scalars t [a]) (hl : die = true → levelRank t.level = 2)
    (hn : (srcScalar e t a).toNat < eventCount die) : eventIdx e t die a = .ok (srcScalar e t a).toNat := by
  have hlt : Nat.blt (srcScalar e t a).toNat (eventCount die) = true := Nat.blt_eq ▸ hn
  have hlevel : checkLevel t (if die = true then .system else .program) = .ok () := by
    cases die with
    | false => rfl
    | true =>
      rw [if_pos rfl, checkLevel, hl rfl]
      rfl
  simp only [eventIdx, hlevel, checkScalars_ok hx, hlt, needOperand, need_true, bind, Except.bind]

/-! ## Shapes and gangs -/

section
variable {s : State} {t : Team} (ha : s.agent s.cur = some t)
include ha

theorem setshape_ok (k : ReqKind) {d : Reg} {a : Src} (p : Pol) {sh : Fin 4} {g : Dims} (hc : t.ctl = false)
    (hm : s.marked (s.env s.cur).gid = false) (hd : isScaDst d = true) (hx : Scalars t [a]) (hk : k ≠ .vec → sh ≠ 0)
    (hg : grant (grantAt (s.env s.cur) t) k (reqDims k (srcScalarX (s.env s.cur) t false a)) p = some g) :
    exec (.setshape k d a p sh) s = .next (s.setAgent (s.env s.cur).ag
      (((t.setShape sh (shapeOf (grantAt (s.env s.cur) t) k p (reqDims k (srcScalarX (s.env s.cur) t false a)) g)).writeScalar d
        (shapeOf (grantAt (s.env s.cur) t) k p (reqDims k (srcScalarX (s.env s.cur) t false a)) g).granted).advance
          (Instr.setshape k d a p sh).words)) := by
  have hkind : (k == .vec || sh != 0) = true := by
    simp only [Bool.or_eq_true, beq_iff_eq, bne_iff_ne]
    exact (em (k = .vec)).imp id hk
  have hw : (Instr.setshape k d a p sh).words = 1 + a.words := by simp [Instr.words, Nat.add_comm]
  rw [exec_setshape, hw]
  refine runState_ok ha ?_
  simp only [hc, hm, setshapeForm, checkScalars_ok hx, hd, hkind, hg, needOperand, bind, Except.bind, need_true, Bool.not_false,
    Bool.and_false, Bool.and_true, Bool.false_eq_true, if_false]

theorem setshape_shape {k : ReqKind} {d : Reg} {a : Src} {p : Pol} {sh : Fin 4} (hc : t.ctl = false)
    (hm : s.marked (s.env s.cur).gid = false) (hd : isScaDst d = true) (hx : Scalars t [a])
    (hbad : (k ≠ .vec ∧ sh = 0) ∨ grant (grantAt (s.env s.cur) t) k (reqDims k (srcScalarX (s.env s.cur) t false a)) p = none) :
    exec (.setshape k d a p sh) s = .next (takeTrap s (Trap.of .shape)) := by
  rw [exec_setshape]
  refine runState_error ha ?_
  simp only [hc, hm, setshapeForm, checkScalars_ok hx, hd, needOperand, bind, Except.bind, need_true, Bool.not_false, Bool.and_false,
    Bool.and_true, Bool.false_eq_true, if_false]
  cases hkind : (k == .vec || sh != 0) with
  | false => rfl
  | true =>
    have hgrant := hbad.resolve_left (by simpa [or_iff_not_imp_left] using hkind)
    simp only [need_true, hgrant]

theorem setshape_marked (k : ReqKind) (d : Reg) (a : Src) (p : Pol) (sh : Fin 4) (hc : t.ctl = false)
    (hm : s.marked (s.env s.cur).gid = true) :
    exec (.setshape k d a p sh) s =
      .next (s.setAgent (s.env s.cur).ag { t with st := .waiting, wait := .setshape (.setshape k d a p sh) }) := by
  rw [exec_setshape]
  refine runState_ok ha ?_
  rw [if_pos (by simp [hc, hm])]

theorem rdshape_ok {d : Reg} (sh : Fin 4) (hd : isScaDst d = true) : Falls (.rdshape d sh) s (t.writeScalar d (t.shape sh).record) := by
  refine falls_of ha (exec_rdshape d sh s) (by simp [Instr.words]) ?_
  simp only [hd, needOperand, need_true, bind, Except.bind]

theorem rdcurve_ok {d : Reg} (hd : isScaDst d = true) : Falls (.rdcurve d) s (t.writeScalar d (curveRecord (s.env s.cur))) := by
  refine falls_of ha (exec_rdcurve d s) (by simp [Instr.words]) ?_
  simp only [hd, needOperand, need_true, bind, Except.bind]

theorem gang_ok {a : Src} (hx : Scalars t [a]) (hc : t.ctl = false)
    (hg : gangOk (srcScalar (s.env s.cur) t a).toNat t.tix (s.teamCount (s.env s.cur).gid) = true) :
    Falls (.gang a) s { t with gang := (srcScalar (s.env s.cur) t a).setWidth 16 } := by
  refine falls_of ha (exec_gang a s) (by simp [Instr.words, Nat.add_comm]) ?_
  have hctl : (!t.ctl) = true := by simp [hc]
  simp only [checkScalars_ok hx, hctl, hg, needOperand, need_true, bind, Except.bind, BitVec.ofNat_toNat]

/-! ## The curve and its hints -/

theorem curve_ok {d : Reg} {p : BitVec 3} {acc : BitVec 6} (hd : isScaDst d = true) (hc : t.ctl = false) (hp : p.toNat < 6)
    (hacc : acc.getLsbD p.toNat = true) :
    exec (.curve d p acc) s = .next (s.setAgent (s.env s.cur).ag
      { t with st := .waiting, wait := .curve d p.toNat acc.toNat, since := (s.core (s.env s.cur).core).count }) := by
  have hbit : bitAt acc.toNat p.toNat = true := by
    rw [← hacc, BitVec.getLsbD, Nat.testBit_eq_decide_div_mod_eq]
    rfl
  have hne : (acc != 0) = true := by
    rw [bne_iff_ne]
    rintro rfl
    simp at hacc
  have hlt : Nat.blt p.toNat 6 = true := Nat.blt_eq ▸ hp
  have hctl : (isScaDst d && !t.ctl) = true := by simp [hd, hc]
  rw [exec_curve]
  refine runState_ok ha ?_
  simp only [hctl, hlt, hne, hbit, needOperand, need_true, bind, Except.bind, Bool.and_self]

theorem mhint_ctl (n : BitVec 11) (hc : t.ctl = true) : Falls (.mhint n) s t := by
  rw [Falls, exec_mhint]
  refine runState_ok ha ?_
  rw [if_pos hc, env_ag]
  rfl

theorem mhint_none {n : BitVec 11} (hc : t.ctl = false) (hn : n = 0) :
    exec (.mhint n) s = .next (s.setAgent (s.env s.cur).ag
      { t.advance 1 with hint := 0, hintAt := (s.core (s.env s.cur).core).count }) := by
  rw [exec_mhint]
  refine runState_ok ha ?_
  rw [if_neg (by simp [hc])]
  dsimp only
  rw [if_pos hn, hn]
  rfl

theorem mhint_some {n : BitVec 11} (hc : t.ctl = false) (hn : n ≠ 0) :
    exec (.mhint n) s = .next ((s.setAgent (s.env s.cur).ag
      { t.advance 1 with hint := n.toNat, hintAt := (s.core (s.env s.cur).core).count }).modCore (s.env s.cur).core fun x => x.arrive false) := by
  rw [exec_mhint]
  refine runState_ok ha ?_
  rw [if_neg (by simp [hc])]
  dsimp only
  rw [if_neg hn]

/-! ## System registers and event counters -/

theorem rdsr_imm {d : Reg} {n : BitVec 14} {x : W64} (hd : isScaDst d = true) (hl : 0x100 ≤ n.toNat → 1 ≤ levelRank t.level)
    (hr : s.sysRead (s.env s.cur) t n.toNat = some x) : Falls (.rdsr d (.imm n)) s (t.writeScalar d x) := by
  refine falls_of ha (exec_rdsr d (.imm n) s) (by simp [Instr.words, sysWords]) ?_
  simp only [sysNum, sysLevel_ok hl, hd, hr, needOperand, need_true, bind, Except.bind, Bool.and_self]

theorem rdsr_ind {d : Reg} {a : Src} {x : W64} (hd : isScaDst d = true) (hx : Scalars t [a])
    (hn : (srcScalar (s.env s.cur) t a).toNat < 2 ^ 14) (hl : 0x100 ≤ (srcScalar (s.env s.cur) t a).toNat → 1 ≤ levelRank t.level)
    (hr : s.sysRead (s.env s.cur) t (srcScalar (s.env s.cur) t a).toNat = some x) : Falls (.rdsr d (.ind a)) s (t.writeScalar d x) := by
  refine falls_of ha (exec_rdsr d (.ind a) s) (by simp [Instr.words, sysWords]) ?_
  simp only [sysNum_ind hx hn, sysLevel_ok hl, hd, hr, needOperand, need_true, bind, Except.bind, Bool.and_self]

theorem wrsr_fpflags {x : Src} (hx : Scalars t [x]) (hz : bits (srcScalar (s.env s.cur) t x).toNat 63 5 = 0) :
    exec (.wrsr x (.imm 0x010)) s = .next (s.setAgent (s.env s.cur).ag
      ({ t with fpflags := (srcScalar (s.env s.cur) t x).setWidth 5 }.advance (1 + x.words))) := by
  have hl : sysLevel t (0x010 : BitVec 14).toNat = .ok () := sysLevel_ok fun h => absurd h (by decide)
  rw [exec_wrsr]
  refine runState_ok ha ?_
  simp only [sysNum, hl, checkScalars_ok hx, hz, bind, Except.bind, need_true, beq_self_eq_true]
  rfl

theorem wrsr_brk {x : Src} {k : Nat} (hx : Scalars t [x]) (hk : k < 16) (hl : 1 ≤ levelRank t.level)
    (hhi : bits (srcScalar (s.env s.cur) t x).toNat 62 56 = 0) (hlo : bits (srcScalar (s.env s.cur) t x).toNat 1 0 = 0) :
    exec (.wrsr x (.imm (BitVec.ofNat 14 (0x180 + k)))) s =
      .next ((s.setAgent (s.env s.cur).ag (t.advance (1 + x.words))).writeBrk (s.env s.cur).ctx k (srcScalar (s.env s.cur) t x)) := by
  have hnum : (BitVec.ofNat 14 (0x180 + k)).toNat = 0x180 + k := by
    rw [BitVec.toNat_ofNat, Nat.mod_eq_of_lt (by omega)]
  have hfp : ((0x180 + k == 0x010) = false) := by
    rw [beq_eq_false_iff_ne]
    omega
  have hge : Nat.ble 0x180 (0x180 + k) = true := Nat.ble_eq ▸ Nat.le_add_right _ _
  have hlt : Nat.blt (0x180 + k) 0x190 = true := Nat.blt_eq ▸ (by omega)
  rw [exec_wrsr]
  refine runState_ok ha ?_
  simp only [sysNum, hnum, sysLevel_ok (fun _ => hl), checkScalars_ok hx, hhi, hlo, hfp, hge, hlt, bind, Except.bind, need_true, sysWords,
    Bool.and_self, Bool.and_false, Bool.false_eq_true, if_false, if_true, beq_self_eq_true, Nat.add_zero, Nat.add_sub_cancel_left]

theorem evsel_ok {die : Bool} {a b : Src} (hx : Scalars t [a, b]) (hl : die = true → levelRank t.level = 2)
    (hn : (srcScalar (s.env s.cur) t a).toNat < eventCount die) (hb : eventCode die (srcScalar (s.env s.cur) t b).toNat = true) :
    exec (.evsel die a b) s = .next ((s.setAgent (s.env s.cur).ag (t.advance (1 + a.words + b.words))).selectEvent (s.env s.cur) die
      (srcScalar (s.env s.cur) t a).toNat (srcScalar (s.env s.cur) t b).toNat) := by
  rw [exec_evsel]
  refine runState_ok ha ?_
  simp only [eventIdx_ok (scalars_of_mem hx (by simp) : Scalars t [a]) hl hn, checkScalars_ok (scalars_of_mem hx (by simp) : Scalars t [b]), hb,
    needOperand, need_true, bind, Except.bind]

theorem evrd_ok {die : Bool} {d : Reg} {a : Src} (hd : isScaDst d = true) (hx : Scalars t [a]) (hl : die = true → levelRank t.level = 2)
    (hn : (srcScalar (s.env s.cur) t a).toNat < eventCount die) :
    Falls (.evrd die d a) s (t.writeScalar d (if die then sget (s.die (s.env s.cur).die).evCnt (srcScalar (s.env s.cur) t a).toNat
      else sget (s.core (s.env s.cur).core).active.evCnt (srcScalar (s.env s.cur) t a).toNat)) := by
  refine falls_of ha (exec_evrd die d a s) (by simp [Instr.words]) ?_
  simp only [eventIdx_ok hx hl hn, hd, needOperand, need_true, bind, Except.bind]

end

/-- Settles O16: each shape, gang, curve and hint instruction passes its checks and writes what it names, or takes SHAPE. -/
theorem shapeAndCurveResult : Obligations.ShapeAndCurveResult := fun _ _ ha =>
  ⟨fun k _ _ p _ _ hc hm hd hx hk hg => setshape_ok ha k p hc hm hd hx hk hg, fun _ _ _ _ _ hc hm hd hx hbad => setshape_shape ha hc hm hd hx hbad,
    fun k d a p sh hc hm => setshape_marked ha k d a p sh hc hm, fun _ sh hd => rdshape_ok ha sh hd, fun _ hd => rdcurve_ok ha hd,
    fun _ hx hc hg => gang_ok ha hx hc hg, fun _ _ _ hd hc hp hacc => curve_ok ha hd hc hp hacc,
    fun n => ⟨mhint_ctl ha n, mhint_none ha, mhint_some ha⟩⟩

/-- Settles O17: each of the four instructions passes its level and its checks. -/
theorem systemRegistersResult : Obligations.SystemRegistersResult := fun _ _ ha =>
  ⟨fun _ _ _ hd hl hr => rdsr_imm ha hd hl hr, fun _ _ _ hd hx hn hl hr => rdsr_ind ha hd hx hn hl hr, fun _ hx hz => wrsr_fpflags ha hx hz,
    fun _ _ hx hk hl hhi hlo => wrsr_brk ha hx hk hl hhi hlo, fun _ _ _ hx hl hn hb => evsel_ok ha hx hl hn hb,
    fun _ _ _ hd hx hl hn => evrd_ok ha hd hx hl hn⟩

end Sys2Proof.SystemState
end

section
/-!
PROOF. Loads, stores and atomics as they issue and complete, and what a home does with a request (R27, R179 to R189, R268, R325, R338
to R340, R360).
-/
namespace Sys2Proof.MemoryAccess
open Sys2Proof Sys2Proof.Machine Sys2Proof.Claims Sys2Proof.Laws Sys2Proof.LaneResults Sys2Proof.ControlFlow Sys2Proof.SystemState

/-! ## Lanes that all have targets -/

theorem meets_of_ok {l : LaneTgt} {g : Target} (h : l.r = .ok g) (x : AddrErr) : l.meets x = false := by
  simp only [LaneTgt.meets, h]

/-- Lanes that all have targets meet no error. -/
theorem firstErr_none {ls : List LaneTgt} (h : Reached ls) : firstErr ls = none := by
  rw [firstErr, List.find?_eq_none]
  intro x _
  rw [Bool.not_eq_true, List.any_eq_false]
  intro l hl
  obtain ⟨g, hg⟩ := h l hl
  simp [meets_of_ok hg]

/-! ## Loads (R27, R181, R182) -/

/-- What a load leaves that passes its checks: its lanes posted, or nothing but the count with no lane. -/
theorem loadForm_ok {w : Width} {d : Reg} {a b : Src} {obs : BitVec 7} {acq : Bool} {n : Nat} {s : State} {t : Team} (hA : okAddr t a = true)
    (hB : okSrc t b = true) (hD : okDst t d = true) (hp : w = .b64 → okPairDst t d = true) (hv : isVecDst d = true → Vectors t)
    (hs : isVecDst d = false → isVec t a = false ∧ isVec t b = false) (hobs : acq = true → obs ≠ 0) (hr : Reached (loadLanes w d a b s t)) :
    loadForm w d a b obs acq n s (s.env s.cur) t = .ok (if loadLanes w d a b s t = [] then s.setAgent (s.env s.cur).ag (t.countOff.advance n)
      else s.post (s.env s.cur) (t.countOn.advance n) (s.newOp (s.env s.cur) t (.load w) acq false obs
        (okLanes (Width.bytes w) (loadLanes w d a b s t) (fun _ => 0) (fun _ => 0)) (some t.nextFlag) (dstOf t d (w == .b64)))) := by
  have hsrc : checkSrcs t [b] = .ok () := checkSrcs_ok (by simpa using hB)
  have hdst : (okAddr t a && okDst t d && (w != .b64 || okPairDst t d)) = true := by
    simp only [hA, hD, Bool.true_and, Bool.or_eq_true, bne_iff_ne]
    exact (em (w = .b64)).symm.imp id hp
  have hcls : (isVecDst d || !(isVec t a || isVec t b)) = true := by
    cases hd : isVecDst d with
    | true => rfl
    | false => simp [hs hd]
  have hmask : (!acq || obs != 0) = true := by
    cases acq with
    | false => rfl
    | true => simpa using hobs rfl
  have hlanes : lanesTgt s (s.env s.cur) t { write := false, atomic := false, n := Width.bytes w } (memLanes t (isVecDst d))
    (laneAddr (s.env s.cur) t a b) = loadLanes w d a b s t := rfl
  simp only [loadForm, hsrc, hdst, hcls, hmask, needOperand, need_true, bind, Except.bind, hlanes, firstErr_none hr,
    List.isEmpty_iff]
  cases hd : isVecDst d with
  | false => simp only [Bool.false_eq_true, if_false]; split <;> rfl
  | true =>
    simp only [if_true, checkSh0_ok (hv hd).1 (hv hd).2]
    split <;> rfl

/-- Settles O18: the three loads execute one form. -/
theorem loadsResult : Obligations.LoadsResult := by
  intro w d a b s t ha hA hB hD hp hv hs hr
  refine ⟨?_, ?_, ?_⟩
  · rw [exec_ld]
    exact runState_ok ha (loadForm_ok hA hB hD hp hv hs (by simp) hr)
  · rw [exec_ldstr]
    exact runState_ok ha (loadForm_ok hA hB hD hp hv hs (by simp) hr)
  · rintro obs hobs rfl
    rw [exec_ldacq]
    exact runState_ok ha (loadForm_ok hA hB hD hp hv hs (fun _ => hobs) hr)

/-! ## Stores (R181 to R183) -/

/-- What a store leaves that passes its checks. -/
theorem storeForm_ok {w : Width} {x a b : Src} {obs : BitVec 7} {rel : Bool} {n : Nat} {s : State} {t : Team} (hA : okAddr t a = true)
    (hX : okSrc t x = true) (hB : okSrc t b = true) (hp : w = .b64 → okPairSrc t x = true)
    (hv : (isVec t x || isVec t a || isVec t b) = true → Vectors t) (hrep : t.replay = none) (hobs : rel = true → obs ≠ 0)
    (hr : Reached (storeLanes w x a b s t)) :
    storeForm w x a b obs rel n s (s.env s.cur) t = .ok (stored w x a b rel obs n s t) := by
  have hsrc : checkSrcs t [x, b] = .ok () := checkSrcs_ok (by simp [hX, hB])
  have hdata : (okAddr t a && (w != .b64 || okPairSrc t x)) = true := by
    simp only [hA, Bool.true_and, Bool.or_eq_true, bne_iff_ne]
    exact (em (w = .b64)).symm.imp id hp
  have hmask : (!rel || obs != 0) = true := by
    cases rel with
    | false => rfl
    | true => simpa using hobs rfl
  have htodo (l : List Nat) : l.filter (fun _ => true) = l := List.filter_eq_self.2 fun _ _ => rfl
  have hlanes : lanesTgt s (s.env s.cur) t { write := true, atomic := false, n := Width.bytes w }
    (memLanes t (isVec t x || isVec t a || isVec t b)) (laneAddr (s.env s.cur) t a b) = storeLanes w x a b s t := rfl
  simp only [storeForm, hsrc, hdata, hmask, needOperand, need_true, bind, Except.bind, hrep, htodo, hlanes, firstErr_none hr]
  cases hvec : (isVec t x || isVec t a || isVec t b) with
  | false => rfl
  | true => simp only [if_true, checkSh0_ok (hv hvec).1 (hv hvec).2, stored]

theorem strelForm_ok {w : Width} {x a : Src} {obs : BitVec 7} {s : State} {t : Team} {s' : State}
    (h : storeForm w x a (.reg .z) obs true (1 + x.words + a.words) s (s.env s.cur) t = .ok s') :
    strelForm w x a obs s (s.env s.cur) t = .ok (s'.committed (s.env s.cur).gid) := by
  simp only [strelForm, h, bind, Except.bind]

/-- Settles O19: the three stores execute one form; STREL is a commit too. -/
theorem storesResult : Obligations.StoresResult := by
  intro w x a b s t ha hA hX hB hp hv hrep hr
  refine ⟨?_, ?_, ?_⟩
  · rw [exec_st]
    exact runState_ok ha (storeForm_ok hA hX hB hp hv hrep (by simp) hr)
  · rw [exec_ststr]
    exact runState_ok ha (storeForm_ok hA hX hB hp hv hrep (by simp) hr)
  · rintro obs hobs rfl
    have hform := strelForm_ok (storeForm_ok (n := 1 + x.words + a.words) hA hX hB hp hv hrep (fun _ => hobs) hr)
    rw [exec_strel]
    exact ⟨fun hc => runCommit_ok ha hc hform, fun hc => runCommit_hold ha hc hform⟩

/-! ## Scalar accesses and PREF (R185, R186) -/

theorem holdLoad_ok {d : Reg} {va : W64} {n : Nat} {s : State} {t : Team} (hd : isScaDst d = true) (hr : Reached (oneLane false va s t)) :
    holdLoad d va n s (s.env s.cur) t = .ok (s.post (s.env s.cur) { t with st := .waiting, wait := .load s.nextId n }
      (s.newOp (s.env s.cur) t (.load .b64) false false 0 (okLanes 8 (oneLane false va s t) (fun _ => 0) (fun _ => 0)) none
        (dstOf t d false))) := by
  have hlanes : lanesTgt s (s.env s.cur) t { write := false, atomic := false, n := 8 } [0] (fun _ => va) = oneLane false va s t := rfl
  simp only [holdLoad, hd, needOperand, need_true, bind, Except.bind, hlanes, firstErr_none hr]

section
variable {s : State} {t : Team} (ha : s.agent s.cur = some t)
include ha

theorem sts_ok {x a : Src} {imm : BitVec 11} (hx : Scalars t [a]) (hp : plainScalar x = true)
    (hr : Reached (oneLane true (srcScalar (s.env s.cur) t a + BitVec.ofInt 64 (8 * imm.toInt)) s t)) :
    exec (.sts x a imm) s = .next (s.issueStore (s.env s.cur) (t.advance (1 + x.words + a.words)) false 0
      (okLanes 8 (oneLane true (srcScalar (s.env s.cur) t a + BitVec.ofInt 64 (8 * imm.toInt)) s t)
        (fun _ => srcScalar (s.env s.cur) t x) (fun _ => 0))) := by
  rw [exec_sts]
  refine runState_ok ha ?_
  simp only [checkScalars_ok hx, hp, needOperand, need_true, bind, Except.bind]
  have hfirst := firstErr_none hr
  unfold oneLane at hfirst
  rw [hfirst]
  rfl

theorem pref_ok {w : Bool} {a b : Src} (hA : okAddr t a = true) (hB : okSrc t b = true)
    (hv : (isVec t a || isVec t b) = true → Vectors t) :
    exec (.pref w a b) s = .next (s.setAgent s.cur (t.advance (1 + a.words + b.words))) := by
  have hsrc : checkSrcs t [b] = .ok () := checkSrcs_ok (by simpa using hB)
  rw [exec_pref]
  refine runAgent_ok ha ?_
  simp only [hsrc, hA, needOperand, need_true, bind, Except.bind]
  cases hvec : (isVec t a || isVec t b) with
  | false => rfl
  | true => simp only [if_true, checkSh0_ok (hv hvec).1 (hv hvec).2]

end

/-- Settles O20: LDS and LDF hold their team at one load, STS issues one store, and PREF falls through. -/
theorem scalarAccessResult : Obligations.ScalarAccessResult := by
  intro s t ha
  refine ⟨fun d a imm hd hx hr => ?_, fun d imm hd hr => ?_, fun x a imm hx hp hr => sts_ok ha hx hp hr,
    fun w a b hA hB hv => pref_ok ha hA hB hv⟩
  · rw [exec_lds]
    refine runState_ok ha ?_
    rw [← holdLoad_ok hd hr]
    simp only [checkScalars_ok hx, bind, Except.bind]
  · rw [exec_ldf]
    exact runState_ok ha (holdLoad_ok hd hr)

/-! ## Atomics (R187, R188, R240, R244) -/

/-- A lane of an atomic has its target in a tile. -/
def TileLane (l : LaneTgt) : Prop := ∃ g, l.r = .ok g ∧ g.isTile = true

theorem any_tileLane {ls : List LaneTgt} {p : LaneTgt → Bool} (hok : ∀ l g, l.r = .ok g → p l = g.isTile)
    (herr : ∀ l x, l.r = .error x → p l = false) : ls.any p = true ↔ ∃ l ∈ ls, TileLane l := by
  simp only [List.any_eq_true]
  refine exists_congr fun l => and_congr_right fun _ => ?_
  cases hl : l.r with
  | ok g => simp [TileLane, hok l g hl, hl]
  | error x => simp [TileLane, herr l x hl, hl]

/-- What an atomic leaves that passes its checks; `c` says that it waits for what is open. -/
theorem atomForm_ok {o : AtomOp} {wide : Bool} {d : Reg} {a : Src} {obs : BitVec 7} {s : State} {t : Team} (hA : okAddr t a = true)
    (hD : okAtomDst o wide t d = true) (hv : isVecDst d = true → Vectors t) (hs : isVecDst d = false → isVec t a = false)
    (hr : Reached (atomLanes wide d a s t)) {c : Bool}
    (hc : c = true ↔ s.stillOpen (s.env s.cur).ag t (obs != 0) ≠ [] ∧ ∃ l ∈ atomLanes wide d a s t, TileLane l) :
    atomForm o wide d a obs s (s.env s.cur) t = .ok (
      if atomLanes wide d a s t = [] then (s.committed (s.env s.cur).gid).setAgent (s.env s.cur).ag (t.countOff.advance (1 + a.words))
      else if c = true then s.waitOrder (s.env s.cur) t (s.stillOpen (s.env s.cur).ag t (obs != 0))
      else
        let r := (s.committed (s.env s.cur).gid).performTiles (s.atomOp (s.env s.cur) t o wide d obs (atomLanes wide d a s t))
        r.1.post (s.env s.cur) (((r.1.agent (s.env s.cur).ag).getD t).countOn.advance (1 + a.words)) r.2) := by
  have hops : (okAddr t a && okAtomDst o wide t d && (isVecDst d || !isVec t a)) = true := by
    cases hd : isVecDst d with
    | true => simp [hA, hD]
    | false => simp [hA, hD, hs hd]
  have hlanes : lanesTgt s (s.env s.cur) t { write := true, atomic := true, n := if wide = true then 8 else 4 } (memLanes t (isVecDst d))
    (laneAddr (s.env s.cur) t a (.reg .z)) = atomLanes wide d a s t := rfl
  have hany p (hok : ∀ l g, l.r = .ok g → p l = g.isTile) (herr : ∀ l x, l.r = .error x → p l = false) :
      (!(s.stillOpen (s.env s.cur).ag t (obs != 0)).isEmpty && (atomLanes wide d a s t).any p) = c := by
    rw [Bool.eq_iff_iff, hc, Bool.and_eq_true, any_tileLane hok herr]
    simp
  have hsh : isVecDst d = true → checkSh0 t = .ok () := fun h => checkSh0_ok (hv h).1 (hv h).2
  simp only [atomForm, hops, needOperand, need_true, bind, Except.bind, hlanes, firstErr_none hr, List.isEmpty_iff]
  rw [hany _ (fun l g h => by rw [h]) fun l x h => by rw [h]]
  cases hd : isVecDst d with
  | false =>
    simp only [Bool.false_eq_true, if_false]
    split
    · rfl
    · split <;> rfl
  | true =>
    simp only [if_true, hsh hd]
    split
    · rfl
    · split <;> rfl

/-- Settles O21: an atomic that passes its checks is a commit, which counts itself off, waits for what is open, or is performed in its
tiles and posted. -/
theorem atomicsResult : Obligations.AtomicsResult := by
  intro o wide d a obs s t ha hA hD hv hs hr e i
  have hexec : exec i s = runCommit i s (atomForm o wide d a obs) := by
    cases wide with
    | false => exact exec_atom o d a obs s
    | true => exact exec_atom64 o d a obs s
  have hform {c : Bool} := atomForm_ok hA hD hv hs hr (obs := obs) (c := c)
  refine ⟨fun hc => ?_, fun hc hnil => ?_, fun hc hne hgo => ?_, fun hc hopen htile => ?_⟩
  · obtain ⟨c, hdec⟩ : ∃ c : Bool, c = true ↔ s.stillOpen e.ag t (obs != 0) ≠ [] ∧ ∃ l ∈ atomLanes wide d a s t, TileLane l :=
      (em _).elim (fun h => ⟨true, iff_of_true rfl h⟩) fun h => ⟨false, iff_of_false Bool.false_ne_true h⟩
    rw [hexec]
    exact runCommit_hold ha hc (hform hdec)
  · rw [hexec, runCommit_ok ha hc (hform (c := false) (by simp [hnil])), if_pos hnil]
  · have hstay : ¬(s.stillOpen e.ag t (obs != 0) ≠ [] ∧ ∃ l ∈ atomLanes wide d a s t, TileLane l) := fun h => hgo.elim h.1 fun hn => hn h.2
    rw [hexec, runCommit_ok ha hc (hform (c := false) (iff_of_false Bool.false_ne_true hstay)), if_neg hne, if_neg Bool.false_ne_true]
  · have hne : atomLanes wide d a s t ≠ [] := by
      obtain ⟨l, hl, -⟩ := htile
      exact List.ne_nil_of_mem hl
    rw [hexec, runCommit_ok ha hc (hform (c := true) (iff_of_true rfl ⟨hopen, htile⟩)), if_neg hne, if_pos rfl]

/-! ## Completion (R27, R185, R188, R250) -/

/-- An operation that is over completes, unless a ramp holds its error back or, of the host, an earlier posted write is open. -/
theorem complete?_some {s : State} {id : Nat} {o : PendOp} {p : PendKind → Bool} (h : alook id s.pend = some o) (hp : p o.kind = true)
    (ho : o.isOpen = false) (he : o.error ≠ none → s.ramping (s.agentCore o.ag) = false)
    (hw : o.ag.outside = true → s.hostWriteBefore id = false) : s.complete? id p = some o := by
  have herr : (o.error.isSome && s.ramping (s.agentCore o.ag)) = false := by
    cases hx : o.error with
    | none => rfl
    | some x => simp [he (by simp [hx])]
  have hhost : (o.ag.outside && s.hostWriteBefore id) = false := by
    cases hx : o.ag.outside with
    | false => rfl
    | true => simp [hw hx]
  unfold State.complete?
  rw [h]
  dsimp only
  simp only [hp, ho, herr, hhost, Bool.not_false, Bool.and_self, if_true]

theorem runEvent_of {s s' : State} {r : Option State} (h : r = some s') : runEvent s r = .next s' := by rw [h, runEvent_some]

section
variable {s : State} {id : Nat} {o : PendOp} (h : alook id s.pend = some o) (ho : o.isOpen = false)
  (he : o.error ≠ none → s.ramping (s.agentCore o.ag) = false) (hw : o.ag.outside = true → s.hostWriteBefore id = false)
include h ho he hw

theorem loadComplete_killed {w : Width} (hk : o.kind = .load w) (hkill : o.killed = true ∨ s.agent o.ag = none) :
    exec (.loadComplete id) s = .next { s with pend := adel id s.pend } := by
  rw [exec_loadComplete]
  refine runEvent_of ?_
  rw [complete?_some h ?_ ho he hw]
  · cases hd : o.killed with
    | true => simp [hd]
    | false =>
      have hag : s.agent o.ag = none := hkill.resolve_left (by simp [hd])
      simp [hd, hag]
  · rw [hk]

/-- One whose team it does not hold is finished like every operation. -/
theorem loadComplete_free {w : Width} {t : Team} (hk : o.kind = .load w) (hlive : o.killed = false) (ht : s.agent o.ag = some t)
    (hwait : ∀ n, t.wait ≠ .load id n) :
    exec (.loadComplete id) s = .next (({ s with pend := adel id s.pend } : State).finishOp o.ag o) := by
  rw [exec_loadComplete]
  refine runEvent_of ?_
  rw [complete?_some h ?_ ho he hw]
  · simp only [bind, Option.bind, hlive, Bool.false_eq_true, if_false, ht]
    split
    case h_1 k n _ heq =>
      have hne : k ≠ id := fun hki => hwait n (hki ▸ heq)
      rw [if_neg hne]
    case h_2 => rfl
  · rw [hk]

/-- An LDS or LDF, which holds its team (R185). -/
theorem loadComplete_held {w : Width} {t : Team} {n : Nat} (hk : o.kind = .load w) (hlive : o.killed = false) (ht : s.agent o.ag = some t)
    (hst : t.st = .waiting) (hwait : t.wait = .load id n) :
    exec (.loadComplete id) s = .next (({ s with pend := adel id s.pend } : State).finishHeld o.ag o n) := by
  rw [exec_loadComplete]
  refine runEvent_of ?_
  rw [complete?_some h ?_ ho he hw]
  · simp [hlive, ht, hst, hwait]
  · rw [hk]

theorem atomicComplete_killed {x : AtomOp} {wide : Bool} (hk : o.kind = .atomic x wide) (hkill : o.killed = true) :
    exec (.atomicComplete id) s = .next { s with pend := adel id s.pend } := by
  rw [exec_atomicComplete]
  refine runEvent_of ?_
  rw [complete?_some h ?_ ho he hw]
  · simp only [bind, Option.bind, hkill, if_true]
  · rw [hk]

theorem atomicComplete_alone {x : AtomOp} {wide : Bool} (hk : o.kind = .atomic x wide) (hlive : o.killed = false) (htwin : o.twin = none) :
    exec (.atomicComplete id) s = .next (({ s with pend := adel id s.pend } : State).finishOp o.ag o) := by
  rw [exec_atomicComplete]
  refine runEvent_of ?_
  rw [complete?_some h ?_ ho he hw]
  · simp only [bind, Option.bind, hlive, Bool.false_eq_true, if_false]
    rw [htwin]
  · rw [hk]

/-- One of a REDUNDANT group is written in both copies (R313). -/
theorem atomicComplete_twin {x : AtomOp} {wide : Bool} {k : Nat} (hk : o.kind = .atomic x wide) (hlive : o.killed = false)
    (htwin : o.twin = some k) :
    exec (.atomicComplete id) s = .next ((({ s with pend := adel id s.pend } : State).finishOp o.ag o).finishOp (.team k) o) := by
  rw [exec_atomicComplete]
  refine runEvent_of ?_
  rw [complete?_some h ?_ ho he hw]
  · simp only [bind, Option.bind, hlive, Bool.false_eq_true, if_false]
    rw [htwin]
  · rw [hk]

end

/-- Settles O22: a completing load or atomic writes its results, or, killed, only goes. -/
theorem accessesComplete : Obligations.AccessesComplete := fun _ _ _ h ho he hw =>
  ⟨fun _ hk => ⟨loadComplete_killed h ho he hw hk, fun _ hlive ht => ⟨fun _ hst hwait => loadComplete_held h ho he hw hk hlive ht hst hwait,
      loadComplete_free h ho he hw hk hlive ht⟩⟩,
    fun _ _ hk => ⟨atomicComplete_killed h ho he hw hk, atomicComplete_alone h ho he hw hk, fun _ => atomicComplete_twin h ho he hw hk⟩⟩

/-! ## Requests at their homes (R189, R268, R325, R326, R338 to R340, R360) -/

/-- A request that is sent and may be performed is not held back. -/
theorem may_go {s : State} {id : Nat} {o : PendOp} {l : LaneAcc} (hs : l.st = .sent) (hc : s.canPerform id o l = true) :
    (l.st != .sent || !s.canPerform id o l) = false := by
  simp [hs, hc]

section
variable {s : State} {id : Nat} {o : PendOp} {l : LaneAcc} (h : alook id s.pend = some o)
  (hl : o.lanes.find? (fun m => m.lane == l.lane) = some l)
include h hl

theorem home_perform (hs : l.st = .sent) (hc : s.canPerform id o l = true) {s1 s2 : State} (hd : s.drainingAt l.tgt = false)
    (hcarry : s.carry id l = some s1) (hresp : s1.respond o.ag = some s2) :
    exec (.memoryRequestAtHome id l.lane .perform) s = .next ((s2.performAt id o l).accepted o.core (s.homeOf l.tgt)) := by
  rw [exec_memoryRequestAtHome]
  refine runEvent_of ?_
  unfold State.requestAt
  simp only [bind, Option.bind, h, hl, may_go hs hc, Bool.false_eq_true, false_and, if_false, reduceCtorEq, hd, hcarry, hresp]

theorem home_park (hs : l.st = .sent) (hc : s.canPerform id o l = true) {pa : Nat} (ht : l.tgt = .dev pa) (hd : s.drainingAt l.tgt = false)
    (hroom : (s.parkedAt (s.homeOf l.tgt)).length < Config.homeQueueLimit) :
    exec (.memoryRequestAtHome id l.lane .park) s = .next
      (({ s.putOp id (o.setLane { l with st := .parked s.nextId }) with nextId := s.nextId + 1 } : State).accepted o.core (s.homeOf l.tgt)) := by
  have hfull : Nat.ble Config.homeQueueLimit (s.parkedAt (s.homeOf l.tgt)).length = false := by
    rw [Bool.eq_false_iff, ne_eq, Nat.ble_eq]
    omega
  rw [exec_memoryRequestAtHome]
  refine runEvent_of ?_
  unfold State.requestAt
  simp only [bind, Option.bind, h, hl, may_go hs hc, Bool.false_eq_true, false_and, if_false, reduceCtorEq, hfull, hd, Bool.or_self]
  rw [ht]

theorem home_nack (hs : l.st = .sent) (hc : s.canPerform id o l = true) (ht : l.tgt.isTile = false) (ho : o.ag.outside = false) :
    exec (.memoryRequestAtHome id l.lane .nack) s =
      .next ((s.putOp id (o.setLane { l with st := .nacked })).modCore o.core fun x => x.nacked (s.homeOf l.tgt)) := by
  rw [exec_memoryRequestAtHome]
  refine runEvent_of ?_
  unfold State.requestAt
  simp only [bind, Option.bind, h, hl, may_go hs hc, Bool.false_eq_true, false_and, if_false, reduceCtorEq, ht, ho, Bool.or_self]

theorem home_uncorrectable (hs : l.st = .sent) (hc : s.canPerform id o l = true) {pa : Nat} (ht : l.tgt = .dev pa)
    (hp : s.portFailed l = false) (hr : o.kind.reads = true) (hd : s.drainingAt l.tgt = false) (hdead : deadHas s.dead (pa / 4096) = false) :
    exec (.memoryRequestAtHome id l.lane .error) s = .next ((s.addPoison (pa / 64)).failLane id o l .failed) := by
  rw [exec_memoryRequestAtHome]
  refine runEvent_of ?_
  unfold State.requestAt
  simp only [bind, Option.bind, h, hl, may_go hs hc, Bool.false_eq_true, and_false, false_and, if_false, hp]
  rw [ht] at hd ⊢
  simp only [hr, hd, hdead, Bool.not_false, Bool.and_self, if_true]

theorem home_refused (hs : l.st = .sent) (hc : s.canPerform id o l = true) {ports k : Nat} {s1 : State} (ht : l.tgt = .peer ports k)
    (hk : 0x100000000000 ≤ k % 2 ^ 52) (hp : s.portFailed l = false) (hcarry : s.carry id l = some s1) :
    exec (.memoryRequestAtHome id l.lane .error) s = .next (s1.failLane id o l .refused) := by
  have hrefuse : Nat.ble 0x100000000000 (k % 2 ^ 52) = true := Nat.ble_eq ▸ hk
  rw [exec_memoryRequestAtHome]
  refine runEvent_of ?_
  unfold State.requestAt
  simp only [bind, Option.bind, h, hl, may_go hs hc, Bool.false_eq_true, and_false, false_and, if_false, hp]
  rw [ht]
  simp only [hrefuse, hcarry, if_true, Option.map_some]

theorem home_undelivered (hs : l.st = .sent ∨ ∃ k, l.st = .parked k) (hp : s.portFailed l = true) :
    exec (.memoryRequestAtHome id l.lane .error) s = .next (s.undelivered id o l) := by
  have hst : l.st = .sent ∨ l.st.isParked = true := hs.imp_right fun ⟨k, hk⟩ => by rw [hk]; rfl
  rw [exec_memoryRequestAtHome]
  refine runEvent_of ?_
  unfold State.requestAt
  simp only [bind, Option.bind, h, hl, hp, hst, and_self, if_true]

end

theorem homeFaultReplay_ok {s : State} {home : Nat} (hne : s.parkedAt home ≠ []) (hu : s.homeUp home = true) :
    exec (.homeFaultReplay home) s = .next (s.replayHome home) := by
  rw [exec_homeFaultReplay]
  refine runEvent_of (if_neg ?_)
  simp [hne, hu]

theorem resend_core {s : State} {core home id : Nat} {o : PendOp} {l : LaneAcc} (hcore : core < Config.nCores) (ho : (id, o) ∈ s.pend)
    (hl : l ∈ o.lanes) (hc : o.core = core) (hs : l.st = .nacked) (hh : s.homeOf l.tgt = home)
    (hb : (sget (s.core core).backoff (2 * home + 1)).toNat ≤ (s.core core).count) :
    exec (.internalQueueResend core home) s = .next { s with pend := amap (fun _ o => { o with
      lanes := o.lanes.map fun l => if o.core = core ∧ l.st = .nacked ∧ s.homeOf l.tgt = home then { l with st := .sent } else l }) s.pend } := by
  have hany : aany (fun _ o => o.lanes.any fun l => o.core == core && l.st == .nacked && s.homeOf l.tgt == home) s.pend = true := by
    simp only [aany, List.any_eq_true]
    exact ⟨(id, o), ho, l, hl, by simp [hc, hs, hh]⟩
  rw [exec_internalQueueResend, execInternalQueueResend]
  dsimp only
  refine runEvent_of ?_
  rw [if_neg (by omega), if_pos ⟨hany, hb⟩]
  simp only [Bool.and_eq_true, beq_iff_eq, and_assoc]

section
variable {s : State} {mb : Nat} {m : Msg} (hm : s.fw.unsent.find? (fun e => e.1 == mb) = some (mb, m))
  (hb : (agetD (64, 0) mb s.fw.backoff).2 ≤ s.fwCycle)
include hm hb

theorem resend_mail (home : Nat) (hroom : (agetD [] mb s.fw.mbox).length < Config.mailboxLimit) :
    exec (.internalQueueResend (Config.nCores + mb) home) s = .next { s with fw := { s.fw with
      mbox := aset mb (agetD [] mb s.fw.mbox ++ [m]) s.fw.mbox, unsent := s.fw.unsent.erase (mb, m)
      backoff := if (s.fw.unsent.erase (mb, m)).any fun x => x.1 == mb then aset mb (64, (agetD (64, 0) mb s.fw.backoff).2) s.fw.backoff
        else adel mb s.fw.backoff } } := by
  rw [exec_internalQueueResend, execInternalQueueResend]
  dsimp only
  refine runEvent_of ?_
  rw [if_pos (by omega), Nat.add_sub_cancel_left]
  simp only [State.mailResend, bind, Option.bind, hm, Nat.not_lt.2 hb, if_false, hroom, if_true]

theorem resend_mail_full (home : Nat) (hfull : Config.mailboxLimit ≤ (agetD [] mb s.fw.mbox).length) :
    exec (.internalQueueResend (Config.nCores + mb) home) s = .next { s with fw := { s.fw with
      backoff := aset mb (min 4096 (2 * (agetD (64, 0) mb s.fw.backoff).1), s.fwCycle + min 4096 (2 * (agetD (64, 0) mb s.fw.backoff).1))
        s.fw.backoff } } := by
  rw [exec_internalQueueResend, execInternalQueueResend]
  dsimp only
  refine runEvent_of ?_
  rw [if_pos (by omega), Nat.add_sub_cancel_left]
  simp only [State.mailResend, bind, Option.bind, hm, Nat.not_lt.2 hb, Nat.not_lt.2 hfull, if_false]

end

section
variable {s : State} {id : Nat} {o : PendOp} {l : LaneAcc} {ports k : Nat} (h : alook id s.pend = some o)
  (hl : o.lanes.find? (fun m => m.lane == l.lane && m.st == .held) = some l) (ht : l.tgt = .peer ports k)
include h hl ht

theorem peerHold_sent (hact : s.activePort ports = true) (hset : s.setChanged l.tgt = false) :
    exec (.peerHoldRelease id l.lane) s =
      .next ((s.putOp id (o.setLane { l with st := .sent, via := s.portOf l.tgt })).sendFlits id [{ l with st := .sent, via := s.portOf l.tgt }]) := by
  rw [exec_peerHoldRelease]
  refine runEvent_of ?_
  rw [ht] at hset
  simp only [bind, Option.bind, h, hl, ht, hact, if_true]
  rw [hset]
  rfl

theorem peerHold_failed (hact : s.activePort ports = false) (hany : s.anyPort ports = false) :
    exec (.peerHoldRelease id l.lane) s = .next (s.failLane id o l .failed) := by
  rw [exec_peerHoldRelease]
  refine runEvent_of ?_
  simp only [bind, Option.bind, h, hl, ht, hact, hany, Bool.false_eq_true, if_false]

end

/-- Settles O23: each outcome at a home, the replay, the two resends and the release of a held request, where its occasion stands. -/
theorem homesPerformRequests : Obligations.HomesPerformRequests := fun _ =>
  ⟨fun _ _ _ h hl hs hc => ⟨fun _ _ hd hcarry hresp => home_perform h hl hs hc hd hcarry hresp, fun _ ht hd hroom => home_park h hl hs hc ht hd hroom,
      home_nack h hl hs hc, fun _ ht hp hr hd hdead => home_uncorrectable h hl hs hc ht hp hr hd hdead,
      fun _ _ _ ht hk hp hcarry => home_refused h hl hs hc ht hk hp hcarry⟩,
    fun _ _ _ h hl hs hp => home_undelivered h hl hs hp, fun _ => homeFaultReplay_ok,
    fun _ _ _ _ _ hcore ho hl hc hs hh hb => resend_core hcore ho hl hc hs hh hb,
    fun _ home _ hm hb => ⟨resend_mail hm hb home, resend_mail_full hm hb home⟩,
    fun _ _ _ _ _ h hl ht => ⟨peerHold_sent h hl ht, peerHold_failed h hl ht⟩⟩

end Sys2Proof.MemoryAccess
end

section
/-!
PROOF. Tiles (R164 to R177, R209, R210, R308): allocation, TRD and TWR, the cellar engine, and the ends of granule waits.
-/
namespace Sys2Proof.TileAccess
open Sys2Proof Sys2Proof.Machine Sys2Proof.Claims Sys2Proof.Laws Sys2Proof.LaneResults Sys2Proof.SystemState Sys2Proof.MemoryAccess

theorem tileAt_eq {s : State} {t : Team} {a : Src} {r : Option (Nat × Tile)} (h : tileAt s t a = r) :
    s.tileOf (s.env s.cur).gid (s.env s.cur).launch (s.env s.cur).die (srcScalar (s.env s.cur) t a).toNat = r := h

/-! ## TALLOC, TFREE and TSTAT (R173, R174, R177) -/

section
variable {s : State} {t : Team} (ha : s.agent s.cur = some t)
include ha

section
variable (full : Bool) (l : TileLevel) {d : Reg} {sh : Fin 4} (hd : isScaDst d = true) (hc : t.ctl = false)
  (hk : (t.shape sh).kind = .tile)
include hd hc hk

theorem talloc_noHandle (hh : s.freeHandle (s.env s.cur) l = none) :
    exec (.talloc full l d sh) s = .next (s.setAgent (s.env s.cur).ag ((t.writeScalar d 0x1FF).advance 1)) := by
  rw [exec_talloc]
  refine runState_ok ha ?_
  simp only [hd, hc, Bool.not_false, Bool.and_self, needOperand, need_true, bind, Except.bind, hk, beq_self_eq_true]
  rw [hh]

theorem talloc_fits {h : Nat} (hh : s.freeHandle (s.env s.cur) l = some h)
    (hfit : s.tileFits (s.env s.cur) l (newTile (s.env s.cur) l h (t.shape sh).d0 (t.shape sh).d1 full).occupied = true) :
    exec (.talloc full l d sh) s = .next (({ s with
      tiles := aset s.nextId (newTile (s.env s.cur) l h (t.shape sh).d0 (t.shape sh).d1 full) s.tiles, nextId := s.nextId + 1 } : State).setAgent
        (s.env s.cur).ag ((t.writeScalar d (BitVec.ofNat 64 h)).advance 1)) := by
  rw [exec_talloc]
  refine runState_ok ha ?_
  simp only [hd, hc, Bool.not_false, Bool.and_self, needOperand, need_true, bind, Except.bind, hk, beq_self_eq_true]
  rw [hh]
  exact if_pos hfit

theorem talloc_full {h : Nat} (hh : s.freeHandle (s.env s.cur) l = some h)
    (hfit : s.tileFits (s.env s.cur) l (newTile (s.env s.cur) l h (t.shape sh).d0 (t.shape sh).d1 full).occupied = false) :
    exec (.talloc full l d sh) s = .next (s.setAgent (s.env s.cur).ag ((t.writeScalar d (if l = .l2 then 0x3FF else 0x2FF)).advance 1)) := by
  rw [exec_talloc]
  refine runState_ok ha ?_
  simp only [hd, hc, Bool.not_false, Bool.and_self, needOperand, need_true, bind, Except.bind, hk, beq_self_eq_true]
  rw [hh]
  exact if_neg (by simp [hfit])

end

theorem tfree_ok {a : Src} {k : Nat} {x : Tile} (hx : Scalars t [a]) (hk : tileAt s t a = some (k, x)) :
    exec (.tfree a) s =
      .next (((s.setAgent (s.env s.cur).ag (t.advance (1 + a.words))).endGranuleWaits k).releaseTiles fun j _ => j == k) := by
  rw [exec_tfree]
  refine runState_ok ha ?_
  simp only [checkScalars_ok hx, bind, Except.bind]
  rw [tileAt_eq hk]

theorem tstat_none {d : Reg} {a : Src} (hx : Scalars t [a]) (hd : isScaDst d = true) (hk : tileAt s t a = none) :
    exec (.tstat d a) s = .next (s.setAgent s.cur ((t.writeScalar d 0).advance (1 + a.words))) := by
  rw [exec_tstat]
  refine runAgent_ok ha ?_
  simp only [checkScalars_ok hx, hd, needOperand, need_true, bind, Except.bind]
  rw [tileAt_eq hk]

theorem tstat_some {d : Reg} {a : Src} {k : Nat} {x : Tile} (hx : Scalars t [a]) (hd : isScaDst d = true)
    (hk : tileAt s t a = some (k, x)) :
    exec (.tstat d a) s = .next (s.setAgent s.cur ((t.writeScalar d (x.record (s.tileInUse k))).advance (1 + a.words))) := by
  rw [exec_tstat]
  refine runAgent_ok ha ?_
  simp only [checkScalars_ok hx, hd, needOperand, need_true, bind, Except.bind]
  rw [tileAt_eq hk]

end

/-! ## The cellar engine (R308) -/

section
variable {s : State} {k : Nat} {x : Tile} {c b : Nat} (h : alook k s.tiles = some x) (hp : s.tilePlace x = some (.bank c b))
include h hp

theorem tileRestore_ok {g : Nat} (hb : b = (s.core c).act) (hg : bitAt x.cellar g = true)
    (hroom : s.levelHeld c x.level + 16 ≤ (if x.level = 0 then Config.l0Bytes else Config.l1Bytes)) :
    exec (.tileRestore k g) s = .next { s with tiles := aset k (x.restore [g]) s.tiles } := by
  rw [exec_tileRestore]
  refine runEvent_of ?_
  simp only [bind, Option.bind, h, hp, hb, beq_self_eq_true, hg, Nat.ble_eq ▸ hroom, Bool.and_self, if_true]

theorem tileSpill_ok (hb : b ≠ (s.core c).act) (hx : x.cellar ≠ x.allGranules)
    (hm : ∀ m ∈ s.mqs, m.2.begun = true → m.2.names k = false) :
    exec (.tileSpill k) s = .next { s with tiles := aset k { x with cellar := x.allGranules } s.tiles } := by
  have hfree : aany (fun _ m => m.begun && m.names k) s.mqs = false := by
    simp only [aany, List.any_eq_false, Bool.and_eq_true, not_and, Bool.not_eq_true]
    exact hm
  rw [exec_tileSpill]
  refine runEvent_of ?_
  simp only [bind, Option.bind, h, hp, hfree, bne_iff_ne.2 hb, bne_iff_ne.2 hx, Bool.not_false, Bool.and_self, if_true]

end

/-- Settles O24: each code of TALLOC, TFREE, TSTAT, and the two steps of the cellar engine. -/
theorem tileAllocationResult : Obligations.TileAllocationResult := by
  intro s
  refine ⟨fun t ha => ⟨fun full l d sh hd hc hk => ⟨talloc_noHandle ha full l hd hc hk, fun h hh =>
    ⟨talloc_fits ha full l hd hc hk hh, talloc_full ha full l hd hc hk hh⟩⟩, fun a k x hx hk => tfree_ok ha hx hk, fun d a hx hd => ?_⟩,
    fun k x c b h hp => ⟨fun g => tileRestore_ok h hp, tileSpill_ok h hp⟩⟩
  cases hk : tileAt s t a with
  | none => exact tstat_none ha hx hd hk
  | some r => exact tstat_some ha hx hd hk

/-! ## TRD and TWR (R168, R169, R175, R176) -/

/-- Lanes whose offsets lie, aligned, inside their tile pass the checks of R176. -/
theorem tileCheck_ok {s : State} {t : Team} {a : Src} {per : Bool} {w k : Nat} {x : Tile} {ls : List (Nat × Nat)}
    (hk : tileAt s t a = some (k, x)) (hin : InTile x w ls) : tileCheck s (s.env s.cur) t a per w ls = .ok (k, x) := by
  have halign : (ls.filter fun l => l.2 % w != 0) = [] := by
    rw [List.filter_eq_nil_iff]
    intro l hl
    simp [(hin l hl).1]
  have hinside : (ls.filter fun l => Nat.blt x.size (l.2 + w)) = [] := by
    rw [List.filter_eq_nil_iff]
    intro l hl
    rw [Nat.blt_eq]
    exact Nat.not_lt.2 (hin l hl).2
  unfold tileCheck
  rw [tileAt_eq hk]
  simp only [halign, hinside, List.isEmpty_nil, need_true, bind, Except.bind]

theorem putBytes_foldl_put (w : Nat) (data : Nat → Nat) (ls : List (Nat × Nat)) (y : Tile) :
    (ls.foldl (fun (u : Tile) (l : Nat × Nat) => u.put l.2 (leBytes (data l.1) w)) y).bytes =
      ls.foldl (fun m (l : Nat × Nat) => putBytes m l.2 (leBytes (data l.1) w)) y.bytes := by
  induction ls generalizing y with
  | nil => rfl
  | cons l ls ih => exact ih _

theorem all_ready {s : State} {k : Nat} {x : Tile} {n : Need} {gs : List Nat} (h : ∀ g ∈ gs, s.granuleReady k x n g = true) :
    (gs.all fun g => s.granuleReady k x n g) = true := List.all_eq_true.2 h

theorem all_ready_false {s : State} {k : Nat} {x : Tile} {n : Need} {gs : List Nat} {g : Nat} (hg : g ∈ gs)
    (h : s.granuleReady k x n g = false) : ¬ (gs.all fun g => s.granuleReady k x n g) = true := by
  rw [List.all_eq_true]
  intro hall
  simp [hall g hg] at h

theorem isEmpty_false {α : Type} {l : List α} (h : l ≠ []) : l.isEmpty = false := by simp [h]

/-- The granules that lanes touch. -/
def granulesAt (ls : List (Nat × Nat)) : List Nat := ls.map fun l => l.2 / 16

/-- What a TRD of lanes `ls` leaves that issues. -/
def trdIssued (wide : Bool) (q : TrdQ) (d : Reg) (n k : Nat) (x : Tile) (ls : List (Nat × Nat)) (s : State) (e : Env) (t : Team) : State :=
  let x1 := x.restore (granulesAt ls)
  let lanes := ls.map fun l => ({
    lane := l.1, va := tileAddr x.handle l.2, tgt := .tile k l.2, n := if wide then 8 else 4, x := 0, y := 0, st := .done
    res := BitVec.ofNat 64 (leValue (fun i => sget x.bytes i) l.2 (if wide then 8 else 4)), via := none, put := false } : LaneAcc)
  let s1 : State :=
    { s with tiles := aset k (if q = .take then { x1 with full := clearBits x1.full (granulesAt ls) } else x1) s.tiles }
  (s1.post e (t.countOn.advance n) (s1.newOp e t (.trd wide) false false 0 lanes (some t.nextFlag) (dstOf t d wide))).putSome s1.nextId
    (s1.newOp e t (.trd wide) false false 0 lanes (some t.nextFlag) (dstOf t d wide))

/-- What a lane of a TWR writes. -/
def twrData (wide : Bool) (x : Src) (e : Env) (t : Team) (l : Nat) : Nat :=
  if wide then (srcLane64 e t x l).toNat else (srcLane e t x l).toNat

/-- The tile as a TWR of lanes `ls` leaves it. -/
def twrTile (wide : Bool) (q : TwrQ) (x : Src) (y : Tile) (ls : List (Nat × Nat)) (e : Env) (t : Team) : Tile :=
  let y1 := y.restore (granulesAt ls)
  { ls.foldl (fun (u : Tile) (l : Nat × Nat) => u.put l.2 (leBytes (twrData wide x e t l.1) (if wide then 8 else 4))) y1 with
    full := if q = .raw then y1.full else setBits y1.full (granulesAt ls) }

/-- What a TWR of lanes `ls` leaves that issues. -/
def twrIssued (wide : Bool) (q : TwrQ) (x : Src) (n k : Nat) (y : Tile) (ls : List (Nat × Nat)) (s : State) (e : Env) (t : Team) : State :=
  (ls.foldl (fun (st : State) (l : Nat × Nat) => st.operandSeen none k l.2 (if wide then 8 else 4))
    { s with tiles := aset k (twrTile wide q x y ls e t) s.tiles }).setAgent e.ag (t.advance n)

section
variable {s : State} {t : Team} {wide : Bool} {a b : Src} {k : Nat} {ls : List (Nat × Nat)}

/-- A TRD whose checks pass: its four ways on. -/
theorem trdForm_checked {q : TrdQ} {d : Reg} {x : Tile} (hx : Scalars t [a]) (hB : okSrc t b = true) (hD : okDst t d = true)
    (hpair : wide = true → okPairDst t d = true) (hv : isVecDst d = true → Vectors t) (hs : isVecDst d = false → isVec t b = false)
    (hk : tileAt s t a = some (k, x)) (hin : InTile x (if wide then 8 else 4) ls) (hls : tileLanes (s.env s.cur) t b (isVecDst d) = ls) :
    trdForm wide q d a b s (s.env s.cur) t =
      if ls.isEmpty then .ok (s.setAgent (s.env s.cur).ag (t.countOff.advance (1 + a.words + b.words)))
      else if !(s.stillOpen (s.env s.cur).ag t false).isEmpty then .ok (s.waitOrder (s.env s.cur) t (s.stillOpen (s.env s.cur).ag t false))
      else if (granulesAt ls).all fun g => s.granuleReady k x (TrdQ.need q) g then
        .ok (trdIssued wide q d (1 + a.words + b.words) k x ls s (s.env s.cur) t)
      else .ok (s.waitGranule (s.env s.cur) t (.trd wide q d a b) k) := by
  have hops : (okDst t d && (!wide || okPairDst t d) && (isVecDst d || !isVec t b)) = true := by
    cases hd : isVecDst d with
    | true => cases hw : wide <;> simp [hD, hpair, hw]
    | false => cases hw : wide <;> simp [hD, hpair, hw, hs hd]
  have hsrc : checkSrcs t [b] = .ok () := checkSrcs_ok (by simpa using hB)
  have hsh : isVecDst d = true → checkSh0 t = .ok () := fun h => checkSh0_ok (hv h).1 (hv h).2
  have hcheck := tileCheck_ok (per := isVecDst d) hk hin
  simp only [trdForm, checkScalars_ok hx, hsrc, hops, needOperand, need_true, bind, Except.bind, hls, hcheck]
  cases hd : isVecDst d with
  | false => rfl
  | true =>
    simp only [if_true, hsh hd]
    rfl

/-- A TWR whose checks pass: its three ways on. -/
theorem twrForm_checked {q : TwrQ} {x : Src} {y : Tile} (hx : Scalars t [a]) (hX : okSrc t x = true) (hB : okSrc t b = true)
    (hpair : wide = true → okPairSrc t x = true) (hv : (isVec t x || isVec t b) = true → Vectors t) (hk : tileAt s t a = some (k, y))
    (hin : InTile y (if wide then 8 else 4) ls) (hls : tileLanes (s.env s.cur) t b (isVec t x || isVec t b) = ls) :
    twrForm wide q x a b s (s.env s.cur) t =
      if !ls.isEmpty && !(s.stillOpen (s.env s.cur).ag t false).isEmpty then
        .ok (s.waitOrder (s.env s.cur) t (s.stillOpen (s.env s.cur).ag t false))
      else if (granulesAt ls).all fun g => s.granuleReady k y (TwrQ.need q) g then
        .ok (twrIssued wide q x (1 + x.words + a.words + b.words) k y ls s (s.env s.cur) t)
      else .ok (s.waitGranule (s.env s.cur) t (.twr wide q x a b) k) := by
  have hops : (!wide || okPairSrc t x) = true := by
    cases hw : wide with
    | true => simp [hpair hw]
    | false => rfl
  have hsrc : checkSrcs t [x, b] = .ok () := checkSrcs_ok (by simp [hX, hB])
  have hcheck := tileCheck_ok (per := isVec t x || isVec t b) hk hin
  simp only [twrForm, checkScalars_ok hx, hsrc, hops, needOperand, need_true, bind, Except.bind, hls, hcheck]
  cases hvec : (isVec t x || isVec t b) with
  | false => rfl
  | true =>
    simp only [if_true, checkSh0_ok (hv hvec).1 (hv hvec).2]
    rfl

end

/-- Settles O25: the ways on of TRD and of TWR; the bytes that a TWR leaves are those of its lanes in ascending order. -/
theorem tileAccessResult : Obligations.TileAccessResult := by
  intro s t ha
  refine ⟨fun wide q d a b k x hx hB hD hpair hv hs hk hin => ?_, fun wide q x a b k y hx hX hB hpair hv hk hin => ?_⟩
  · have hform := trdForm_checked (q := q) hx hB hD hpair hv hs hk hin rfl
    rw [exec_trd]
    refine ⟨fun hnil => runState_ok ha ?_, fun hne hopen => runState_ok ha ?_, fun hne hopen hready => runState_ok ha ?_,
      fun hopen g hg hr => runState_ok ha ?_⟩
    · rw [hform, hnil]
      rfl
    · rw [hform, isEmpty_false hne, isEmpty_false hopen]
      rfl
    · rw [hform, isEmpty_false hne, hopen]
      exact if_pos (all_ready hready)
    · have hne : tileLanes (s.env s.cur) t b (isVecDst d) ≠ [] := fun hnil => by simp [hnil] at hg
      rw [hform, isEmpty_false hne, hopen]
      exact if_neg (all_ready_false hg hr)
  · have hform := twrForm_checked (q := q) hx hX hB hpair hv hk hin rfl
    rw [exec_twr]
    refine ⟨fun hne hopen => runState_ok ha ?_, fun hgo hready => ⟨putBytes_foldl_put _ (twrData wide x (s.env s.cur) t) _ _, runState_ok ha ?_⟩,
      fun hopen g hg hr => runState_ok ha ?_⟩
    · rw [hform, isEmpty_false hne, isEmpty_false hopen]
      rfl
    · rw [hform, if_neg ?_]
      · exact if_pos (all_ready hready)
      · rcases hgo with hnil | hopen
        · rw [hnil]
          simp
        · rw [hopen]
          simp
    · have hne : tileLanes (s.env s.cur) t b (isVec t x || isVec t b) ≠ [] := fun hnil => by simp [hnil] at hg
      rw [hform, isEmpty_false hne, hopen]
      exact if_neg (all_ready_false hg hr)

end Sys2Proof.TileAccess
end

section
/-!
PROOF. The barrier instructions (R225 to R232, R385), and the ends of granule and barrier waits (R27, R169, R170, R230, R233, R234, R384).
-/
namespace Sys2Proof.BarrierWaits
open Sys2Proof Sys2Proof.Machine Sys2Proof.Claims Sys2Proof.Laws Sys2Proof.LaneResults Sys2Proof.SystemState Sys2Proof.MemoryAccess

/-! ## The id (R226) -/

/-- A package-scope id in a launch that is not CORESIDENT. -/
theorem barId_scope {s : State} {e : Env} {t : Team} {a : Src} (hc : e.ctl = false) (hl : s.coresident e.launch = false)
    (hlo : 1536 ≤ (srcScalar e t a).toNat) (hhi : (srcScalar e t a).toNat < 2048) :
    barId s e t a = .error (Trap.of .barrierScope) := by
  have hid : Nat.blt (srcScalar e t a).toNat 2048 = true := Nat.blt_eq ▸ hhi
  have hscope : Nat.blt (srcScalar e t a).toNat 1536 = false := by
    rw [Bool.eq_false_iff, ne_eq, Nat.blt_eq]
    omega
  simp [barId, needOperand, need, hid, hc, hscope, hl, bind, Except.bind]

theorem barOpen_scope {s : State} {e : Env} {t : Team} {a : Src} (h : barId s e t a = .error (Trap.of .barrierScope)) :
    barOpen s e t a = .error (Trap.of .barrierScope) := by
  simp only [barOpen, h, bind, Except.bind]

theorem barId_val {s : State} {e : Env} {t : Team} {a : Src} {id : Nat} (h : barId s e t a = .ok id) : id = (srcScalar e t a).toNat := by
  unfold barId at h
  simp only [needOperand, need, bind, Except.bind] at h
  split at h
  · simp at h
  · split at h
    · simp at h
    · simpa using h.symm

/-! ## The arrival of a BARV (R228) -/

/-- The state that a BARV leaves that arrives. -/
def arrivedState (s : State) (e : Env) (t : Team) (r : BarRef) (o : Barrier) : State :=
  let s1 := s.modBar r fun x => x.arrive e.ag.tid t.released
  if o.scope = 0 then s1 else s1.committed e.gid

/-- What a BARV leaves that has not arrived. -/
theorem barvForm_ok {s : State} {t : Team} {wait : Bool} {d : Reg} {a : Src} {r : BarRef} {o : Barrier} (hx : Scalars t [a])
    (hr : barOpen s (s.env s.cur) t a = .ok r) (ho : s.barAt r = some o) (hd : isScaDst d = true) (hw : wait = true → t.arrived = none) :
    barvForm wait d a s (s.env s.cur) t = .ok (if wait = true then
        (arrivedState s (s.env s.cur) t r o).awaitPhase (s.env s.cur) { t with arrived := some o.phase } r o.phase (1 + a.words) d
      else (arrivedState s (s.env s.cur) t r o).setAgent (s.env s.cur).ag
        ((t.writeScalar d (BitVec.ofNat 64 o.phase)).advance (1 + a.words))) := by
  have hnone : (if wait = true then t.arrived else none) = none := by
    split
    · exact hw ‹_›
    · rfl
  simp only [barvForm, checkScalars_ok hx, hr, hd, needOperand, need_true, bind, Except.bind, hnone, ho]
  split <;> rfl

theorem barvCommit_eq {e : Env} {t : Team} {a : Src} {wait : Bool} (hw : wait = true → t.arrived = none) :
    barvCommit wait a e t = Nat.ble 1024 (srcScalar e t a).toNat := by
  cases wait with
  | false => simp [barvCommit]
  | true => simp [barvCommit, hw rfl]

section
variable {s : State} {t : Team} (ha : s.agent s.cur = some t)
include ha

/-! ## BARRIER-SCOPE (R225) -/

section
variable {d : Reg} {a b : Src} (hx : Scalars t [a, b]) (hd : isScaDst d = true) (hid : barId s (s.env s.cur) t a = .error (Trap.of .barrierScope))
include hx hid

theorem copy_scope (xf : Bool) (cq : Fin 4) : exec (.copy xf cq b a) s = .next (takeTrap s (Trap.of .barrierScope)) := by
  have hsw : Scalars t [b, a] := scalars_of_mem hx (by simp [or_comm])
  rw [exec_copy]
  refine runState_error ha ?_
  simp only [copyForm, checkScalars_ok hsw, barOpen_scope hid, bind, Except.bind]

theorem bexp_scope : exec (.bexp a b) s = .next (takeTrap s (Trap.of .barrierScope)) := by
  rw [exec_bexp]
  refine runState_error ha ?_
  simp only [checkScalars_ok hx, barOpen_scope hid, bind, Except.bind]

theorem binv_scope : exec (.binv a) s = .next (takeTrap s (Trap.of .barrierScope)) := by
  rw [exec_binv]
  refine runState_error ha ?_
  simp only [checkScalars_ok (scalars_of_mem hx (ys := [a]) (by simp)), barOpen_scope hid, bind, Except.bind]

include hd

theorem binit_scope : exec (.binit d a b) s = .next (takeTrap s (Trap.of .barrierScope)) := by
  rw [exec_binit]
  refine runState_error ha ?_
  simp only [checkScalars_ok hx, hd, hid, needOperand, need_true, bind, Except.bind]

theorem barv_scope (wait : Bool) : exec (.barv wait d a) s = .next (takeTrap s (Trap.of .barrierScope)) := by
  have hform : barvForm wait d a s (s.env s.cur) t = .error (Trap.of .barrierScope) := by
    simp only [barvForm, checkScalars_ok (scalars_of_mem hx (ys := [a]) (by simp)), hd, barOpen_scope hid, needOperand, need_true, bind,
      Except.bind]
  rw [exec_barv]
  refine runState_error ha ?_
  rw [hform]

theorem bwait_scope : exec (.bwait d a b) s = .next (takeTrap s (Trap.of .barrierScope)) := by
  rw [exec_bwait]
  refine runState_error ha ?_
  simp only [checkScalars_ok hx, hd, barOpen_scope hid, needOperand, need_true, bind, Except.bind]

theorem btest_scope : exec (.btest d a b) s = .next (takeTrap s (Trap.of .barrierScope)) := by
  rw [exec_btest]
  refine runAgent_error ha ?_
  simp only [checkScalars_ok hx, hd, barOpen_scope hid, needOperand, need_true, bind, Except.bind]

theorem bstat_scope (hi : Bool) : exec (.bstat hi d a) s = .next (takeTrap s (Trap.of .barrierScope)) := by
  rw [exec_bstat]
  refine runAgent_error ha ?_
  simp only [checkScalars_ok (scalars_of_mem hx (ys := [a]) (by simp)), hd, barOpen_scope hid, needOperand, need_true, bind, Except.bind]

end

/-! ## BINIT (R227) -/

/-- The entry that a BINIT opens. -/
def opened (e : Env) (t : Team) (b : Src) (id : Nat) : Barrier :=
  Barrier.init (bits (srcScalar e t b).toNat 45 32) (bits (srcScalar e t b).toNat 31 0) (barScope id)

section
variable {d : Reg} {a b : Src} {id : Nat} (hx : Scalars t [a, b]) (hd : isScaDst d = true) (hid : barId s (s.env s.cur) t a = .ok id)
  (hmay : (!(s.env s.cur).ctl && (Nat.ble 1024 id || Nat.blt id (s.nbOf (s.env s.cur).gid))) = true)
  (hval : (Nat.blt (srcScalar (s.env s.cur) t b).toNat (2 ^ 46) && (srcScalar (s.env s.cur) t b).toNat != 0) = true)
include hx hd hid hmay hval

theorem binit_open {r : BarRef} {o : Barrier} (hr : s.barRef (s.env s.cur) id = some r) (ho : s.barAt r = some o) :
    exec (.binit d a b) s = .next (s.setAgent (s.env s.cur).ag
      ((t.writeScalar d (if bits (srcScalar (s.env s.cur) t b).toNat 45 32 = o.expA then 1 else 2)).advance (1 + a.words + b.words))) := by
  rw [exec_binit]
  refine runState_ok ha ?_
  simp only [checkScalars_ok hx, hd, hid, hmay, hval, needOperand, need_true, bind, Except.bind]
  rw [hr]
  dsimp only
  rw [ho]

variable (hr : s.barRef (s.env s.cur) id = none)
include hr

theorem binit_group (hlt : id < 1024) :
    exec (.binit d a b) s = .next ((s.openGroupBar (s.env s.cur).gid id (opened (s.env s.cur) t b id)).setAgent (s.env s.cur).ag
      ((t.writeScalar d 0).advance (1 + a.words + b.words))) := by
  rw [exec_binit]
  refine runState_ok ha ?_
  simp only [checkScalars_ok hx, hd, hid, hmay, hval, needOperand, need_true, bind, Except.bind]
  rw [hr]
  exact if_pos hlt

theorem binit_shared (hge : 1024 ≤ id) (hroom : s.entriesHeld (s.env s.cur).core < Config.barEntries)
    (hfit : s.barsFit (s.env s.cur).ctx (s.env s.cur).region 1 = true) :
    exec (.binit d a b) s = .next (({ s with
      bars := aset s.nextId { launch := (s.env s.cur).launch, die := (s.env s.cur).die, id := id, home := (s.env s.cur).core
                              b := opened (s.env s.cur) t b id } s.bars
      nextId := s.nextId + 1 } : State).setAgent (s.env s.cur).ag ((t.writeScalar d 0).advance (1 + a.words + b.words))) := by
  rw [exec_binit]
  refine runState_ok ha ?_
  simp only [checkScalars_ok hx, hd, hid, hmay, hval, needOperand, need_true, bind, Except.bind]
  rw [hr]
  exact (if_neg (Nat.not_lt.2 hge)).trans (if_pos ⟨hroom, hfit⟩)

theorem binit_noRoom (hge : 1024 ≤ id)
    (hno : Config.barEntries ≤ s.entriesHeld (s.env s.cur).core ∨ s.barsFit (s.env s.cur).ctx (s.env s.cur).region 1 = false) :
    exec (.binit d a b) s = .next (s.setAgent (s.env s.cur).ag ((t.writeScalar d 3).advance (1 + a.words + b.words))) := by
  have hfull : ¬(s.entriesHeld (s.env s.cur).core < Config.barEntries ∧ s.barsFit (s.env s.cur).ctx (s.env s.cur).region 1 = true) :=
    fun h => hno.elim (Nat.not_le.2 h.1) fun hf => Bool.false_ne_true (hf.symm.trans h.2)
  rw [exec_binit]
  refine runState_ok ha ?_
  simp only [checkScalars_ok hx, hd, hid, hmay, hval, needOperand, need_true, bind, Except.bind]
  rw [hr]
  exact (if_neg (Nat.not_lt.2 hge)).trans (if_neg hfull)

end

/-! ## BARV, BWAIT, BTEST, BEXP, BSTAT and BINV (R228 to R232) -/

section
variable {d : Reg} {a b : Src} {r : BarRef} {o : Barrier} (hx : Scalars t [a, b]) (hr : barOpen s (s.env s.cur) t a = .ok r)
  (ho : s.barAt r = some o)
include hx hr

theorem binv_ok : exec (.binv a) s =
    .next (((s.setAgent (s.env s.cur).ag (t.advance (1 + a.words))).endBarWaits r 0x20).closeBar r) := by
  rw [exec_binv]
  refine runState_ok ha ?_
  simp only [checkScalars_ok (scalars_of_mem hx (ys := [a]) (by simp)), hr, bind, Except.bind]

theorem bexp_ok (hn : (srcScalar (s.env s.cur) t b).toNat < 2 ^ 32) : exec (.bexp a b) s =
    .next ((s.modBar r fun x => x.bexp (srcScalar (s.env s.cur) t b).toNat).setAgent (s.env s.cur).ag (t.advance (1 + a.words + b.words))) := by
  have hlt : Nat.blt (srcScalar (s.env s.cur) t b).toNat (2 ^ 32) = true := Nat.blt_eq ▸ hn
  rw [exec_bexp]
  refine runState_ok ha ?_
  simp only [checkScalars_ok hx, hr, hlt, needOperand, need_true, bind, Except.bind]

variable (hd : isScaDst d = true)
include hd

theorem bwait_ok : exec (.bwait d a b) s = .next (s.awaitPhase (s.env s.cur) t r ((srcScalar (s.env s.cur) t b).toNat % 2 ^ 16)
    (1 + a.words + b.words) d) := by
  rw [exec_bwait]
  refine runState_ok ha ?_
  simp only [checkScalars_ok hx, hr, hd, needOperand, need_true, bind, Except.bind]

/-- A BARV `.wait` that has arrived only waits (R385). -/
theorem barv_again {p : Nat} (hp : t.arrived = some p) :
    exec (.barv true d a) s = .next (s.awaitPhase (s.env s.cur) t r p (1 + a.words) d) := by
  have hform : barvForm true d a s (s.env s.cur) t = .ok (s.awaitPhase (s.env s.cur) t r p (1 + a.words) d) := by
    simp only [barvForm, checkScalars_ok (scalars_of_mem hx (ys := [a]) (by simp)), hr, hd, needOperand, need_true, bind, Except.bind,
      if_true, hp]
  have hcommit : barvCommit true a (s.env s.cur) t = false := by simp [barvCommit, hp]
  rw [exec_barv]
  refine runState_ok ha ?_
  rw [hform]
  simp [hcommit]

include ho

theorem btest_some {v : Nat} (hv : o.status ((srcScalar (s.env s.cur) t b).toNat % 2 ^ 16) = some v) :
    exec (.btest d a b) s = .next (s.setAgent s.cur (((t.acquireBar o ((srcScalar (s.env s.cur) t b).toNat % 2 ^ 16)).writeScalar d
      (BitVec.ofNat 64 v)).advance (1 + a.words + b.words))) := by
  rw [exec_btest]
  refine runAgent_ok ha ?_
  simp only [checkScalars_ok hx, hr, hd, needOperand, need_true, bind, Except.bind]
  rw [ho]
  dsimp only
  rw [hv]

theorem btest_none (hv : o.status ((srcScalar (s.env s.cur) t b).toNat % 2 ^ 16) = none) :
    exec (.btest d a b) s = .next (s.setAgent s.cur ((t.writeScalar d (BitVec.allOnes 64)).advance (1 + a.words + b.words))) := by
  rw [exec_btest]
  refine runAgent_ok ha ?_
  simp only [checkScalars_ok hx, hr, hd, needOperand, need_true, bind, Except.bind]
  rw [ho]
  dsimp only
  rw [hv]

theorem bstat_ok (hi : Bool) :
    exec (.bstat hi d a) s = .next (s.setAgent s.cur ((t.writeScalar d (if hi then o.high else o.low)).advance (1 + a.words))) := by
  rw [exec_bstat]
  refine runAgent_ok ha ?_
  simp only [checkScalars_ok (scalars_of_mem hx (ys := [a]) (by simp)), hr, hd, needOperand, need_true, bind, Except.bind]
  rw [ho]

theorem barv_hold {wait : Bool} (hw : wait = true → t.arrived = none) (hcopy : s.inCopy (s.env s.cur) = true)
    (hid : 1024 ≤ (srcScalar (s.env s.cur) t a).toNat) :
    exec (.barv wait d a) s = .next (s.holdCommit (s.env s.cur) t (.barv wait d a)) := by
  have hform := barvForm_ok (scalars_of_mem hx (ys := [a]) (by simp)) hr ho hd hw
  have hble : Nat.ble 1024 (srcScalar (s.env s.cur) t a).toNat = true := Nat.ble_eq ▸ hid
  rw [exec_barv]
  refine runState_ok ha ?_
  rw [hform]
  dsimp only
  rw [barvCommit_eq hw, hcopy, hble]
  rfl

theorem barv_arrive {wait : Bool} (hw : wait = true → t.arrived = none)
    (hfree : s.inCopy (s.env s.cur) = false ∨ (srcScalar (s.env s.cur) t a).toNat < 1024) :
    exec (.barv wait d a) s = .next (if wait = true then
        (arrivedState s (s.env s.cur) t r o).awaitPhase (s.env s.cur) { t with arrived := some o.phase } r o.phase (1 + a.words) d
      else (arrivedState s (s.env s.cur) t r o).setAgent (s.env s.cur).ag
        ((t.writeScalar d (BitVec.ofNat 64 o.phase)).advance (1 + a.words))) := by
  have hform := barvForm_ok (scalars_of_mem hx (ys := [a]) (by simp)) hr ho hd hw
  rw [exec_barv]
  refine runState_ok ha ?_
  rw [hform]
  dsimp only
  rw [barvCommit_eq hw, if_neg]
  rw [Bool.and_eq_true, Nat.ble_eq]
  rintro ⟨hcopy, hid⟩
  rcases hfree with hf | hf
  · simp [hf] at hcopy
  · omega

end
end

/-- Settles O30: the scope trap of each instruction, the answers of BINIT, and the others on an OPEN entry. -/
theorem barriersResult : Obligations.BarriersResult := by
  intro s t ha
  refine ⟨fun d a b i hx hd hc hl hlo hhi hi => ?_, fun d a b id hx hd hid hc hnb h0 h46 => ?_, fun d a b r o hx hd hr ho => ?_⟩
  · have hid := barId_scope hc hl hlo hhi
    rcases hi with hi | ⟨xf, cq, rfl⟩
    · simp only [List.mem_cons, List.not_mem_nil, or_false] at hi
      rcases hi with rfl | rfl | rfl | rfl | rfl | rfl | rfl | rfl | rfl
      · exact binit_scope ha hx hd hid
      · exact barv_scope ha hx hd hid false
      · exact barv_scope ha hx hd hid true
      · exact bwait_scope ha hx hd hid
      · exact btest_scope ha hx hd hid
      · exact bexp_scope ha hx hid
      · exact bstat_scope ha hx hd hid false
      · exact bstat_scope ha hx hd hid true
      · exact binv_scope ha hx hid
    · exact copy_scope ha hx hid xf cq
  · have hmay : (!(s.env s.cur).ctl && (Nat.ble 1024 id || Nat.blt id (s.nbOf (s.env s.cur).gid))) = true := by
      rw [hc, Bool.not_false, Bool.true_and, Bool.or_eq_true, Nat.ble_eq, Nat.blt_eq]
      exact (le_or_gt 1024 id).imp (fun h => h) hnb
    have hval : (Nat.blt (srcScalar (s.env s.cur) t b).toNat (2 ^ 46) && (srcScalar (s.env s.cur) t b).toNat != 0) = true := by
      rw [Bool.and_eq_true, Nat.blt_eq, bne_iff_ne]
      exact ⟨h46, by omega⟩
    exact ⟨fun _ _ => binit_open ha hx hd hid hmay hval, binit_group ha hx hd hid hmay hval, binit_shared ha hx hd hid hmay hval,
      binit_noRoom ha hx hd hid hmay hval⟩
  · refine ⟨fun p hp => barv_again ha hx hr hd hp, fun wait hw => ⟨barv_hold ha hx hr ho hd hw, barv_arrive ha hx hr ho hd hw⟩,
      bwait_ok ha hx hr hd, ?_, bexp_ok ha hx hr, bstat_ok ha hx hr ho hd, binv_ok ha hx hr⟩
    cases hv : o.status ((srcScalar (s.env s.cur) t b).toNat % 2 ^ 16) with
    | some v => exact btest_some ha hx hr ho hd hv
    | none => exact btest_none ha hx hr ho hd hv

/-! ## The end of a TRD and of a granule wait (R27, R169, R170) -/

theorem trdComplete_ok {s : State} {id : Nat} {bad : List Nat} {o o1 : PendOp} {wide : Bool} (h : alook id s.pend = some o)
    (hk : o.kind = .trd wide)
    (ho1 : o1 = { o with lanes := o.lanes.map fun l => if bad.contains l.lane then { l with st := .failed } else l })
    (he : o1.error ≠ none → s.ramping (s.agentCore o.ag) = false) :
    exec (.trdComplete id bad) s = .next (if o.killed then ({ s with pend := adel id s.pend } : State)
      else ({ s with pend := adel id s.pend } : State).finishOp o.ag o1) := by
  have herr : (o1.error.isSome && s.ramping (s.agentCore o.ag)) = false := by
    cases hx : o1.error with
    | none => rfl
    | some x => simp [he (by simp [hx])]
  rw [exec_trdComplete]
  refine runEvent_of ?_
  simp only [bind, Option.bind, h]
  rw [← ho1, herr, hk]
  rfl

theorem granuleWaitEnd_ok {s : State} {tid k : Nat} {t : Team} {i : Instr} (hw : Waits s tid t (.granule i k))
    {f : State → Env → Team → Except Trap State} (hf : granuleForm i = some f) (hmay : s.mayIssue tid = true)
    (hgo : (s.reissue (.team tid) f).granuleWaiter tid = false) :
    exec (.granuleWaitEnd tid) s = .next (s.reissue (.team tid) f) := by
  obtain ⟨hlook, hst, hwait⟩ := hw
  rw [exec_granuleWaitEnd]
  refine runEvent_of ?_
  simp only [bind, Option.bind, hlook, hst, hwait, hf, hmay, hgo, Bool.not_false, Bool.and_self, if_true]

/-- The trap of a granule wait that has timed out. -/
def granuleTrap (s : State) (tid k : Nat) (t : Team) (i : Instr) (x : Tile) : Trap :=
  let need := granuleNeeds (s.env (.team tid)) t i
  { cause := .barrierTimeout, count := some (s.expiry tid t.since)
    mask := if need.2.2 then some (maskOf ((need.1.filter fun l => !s.granuleReady k x need.2.1 (l.2 / 16)).map fun l => l.1)) else none }

/-- Its diagnostic item. -/
def granuleItem (s : State) (tid k : Nat) (t : Team) (i : Instr) (x : Tile) : Diag :=
  let need := granuleNeeds (s.env (.team tid)) t i
  { kind := 1, id := x.handle, start := t.since, expiry := s.expiry tid t.since, home := (s.env (.team tid)).core
    off := ((need.1.filter fun l => !s.granuleReady k x need.2.1 (l.2 / 16)).foldl (fun (m : Nat) l => min m (l.2 / 16)) (x.size / 16)) * 16 }

/-- The timeout of a granule wait stops its team with BARRIER-TIMEOUT (R170). -/
theorem granuleTimeout_traps {s : State} {tid k : Nat} {t : Team} {i : Instr} (hw : Waits s tid t (.granule i k)) {x : Tile}
    (hx : alook k s.tiles = some x) (hexp : s.expired tid t.since = true)
    (hbad : ∃ l ∈ (granuleNeeds (s.env (.team tid)) t i).1, s.granuleReady k x (granuleNeeds (s.env (.team tid)) t i).2.1 (l.2 / 16) = false) :
    ∃ (tr : Trap) (it : Diag), exec (.granuleWaitTimeout tid) s = .next (s.watchTrap tid tr it) ∧ tr.cause = .barrierTimeout ∧
      tr.count = some (s.expiry tid t.since) ∧ it.start = t.since ∧ it.expiry = s.expiry tid t.since ∧ it.id = x.handle := by
  obtain ⟨hlook, hst, hwait⟩ := hw
  obtain ⟨l, hl, hready⟩ := hbad
  have hne : ((granuleNeeds (s.env (.team tid)) t i).1.filter fun l => !s.granuleReady k x (granuleNeeds (s.env (.team tid)) t i).2.1
      (l.2 / 16)).isEmpty = false := by
    rw [List.isEmpty_eq_false_iff]
    exact List.ne_nil_of_mem (List.mem_filter.2 ⟨hl, by simp [hready]⟩)
  rw [exec_granuleWaitTimeout]
  refine ⟨granuleTrap s tid k t i x, granuleItem s tid k t i x, runEvent_of ?_, rfl, rfl, rfl, rfl, rfl⟩
  simp only [State.granuleTimeout, bind, Option.bind, hlook, hst, hwait, hx]
  simp only [hne, hexp, Bool.not_false, Bool.and_self, if_true]
  rfl

theorem tileWaitsEnd : TileWaitsEnd := fun _ =>
  ⟨fun _ _ _ _ h hk he => trdComplete_ok h hk rfl he, fun _ _ _ _ hw => ⟨fun _ hf hmay hgo => granuleWaitEnd_ok hw hf hmay hgo,
    fun _ hx hexp hbad => granuleTimeout_traps hw hx hexp hbad⟩⟩

/-! ## What completes a phase, and the ends of its waits (R230, R233, R234, R384) -/

theorem putBar_frame (s : State) (r : BarRef) (f : Barrier → Barrier) :
    (s.putBar r f).teams = s.teams ∧ (s.putBar r f).core = s.core := by
  unfold State.putBar
  cases r with
  | group gid id =>
    dsimp only
    split
    · split <;> exact ⟨rfl, rfl⟩
    · exact ⟨rfl, rfl⟩
  | shared k =>
    dsimp only
    split <;> exact ⟨rfl, rfl⟩

/-- A step on an entry moves no group. -/
theorem putBar_place (s : State) (r : BarRef) (f : Barrier → Barrier) (k : Nat) :
    (alook k (s.putBar r f).groups).map Group.place = (alook k s.groups).map Group.place := by
  unfold State.putBar
  cases r with
  | group gid id =>
    dsimp only
    split
    next g hg =>
      split
      · rw [alook_aset]
        split
        next hk =>
          rw [hk, hg]
          rfl
        next => rfl
      · rfl
    next => rfl
  | shared j =>
    dsimp only
    split <;> rfl

theorem inActive_of_place {s s' : State} (ht : s'.teams = s.teams) (hc : s'.core = s.core)
    (hp : ∀ k, (alook k s'.groups).map Group.place = (alook k s.groups).map Group.place) (tid : Nat) : s'.inActive tid = s.inActive tid := by
  unfold State.inActive
  rw [ht, hc]
  split
  next t _ =>
    have hpl := hp t.gid
    cases h' : alook t.gid s'.groups <;> cases h : alook t.gid s.groups <;> simp_all
  next => rfl

theorem agentCore_of_place {s s' : State} (ht : s'.teams = s.teams)
    (hp : ∀ k, (alook k s'.groups).map Group.place = (alook k s.groups).map Group.place) (tid : Nat) :
    s'.agentCore (.team tid) = s.agentCore (.team tid) := by
  unfold State.agentCore
  dsimp only
  rw [ht]
  split
  next t _ =>
    have hpl := hp t.gid
    cases h' : alook t.gid s'.groups <;> cases h : alook t.gid s.groups <;> simp_all
  next => rfl

theorem barAt_putBar {s : State} {r : BarRef} {b : Barrier} (h : s.barAt r = some b) (f : Barrier → Barrier) :
    (s.putBar r f).barAt r = some (f b) := by
  unfold State.barAt State.putBar at *
  cases r with
  | group gid id =>
    cases hg : alook gid s.groups with
    | none => simp [hg] at h
    | some g => simp_all
  | shared k =>
    cases hk : alook k s.bars with
    | none => simp [hk] at h
    | some x => simp_all

theorem served_waiter {t : Team} {r : BarRef} {p n v : Nat} {d : Reg} {b : Barrier} (hst : t.st = .waiting)
    (hw : t.wait = .barrier r p n d none) (hv : b.status p = some v) :
    t.served r b = { t.acquireBar b p with wait := .barrier r p n d (some v) } := by
  unfold Team.served
  split
  next q p' n' d' _ hwait =>
    obtain ⟨rfl, rfl, rfl, rfl, -⟩ := Wait.barrier.inj (hw.symm.trans hwait)
    simp only [if_true, hv]
    rfl
  next hno => exact absurd hw (hno _ _ _ _ hst)

/-- What completes a phase serves a team of an active bank that waits for it (R230). -/
theorem modBar_serves {s : State} {tid p n v : Nat} {t : Team} {r : BarRef} {d : Reg} {b : Barrier} {f : Barrier → Barrier}
    (hw : Waits s tid t (.barrier r p n d none)) (hb : s.barAt r = some b) (hv : (f b).status p = some v) (hact : s.inActive tid = true)
    (hswap : (s.core (s.agentCore (.team tid))).swap = none) :
    alook tid (s.modBar r f).teams = some { t.acquireBar (f b) p with wait := .barrier r p n d (some v) } := by
  obtain ⟨hlook, hst, hwait⟩ := hw
  obtain ⟨hteams, hcore⟩ := putBar_frame s r f
  have hplace := putBar_place s r f
  unfold State.modBar State.serve
  rw [barAt_putBar hb f]
  dsimp only
  rw [alook_amap, hteams, hlook, Option.map_some, inActive_of_place hteams hcore hplace, hcore, agentCore_of_place hteams hplace, hact, hswap]
  simp only [Option.isNone_none, Bool.and_self, if_true, served_waiter hst hwait hv]

theorem barrierWaitWake_ok {s : State} {tid p n v : Nat} {t : Team} {r : BarRef} {d : Reg}
    (hw : Waits s tid t (.barrier r p n d (some v))) (hmay : s.mayIssue tid = true) :
    exec (.barrierWaitWake tid) s = .next { s with
      teams := aset tid ((({ t with st := .ready, wait := .none, arrived := none } : Team).writeScalar d (BitVec.ofNat 64 v)).advance n) s.teams } := by
  obtain ⟨hlook, hst, hwait⟩ := hw
  rw [exec_barrierWaitWake]
  refine runEvent_of ?_
  simp only [bind, Option.bind, hlook]
  rw [hst, hwait]
  simp only [hmay, if_true]

/-- The trap that the watchdog of team `tid` gives team `j`. -/
def phaseTrap (s : State) (tid since j : Nat) : Trap :=
  { cause := .barrierTimeout, count := if s.agentCore (.team j) == s.agentCore (.team tid) then some (s.expiry tid since) else none }

/-- The id of an entry. -/
def entryId (s : State) (r : BarRef) : Nat :=
  match r with
  | .group _ id => id
  | .shared k => match alook k s.bars with
    | some x => x.id
    | none => 0

/-- The diagnostic item of team `j` of a phase that has timed out. -/
def phaseItem (s : State) (tid since p : Nat) (r : BarRef) (b : Barrier) (j : Nat) : Diag :=
  { kind := 0, phase := p, id := entryId s r, scope := b.scope, cntb := b.cntB, expb := b.expB, cnta := b.cntA, expa := b.expA
    arr := match (s.groupOf (.team j)).map Prod.snd with
      | some x => tixMask x b.arr
      | none => 0
    start := since, expiry := s.expiry tid since, home := s.barHome r }

/-- The watchdog of the first waiter stops every team that waits for the phase (R233, R384). -/
theorem barrierTimeout_stops {s : State} {tid p n : Nat} {t : Team} {r : BarRef} {d : Reg} {b : Barrier}
    (hw : Waits s tid t (.barrier r p n d none)) (hb : s.barAt r = some b) (hv : b.status p = none)
    (hfirst : b.wq.find? (fun k => (s.phaseWaiters r p).contains k) = some tid) (hexp : s.expired tid t.since = true) :
    exec (.barrierTimeout tid) s = .next ((s.bySlot (s.phaseWaiters r p)).foldl
      (fun (st : State) k => st.watchTrap k (phaseTrap s tid t.since k) (phaseItem s tid t.since p r b k)) s) := by
  obtain ⟨hlook, hst, hwait⟩ := hw
  rw [exec_barrierTimeout]
  refine runEvent_of ?_
  simp only [State.barrierTimeout, bind, Option.bind, hlook]
  rw [hwait]
  simp only [hb, hfirst, hv, hexp, Option.isNone_none, and_self, if_true]
  rfl

theorem phaseTrap_count (s : State) (tid since : Nat) : (phaseTrap s tid since tid).count = some (s.expiry tid since) := by
  simp [phaseTrap]

theorem barrierWaitsEnd : BarrierWaitsEnd :=
  ⟨fun _ _ _ _ _ _ _ _ _ _ => modBar_serves, fun _ _ _ _ _ _ _ _ => barrierWaitWake_ok, fun s tid p _ t r _ b hw hb hv hfirst hexp => ⟨phaseItem s tid t.since p r b, phaseTrap s tid t.since,
      fun _ => ⟨rfl, rfl, rfl, rfl, rfl, rfl, rfl, rfl⟩, phaseTrap_count s tid t.since, barrierTimeout_stops hw hb hv hfirst hexp⟩⟩

/-- Settles O31: the ends of tile accesses and of barrier waits. -/
theorem tileAndBarrierWaitsEnd : Obligations.TileAndBarrierWaitsEnd := ⟨tileWaitsEnd, barrierWaitsEnd⟩

end Sys2Proof.BarrierWaits
end

section
/-!
PROOF. FENCE, QFENCE and TLBINV, and the ends of their waits (R240 to R247, R321).
-/
namespace Sys2Proof.Fences
open Sys2Proof Sys2Proof.Machine Sys2Proof.Claims Sys2Proof.Laws Sys2Proof.LaneResults Sys2Proof.MemoryAccess Sys2Proof.TileAccess

section
variable {s : State} {t : Team} (ha : s.agent s.cur = some t)
include ha

section
variable (k : FenceKind) {obs : BitVec 7} (hobs : obs ≠ 0)
include hobs

theorem fence_done (hops : s.fenceOps (s.env s.cur).ag t k = []) :
    exec (.fence k obs) s = .next (s.endFence (s.env s.cur).ag t k obs) := by
  have hmask : (obs != 0) = true := bne_iff_ne.2 hobs
  rw [exec_fence]
  refine runState_ok ha ?_
  simp only [hmask, needOperand, need_true, bind, Except.bind]
  rw [hops]
  rfl

theorem fence_waits (hops : s.fenceOps (s.env s.cur).ag t k ≠ []) :
    exec (.fence k obs) s = .next (s.setAgent (s.env s.cur).ag
      { t with st := .waiting, wait := .fence k obs (s.fenceOps (s.env s.cur).ag t k) }) := by
  have hmask : (obs != 0) = true := bne_iff_ne.2 hobs
  rw [exec_fence]
  refine runState_ok ha ?_
  simp only [hmask, needOperand, need_true, bind, Except.bind]
  rw [isEmpty_false hops]
  rfl

end

section
variable {wait : Bool} {qm : BitVec 7} (hq : qm ≠ 0)
include hq

theorem qfence_goesOn (h : wait = false ∨ s.posted (s.env s.cur).core qm.toNat = []) :
    exec (.qfence wait qm) s = .next ((s.placeJoin (s.env s.cur).core qm.toNat (s.posted (s.env s.cur).core qm.toNat)).setAgent (s.env s.cur).ag
      ({ t with hb := t.hb ++ (if wait then t.postedTo qm.toNat else []) }.advance 1)) := by
  have hmask : (qm != 0) = true := bne_iff_ne.2 hq
  have hgo : ¬(wait && !(s.posted (s.env s.cur).core qm.toNat).isEmpty) = true := by
    rcases h with h | h <;> simp [h]
  rw [exec_qfence]
  refine runState_ok ha ?_
  simp only [hmask, needOperand, need_true, bind, Except.bind]
  exact if_neg hgo

theorem qfence_waits (hw : wait = true) (h : s.posted (s.env s.cur).core qm.toNat ≠ []) :
    exec (.qfence wait qm) s = .next ((s.placeJoin (s.env s.cur).core qm.toNat (s.posted (s.env s.cur).core qm.toNat)).setAgent (s.env s.cur).ag
      { t with st := .waiting, wait := .qfence (s.posted (s.env s.cur).core qm.toNat ++ t.postedTo qm.toNat) }) := by
  have hmask : (qm != 0) = true := bne_iff_ne.2 hq
  rw [exec_qfence]
  refine runState_ok ha ?_
  simp only [hmask, needOperand, need_true, bind, Except.bind]
  exact if_pos (by rw [hw, isEmpty_false h]; rfl)

end

section
variable {k : TlbK} {d a b : Src} {r : TlbRange} (hl : levelRank t.level = 2) (hx : Scalars t [d, a, b])
  (hr : tlbRange (s.env s.cur) t k d a b = some r)
include hl hx hr

theorem tlbinv_removes (hops : s.fenceOps (s.env s.cur).ag t .rel = []) :
    exec (.tlbinv k d a b) s =
      .next (s.tlbRemove (s.env s.cur).ag t (.tlbinv k d a b) (1 + d.words + a.words + b.words) r) := by
  have hlevel : checkLevel t .system = .ok () := by
    rw [checkLevel, hl]
    rfl
  rw [exec_tlbinv]
  refine runState_ok ha ?_
  simp only [tlbinvForm, hlevel, checkScalars_ok hx, bind, Except.bind]
  rw [hr]
  dsimp only
  rw [hops]
  rfl

theorem tlbinv_waits (hops : s.fenceOps (s.env s.cur).ag t .rel ≠ []) :
    exec (.tlbinv k d a b) s = .next (s.setAgent (s.env s.cur).ag
      { t with st := .waiting, wait := .tlbinv (.tlbinv k d a b) (s.fenceOps (s.env s.cur).ag t .rel) false }) := by
  have hlevel : checkLevel t .system = .ok () := by
    rw [checkLevel, hl]
    rfl
  rw [exec_tlbinv]
  refine runState_ok ha ?_
  simp only [tlbinvForm, hlevel, checkScalars_ok hx, bind, Except.bind]
  rw [hr]
  dsimp only
  rw [isEmpty_false hops]
  rfl

end
end

/-! ## The ends of the waits -/

theorem all_done {ops : List Nat} {p : Nat → Bool} (h : ∀ k ∈ ops, p k = false) : (ops.all fun k => !p k) = true := by
  rw [List.all_eq_true]
  intro k hk
  rw [h k hk]
  rfl

section
variable {s : State} {tid : Nat} {t : Team} (ha : s.agent (s.waiterOf tid) = some t) (hst : t.st = .waiting)
include ha hst

theorem fenceWaitEnd_fence {f : FenceKind} {obs : BitVec 7} {ops : List Nat} (hw : t.wait = .fence f obs ops)
    (hdone : ∀ k ∈ ops, s.opOpen k = false) :
    exec (.fenceWaitEnd tid) s = .next (s.endFence (s.waiterOf tid) t f obs) := by
  rw [exec_fenceWaitEnd]
  refine runEvent_of ?_
  simp only [bind, Option.bind, ha]
  rw [hst, hw]
  exact if_pos (all_done hdone)

theorem fenceWaitEnd_order {ops : List Nat} (hw : t.wait = .order ops) (hdone : ∀ k ∈ ops, s.opOpen k = false) :
    exec (.fenceWaitEnd tid) s = .next (s.setAgent (s.waiterOf tid) { t with st := .ready, wait := .none }) := by
  rw [exec_fenceWaitEnd]
  refine runEvent_of ?_
  simp only [bind, Option.bind, ha]
  rw [hst, hw]
  exact if_pos (all_done hdone)

theorem fenceWaitEnd_tlbinv {k : TlbK} {d a b : Src} {ops : List Nat} (hw : t.wait = .tlbinv (.tlbinv k d a b) ops true)
    (hdone : ∀ j ∈ ops, s.stillToDo j = false) :
    exec (.fenceWaitEnd tid) s = .next (s.setAgent (s.waiterOf tid)
      (({ t with st := .ready, wait := .none } : Team).advance (1 + d.words + a.words + b.words))) := by
  rw [exec_fenceWaitEnd]
  refine runEvent_of ?_
  simp only [bind, Option.bind, ha]
  rw [hst, hw]
  exact if_pos (all_done hdone)

theorem qfenceWaitEnd_ok {ops : List Nat} (hw : t.wait = .qfence ops) (hdone : ∀ k ∈ ops, s.engineOpen k = false) :
    exec (.qfenceWaitEnd tid) s = .next (s.setAgent (s.waiterOf tid)
      (({ t with st := .ready, wait := .none, hb := t.hb ++ ops } : Team).advance 1)) := by
  rw [exec_qfenceWaitEnd]
  refine runEvent_of ?_
  simp only [bind, Option.bind, ha]
  rw [hst, hw]
  exact if_pos (all_done hdone)

end

/-- Settles O29: each of the three instructions with nothing and with something open, and the ends of their waits. -/
theorem fencesResult : Obligations.FencesResult := fun _ =>
  ⟨fun _ ha => ⟨fun k _ hobs => ⟨fence_done ha k hobs, fence_waits ha k hobs⟩, fun _ _ hq => ⟨qfence_goesOn ha hq, qfence_waits ha hq⟩,
      fun _ _ _ _ _ hl hx hr => ⟨tlbinv_removes ha hl hx hr, tlbinv_waits ha hl hx hr⟩⟩,
    fun _ _ ha hst => ⟨fun _ _ _ => fenceWaitEnd_fence ha hst, fun _ => fenceWaitEnd_order ha hst, fun _ => qfenceWaitEnd_ok ha hst,
      fun _ _ _ _ _ => fenceWaitEnd_tlbinv ha hst⟩⟩

end Sys2Proof.Fences
end

section
/-!
PROOF. The queue instructions and the commands of the Picker and of the scan units (R241, R262 to R267, R312, R332, R333), join updates
and host submission (R258, R259, R263).
-/
namespace Sys2Proof.Queues
open Sys2Proof Sys2Proof.Machine Sys2Proof.Claims Sys2Proof.Laws Sys2Proof.LaneResults Sys2Proof.ControlFlow Sys2Proof.SystemState
  Sys2Proof.MemoryAccess Sys2Proof.TileAccess

/-! ## ENQ and CONT (R263, R264) -/

/-- What an ENQ leaves that has read its record. -/
theorem enqForm_ok {s : State} {t : Team} {d : Reg} {a : Src} {ws : List W64} (hx : Scalars t [a]) (hd : isScaDst d = true)
    (hws : readRecord s (s.env s.cur) t (srcScalar (s.env s.cur) t a) = .ok ws) :
    enqForm d a s (s.env s.cur) t = .ok (if s.stillOpen (s.env s.cur).ag t false ≠ [] then
        s.waitOrder (s.env s.cur) t (s.stillOpen (s.env s.cur).ag t false)
      else ((((s.postRecord (s.env s.cur).ctx (some (s.env s.cur).region) (s.env s.cur).die false ws t.released).2.fetchRecord (s.env s.cur) t
          (srcScalar (s.env s.cur) t a)).committed (s.env s.cur).gid).setAgent (s.env s.cur).ag
        (((t.sawRecord s (s.env s.cur) (srcScalar (s.env s.cur) t a)).writeScalar d (BitVec.ofNat 64
          (s.postRecord (s.env s.cur).ctx (some (s.env s.cur).region) (s.env s.cur).die false ws t.released).1)).advance (1 + a.words)))) := by
  simp only [enqForm, checkScalars_ok hx, hd, hws, needOperand, need_true, bind, Except.bind]
  cases hops : s.stillOpen (s.env s.cur).ag t false with
  | nil => simp
  | cons x xs => simp

theorem scalars_z (t : Team) : Scalars t [.reg .z] := by
  intro x hx
  rw [List.mem_singleton.1 hx]
  exact ⟨rfl, rfl⟩

section
variable {s : State} {t : Team} (hctl : t.ctl = false) (herr : t.errs = [])
include hctl herr

theorem contForm_z : contForm (.reg .z) s (s.env s.cur) t = .ok (s.endGroup (s.env s.cur).gid) := by
  have hno : needNoErrs t = .ok () := by rw [needNoErrs, herr]
  have hteam : (!t.ctl) = true := by rw [hctl]; rfl
  simp only [contForm, checkScalars_ok (scalars_z t), hteam, hno, needOperand, need_true, bind, Except.bind, if_true]

variable {a : Src} {ws : List W64} (hx : Scalars t [a]) (hz : a ≠ .reg .z)
  (hws : readRecord s (s.env s.cur) t (srcScalar (s.env s.cur) t a) = .ok ws)
include hx hz hws

theorem contForm_waits (hops : s.stillOpen (s.env s.cur).ag t false ≠ []) :
    contForm a s (s.env s.cur) t = .ok (s.waitOrder (s.env s.cur) t (s.stillOpen (s.env s.cur).ag t false)) := by
  have hno : needNoErrs t = .ok () := by rw [needNoErrs, herr]
  have hteam : (!t.ctl) = true := by rw [hctl]; rfl
  simp only [contForm, checkScalars_ok hx, hteam, hno, needOperand, need_true, bind, Except.bind, hz, if_false, hws, isEmpty_false hops,
    Bool.not_false, if_true]
  rfl

variable (hops : s.stillOpen (s.env s.cur).ag t false = [])
include hops

theorem contForm_refused
    (hst : s.postStatus (s.env s.cur).ctx (some (s.env s.cur).region) (s.env s.cur).die true (Task.parse ws) ≠ 0) :
    contForm a s (s.env s.cur) t = .error (Trap.of .queue) := by
  have hno : needNoErrs t = .ok () := by rw [needNoErrs, herr]
  have hteam : (!t.ctl) = true := by rw [hctl]; rfl
  have hbad : (s.postStatus (s.env s.cur).ctx (some (s.env s.cur).region) (s.env s.cur).die true (Task.parse ws) == 0) = false :=
    beq_eq_false_iff_ne.2 hst
  simp only [contForm, checkScalars_ok hx, hteam, hno, needOperand, need_true, bind, Except.bind, hz, if_false, hws]
  rw [hops, hbad]
  rfl

theorem contForm_posts (hst : s.postStatus (s.env s.cur).ctx (some (s.env s.cur).region) (s.env s.cur).die true (Task.parse ws) = 0) :
    contForm a s (s.env s.cur) t = .ok (((s.append (s.env s.cur).ctx (s.env s.cur).die true ws t.released).fetchRecord (s.env s.cur) t
      (srcScalar (s.env s.cur) t a)).endGroup (s.env s.cur).gid) := by
  have hno : needNoErrs t = .ok () := by rw [needNoErrs, herr]
  have hteam : (!t.ctl) = true := by rw [hctl]; rfl
  simp only [contForm, checkScalars_ok hx, hteam, hno, needOperand, need_true, bind, Except.bind, hz, if_false, hws]
  rw [hops, hst]
  rfl

end

/-- Settles O32: ENQ and CONT are commits of what their forms leave. -/
theorem enqueueAndContinueResult : Obligations.EnqueueAndContinueResult := by
  intro s t ha
  refine ⟨fun d a ws hx hd hws => ?_, fun hctl herr => ⟨fun hc => ?_, fun hc => ?_, fun a ws hx hz hws => ⟨fun hops hst => ?_,
    fun hc hgo => ?_, fun hc hops => ?_, fun hc hops hst => ?_⟩⟩⟩
  · have hform := enqForm_ok hx hd hws
    rw [exec_enq]
    refine ⟨fun hc => runCommit_hold ha hc hform, fun hc hops => ?_, fun hc hops => ?_⟩
    · rw [if_pos hops] at hform
      exact runCommit_ok ha hc hform
    · rw [if_neg (not_not.2 hops)] at hform
      exact runCommit_ok ha hc hform
  · rw [exec_cont]
    exact runCommit_hold ha hc (contForm_z hctl herr)
  · rw [exec_cont]
    exact runCommit_ok ha hc (contForm_z hctl herr)
  · rw [exec_cont]
    exact runCommit_error ha (contForm_refused hctl herr hx hz hws hops hst)
  · rw [exec_cont]
    by_cases hops : s.stillOpen (s.env s.cur).ag t false = []
    · exact runCommit_hold ha hc (contForm_posts hctl herr hx hz hws hops (hgo.resolve_left (not_not.2 hops)))
    · exact runCommit_hold ha hc (contForm_waits hctl herr hx hz hws hops)
  · rw [exec_cont]
    exact runCommit_ok ha hc (contForm_waits hctl herr hx hz hws hops)
  · rw [exec_cont]
    exact runCommit_ok ha hc (contForm_posts hctl herr hx hz hws hops hst)

/-! ## The deque (R265, R312) -/

theorem dst_and_blt {d : Reg} {n m : Nat} (hd : isScaDst d = true) (h : n < m) : (isScaDst d && Nat.blt n m) = true := by
  rw [hd, Bool.true_and, Nat.blt_eq]
  exact h

section
variable {s : State} {t : Team} (ha : s.agent s.cur = some t)
include ha

section
variable {d : Reg} {a : Src} (hr : s.redundant (s.env s.cur) = true)
include hr

theorem pusht_queue (hd : isScaDst d = true) (hx : Scalars t [a]) (h0 : srcScalar (s.env s.cur) t a ≠ 0) :
    exec (.pusht d a) s = .next (takeTrap s (Trap.of .queue)) := by
  have hops : (isScaDst d && srcScalar (s.env s.cur) t a != 0) = true := by rw [hd, bne_iff_ne.2 h0]; rfl
  rw [exec_pusht]
  refine runState_error ha ?_
  simp only [checkScalars_ok hx, hops, needOperand, need_true, bind, Except.bind]
  rw [hr]
  rfl

theorem popt_queue (hd : isScaDst d = true) : exec (.popt d) s = .next (takeTrap s (Trap.of .queue)) := by
  rw [exec_popt]
  refine runState_error ha ?_
  simp only [hd, needOperand, need_true, bind, Except.bind]
  rw [hr]
  rfl

theorem steal_queue (hd : isScaDst d = true) (hx : Scalars t [a]) (hv : (srcScalar (s.env s.cur) t a).toNat < Config.nCores) :
    exec (.steal d a) s = .next (takeTrap s (Trap.of .queue)) := by
  have hops : (isScaDst d && Nat.blt (srcScalar (s.env s.cur) t a).toNat Config.nCores) = true := dst_and_blt hd hv
  rw [exec_steal]
  refine runState_error ha ?_
  simp only [checkScalars_ok hx, hops, needOperand, need_true, bind, Except.bind]
  rw [hr]
  rfl

theorem pick_queue (o : PickOp) {b : Option Src} (hx : Scalars t (a :: b.toList)) :
    exec (.pick o a (.reg .z) b) s = .next (takeTrap s (Trap.of .queue)) := by
  have hsrc : checkSrcs t [.reg .z] = .ok () := rfl
  have hvec : isVec t (.reg .z) = false := rfl
  have hz : (o != .emit || (Src.reg .z) == .reg .z) = true := by simp
  rw [exec_pick]
  refine runState_error ha ?_
  simp only [hsrc, checkScalars_ok hx, hz, hvec, needOperand, need_true, bind, Except.bind, Bool.false_eq_true, if_false]
  rw [hr]
  rfl

end

section
variable {d : Reg} {a : Src} (hr : s.redundant (s.env s.cur) = false) (hd : isScaDst d = true)
include hr hd

theorem pusht_ok (hx : Scalars t [a]) (h0 : srcScalar (s.env s.cur) t a ≠ 0) :
    exec (.pusht d a) s = .next (if Config.dequeLimit ≤ (s.core (s.env s.cur).core).active.deque.length then
        (s.committed (s.env s.cur).gid).setAgent (s.env s.cur).ag ((t.writeScalar d 1).advance (1 + a.words))
      else ((s.committed (s.env s.cur).gid).setAgent (s.env s.cur).ag ((t.writeScalar d 0).advance (1 + a.words))).modCore (s.env s.cur).core
        fun y => y.modActive fun b => { b with deque := b.deque ++ [(srcScalar (s.env s.cur) t a, t.released)] }) := by
  have hops : (isScaDst d && srcScalar (s.env s.cur) t a != 0) = true := by rw [hd, bne_iff_ne.2 h0]; rfl
  rw [exec_pusht]
  refine runState_ok ha ?_
  simp only [checkScalars_ok hx, hops, needOperand, need_true, bind, Except.bind, hr, Bool.not_false]
  split <;> rfl

theorem popt_empty (hq : (s.core (s.env s.cur).core).active.deque = []) :
    exec (.popt d) s = .next ((s.committed (s.env s.cur).gid).setAgent (s.env s.cur).ag ((t.writeScalar d 0).advance 1)) := by
  rw [exec_popt]
  refine runState_ok ha ?_
  simp only [hd, needOperand, need_true, bind, Except.bind, hr, Bool.not_false]
  rw [hq]
  rfl

theorem popt_last {q : List (W64 × List Nat)} {x : W64 × List Nat} (hq : (s.core (s.env s.cur).core).active.deque = q ++ [x]) :
    exec (.popt d) s = .next (((s.committed (s.env s.cur).gid).setAgent (s.env s.cur).ag (((t.acquires x.2).writeScalar d x.1).advance 1)).modCore
      (s.env s.cur).core fun y => y.modActive fun b => { b with deque := b.deque.dropLast }) := by
  have hlast : (s.core (s.env s.cur).core).active.deque.getLast? = some x := by rw [hq]; simp
  rw [exec_popt]
  refine runState_ok ha ?_
  simp only [hd, needOperand, need_true, bind, Except.bind, hr, Bool.not_false]
  rw [hlast]

variable (hx : Scalars t [a]) (hv : (srcScalar (s.env s.cur) t a).toNat < Config.nCores)
include hx hv

theorem steal_empty (hq : (s.core (srcScalar (s.env s.cur) t a).toNat).active.ctx ≠ some (s.env s.cur).ctx ∨
      (s.core (srcScalar (s.env s.cur) t a).toNat).active.deque = []) :
    exec (.steal d a) s =
      .next ((s.committed (s.env s.cur).gid).setAgent (s.env s.cur).ag ((t.writeScalar d 0).advance (1 + a.words))) := by
  have hops : (isScaDst d && Nat.blt (srcScalar (s.env s.cur) t a).toNat Config.nCores) = true := dst_and_blt hd hv
  have hnil : (if (s.core (srcScalar (s.env s.cur) t a).toNat).active.ctx = some (s.env s.cur).ctx then
      (s.core (srcScalar (s.env s.cur) t a).toNat).active.deque else []) = [] := by
    rcases hq with hq | hq
    · exact if_neg hq
    · rw [hq, ite_self]
  rw [exec_steal]
  refine runState_ok ha ?_
  simp only [checkScalars_ok hx, hops, needOperand, need_true, bind, Except.bind, hr, Bool.not_false]
  rw [hnil]

theorem steal_head {x : W64 × List Nat} {r : List (W64 × List Nat)}
    (hc : (s.core (srcScalar (s.env s.cur) t a).toNat).active.ctx = some (s.env s.cur).ctx)
    (hq : (s.core (srcScalar (s.env s.cur) t a).toNat).active.deque = x :: r) :
    exec (.steal d a) s = .next (((s.committed (s.env s.cur).gid).setAgent (s.env s.cur).ag
      (((t.acquires x.2).writeScalar d x.1).advance (1 + a.words))).modCore (srcScalar (s.env s.cur) t a).toNat fun y =>
        y.modActive fun b => { b with deque := b.deque.drop 1 }) := by
  have hops : (isScaDst d && Nat.blt (srcScalar (s.env s.cur) t a).toNat Config.nCores) = true := dst_and_blt hd hv
  rw [exec_steal]
  refine runState_ok ha ?_
  simp only [checkScalars_ok hx, hops, needOperand, need_true, bind, Except.bind, hr, Bool.not_false]
  rw [if_pos hc, hq]

end
end

/-- Settles O33: QUEUE in a REDUNDANT region, and else what each of the three does to the deque. -/
theorem dequeResult : Obligations.DequeResult := by
  intro s t ha
  refine ⟨fun hr d a hd hx => ⟨pusht_queue ha hr hd hx, popt_queue ha hr hd, steal_queue ha hr hd hx, fun o b hb => pick_queue ha hr o hb⟩,
    fun hr => ⟨fun d a hx hd h0 => ⟨fun hq => ?_, fun hq => ?_⟩, fun d hd => ⟨popt_empty ha hr hd, fun q x => popt_last ha hr hd⟩,
      fun d a hx hd hv => ⟨steal_empty ha hr hd hx hv, fun x r => steal_head ha hr hd hx hv⟩⟩⟩
  · rw [pusht_ok ha hr hd hx h0, if_neg (Nat.not_le.2 hq)]
  · rw [pusht_ok ha hr hd hx h0, if_pos hq]

/-! ## PICK and SCAN (R262, R267, R332, R333) -/

section
variable {s : State} {t : Team} {b : Option Src} {r : Option BarRef} (ha : s.agent s.cur = some t)
  (hb : barOperand s (s.env s.cur) t b = .ok r)
include ha hb

theorem pick_ok {o : PickOp} {d a : Src} (ho : okSrc t a = true) (hx : Scalars t (d :: b.toList)) (hz : o = .emit → a = .reg .z)
    (hv : isVec t a = true → Vectors t) (hr : s.redundant (s.env s.cur) = false)
    (hdesc : checkDesc s (s.env s.cur) t (srcScalar (s.env s.cur) t d) (if o = .emit then 64 else 8) = .ok ()) {idx : List Nat}
    (hidx : (if isVec t a then t.liveLanes.map fun l => (srcLane (s.env s.cur) t a l).toNat else [(srcScalar (s.env s.cur) t a).toNat]) = idx) :
    exec (.pick o d a b) s = .next (((idx.foldl (fun (st : State) i => st.postCmd (newCmd s (s.env s.cur) t (PickOp.kind o i)
        (srcScalar (s.env s.cur) t d) r)) (s.useAll (s.env s.cur) [srcScalar (s.env s.cur) t d, srcScalar (s.env s.cur) t d + 56])).committed
        (s.env s.cur).gid).setAgent (s.env s.cur).ag (((List.range idx.length).foldl (fun (u : Team) k => u.posted 5 (s.nextId + k)) t).advance
        (1 + d.words + a.words + Src.optWords b))) := by
  have hsrc : checkSrcs t [a] = .ok () := checkSrcs_ok (by simpa using ho)
  have hops : (o != .emit || a == .reg .z) = true := by
    rw [Bool.or_eq_true, bne_iff_ne, beq_iff_eq]
    exact (em (o = .emit)).symm.imp id hz
  rw [exec_pick]
  refine runState_ok ha ?_
  simp only [hsrc, checkScalars_ok hx, hops, hr, hb, hdesc, needOperand, need_true, bind, Except.bind, Bool.not_false, hidx]
  cases hvec : isVec t a with
  | false => rfl
  | true => simp only [if_true, checkSh0_ok (hv hvec).1 (hv hvec).2, CmdKind.queue]

theorem scan_ok {a : Src} (hx : Scalars t (a :: b.toList))
    (hdesc : checkDesc s (s.env s.cur) t (srcScalar (s.env s.cur) t a) 64 = .ok ()) :
    exec (.scan a b) s = .next (((s.useAll (s.env s.cur) [srcScalar (s.env s.cur) t a]).postCmd
      (newCmd s (s.env s.cur) t .scan (srcScalar (s.env s.cur) t a) r)).setAgent (s.env s.cur).ag
      ((t.posted 6 s.nextId).advance (1 + a.words + Src.optWords b))) := by
  rw [exec_scan]
  refine runState_ok ha ?_
  simp only [checkScalars_ok hx, hb, hdesc, bind, Except.bind, CmdKind.queue]

end

/-! ## The engines of the commands (R267, R333) -/

/-- A command that has done its work. -/
def commandDone (s s1 : State) (id : Nat) (c : EngCmd) : State :=
  ((s1.walksFor c.ctx c.die [c.desc]).addOrder id (s.closure c.after)).endCmd id c

theorem finishCmd_ok {s s1 : State} {id : Nat} {c : EngCmd} (hf : c.fail = none) :
    s.finishCmd id c (.ok s1) = some (commandDone s s1 id c) := by
  unfold State.finishCmd
  rw [hf]
  rfl

theorem finishCmd_code {s : State} {id n : Nat} {c : EngCmd} (hf : c.fail = none) :
    s.finishCmd id c (.error (.code n)) = some (s.failCmd id c n) := by
  unfold State.finishCmd
  rw [hf]

theorem finishCmd_failed {s : State} {id n : Nat} {c : EngCmd} {r : Except EngErr State} (hf : c.fail = some n) :
    s.finishCmd id c r = some (s.failCmd id c n) := by
  unfold State.finishCmd
  rw [hf]

theorem pickCommand_ok {s s' : State} {die id : Nat} {c : EngCmd}
    (h : afind (fun _ c => c.die == die && c.kind != .scan) s.cmds = some (id, c)) (hready : s.cmdReady id c = true)
    (hs : s.finishCmd id c (s.pickRun id c) = some s') : exec (.pickCommandExecute die) s = .next s' := by
  rw [exec_pickCommandExecute]
  refine runEvent_of ?_
  simp only [bind, Option.bind, h, hready, if_true, hs]

section
variable {s : State} {id : Nat} {c : EngCmd} {picked : List Nat} (h : alook id s.cmds = some c) (hk : c.kind = .scan)
  (hready : s.cmdReady id c = true) (hfirst : ∀ x ∈ s.cmds, x.1 < id → ¬(x.2.core = c.core ∧ x.2.kind = .scan))
include hfirst

/-- No earlier scan of the core is open. -/
theorem no_earlier_scan : aany (fun k d => Nat.blt k id && d.core == c.core && d.kind == .scan) s.cmds = false := by
  simp only [aany, List.any_eq_false, Bool.and_eq_true, Nat.blt_eq, beq_iff_eq]
  rintro x hx ⟨⟨hlt, hcore⟩, hscan⟩
  exact hfirst x hx hlt ⟨hcore, hscan⟩

include h hk hready

theorem scanCommand_ok {s1 : State} (hf : c.fail = none) (hrun : s.scanRun id c picked = .ok (some s1)) :
    exec (.scanCommandExecute id picked) s = .next (commandDone s s1 id c) := by
  rw [exec_scanCommandExecute]
  refine runEvent_of ?_
  simp only [bind, Option.bind, h, hready, hrun, no_earlier_scan hfirst, hk, beq_self_eq_true, Bool.not_false, Bool.and_self, if_true,
    finishCmd_ok hf]

theorem scanCommand_fails {n : Nat} (hf : c.fail = none) (hrun : s.scanRun id c picked = .error (.code n)) :
    exec (.scanCommandExecute id picked) s =
      .next (({ s with cmds := aset id { c with src := s.srcAfter c } s.cmds } : State).failCmd id { c with src := s.srcAfter c } n) := by
  rw [exec_scanCommandExecute]
  refine runEvent_of ?_
  simp only [bind, Option.bind, h, hready, hrun, no_earlier_scan hfirst, hk, beq_self_eq_true, Bool.not_false, Bool.and_self, if_true]
  exact finishCmd_code hf

end

/-- Settles O34: PICK and SCAN post their commands, and each command that may begin ends with its effect or its error. -/
theorem commandsResult : Obligations.CommandsResult := by
  intro s
  refine ⟨fun t b r ha hb => ⟨fun o d a ho hx hz hv hr hdesc => pick_ok ha hb ho hx hz hv hr hdesc rfl, fun a hx hdesc => scan_ok ha hb hx hdesc⟩,
    fun die id c h hready => ⟨fun s1 hf hrun => pickCommand_ok h hready ?_, fun n hf hrun => pickCommand_ok h hready ?_,
      fun n hf => pickCommand_ok h hready (finishCmd_failed hf)⟩,
    fun id c picked h hk hready hfirst hf => ⟨fun s1 => scanCommand_ok h hk hready hfirst hf, fun n => scanCommand_fails h hk hready hfirst hf⟩⟩
  · rw [hrun]
    exact finishCmd_ok hf
  · rw [hrun]
    exact finishCmd_code hf

/-! ## Join updates and host submission (R258, R259, R263) -/

section
variable {s : State} {id : Nat} {j : JoinUpd} (h : alook id s.joins = some j)
  (hdone : ∀ k ∈ j.after, s.opOpen k = false ∧ s.engineOpen k = false) (hw : s.engWaits id = false)
include hdone hw

/-- Every access of the group is performed, and no fault of the update waits. -/
theorem join_may : ((j.after.all fun k => !s.opOpen k && !s.engineOpen k) && !s.engWaits id) = true := by
  rw [hw, Bool.and_eq_true, List.all_eq_true]
  refine ⟨fun k hk => ?_, rfl⟩
  obtain ⟨hop, heng⟩ := hdone k hk
  rw [hop, heng]
  rfl

include h

theorem join_performed {s1 : State} (hrun : s.joinRun id j = .ok s1) :
    exec (.joinBlockUpdate id) s = .next { s1.walksFor j.ctx j.die [j.addr] with joins := adel id s1.joins } := by
  rw [exec_joinBlockUpdate]
  refine runEvent_of ?_
  simp only [bind, Option.bind, h, join_may hdone hw, if_true, hrun]

theorem join_dropped {n : Nat} (hrun : s.joinRun id j = .error (.code n)) : exec (.joinBlockUpdate id) s = .next (s.failJoin id j) := by
  rw [exec_joinBlockUpdate]
  refine runEvent_of ?_
  simp only [bind, Option.bind, h, join_may hdone hw, if_true, hrun]

end

/-! ## A record submitted by the host (R263) -/

section
variable {s : State} {ctx addr die : Nat} (say : State → W64 → State)

theorem submit_badAddress (ha : addr % 64 ≠ 0 ∨ 2 ^ 56 ≤ addr) : s.submit say ctx addr die = some (say s 2) := if_pos ha

theorem submit_posts {g : Target} (ha : addr % 64 = 0) (h56 : addr < 2 ^ 56)
    (hg : s.engTarget ctx .program false (BitVec.ofNat 64 addr) = .ok g) (hp : s.tgtPoisoned g 64 = false) {ws : List W64}
    (hws : words64 (getBytes (s.tgtByte g) 0 64) = ws) {r : Nat × State} (hr : s.postRecord ctx none die false ws [] = r)
    (hring : r.1 = 0 → s.ringHeld ctx (Task.parse ws).region die = false) :
    s.submit say ctx addr die = some (say (r.2.sendOn g none) (BitVec.ofNat 64 r.1)) := by
  have hgood : ¬(addr % 64 ≠ 0 ∨ 2 ^ 56 ≤ addr) := by omega
  have hfree : ¬(r.1 = 0 ∧ s.ringHeld ctx (Task.parse ws).region die = true) := fun h => Bool.false_ne_true ((hring h.1).symm.trans h.2)
  rw [State.submit]
  simp only [hgood, if_false, hg, hp, Bool.false_eq_true, hws, hr, hfree]

end

section
variable {s : State} {tag ctx addr die : Nat} (hd : die < Config.nDies)
include hd

theorem hostSubmit_held {s1 : State} (hup : s.fwUp 1 = false) (hh : s.hold 8 (.hostSubmit tag ctx addr die) = some s1) :
    exec (.hostSubmit tag ctx addr die) s = .next s1 := by
  rw [exec_hostSubmit]
  refine runEvent_of ?_
  simp only [Nat.not_le.2 hd, if_false, hup, Bool.false_eq_true, hh]

/-- While SCHED runs it takes the record at once. -/
theorem hostSubmit_taken {s1 : State} (hup : s.fwUp 1 = true)
    (h : s.submit (fun (st : State) v => st.reply .submitStatus (some ctx) tag [v]) ctx addr die = some s1) :
    exec (.hostSubmit tag ctx addr die) s = .next s1 := by
  rw [exec_hostSubmit]
  exact runEvent_of ((if_neg (Nat.not_le.2 hd)).trans ((if_pos hup).trans h))

end

/-- Settles O35: a join update performed or dropped, and the three ways of a host submission. -/
theorem joinsAndSubmissionResult : Obligations.JoinsAndSubmissionResult := fun _ =>
  ⟨fun _ _ h hdone hw => ⟨fun _ => join_performed h hdone hw, fun _ => join_dropped h hdone hw⟩,
    fun _ _ _ _ _ hup hd hh => hostSubmit_held hd hup hh,
    fun _ _ _ _ hup hd => ⟨fun ha => hostSubmit_taken hd hup (submit_badAddress _ ha),
      fun _ ha h56 hg hp hring => hostSubmit_taken hd hup (submit_posts _ ha h56 hg hp rfl rfl hring)⟩⟩

end Sys2Proof.Queues
end

section
/-!
PROOF. The debug window and TRESUME (R302 to R305), the start and the watchdog of handlers (R79, R293 to R296), DEADRG and the retirement
of a channel (R329 to R331, R340).
-/
namespace Sys2Proof.DebugWindow
open Sys2Proof Sys2Proof.Machine Sys2Proof.Claims Sys2Proof.Laws Sys2Proof.LaneResults Sys2Proof.SystemState Sys2Proof.MemoryAccess

/-! ## The debug window and TRESUME (R302 to R305) -/

theorem needCtl_ok {t : Team} (hctl : t.ctl = true) (hl : t.level ≠ .program) : needCtl t = .ok () := by
  have hrank : Nat.ble (levelRank .handler) (levelRank t.level) = true := by
    cases hlv : t.level with
    | program => exact absurd hlv hl
    | handler => rfl
    | system => rfl
  simp only [needCtl, checkLevel, hrank, hctl, need_true, bind, Except.bind]

section
variable {s : State} {t : Team} (ha : s.agent s.cur = some t) (hctl : t.ctl = true) (hl : t.level ≠ .program)
include ha hctl hl

section
variable {pair : Bool} {d : Reg} {a : Src} (hx : Scalars t [a]) (hd : dbgDst pair d = true)
include hx hd

theorem dbgrd_item {tid : Nat} {u : Team} {x : Item}
    (hw : s.windowAt (s.env s.cur).core (s.env s.cur).ctx (srcScalar (s.env s.cur) t a) = some (tid, u, x)) :
    Falls (.dbgrd pair d a) s (t.writeWindow pair d (s.itemValue tid u x) 0x6) := by
  refine falls_of ha (exec_dbgrd pair d a s) (by simp [Instr.words]) ?_
  simp only [needCtl_ok hctl hl, checkScalars_ok hx, hd, needOperand, need_true, bind, Except.bind]
  rw [hw]

theorem dbgrd_none (hw : s.windowAt (s.env s.cur).core (s.env s.cur).ctx (srcScalar (s.env s.cur) t a) = none) :
    Falls (.dbgrd pair d a) s (t.writeWindow pair d 0 0x2) := by
  refine falls_of ha (exec_dbgrd pair d a s) (by simp [Instr.words]) ?_
  simp only [needCtl_ok hctl hl, checkScalars_ok hx, hd, needOperand, need_true, bind, Except.bind]
  rw [hw]

end

section
variable {d : Reg} {a b : Src} (hx : Scalars t [a, b]) (hd : isScaDst d = true)
include hx hd

theorem dbgwr_noItem (hw : s.windowAt (s.env s.cur).core (s.env s.cur).ctx (srcScalar (s.env s.cur) t a) = none) :
    exec (.dbgwr d a b) s = .next (s.setAgent (s.env s.cur).ag ((t.writeScalar d 1).advance (1 + a.words + b.words))) := by
  rw [exec_dbgwr]
  refine runState_ok ha ?_
  simp only [needCtl_ok hctl hl, checkScalars_ok hx, hd, needOperand, need_true, bind, Except.bind]
  rw [hw]

variable {tid : Nat} {u : Team} {x : Item}
  (hw : s.windowAt (s.env s.cur).core (s.env s.cur).ctx (srcScalar (s.env s.cur) t a) = some (tid, u, x))
include hw

theorem dbgwr_refused (hwr : s.windowWrite (s.env s.cur).ctx (s.env s.cur).core u x (srcScalar (s.env s.cur) t b) = none) :
    exec (.dbgwr d a b) s = .next (s.setAgent (s.env s.cur).ag ((t.writeScalar d 2).advance (1 + a.words + b.words))) := by
  rw [exec_dbgwr]
  refine runState_ok ha ?_
  simp only [needCtl_ok hctl hl, checkScalars_ok hx, hd, needOperand, need_true, bind, Except.bind]
  rw [hw]
  dsimp only
  rw [hwr]

theorem dbgwr_ok {u1 : Team} (hwr : s.windowWrite (s.env s.cur).ctx (s.env s.cur).core u x (srcScalar (s.env s.cur) t b) = some u1) :
    exec (.dbgwr d a b) s = .next (({ s with teams := aset tid u1 s.teams } : State).setAgent (s.env s.cur).ag
      ((t.writeScalar d 0).advance (1 + a.words + b.words))) := by
  rw [exec_dbgwr]
  refine runState_ok ha ?_
  simp only [needCtl_ok hctl hl, checkScalars_ok hx, hd, needOperand, need_true, bind, Except.bind]
  rw [hw]
  dsimp only
  rw [hwr]

end

theorem tresume_ok {kill : Bool} {d : Reg} {a : Src} (hx : Scalars t [a]) (hd : isScaDst d = true)
    (hn : (srcScalar (s.env s.cur) t a).toNat < 16) :
    exec (.tresume kill d a) s = .next ((s.setAgent (s.env s.cur).ag ((t.writeScalar d
      (BitVec.ofNat 64 (s.tresume (s.env s.cur) kill (srcScalar (s.env s.cur) t a).toNat).1)).advance (1 + a.words))).tresume (s.env s.cur) kill
        (srcScalar (s.env s.cur) t a).toNat).2 := by
  have hslot : ((srcScalar (s.env s.cur) t a).toNat / 16 == 0) = true := by
    rw [Nat.div_eq_of_lt hn]
    rfl
  rw [exec_tresume]
  refine runState_ok ha ?_
  simp only [needCtl_ok hctl hl, checkScalars_ok hx, hd, hslot, needOperand, need_true, bind, Except.bind]

end

/-- Settles O36: the window's reads and writes by whether it has an item, and TRESUME. -/
theorem debugWindowResult : Obligations.DebugWindowResult := by
  intro s t ha hctl hl
  refine ⟨fun pair d a hx hd => ?_, fun d a b hx hd => ⟨dbgwr_noItem ha hctl hl hx hd, fun tid u x hw =>
    ⟨dbgwr_refused ha hctl hl hx hd hw, fun u1 => dbgwr_ok ha hctl hl hx hd hw⟩⟩, fun kill d a => tresume_ok ha hctl hl⟩
  cases hw : s.windowAt (s.env s.cur).core (s.env s.cur).ctx (srcScalar (s.env s.cur) t a) with
  | none => exact dbgrd_none ha hctl hl hx hd hw
  | some r => exact dbgrd_item ha hctl hl hx hd hw

/-! ## DEADRG (R329, R340) -/

section
variable {s : State} {t : Team} {a b : Src} (hl : levelRank t.level = 2) (hx : Scalars t [a, b]) {pa n : Nat}
  (hpa : (srcScalar (s.env s.cur) t a).toNat = pa) (hn : (srcScalar (s.env s.cur) t b).toNat = n) (hpa0 : pa % 4096 = 0) (hn0 : n % 4096 = 0)
  (hne : n ≠ 0) (htier : s.inOneTier pa n = true)
include hl hx hpa hn hpa0 hn0 hne htier

theorem deadRange_checked : s.deadRange (s.env s.cur) t a b = (s.needHomes (pa / 4096) ((pa + n) / 4096)).map
    fun _ => (pa / 4096, (pa + n) / 4096) := by
  have hlevel : checkLevel t .system = .ok () := by
    rw [checkLevel, hl]
    rfl
  have hops : (pa % 4096 == 0 && n % 4096 == 0 && n != 0 && s.inOneTier pa n) = true := by
    rw [hpa0, hn0, htier, bne_iff_ne.2 hne]
    rfl
  simp only [State.deadRange, hlevel, checkScalars_ok hx, hpa, hn, hops, needOperand, need_true, bind, Except.bind]
  cases s.needHomes (pa / 4096) ((pa + n) / 4096) <;> rfl

theorem deadRange_ok (hup : ∀ g ∈ s.deadTargets (pa / 4096) ((pa + n) / 4096), s.carrier g ≠ .failed) :
    s.deadRange (s.env s.cur) t a b = .ok (pa / 4096, (pa + n) / 4096) := by
  have hfind : (s.deadTargets (pa / 4096) ((pa + n) / 4096)).find? (fun g => s.carrier g == .failed) = none := by
    rw [List.find?_eq_none]
    intro g hg
    rw [beq_iff_eq]
    exact hup g hg
  rw [deadRange_checked hl hx hpa hn hpa0 hn0 hne htier, State.needHomes, hfind]
  rfl

theorem deadRange_failed {g : Target}
    (hg : (s.deadTargets (pa / 4096) ((pa + n) / 4096)).find? (fun g => s.carrier g == .failed) = some g) :
    s.deadRange (s.env s.cur) t a b = .error { cause := .uncorrectable, addr := BitVec.ofNat 64 g.key.2 } := by
  rw [deadRange_checked hl hx hpa hn hpa0 hn0 hne htier, State.needHomes, hg]
  rfl

end

/-! ## The retirement of a channel (R330, R331) -/

section
variable {s : State} (hup : s.fwUp 2 = true) {tag c : Nat}
include hup

theorem retirement_accepted (hr : s.retire = .none) (hc : c < 256) (hno : ∀ e ∈ s.retired, e.1 ≠ c) (hd : s.donorDead = true) :
    exec (.channelRetirementRequest ⟨tag, c⟩) s = .next (({ s with retire := .copying c } : State).reply .retireStatus none tag [0]) := by
  have hfresh : (s.retired.any fun e => e.1 == c) = false := by
    rw [List.any_eq_false]
    intro e he
    rw [beq_iff_eq]
    exact hno e he
  rw [exec_channelRetirementRequest]
  refine runEvent_of ?_
  rw [if_pos hup, if_pos ⟨hr, hc, hfresh, hd⟩]

theorem retirement_refused (hd : s.donorDead = false) :
    exec (.channelRetirementRequest ⟨tag, c⟩) s = .next (s.reply .retireStatus none tag [1]) := by
  rw [exec_channelRetirementRequest]
  refine runEvent_of ?_
  rw [if_pos hup, if_neg]
  rintro ⟨-, -, -, h⟩
  exact Bool.false_ne_true (hd.symm.trans h)

theorem channelCopyDone_ok (hr : s.retire = .copying c) : exec .channelCopyDone s = .next { s with retire := .draining c } := by
  rw [exec_channelCopyDone]
  refine runEvent_of ?_
  rw [hr]
  exact if_pos hup

theorem channelSwitch_ok (hr : s.retire = .draining c) : exec .channelSwitch s =
    .next { s with retire := .none, retired := (c, s.t1size) :: s.retired, t1size := s.t1size - 4 } := by
  rw [exec_channelSwitch]
  refine runEvent_of ?_
  rw [hr]
  exact if_pos hup

end

/-- Settles O42: DEADRG by whether a port of its range has failed, and the steps of a retirement. -/
theorem deadRangesAndRetirement : Obligations.DeadRangesAndRetirement := by
  intro s
  refine ⟨fun k d a b t ha hl hx hd => ?_, fun tag c hup => ⟨retirement_accepted hup, retirement_refused hup⟩,
    fun c hr hup => channelCopyDone_ok hup hr, fun c hr hup => channelSwitch_ok hup hr⟩
  intro e pa n hpa0 hn0 hne htier gs done
  rw [exec_deadrg]
  refine ⟨fun hlive => ?_, fun g hg => runState_error ha ?_⟩
  · have hrange := deadRange_ok hl hx rfl rfl hpa0 hn0 hne htier hlive
    refine ⟨?_, ?_, ?_⟩ <;> rintro rfl <;> refine runState_ok ha ?_ <;> simp only [hrange, hd, needOperand, need_true, bind, Except.bind] <;> rfl
  · have hrange := deadRange_failed hl hx rfl rfl hpa0 hn0 hne htier hg
    simp only [hrange, bind, Except.bind]

/-! ## The start and the watchdog of a handler (R79, R293 to R296) -/

theorem bank_setBank_same (x : CoreSt) (b : Nat) (k : Bank) : (x.setBank b k).bank b = k := by
  unfold CoreSt.bank CoreSt.setBank
  split <;> rfl

theorem setBank_act (x : CoreSt) (b : Nat) (k : Bank) : (x.setBank b k).act = x.act := by
  unfold CoreSt.setBank
  split <;> rfl

theorem active_modActive (x : CoreSt) (f : Bank → Bank) : (x.modActive f).active = f x.active := by
  unfold CoreSt.active CoreSt.modActive
  rw [setBank_act, bank_setBank_same]
  rfl

theorem core_modCore_same (s : State) (c : Nat) (f : CoreSt → CoreSt) : (s.modCore c f).core c = f (s.core c) := by
  rw [State.modCore, core_setCore, if_pos rfl]

theorem core_setAgent_ctl (s : State) (c x d : Nat) (t : Team) : (s.setAgent (.ctl c x) t).core d = s.core d := rfl

theorem held_false {s : State} {core : Nat} (h : Free s core) : (s.core core).held = false := by
  obtain ⟨⟨hmove, hswap, hckpt⟩, hdue⟩ := h
  rw [CoreSt.held, hmove, hswap, hckpt, hdue]
  rfl

/-- A queued trap taken off the queue of a core's active bank. -/
theorem drop_first {x : CoreSt} {tid : Nat} {q : List Nat} (h : x.active.trapQ = tid :: q) :
    (x.modActive fun k => { k with trapQ := k.trapQ.drop 1 }) = x.modActive fun k => { k with trapQ := q } := by
  unfold CoreSt.modActive
  dsimp only
  rw [h]
  rfl

section
variable {s : State} {core ctx tid : Nat} {q : List Nat} {t : Team} {g : Group} {r : TrapRec} (hctx : (s.core core).active.ctx = some ctx)
  (hq : (s.core core).active.trapQ = tid :: q) (ht : alook tid s.teams = some t) (hg : alook t.gid s.groups = some g) (hr : t.trap = some r)
  (hst : (s.core core).active.st = .active) (hh : (s.core core).active.handling = none) (hfree : Free s core)
include hctx hq ht hg hr hst hh hfree

theorem handlerStart_escalates (hno : s.handlerOf ctx g.region = none) : exec (.handlerStart core) s =
    .next ((s.modCore core fun x => x.modActive fun k => { k with trapQ := q }).killTeamDomain tid) := by
  rw [exec_handlerStart]
  refine runEvent_of ?_
  simp only [bind, Option.bind, hctx, hq, List.head?_cons, ht, hg, hr, hst, hh, held_false hfree, beq_self_eq_true, Option.isNone_none,
    Bool.not_false, Bool.and_self, if_true, hno, drop_first hq]
  rfl

/-- The handling that a started handler has. -/
def startedHandling (s : State) (core tid : Nat) (t : Team) (g : Group) (r : TrapRec) : Handling :=
  { tid := tid, gid := t.gid, frame := g.frame, trec := s.trapRecord t g r, diag := r.diag, since := (s.core core).count, resumed := false }

/-- The control thread as a handler starts. -/
def startedCtl (s : State) (core ctx : Nat) (pc : W64) : Team :=
  { (agetD (newCtl (s.classT core) (s.core core).point) (ctlKey core ctx) s.ctls).at (.code pc) with
    st := .ready, wait := .none, level := .handler, active := 1, exited := 0, fault := 0, loop := none, trap := none }

theorem handlerStart_starts {pc : W64} (hpc : s.handlerOf ctx g.region = some pc) : exec (.handlerStart core) s =
    .next (((s.setCore core ((s.core core).modActive fun k => { k with trapQ := q })).modCore core fun y =>
      y.modActive fun k => { k with handling := some (startedHandling s core tid t g r) }).setAgent (.ctl core ctx) (startedCtl s core ctx pc)) := by
  rw [exec_handlerStart]
  refine runEvent_of ?_
  simp only [bind, Option.bind, hctx, hq, List.head?_cons, ht, hg, hr, hst, hh, held_false hfree, beq_self_eq_true, Option.isNone_none,
    Bool.not_false, Bool.and_self, if_true, hpc, drop_first hq]
  rfl

end

theorem handlerWatchdog_ok {s : State} {core ctx : Nat} {h : Handling} (hctx : (s.core core).active.ctx = some ctx)
    (hh : (s.core core).active.handling = some h) (hswap : (s.core core).swap = none) (hlate : h.since + 16 * 1024 ≤ (s.core core).count) :
    exec (.handlerWatchdogEscalation core) s = .next (s.endHandled core ctx) := by
  rw [exec_handlerWatchdogEscalation]
  refine runEvent_of ?_
  simp only [State.handlerOverdue, bind, Option.bind, hctx, hh, hswap, Option.isNone_none, hlate, and_self, if_true]

/-- Settles O37: a handler starts or its trap escalates, and one that runs too long escalates. -/
theorem handlersRun : Obligations.HandlersRun := by
  intro s core ctx hctx
  refine ⟨fun tid q t g r hq ht hg hr hst hh hfree => ⟨handlerStart_escalates hctx hq ht hg hr hst hh hfree, fun pc hpc =>
    ⟨_, handlerStart_starts hctx hq ht hg hr hst hh hfree hpc, ?_, ?_, startedCtl s core ctx pc, ?_, rfl, rfl, rfl, rfl⟩⟩,
    fun h hh => handlerWatchdog_ok hctx hh⟩
  · rw [core_setAgent_ctl, core_modCore_same, active_modActive]
    rfl
  · rw [core_setAgent_ctl, core_modCore_same, active_modActive, core_setCore, if_pos rfl, active_modActive]
  · exact agent_setAgent _ _ _ (by simp) rfl

end Sys2Proof.DebugWindow
end

section
/-!
PROOF. Taking a trap and returning from it, of a team and of the control thread (R124, R291, R293, R296, R297, R305, R384), and the
privileged instructions below their level (R34, R41, R300 to R305, R314, R321, R329, R366).
-/
namespace Sys2Proof.Traps
open Sys2Proof Sys2Proof.Machine Sys2Proof.Claims Sys2Proof.Laws Sys2Proof.LaneResults Sys2Proof.SystemState Sys2Proof.DebugWindow

/-! ## What stopping a team leaves unchanged (R293) -/

theorem cache_rest (s : State) (ctx va : Nat) : ∃ l, s.cache ctx va = { s with tlb := l } := by
  unfold State.cache
  split <;> exact ⟨_, rfl⟩

theorem trapWalk_rest (s : State) (ctx core : Nat) (x : Trap) :
    ∃ d k m l, s.trapWalk ctx core x = { s with dies := d, kports := k, mports := m, tlb := l } := by
  unfold State.trapWalk
  dsimp only
  split
  · obtain ⟨d, k, m, hw⟩ := walked_rest s ctx (dieOf core) x.addr.toNat
    obtain ⟨l, hl⟩ := cache_rest (s.walked ctx (dieOf core) x.addr.toNat) ctx x.addr.toNat
    exact ⟨d, k, m, l, by rw [hl, hw]⟩
  · exact ⟨_, _, _, _, rfl⟩

theorem queueTrap_rest (s : State) (tid gid : Nat) : ∃ c i, s.queueTrap tid gid = { s with cores := c, images := i } := by
  unfold State.queueTrap State.modTrapQ
  split
  · split
    · exact ⟨_, _, rfl⟩
    · split <;> exact ⟨_, _, rfl⟩
  · exact ⟨_, _, rfl⟩

theorem ctxEvent_rest (s : State) (c ctx code n : Nat) : ∃ cs, s.ctxEvent c ctx code n = { s with cores := cs } := by
  unfold State.ctxEvent
  split <;> exact ⟨_, rfl⟩

theorem ctxEvent_trapQ (s : State) (c ctx code n c' b : Nat) :
    (((s.ctxEvent c ctx code n).core c').bank b).trapQ = ((s.core c').bank b).trapQ := by
  unfold State.ctxEvent
  split
  · exact coreEvent_trapQ s c code n c' b
  · rfl

/-- A team stopped by a trap whose state before its queue or the firmware is told. -/
def stopped (s : State) (tid : Nat) (t : Team) (x : Trap) : State :=
  { s with teams := aset tid (t.stop (s.inPass t x) (x.count.getD (s.core (s.agentCore (.team tid))).count) none false) s.teams }

/-- The context of a team's group. -/
def ctxOfTeam (s : State) (t : Team) : Nat :=
  match alook t.gid s.groups with
  | some g => g.ctx
  | none => 0

section
variable {s : State} {tid : Nat} {t : Team} {x : Trap} (ht : alook tid s.teams = some t)
include ht

theorem stopTeam_queued (hr : x.repair = false) : s.stopTeam tid x =
    ((((stopped s tid t x).trapWalk (ctxOfTeam s t) (s.agentCore (.team tid)) x).queueTrap tid t.gid).ctxEvent (s.agentCore (.team tid))
      (ctxOfTeam s t) 8 1).recountPartner tid := by
  unfold State.stopTeam State.stopTeamWith
  rw [ht]
  dsimp only
  rw [hr, if_neg Bool.false_ne_true]
  rfl

theorem stopTeam_faulted (hr : x.repair = true) : s.stopTeam tid x =
    (((stopped s tid t x).fwFault (.team tid) (ctxOfTeam s t) x.addr (s.agentCore (.team tid))).ctxEvent (s.agentCore (.team tid))
      (ctxOfTeam s t) 8 1).recountPartner tid := by
  unfold State.stopTeam State.stopTeamWith
  rw [ht]
  dsimp only
  rw [hr, if_pos rfl]
  rfl

/-- What a stop may change: the memories, registers, tiles, groups and accesses are not among it. -/
theorem stopTeam_rest : ∃ te co im d kp mp fa n fw tl, s.stopTeam tid x =
    { s with teams := te, cores := co, images := im, dies := d, kports := kp, mports := mp, faults := fa, nextId := n, fw := fw, tlb := tl } := by
  cases hr : x.repair with
  | false =>
    rw [stopTeam_queued ht hr, recountPartner_rest]
    generalize State.teams (State.recountPartner _ _) = te
    obtain ⟨d, k, m, l, hw⟩ := trapWalk_rest (stopped s tid t x) (ctxOfTeam s t) (s.agentCore (.team tid)) x
    rw [hw]
    obtain ⟨c, i, hq⟩ := queueTrap_rest ({ stopped s tid t x with dies := d, kports := k, mports := m, tlb := l } : State) tid t.gid
    rw [hq]
    obtain ⟨cs, hc⟩ := ctxEvent_rest ({ stopped s tid t x with dies := d, kports := k, mports := m, tlb := l, cores := c, images := i } : State)
      (s.agentCore (.team tid)) (ctxOfTeam s t) 8 1
    rw [hc]
    exact ⟨_, _, _, _, _, _, _, _, _, _, rfl⟩
  | true =>
    rw [stopTeam_faulted ht hr, recountPartner_rest]
    generalize State.teams (State.recountPartner _ _) = te
    obtain ⟨d, kp, mp, l, f, hf, -⟩ := fwFault_rest (stopped s tid t x) (.team tid) (ctxOfTeam s t) x.addr (s.agentCore (.team tid))
    rw [hf]
    generalize aset _ l _ = fa
    obtain ⟨cs, hc⟩ := ctxEvent_rest ({ stopped s tid t x with
      dies := d, kports := kp, mports := mp, faults := fa, nextId := (stopped s tid t x).nextId + 1, fw := f } : State)
      (s.agentCore (.team tid)) (ctxOfTeam s t) 8 1
    rw [hc]
    exact ⟨_, _, _, _, _, _, _, _, _, _, rfl⟩

theorem stopTeam_team : alook tid (s.stopTeam tid x).teams =
    some (t.stop (s.inPass t x) (x.count.getD (s.core (s.agentCore (.team tid))).count) none false) := stopTeamWith_team x none false ht

end

/-! ## The trap record and the queue (R295, R384) -/

/-- A trap in an unrolled pass differs from the trap only in its INFO. -/
theorem inPass_rest (s : State) (t : Team) (x : Trap) : ∃ i, s.inPass t x = { x with info := i } := by
  unfold State.inPass
  split <;> exact ⟨_, rfl⟩

theorem queueIn_split (p : Nat → Bool) (tid : Nat) (q : List Nat) :
    ∃ q1 q2, q = q1 ++ q2 ∧ queueIn p tid q = q1 ++ tid :: q2 ∧ ∀ k ∈ q2, p k = true := by
  refine ⟨q.take (q.length - (q.reverse.takeWhile p).length), q.drop (q.length - (q.reverse.takeWhile p).length),
    (List.take_append_drop _ _).symm, rfl, fun k hk => ?_⟩
  have hpre := List.takeWhile_prefix p (l := q.reverse)
  have hdrop : (q.drop (q.length - (q.reverse.takeWhile p).length)).reverse = q.reverse.takeWhile p := by
    rw [List.reverse_drop, Nat.sub_sub_self (by simpa using hpre.length_le)]
    exact (List.prefix_iff_eq_take.1 hpre).symm
  have hmem : k ∈ q.reverse.takeWhile p := hdrop ▸ List.mem_reverse.2 hk
  exact List.mem_takeWhile_imp hmem

/-- A team before which a trap is queued was stopped in the same cycle, in a higher slot. -/
theorem trapBefore_stopped {s : State} {tid k : Nat} {t : Team} {x : Trap} (h : (stopped s tid t x).trapBefore tid k = true) :
    ∃ v y, alook k s.teams = some v ∧ v.trap = some y ∧ t.slot < v.slot ∧
      y.count = x.count.getD (s.core (s.agentCore (.team tid))).count := by
  unfold State.trapBefore at h
  rw [stopped, alook_aset_same] at h
  dsimp only at h
  by_cases hk : k = tid
  · rw [hk, alook_aset_same] at h
    simp [Team.stop] at h
  · rw [alook_aset_ne hk] at h
    cases hv : alook k s.teams with
    | none => simp [hv] at h
    | some v =>
      cases hy : v.trap with
      | none => simp [hv, hy, Team.stop] at h
      | some y =>
        simp only [hv, hy, Team.stop, Bool.and_eq_true, Nat.blt_eq, beq_iff_eq] at h
        exact ⟨v, y, rfl, hy, h.1, h.2.symm⟩

theorem queueTrap_trapQ {s : State} {tid gid c b : Nat} {g : Group} (hg : alook gid s.groups = some g) (hp : g.place = .bank c b) :
    (((s.queueTrap tid gid).core c).bank b).trapQ = queueIn (s.trapBefore tid) tid ((s.core c).bank b).trapQ := by
  unfold State.queueTrap State.modTrapQ
  rw [hg]
  dsimp only
  rw [hp]
  dsimp only
  rw [core_modCore_same, bank_setBank_same]

section
variable {s : State} {tid : Nat} {t : Team} {x : Trap} (ht : alook tid s.teams = some t)
include ht

theorem stopTeam_trapQ (hr : x.repair = false) {g : Group} {c b : Nat} (hg : alook t.gid s.groups = some g) (hp : g.place = .bank c b) :
    (∃ q1 q2, ((s.core c).bank b).trapQ = q1 ++ q2 ∧ (((s.stopTeam tid x).core c).bank b).trapQ = q1 ++ tid :: q2 ∧
      ∀ k ∈ q2, ∃ v y, alook k s.teams = some v ∧ v.trap = some y ∧ t.slot < v.slot ∧
        y.count = x.count.getD (s.core (s.agentCore (.team tid))).count) ∧ (s.stopTeam tid x).faults = s.faults := by
  obtain ⟨d, k, m, l, hw⟩ := trapWalk_rest (stopped s tid t x) (ctxOfTeam s t) (s.agentCore (.team tid)) x
  rw [stopTeam_queued ht hr, recountPartner_rest, hw]
  constructor
  · obtain ⟨q1, q2, hq, hin, hbefore⟩ := queueIn_split ((stopped s tid t x).trapBefore tid) tid ((s.core c).bank b).trapQ
    refine ⟨q1, q2, hq, ?_, fun k hk => trapBefore_stopped (hbefore k hk)⟩
    rw [← hin]
    refine (ctxEvent_trapQ _ _ _ _ _ c b).trans ?_
    exact queueTrap_trapQ hg hp
  · obtain ⟨c', i, hq⟩ := queueTrap_rest ({ stopped s tid t x with dies := d, kports := k, mports := m, tlb := l } : State) tid t.gid
    rw [hq]
    obtain ⟨cs, hc⟩ := ctxEvent_rest ({ stopped s tid t x with dies := d, kports := k, mports := m, tlb := l, cores := c', images := i } : State)
      (s.agentCore (.team tid)) (ctxOfTeam s t) 8 1
    rw [hc]
    rfl

theorem stopTeam_fault (hr : x.repair = true) :
    (∃ f, alook s.nextId (s.stopTeam tid x).faults = some f ∧ f.ag = .team tid ∧ f.va = x.addr) ∧
    ∀ c b, (((s.stopTeam tid x).core c).bank b).trapQ = ((s.core c).bank b).trapQ := by
  obtain ⟨d, kp, mp, l, f, hf, hag, hva, -⟩ := fwFault_rest (stopped s tid t x) (.team tid) (ctxOfTeam s t) x.addr (s.agentCore (.team tid))
  rw [stopTeam_faulted ht hr, recountPartner_rest, hf]
  constructor
  · obtain ⟨cs, hc⟩ := ctxEvent_rest ({ stopped s tid t x with
      dies := d, kports := kp, mports := mp, faults := aset (stopped s tid t x).nextId l (stopped s tid t x).faults
      nextId := (stopped s tid t x).nextId + 1, fw := f } : State) (s.agentCore (.team tid)) (ctxOfTeam s t) 8 1
    rw [hc]
    exact ⟨l, alook_aset_same _ _ _, hag, hva⟩
  · intro c b
    exact ctxEvent_trapQ _ _ _ _ _ c b

end

theorem teamTraps : TeamTraps := by
  intro s tid t x hcur ht s'
  have hs' : s' = s.stopTeam tid x := by
    simp only [s', takeTrap, hcur]
  rw [hs', hcur]
  obtain ⟨i, hi⟩ := inPass_rest s t x
  refine ⟨?_, ?_⟩
  · refine ⟨_, _, stopTeam_team ht, rfl, ?_, ?_, ?_, ?_, ?_, ?_⟩ <;> rw [hi]
    · cases x.mask <;> rfl
  · obtain ⟨te, co, im, d, kp, mp, fa, n, fw, tl, hrest⟩ := stopTeam_rest (x := x) ht
    refine ⟨by rw [hrest], by rw [hrest], by rw [hrest], by rw [hrest], by rw [hrest], by rw [hrest], by rw [hrest],
      fun hr g c b hg hp => stopTeam_trapQ ht hr hg hp, fun hr => stopTeam_fault ht hr⟩

/-! ## A trap condition in the control thread (R291, R296) -/

theorem mem_adel {α : Type} {k : Nat} {e : Nat × α} : ∀ {m : List (Nat × α)}, e ∈ adel k m → e ∈ m ∧ e.1 ≠ k
  | (k', v) :: r, h => by
    unfold adel at h
    split at h
    case isTrue => exact (mem_adel h).imp_left (List.mem_cons_of_mem _)
    case isFalse hk =>
      rcases List.mem_cons.1 h with he | hr
      · rw [he]
        exact ⟨List.mem_cons_self .., fun hc => hk hc.symm⟩
      · exact (mem_adel hr).imp_left (List.mem_cons_of_mem _)

theorem foldl_groups {α : Type} (f : State → α → State) (hf : ∀ s a, (f s a).groups = s.groups) (l : List α) (s : State) :
    (l.foldl f s).groups = s.groups := by
  induction l generalizing s with
  | nil => rfl
  | cons a r ih => exact (ih _).trans (hf s a)

theorem endLaunch_groups (s : State) (launch d : Nat) : (s.endLaunch launch d).groups = s.groups := by
  unfold State.endLaunch
  dsimp only
  split
  all_goals
    split
    · rfl
    · split
      · split <;> rfl
      · rfl

theorem closeContext_groups (s : State) (ctx : Nat) : (s.closeContext ctx).groups = s.groups := by
  unfold State.closeContext
  split
  · split <;> rfl
  · rfl

theorem markSwap_groups (s : State) (cores : List Nat) : (s.markSwap cores).groups = s.groups :=
  foldl_groups _ (fun _ _ => by dsimp only; split <;> rfl) cores s

theorem emptyBank_groups (s : State) (ctx c b : Nat) : (s.emptyBank ctx c b).groups = s.groups := by
  unfold State.emptyBank
  dsimp only
  split <;> rfl

theorem discardBanks_groups (s : State) (ctx : Nat) : (s.discardBanks ctx).groups = s.groups :=
  foldl_groups _ (fun _ _ => (emptyBank_groups _ _ _ _).trans (emptyBank_groups _ _ _ _)) _ _

theorem report_groups (s : State) (op : MsgOp) (vec : Nat) (body : List W64) : (s.report op vec body).groups = s.groups := by
  obtain ⟨f, hf⟩ := fwSend_rest s 3 12 (some vec) { op := op, snd := 3, rcv := 0, tag := 0, body := body }
  rw [State.report, hf]

theorem alook_isSome_of_mem {α : Type} {e : Nat × α} : ∀ {m : List (Nat × α)}, e ∈ m → (alook e.1 m).isSome = true
  | (k, v) :: r, h => by
    unfold alook
    split
    · rfl
    · rcases List.mem_cons.1 h with he | hr
      · subst he
        exact absurd rfl ‹_›
      · exact alook_isSome_of_mem hr

/-- A group that is dropped stands in the list no longer. -/
theorem mem_dropGroup {s : State} {gid : Nat} {joined : Bool} {e : Nat × Group} (h : e ∈ (s.dropGroup gid joined).groups) :
    e ∈ s.groups ∧ e.1 ≠ gid := by
  cases hg : alook gid s.groups with
  | none =>
    have hs : s.dropGroup gid joined = s := by rw [State.dropGroup, hg]
    rw [hs] at h
    refine ⟨h, fun hk => ?_⟩
    have hsome := alook_isSome_of_mem h
    rw [hk, hg] at hsome
    exact Bool.false_ne_true hsome
  | some g =>
    have hgroups : (s.dropGroup gid joined).groups = adel gid s.groups := by
      unfold State.dropGroup
      rw [hg]
      dsimp only
      rw [closeContext_groups]
      refine (endLaunch_groups _ _ _).trans ?_
      split <;> rfl
    rw [hgroups] at h
    exact mem_adel h

theorem mem_dropGroups {l : List Nat} {joined : Bool} {e : Nat × Group} : ∀ {s : State},
    e ∈ (l.foldl (fun (st : State) g => st.dropGroup g joined) s).groups → e ∈ s.groups ∧ e.1 ∉ l := by
  induction l with
  | nil => exact fun h => ⟨h, List.not_mem_nil⟩
  | cons g r ih =>
    intro s h
    obtain ⟨hmem, hr⟩ := ih h
    obtain ⟨hs, hg⟩ := mem_dropGroup hmem
    exact ⟨hs, fun hm => (List.mem_cons.1 hm).elim hg hr⟩

theorem forgetTeams_groups (s : State) (gone : Nat → Bool) : (s.forgetTeams gone).groups = s.groups := rfl
theorem killCopies_groups (s : State) (dead : Nat → Bool) : (s.killCopies dead).groups = s.groups := rfl
theorem killMqs_groups (s : State) (dead : Nat → Bool) : (s.killMqs dead).groups = s.groups := rfl
theorem killPend_groups (s : State) (dead : Nat → Bool) : (s.killPend dead).groups = s.groups := rfl

/-- The end of launches that a kill has left empty. -/
theorem endLaunches_groups (l : List (Nat × Launch)) (s : State) : (l.foldl (fun (st : State) (e : Nat × Launch) =>
    if e.2.left = 0 ∧ !aany (fun _ g => g.launch == e.1) st.groups then st.endLaunch e.1 0 else st) s).groups = s.groups := by
  refine foldl_groups _ (fun st e => ?_) l s
  split
  · exact endLaunch_groups _ _ _
  · rfl

/-- A kill leaves no group of its fault domain (R291). -/
theorem killNow_groups (s : State) (ctx dom : Nat) : ∀ g ∈ (s.killNow ctx dom).groups, g.2.ctx = ctx → s.domain ctx g.2.region ≠ dom := by
  unfold State.killNow
  extract_lets inDom doomed dead gone cores s1 s2 s3 root s4
  have hs4 : s4.groups = s3.groups := by
    simp only [s4]
    split
    · exact (closeContext_groups _ _).trans (discardBanks_groups _ _)
    · rfl
  have hs3 : s3.groups = (doomed.foldl (fun (st : State) g => st.dropGroup g false) s2).groups := endLaunches_groups _ _
  have hs2 : s2.groups = s.groups := by
    rw [killPend_groups, killMqs_groups, killCopies_groups, forgetTeams_groups]
  rw [report_groups, markSwap_groups, hs4, hs3]
  clear_value s4 s3
  intro g h hctx hdom
  obtain ⟨hmem, hnot⟩ := mem_dropGroups h
  rw [hs2] at hmem
  have hin : (g.2.ctx == ctx && inDom g.2.region) = true := by
    simp only [inDom, hctx, hdom, beq_self_eq_true, Bool.and_self]
  exact hnot (List.mem_map.2 ⟨g, List.mem_filter.2 ⟨hmem, hin⟩, rfl⟩)

/-- Counting an event leaves what a bank handles, and which bank holds a context. -/
theorem modActive_handling (x : CoreSt) (f : Bank → Bank) (hc : ∀ b, (f b).ctx = b.ctx) (hh : ∀ b, (f b).handling = b.handling) (b : Nat) :
    ((x.modActive f).bank b).ctx = (x.bank b).ctx ∧ ((x.modActive f).bank b).handling = (x.bank b).handling := by
  unfold CoreSt.modActive CoreSt.active CoreSt.setBank CoreSt.bank
  by_cases ha : x.act = 0 <;> by_cases hb : b = 0 <;> simp [ha, hb, hc, hh]

theorem handlingOf_of_core {s s' : State} {c ctx : Nat} (hact : (s'.core c).act = (s.core c).act)
    (hb : ∀ b, ((s'.core c).bank b).ctx = ((s.core c).bank b).ctx ∧ ((s'.core c).bank b).handling = ((s.core c).bank b).handling) :
    s'.handlingOf c ctx = s.handlingOf c ctx := by
  unfold State.handlingOf State.bankOf
  simp only [hact, fun b => (hb b).1, fun b => (hb b).2]

theorem ctxEvent_handlingOf (s : State) (c ctx code n : Nat) : (s.ctxEvent c ctx code n).handlingOf c ctx = s.handlingOf c ctx := by
  unfold State.ctxEvent
  split
  · refine handlingOf_of_core ?_ ?_
    · rw [State.coreEvent, core_modCore_same]
      exact setBank_act _ _ _
    · intro b
      rw [State.coreEvent, core_modCore_same]
      exact modActive_handling _ (fun b => { b with evCnt := bumpCounters 8 b.evSrc b.evCnt code n }) (fun _ => rfl) (fun _ => rfl) b
  · rfl

theorem stopCtl_some {s : State} {c ctx : Nat} {x : Trap} {t : Team} (h : alook (ctlKey c ctx) s.ctls = some t) :
    ∃ d k m l, s.stopCtl c ctx x = ({ s with
      ctls := aset (ctlKey c ctx) (t.stop x (s.core c).count none false) s.ctls, dies := d, kports := k, mports := m, tlb := l } : State).ctxEvent
        c ctx 8 1 := by
  unfold State.stopCtl
  rw [h]
  obtain ⟨d, k, m, l, hw⟩ := trapWalk_rest
    ({ s with ctls := aset (ctlKey c ctx) (t.stop x (s.core c).count none false) s.ctls } : State) ctx c x
  exact ⟨d, k, m, l, by rw [← hw]⟩

theorem stopCtl_none {s : State} {c ctx : Nat} {x : Trap} (h : alook (ctlKey c ctx) s.ctls = none) : s.stopCtl c ctx x = s := by
  rw [State.stopCtl, h]

theorem stopCtl_handlingOf (s : State) (c ctx : Nat) (x : Trap) : (s.stopCtl c ctx x).handlingOf c ctx = s.handlingOf c ctx := by
  cases h : alook (ctlKey c ctx) s.ctls with
  | none => rw [stopCtl_none h]
  | some t =>
    obtain ⟨d, k, m, l, hs⟩ := stopCtl_some (x := x) h
    rw [hs]
    exact ctxEvent_handlingOf _ _ _ _ _

theorem stopCtl_frame (s : State) (c ctx : Nat) (x : Trap) : (s.stopCtl c ctx x).fw = s.fw ∧ (s.stopCtl c ctx x).nextId = s.nextId := by
  cases h : alook (ctlKey c ctx) s.ctls with
  | none => rw [stopCtl_none h]; exact ⟨rfl, rfl⟩
  | some t =>
    obtain ⟨d, k, m, l, hs⟩ := stopCtl_some (x := x) h
    obtain ⟨cs, hc⟩ := ctxEvent_rest ({ s with
      ctls := aset (ctlKey c ctx) (t.stop x (s.core c).count none false) s.ctls, dies := d, kports := k, mports := m, tlb := l } : State) c ctx 8 1
    rw [hs, hc]
    exact ⟨rfl, rfl⟩

theorem stopCtl_team {s : State} {c ctx : Nat} {x : Trap} {t : Team} (h : alook (ctlKey c ctx) s.ctls = some t) :
    alook (ctlKey c ctx) (s.stopCtl c ctx x).ctls = some (t.stop x (s.core c).count none false) := by
  obtain ⟨d, k, m, l, hs⟩ := stopCtl_some (x := x) h
  obtain ⟨cs, hc⟩ := ctxEvent_rest ({ s with
    ctls := aset (ctlKey c ctx) (t.stop x (s.core c).count none false) s.ctls, dies := d, kports := k, mports := m, tlb := l } : State) c ctx 8 1
  rw [hs, hc]
  exact alook_aset_same _ _ _

theorem controlThreadTraps : ControlThreadTraps := by
  intro s c ctx x hcur s'
  have hs' : s' = s.escalate c ctx x := by
    simp only [s', takeTrap, hcur]
  rw [hs']
  refine ⟨fun h hr hh => ?_, fun t hr ht => ?_⟩
  · intro s1 dom
    have hend : s.escalate c ctx x = (s1.killDomain ctx dom).endRun c ctx := by
      rw [State.escalate, hr, if_neg Bool.false_ne_true, State.endHandled, stopCtl_handlingOf, hh]
    refine ⟨hend, fun hup g hg hctx => ?_⟩
    have hup1 : s1.fwUp 3 = true := by
      rw [State.fwUp, (stopCtl_frame s c ctx x).1]
      exact hup
    rw [State.killDomain, if_pos hup1] at hg
    exact killNow_groups s1 ctx dom g hg hctx
  · have hesc : s.escalate c ctx x = (s.stopCtl c ctx x).fwFault (.ctl c ctx) ctx x.addr c := by
      rw [State.escalate, hr, if_pos rfl, ht]
    rw [hesc]
    obtain ⟨d, kp, mp, l, f, hf, hag, hva, -⟩ := fwFault_rest (s.stopCtl c ctx x) (.ctl c ctx) ctx x.addr c
    rw [hf]
    refine ⟨⟨_, stopCtl_team ht, rfl, rfl⟩, l, ?_, hag, hva⟩
    rw [← (stopCtl_frame s c ctx x).2]
    exact alook_aset_same _ _ _

/-- Settles O50: what a stop leaves of the team, of the queue and of the rest, and the escalation of a handler run. -/
theorem trapEntry : Obligations.TrapEntry := ⟨teamTraps, controlThreadTraps⟩

/-! ## The return from a trap (R297, R298, R305) -/

/-- The fall to the next instruction changes only the place, its clause and the loop. -/
theorem advance_rest (t : Team) (n : Nat) : ∃ pc sr cl lo, t.advance n =
    { t with pc := pc, sregs := sr, clause := cl, loop := lo, bpSkip := false, replay := none } := by
  unfold Team.advance
  dsimp only
  split
  · exact ⟨_, _, _, _, rfl⟩
  · split
    · split <;> exact ⟨_, _, _, _, rfl⟩
    · exact ⟨_, _, _, _, rfl⟩

/-- What a resumption leaves of a team, whatever its trap. -/
theorem resume_rest (t : Team) : ∃ pc sr cl lo b r, t.resume = { t with
    st := if t.fromDrain then .draining else .ready, active := t.trapTok.mask &&& ~~~t.exited &&& lowMask t.tw
    trapTok := Token.empty, fault := 0, fromDrain := false, trap := none
    pc := pc, sregs := sr, clause := cl, loop := lo, bpSkip := b, replay := r } := by
  unfold Team.resume
  dsimp only
  split
  next x _ =>
    split
    · obtain ⟨pc, sr, cl, lo, h⟩ := advance_rest ({ t with
        st := if t.fromDrain then .draining else .ready, active := t.trapTok.mask &&& ~~~t.exited &&& lowMask t.tw
        trapTok := Token.empty, fault := 0, fromDrain := false, trap := none } : Team) 1
      exact ⟨pc, sr, cl, lo, _, _, h⟩
    · exact ⟨_, _, _, _, _, _, rfl⟩
  next => exact ⟨_, _, _, _, _, _, rfl⟩

theorem resume_stays {t : Team} {r : TrapRec} (hr : t.trap = some r) (ha : r.after = false) :
    t.resume.pc = t.pc ∧ t.resume.sregs = t.sregs ∧ t.resume.loop = t.loop ∧ t.resume.clause = t.clause := by
  unfold Team.resume
  simp only [hr, ha, Bool.false_eq_true, if_false, and_self]

/-- A team resumed after a TRAP or BRKPT outside a loop goes on at the next word (R298). -/
theorem resume_after {t : Team} {r : TrapRec} (hr : t.trap = some r) (ha : r.after = true) (hl : t.loop = none) :
    t.resume.pc = t.pc.plus 4 ∧ t.resume.sregs = t.sregs := by
  unfold Team.resume
  simp only [hr, ha, if_true, Team.advance, hl, Nat.mul_one, and_self]

section
variable {s : State} {tid : Nat} {t : Team} (ht : alook tid s.teams = some t)
include ht

/-- A team resumed with nothing pending stands as `resume` leaves it, but for the wait that it has. -/
theorem resumeTeam_team (hp : t.pending = none) (hd : t.fromDrain = true → t.flags ≠ []) :
    ∃ w n, alook tid (s.resumeTeam tid).teams = some { t.resume with wait := w, since := n } := by
  obtain ⟨pc, sr, cl, lo, b, r, hres⟩ := resume_rest t
  have hpend : t.resume.pending = none := by rw [hres]; exact hp
  obtain ⟨w, n, hw⟩ := recountPartner_team (s := { s with teams := aset tid t.resume s.teams }) (k := tid) (alook_aset_same tid t.resume s.teams)
  refine ⟨w, n, ?_⟩
  have hgo : s.resumeTeam tid = ((({ s with teams := aset tid t.resume s.teams } : State).recountPartner tid).drainEnd tid) := by
    unfold State.resumeTeam
    rw [ht]
    dsimp only
    rw [hpend]
  rw [hgo, drainEnd_keep hw, hw]
  rintro ⟨hst, hfl⟩
  rw [hres] at hst hfl
  dsimp only at hst hfl
  cases hfd : t.fromDrain with
  | false => simp [hfd] at hst
  | true => exact hd hfd hfl

/-- An error in the pending slot stops the team again (R297). -/
theorem resumeTeam_pending {e : ErrRec} (hp : t.pending = some e) : ∃ (u : Team) (r : TrapRec),
    alook tid (s.resumeTeam tid).teams = some u ∧ u.st = .stopped ∧ u.trap = some r ∧ r.cause = e.cause ∧ r.addr = e.addr ∧
      r.pend = some e.cause ∧ r.ovf = t.pendOvf ∧ u.pending = none ∧ u.fault = e.mask := by
  obtain ⟨pc, sr, cl, lo, b, r, hres⟩ := resume_rest t
  have hpend : t.resume.pending = some e := by rw [hres]; exact hp
  have hgo : s.resumeTeam tid = ({ s with teams := aset tid { t.resume with pending := none, pendOvf := false } s.teams } : State).stopTeamWith
      tid { cause := e.cause, mask := some e.mask, addr := e.addr, oppc := e.oppc, err := true } (some e.cause) t.pendOvf := by
    unfold State.resumeTeam
    rw [ht]
    dsimp only
    rw [hpend]
  have hteam := stopTeamWith_team (s := { s with teams := aset tid { t.resume with pending := none, pendOvf := false } s.teams })
    { cause := e.cause, mask := some e.mask, addr := e.addr, oppc := e.oppc, err := true } (some e.cause) t.pendOvf
    (alook_aset_same tid { t.resume with pending := none, pendOvf := false } s.teams)
  rw [hgo]
  obtain ⟨i, hi⟩ := inPass_rest ({ s with teams := aset tid { t.resume with pending := none, pendOvf := false } s.teams } : State)
    { t.resume with pending := none, pendOvf := false }
    { cause := e.cause, mask := some e.mask, addr := e.addr, oppc := e.oppc, err := true }
  rw [hi] at hteam
  exact ⟨_, _, hteam, rfl, rfl, rfl, rfl, rfl, rfl, rfl, rfl⟩

end

/-- Settles O51: a team resumed with nothing pending, and one that an error stops again. -/
theorem trapReturn : Obligations.TrapReturn := by
  intro s tid t ht
  refine ⟨fun hp hd => ?_, fun x hp => resumeTeam_pending ht hp⟩
  obtain ⟨w, n, hteam⟩ := resumeTeam_team ht hp hd
  obtain ⟨pc, sr, cl, lo, b, q, hres⟩ := resume_rest t
  refine ⟨_, hteam, ?_, ?_, ?_, ?_, ?_, ?_, ?_, ?_, ?_, ?_, fun r hr ha => resume_stays hr ha, fun r hr ha hl => resume_after hr ha hl⟩
  all_goals rw [hres]

/-! ## Privileged instructions below their level -/

theorem checkLevel_handler {t : Team} (h : t.level = .program) : checkLevel t .handler = .error (Trap.of .priv) := by
  rw [checkLevel, h]
  rfl

theorem checkLevel_system {t : Team} (h : t.level ≠ .system) : checkLevel t .system = .error (Trap.of .priv) := by
  cases hl : t.level with
  | program => rw [checkLevel, hl]; rfl
  | handler => rw [checkLevel, hl]; rfl
  | system => exact absurd hl h

theorem sysLevel_priv {t : Team} (h : t.level = .program) {n : Nat} (hn : 0x100 ≤ n) : sysLevel t n = .error (Trap.of .priv) := by
  rw [sysLevel, if_pos hn, checkLevel_handler h]

theorem needCtl_priv {t : Team} (h : t.level = .program) : needCtl t = .error (Trap.of .priv) := by
  simp only [needCtl, checkLevel_handler h, bind, Except.bind]

theorem sysNum_low {e : Env} {t : Team} {a : Src} (hx : Scalars t [a]) : sysNum e t (.ind a) =
    .ok ((srcScalar e t a).toNat % 2 ^ 14, (srcScalar e t a).toNat / 2 ^ 14 == 0) := by
  simp only [sysNum, checkScalars_ok hx, bind, Except.bind]

section
variable {s : State} {t : Team} (ha : s.agent s.cur = some t)
include ha

section
variable (h : t.level = .program) {n : SysNum} {k : Nat × Bool} (hk : sysNum (s.env s.cur) t n = .ok k) (hn : 0x100 ≤ k.1)
include h hk hn

theorem rdsr_priv (d : Reg) : exec (.rdsr d n) s = .next (takeTrap s (Trap.of .priv)) := by
  rw [exec_rdsr]
  refine runAgent_error ha ?_
  simp only [hk, sysLevel_priv h hn, bind, Except.bind]

theorem wrsr_priv (x : Src) : exec (.wrsr x n) s = .next (takeTrap s (Trap.of .priv)) := by
  rw [exec_wrsr]
  refine runState_error ha ?_
  simp only [hk, sysLevel_priv h hn, bind, Except.bind]

end

section
variable (h : t.level = .program)
include h

theorem dbgrd_priv (p : Bool) (d : Reg) (a : Src) : exec (.dbgrd p d a) s = .next (takeTrap s (Trap.of .priv)) := by
  rw [exec_dbgrd]
  refine runAgent_error ha ?_
  simp only [needCtl_priv h, bind, Except.bind]

theorem tresume_priv (p : Bool) (d : Reg) (a : Src) : exec (.tresume p d a) s = .next (takeTrap s (Trap.of .priv)) := by
  rw [exec_tresume]
  refine runState_error ha ?_
  simp only [needCtl_priv h, bind, Except.bind]

theorem dbgwr_priv (d : Reg) (a b : Src) : exec (.dbgwr d a b) s = .next (takeTrap s (Trap.of .priv)) := by
  rw [exec_dbgwr]
  refine runState_error ha ?_
  simp only [needCtl_priv h, bind, Except.bind]

theorem ckpt_priv (d : Reg) (a b : Src) : exec (.ckpt d a b) s = .next (takeTrap s (Trap.of .priv)) := by
  rw [exec_ckpt]
  refine runState_error ha ?_
  simp only [needCtl_priv h, bind, Except.bind]

end

section
variable (h : t.level ≠ .system)
include h

theorem tlbinv_priv (k : TlbK) (d a b : Src) : exec (.tlbinv k d a b) s = .next (takeTrap s (Trap.of .priv)) := by
  rw [exec_tlbinv]
  refine runState_error ha ?_
  simp only [tlbinvForm, checkLevel_system h, bind, Except.bind]

theorem deadrg_priv (k : DeadK) (d : Reg) (a b : Src) : exec (.deadrg k d a b) s = .next (takeTrap s (Trap.of .priv)) := by
  rw [exec_deadrg]
  refine runState_error ha ?_
  simp only [State.deadRange, checkLevel_system h, bind, Except.bind]

theorem evsel_priv (a b : Src) : exec (.evsel true a b) s = .next (takeTrap s (Trap.of .priv)) := by
  rw [exec_evsel]
  refine runState_error ha ?_
  simp only [eventIdx, if_true, checkLevel_system h, bind, Except.bind]

theorem evrd_priv (d : Reg) (a : Src) : exec (.evrd true d a) s = .next (takeTrap s (Trap.of .priv)) := by
  rw [exec_evrd]
  refine runAgent_error ha ?_
  simp only [eventIdx, if_true, checkLevel_system h, bind, Except.bind]

end
end

/-- Settles O52: the first check of each of these instructions is that of its level. -/
theorem privilegeTraps : Obligations.PrivilegeTraps := fun _ _ ha =>
  ⟨fun h => ⟨fun d n hn => rdsr_priv ha h (n := .imm n) rfl hn d, fun x n hn => wrsr_priv ha h (n := .imm n) rfl hn x,
      fun d x _ hx hn => ⟨rdsr_priv ha h (sysNum_low hx) hn d, wrsr_priv ha h (sysNum_low hx) hn x⟩,
      fun p d a => ⟨dbgrd_priv ha h p d a, tresume_priv ha h p d a⟩, fun d a b => ⟨dbgwr_priv ha h d a b, ckpt_priv ha h d a b⟩⟩,
    fun h => ⟨tlbinv_priv ha h, deadrg_priv ha h, evsel_priv ha h, evrd_priv ha h⟩⟩

end Sys2Proof.Traps
end

section
/-!
PROOF. The address checks of a memory instruction, and the store that meets PAGE (R180).
-/
namespace Sys2Proof.AddressFaults
open Sys2Proof Sys2Proof.Machine Sys2Proof.Claims Sys2Proof.Laws Sys2Proof.LaneResults Sys2Proof.ControlFlow Sys2Proof.MemoryAccess

/-! ## The first cause that a lane meets -/

/-- Some lane meets a cause, or none does. -/
theorem meets_or_none (ls : List LaneTgt) (x : AddrErr) :
    (∃ l ∈ ls, l.meets x = true) ∧ (ls.any fun l => l.meets x) = true ∨ (∀ l ∈ ls, l.meets x = false) ∧ (ls.any fun l => l.meets x) = false := by
  cases h : ls.any fun l => l.meets x with
  | true => exact .inl ⟨List.any_eq_true.1 h, rfl⟩
  | false => exact .inr ⟨fun l hl => Bool.eq_false_iff.2 (List.any_eq_false.1 h l hl), rfl⟩

/-- The causes before the first one are met by no lane. -/
theorem firstErr_some {ls : List LaneTgt} {c : AddrErr} (h : firstErr ls = some c) : (∃ l ∈ ls, l.meets c = true) ∧
    (c ≠ .align → ∀ l ∈ ls, l.meets .align = false) ∧ (c ≠ .align → c ≠ .protect → ∀ l ∈ ls, l.meets .protect = false) ∧
    (c = .page → ∀ l ∈ ls, l.meets .tile = false) := by
  have hmet : ∃ l ∈ ls, l.meets c = true := List.any_eq_true.1 (List.find?_some (p := fun x => ls.any fun l => l.meets x) h)
  refine ⟨hmet, ?_⟩
  unfold firstErr at h
  rcases meets_or_none ls .align with ⟨-, ha⟩ | ⟨ha, ha'⟩
  · rw [List.find?_cons_of_pos (p := fun x => ls.any fun l => l.meets x) ha] at h
    cases h
    exact ⟨fun hc => absurd rfl hc, fun hc => absurd rfl hc, fun hc => nomatch hc⟩
  rw [List.find?_cons_of_neg (by simp [ha'])] at h
  rcases meets_or_none ls .protect with ⟨-, hp⟩ | ⟨hp, hp'⟩
  · rw [List.find?_cons_of_pos (p := fun x => ls.any fun l => l.meets x) hp] at h
    cases h
    exact ⟨fun _ => ha, fun _ hc => absurd rfl hc, fun hc => nomatch hc⟩
  rw [List.find?_cons_of_neg (by simp [hp'])] at h
  refine ⟨fun _ => ha, fun _ _ => hp, ?_⟩
  rintro rfl
  rcases meets_or_none ls .tile with ⟨-, ht⟩ | ⟨ht, -⟩
  · rw [List.find?_cons] at h
    split at h
    · cases h
    · rw [List.find?_cons_of_pos (p := fun x => ls.any fun l => l.meets x) ht] at h
      cases h
  · exact ht

theorem getLsbD_two_pow {k l : Nat} (hk : k < 1024) : (BitVec.ofNat 1024 (2 ^ l)).getLsbD k = decide (l = k) := by
  rw [BitVec.getLsbD_ofNat, decide_eq_true hk, Bool.true_and, Nat.testBit_two_pow]

theorem foldl_mask (ls : List Nat) {k : Nat} (hk : k < 1024) : ∀ m : LaneMask,
    (ls.foldl (fun m l => m ||| BitVec.ofNat 1024 (2 ^ l)) m).getLsbD k = (m.getLsbD k || decide (k ∈ ls)) := by
  induction ls with
  | nil =>
    intro m
    rw [List.foldl_nil, decide_eq_false List.not_mem_nil, Bool.or_false]
  | cons l r ih =>
    intro m
    rw [List.foldl_cons, ih, BitVec.getLsbD_or, getLsbD_two_pow hk, Bool.or_assoc, ← Bool.decide_or]
    simp only [List.mem_cons, eq_comm]

/-- A mask holds the lanes that it is made of. -/
theorem getLsbD_maskOf (ls : List Nat) {k : Nat} (hk : k < 1024) : (maskOf ls).getLsbD k = true ↔ k ∈ ls := by
  rw [maskOf, foldl_mask ls hk, BitVec.ofNat_eq_ofNat, BitVec.getLsbD_zero, Bool.false_or, decide_eq_true_iff]

/-- The mask of a trap of an access with a vector operand. -/
theorem addrTrap_mask (ls : List LaneTgt) (c : AddrErr) : ∃ m, (addrTrap ls c true).mask = some m ∧
    ∀ k < 1024, m.getLsbD k = true ↔ ∃ l ∈ ls, l.lane = k ∧ l.meets c = true := by
  refine ⟨_, rfl, fun k hk => ?_⟩
  rw [getLsbD_maskOf _ hk]
  simp only [List.mem_map, List.mem_filter]
  exact exists_congr fun l => ⟨fun ⟨⟨hl, hm⟩, he⟩ => ⟨hl, he, hm⟩, fun ⟨hl, he, hm⟩ => ⟨⟨hl, hm⟩, he⟩⟩

/-! ## Loads, stores and atomics that meet a cause -/

theorem loadForm_error {w : Width} {d : Reg} {a b : Src} {obs : BitVec 7} {acq : Bool} {n : Nat} {s : State} {t : Team} {c : AddrErr}
    (hA : okAddr t a = true) (hB : okSrc t b = true) (hD : okDst t d = true) (hp : w = .b64 → okPairDst t d = true)
    (hv : isVecDst d = true → Vectors t) (hs : isVecDst d = false → isVec t a = false ∧ isVec t b = false) (hobs : acq = true → obs ≠ 0)
    (hc : firstErr (loadLanes w d a b s t) = some c) :
    loadForm w d a b obs acq n s (s.env s.cur) t = .error (addrTrap (loadLanes w d a b s t) c (isVecDst d)) := by
  have hsrc : checkSrcs t [b] = .ok () := checkSrcs_ok (by simpa using hB)
  have hdst : (okAddr t a && okDst t d && (w != .b64 || okPairDst t d)) = true := by
    simp only [hA, hD, Bool.true_and, Bool.or_eq_true, bne_iff_ne]
    exact (em (w = .b64)).symm.imp id hp
  have hcls : (isVecDst d || !(isVec t a || isVec t b)) = true := by
    cases hd : isVecDst d with
    | true => rfl
    | false => simp [hs hd]
  have hmask : (!acq || obs != 0) = true := by
    cases acq with
    | false => rfl
    | true => simpa using hobs rfl
  have hlanes : lanesTgt s (s.env s.cur) t { write := false, atomic := false, n := Width.bytes w } (memLanes t (isVecDst d))
    (laneAddr (s.env s.cur) t a b) = loadLanes w d a b s t := rfl
  simp only [loadForm, hsrc, hdst, hcls, hmask, needOperand, need_true, bind, Except.bind, hlanes, hc]
  cases hd : isVecDst d with
  | false => rfl
  | true => simp only [if_true, checkSh0_ok (hv hd).1 (hv hd).2]

section
variable {w : Width} {x a b : Src} {obs : BitVec 7} {rel : Bool} {n : Nat} {s : State} {t : Team} (hA : okAddr t a = true)
  (hX : okSrc t x = true) (hB : okSrc t b = true) (hp : w = .b64 → okPairSrc t x = true)
  (hv : (isVec t x || isVec t a || isVec t b) = true → Vectors t) (hobs : rel = true → obs ≠ 0)
include hA hX hB hp hobs

/-- The operands of a store that pass their checks. -/
theorem storeChecks : checkSrcs t [x, b] = .ok () ∧ (okAddr t a && (w != .b64 || okPairSrc t x)) = true ∧ (!rel || obs != 0) = true := by
  refine ⟨checkSrcs_ok (by simp [hX, hB]), ?_, ?_⟩
  · simp only [hA, Bool.true_and, Bool.or_eq_true, bne_iff_ne]
    exact (em (w = .b64)).symm.imp id hp
  · cases rel with
    | false => rfl
    | true => simpa using hobs rfl

include hv

section
variable (hrep : t.replay = none)
include hrep

theorem storeForm_error {c : AddrErr} (hc : firstErr (storeLanes w x a b s t) = some c) (hne : c ≠ .page) :
    storeForm w x a b obs rel n s (s.env s.cur) t = .error (addrTrap (storeLanes w x a b s t) c (isVec t x || isVec t a || isVec t b)) := by
  obtain ⟨hsrc, hdata, hmask⟩ := storeChecks hA hX hB hp hobs
  have htodo (l : List Nat) : l.filter (fun _ => true) = l := List.filter_eq_self.2 fun _ _ => rfl
  have hlanes : lanesTgt s (s.env s.cur) t { write := true, atomic := false, n := Width.bytes w }
    (memLanes t (isVec t x || isVec t a || isVec t b)) (laneAddr (s.env s.cur) t a b) = storeLanes w x a b s t := rfl
  simp only [storeForm, hsrc, hdata, hmask, needOperand, need_true, bind, Except.bind, hrep, htodo, hlanes, hc]
  cases c with
  | page => exact absurd rfl hne
  | align | protect | dead | tile =>
    cases hvec : (isVec t x || isVec t a || isVec t b) with
    | false => rfl
    | true => simp only [if_true, checkSh0_ok (hv hvec).1 (hv hvec).2]

variable (hc : firstErr (storeLanes w x a b s t) = some .page)
include hc

/-- A store with a vector operand performs the lanes that meet nothing, and traps. -/
theorem storeForm_page (hper : (isVec t x || isVec t a || isVec t b) = true) : storeForm w x a b obs rel n s (s.env s.cur) t =
    .ok ((s.issueStore (s.env s.cur) t rel obs (okLanes (Width.bytes w) (storeLanes w x a b s t) (storeData (s.env s.cur) t w x) fun _ => 0)).trapAt
      (s.env s.cur).ag { addrTrap (storeLanes w x a b s t) .page true with store := true }) := by
  obtain ⟨hsrc, hdata, hmask⟩ := storeChecks hA hX hB hp hobs
  have htodo (l : List Nat) : l.filter (fun _ => true) = l := List.filter_eq_self.2 fun _ _ => rfl
  have hlanes : lanesTgt s (s.env s.cur) t { write := true, atomic := false, n := Width.bytes w }
    (memLanes t true) (laneAddr (s.env s.cur) t a b) = storeLanes w x a b s t := by rw [storeLanes, hper]
  simp only [storeForm, hsrc, hdata, hmask, needOperand, need_true, bind, Except.bind, hrep, htodo, hper, hlanes, hc, if_true,
    checkSh0_ok (hv hper).1 (hv hper).2]

omit hv in
/-- A store that executes once only traps. -/
theorem storeForm_page_once (hper : (isVec t x || isVec t a || isVec t b) = false) : storeForm w x a b obs rel n s (s.env s.cur) t =
    .error (addrTrap (storeLanes w x a b s t) .page false) := by
  obtain ⟨hsrc, hdata, hmask⟩ := storeChecks hA hX hB hp hobs
  have htodo (l : List Nat) : l.filter (fun _ => true) = l := List.filter_eq_self.2 fun _ _ => rfl
  have hlanes : lanesTgt s (s.env s.cur) t { write := true, atomic := false, n := Width.bytes w }
    (memLanes t false) (laneAddr (s.env s.cur) t a b) = storeLanes w x a b s t := by rw [storeLanes, hper]
  simp only [storeForm, hsrc, hdata, hmask, needOperand, need_true, bind, Except.bind, hrep, htodo, hper, hlanes, hc, Bool.false_eq_true, if_false]
  rfl

end

/-- A store that is replayed performs the lanes of the fault mask. -/
theorem storeForm_replay {m : LaneMask} (hrep : t.replay = some m) (hper : (isVec t x || isVec t a || isVec t b) = true) {ls : List LaneTgt}
    (hls : lanesTgt s (s.env s.cur) t { write := true, atomic := false, n := Width.bytes w } (t.liveLanes.filter fun l => m.getLsbD l)
      (laneAddr (s.env s.cur) t a b) = ls) (hr : Reached ls) : storeForm w x a b obs rel n s (s.env s.cur) t =
        .ok (s.issueStore (s.env s.cur) (t.advance n) rel obs (okLanes (Width.bytes w) ls (storeData (s.env s.cur) t w x) fun _ => 0)) := by
  obtain ⟨hsrc, hdata, hmask⟩ := storeChecks hA hX hB hp hobs
  have hlive : memLanes t true = t.liveLanes := rfl
  simp only [storeForm, hsrc, hdata, hmask, needOperand, need_true, bind, Except.bind, hrep, hper, if_true, checkSh0_ok (hv hper).1 (hv hper).2,
    Bool.not_true, Bool.false_or, hlive, hls, firstErr_none hr]

end

theorem strelForm_error {w : Width} {x a : Src} {obs : BitVec 7} {s : State} {t : Team} {tr : Trap}
    (h : storeForm w x a (.reg .z) obs true (1 + x.words + a.words) s (s.env s.cur) t = .error tr) :
    strelForm w x a obs s (s.env s.cur) t = .error tr := by
  simp only [strelForm, h, bind, Except.bind]

theorem atomForm_error {o : AtomOp} {wide : Bool} {d : Reg} {a : Src} {obs : BitVec 7} {s : State} {t : Team} {c : AddrErr}
    (hA : okAddr t a = true) (hD : okAtomDst o wide t d = true) (hv : isVecDst d = true → Vectors t)
    (hs : isVecDst d = false → isVec t a = false) (hc : firstErr (atomLanes wide d a s t) = some c) :
    atomForm o wide d a obs s (s.env s.cur) t = .error (addrTrap (atomLanes wide d a s t) c (isVecDst d)) := by
  have hops : (okAddr t a && okAtomDst o wide t d && (isVecDst d || !isVec t a)) = true := by
    cases hd : isVecDst d with
    | true => simp [hA, hD]
    | false => simp [hA, hD, hs hd]
  have hlanes : lanesTgt s (s.env s.cur) t { write := true, atomic := true, n := if wide = true then 8 else 4 } (memLanes t (isVecDst d))
    (laneAddr (s.env s.cur) t a (.reg .z)) = atomLanes wide d a s t := rfl
  simp only [atomForm, hops, needOperand, need_true, bind, Except.bind, hlanes, hc]
  cases hd : isVecDst d with
  | false => rfl
  | true => simp only [if_true, checkSh0_ok (hv hd).1 (hv hd).2]

/-! ## What the statements need -/

theorem resume_replay {t : Team} {r : TrapRec} (hr : t.trap = some r) (hs : r.store = true) (ha : r.after = false) :
    t.resume.replay = some t.fault := by
  unfold Team.resume
  simp only [hr, ha, hs, Bool.false_eq_true, if_false, if_true]

theorem pageStoresReplay : PageStoresReplay := by
  intro w x a b s t ha hA hX hB hp per hv e ls sent
  refine ⟨fun hrep hc hper => ⟨?_, ?_, ?_⟩, fun hrep hc hper => ?_, fun r hr hs haft => resume_replay hr hs haft, fun m hrep hper hr => ?_⟩
  · rw [exec_st]
    exact runState_ok ha (storeForm_page hA hX hB hp hv (by simp) hrep hc hper)
  · rw [exec_ststr]
    exact runState_ok ha (storeForm_page hA hX hB hp hv (by simp) hrep hc hper)
  · rintro obs hobs rfl hcopy
    rw [exec_strel]
    exact runCommit_ok ha hcopy (strelForm_ok (storeForm_page hA hX hB hp hv (fun _ => hobs) hrep hc hper))
  · rw [exec_st]
    exact runState_error ha (storeForm_page_once hA hX hB hp (by simp) hrep hc hper)
  · rw [exec_st]
    exact runState_ok ha (storeForm_replay hA hX hB hp hv (by simp) hrep hper rfl hr)

/-- Settles O53: the forms of loads, stores and atomics by the first cause that their lanes meet, and the trap that it makes. -/
theorem addressFaultsTrap : Obligations.AddressFaultsTrap := by
  refine ⟨pageStoresReplay, fun w d a b s t c ha hA hB hD hp hv hs hc => ⟨?_, ?_, ?_⟩,
    fun w x a b s t c ha hA hX hB hp hv hrep hc hne => ⟨?_, ?_, ?_⟩, fun o wide d a obs s t c ha hA hD hv hs hc => ?_,
    fun ls c per hc => ?_, fun s e t k a hal => if_pos hal⟩
  · rw [exec_ld]
    exact runState_error ha (loadForm_error hA hB hD hp hv hs (by simp) hc)
  · rw [exec_ldstr]
    exact runState_error ha (loadForm_error hA hB hD hp hv hs (by simp) hc)
  · rintro obs hobs rfl
    rw [exec_ldacq]
    exact runState_error ha (loadForm_error hA hB hD hp hv hs (fun _ => hobs) hc)
  · rw [exec_st]
    exact runState_error ha (storeForm_error hA hX hB hp hv (by simp) hrep hc hne)
  · rw [exec_ststr]
    exact runState_error ha (storeForm_error hA hX hB hp hv (by simp) hrep hc hne)
  · rintro obs hobs rfl
    rw [exec_strel]
    exact runCommit_error ha (strelForm_error (storeForm_error hA hX hB hp hv (fun _ => hobs) hrep hc hne))
  · have hform := atomForm_error (obs := obs) hA hD hv hs hc
    cases wide with
    | false => exact (exec_atom o d a obs s).trans (runCommit_error ha hform)
    | true => exact (exec_atom64 o d a obs s).trans (runCommit_error ha hform)
  · obtain ⟨hmet, halign, hprot, htile⟩ := firstErr_some hc
    have hno {y : AddrErr} (hy : ∃ l ∈ ls, l.meets y = true) (hn : ∀ l ∈ ls, l.meets y = false) : False := by
      obtain ⟨l, hl, hm⟩ := hy
      exact Bool.false_ne_true ((hn l hl).symm.trans hm)
    refine ⟨hmet, rfl, beq_iff_eq, addrTrap_mask ls c, rfl, fun hy => ?_, fun hy => ?_, ?_⟩
    · by_contra hne
      exact hno hy (halign hne)
    · by_contra hne
      rw [not_or] at hne
      exact hno hy (hprot hne.1 hne.2)
    · rintro rfl
      exact fun l hl => ⟨htile rfl l hl, hprot (by simp) (by simp) l hl, halign (by simp) l hl⟩

end Sys2Proof.AddressFaults
end

section
/-!
PROOF. IDOT4 and FDOT2: the park, the end by the MGMT firmware, and the end with EMULATED (R79, R96, R112, R278).
-/
namespace Sys2Proof.Emulation
open Sys2Proof Sys2Proof.Machine Sys2Proof.Claims Sys2Proof.Laws Sys2Proof.LanesInteger Sys2Proof.LaneResults Sys2Proof.MemoryAccess

/-! ## The park (R79) -/

theorem parkForm_ok {t : Team} {n : Fin 96} {a b : Src} (i : Instr) (count : Nat) (hw : t.inWindow n.val = true) (hx : Readable t [a, b])
    (hv : Vectors t) : parkForm i (.v n) a b count t = .ok { t with st := .parked, wait := .emul i t.live, since := count } := by
  have hdst : (okDst t (.v n) && isVecDst (.v n)) = true := by rw [okDst_window hw]; rfl
  simp only [parkForm, checkSrcs_ok hx, hdst, checkSh0_ok hv.1 hv.2, needOperand, need_true, bind, Except.bind]

theorem runPark_ok {s : State} {t : Team} {n : Fin 96} {a b : Src} (i : Instr) (ha : s.agent s.cur = some t) (hw : t.inWindow n.val = true)
    (hx : Readable t [a, b]) (hv : Vectors t) : runPark i (.v n) a b s = .next (s.setAgent s.cur
      { t with st := .parked, wait := .emul i t.live, since := (s.core (s.env s.cur).core).count }) := by
  refine runState_ok ha ?_
  simp only [parkForm_ok i _ hw hx hv, bind, Except.bind]

/-! ## The sum of IDOT4 (R96) -/

theorem tInt_elemOf (signed : Bool) (x : W32) (j : Nat) : tInt signed 8 (elemOf 8 x.toNat j) = dotElem signed x j := by
  rw [elemOf_toNat, tInt_toNat (by decide)]
  rfl

theorem idot4Lane_eq (k : DotK) (d a b : W32) : idot4Lane k d a b = idot4Of k d a b := by
  have hrange : List.range 4 = [0, 1, 2, 3] := rfl
  cases k <;> simp only [idot4Lane, idot4Of, hrange, List.map_cons, List.map_nil, List.foldl_cons, List.foldl_nil, tInt_elemOf] <;> rfl

/-! ## The ends of a park (R278) -/

section
variable {s : State} {tid : Nat} {t : Team} {i : Instr} {lanes : LaneMask} (ht : alook tid s.teams = some t) (hst : t.st = .parked)
  (hw : t.wait = .emul i lanes)
include ht hst hw

theorem emulationComplete_ok {u : Team} (he : emulate (s.env (.team tid)) (unparked t) i lanes = some u) (hup : s.fwUp 7 = true)
    (hmay : s.mayIssue tid = true) (hexp : s.expired tid t.since = false) :
    exec (.emulationComplete tid) s = .next { s with teams := aset tid u s.teams } := by
  rw [exec_emulationComplete]
  refine runEvent_of ?_
  simp only [bind, Option.bind, ht]
  split
  next i' lanes' _ hw' =>
    obtain ⟨rfl, rfl⟩ := Wait.emul.inj (hw.symm.trans hw')
    rw [show emulate (s.env (.team tid)) { t with st := .ready, wait := .none } i lanes = some u from he]
    simp only [hup, hmay, hexp, Bool.not_false, Bool.and_self, if_true]
  next hno => exact absurd hw (hno _ _ hst)

theorem emulationTimeout_ok {reported : Bool}
    (hend : (reported = true ∧ s.fwUp 7 = true ∧ s.inActive tid = true) ∨ s.expired tid t.since = true) :
    exec (.emulationTimeout tid reported) s = .next (s.stopTeam tid { cause := .emulated, mask := some lanes
                                                                      count := if s.expired tid t.since then some (s.expiry tid t.since) else none }) := by
  have hcond : (reported && s.fwUp 7 && s.inActive tid || s.expired tid t.since) = true := by
    rcases hend with ⟨hr, hup, hact⟩ | hexp
    · rw [hr, hup, hact]; rfl
    · rw [hexp, Bool.or_true]
  rw [exec_emulationTimeout]
  refine runEvent_of ?_
  simp only [State.emulationTimeout, bind, Option.bind, ht]
  rw [hst, hw]
  exact if_pos hcond

end

/-- Settles O56: the park of each instruction, its value, and the two ends of the park. -/
theorem emulatedInstructions : Obligations.EmulatedInstructions := by
  refine ⟨fun s t n a b ha hwin hx hv => ⟨fun k => ?_, fun k => ?_⟩, fun s tid t i lanes ht hst hw => ?_⟩
  · rw [exec_idot4]
    exact runPark_ok _ ha hwin hx hv
  · rw [exec_fdot2]
    exact runPark_ok _ ha hwin hx hv
  · refine ⟨fun n a b hup hmay hexp => ⟨?_, ?_⟩, fun hup hact hexp => ?_, fun reported hexp => ?_⟩
    · rintro k rfl
      refine emulationComplete_ok ht hst hw ?_ hup hmay hexp
      simp only [emulate, idot4Lane_eq]
      rfl
    · rintro k rfl
      exact emulationComplete_ok ht hst hw rfl hup hmay hexp
    · have h := emulationTimeout_ok ht hst hw (reported := true) (.inl ⟨rfl, hup, hact⟩)
      rwa [hexp] at h
    · have h := emulationTimeout_ok ht hst hw (reported := reported) (.inr hexp)
      rwa [hexp] at h

end Sys2Proof.Emulation
end

section
/-!
PROOF. What an arithmetic instruction leaves unchanged, and where OPERAND, SHAPE and SHAPE-STALE are its trap (R20 to R23, R73 to R75).
-/
namespace Sys2Proof.RegisterFrames
open Sys2Proof Sys2Proof.Machine Sys2Proof.Claims Sys2Proof.Laws Sys2Proof.LanesInteger Sys2Proof.LaneResults

/-! ## What the writes leave unchanged -/

theorem writeLanes_frame (t : Team) (r : Nat) (f : Nat → W32) {q l : Nat} (hl : l < 1024) (h : q = r → t.live.getLsbD l = false) :
    sget (t.writeLanes r t.liveLanes f).vregs (1024 * q + l) = sget t.vregs (1024 * q + l) := by
  refine sget_ssetAll_of_notMem _ _ _ fun e he hkey => ?_
  obtain ⟨m, hm, rfl⟩ := List.mem_map.1 he
  have hlive := live_of_mem hm
  have hm' : m < 1024 := BitVec.lt_of_getLsbD hlive
  have hrl : r = q ∧ m = l := by
    simp only at hkey
    omega
  obtain ⟨rfl, rfl⟩ := hrl
  exact Bool.false_ne_true ((h rfl).symm.trans hlive)

theorem writeNibs_frame (t : Team) (ls : List Nat) (hls : ls = t.liveLanes) (f : Nat → BitVec 4) (l : Nat) (h : t.live.getLsbD l = false) :
    sget (t.writeNibs ls f).cc l = sget t.cc l := by
  subst hls
  refine sget_ssetAll_of_notMem _ _ _ fun e he hkey => ?_
  obtain ⟨m, hm, rfl⟩ := List.mem_map.1 he
  obtain rfl : m = l := hkey
  exact Bool.false_ne_true (h.symm.trans (live_of_mem hm))

theorem or_and_self {w : Nat} (x y : BitVec w) : (x ||| y) &&& x = x := by
  ext i
  simp
  tauto

theorem foldl_flags_zero (ls : List Nat) {g : Nat → LaneRes} (h : ∀ l, (g l).fl = 0) :
    ls.foldl (fun (m : BitVec 5) l => m ||| (g l).fl) 0 = 0 := by
  induction ls with
  | nil => rfl
  | cons l ls ih => simp [h]

/-- The destination of a vector form in its live lanes. -/
def written (t : Team) (r : Nat) (pair : Bool) (g : Nat → LaneRes) : Team :=
  if pair then (t.writeLanes r t.liveLanes fun l => (g l).x.setWidth 32).writeLanes (r + 1) t.liveLanes
      fun l => BitVec.ofNat 32 ((g l).x.toNat / 2 ^ 32)
  else t.writeLanes r t.liveLanes fun l => (g l).x.setWidth 32

theorem written_frame (t : Team) (r : Nat) (pair : Bool) (g : Nat → LaneRes) {q l : Nat} (hl : l < 1024)
    (h : q = r ∨ (pair = true ∧ q = r + 1) → t.live.getLsbD l = false) :
    sget (written t r pair g).vregs (1024 * q + l) = sget t.vregs (1024 * q + l) := by
  cases pair with
  | false => exact writeLanes_frame t r _ hl fun hq => h (.inl hq)
  | true =>
    let u := t.writeLanes r t.liveLanes fun l => (g l).x.setWidth 32
    calc sget (written t r true g).vregs (1024 * q + l)
      _ = sget u.vregs (1024 * q + l) := writeLanes_frame u (r + 1) _ hl fun hq => h (.inr ⟨rfl, hq⟩)
      _ = sget t.vregs (1024 * q + l) := writeLanes_frame t r _ hl fun hq => h (.inl hq)

theorem written_rest (t : Team) (r : Nat) (pair : Bool) (g : Nat → LaneRes) :
    written t r pair g = { t with vregs := (written t r pair g).vregs } := by
  cases pair <;> rfl

/-- A vector form writes its destination's registers, its nibbles and the flags of its lanes. -/
theorem applyLanes_eq (t : Team) (r : Nat) (pair cc : Bool) (g : Nat → LaneRes) : t.applyLanes (some r) pair cc g =
    { t with vregs := (written t r pair g).vregs
             cc := if cc then (t.writeNibs t.liveLanes fun l => (g l).nib).cc else t.cc
             fpflags := t.fpflags ||| t.liveLanes.foldl (fun m l => m ||| (g l).fl) 0 } := by
  cases pair <;> cases cc <;> rfl

/-- A scalar form writes its register, its nibbles and its flags. -/
theorem applyScalar_eq (t : Team) (d : Reg) (cc : Bool) (r : LaneRes) : t.applyScalar (some d) cc r =
    { t with sregs := (t.writeScalar d r.x).sregs
             cc := if cc then (t.writeNibs t.liveLanes fun _ => r.nib).cc else t.cc
             fpflags := t.fpflags ||| r.fl } := by
  cases d <;> cases cc <;> rfl

theorem nibs_frame (t : Team) (cc : Bool) (f : Nat → BitVec 4) {l : Nat} (h : cc = true → t.live.getLsbD l = false) :
    sget (if cc then (t.writeNibs t.liveLanes f).cc else t.cc) l = sget t.cc l := by
  cases cc with
  | false => rfl
  | true => exact writeNibs_frame t _ rfl f l (h rfl)

/-- The outcome of an arithmetic instruction that succeeds: the destination of its class is written. -/
def Writes (o : LaneOp) (d : Reg) (t u : Team) : Prop :=
  (∃ g, isVecDst d = true ∧ (o.flags = false → ∀ l, (g l).fl = 0) ∧ u = t.applyLanes (t.dstReg d) o.pair o.codes g) ∨
  ∃ r, isVecDst d = false ∧ (o.flags = false → r.fl = 0) ∧ u = t.applyScalar (some d) o.codes r

theorem regFrame_of_lanes (o : LaneOp) (n : Fin 96) (t : Team) {g : Nat → LaneRes} (hfl : o.flags = false → ∀ l, (g l).fl = 0) :
    RegFrame o (.v n) t (t.applyLanes (some (t.reg n.val)) o.pair o.codes g) := by
  rw [applyLanes_eq]
  refine ⟨fun k _ => rfl, fun r l hl h => written_frame t _ _ g hl (h n rfl), fun l h => nibs_frame t _ _ h, fun h => ?_,
    or_and_self _ _, rfl⟩
  exact (congrArg _ (foldl_flags_zero _ (hfl h))).trans BitVec.or_zero

theorem writeScalar_sregs_frame (t : Team) (d : Reg) (x : W64) (k : Nat) (h : ∀ n, d = .s n → n.val ≠ k) :
    sget (t.writeScalar d x).sregs k = sget t.sregs k := by
  cases d with
  | s n => exact sget_sset_ne (h n rfl).symm _ _
  | _ => rfl

theorem regFrame_of_scalar (o : LaneOp) (d : Reg) (t : Team) {r : LaneRes} (hfl : o.flags = false → r.fl = 0) :
    RegFrame o d t (t.applyScalar (some d) o.codes r) := by
  rw [applyScalar_eq]
  refine ⟨writeScalar_sregs_frame t d r.x, fun r l _ _ => rfl, fun l h => nibs_frame t _ _ h, fun h => ?_, or_and_self _ _, rfl⟩
  simp [hfl h]

theorem regFrame_of_writes {o : LaneOp} {d : Reg} {t u : Team} (h : Writes o d t u) : RegFrame o d t u := by
  obtain ⟨g, hd, hfl, rfl⟩ | ⟨r, -, hfl, rfl⟩ := h
  · cases d with
    | v n => exact regFrame_of_lanes o n t hfl
    | _ => cases hd
  · exact regFrame_of_scalar o d t hfl

/-! ## The checks of the arithmetic form -/

/-- The operands that the form accepts (R20 to R23). -/
def operandsOk (pair : Bool) (d : Reg) (xs : List Src) (t : Team) : Bool :=
  (xs.all fun x => okSrc t x) && okDst t d && (!pair || (okPairDst t d && xs.all fun x => okPairSrc t x)) &&
    (isVecDst d || !(xs.any fun x => isVec t x))

/-- Without acceptable operands the form raises OPERAND; with them it checks sh0 for a vector destination, and writes. -/
theorem arith_eq (fm : Form) (d : Reg) (xs : List Src) (sca : Env → Team → LaneRes) (vec : Env → Team → Nat → LaneRes) (e : Env) (t : Team) :
    arith fm d xs sca vec e t =
      if operandsOk fm.pair d xs t = true then
        if isVecDst d = true then (checkSh0 t).bind fun _ => .ok (t.applyLanes (t.dstReg d) fm.pair fm.cc (vec e t))
        else .ok (t.applyScalar (some d) fm.cc (sca e t))
      else .error (Trap.of .operand) := by
  -- Each check is one Boolean: the two sides agree on each of their values.
  unfold arith operandsOk checkSrcs needOperand
  cases xs.all fun x => okSrc t x <;> cases okDst t d <;> cases fm.pair <;> cases okPairDst t d <;> cases xs.all fun x => okPairSrc t x <;>
    cases isVecDst d <;> cases xs.any fun x => isVec t x <;> rfl

theorem arith_operand {fm : Form} {d : Reg} {xs : List Src} {sca : Env → Team → LaneRes} {vec : Env → Team → Nat → LaneRes} {e : Env}
    {t : Team} (h : operandsOk fm.pair d xs t = false) : arith fm d xs sca vec e t = .error (Trap.of .operand) := by
  rw [arith_eq, h]
  exact if_neg Bool.false_ne_true

theorem arith_writes {fm : Form} {o : LaneOp} {d : Reg} {xs : List Src} {sca : Env → Team → LaneRes} {vec : Env → Team → Nat → LaneRes}
    {e : Env} {t u : Team} (hp : fm.pair = o.pair) (hc : fm.cc = o.codes)
    (hs : o.flags = false → (sca e t).fl = 0) (hv : o.flags = false → ∀ l, (vec e t l).fl = 0)
    (h : arith fm d xs sca vec e t = .ok u) : Writes o d t u := by
  rw [arith_eq] at h
  rw [hp, hc] at h
  split at h
  · split at h
    next hd =>
      cases hk : checkSh0 t with
      | error x => simp [hk, Except.bind] at h
      | ok v =>
        simp only [hk, Except.bind, Except.ok.injEq] at h
        exact .inl ⟨_, hd, hv, h.symm⟩
    next hd => exact .inr ⟨_, Bool.eq_false_iff.2 hd, hs, (Except.ok.inj h).symm⟩
  · cases h

/-! ## The arithmetic instructions -/

theorem bind_ok {α β : Type} {x : Except Trap α} {f : α → Except Trap β} {b : β} (h : x.bind f = .ok b) : ∃ a, x = .ok a ∧ f a = .ok b := by
  cases x with
  | error x => cases h
  | ok a => exact ⟨a, rfl, h⟩

/-- A check that is made under a condition. -/
theorem guard_ok {α : Type} {c : Prop} [Decidable c] {x : Except Trap Unit} {f : Unit → Except Trap α} {b : α}
    (h : (if c then x.bind f else f ()) = .ok b) : f () = .ok b := by
  split at h
  · obtain ⟨⟨⟩, -, h⟩ := bind_ok h
    exact h
  · exact h

/-- A meaning under which the instruction writes its destination or traps. -/
def Runs (o : LaneOp) (d : Reg) (a b : Src) (s : State) : Prop :=
  ∃ f : Env → Team → Except Trap Team, exec (o.instr d a b) s = runAgent s (o.instr d a b).words f ∧
    ∀ e t u, f e t = .ok u → Writes o d t u

/-- The second source of an instruction, `z` where it has none. -/
def secondSrc (unary : Bool) (b : Src) : Src := if unary then .reg .z else b

theorem secondSrc_unary {unary : Bool} {b : Src} (h : unary = true) : secondSrc unary b = .reg .z := if_pos h

theorem instr_int_secondSrc (o : IntOp) (m : IntMod) (d : Reg) (a b : Src) :
    LaneOp.instr (.int o m) d a b = LaneOp.instr (.int o m) d a (secondSrc o.unary b) := by
  cases o <;> rfl

theorem instr_fp_secondSrc (o : FpOp) (m : FMod) (d : Reg) (a b : Src) :
    LaneOp.instr (.fp o m) d a b = LaneOp.instr (.fp o m) d a (secondSrc (o == .fsqrt) b) := by
  cases o <;> rfl

theorem instr_narrow_secondSrc (o : NarrowOp) (d : Reg) (a b : Src) :
    LaneOp.instr (.narrow o) d a b = LaneOp.instr (.narrow o) d a (secondSrc o.unary b) := by
  cases o <;> rfl

theorem intForm_writes {op : IntIn → IntRes} {o : IntOp} {m : IntMod} {d : Reg} {a b : Src} {e : Env} {t u : Team}
    (h : intForm op m d a b e t = .ok u) : Writes (.int o m) d t u := by
  cases hp : m.ty.packed && d.scalarDest with
  | false =>
    rw [intForm_eq op a b e t hp] at h
    exact arith_writes rfl rfl (fun _ => rfl) (fun _ _ => rfl) h
  | true => simp [intForm, hp, bind, Except.bind] at h

theorem runs_int (o : IntOp) (m : IntMod) (d : Reg) (a b : Src) (s : State) : Runs (.int o m) d a b s := by
  unfold Runs
  rw [instr_int_secondSrc]
  refine ⟨_, exec_intOp o m d a _ s secondSrc_unary, fun e t u h => ?_⟩
  split at h
  · exact intForm_writes h
  · cases hp : m.ty.packed with
    | false =>
      rw [intFormPlain_eq o.op d a _ e t hp] at h
      exact intForm_writes h
    | true => simp [intFormPlain, hp, bind, Except.bind] at h

theorem runs_imm (o : ImmOp) (d : Reg) (a b : Src) (s : State) : Runs (.imm o) d a b s := by
  obtain ⟨srcs, sca, vec, -, runs, scalar, vector⟩ := executes_immOp o d a s
  exact ⟨_, runs, fun e t u h => arith_writes rfl rfl (fun _ => (scalar e t).2) (fun _ l => (vector e t l).2) h⟩

theorem runs_fp (o : FpOp) (m : FMod) (d : Reg) (a b : Src) (s : State) : Runs (.fp o m) d a b s := by
  unfold Runs
  rw [instr_fp_secondSrc]
  exact ⟨_, exec_fpOp o m d a _ s fun h => secondSrc_unary (by simp [h]), fun e t u h => arith_writes rfl rfl nofun nofun h⟩

theorem runs_narrow (o : NarrowOp) (d : Reg) (a b : Src) (s : State) : Runs (.narrow o) d a b s := by
  unfold Runs
  rw [instr_narrow_secondSrc]
  exact ⟨_, exec_narrowOp o d a _ s secondSrc_unary, fun e t u h => arith_writes rfl rfl nofun nofun h⟩

theorem cvtForm_writes {r : Rm} {c : Fin 16} {d : Reg} {a : Src} {e : Env} {t u : Team} (h : cvtForm r c.val d a e t = .ok u) :
    Writes (.cvt r c) d t u := by
  unfold cvtForm at h
  obtain ⟨-, -, h⟩ := bind_ok h
  obtain ⟨-, -, h⟩ := bind_ok h
  replace h := guard_ok (guard_ok h)
  split at h
  next hd =>
    obtain ⟨-, -, h⟩ := bind_ok h
    exact .inl ⟨_, hd, nofun, (Except.ok.inj h).symm⟩
  next hd =>
    obtain ⟨-, -, h⟩ := bind_ok h
    exact .inr ⟨_, Bool.eq_false_iff.2 hd, nofun, (Except.ok.inj h).symm⟩

theorem runs_laneOp (o : LaneOp) (d : Reg) (a b : Src) (s : State) : Runs o d a b s := by
  cases o with
  | int o m => exact runs_int o m d a b s
  | imm o => exact runs_imm o d a b s
  | fp o m => exact runs_fp o m d a b s
  | dp o cc => exact ⟨_, exec_dpOp o cc d a b s, fun e t u h => arith_writes rfl rfl nofun nofun h⟩
  | narrow o => exact runs_narrow o d a b s
  | cvt r c => exact ⟨cvtForm r c.val d a, by simp [LaneOp.instr, Instr.words]; rfl, fun e t u h => cvtForm_writes h⟩
  | sel c => exact ⟨_, by simp [LaneOp.instr, Instr.words]; rfl, fun e t u h => arith_writes rfl rfl (fun _ => rfl) (fun _ _ => rfl) h⟩

theorem sameMemory_of_mems {s s' : State} (h : mems s' = mems s) : SameMemory s s' := by
  simpa only [mems, Prod.mk.injEq, SameMemory] using h

theorem frame_of_runs {o : LaneOp} {d : Reg} {a b : Src} {s s' : State} (h : exec (o.instr d a b) s = .next s') :
    SameMemory s s' ∧
    ((∃ t u, s.agent s.cur = some t ∧ RegFrame o d t u ∧ s' = s.setAgent s.cur (u.advance (o.instr d a b).words)) ∨
      ∃ x, s' = takeTrap s x) := by
  obtain ⟨f, hx, hf⟩ := runs_laneOp o d a b s
  rw [hx] at h
  obtain ⟨t, ha, ⟨u, hu, rfl⟩ | ⟨x, -, rfl⟩⟩ := runAgent_cases h
  · exact ⟨sameMemory_of_mems (setAgent_mems ..), .inl ⟨t, u, ha, regFrame_of_writes (hf _ _ _ hu), rfl⟩⟩
  · exact ⟨sameMemory_of_mems (takeTrap_mems ..), .inr ⟨x, rfl⟩⟩

/-! ## Where OPERAND, SHAPE and SHAPE-STALE are the trap -/

/-- The instructions of which OPERAND is told: each is an arithmetic form of its two sources. -/
def Told (o : LaneOp) (d : Reg) (a b : Src) (s : State) : Prop :=
  ∃ (fm : Form) (n : Nat) (f : Env → Team → Except Trap Team) (sca : Env → Team → LaneRes) (vec : Env → Team → Nat → LaneRes),
    fm.pair = o.pair ∧ exec (o.instr d a b) s = runAgent s n f ∧ ∀ e t, f e t = arith fm d [a, b] sca vec e t

theorem told_int {o : IntOp} {m : IntMod} (d : Reg) (a b : Src) (s : State) (hp : m.ty.packed = false) (hu : o.unary = false) :
    Told (.int o m) d a b s := by
  refine ⟨{ cc := m.cc, pair := false }, _, _, o.scalar m d a b, o.lane m d a b, rfl, exec_intOp o m d a b s (by simp [hu]), fun e t => ?_⟩
  split
  · exact intForm_eq o.op a b e t (by simp [hp])
  · exact (intFormPlain_eq o.op d a b e t hp).trans (intForm_eq o.op a b e t (by simp [hp]))

section
variable {o : LaneOp} {d : Reg} {a b : Src} {s : State} {t : Team} (ha : s.agent s.cur = some t) (ht : Told o d a b s)
include ha ht

theorem traps_operand (h : operandsOk o.pair d [a, b] t = false) : exec (o.instr d a b) s = .next (takeTrap s (Trap.of .operand)) := by
  obtain ⟨fm, n, f, sca, vec, hp, hx, hf⟩ := ht
  rw [hx, runAgent_error ha ((hf _ _).trans (arith_operand (hp ▸ h)))]

/-- With acceptable operands and a vector destination the check of sh0 decides. -/
theorem traps_sh0 {x : Trap} (h : operandsOk o.pair d [a, b] t = true) (hd : isVecDst d = true) (hk : checkSh0 t = .error x) :
    exec (o.instr d a b) s = .next (takeTrap s x) := by
  obtain ⟨fm, n, f, sca, vec, hp, hx, hf⟩ := ht
  refine hx.trans (runAgent_error ha ((hf _ _).trans ?_))
  rw [arith_eq, hp, if_pos h, if_pos hd, hk]
  rfl

theorem traps_unreadable (h : okSrc t a = false ∨ okSrc t b = false ∨ okDst t d = false) :
    exec (o.instr d a b) s = .next (takeTrap s (Trap.of .operand)) := by
  refine traps_operand ha ht ?_
  obtain h | h | h := h <;> simp [operandsOk, h]

/-- A window code of a register that the allotment does not hold. -/
theorem traps_outside {n : Fin 96} (hn : t.allot ≤ 32 * t.winBase + n.val) (h : d = .v n ∨ a = .reg (.v n) ∨ b = .reg (.v n)) :
    exec (o.instr d a b) s = .next (takeTrap s (Trap.of .operand)) := by
  have hlt : Nat.blt (t.reg n.val) t.allot = false := by
    rw [← Bool.not_eq_true, Nat.blt_eq]
    exact Nat.not_lt.2 hn
  have hout : t.inWindow n.val = false := by rw [Team.inWindow, hlt, Bool.and_false]
  refine traps_unreadable ha ht ?_
  obtain rfl | rfl | rfl := h
  · exact .inr (.inr hout)
  · exact .inl hout
  · exact .inr (.inl hout)

/-- An odd window code where a pair stands. -/
theorem traps_odd (hp : o.pair = true) {n : Fin 96} (hn : n.val % 2 = 1) (h : d = .v n ∨ a = .reg (.v n) ∨ b = .reg (.v n)) :
    exec (o.instr d a b) s = .next (takeTrap s (Trap.of .operand)) := by
  have hodd : okPair t (.v n) = false := by simp [okPair, hn]
  refine traps_operand ha ht ?_
  obtain rfl | rfl | rfl := h <;> simp [operandsOk, okPairDst, okPairSrc, hp, hodd]

end

/-- Settles O54: each arithmetic instruction writes its destination or traps, and its checks come in the order of the form. -/
theorem registerFrame : Obligations.RegisterFrame := by
  refine ⟨?_, fun o d a b s s' h => frame_of_runs h⟩
  intro o d a b s t ha ho
  have htold : Told o d a b s := by
    cases o with
    | int o m => exact told_int d a b s ho.1 ho.2
    | dp o cc => exact ⟨_, _, _, _, _, rfl, exec_dpOp o cc d a b s, fun _ _ => rfl⟩
    | sel c => exact ⟨_, _, _, _, _, rfl, exec_sel c d a b s, fun _ _ => rfl⟩
    | _ => exact ho.elim
  refine ⟨traps_unreadable ha htold, fun hd => ?_, fun n hn h => traps_outside ha htold hn h, fun hd hv => ?_,
    fun hp n hn h => traps_odd ha htold hp hn h, fun hd hr hp => ?_⟩
  · refine traps_unreadable ha htold (.inr (.inr ?_))
    cases d <;> simp at hd <;> rfl
  · refine traps_operand ha htold ?_
    obtain hv | hv := hv <;> simp [operandsOk, hd, hv]
  · have hok : operandsOk o.pair d [a, b] t = true := by
      obtain ⟨hvec, hdst⟩ := hd
      cases hq : o.pair with
      | false => simp [operandsOk, hvec, hdst, hr a, hr b]
      | true =>
        obtain ⟨hpd, hpa, hpb⟩ := hp hq
        simp [operandsOk, hvec, hdst, hr a, hr b, hpd, hpa, hpb]
    exact ⟨fun hk => traps_sh0 ha htold hok hd.1 (by simp [checkSh0, hk]),
      fun hk hstale => traps_sh0 ha htold hok hd.1 (by simp [checkSh0, hk, hstale])⟩

end Sys2Proof.RegisterFrames
end

section
/-!
PROOF. What a memory request writes, and what it leaves unchanged (R183, R188, R237, R244, R328): the bytes of a target after a write, the
steps of a home that change no byte, and the time at which a load reads.
-/
namespace Sys2Proof.MemoryEffect
open Sys2Proof Sys2Proof.Machine Sys2Proof.Claims Sys2Proof.Laws Sys2Proof.ControlFlow Sys2Proof.MemoryAccess
open Sys2Proof.RegisterFrames (sameMemory_of_mems)

/-! ## Dead units (R328) -/

theorem deadHas_deadDel (d : List (Nat × Nat)) (lo hi u : Nat) :
    deadHas (deadDel d lo hi) u = (deadHas d u && !(Nat.ble lo u && Nat.blt u hi)) := by
  induction d with
  | nil => rfl
  | cons r d ih =>
    simp only [deadHas, deadDel, List.flatMap_cons, List.any_append, List.any_cons] at ih ⊢
    rw [ih, Bool.and_or_distrib_right]
    congr 1
    rw [Bool.eq_iff_iff]
    split <;> split <;> simp [Nat.blt_eq, Nat.ble_eq, ← Bool.not_eq_true] <;> omega

theorem alook_filter_key {α : Type} (p : Nat → Bool) (k : Nat) (m : List (Nat × α)) :
    alook k (m.filter fun e => p e.1) = if p k = true then alook k m else none := by
  induction m with
  | nil => simp [alook]
  | cons e r ih =>
    obtain ⟨j, v⟩ := e
    by_cases hj : j = k
    · subst hj
      cases hp : p j <;> simp [hp, alook, ih]
    · have hkj : k ≠ j := Ne.symm hj
      cases hp : p j <;> cases hq : p k <;> simp [hp, hq, alook, ih, hkj]

theorem sget_sclear {w : Nat} (m : List (Nat × BitVec w)) (lo hi k : Nat) :
    sget (sclear m lo hi) k = if lo ≤ k ∧ k < hi then 0 else sget m k := by
  unfold sget sclear
  rw [alook_filter_key fun k => !(Nat.ble lo k && Nat.blt k hi)]
  have hin : (Nat.ble lo k && Nat.blt k hi) = decide (lo ≤ k ∧ k < hi) := by
    rw [Bool.eq_iff_iff]
    simp [Nat.blt_eq]
  by_cases h : lo ≤ k ∧ k < hi <;> simp [hin, h]

theorem deadHas_touchUnit (s : State) (u v : Nat) : deadHas (s.touchUnit u).dead v = (deadHas s.dead v && v != u) := by
  unfold State.touchUnit
  split
  next h =>
    simp only [State.reviveUnits, deadHas_deadDel]
    congr 1
    rw [Bool.eq_iff_iff]
    simp [← Bool.not_eq_true]
  next h =>
    by_cases huv : v = u
    · subst huv
      simp [h]
    · simp [huv]

theorem sget_mem_touchUnit (s : State) (u q : Nat) :
    sget (s.touchUnit u).mem q = if deadHas s.dead u = true ∧ q / 4096 = u then 0 else sget s.mem q := by
  unfold State.touchUnit
  split
  next h =>
    simp only [State.reviveUnits, sget_sclear, h, true_and]
    congr 1
    rw [eq_iff_iff]
    omega
  next h => rw [if_neg fun hc => h hc.1]

/-- A unit that becomes live reads zero, as it did (R328). -/
theorem byte_touchUnit (s : State) (u q : Nat) : (s.touchUnit u).byte q = s.byte q := by
  unfold State.byte
  rw [deadHas_touchUnit, sget_mem_touchUnit]
  by_cases hq : q / 4096 = u
  · subst hq
    cases deadHas s.dead (q / 4096) <;> simp
  · simp [hq]

/-! ## A byte string written -/

/-- The units that the first and the last byte of a string lie in are live once it is written. -/
theorem writeDev_byte_outside (s : State) (pa q : Nat) (bs : List Byte) (h : q < pa ∨ pa + bs.length ≤ q) : (s.writeDev pa bs).byte q = s.byte q := by
  let s1 := (s.touchUnit (pa / 4096)).touchUnit ((pa + bs.length - 1) / 4096)
  calc (s.writeDev pa bs).byte q
    _ = s1.byte q := by
      have hout : ¬(pa ≤ q ∧ q < pa + bs.length) := by omega
      simp only [State.byte, State.writeDev, sget_putBytes, if_neg hout, s1]
    _ = s.byte q := by rw [byte_touchUnit, byte_touchUnit]

theorem writeDev_byte_inside (s : State) (pa j : Nat) (bs : List Byte) (hj : j < bs.length) (hn : bs.length ≤ 8) :
    (s.writeDev pa bs).byte (pa + j) = bs.getD j 0 := by
  have hunit : (pa + j) / 4096 = pa / 4096 ∨ (pa + j) / 4096 = (pa + bs.length - 1) / 4096 := by omega
  have hlive : deadHas ((s.touchUnit (pa / 4096)).touchUnit ((pa + bs.length - 1) / 4096)).dead ((pa + j) / 4096) = false := by
    rw [deadHas_touchUnit, deadHas_touchUnit]
    obtain h | h := hunit <;> simp [h]
  have hin : pa ≤ pa + j ∧ pa + j < pa + bs.length := by omega
  simp only [State.byte, State.writeDev, hlive, sget_putBytes, if_pos hin, Bool.false_eq_true, if_false, Nat.add_sub_cancel_left]

theorem touchUnit_rest (s : State) (u : Nat) : ∃ m d p q, s.touchUnit u = { s with mem := m, dead := d, poison := p, past := q } := by
  unfold State.touchUnit
  split
  · exact ⟨_, _, _, _, rfl⟩
  · exact ⟨s.mem, s.dead, s.poison, s.past, rfl⟩

theorem writeDev_rest (s : State) (pa : Nat) (bs : List Byte) :
    ∃ m d p q, s.writeDev pa bs = { s with mem := m, dead := d, poison := p, past := q } := by
  obtain ⟨m, d, p, q, h1⟩ := touchUnit_rest s (pa / 4096)
  obtain ⟨m', d', p', q', h2⟩ := touchUnit_rest (s.touchUnit (pa / 4096)) ((pa + bs.length - 1) / 4096)
  unfold State.writeDev
  simp only [h2]
  simp only [h1]
  exact ⟨_, _, _, _, rfl⟩

/-- A device register is no byte of memory or of a tile. -/
theorem writeReg_rest (s : State) (pa : Nat) (x : W64) :
    ∃ l k m w d, s.writeReg pa x = { s with linkcfg := l, kports := k, mports := m, windows := w, devRegs := d } := by
  unfold State.writeReg
  cases devReg pa with
  | linkcfg =>
    dsimp only
    split
    · exact ⟨s.linkcfg, s.kports, s.mports, s.windows, s.devRegs, rfl⟩
    · exact ⟨_, _, _, _, _, rfl⟩
  | window w hi =>
    cases hi
    all_goals
      dsimp only
      simp only [Bool.false_eq_true, if_false, if_true]
      split
      · exact ⟨_, _, _, _, _, rfl⟩
      · exact ⟨s.linkcfg, s.kports, s.mports, s.windows, s.devRegs, rfl⟩
  | _ => exact ⟨_, _, _, _, _, rfl⟩

theorem tileByte_put (s : State) (k off : Nat) {x x' : Tile} (hx : alook k s.tiles = some x) (bs : List Byte)
    (hb : x'.bytes = putBytes x.bytes off bs) (k' q : Nat) :
    ({ s with tiles := aset k x' s.tiles } : State).tileByte k' q =
      if k' = k ∧ off ≤ q ∧ q < off + bs.length then bs.getD (q - off) 0 else s.tileByte k' q := by
  by_cases hk : k' = k
  · subst hk
    simp only [State.tileByte, alook_aset_same, hb, sget_putBytes, hx, true_and]
  · simp only [State.tileByte, alook_aset_ne hk, hk, false_and, if_false]

theorem writeTgt_tile {s : State} {k off : Nat} {x : Tile} (h : alook k s.tiles = some x) (bs : List Byte) :
    s.writeTgt (.tile k off) bs = { s with tiles := aset k (x.put off bs) s.tiles } := by
  simp only [State.writeTgt, h]

theorem writeTgt_noTile {s : State} {k off : Nat} (h : alook k s.tiles = none) (bs : List Byte) : s.writeTgt (.tile k off) bs = s := by
  simp only [State.writeTgt, h]

theorem writeTgt_reg (s : State) (pa : Nat) (bs : List Byte) :
    ∃ l k m w d, s.writeTgt (.reg pa) bs = { s with linkcfg := l, kports := k, mports := m, windows := w, devRegs := d } :=
  writeReg_rest s _ _

/-- What a write of a string to a target does to a byte outside it. -/
theorem writeTgt_outside (s : State) (t g : Target) (bs : List Byte) (j : Nat) (hg : NoReg g) (h : Outside g j t bs.length) :
    (s.writeTgt t bs).tgtByte g j = s.tgtByte g j := by
  unfold Outside at h
  cases t with
  | dev pa =>
    obtain ⟨m, d, p, q, hw⟩ := writeDev_rest s pa bs
    cases g with
    | dev qa => exact writeDev_byte_outside s pa (qa + j) bs (by simpa [Target.key] using h)
    | reg pa => exact hg.elim
    | _ =>
      rw [State.writeTgt, hw]
      rfl
  | host a =>
    cases g with
    | host b =>
      have hout : ¬(a ≤ b + j ∧ b + j < a + bs.length) := by
        simp [Target.key] at h
        omega
      simp only [State.tgtByte, State.writeTgt, sget_putBytes, if_neg hout]
    | reg pa => exact hg.elim
    | _ => rfl
  | peer p a =>
    cases g with
    | peer q b =>
      have hout : ¬(a ≤ b + j ∧ b + j < a + bs.length) := by
        simp [Target.key] at h
        omega
      simp only [State.tgtByte, State.writeTgt, sget_putBytes, if_neg hout]
    | reg pa => exact hg.elim
    | _ => rfl
  | tile k off =>
    cases hx : alook k s.tiles with
    | none => rw [writeTgt_noTile hx]
    | some x =>
      rw [writeTgt_tile hx]
      cases g with
      | tile k' off' =>
        have hout : ¬(k' = k ∧ off ≤ off' + j ∧ off' + j < off + bs.length) := by
          simp [Target.key] at h
          omega
        exact (tileByte_put s k off hx bs rfl k' (off' + j)).trans (if_neg hout)
      | reg pa => exact hg.elim
      | _ => rfl
  | reg pa =>
    obtain ⟨l, k, m, w, d, hw⟩ := writeTgt_reg s pa bs
    rw [hw]
    cases g with
    | reg pa => exact hg.elim
    | _ => rfl

theorem writeTgt_inside (s : State) (t : Target) (bs : List Byte) (j : Nat) (ht : Plain s t) (hj : j < bs.length) (hn : bs.length ≤ 8) :
    (s.writeTgt t bs).tgtByte t j = bs.getD j 0 := by
  cases t with
  | dev pa => exact writeDev_byte_inside s pa j bs hj hn
  | host a =>
    have hin : a ≤ a + j ∧ a + j < a + bs.length := by omega
    simp only [State.tgtByte, State.writeTgt, sget_putBytes, if_pos hin, Nat.add_sub_cancel_left]
  | peer p a =>
    have hin : a ≤ a + j ∧ a + j < a + bs.length := by omega
    simp only [State.tgtByte, State.writeTgt, sget_putBytes, if_pos hin, Nat.add_sub_cancel_left]
  | tile k off =>
    cases hx : alook k s.tiles with
    | none => exact (ht hx).elim
    | some x =>
      rw [writeTgt_tile hx]
      refine (tileByte_put s k off hx bs rfl k (off + j)).trans ?_
      rw [if_pos (by omega), Nat.add_sub_cancel_left]
  | reg pa => exact ht.elim

theorem writeAs_noTile {s : State} {k off : Nat} (h : alook k s.tiles = none) (op : Nat) (a : Agent) (st at_ : Bool) (rels : List Release)
    (bs : List Byte) : s.writeAs op a st at_ rels (.tile k off) bs = s := by
  rw [State.writeAs, if_neg (by simp only [Target.key]; omega)]
  simp only [h]

theorem writeAs_tile {s : State} {k off : Nat} {x : Tile} (h : alook k s.tiles = some x) (op : Nat) (a : Agent) (st at_ : Bool)
    (rels : List Release) (bs : List Byte) : s.writeAs op a st at_ rels (.tile k off) bs =
      { s with tiles := aset k { x.put off bs with rels := x.relsAfter off bs.length at_ rels } s.tiles } := by
  rw [State.writeAs, if_neg (by simp only [Target.key]; omega)]
  simp only [h]

/-- A write that takes its place in the coherence order leaves the bytes that the write leaves. -/
theorem writeAs_tgtByte (s : State) (op : Nat) (a : Agent) (st at_ : Bool) (rels : List Release) (t : Target) (bs : List Byte) {g : Target}
    (hg : NoReg g) (j : Nat) : (s.writeAs op a st at_ rels t bs).tgtByte g j = (s.writeTgt t bs).tgtByte g j := by
  cases t with
  | tile k off =>
    cases hx : alook k s.tiles with
    | none => rw [writeTgt_noTile hx, writeAs_noTile hx]
    | some x =>
      rw [writeTgt_tile hx, writeAs_tile hx]
      cases g with
      | tile k' off' =>
        exact (tileByte_put s k off hx bs rfl k' (off' + j)).trans (tileByte_put s k off hx bs rfl k' (off' + j)).symm
      | reg pa => exact hg.elim
      | _ => rfl
  | reg pa => rfl
  | _ => cases g <;> rfl

/-! ## Little-endian values (R42) -/

theorem leValue_congr {f g : Nat → Byte} {a n : Nat} (h : ∀ i < n, f (a + i) = g (a + i)) : leValue f a n = leValue g a n := by
  induction n generalizing a with
  | zero => rfl
  | succ n ih =>
    have htail := ih (a := a + 1) fun i hi => by simpa [Nat.add_assoc, Nat.add_comm 1] using h (i + 1) (by omega)
    have hhead := h 0 (by omega)
    simp only [leValue, htail]
    rw [show f a = g a from hhead]

theorem leValue_lt (f : Nat → Byte) (a n : Nat) : leValue f a n < 256 ^ n := by
  induction n generalizing a with
  | zero => simp [leValue]
  | succ n ih =>
    have h := ih (a + 1)
    have hb := (f a).isLt
    simp only [leValue, Nat.pow_succ]
    omega

/-- The value of the bytes of a number. -/
theorem leValue_of_bytes {f : Nat → Byte} {a n x : Nat} (h : ∀ i < n, f (a + i) = BitVec.ofNat 8 (x / 256 ^ i)) :
    leValue f a n = x % 256 ^ n := by
  induction n generalizing a x with
  | zero => simp [leValue, Nat.mod_one]
  | succ n ih =>
    have hhead : f a = BitVec.ofNat 8 x := by simpa using h 0 (by omega)
    have htail : leValue f (a + 1) n = x / 256 % 256 ^ n := ih fun i hi => by
      rw [Nat.div_div_eq_div_mul, ← Nat.pow_succ', ← h (i + 1) (by omega), Nat.add_assoc, Nat.add_comm 1]
    have hmod : x % 256 ^ (n + 1) = x % 256 + 256 * (x / 256 % 256 ^ n) := by rw [Nat.pow_succ', Nat.mod_mul]
    rw [hmod, leValue, hhead, htail, BitVec.toNat_ofNat]

theorem leBytes_getD {x n j : Nat} (hj : j < n) : (leBytes x n).getD j 0 = BitVec.ofNat 8 (x / 256 ^ j) := by
  induction n generalizing x j with
  | zero => omega
  | succ n ih =>
    cases j with
    | zero => simp [leBytes]
    | succ j =>
      have h := ih (x := x / 256) (j := j) (by omega)
      rw [Nat.div_div_eq_div_mul, ← Nat.pow_succ'] at h
      simpa [leBytes] using h

theorem pow_eight_mul (n : Nat) : 2 ^ (8 * n) = 256 ^ n := by
  rw [Nat.pow_mul]

theorem atomicNew_lt (a : AtomOp) {w old x y : Nat} (ho : old < 2 ^ w) (hx : x < 2 ^ w) (hy : y < 2 ^ w) : atomicNew a w old x y < 2 ^ w := by
  cases a with
  | add => exact Nat.mod_lt _ (by positivity)
  | and => exact Nat.and_lt_two_pow _ hx
  | or => exact Nat.or_lt_two_pow ho hx
  | xor => exact Nat.xor_lt_two_pow ho hx
  | swap => exact hx
  | _ =>
    unfold atomicNew
    dsimp only
    split <;> assumption

/-! ## What leaves every byte as it was -/

/-- Every byte of memory and of a tile reads as before. -/
def SameBytes (s s' : State) : Prop := ∀ g j, NoReg g → s'.tgtByte g j = s.tgtByte g j

theorem SameBytes.trans {s1 s2 s3 : State} (h : SameBytes s1 s2) (k : SameBytes s2 s3) : SameBytes s1 s3 :=
  fun g j hg => (k g j hg).trans (h g j hg)

theorem sameBytes_of_mems {s s' : State} (hm : mems s' = mems s) (ht : s'.tiles = s.tiles) : SameBytes s s' := by
  simp only [mems, Prod.mk.injEq] at hm
  obtain ⟨hmem, hhost, hpeer, -, hdead⟩ := hm
  intro g j hg
  cases g with
  | dev pa => simp only [State.tgtByte, State.byte, hmem, hdead]
  | host a => simp only [State.tgtByte, hhost]
  | peer p k => simp only [State.tgtByte, hpeer]
  | tile k off => simp only [State.tgtByte, State.tileByte, ht]
  | reg pa => exact hg.elim

theorem setAgent_bytes (s : State) (a : Agent) (t : Team) : SameBytes s (s.setAgent a t) :=
  sameBytes_of_mems (setAgent_mems ..) (setAgent_tiles ..)

theorem noteRead_tiles (s : State) (id : Nat) (o : PendOp) (t : Target) (n time : Nat) : (s.noteRead id o t n time).tiles = s.tiles := by
  unfold State.noteRead
  dsimp only
  repeat' split
  all_goals simp [State.addOrder]

theorem putLane_tiles (s : State) (a : Agent) (o : PendOp) (l : LaneAcc) : (s.putLane a o l).tiles = s.tiles := by
  unfold State.putLane
  split <;> simp

theorem putEarly_tiles (s : State) (o : PendOp) (l : LaneAcc) : (s.putEarly o l).1.tiles = s.tiles := by
  unfold State.putEarly
  split
  · dsimp only
    split <;> simp [putLane_tiles]
  · rfl

theorem noteRead_bytes (s : State) (id : Nat) (o : PendOp) (t : Target) (n time : Nat) : SameBytes s (s.noteRead id o t n time) :=
  sameBytes_of_mems (noteRead_mems ..) (noteRead_tiles ..)

theorem putEarly_bytes (s : State) (o : PendOp) (l : LaneAcc) : SameBytes s (s.putEarly o l).1 :=
  sameBytes_of_mems (putEarly_mems ..) (putEarly_tiles ..)

theorem putOp_bytes (s : State) (id : Nat) (o : PendOp) : SameBytes s (s.putOp id o) := by
  refine sameBytes_of_mems (putOp_mems ..) ?_
  unfold State.putOp
  split <;> rfl

theorem accepted_bytes (s : State) (core home : Nat) : SameBytes s (s.accepted core home) := by
  refine sameBytes_of_mems (accepted_mems ..) ?_
  unfold State.accepted
  repeat' split
  all_goals rfl

/-! ## The flits of a request and of its response -/

/-- Only flits have been put into ports: no port's status register reads otherwise. -/
def OnlyFlits (s s' : State) : Prop :=
  ∃ k m, s' = { s with kports := k, mports := m } ∧ (∀ p, (agetD Port.init p k).status = (agetD Port.init p s.kports).status) ∧
    ∀ p, (agetD Port.init p m).status = (agetD Port.init p s.mports).status

theorem OnlyFlits.refl (s : State) : OnlyFlits s s := ⟨s.kports, s.mports, rfl, fun _ => rfl, fun _ => rfl⟩

theorem OnlyFlits.trans {s1 s2 s3 : State} (h : OnlyFlits s1 s2) (k : OnlyFlits s2 s3) : OnlyFlits s1 s3 := by
  obtain ⟨k1, m1, rfl, hk1, hm1⟩ := h
  obtain ⟨k2, m2, rfl, hk2, hm2⟩ := k
  exact ⟨k2, m2, rfl, fun p => (hk2 p).trans (hk1 p), fun p => (hm2 p).trans (hm1 p)⟩

theorem status_aset (m : List (Nat × Port)) (k p : Nat) {x : Port} (hx : x.status = (agetD Port.init k m).status) :
    (agetD Port.init p (aset k x m)).status = (agetD Port.init p m).status := by
  by_cases hp : p = k
  · subst hp
    rw [← hx, agetD, alook_aset_same]
  · unfold agetD
    rw [alook_aset_ne hp]

theorem setPort_onlyFlits (s : State) (p : PortId) (type : Nat) (payload : BitVec 1920) (req : Option (Nat × Nat)) (win : Option Nat) (ports : Nat) :
    OnlyFlits s (s.setPort p ((s.port p).sendFlit type payload req win ports)) := by
  cases p with
  | kazeg k => exact ⟨_, s.mports, rfl, fun p => status_aset s.kports k p rfl, fun _ => rfl⟩
  | memory m => exact ⟨s.kports, _, rfl, fun _ => rfl, fun p => status_aset s.mports m p rfl⟩

theorem sendOn_onlyFlits (s : State) (t : Target) (req : Option (Nat × Nat)) : OnlyFlits s (s.sendOn t req) := by
  unfold State.sendOn
  split
  · split
    · exact setPort_onlyFlits ..
    · exact .refl s
  · exact .refl s

theorem carry_onlyFlits {s s1 : State} {id : Nat} {l : LaneAcc} (h : s.carry id l = some s1) : OnlyFlits s s1 := by
  unfold State.carry at h
  repeat' split at h
  all_goals cases h
  · exact .refl s
  · exact sendOn_onlyFlits ..
  · exact .refl s

theorem respond_onlyFlits {s s1 : State} {a : Agent} (h : s.respond a = some s1) : OnlyFlits s s1 := by
  cases a with
  | peer pkg x =>
    obtain ⟨p, -, rfl⟩ := Option.map_eq_some_iff.1 h
    exact setPort_onlyFlits ..
  | _ =>
    obtain rfl := Option.some.inj h
    exact .refl _

theorem OnlyFlits.bytes {s s' : State} (h : OnlyFlits s s') (g : Target) (j : Nat) : s'.tgtByte g j = s.tgtByte g j := by
  obtain ⟨k, m, rfl, hk, hm⟩ := h
  cases g with
  | reg pa =>
    have hreg : ({ s with kports := k, mports := m } : State).regRaw (pa / 8 * 8) = s.regRaw (pa / 8 * 8) := by
      unfold State.regRaw
      cases devReg (pa / 8 * 8) with
      | kport p => exact hk p
      | mport p => exact hm p
      | _ => rfl
    simp only [State.tgtByte, hreg]
  | _ => rfl

theorem OnlyFlits.sameBytes {s s' : State} (h : OnlyFlits s s') : SameBytes s s' := fun g j _ => h.bytes g j

theorem OnlyFlits.plain {s s' : State} (h : OnlyFlits s s') {t : Target} (hp : Plain s t) : Plain s' t := by
  obtain ⟨k, m, rfl, -, -⟩ := h
  exact hp

theorem OnlyFlits.poisoned {s s' : State} (h : OnlyFlits s s') (t : Target) (n : Nat) : s'.tgtPoisoned t n = s.tgtPoisoned t n := by
  obtain ⟨k, m, rfl, -, -⟩ := h
  rfl

theorem OnlyFlits.held {s s' : State} (h : OnlyFlits s s') (a : Agent) (id : Nat) : s'.heldBy a id = s.heldBy a id := by
  obtain ⟨k, m, rfl, -, -⟩ := h
  rfl

theorem OnlyFlits.time {s s' : State} (h : OnlyFlits s s') (o : PendOp) (l : LaneAcc) : s'.laneTime o l = s.laneTime o l := by
  obtain ⟨k, m, rfl, -, -⟩ := h
  rfl

/-! ## A lane performed at its home -/

theorem noReg_of_plain {s : State} {t : Target} (h : Plain s t) : NoReg t := by
  cases t with
  | reg pa => exact h.elim
  | _ => trivial

theorem writeLane_outside (s : State) (id : Nat) (o : PendOp) (l : LaneAcc) (x : Nat) {g : Target} {j : Nat} (hg : NoReg g)
    (h : Outside g j l.tgt l.n) : (s.writeLane id o l x).tgtByte g j = s.tgtByte g j := by
  refine (writeAs_tgtByte _ _ _ _ _ _ _ _ hg j).trans (writeTgt_outside s l.tgt g _ j hg ?_)
  rwa [leBytes_length]

theorem writeLane_inside (s : State) (id : Nat) (o : PendOp) (l : LaneAcc) (x : Nat) (hp : Plain s l.tgt) (hn : l.n ≤ 8) {j : Nat}
    (hj : j < l.n) : (s.writeLane id o l x).tgtByte l.tgt j = BitVec.ofNat 8 (x / 256 ^ j) := by
  refine (writeAs_tgtByte _ _ _ _ _ _ _ _ (noReg_of_plain hp) j).trans ?_
  rw [writeTgt_inside s l.tgt _ j hp (by simpa using hj) (by simpa using hn), leBytes_getD hj]

theorem performLane_load {o : PendOp} {w : Width} (ho : o.kind = .load w) (s : State) (id : Nat) (l : LaneAcc) :
    SameBytes s (s.performLane id o l).1 := by
  unfold State.performLane
  simp only [ho]
  split
  · exact fun _ _ _ => rfl
  · exact noteRead_bytes s id o _ _ _

/-- Whatever its operation, a lane changes its own bytes only. -/
theorem performLane_outside (s : State) (id : Nat) (o : PendOp) (l : LaneAcc) {g : Target} {j : Nat} (hg : NoReg g)
    (h : Outside g j l.tgt l.n) : (s.performLane id o l).1.tgtByte g j = s.tgtByte g j := by
  cases hk : o.kind with
  | load w => exact performLane_load hk s id l g j hg
  | store | drain =>
    unfold State.performLane
    simp only [hk]
    exact writeLane_outside s id o l _ hg h
  | atomic a w =>
    unfold State.performLane
    simp only [hk]
    split
    · rfl
    · exact (writeLane_outside _ id o l _ hg h).trans (noteRead_bytes s id o _ _ _ g j hg)
  | addOn int =>
    unfold State.performLane
    simp only [hk]
    split
    · rfl
    · exact writeLane_outside s id o l _ hg h
  | trd w =>
    unfold State.performLane
    simp only [hk]

theorem performLane_store {s : State} {o : PendOp} {l : LaneAcc} (ho : o.kind = .store) (id : Nat) (hp : Plain s l.tgt) (hn : l.n ≤ 8) {j : Nat}
    (hj : j < l.n) : (s.performLane id o l).1.tgtByte l.tgt j = BitVec.ofNat 8 (l.x.toNat / 256 ^ j) := by
  unfold State.performLane
  simp only [ho]
  exact writeLane_inside s id o l _ hp hn hj

theorem plain_of_tiles {s s' : State} {t : Target} (h : s'.tiles = s.tiles) (hp : Plain s t) : Plain s' t := by
  cases t with
  | tile k off => exact fun hc => hp (by rw [← h]; exact hc)
  | _ => exact hp

/-- An atomic leaves its new value, and its lane takes the old one (R188). -/
theorem performLane_atomic {s : State} {o : PendOp} {l : LaneAcc} {a : AtomOp} {w : Bool} (ho : o.kind = .atomic a w) (id : Nat)
    (hp : Plain s l.tgt) (hn : l.n ≤ 8) (hok : s.tgtPoisoned l.tgt l.n = false) :
    (s.performLane id o l).1.tgtValue l.tgt l.n =
      atomicNew a (8 * l.n) (s.tgtValue l.tgt l.n) (l.x.toNat % 2 ^ (8 * l.n)) (l.y.toNat % 2 ^ (8 * l.n)) ∧
    (s.performLane id o l).2 = { l with st := .done, res := BitVec.ofNat 64 (s.tgtValue l.tgt l.n) } := by
  unfold State.performLane
  simp only [ho, hok, Bool.false_eq_true, if_false, and_true]
  have hp' : Plain (s.noteRead id o l.tgt l.n s.clock) l.tgt := plain_of_tiles (noteRead_tiles ..) hp
  have hold : s.tgtValue l.tgt l.n < 2 ^ (8 * l.n) := pow_eight_mul l.n ▸ leValue_lt ..
  have hnew := atomicNew_lt a hold (Nat.mod_lt l.x.toNat (by positivity)) (Nat.mod_lt l.y.toNat (by positivity))
  refine (leValue_of_bytes fun i hi => ?_).trans (Nat.mod_eq_of_lt (pow_eight_mul l.n ▸ hnew))
  rw [Nat.zero_add]
  exact writeLane_inside _ id o l _ hp' hn hi

/-- A load's lane takes its bytes as they stood at its time, where its party holds no earlier write (R237, R312). -/
theorem performLane_read {s : State} {o : PendOp} {l : LaneAcc} {w : Width} (ho : o.kind = .load w) {id : Nat} (hheld : s.heldBy o.ag id = [])
    (hok : s.tgtPoisoned l.tgt l.n = false) : (s.performLane id o l).2 =
      { l with st := .done, res := BitVec.ofNat 64 (leValue (s.tgtByteAt (s.laneTime o l) l.tgt) 0 l.n) } := by
  unfold State.performLane
  simp only [ho, hok, Bool.false_eq_true, if_false, State.readFor, hheld]
  rfl

/-! ## The operation with its lane performed -/

theorem find_setLane {o : PendOp} {l l' : LaneAcc} (h : o.lanes.find? (fun m => m.lane == l.lane) = some l) (hl : l'.lane = l.lane) :
    (o.setLane l').lanes.find? (fun m => m.lane == l.lane) = some l' := by
  unfold PendOp.setLane
  dsimp only
  generalize o.lanes = ls at h ⊢
  induction ls with
  | nil => cases h
  | cons m r ih =>
    rw [List.map_cons]
    by_cases hm : m.lane = l.lane
    · rw [if_pos (hm.trans hl.symm), List.find?_cons_of_pos (by simp [hl])]
    · have hm' : m.lane ≠ l'.lane := hl ▸ hm
      have hb : (m.lane == l.lane) = false := by simpa using hm
      simp only [List.find?_cons, hb] at h
      rw [if_neg hm']
      simp only [List.find?_cons, hb]
      exact ih h

/-- The result of a performed lane stands, and it may have been put into its register. -/
theorem putEarly_lane (s : State) (o : PendOp) (l : LaneAcc) : ∃ p : Bool, (s.putEarly o l).2 = { l with put := p } := by
  unfold State.putEarly
  split
  · exact ⟨true, rfl⟩
  · exact ⟨l.put, rfl⟩

theorem accepted_pend (s : State) (core home : Nat) : (s.accepted core home).pend = s.pend := by
  unfold State.accepted
  repeat' split
  all_goals rfl

theorem putOp_pend {s : State} {id : Nat} {o : PendOp} (h : (o.kind == .store || (o.ag.outside && !o.kind.loads)) = false) :
    alook id (s.putOp id o).pend = some o := by
  unfold State.putOp
  rw [h]
  exact alook_aset_same ..

/-- An operation that is still listed once its lane is performed has taken the lane's result. -/
theorem performAt_took {s : State} {id : Nat} {o : PendOp} {l : LaneAcc} {v core home : Nat}
    (hl : o.lanes.find? (fun m => m.lane == l.lane) = some l) (hk : (o.kind == .store || (o.ag.outside && !o.kind.loads)) = false)
    (hr : (s.performLane id o l).2 = { l with st := .done, res := BitVec.ofNat 64 v }) :
    ∃ (o' : PendOp) (p : Bool), alook id ((s.performAt id o l).accepted core home).pend = some o' ∧
      o'.lanes.find? (fun m => m.lane == l.lane) = some { l with st := .done, res := BitVec.ofNat 64 v, put := p } := by
  obtain ⟨p, hp⟩ := putEarly_lane (s.performLane id o l).1 o (s.performLane id o l).2
  have hlane : ((s.performLane id o l).1.putEarly o (s.performLane id o l).2).2 = { l with st := .done, res := BitVec.ofNat 64 v, put := p } := by
    rw [hp, hr]
  refine ⟨o.setLane { l with st := .done, res := BitVec.ofNat 64 v, put := p }, p, ?_, find_setLane hl rfl⟩
  rw [accepted_pend]
  exact (putOp_pend (o := o.setLane _) hk).trans (congrArg (fun l => some (o.setLane l)) hlane)

theorem performAt_bytes (s : State) (id : Nat) (o : PendOp) (l : LaneAcc) (core home : Nat) :
    SameBytes (s.performLane id o l).1 ((s.performAt id o l).accepted core home) :=
  ((putEarly_bytes _ o _).trans (putOp_bytes _ _ _)).trans (accepted_bytes _ _ _)

theorem tgtValue_congr {s s' : State} {t : Target} (n : Nat) (h : ∀ j, s'.tgtByte t j = s.tgtByte t j) : s'.tgtValue t n = s.tgtValue t n :=
  leValue_congr fun _ _ => h _

/-! ## The time of a read (R237) -/

theorem readTime_bounds (s : State) (floor k : Nat) : floor ≤ s.readTime floor k ∧ (floor ≤ s.clock → s.readTime floor k ≤ s.clock) := by
  unfold State.readTime
  refine ⟨Nat.le_add_right .., fun h => ?_⟩
  have := Nat.mod_lt (Config.choice s.freeN (2 ^ 61 + k)) (show s.clock + 1 - floor > 0 by omega)
  omega

theorem tgtByteAt_now {s : State} (h : ∀ w ∈ s.past, w.time ≤ s.clock) (g : Target) (j : Nat) : s.tgtByteAt s.clock g j = s.tgtByte g j := by
  unfold State.tgtByteAt
  split
  · cases hp : s.past with
    | nil => rfl
    | cons w r => exact if_pos (h w (by simp [hp]))
  · rfl

theorem OnlyFlits.bytesAt {s s' : State} (h : OnlyFlits s s') (time : Nat) (g : Target) : s'.tgtByteAt time g = s.tgtByteAt time g := by
  funext j
  unfold State.tgtByteAt
  rw [h.bytes]
  obtain ⟨k, m, rfl, -, -⟩ := h
  rfl

/-! ## The tile lane of an atomic (R244) -/

theorem restoreAt_bytes (s : State) (t : Target) : SameBytes s (s.restoreAt t) := by
  unfold State.restoreAt
  split
  next k off =>
    split
    next x hx =>
      intro g j hg
      cases g with
      | tile k' off' =>
        simp only [State.tgtByte, State.tileByte]
        by_cases hk : k' = k
        · subst hk
          simp only [alook_aset_same, hx]
        · simp only [alook_aset_ne hk]
      | reg pa => exact hg.elim
      | _ => rfl
    next => exact fun _ _ _ => rfl
  next => exact fun _ _ _ => rfl

theorem restoreAt_plain {s : State} {k off : Nat} (h : alook k s.tiles ≠ none) : Plain (s.restoreAt (.tile k off)) (.tile k off) := by
  cases hx : alook k s.tiles with
  | none => exact (h hx).elim
  | some x =>
    simp only [State.restoreAt, hx, Plain, alook_aset_same, ne_eq, reduceCtorEq, not_false_eq_true]

theorem operandSeen_bytes (s : State) (by_ : Option Nat) (t off n : Nat) : SameBytes s (s.operandSeen by_ t off n) := by
  refine sameBytes_of_mems (operandSeen_mems ..) ?_
  unfold State.operandSeen
  split <;> rfl

/-- The state and the lane of an atomic whose one lane is a tile's. -/
theorem performTiles_one {s : State} {o : PendOp} {l : LaneAcc} {k off : Nat} (hl : o.lanes = [l]) (ht : l.tgt = .tile k off) :
    s.performTiles o =
      let r := (s.restoreAt l.tgt).performLane s.nextId o l
      let q := r.1.putEarly o r.2
      (q.1.operandSeen none k off l.n, o.setLane q.2) := by
  have hfilter : [l].filter (fun m => m.tgt.isTile) = [l] := by simp [ht, Target.isTile]
  unfold State.performTiles
  rw [hl, hfilter]
  simp [shuffle, ht]

theorem setLane_one {o : PendOp} {l l' : LaneAcc} (h : o.lanes = [l]) (hl : l'.lane = l.lane) : (o.setLane l').lanes = [l'] := by
  simp [PendOp.setLane, h, hl]

theorem tileAtomic {s : State} {o : PendOp} {l : LaneAcc} {a : AtomOp} {w : Bool} {k off : Nat} (hl : o.lanes = [l]) (ho : o.kind = .atomic a w)
    (ht : l.tgt = .tile k off) (hk : alook k s.tiles ≠ none) (hn : l.n ≤ 8) :
    (s.performTiles o).1.tgtValue l.tgt l.n =
      atomicNew a (8 * l.n) (s.tgtValue l.tgt l.n) (l.x.toNat % 2 ^ (8 * l.n)) (l.y.toNat % 2 ^ (8 * l.n)) ∧
    (∀ g j, NoReg g → Outside g j l.tgt l.n → (s.performTiles o).1.tgtByte g j = s.tgtByte g j) ∧
    ∃ p : Bool, (s.performTiles o).2.lanes = [{ l with st := .done, res := BitVec.ofNat 64 (s.tgtValue l.tgt l.n), put := p }] := by
  have hp : Plain (s.restoreAt l.tgt) l.tgt := ht ▸ restoreAt_plain hk
  have hreg : NoReg l.tgt := noReg_of_plain hp
  have hold : (s.restoreAt l.tgt).tgtValue l.tgt l.n = s.tgtValue l.tgt l.n := tgtValue_congr _ fun j => restoreAt_bytes s _ _ j hreg
  have hpoison : (s.restoreAt l.tgt).tgtPoisoned l.tgt l.n = false := by rw [ht]; rfl
  obtain ⟨hnew, hlane⟩ := performLane_atomic ho s.nextId hp hn hpoison
  rw [hold] at hnew hlane
  let r := (s.restoreAt l.tgt).performLane s.nextId o l
  have hafter : SameBytes r.1 (s.performTiles o).1 := by
    rw [performTiles_one hl ht]
    exact (putEarly_bytes _ _ _).trans (operandSeen_bytes _ _ _ _ _)
  refine ⟨(tgtValue_congr _ fun j => hafter _ j hreg).trans hnew, fun g j hg h => ?_, ?_⟩
  · exact (hafter g j hg).trans ((performLane_outside _ _ o l hg h).trans (restoreAt_bytes s _ g j hg))
  · obtain ⟨p, hput⟩ := putEarly_lane r.1 o r.2
    rw [performTiles_one hl ht]
    have hres : (r.1.putEarly o r.2).2 = { l with st := .done, res := BitVec.ofNat 64 (s.tgtValue l.tgt l.n), put := p } :=
      hput.trans (by rw [hlane])
    exact ⟨p, (setLane_one (l' := (r.1.putEarly o r.2).2) hl (by rw [hres])).trans (congrArg (fun x => [x]) hres)⟩

/-! ## An access that issues -/

theorem runState_mems {s s' : State} {f : Env → Team → Except Trap State} (hf : ∀ e t s1, f e t = .ok s1 → mems s1 = mems s)
    (h : runState s f = .next s') : SameMemory s s' := by
  obtain ⟨t, -, h | ⟨x, -, rfl⟩⟩ := runState_cases h
  · exact sameMemory_of_mems (hf _ _ _ h)
  · exact sameMemory_of_mems (takeTrap_mems ..)

section
variable {s s1 : State} {e : Env} {t : Team} {n : Nat}

theorem loadForm_mems {w : Width} {d : Reg} {a b : Src} {obs : BitVec 7} {acq : Bool} (h : loadForm w d a b obs acq n s e t = .ok s1) :
    mems s1 = mems s := by
  unfold loadForm at h
  simp only [bind, Except.bind] at h
  repeat' split at h
  all_goals cases h
  all_goals simp

theorem storeForm_mems {w : Width} {x a b : Src} {obs : BitVec 7} {rel : Bool} (h : storeForm w x a b obs rel n s e t = .ok s1) :
    mems s1 = mems s := by
  unfold storeForm at h
  simp only [bind, Except.bind] at h
  repeat' split at h
  all_goals cases h
  all_goals simp

theorem holdLoad_mems {d : Reg} {va : W64} (h : holdLoad d va n s e t = .ok s1) : mems s1 = mems s := by
  unfold holdLoad at h
  simp only [bind, Except.bind] at h
  repeat' split at h
  all_goals cases h
  all_goals simp

theorem strelForm_mems {w : Width} {x a : Src} {obs : BitVec 7} (h : strelForm w x a obs s e t = .ok s1) : mems s1 = mems s := by
  unfold strelForm at h
  cases hs : storeForm w x a (.reg .z) obs true (1 + x.words + a.words) s e t with
  | error x => simp [hs, bind, Except.bind] at h
  | ok s2 =>
    simp only [hs, bind, Except.bind, Except.ok.injEq] at h
    rw [← h, committed_mems, storeForm_mems hs]

end

section
variable {s s' : State}

theorem strel_sameMemory {w : Width} {x a : Src} {obs : BitVec 7} (h : execStrel w x a obs s = .next s') : SameMemory s s' := by
  unfold execStrel runCommit at h
  refine runState_mems (fun e t s1 h => ?_) h
  cases hs : strelForm w x a obs s e t with
  | error x => simp [hs] at h
  | ok s2 =>
    simp only [hs, Except.ok.injEq] at h
    rw [← h]
    split
    · exact holdCommit_mems ..
    · exact strelForm_mems hs

theorem lds_sameMemory {d : Reg} {a : Src} {imm : BitVec 11} (h : execLds d a imm s = .next s') : SameMemory s s' := by
  refine runState_mems (fun e t s1 h => ?_) h
  cases hx : checkScalars t [a] with
  | error x => simp [hx, bind, Except.bind] at h
  | ok u =>
    simp only [hx, bind, Except.bind] at h
    exact holdLoad_mems h

theorem sts_sameMemory {x a : Src} {imm : BitVec 11} (h : execSts x a imm s = .next s') : SameMemory s s' := by
  refine runState_mems (fun e t s1 h => ?_) h
  simp only [bind, Except.bind] at h
  repeat' split at h
  all_goals cases h
  all_goals simp

theorem pref_sameMemory {w : Bool} {a b : Src} (h : execPref w a b s = .next s') : SameMemory s s' := by
  obtain ⟨t, -, ⟨u, -, rfl⟩ | ⟨x, -, rfl⟩⟩ := runAgent_cases h
  · exact sameMemory_of_mems (setAgent_mems ..)
  · exact sameMemory_of_mems (takeTrap_mems ..)

end

/-- Settles O55: the home carries the request and its response, which change no byte, and performs the lane, which changes its own. -/
theorem requestMemoryEffect : Obligations.RequestMemoryEffect := by
  refine ⟨?_, fun s o l a w k off hl ho ht hk hn => tileAtomic hl ho ht hk hn, fun s g j h => tgtByteAt_now h g j, ?_⟩
  · rintro s id o l h hl hs hc hd ⟨s1, hcarry, hr⟩ hn
    obtain ⟨s2, hresp⟩ := Option.ne_none_iff_exists'.1 hr
    have hflits : OnlyFlits s s2 := (carry_onlyFlits hcarry).trans (respond_onlyFlits hresp)
    have hbytes := performAt_bytes s2 id o l o.core (s.homeOf l.tgt)
    refine ⟨_, home_perform h hl hs hc hd hcarry hresp, fun g j hg hcase => ?_, fun ho hp j hj => ?_, fun a w ho hp hok => ?_,
      fun w ho hheld hok => ?_⟩
    · refine (hbytes g j hg).trans (.trans ?_ (hflits.bytes g j))
      obtain ⟨w, ho⟩ | hout := hcase
      · exact performLane_load ho s2 id l g j hg
      · exact performLane_outside s2 id o l hg hout
    · exact (hbytes _ j (noReg_of_plain hp)).trans (performLane_store ho id (hflits.plain hp) hn hj)
    · have hreg := noReg_of_plain hp
      have hold : s2.tgtValue l.tgt l.n = s.tgtValue l.tgt l.n := tgtValue_congr _ (hflits.bytes _)
      obtain ⟨hnew, hlane⟩ := performLane_atomic ho id (hflits.plain hp) hn (hflits.poisoned _ _ ▸ hok)
      rw [hold] at hnew hlane
      exact ⟨(tgtValue_congr _ fun j => hbytes _ j hreg).trans hnew, fun hag => performAt_took hl (by simp [ho, hag]) hlane⟩
    · obtain ⟨hlow, hhigh⟩ := readTime_bounds s (s.readFloor o.ag (s.seenBy o.ag) o.after o.strong l.tgt l.n) l.lane
      have hlane := performLane_read ho (hflits.held _ _ ▸ hheld) (hflits.poisoned _ _ ▸ hok)
      rw [hflits.bytesAt, hflits.time] at hlane
      exact ⟨s.laneTime o l, hlow, hhigh, performAt_took hl (by simp [ho, PendKind.loads]) hlane⟩
  · intro i s s' hi h
    cases i with
    | ld w d a b => exact runState_mems (fun _ _ _ h => loadForm_mems h) (exec_ld w d a b s ▸ h)
    | ldstr w d a b => exact runState_mems (fun _ _ _ h => loadForm_mems h) (exec_ldstr w d a b s ▸ h)
    | ldacq w d a obs => exact runState_mems (fun _ _ _ h => loadForm_mems h) (exec_ldacq w d a obs s ▸ h)
    | st w x a b => exact runState_mems (fun _ _ _ h => storeForm_mems h) (exec_st w x a b s ▸ h)
    | ststr w x a b => exact runState_mems (fun _ _ _ h => storeForm_mems h) (exec_ststr w x a b s ▸ h)
    | strel w x a obs => exact strel_sameMemory (exec_strel w x a obs s ▸ h)
    | lds d a imm => exact lds_sameMemory (exec_lds d a imm s ▸ h)
    | ldf d imm => exact runState_mems (fun _ _ _ h => holdLoad_mems h) (exec_ldf d imm s ▸ h)
    | sts x a imm => exact sts_sameMemory (exec_sts x a imm s ▸ h)
    | pref w a b => exact pref_sameMemory (exec_pref w a b s ▸ h)
    | _ => exact hi.elim

end Sys2Proof.MemoryEffect
end

section
/-!
PROOF. Bulk copies (R191 to R199): COPY, its stall, and the steps of the engine on a copy's record, its beginning and its units.
-/
namespace Sys2Proof.Copies
open Sys2Proof Sys2Proof.Machine Sys2Proof.Claims Sys2Proof.Laws Sys2Proof.LaneResults Sys2Proof.ControlFlow Sys2Proof.MemoryAccess

/-! ## COPY (R191) -/

section
variable {s : State} {t : Team} {xf : Bool} {cq : Fin 4} {a b : Src} {r : BarRef} (ha : s.agent s.cur = some t) (hs : Scalars t [a, b])
  (hr : barOpen s (s.env s.cur) t b = .ok r)
  (hx : Reached (lanesTgt s (s.env s.cur) t { write := false, atomic := false, n := 64 } [0] (fun _ => srcScalar (s.env s.cur) t a)))
include ha hs hr hx

theorem copy_posted (hroom : s.inFlight (s.env s.cur).core < Config.copyLimit) :
    let e := s.env s.cur
    let addr := srcScalar e t a
    let c : CopyOp := {
      core := e.core, q := cq.val, ag := e.ag, gid := e.gid, ctx := e.ctx, xf := xf, addr := addr, launch := e.launch
      bar := r, flag := t.nextFlag, st := .posted, pat := [], src := none, dst := none, idx := none, hdr := [], err := 0, landed := []
      after := s.joined e.core cq.val ++ t.fenced 3, pc := s.origPc t.gid t.pc }
    let s1 := (s.useAll e [addr]).placeJoin e.core (2 ^ cq.val) [s.nextId]
    exec (.copy xf cq a b) s = .next ({ s1 with copies := aset s1.nextId c s1.copies, nextId := s1.nextId + 1 }.setAgent e.ag
      ((t.countOn.posted cq.val s.nextId).advance (1 + a.words + b.words))) := by
  rw [exec_copy]
  refine runState_ok ha ?_
  simp only [copyForm, checkScalars_ok hs, hr, firstErr_none hx, if_neg (Nat.not_le.2 hroom), bind, Except.bind]

theorem copy_stalled (hfull : Config.copyLimit ≤ s.inFlight (s.env s.cur).core) : exec (.copy xf cq a b) s =
    .next (s.setAgent (s.env s.cur).ag { t with st := .waiting, wait := .copyStall (.copy xf cq a b) }) := by
  rw [exec_copy]
  refine runState_ok ha ?_
  simp only [copyForm, checkScalars_ok hs, hr, firstErr_none hx, if_pos hfull, bind, Except.bind]

end

theorem copyStallEnd_ok {s : State} {tid : Nat} {t : Team} {xf : Bool} {cq : Fin 4} {a b : Src} (hw : Waits s tid t (.copyStall (.copy xf cq a b)))
    (hmay : s.mayIssue tid = true) (hroom : s.inFlight (s.agentCore (.team tid)) < Config.copyLimit) :
    exec (.copyStallEnd tid) s = .next (s.reissue (.team tid) (copyForm xf cq a b)) := by
  obtain ⟨hlook, hst, hwait⟩ := hw
  have hlt : Nat.blt (s.inFlight (s.agentCore (.team tid))) Config.copyLimit = true := Nat.blt_eq ▸ hroom
  rw [exec_copyStallEnd]
  refine runEvent_of ?_
  simp only [bind, Option.bind, hlook, hst, hwait, hmay, hlt, Bool.and_self, if_true]

/-! ## The record (R193) -/

section
variable {s : State} {k : Nat} {c : CopyOp} (h : alook k s.copies = some c)
include h

/-- The acknowledgement of a posted copy that does not wait for a repair. -/
theorem exec_ack (hst : c.st = .posted) (hwait : s.engWaits k = false) {s' : State} (hs : s.ackCopy k c = some s') :
    exec (.copyAcknowledge k) s = .next s' := by
  rw [exec_copyAcknowledge]
  refine runEvent_of ?_
  simp only [bind, Option.bind, h, hst, hwait, and_self, if_true, hs]

section
variable {g : Target} (hst : c.st = .posted) (hwait : s.engWaits k = false) (hg : s.engTarget c.ctx .program false c.addr = .ok g)
  (hp : s.tgtPoisoned g 64 = false)
include hst hwait hg hp

theorem ack_bad (hbad : (Pattern.parse ((List.range 8).map fun i =>
      BitVec.ofNat 64 (s.valueBy c.party c.after (g.plus (8 * i)) 8 i))).ok c.xf = false) :
    exec (.copyAcknowledge k) s = .next ((s.failCopy k c 0x10).clearFlag c) := by
  refine exec_ack h hst hwait ?_
  simp only [State.ackCopy, hg, hp, hbad, Bool.false_eq_true, if_false]

theorem ack_ok (hok : (Pattern.parse ((List.range 8).map fun i =>
      BitVec.ofNat 64 (s.valueBy c.party c.after (g.plus (8 * i)) 8 i))).ok c.xf = true) :
    let ws := (List.range 8).map fun i => BitVec.ofNat 64 (s.valueBy c.party c.after (g.plus (8 * i)) 8 i)
    let p := Pattern.parse ws
    let tile (a : W64) : Option Nat := (s.tileOf c.gid c.launch (dieOf c.core) (bits a.toNat 55 48)).map fun x => x.1
    let ofLoc (a : W64) : Option Nat := if a.toNat / 2 ^ 56 = 255 then tile a else none
    exec (.copyAcknowledge k) s = .next (((({ s with copies := aset k { c with
      st := .ready, pat := ws, src := ofLoc p.src, dst := ofLoc p.dst, idx := if p.ind = 0 then none else ofLoc p.w5 } s.copies } :
      State).readBy c (recordReads g)).sendOn g none).clearFlag c) := by
  refine exec_ack h hst hwait ?_
  simp only [State.ackCopy, hg, hp, hok, Bool.false_eq_true, if_false, if_true]

end

/-! ## Its beginning (R195, R197, R199) -/

/-- A copy that has begun, with the header that it has read. -/
def begun (s : State) (k : Nat) (c : CopyOp) (hdr : List W64) : State :=
  let p := Pattern.parse c.pat
  let s1 := (s.readBy c ((s.headerSpans c p).map Span.read)).sendReqs ((s.headerSpans c p).map fun g => g.tgt)
  if p.units = 0 then s1.dropCopy k else { s1 with copies := aset k { c with st := .begun, hdr := hdr } s1.copies }

section
variable (hst : c.st = .ready) (hafter : ∀ j ∈ c.after, s.engineOpen j = false) (hwait : s.engWaits k = false)
  (hfirst : ∀ x ∈ s.copies, x.1 < k → ¬(x.2.core = c.core ∧ x.2.q = c.q))
include hst hafter hwait hfirst

omit h in
/-- What a copy waits for before it begins is there. -/
theorem may_begin : c.st = .ready ∧ (c.after.all fun j => !s.engineOpen j) = true ∧ s.engWaits k = false ∧
    aany (fun j d => j < k && d.core == c.core && d.q == c.q) s.copies = false := by
  refine ⟨hst, by simpa using hafter, hwait, ?_⟩
  rw [aany, List.any_eq_false]
  intro x hx hc
  simp only [Bool.and_eq_true, decide_eq_true_eq, beq_iff_eq] at hc
  exact hfirst x hx hc.1.1 ⟨hc.1.2, hc.2⟩

theorem begin_plain (hxf : (Pattern.parse c.pat).xf ≠ 2) : exec (.copyBegin k) s = .next (begun s k c []) := by
  rw [exec_copyBegin]
  refine runEvent_of ?_
  simp only [bind, Option.bind, h]
  rw [if_pos (may_begin hst hafter hwait hfirst), if_neg hxf]
  rfl

theorem begin_dequant (hxf : (Pattern.parse c.pat).xf = 2) {b : List Byte} (hb : s.copyHeader c (Pattern.parse c.pat) = .ok b) :
    exec (.copyBegin k) s = .next (begun s k c (words64 b)) := by
  rw [exec_copyBegin]
  refine runEvent_of ?_
  simp only [bind, Option.bind, h]
  rw [if_pos (may_begin hst hafter hwait hfirst), if_pos hxf, hb]
  rfl

theorem begin_badHeader (hxf : (Pattern.parse c.pat).xf = 2) {n : Nat} (hb : s.copyHeader c (Pattern.parse c.pat) = .error (.code n)) :
    exec (.copyBegin k) s = .next (s.failCopy k c n) := by
  rw [exec_copyBegin]
  refine runEvent_of ?_
  simp only [bind, Option.bind, h]
  rw [if_pos (may_begin hst hafter hwait hfirst), if_pos hxf, hb]

end

/-! ## Its units (R196, R197) -/

section
variable {u : Nat} (hst : c.st = .begun) (hu : u < (Pattern.parse c.pat).units) (hland : c.landed.contains u = false)
  (hwait : s.engWaits k = false)
include hst hu hland hwait

/-- The units that land in a step, with what they write. -/
def unitsOf (s : State) (c : CopyOp) (u : Nat) : Except EngErr (List (Nat × UnitOut)) :=
  (s.unitMates c (Pattern.parse c.pat) u).mapM fun v => (s.copyUnit c (Pattern.parse c.pat) v).map fun x => (v, x)

theorem land_ok {us : List (Nat × UnitOut)} (hus : unitsOf s c u = .ok us) :
    exec (.copyLand k u .land) s = .next (s.landUnits k c (Pattern.parse c.pat) us) := by
  unfold unitsOf at hus
  rw [exec_copyLand]
  refine runEvent_of ?_
  simp only [bind, Option.bind, h, hst, hu, hland, hwait, and_self, if_true, hus]

theorem land_error {n : Nat} (hus : unitsOf s c u = .error (.code n)) : exec (.copyLand k u .land) s = .next (s.failCopy k c n) := by
  unfold unitsOf at hus
  rw [exec_copyLand]
  refine runEvent_of ?_
  simp only [bind, Option.bind, h, hst, hu, hland, hwait, and_self, if_true, hus]

theorem land_uncorrectable {s1 : State} (hs : s.copyUncorrectable c (Pattern.parse c.pat) u = some s1) :
    exec (.copyLand k u .uncorrectable) s = .next (s1.failCopy k c 0x14) := by
  rw [exec_copyLand]
  refine runEvent_of ?_
  simp only [bind, Option.bind, h, hst, hu, hland, hwait, and_self, if_true, hs, Option.map_some]

end

end

/-- Settles O26: each step of a copy passes its checks, in the order in which they are made. -/
theorem copiesResult : Obligations.CopiesResult := by
  intro s
  refine ⟨fun t xf cq a b r ha hs => ?_, fun _ _ _ _ _ _ hw hmay hroom => copyStallEnd_ok hw hmay hroom, fun k c h => ⟨?_, ?_, ?_⟩⟩
  · intro e addr hr hx
    exact ⟨fun hroom => copy_posted ha hs hr hx hroom, fun hfull => copy_stalled ha hs hr hx hfull⟩
  · exact fun g hst hwait hg hp => ⟨fun hbad => ack_bad h hst hwait hg hp hbad, fun hok => ack_ok h hst hwait hg hp hok⟩
  · exact fun hst hafter hwait hfirst => ⟨fun hxf => begin_plain h hst hafter hwait hfirst hxf,
      fun hxf => ⟨fun _ hb => begin_dequant h hst hafter hwait hfirst hxf hb, fun _ hb => begin_badHeader h hst hafter hwait hfirst hxf hb⟩⟩
  · exact fun u hst hu hland hwait => ⟨fun _ hus => land_ok h hst hu hland hwait hus, fun _ hus => land_error h hst hu hland hwait hus,
      fun _ hs => land_uncorrectable h hst hu hland hwait hs⟩

end Sys2Proof.Copies
end

section
/-!
PROOF. Matrix operations (R200 to R213): what MMA, MDRAIN and MZERO do at their issue, the traps of their shapes, gangs and format words, and
the steps of the matrix engine.
-/
namespace Sys2Proof.MatrixOps
open Sys2Proof Sys2Proof.Machine Sys2Proof.Claims Sys2Proof.Laws Sys2Proof.LaneResults Sys2Proof.ControlFlow Sys2Proof.MemoryAccess
open Sys2Proof.AddressFaults (getLsbD_maskOf)
open Sys2Proof.SystemState (env_ag)

/-! ## The check of a matrix shape (R155) -/

theorem checkMat_ok {t : Team} {q : Shape} (h : MatShape t q) : checkMat t q = .ok () := by
  obtain ⟨hk, hs, hg⟩ := h
  simp [checkMat, hk, hs, hg, bind, Except.bind]

theorem checkMat_shape {t : Team} {q : Shape} (h : q.kind ≠ .mat ∨ q.stale = false ∧ q.gsz ≠ t.gangSize) :
    checkMat t q = .error (Trap.of .shape) := by
  by_cases hk : q.kind = .mat
  · obtain ⟨hs, hg⟩ := h.resolve_left (not_not.2 hk)
    have hne : (q.gsz == t.gangSize) = false := by simp [hg]
    simp [checkMat, hk, hs, hne, bind, Except.bind]
  · have hne : (q.kind == .mat) = false := by simp [hk]
    simp [checkMat, hne, bind, Except.bind]

theorem checkMat_stale {t : Team} {q : Shape} (hk : q.kind = .mat) (hs : q.stale = true) :
    checkMat t q = .error { cause := .shapeStale, mask := some t.active } := by
  simp [checkMat, hk, hs, bind, Except.bind]

/-! ## MMA (R202, R205 to R208) -/

section
variable {s : State} {t : Team} {g : Bool} {sh : Fin 4} {d : BitVec 7} {a b : Src} {mode : MmaMode} {idx fmt : BitVec 7} {op : MmaOp}
  (ha : s.agent s.cur = some t) (hf : mmaFields t g sh d a b mode idx fmt = .ok op)
include ha hf

theorem mma_badShape {x : Trap} (hq : checkMat t (t.shape sh) = .error x) : exec (.mma g sh d a b mode idx fmt) s = .next (takeTrap s x) := by
  rw [exec_mma]
  refine runState_error ha ?_
  simp only [hf, hq, bind, Except.bind]

variable (hq : MatShape t (t.shape sh))
include hq

theorem mma_alone (hg : t.gang = 0) : exec (.mma g sh d a b mode idx fmt) s =
    .next (s.runMma [{ tid := (s.env s.cur).ag.tid, t := t, op := op }]) := by
  rw [exec_mma]
  refine runState_ok ha ?_
  simp only [hf, checkMat_ok hq, if_pos hg, bind, Except.bind]

theorem mma_arrives (hg : t.gang ≠ 0) : exec (.mma g sh d a b mode idx fmt) s = .next (s.arriveLatch (s.env s.cur) t
    (.mma g sh d a b mode idx fmt) { tid := (s.env s.cur).ag.tid, t := t, op := op }) := by
  rw [exec_mma]
  refine runState_ok ha ?_
  simp only [hf, checkMat_ok hq, if_neg hg, bind, Except.bind]

end

section
variable {s : State} {e : Env} {t : Team} {i : Instr} {m : MmaTeam}

/-- A team that agrees with the rendezvous, or opens it, waits at the latch. -/
theorem arriveLatch_waits (hdead : s.gangDead e.gid t.gang = false) (hsame : ∀ w r, s.latched e.gid t.gang = w :: r →
      ∃ x j, mmaTeam w = some x ∧ w.2.atLatch = some j ∧ s.sameArrival i m x j = true) :
    s.arriveLatch e t i m =
      (s.setAgent e.ag { t with st := .waiting, wait := .rendezvous i, since := (s.core e.core).count }).settleLatch e.core 16 := by
  unfold State.arriveLatch
  cases hw : s.latched e.gid t.gang with
  | nil => simp [hdead]
  | cons w r =>
    obtain ⟨x, j, hx, hj, hs⟩ := hsame w r hw
    simp [hdead, hx, hj, hs]

/-- A team that does not agree with it, or one of whose gang is gone, stops every team at the latch. -/
theorem arriveLatch_traps (h : s.gangDead e.gid t.gang = true ∨ ∃ w r x j, s.latched e.gid t.gang = w :: r ∧ mmaTeam w = some x ∧
      w.2.atLatch = some j ∧ s.sameArrival i m x j = false) :
    s.arriveLatch e t i m = (s.gangTrap (m.tid :: (s.latched e.gid t.gang).map fun w => w.1)).settleLatch e.core 16 := by
  unfold State.arriveLatch
  obtain hdead | ⟨w, r, x, j, hw, hx, hj, hs⟩ := h
  · simp [hdead]
  · simp [hw, hx, hj, hs]

end

theorem matrixMultiplyIssues : MatrixMultiplyIssues := by
  intro s t g sh d a b mode idx fmt op ha hf hq e i m
  refine ⟨fun w p hg hw hp => ?_, fun hg hl => ?_, fun hg hdead hsame => ?_⟩
  · rw [mma_alone ha hf hq hg]
    simp only [State.runMma, m, e] at hw hp ⊢
    rw [hw]
    simp only [hp]
  · have hnone : s.refWord [m] = none := by simp [State.refWord, m, hl]
    rw [mma_alone ha hf hq hg]
    simp only [State.runMma, m, e] at hnone ⊢
    rw [hnone]
  · rw [mma_arrives ha hf hq hg, arriveLatch_waits hdead hsame]

/-! ## MDRAIN and MZERO (R212, R213) -/

/-- The pitch of a drain of more than one row spans a row, whatever the kind of its shape. -/
theorem pitch_ok {q : Shape} {rows pitch : Nat} (h : rows ≤ 1 ∨ 4 * q.d1 ≤ pitch) :
    (q.kind != .mat || Nat.ble rows 1 || Nat.ble (4 * q.d1) pitch) = true := by
  obtain h | h := h <;> simp [h]

section
variable {s : State} {t : Team} (ha : s.agent s.cur = some t) (hctl : t.ctl = false) {sh : Fin 4}
include ha hctl

section
variable {addTo : Bool} {d a b : Src} (hs : Scalars t [d, a, b]) (hrsv : bits (srcScalar (s.env s.cur) t b).toNat 63 33 = 0)
  (hpitch : (t.shape sh).d0 / t.gangSize ≤ 1 ∨ 4 * (t.shape sh).d1 ≤ bits (srcScalar (s.env s.cur) t b).toNat 31 0)
include hs hrsv hpitch

theorem mdrain_badShape {x : Trap} (hq : checkMat t (t.shape sh) = .error x) : exec (.mdrain addTo sh d a b) s = .next (takeTrap s x) := by
  rw [exec_mdrain]
  refine runState_error ha ?_
  simp only [checkScalars_ok hs, hctl, hrsv, pitch_ok hpitch, hq, needOperand, Bool.not_false, beq_self_eq_true, need_true, bind, Except.bind]

theorem mdrain_ok {k : Nat} {y : Tile} {dest : List Target} (hq : MatShape t (t.shape sh))
    (hp4 : bits (srcScalar (s.env s.cur) t b).toNat 31 0 % 4 = 0) (hloc : (srcScalar (s.env s.cur) t d).toNat % 4 = 0)
    (hseg : segmentOf s (s.env s.cur) (srcScalar (s.env s.cur) t a).toNat ((t.shape sh).d0 / t.gangSize) (t.shape sh).d1 = .ok (k, y))
    (hdest : drainDest s (s.env s.cur) t (srcScalar (s.env s.cur) t d) (drainOffsets ((t.shape sh).d0 / t.gangSize) (t.shape sh).d1
      (bits (srcScalar (s.env s.cur) t b).toNat 31 0)) = .ok dest) :
    let e := s.env s.cur
    let x := (srcScalar e t b).toNat
    let q := t.shape sh
    let rows := q.d0 / t.gangSize
    let pitch := bits x 31 0
    let loc := srcScalar e t d
    let offs := drainOffsets rows q.d1 pitch
    let s1 := s.useAll e (if loc.toNat / 2 ^ 56 = 255 then [] else offs.map fun o => loc + BitVec.ofNat 64 o)
    exec (.mdrain addTo sh d a b) s =
      .next ((s1.setAgent e.ag ((t.countOn.posted 4 s1.nextId).advance (1 + d.words + a.words + b.words))).enqueueMq
        { ownMq s e t (.mdrain addTo (bitAt x 32)) q k (some t.nextFlag) dest with loc := loc, pitch := pitch }) := by
  rw [exec_mdrain]
  refine runState_ok ha ?_
  simp only [checkScalars_ok hs, hctl, hrsv, pitch_ok hpitch, hp4, hloc, hseg, hdest, checkMat_ok hq, needOperand, Bool.not_false, beq_self_eq_true,
    Bool.and_self, need_true, bind, Except.bind]

end

section
variable {a : Src} (hs : Scalars t [a])
include hs

theorem mzero_badShape {x : Trap} (hq : checkMat t (t.shape sh) = .error x) : exec (.mzero sh a) s = .next (takeTrap s x) := by
  rw [exec_mzero]
  refine runState_error ha ?_
  simp only [checkScalars_ok hs, hctl, hq, needOperand, Bool.not_false, need_true, bind, Except.bind]

theorem mzero_ok {k : Nat} {y : Tile} (hq : MatShape t (t.shape sh))
    (hseg : segmentOf s (s.env s.cur) (srcScalar (s.env s.cur) t a).toNat ((t.shape sh).d0 / t.gangSize) (t.shape sh).d1 = .ok (k, y)) :
    exec (.mzero sh a) s = .next (((s.setAgent (s.env s.cur).ag ((t.posted 4 s.nextId).advance (1 + a.words))).emptySegment k
      ((t.shape sh).d0 / t.gangSize) (t.shape sh).d1).enqueueMq (ownMq s (s.env s.cur) t .mzero (t.shape sh) k none [])) := by
  rw [exec_mzero]
  refine runState_ok ha ?_
  simp only [checkScalars_ok hs, hctl, hseg, checkMat_ok hq, needOperand, Bool.not_false, need_true, bind, Except.bind]

end
end

theorem drainsAndZeroesIssue : DrainsAndZeroesIssue := fun _ _ ha hctl =>
  ⟨fun _ _ _ _ _ _ _ _ hs hq hrsv hpitch hp4 hloc hseg hdest => mdrain_ok ha hctl hs hrsv hpitch hq hp4 hloc hseg hdest,
    fun _ _ _ _ hs hq hseg => mzero_ok ha hctl hs hq hseg⟩

/-! ## The traps (R155, R203, R208) -/

/-- A list of one team is in the order of its slots. -/
theorem bySlot_one (s : State) (tid : Nat) : s.bySlot [tid] = [tid] := rfl

theorem failAll_one (s : State) (m : MmaTeam) (c : Cause) (f : MmaTeam → LaneMask) :
    s.failAll [m] c (some f) = s.stopTeam m.tid { cause := c, mask := some (f m) } := by
  simp [State.failAll, bySlot_one]

/-- The vote of a team of which some live lane's word is not that of the lowest. -/
theorem vote_fails {s : State} {m : MmaTeam} {w : W32} (h : s.badWords w m ≠ []) :
    s.mmaChecks [m] m w = .error { cause := .formatDiverge, mask := some fun m => maskOf (s.badWords w m) } := by
  have hany : ([m].any fun m => !(s.badWords w m).isEmpty) = true := by simpa using h
  simp only [State.mmaChecks, hany, if_true, bind, Except.bind]

/-- The trap of a team whose live lanes' format words differ from the lowest's. -/
def divergence (s : State) (m : MmaTeam) (w : W32) : Trap := { cause := .formatDiverge, mask := some (maskOf (s.badWords w m)) }

theorem mem_badWords {s : State} {m : MmaTeam} {w : W32} {k : Nat} : k ∈ s.badWords w m ↔ k ∈ m.t.liveLanes ∧ s.fmtWord m k ≠ w := by
  simp [State.badWords]

theorem runMma_diverges {s : State} {m : MmaTeam} {l : Nat} {r : List Nat} (hl : m.t.liveLanes = l :: r)
    (h : ∃ k ∈ r, s.fmtWord m k ≠ s.fmtWord m l) : s.runMma [m] = s.stopTeam m.tid (divergence s m (s.fmtWord m l)) := by
  obtain ⟨k, hk, hne⟩ := h
  have hbad : s.badWords (s.fmtWord m l) m ≠ [] :=
    List.ne_nil_of_mem (mem_badWords.2 ⟨hl ▸ List.mem_cons_of_mem l hk, hne⟩)
  have href : s.refWord [m] = some (s.fmtWord m l) := by simp [State.refWord, hl]
  simp only [State.runMma, href, vote_fails hbad, failAll_one]
  rfl

theorem takeTrap_team {s : State} {tid : Nat} (h : s.cur = .team tid) (x : Trap) : takeTrap s x = s.stopTeam tid x := by
  simp only [takeTrap, h]

theorem matrixTraps : MatrixTraps := by
  intro s t ha hctl e
  refine ⟨fun sh i hi => ?_, ?_⟩
  · have htrap : ∀ x, checkMat t (t.shape sh) = .error x → exec i s = .next (takeTrap s x) := by
      intro x hx
      obtain ⟨a, rfl, hs⟩ | ⟨addTo, d, a, b, rfl, hs, hrsv, hpitch⟩ | ⟨g, d, a, b, mode, idx, fmt, op, rfl, hf⟩ := hi
      · exact mzero_badShape ha hctl hs hx
      · exact mdrain_badShape ha hctl hs hrsv hpitch hx
      · exact mma_badShape ha hf hx
    exact ⟨fun hq => htrap _ (checkMat_shape hq), fun hk hs => htrap _ (checkMat_stale hk hs)⟩
  · intro g sh d a b mode idx fmt op hf hq i m ws
    refine ⟨fun hg hbad => ?_, fun l r hg hcur _ hl hdiff => ?_⟩
    · exact (mma_arrives ha hf hq hg).trans (congrArg Host.Outcome.next (arriveLatch_traps (m := m) hbad))
    · have hrun : exec i s = .next (takeTrap s (divergence s m (s.fmtWord m l))) := by
        rw [takeTrap_team hcur]
        exact (mma_alone ha hf hq hg).trans (congrArg Host.Outcome.next (runMma_diverges (m := m) hl hdiff))
      exact ⟨_, hrun, rfl, _, rfl, fun k hk => (getLsbD_maskOf _ hk).trans mem_badWords⟩

/-- Settles O27: each matrix instruction passes its checks in order, or takes the trap of the first that it fails. -/
theorem matrixIssues : Obligations.MatrixIssues := ⟨matrixMultiplyIssues, drainsAndZeroesIssue, matrixTraps⟩

/-! ## The engine (R200, R203, R207, R209, R213) -/

section
variable {s : State} {core id : Nat} {m : MqOp}

/-- An operation that has begun. -/
def begunOp (s : State) (core id : Nat) (m : MqOp) : State :=
  { s.addOrder id (s.closure m.after) with mqs := aset id { m with begun := true, at_ := (s.core core).count } s.mqs }

section
variable (hhead : s.mqHead core = some (id, m)) (hb : m.begun = false) (hmat : (s.core core).mat = .active)
  (hafter : ∀ k ∈ m.after, s.engineOpen k = false) (hcellar : s.mqCellar m = false)
include hhead hb hmat hafter hcellar

theorem begin_drain {addTo int : Bool} (hk : m.kind = .mdrain addTo int) : exec (.mqOperationBegin core) s =
    .next (if (m.toTile || s.mqHeld m) = true then begunOp s core id m else (begunOp s core id m).postDrain id m addTo int) := by
  have hall : (m.after.all fun k => !s.engineOpen k) = true := by simpa using hafter
  rw [exec_mqOperationBegin]
  refine runEvent_of ?_
  simp only [bind, Option.bind, hhead]
  rw [if_pos ⟨hb, hmat, hall, hcellar⟩]
  split
  next addTo' int' hk' =>
    obtain ⟨rfl, rfl⟩ := MqKind.mdrain.inj (hk.symm.trans hk')
    split <;> rfl
  next hk' => cases hk.symm.trans hk'
  next hk' => cases hk.symm.trans hk'

theorem begin_other (hk : ∀ addTo int, m.kind ≠ .mdrain addTo int) : exec (.mqOperationBegin core) s = .next (begunOp s core id m) := by
  have hall : (m.after.all fun k => !s.engineOpen k) = true := by simpa using hafter
  rw [exec_mqOperationBegin]
  refine runEvent_of ?_
  simp only [bind, Option.bind, hhead]
  rw [if_pos ⟨hb, hmat, hall, hcellar⟩]
  split
  next addTo int hm => exact (hk addTo int hm).elim
  next => rfl
  next => rfl

end

section
variable (h : alook id s.mqs = some m) (hb : m.begun = true)
include h hb

theorem begunMq_of : s.begunMq id = some m := by
  simp [State.begunMq, h, hb]

theorem complete_mma {mode : MmaMode} (hk : m.kind = .mma mode) :
    let s1 := m.parts.foldl (fun (st : State) p => st.mqRows m.core p.acc (s.rowBytes p.acc) (s.mmaRows m mode p)) s
    exec (.mmaComplete id false) s =
      .next (m.parts.foldl (fun (st : State) p => st.endPart id p none) ((s1.ctxEvent m.core m.ctx 5
        (s.mmaMacs m - s.macsDone m ((s.core m.core).count - m.at_))).endMq id m)) := by
  rw [exec_mmaComplete]
  refine runEvent_of ?_
  simp only [bind, Option.bind, begunMq_of h hb, hk, Bool.false_and, Bool.false_eq_true, if_false]

theorem complete_mzero (hk : m.kind = .mzero) : exec (.mzeroComplete id) s = .next
    ((s.mqRows m.core m.a (s.rowBytes m.a) (List.replicate m.m (List.replicate (4 * m.n) 0))).endMq id m) := by
  rw [exec_mzeroComplete]
  refine runEvent_of ?_
  simp only [bind, Option.bind, begunMq_of h hb, hk]

theorem complete_drain {addTo int : Bool} {o : PendOp} (hk : m.kind = .mdrain addTo int) (ho : alook id s.pend = some o)
    (hdone : ∀ l ∈ o.lanes, l.st = .done) : exec (.mdrainComplete id []) s = .next
      (m.parts.foldl (fun (st : State) p => st.endPart id p none) (({ s with pend := adel id s.pend } : State).endMq id m)) := by
  have hall : (o.lanes.all fun l => !l.isOpen) = true := by
    rw [List.all_eq_true]
    intro l hl
    simp [LaneAcc.isOpen, hdone l hl, LaneSt.over]
  have hnone (x : LaneSt) (hx : x ≠ .done) : (o.lanes.filter fun l => l.st == x) = [] := by
    rw [List.filter_eq_nil_iff]
    intro l hl
    simp [hdone l hl, hx.symm]
  rw [exec_mdrainComplete]
  refine runEvent_of ?_
  simp only [bind, Option.bind, begunMq_of h hb, hk, ho, List.contains_nil, Bool.false_eq_true, if_false, Bool.false_or, hall, if_true,
    hnone .failed (by decide), hnone .refused (by decide), List.map_nil, drainError, Option.orElse, Option.isSome_none, Bool.false_and]

theorem complete_write {int : Bool} (hk : m.kind = .mdrain false int) (ho : alook id s.pend = none) :
    exec (.mdrainComplete id []) s = .next (m.parts.foldl (fun (st : State) p => st.endPart id p none)
      ((s.drainWrite id m false int ((m.dest.zip (List.range m.dest.length)).map fun g => (g.2, g.1))).endMq id m)) := by
  rw [exec_mdrainComplete]
  refine runEvent_of ?_
  simp only [bind, Option.bind, begunMq_of h hb, hk, ho, List.contains_nil, Bool.false_eq_true, if_false, Bool.false_and, Bool.or_self,
    Bool.not_false, Bool.and_self, List.filter_true, List.filter_false, List.map_nil, drainError, Option.orElse, Option.isSome_none]

end
end

/-- The diagnosis of a rendezvous that outlasts the watchdog. -/
def latchDiag (s : State) (tid : Nat) (t : Team) (g : Group) : Diag := {
  kind := 2, arr := tixMask g ((s.latched t.gid t.gang).map fun w => w.1), start := t.since, expiry := s.expiry tid t.since
  gang := t.gang.toNat, home := s.agentCore (.team tid) }

theorem rendezvousTimeout_ok {s : State} {tid : Nat} {t : Team} {i : Instr} {g : Group} (hw : Waits s tid t (.rendezvous i))
    (hg : alook t.gid s.groups = some g) (hfirst : t.since = openedAt (s.latched t.gid t.gang)) (hx : s.expired tid t.since = true) :
    exec (.rendezvousTimeout tid) s = .next (((s.bySlot ((s.latched t.gid t.gang).map fun w => w.1)).foldl
      (fun (st : State) k => st.watchTrap k { cause := .gang, count := some (s.expiry tid t.since) } (latchDiag s tid t g)) s).settleLatch
        (s.agentCore (.team tid)) 16) := by
  obtain ⟨hlook, hst, hwait⟩ := hw
  have hlatch : t.atLatch = some i := by simp [Team.atLatch, hst, hwait]
  rw [exec_rendezvousTimeout]
  refine runEvent_of ?_
  simp only [State.rendezvousTimeout, bind, Option.bind, hlook, hlatch, hg, ← hfirst, hx, and_self, if_true]
  rfl

/-- Settles O28: the engine's steps by the kind of the operation, and the timeout of a rendezvous. -/
theorem matrixOperationsComplete : Obligations.MatrixOperationsComplete := by
  intro s
  refine ⟨fun core id m hhead hb hmat hafter hcellar => ⟨fun addTo int hk htile hheld => ?_, fun hcase => ?_⟩, fun id m h hb =>
    ⟨fun _ hk => complete_mma h hb hk, fun hk => complete_mzero h hb hk, fun _ _ _ hk ho hdone => complete_drain h hb hk ho hdone,
      fun _ hk ho => complete_write h hb hk ho⟩, fun tid t i g hw hg => ?_⟩
  · rw [begin_drain hhead hb hmat hafter hcellar hk, htile, hheld]
    rfl
  · by_cases hk : ∀ addTo int, m.kind ≠ .mdrain addTo int
    · exact begin_other hhead hb hmat hafter hcellar hk
    · have hlate : (m.toTile || s.mqHeld m) = true := by simpa using hcase.resolve_left hk
      simp only [not_forall, not_not] at hk
      obtain ⟨addTo, int, hk⟩ := hk
      rw [begin_drain hhead hb hmat hafter hcellar hk, if_pos hlate]
      rfl
  · exact fun hfirst hx => ⟨latchDiag s tid t g, rfl, rfl, rfl, rendezvousTimeout_ok hw hg hfirst hx⟩

end Sys2Proof.MatrixOps
end

section
/-!
PROOF. Pre-emption (R306 to R308, R364, R385, R386): the swap of a core's banks and its end, the spill of a bank, its load and its retention.
-/
namespace Sys2Proof.Preemption
open Sys2Proof Sys2Proof.Machine Sys2Proof.Claims Sys2Proof.Laws Sys2Proof.LaneResults Sys2Proof.ControlFlow Sys2Proof.MemoryAccess
open Sys2Proof.DebugWindow (bank_setBank_same)

/-! ## The record of a swap (R362) -/

/-- A correlation record changes the core's sequence number, and what the host and SCHED see of it. -/
theorem correlate_rest (s : State) (core kind : Nat) : ∃ m c p f, s.correlate core kind =
    { s.setCore core { s.core core with corrSeq := (s.core core).corrSeq + 1 } with hostMem := m, clock := c, past := p, fw := f } := by
  unfold State.correlate
  dsimp only
  split
  · unfold State.writeCorr
    split
    · exact ⟨_, _, _, _, rfl⟩
    · exact ⟨s.hostMem, s.clock, s.past, s.fw, rfl⟩
  · exact ⟨s.hostMem, s.clock, s.past, _, rfl⟩

theorem correlate_core (s : State) (core kind : Nat) :
    (s.correlate core kind).core core = { s.core core with corrSeq := (s.core core).corrSeq + 1 } := by
  obtain ⟨m, c, p, f, h⟩ := correlate_rest s core kind
  rw [h]
  exact (core_setCore s core core _).trans (if_pos rfl)

section
variable (s : State) (core kind : Nat)

theorem correlate_teams : (s.correlate core kind).teams = s.teams := by
  obtain ⟨m, c, p, f, h⟩ := correlate_rest s core kind
  rw [h]
  rfl

theorem correlate_ctls : (s.correlate core kind).ctls = s.ctls := by
  obtain ⟨m, c, p, f, h⟩ := correlate_rest s core kind
  rw [h]
  rfl

theorem correlate_groups : (s.correlate core kind).groups = s.groups := by
  obtain ⟨m, c, p, f, h⟩ := correlate_rest s core kind
  rw [h]
  rfl

end

/-! ## The swap (R306) -/

theorem bank_setBank_ne (x : CoreSt) {a b : Nat} (ha : a ≤ 1) (hb : b ≤ 1) (h : a ≠ b) (k : Bank) : (x.setBank b k).bank a = x.bank a := by
  obtain ⟨rfl, rfl⟩ | ⟨rfl, rfl⟩ : a = 0 ∧ b = 1 ∨ a = 1 ∧ b = 0 := by omega
  all_goals rfl

/-- A core with its banks exchanged. -/
def exchanged (y : CoreSt) : CoreSt :=
  let inc := y.bank (1 - y.act)
  let ready := inc.st == .ready
  { (y.setBank y.act y.outBank).setBank (1 - y.act) { inc with st := if ready then .active else inc.st } with
    act := 1 - y.act, swap := some y.count, swapDue := none
    move := if inc.point = y.point || !ready then none else some { dest := inc.point, notice := y.count, ramping := false } }

theorem swapBanks_core (s : State) (core : Nat) :
    let y := (s.saveGroups core (s.core core).act).core core
    (s.swapBanks core).core core = { exchanged y with corrSeq := (exchanged y).corrSeq + 1 } := by
  unfold State.swapBanks
  dsimp only
  rw [correlate_core]
  have hcore : ∀ (st : State) (b : Nat) (out : Bool), (st.swapGroups core b out).core core = st.core core := fun _ _ _ => rfl
  rw [hcore, core_setCore, if_pos rfl]
  rfl

theorem swapBanks_teams (s : State) (core : Nat) : (s.swapBanks core).teams = (s.saveGroups core (s.core core).act).teams := by
  unfold State.swapBanks
  dsimp only
  rw [correlate_teams]
  rfl

theorem swapBanks_ctls {s : State} {core : Nat} (hdue : ((s.saveGroups core (s.core core).act).core core).swapDue = none) :
    (s.swapBanks core).ctls = (s.saveGroups core (s.core core).act).ctls := by
  have hsome : ((s.saveGroups core (s.core core).act).core core).swapDue.isSome = false := by rw [hdue]; rfl
  unfold State.swapBanks
  dsimp only
  rw [correlate_ctls]
  cases hctx : ((s.saveGroups core (s.core core).act).core core).active.ctx <;> simp [State.swapGroups, hsome]

theorem swapBanks_groups (s : State) (core : Nat) :
    (s.swapBanks core).groups = ((s.saveGroups core (s.core core).act).swapGroups core
      (1 - ((s.saveGroups core (s.core core).act).core core).act) false).groups := by
  unfold State.swapBanks
  dsimp only
  rw [correlate_groups]
  rfl

/-- The outgoing groups saved where none restarts and none has a move. -/
def saved (s : State) (core b : Nat) : State :=
  { s with
    teams := amap (fun _ t => if !t.ctl && (s.gidsAt core b).contains t.gid then t.swapOut else t) s.teams
    ctls := match ((s.core core).bank b).ctx with
      | some ctx => amap (fun k t => if k = ctlKey core ctx then t.swapOut else t) s.ctls
      | none => s.ctls }.swapGroups core b true

theorem foldl_same {α β : Type} {f : β → α → β} {b : β} {l : List α} (h : ∀ x ∈ l, f b x = b) : l.foldl f b = b := by
  induction l with
  | nil => rfl
  | cons x l ih =>
    rw [List.foldl_cons, h x (List.mem_cons_self ..)]
    exact ih fun y hy => h y (List.mem_cons_of_mem _ hy)

theorem saveGroups_saved {s : State} {core b : Nat} (h : ∀ gid ∈ s.gidsAt core b, ∀ g, alook gid s.groups = some g → s.restarts g = false ∧ g.mark = none) :
    s.saveGroups core b = saved s core b := by
  unfold State.saveGroups
  rw [foldl_same]
  · rfl
  · intro gid hgid
    cases hg : alook gid s.groups with
    | none => rfl
    | some g =>
      obtain ⟨hr, hm⟩ := h gid hgid g hg
      simp [hr, hm]

theorem saved_core (s : State) (core b : Nat) : (saved s core b).core core = s.core core := rfl

theorem alook_swapGroups (s : State) (core b gid : Nat) (out : Bool) : alook gid (s.swapGroups core b out).groups =
    (alook gid s.groups).map fun g => if g.place = Place.bank core b then g.swapSt out else g :=
  alook_amap (fun _ (g : Group) => if g.place = Place.bank core b then g.swapSt out else g) gid s.groups

section
variable {s : State} {core : Nat}
  (h : ∀ gid ∈ s.gidsAt core (s.core core).act, ∀ g, alook gid s.groups = some g → s.restarts g = false ∧ g.mark = none)
include h

theorem swapBanks_savedTeams : (s.swapBanks core).teams =
    amap (fun _ t => if !t.ctl && (s.gidsAt core (s.core core).act).contains t.gid then t.swapOut else t) s.teams := by
  rw [swapBanks_teams, saveGroups_saved h]
  rfl

theorem swapBanks_savedCtl {ctx : Nat} {c : Team} (hctx : (s.core core).active.ctx = some ctx) (hdue : (s.core core).swapDue = none)
    (hc : alook (ctlKey core ctx) s.ctls = some c) : alook (ctlKey core ctx) (s.swapBanks core).ctls = some c.swapOut := by
  have hbank : ((s.core core).bank (s.core core).act).ctx = some ctx := hctx
  rw [swapBanks_ctls (by rw [saveGroups_saved h]; exact hdue), saveGroups_saved h]
  simp only [saved, State.swapGroups, hbank, alook_amap, hc, Option.map_some, if_true]

theorem alook_swapBanks_groups (gid : Nat) : alook gid (s.swapBanks core).groups =
    ((alook gid s.groups).map fun g => if g.place = Place.bank core (s.core core).act then g.swapSt true else g).map
      fun g => if g.place = Place.bank core (1 - (s.core core).act) then g.swapSt false else g := by
  rw [swapBanks_groups, alook_swapGroups, saveGroups_saved h, saved_core]
  exact congrArg _ (alook_swapGroups ..)

variable (hact : (s.core core).act ≤ 1)
include hact

theorem swapBanks_out {gid : Nat} {g : Group} (hg : alook gid s.groups = some g) (hp : g.place = .bank core (s.core core).act)
    (hst : g.st = .running) : alook gid (s.swapBanks core).groups = some { g with st := .swapped } := by
  have hne : (s.core core).act ≠ 1 - (s.core core).act := by omega
  rw [alook_swapBanks_groups h, hg]
  simp [hp, Group.swapSt, hst, hne]

theorem swapBanks_in {gid : Nat} {g : Group} (hg : alook gid s.groups = some g) (hp : g.place = .bank core (1 - (s.core core).act))
    (hst : g.st = .swapped) : alook gid (s.swapBanks core).groups = some { g with st := .running } := by
  have hne : 1 - (s.core core).act ≠ (s.core core).act := by omega
  rw [alook_swapBanks_groups h, hg]
  simp [hp, Group.swapSt, hst, hne]

end

section
variable {s : State} {core : Nat} (hs : Settled s core) (hact : (s.core core).act ≤ 1) (hready : ((s.core core).bank (1 - (s.core core).act)).st = .ready)
include hs hact hready

theorem maySwap_ok : (s.core core).maySwap = true := by
  obtain ⟨hmove, hswap, hckpt⟩ := hs
  simp [CoreSt.maySwap, CoreSt.settled, CoreSt.still, hmove, hswap, hckpt, hact, hready]

theorem dueSwap_ok {c : Nat} (hdue : (s.core core).swapDue = some c) :
    s.dueSwap core = (s.passCycle core (c - (s.core core).count)).swapBanks core := by
  simp only [State.dueSwap, hdue, maySwap_ok hs hact hready, if_true]

theorem preemptionSwap_ok (hup : s.fwUp 1 = true) : exec (.preemptionSwap core) s = .next (s.swapBanks core) := by
  rw [exec_preemptionSwap]
  refine runEvent_of ?_
  simp only [hup, maySwap_ok hs hact hready, Bool.and_self, if_true]

end

/-- The bank that a swap brings in, and the one that it leaves. -/
theorem exchanged_banks {y : CoreSt} (hact : y.act ≤ 1) (hready : (y.bank (1 - y.act)).st = .ready) :
    (exchanged y).active = { y.bank (1 - y.act) with st := .active } ∧ (exchanged y).bank y.act = y.outBank := by
  have hne : y.act ≠ 1 - y.act := by omega
  constructor
  · refine (bank_setBank_same (y.setBank y.act y.outBank) (1 - y.act) _).trans ?_
    rw [hready]
    rfl
  · exact (bank_setBank_ne (y.setBank y.act y.outBank) hact (by omega) hne _).trans (bank_setBank_same ..)

theorem outBank_active {y : CoreSt} (hdue : y.swapDue = none) (hst : y.active.st = .active) :
    y.outBank = { y.active.shiftHandler y.count with st := .ready, point := y.point, since := y.count } := by
  simp [CoreSt.outBank, hdue, hst]

theorem outBank_due {y : CoreSt} (hdue : y.swapDue ≠ none) : y.outBank = { Bank.init .empty with point := y.point, since := y.count } := by
  have hsome : y.swapDue.isSome = true := Option.isSome_iff_ne_none.2 hdue
  simp [CoreSt.outBank, hsome]

/-! ## The end of a swap, and the cellar (R306 to R308, R364) -/

section
variable {s : State} {core : Nat}

theorem swapResume_ok {c : Nat} (hswap : (s.core core).swap = some c) (hmove : (s.core core).move = none) (hdue : c + 96 ≤ (s.core core).count) :
    let x := s.core core
    let s1 := (s.setCore core { x.modActive (fun b => b.shiftHandler x.count) with swap := none }).checkBank core x.act
    exec (.swapResume core) s =
      .next (((s1.activeTeams core).map fun e => e.1).foldl (fun (st : State) tid => st.waitAgain tid x.count) s1) := by
  have hle : Nat.ble (c + 96) (s.core core).count = true := Nat.ble_eq ▸ hdue
  rw [exec_swapResume]
  refine runEvent_of ?_
  simp only [bind, Option.bind, hswap, hmove, hle, Option.isNone_none, Bool.and_self, if_true]

/-- The image of a bank in the cellar area. -/
def cellarImage (s : State) (core ctx : Nat) : Image := {
  core := core, ctx := ctx, cellar := true, bank := (s.core core).bank (1 - (s.core core).act), ctl := alook (ctlKey core ctx) s.ctls
  loc := none, raw := [], teams := [], groups := [], tiles := [], launches := [], decants := [], mqs := [] }

/-- The state with a bank's contents in the cellar, before the waits of partners are looked at again. -/
def spilled (s : State) (core ctx : Nat) : State :=
  let x := s.core core
  let b := 1 - x.act
  let s1 := s.spillTiles (s.gidsAt core b)
  { s1 with
    images := aset s1.nextId (cellarImage s core ctx) s1.images
    groups := amap (fun _ (g : Group) => if g.place = Place.bank core b then g.toCellar s1.nextId else g) s1.groups
    ctls := adel (ctlKey core ctx) s1.ctls
    nextId := s1.nextId + 1 }.setCore core (x.setBank b { Bank.init .empty with point := x.point, since := x.count })

theorem recountPartners_rest (s : State) (gids : List Nat) : ∃ t, s.recountPartners gids = { s with teams := t } := by
  unfold State.recountPartners
  generalize (gids.flatMap fun g => s.teamsOf fun k => k == g) = l
  induction l generalizing s with
  | nil => exact ⟨s.teams, rfl⟩
  | cons k l ih =>
    obtain ⟨t, ht⟩ := ih (s.recountPartner k)
    refine ⟨t, ?_⟩
    rw [List.foldl_cons, ht, recountPartner_rest s k]

theorem bankSpill_ok {ctx : Nat} (hctx : ((s.core core).bank (1 - (s.core core).act)).ctx = some ctx)
    (hready : ((s.core core).bank (1 - (s.core core).act)).st = .ready) (hswap : (s.core core).swap = none)
    (hbusy : s.bankBusy core (1 - (s.core core).act) ctx = false) (hup : s.fwUp 1 = true) : exec (.bankSpill core) s =
      .next ((spilled s core ctx).recountPartners (s.gidsAt core (1 - (s.core core).act))) := by
  rw [exec_bankSpill]
  refine runEvent_of ?_
  simp only [bind, Option.bind, hctx, hready, hswap, hbusy, hup, Option.isNone_none, beq_self_eq_true, Bool.not_false, Bool.and_self, if_true]
  rfl

theorem bankRetention_ok {b : Nat} (hb : b < 2) (hc : core < Config.nCores) (hst : ((s.core core).bank b).st = .empty)
    (hr : ((s.core core).bank b).retained = false)
    (hsince : ((s.core core).bank b).since + 1000 * Config.mhz (s.core core).point ≤ (s.core core).count) : exec (.bankRetention core b) s =
      .next (s.setCore core ((s.core core).setBank b { (s.core core).bank b with retained := true })) := by
  rw [exec_bankRetention]
  refine runEvent_of ?_
  exact if_pos ⟨hb, hc, hst, hr, hsince⟩

end

/-- Settles O39: what a swap saves and brings in, its end 96 cycles later, and the steps of the banks and the cellar. -/
theorem preemptionResult : Obligations.PreemptionResult := by
  intro s core x
  refine ⟨fun hs hact hready => ⟨fun c hdue => dueSwap_ok hs hact hready hdue, fun hup => preemptionSwap_ok hs hact hready hup, ?_, fun h => ?_⟩,
    fun c hswap hmove hdue => swapResume_ok hswap hmove hdue, fun ctx hctx hready hswap hbusy hup => ?_, fun image s1 hload => ?_,
    fun b hb hc hst hr hsince => bankRetention_ok hb hc hst hr hsince⟩
  · intro yact yready
    rw [swapBanks_core]
    obtain ⟨hin, hout⟩ := exchanged_banks yact yready
    exact ⟨rfl, rfl, rfl, hin, fun hdue hst => hout.trans (outBank_active hdue hst), fun hdue => hout.trans (outBank_due hdue)⟩
  · exact ⟨swapBanks_savedTeams h, fun ctx c hctx hdue hc => swapBanks_savedCtl h hctx hdue hc,
      fun gid g hg => ⟨fun hp hst => swapBanks_out h hact hg hp hst, fun hp hst => swapBanks_in h hact hg hp hst⟩⟩
  · obtain ⟨t, ht⟩ := recountPartners_rest (spilled s core ctx) (s.gidsAt core (1 - x.act))
    refine ⟨_, bankSpill_ok hctx hready hswap hbusy hup, ?_, ⟨cellarImage s core ctx, ?_, rfl, rfl, rfl, rfl, rfl⟩, fun g hg hp => ?_⟩
    · rw [ht]
      have hcore : (spilled s core ctx).core core =
          x.setBank (1 - x.act) { Bank.init .empty with point := x.point, since := x.count } := (core_setCore ..).trans (if_pos rfl)
      exact (congrArg (fun y => y.bank (1 - x.act)) hcore).trans (bank_setBank_same ..)
    · rw [ht]
      exact alook_aset_same ..
    · rw [ht]
      exact List.mem_map.2 ⟨g, hg, congrArg (Prod.mk g.1) (if_pos hp)⟩
  · rw [exec_bankLoad]
    exact runEvent_of hload

end Sys2Proof.Preemption
end

section
/-!
PROOF. The curve point of a core (R65, R66), the states of its matrix engine (R68, R69) and the periodic record (R362).
-/
namespace Sys2Proof.CurvePoint
open Sys2Proof Sys2Proof.Machine Sys2Proof.Claims Sys2Proof.Laws Sys2Proof.MemoryAccess

section
variable {s : State} {core : Nat}

/-! ## The decision (R65) -/

/-- Every team has come in time, by the words of R65. -/
theorem curveMet_iff (f : Nat × Team) : s.curveMet core f = true ↔
    ∀ p ∈ s.activeTeams core, p.2.st = .draining ∨ (p.2.atCurve = true ∧ p.2.since < s.expiry f.1 f.2.since) := by
  simp [State.curveMet, List.all_eq_true]

section
variable {f : Nat × Team} (hf : firstWaiter (s.curveTeams core) = some f) (hmove : (s.core core).move = none) (hswap : (s.core core).swap = none)
include hf hmove hswap

theorem decision_stays (hmet : s.curveMet core f = true) (hx : s.curveChoice core = (s.core core).point) :
    exec (.curveDecision core) s = .next (s.endCurves core (s.core core).point) := by
  rw [exec_curveDecision]
  refine runEvent_of ?_
  simp only [bind, Option.bind, hf, CoreSt.still, hmove, hswap, hmet, Option.isNone_none, Bool.and_self, if_true, hx]

theorem decision_moves (hmet : s.curveMet core f = true) (hx : s.curveChoice core ≠ (s.core core).point) :
    exec (.curveDecision core) s = .next (s.modCore core fun y =>
      { y with move := some { dest := s.curveChoice core, notice := f.2.since, ramping := false } }) := by
  rw [exec_curveDecision]
  refine runEvent_of ?_
  simp only [bind, Option.bind, hf, CoreSt.still, hmove, hswap, hmet, Option.isNone_none, Bool.and_self, if_true, if_neg hx]

theorem decision_abandoned (hmet : s.curveMet core f = false) (hx : s.expired f.1 f.2.since = true) :
    exec (.curveDecisionAbandon core) s = .next (s.endCurves core (s.core core).point) := by
  rw [exec_curveDecisionAbandon]
  refine runEvent_of ?_
  simp only [State.curveAbandon, bind, Option.bind, hf, CoreSt.still, hmove, hswap, hmet, hx, Option.isNone_none, Bool.not_false, Bool.and_self,
    if_true]

end

/-! ## The ramp (R66) -/

section
variable {m : Move} (hm : (s.core core).move = some m)
include hm

theorem rampStart_ok (hup : s.fwUp 5 = true) (hr : m.ramping = false) (hb : s.mqBusy core = false)
    (hn : m.notice + 5 * Config.mhz (s.core core).point ≤ (s.core core).count) : exec (.curveRampStart core) s =
      .next (((s.engineIdle core).modCore core fun y => { y with move := some { m with ramping := true } }).dropHints core (s.core core).act) := by
  have hle : Nat.ble (m.notice + 5 * Config.mhz (s.core core).point) (s.core core).count = true := Nat.ble_eq ▸ hn
  rw [exec_curveRampStart]
  refine runEvent_of ?_
  simp only [bind, Option.bind, hm, hup, hr, hb, hle, Bool.not_false, Bool.and_self, if_true]

theorem rampEnd_ok (hr : m.ramping = true) : exec (.curveRampEnd core) s = .next ((((s.modCore core fun y =>
    { y with point := m.dest, move := none }).checkBank core (s.core core).act).endCurves core m.dest).correlate core 1) := by
  rw [exec_curveRampEnd]
  refine runEvent_of ?_
  simp only [bind, Option.bind, hm, hr, if_true]

end

/-! ## The record and the engine (R68, R69, R362) -/

theorem periodicRecord_ok (hup : s.fwUp 1 = true) (hc : core < Config.nCores) (hctx : (s.core core).active.ctx ≠ none)
    (hdue : agetD 0 core s.fw.corrAt + 1000 ≤ s.fw.now) : exec (.correlationRecordPeriodic core) s =
      .next (({ s with fw := { s.fw with corrAt := aset core s.fw.now s.fw.corrAt } } : State).correlate core 3) := by
  rw [exec_correlationRecordPeriodic]
  exact runEvent_of (if_pos ⟨hup, hc, Option.isSome_iff_ne_none.2 hctx, hdue⟩)

theorem rampupEnd_ok (hmat : (s.core core).mat = .rampup) (hdue : (s.core core).matAt + 64 ≤ (s.core core).count) :
    exec (.matrixRampupEnd core) s = .next (s.modCore core fun y =>
      { y with mat := if s.mqWaiting core then .active else .hold, matAt := (s.core core).matAt + 64 }) := by
  rw [exec_matrixRampupEnd]
  exact runEvent_of (if_pos ⟨hmat, hdue⟩)

theorem holdExpiry_ok (hmat : (s.core core).mat = .hold) (hdue : (s.core core).matAt + 128 ≤ (s.core core).count)
    (hh : s.hinted core = false) (hw : s.mqWaiting core = false) :
    exec (.matrixHoldExpiry core) s = .next (s.modCore core fun y => { y with mat := .rampdn, matAt := (s.core core).count }) := by
  rw [exec_matrixHoldExpiry]
  exact runEvent_of (if_pos ⟨hmat, hdue, hh, hw⟩)

theorem rampdnEnd_ok (hmat : (s.core core).mat = .rampdn) (hdue : (s.core core).matAt + 32 ≤ (s.core core).count) :
    let up := s.mqWaiting core || s.hinted core
    exec (.matrixRampdnEnd core) s = .next ((s.modCore core fun y => { y with
      mat := if up then .rampup else .idle, matAt := (s.core core).matAt + 32 }).coreEvent core 4
        (if up then min 64 ((s.core core).count - ((s.core core).matAt + 32)) else 0)) := by
  rw [exec_matrixRampdnEnd]
  exact runEvent_of (if_pos ⟨hmat, hdue⟩)

theorem mhintExpiry_ok {tid : Nat} {t : Team} (ht : alook tid s.teams = some t) (hh : 0 < t.hint) (ha : s.inActive tid = true)
    (hdue : t.hintAt + 4096 ≤ s.countOf (.team tid)) :
    exec (.mhintExpiry tid) s = .next { s with teams := aset tid { t with hint := 0 } s.teams } := by
  have hpos : Nat.blt 0 t.hint = true := Nat.blt_eq ▸ hh
  have hle : Nat.ble (t.hintAt + 4096) (s.countOf (.team tid)) = true := Nat.ble_eq ▸ hdue
  rw [exec_mhintExpiry]
  refine runEvent_of ?_
  simp only [bind, Option.bind, ht, hpos, ha, hle, Bool.and_self, if_true]

end

/-- Settles O38: the decision by whether every team has come in time, the ramp, and the engine's states at their times. -/
theorem curvePointAndEngineStates : Obligations.CurvePointAndEngineStates := by
  intro s core x
  refine ⟨?_, fun m hm => ⟨rampStart_ok hm, rampEnd_ok hm⟩, periodicRecord_ok, rampupEnd_ok, holdExpiry_ok, rampdnEnd_ok,
    fun _ _ => mhintExpiry_ok⟩
  intro f hf hmove hswap inTime
  refine ⟨fun hin => ?_, fun hout hx => ?_⟩
  · have hmet := (curveMet_iff f).2 hin
    exact ⟨decision_stays hf hmove hswap hmet, decision_moves hf hmove hswap hmet⟩
  · exact decision_abandoned hf hmove hswap (Bool.eq_false_iff.2 fun h => hout ((curveMet_iff f).1 h)) hx

end Sys2Proof.CurvePoint
end

section
/-!
PROOF. The state after reset (R60, R62, R68, R71, R306, R334, R341), and the words of the spec's listings (R17 to R25, R33).
-/
namespace Sys2Proof.Listings
open Sys2Proof Sys2Proof.Machine Sys2Proof.Claims Sys2Proof.Laws

/-! ## Reset -/

/-- Every core is at CP1 with COUNT 0, its engine IDLE and its banks EMPTY. -/
theorem core_reset (c : Nat) : (State.reset.core c).point = 1 ∧ (State.reset.core c).count = 0 ∧ (State.reset.core c).mat = .idle ∧
    ((State.reset.core c).bank 0).st = .empty ∧ ((State.reset.core c).bank 1).st = .empty := ⟨rfl, rfl, rfl, rfl, rfl⟩

/-- Every port is DOWN, with no replays. -/
theorem port_reset (p : PortId) :
    (State.reset.port p).st = .down ∧ (State.reset.port p).replays = 0 ∧ (State.reset.port p).en = false := by
  cases p with
  | kazeg k => exact ⟨rfl, rfl, rfl⟩
  | memory m => exact ⟨rfl, rfl, rfl⟩

/-- Every byte reads zero. -/
theorem byte_reset (pa : Nat) : State.reset.byte pa = 0 := by
  show (if deadHas [] (pa / 4096) then (0 : Byte) else sget [] pa) = 0
  split
  · rfl
  · rfl

/-- Settles O49: the reset state field by field. -/
theorem resetState : Obligations.ResetState := by
  unfold Obligations.ResetState
  exact ⟨⟨rfl, rfl, rfl⟩, core_reset, port_reset, fun w => rfl, rfl, byte_reset, rfl, rfl, rfl, rfl, rfl, rfl⟩

/-! ## Words of the listings -/

theorem decode_integer_words :
    decode [0x0081437E, 0x00012345] = .ok (.add { cc := true, ty := .i } (.v 5) (.reg (.v 6)) (.lit 0x00012345)) ∧
    decode [0x498B0803] = .ok (.shli (.s 2) (.reg (.s 1)) 3) ∧
    decode [0x1A40C101] = .ok (.sel .lt (.v 3) (.reg (.v 2)) (.reg (.v 1))) ∧
    decode [0x07013F01, 0x0000000C] = .ok (.div { cc := false, ty := .i } (.v 4) (.lit 12) (.reg (.v 1))) := by decide +kernel

theorem decode_float_words : decode [0x2B007C90] = .ok (.cvt .rne 2 (.v 1) (.reg .lid)) ∧
    decode [0x3000C178] = .ok (.quant .f32 (.v 3) (.reg (.v 2)) (.reg .z)) := by decide +kernel

theorem decode_control_words : decode [0x5C00000B] = .ok (.joinat 11) ∧ decode [0x54000008] = .ok (.brc .eq 8) ∧
    decode [0x6C000000] = .ok .exit := by decide +kernel

theorem decode_tile_words : decode [0x9138FF01, 0x00400004] = .ok (.setshape .tile (.s 3) (.lit 0x00400004) .fit 1) ∧
    decode [0x8D20F201] = .ok (.trd false .take (.v 3) (.reg (.s 4)) (.reg (.v 1))) ∧
    decode [0x9459B265, 0x00004004] = .ok (.mma false 2 102 (.reg (.s 4)) (.reg (.s 5)) .ovw 0 4) := by decide +kernel

theorem decode_order_words : decode [0x98397180] = .ok (.barv true (.s 5) (.reg (.s 3))) ∧
    decode [0x9D18F100] = .ok (.enq (.s 3) (.reg (.s 2))) ∧ decode [0x8940000C] = .ok (.fence .rel 12) ∧
    decode [0x8A200011] = .ok (.qfence true 17) := by decide +kernel

theorem decode_system_words : decode [0xA4180100] = .ok (.rdsr (.s 0) (.imm 0x100)) ∧
    decode [0xA819F080] = .ok (.tresume false (.s 7) (.reg (.s 1))) ∧
    decode [0xA90030E2] = .ok (.evsel false (.reg (.s 1)) (.reg (.s 2))) ∧
    decode [0x65840170] = .ok (.curve (.s 1) 5 0x30) := by decide +kernel

theorem decode_header_word : decode [0xC007FC90] =
    .ok (.clauseStart { wait := 1, setA := 15, setB := 15, len := 2, bt := 1, hint := 0, rsv := 0 }) := by decide +kernel

/-- The three unassigned opcodes of R33. -/
theorem decode_unassigned : decode [0x1F000000] = .error .illegal ∧ decode [0x78000000] = .error .illegal ∧
    decode [0xB0000000] = .error .illegal := by decide +kernel

/-- Settles O47: the words of each chapter's listings, chapter by chapter. -/
theorem decodedWords : Obligations.DecodedWords := by
  unfold Obligations.DecodedWords
  simp only [decode_integer_words, decode_float_words, decode_control_words, decode_tile_words, decode_order_words, decode_system_words,
    decode_header_word, decode_unassigned, and_self]

end Sys2Proof.Listings
end

section
/-!
PROOF. The ports and their flits (R334 to R336), the registers that the host writes (R337, R341), MSI-X, DOE discovery and the host's mailboxes
(R342, R343, R360).
-/
namespace Sys2Proof.Links
open Sys2Proof Sys2Proof.Machine Sys2Proof.Claims Sys2Proof.Laws Sys2Proof.MemoryAccess

/-- A step of a port that the part has gives its result. -/
theorem onPort_some {s s' : State} {p : PortId} (h : PortId.exists? p = true) {r : Option State} (hr : r = some s') :
    onPort s p r = .next s' := runEvent_of ((if_pos h).trans hr)

section
variable {s : State} {p : PortId} (hp : PortId.exists? p = true)
include hp

/-! ## Ports (R334 to R336) -/

theorem port_enables : exec (.portEnable p) s = .next (s.writeReg (PortId.statusAddr p) 8) := onPort_some hp rfl

theorem port_disables : exec (.portDisable p) s = .next (s.writeReg (PortId.statusAddr p) 0) := onPort_some hp rfl

theorem lockLoss_retrains (h : (s.port p).st = .active) : exec (.portLockLoss p) s = .next (s.setPort p (s.port p).retrain) :=
  onPort_some hp (if_pos h)

theorem flit_received (h : (s.port p).st = .active) (f : Flit) :
    exec (.flitReceive p f) s = .next (s.setPort p (({ s.port p with nakOwed := false, ackOwed := false } : Port).receive f)) :=
  onPort_some hp (if_pos h)

theorem training_ends (peer : Nat) (h : (s.port p).st = .training) (hf : s.fwUp 6 = true) :
    exec (.trainingAttemptEnd p true peer) s = .next (s.setPort p ((s.port p).trained (PortId.peerOf p peer))) :=
  onPort_some hp (if_pos ⟨h, hf⟩)

theorem training_fails_again (peer : Nat) (h : (s.port p).st = .training) (hf : s.fwUp 6 = true) (hn : (s.port p).fails < 2) :
    exec (.trainingAttemptEnd p false peer) s = .next (s.setPort p { s.port p with fails := (s.port p).fails + 1 }) :=
  onPort_some hp ((if_pos ⟨h, hf⟩).trans (if_pos hn))

theorem training_fails_for_good (peer : Nat) (h : (s.port p).st = .training) (hf : s.fwUp 6 = true) (hn : 2 ≤ (s.port p).fails) :
    exec (.trainingAttemptEnd p false peer) s = .next ((s.setPort p { s.port p with st := .failed, fails := 3 }).report
      .errReport 1 [BitVec.ofNat 64 (PortId.statusAddr p)]) :=
  onPort_some hp ((if_pos ⟨h, hf⟩).trans (if_neg (Nat.not_lt.mpr hn)))

end

/-! ## Registers (R337, R341) -/

theorem window_written {s : State} {w : Nat} (w0 w1 : BitVec 64) (h : w < 3808) : exec (.peerWindowWrite w w0 w1) s =
    .next ((s.writeReg (0xF000000100000 + 16 * w) w0).writeReg (0xF000000100000 + 16 * w + 8) w1) := runEvent_of (if_pos h)

theorem register_written {s : State} {addr : Nat} (x : BitVec 64) (hlo : 0xF000000000000 ≤ addr) (hhi : addr < 0x10000000000000)
    (ha : addr % 8 = 0) (hp : devReg addr = .plain) : exec (.deviceRegisterWrite addr x) s = .next (s.writeReg addr x) :=
  runEvent_of (if_pos ⟨hlo, hhi, ha, hp⟩)

/-! ## The host's functions (R342, R360) -/

theorem msix_unmasked {s : State} {v : Nat} (hv : v < 2048) (hm : v ∉ s.fw.msixOpen) :
    let s1 : State := { s with fw := { s.fw with msixOpen := v :: s.fw.msixOpen, msixPend := s.fw.msixPend.filter fun w => w != v } }
    exec (.msixUnmask v) s = .next (if s.fw.msixPend.contains v then s1.msix v else s1) :=
  runEvent_of (if_pos ⟨hv, by simpa using hm⟩)

theorem mailbox_read {s : State} {mb : Nat} {m : Msg} {r : List Msg} (hmb : mb = 12 ∨ mb = 13 ∨ mb = pf1)
    (h : agetD [] mb s.fw.mbox = m :: r) : exec (.mailboxRead mb) s = .next { s with fw := { s.fw with
      mbox := aset mb r s.fw.mbox, got := if mb = pf1 then m.word0 :: m.body else m.words } } := by
  have hok : (mb == 12 || mb == 13 || mb == pf1) = true := by simpa [or_assoc] using hmb
  rw [exec_mailboxRead]
  refine runEvent_of ?_
  rw [hok, h]

/-- Settles O44: the ports' steps, the registers, and the host's functions, each by its lemma. -/
theorem linksAndHostRegisters : Obligations.LinksAndHostRegisters := by
  unfold Obligations.LinksAndHostRegisters
  intro s
  refine ⟨fun p hp => ⟨port_enables hp, port_disables hp, fun h => ⟨lockLoss_retrains hp h, flit_received hp h⟩, fun peer h hf =>
    ⟨training_ends hp peer h hf, training_fails_again hp peer h hf, training_fails_for_good hp peer h hf⟩⟩,
    fun w w0 w1 h => window_written w0 w1 h, fun x => rfl, fun addr x hlo hhi ha hp => register_written x hlo hhi ha hp,
    fun v hv hm => msix_unmasked hv hm, fun i => rfl, fun mb m r hmb h => mailbox_read hmb h⟩

end Sys2Proof.Links
end

section
/-!
PROOF. What the firmware answers: code objects and contexts (R275, R276, R290), SVN counters, decode tables and keys (R277, R289, R367, R368), a
hang and the recovery mailbox (R361), SPDM (R369); and what is held while a core is hung (R359 to R361).
-/
namespace Sys2Proof.FirmwareService
open Sys2Proof Sys2Proof.Machine Sys2Proof.Claims Sys2Proof.Laws Sys2Proof.MemoryAccess

section
variable {s : State} {tag ctx : Nat}

/-! ## Objects: PARSE (R275, R276) -/

section
variable {addr : Nat} {down signed : Bool} (h0 : s.fwUp 0 = true) (h4 : s.fwUp 4 = true)
include h0 h4

theorem load_refused (h : addr % 64 ≠ 0 ∨ 2 ^ 56 ≤ addr ∨ s.isLive ctx = false) :
    exec (.objectLoad tag ctx addr down signed) s = .next (s.reply .loadStatus (some ctx) tag [1]) := by
  rw [exec_objectLoad]
  refine runEvent_of ?_
  simp only [h0, Bool.not_true, Bool.false_eq_true, if_false, h4, if_true]
  exact if_pos h

theorem load_judged {bs : List Byte} (ha : addr % 64 = 0) (h56 : addr < 2 ^ 56) (hl : s.isLive ctx = true) (hi : s.wholeImage ctx addr = .ok bs) :
    exec (.objectLoad tag ctx addr down signed) s = .next (s.judge tag ctx addr bs down signed) := by
  have hgood : ¬(addr % 64 ≠ 0 ∨ 2 ^ 56 ≤ addr ∨ s.isLive ctx = false) := by
    rintro (h | h | h)
    · exact h ha
    · exact Nat.not_le.2 h56 h
    · exact Bool.false_ne_true (h.symm.trans hl)
  rw [exec_objectLoad]
  refine runEvent_of ?_
  simp only [h0, Bool.not_true, Bool.false_eq_true, if_false, h4, if_true, hgood, hi]

end

section
variable {code : Nat} (h0 : s.fwUp 0 = true)
include h0

theorem unload_unknown (h : s.objAt ctx (BitVec.ofNat 64 code) = none) :
    exec (.objectUnload tag ctx code) s = .next (s.reply .unloadStatus (some ctx) tag [6]) := by
  rw [exec_objectUnload]
  refine runEvent_of ?_
  simp only [h0, if_true, h]

variable {k : Nat} {o : ObjRec} (ho : s.objAt ctx (BitVec.ofNat 64 code) = some (k, o))
include ho

theorem unload_busy (hb : s.objBusy o = true) : exec (.objectUnload tag ctx code) s = .next (s.reply .unloadStatus (some ctx) tag [5]) := by
  rw [exec_objectUnload]
  refine runEvent_of ?_
  simp only [h0, if_true, ho, hb]

theorem unload_done (hb : s.objBusy o = false) : exec (.objectUnload tag ctx code) s =
    .next (((({ s with objs := adel k s.objs } : State).invalidate fun e => e.key.obj == o.digest).closeContext ctx).reply
      .unloadStatus (some ctx) tag [0]) := by
  rw [exec_objectUnload]
  refine runEvent_of ?_
  simp only [h0, if_true, ho, hb, Bool.false_eq_true, if_false]

end

/-! ## Contexts: SCHED (R290, R317, R343) -/

section
variable (h1 : s.fwUp 1 = true)
include h1

/-- The context of a request that SCHED accepts; its vector is one of 4 to 2,047. -/
def newContext (s : State) (pasid root : Nat) (regions : List (Nat × Nat)) (rootRegion : Nat) : CtxRec :=
  { pasid := pasid, root := root, closing := false, rootRegion := rootRegion
    regions := regions.foldl (fun (m : List (Nat × Nat)) e => aset e.1 e.2 m) [], brk := [], vector := 4 + Config.choice s.freeN 9 % 2044 }

theorem create_done {pasid root rootRegion : Nat} {regions : List (Nat × Nat)} (hc : ctx < 65536) (hfree : alook ctx s.ctxs = none)
    (hp : pasid < 2 ^ 20) (hr : root % 2 ^ 20 = 0) (hrr : alook rootRegion regions ≠ none) (hu : ∀ c ∈ s.ctxs, c.2.pasid ≠ pasid) :
    exec (.contextCreate tag ctx pasid root regions rootRegion) s = .next
      (({ s with ctxs := aset ctx (newContext s pasid root regions rootRegion) s.ctxs } : State).reply .created (some ctx) tag
        [0, BitVec.ofNat 64 ctx]) := by
  have hany : aany (fun _ c => c.pasid == pasid) s.ctxs = false := by simpa [aany] using hu
  rw [exec_contextCreate]
  refine runEvent_of ?_
  rw [if_pos h1]
  exact if_pos ⟨hc, by rw [hfree]; rfl, hp, hr, Option.isSome_iff_ne_none.2 hrr, hany⟩

theorem create_misaligned {pasid root rootRegion : Nat} {regions : List (Nat × Nat)} (hr : root % 2 ^ 20 ≠ 0) :
    exec (.contextCreate tag ctx pasid root regions rootRegion) s = .next (s.reply .created none tag [1]) := by
  rw [exec_contextCreate]
  refine runEvent_of ?_
  rw [if_pos h1]
  exact if_neg fun h => hr h.2.2.2.1

theorem destroy_done {c : CtxRec} (hc : alook ctx s.ctxs = some c) : exec (.contextDestroy tag ctx) s =
    .next (({ s with ctxs := aset ctx { c with closing := true } s.ctxs }.closeContext ctx).reply .destroyed (some ctx) tag [0]) := by
  rw [exec_contextDestroy]
  refine runEvent_of ?_
  simp only [h1, if_true, hc]

theorem destroy_unknown (hc : alook ctx s.ctxs = none) :
    exec (.contextDestroy tag ctx) s = .next (s.reply .destroyed none tag [1]) := by
  rw [exec_contextDestroy]
  refine runEvent_of ?_
  simp only [h1, if_true, hc]

end

/-! ## Counters, tables and keys: SEC (R277, R289, R367, R368) -/

section
variable (h4 : s.fwUp 4 = true)
include h4

theorem svn_unsigned (counter value : Nat) : exec (.svnRaise counter value ⟨tag, false⟩) s = .next (s.secReply .svnStatus tag 1) := by
  rw [exec_svnRaise]
  exact runEvent_of ((if_pos h4).trans (if_pos (.inl rfl)))

theorem svn_raised {counter value : Nat} (hc : counter < 64) (hv : value ≤ 1023) (hlt : (sget s.fw.svn counter).toNat < value) :
    exec (.svnRaise counter value ⟨tag, true⟩) s = .next ((s.raiseSvn counter value).secReply .svnStatus tag 0) := by
  have hgood : ¬((⟨tag, true⟩ : Tagged Bool).val = false ∨ 64 ≤ counter ∨ 1023 < value) := by
    rintro (h | h | h)
    · cases h
    · omega
    · omega
  rw [exec_svnRaise]
  exact runEvent_of ((if_pos h4).trans ((if_neg hgood).trans (if_neg (Nat.not_le.2 hlt))))

theorem tables_unsigned : exec (.decodeTableUpdate ⟨tag, false⟩) s = .next (s.secReply .dtStatus tag 1) := by
  rw [exec_decodeTableUpdate]
  exact runEvent_of ((if_pos h4).trans rfl)

theorem tables_updated : exec (.decodeTableUpdate ⟨tag, true⟩) s =
    .next ((({ s with fw := { s.fw with dtgen := (s.fw.dtgen + 1) % 2 ^ 32 } } : State).invalidate fun e =>
      e.key.dtgen != (s.fw.dtgen + 1) % 2 ^ 32).secReply .dtStatus tag 0) := by
  rw [exec_decodeTableUpdate]
  exact runEvent_of ((if_pos h4).trans rfl)

theorem install_unsigned (id key : Nat) : exec (.keyInstall id key ⟨tag, false⟩) s = .next (s.secReply .keyStatus tag 1) := by
  rw [exec_keyInstall]
  exact runEvent_of ((if_pos h4).trans (if_neg fun h => Bool.false_ne_true h.1))

theorem remove_unsigned (id : Nat) : exec (.keyRemove id ⟨tag, false⟩) s = .next (s.secReply .keyStatus tag 1) := by
  rw [exec_keyRemove]
  exact runEvent_of ((if_pos h4).trans (if_neg fun h => Bool.false_ne_true h.1))

theorem key_installed {id : Nat} (key : Nat) (h : alook id s.fw.keys ≠ none ∨ s.fw.keys.length < 16) :
    exec (.keyInstall id key ⟨tag, true⟩) s =
      .next ({ s with fw := { s.fw with keys := aset id key s.fw.keys } }.secReply .keyStatus tag 0) := by
  rw [exec_keyInstall]
  exact runEvent_of ((if_pos h4).trans (if_pos ⟨rfl, h.imp_left Option.isSome_iff_ne_none.2⟩))

theorem key_removed {id : Nat} (h : alook id s.fw.keys ≠ none) : exec (.keyRemove id ⟨tag, true⟩) s =
    .next ({ s with fw := { s.fw with keys := adel id s.fw.keys } }.secReply .keyStatus tag 0) := by
  rw [exec_keyRemove]
  exact runEvent_of ((if_pos h4).trans (if_pos ⟨rfl, Option.isSome_iff_ne_none.2 h⟩))

end

end

theorem newContext_vector (s : State) (pasid root rootRegion : Nat) (regions : List (Nat × Nat)) :
    4 ≤ (newContext s pasid root regions rootRegion).vector ∧ (newContext s pasid root regions rootRegion).vector ≤ 2047 := by
  show 4 ≤ 4 + Config.choice s.freeN 9 % 2044 ∧ 4 + Config.choice s.freeN 9 % 2044 ≤ 2047
  omega

theorem requestsAnswered : RequestsAnswered := by
  unfold RequestsAnswered
  intro s tag ctx
  refine ⟨fun h0 => ⟨fun addr down signed h4 => ⟨load_refused h0 h4, fun bs ha h56 hl hi => load_judged h0 h4 ha h56 hl hi⟩,
      fun code => ⟨unload_unknown h0, fun k o ho => ⟨unload_busy h0 ho, unload_done h0 ho⟩⟩⟩,
    fun h1 => ⟨fun pasid root rootRegion regions => ⟨fun hc hfree hp hr hrr hu => ?_, create_misaligned h1⟩,
      fun c hc => destroy_done h1 hc, destroy_unknown h1⟩,
    fun h4 => ⟨fun counter value => ⟨svn_unsigned h4 counter value, svn_raised h4⟩, ⟨tables_unsigned h4, tables_updated h4⟩,
      fun id key => ⟨install_unsigned h4 id key, remove_unsigned h4 id, key_installed h4 key, key_removed h4⟩⟩⟩
  obtain ⟨hlo, hhi⟩ := newContext_vector s pasid root rootRegion regions
  exact ⟨newContext s pasid root regions rootRegion, hlo, hhi, rfl, rfl, rfl, rfl, rfl, rfl, create_done h1 hc hfree hp hr hrr hu⟩

/-! ## Requests held (R359 to R361) -/

/-- A request whose step is to hold it is held while its mailbox has room. -/
theorem held_of {s : State} {i : Instr} {mb : Nat} (h : exec i s = runEvent s (s.hold mb i)) : Held s i mb := by
  intro hq
  rw [h]
  exact runEvent_of (if_pos hq)

/-- Every request to a core that has hung is held in that core's mailbox. -/
theorem request_held {s : State} {i : Instr} {fw mb : Nat} (hr : FwRequest i fw mb) (h : s.fwUp fw = false) : Held s i mb := by
  have hn : ¬s.fwUp fw = true := by rw [h]; exact Bool.false_ne_true
  refine held_of ?_
  cases hr with
  | load => exact congrArg (runEvent s) (if_pos (by rw [h]; rfl))
  | submit tag ctx addr die hd => exact congrArg (runEvent s) ((if_neg (Nat.not_le.2 hd)).trans (if_neg hn))
  | unload => exact congrArg (runEvent s) (if_neg hn)
  | create => exact congrArg (runEvent s) (if_neg hn)
  | destroy => exact congrArg (runEvent s) (if_neg hn)
  | restore => exact congrArg (runEvent s) (if_neg hn)
  | retire => exact congrArg (runEvent s) (if_neg hn)
  | svn => exact congrArg (runEvent s) (if_neg hn)
  | tables => exact congrArg (runEvent s) (if_neg hn)
  | install => exact congrArg (runEvent s) (if_neg hn)
  | remove => exact congrArg (runEvent s) (if_neg hn)
  | version => exact congrArg (runEvent s) (if_neg hn)
  | capabilities => exact congrArg (runEvent s) (if_neg hn)
  | algorithms => exact congrArg (runEvent s) (if_neg hn)
  | digests => exact congrArg (runEvent s) (if_neg hn)
  | certificate => exact congrArg (runEvent s) (if_neg hn)
  | challenge => exact congrArg (runEvent s) (if_neg hn)
  | measurements => exact congrArg (runEvent s) (if_neg hn)

/-- A load that PARSE has taken waits for SEC in mailbox 4. -/
theorem load_held_for_sec {s : State} {tag ctx addr : Nat} {down signed : Bool} (h0 : s.fwUp 0 = true) (h4 : s.fwUp 4 = false) :
    Held s (.objectLoad tag ctx addr down signed) 4 := by
  refine held_of ?_
  refine congrArg (runEvent s) ((if_neg ?_).trans (if_neg ?_))
  · rw [h0]; exact Bool.false_ne_true
  · rw [h4]; exact Bool.false_ne_true

/-! ## Hang and recovery (R361, R367) -/

section
variable {s : State}

theorem heartbeat_lapses {fw : Nat} (hfw : fw < 8) (hup : s.fwUp fw = true) (hl : agetD 0 fw s.fw.beats + 10000 ≤ s.fw.now) :
    exec (.firmwareHeartbeatLapse fw) s =
      .next (({ s with fw := { s.fw with hung := fw :: s.fw.hung, frozen := true } } : State).msix 0) := by
  have hle : s.lapsed fw = true := Nat.ble_eq ▸ hl
  rw [exec_firmwareHeartbeatLapse]
  exact runEvent_of (if_pos ⟨hfw, hup, hle⟩)

/-- An image is good where it verifies and its SVN is not below fuse counter 0. -/
theorem reloadOk_iff {x : FwReload} : s.reloadOk x = true ↔
    (if x.fw = 4 then romOk x.image s.part.keyHash else secOk x.image s.fw.secKeys) = true ∧ (sget s.fw.svn 0).toNat ≤ x.image.svn := by
  unfold State.reloadOk
  rw [Bool.and_eq_true, Nat.ble_eq]

section
variable {fw tag : Nat} {i : FwImage} (hfw : fw < 8) (hsec : fw = 4 ∨ s.fwUp 4 = true)
include hfw hsec

theorem core_reloaded (h : s.reloadOk { fw := fw, image := i } = true) : exec (.recoveryReset ⟨tag, { fw := fw, image := i }⟩) s =
    .next (((s.takeImage { fw := fw, image := i }).restartCore fw).pf1Reply .recoveryStatus tag [0]) := by
  rw [exec_recoveryReset]
  exact runEvent_of ((if_pos ⟨hfw, hsec⟩).trans (congrArg some (if_pos h)))

theorem reload_refused (h : ¬s.reloadOk { fw := fw, image := i } = true) : exec (.recoveryReset ⟨tag, { fw := fw, image := i }⟩) s =
    .next (s.pf1Reply .recoveryStatus tag [1]) := by
  rw [exec_recoveryReset]
  exact runEvent_of ((if_pos ⟨hfw, hsec⟩).trans (congrArg some (if_neg h)))

end

section
variable {tag addr : Nat}

theorem recovery_read_nothing (h : s.recoveryTarget addr = none) :
    exec (.recoveryRead ⟨tag, addr⟩) s = .next (s.pf1Reply .readData tag [1]) := by
  rw [exec_recoveryRead]
  refine runEvent_of ?_
  simp only [h]

theorem recovery_write_nothing (h : s.recoveryTarget addr = none) (x : BitVec 64) :
    exec (.recoveryWrite ⟨tag, addr⟩ x) s = .next (s.pf1Reply .recoveryStatus tag [1]) := by
  rw [exec_recoveryWrite]
  refine runEvent_of ?_
  simp only [h]

theorem recovery_read {g : Target} (h : s.recoveryTarget addr = some g) :
    exec (.recoveryRead ⟨tag, addr⟩) s = .next (s.pf1Reply .readData tag [0, BitVec.ofNat 64 (s.tgtValue g 8)]) := by
  rw [exec_recoveryRead]
  refine runEvent_of ?_
  simp only [h]

theorem recovery_write {g : Target} (h : s.recoveryTarget addr = some g) (x : BitVec 64) :
    exec (.recoveryWrite ⟨tag, addr⟩ x) s =
      .next ((s.writeAs s.nextId .none false false [] g (leBytes x.toNat 8)).pf1Reply .recoveryStatus tag [0]) := by
  rw [exec_recoveryWrite]
  refine runEvent_of ?_
  simp only [h]

end

section
variable {tag ctx addr die : Nat} (hd : die < Config.nDies)
include hd

/-- A record is placed as a host submission is. -/
theorem place_taken {s1 : State} (h : s.submit (fun (st : State) v => st.pf1Reply .placeStatus tag [v]) ctx addr die = some s1) :
    exec (.recoveryPlace ⟨tag, ctx⟩ addr die) s = .next s1 := by
  rw [exec_recoveryPlace]
  exact runEvent_of ((if_pos hd).trans h)

end

/-! ## SPDM (R369) -/

/-- While SEC runs it answers a request at once. -/
theorem spdm_answers {i : Instr} {op : MsgOp} {tag : Nat} {body : List W64} (h4 : s.fwUp 4 = true) :
    s.spdm i op tag body = .next (s.pf1Reply op tag body) := runEvent_of (if_pos h4)

theorem measurements_answered {b : Nat} (tag : Nat) (h4 : s.fwUp 4 = true) (hlo : 1 ≤ b) (hhi : b ≤ 11) :
    exec (.getMeasurements tag b) s =
      .next (s.pf1Reply .measurements tag (BitVec.ofNat 64 b :: s.measured b ++ Config.spdmBody (6 + 16 * b))) := by
  rw [exec_getMeasurements]
  refine (spdm_answers h4).trans ?_
  rw [if_pos ⟨hlo, hhi⟩]

theorem measurements_none {b : Nat} (tag : Nat) (h4 : s.fwUp 4 = true) (hb : b = 0 ∨ 11 < b) :
    exec (.getMeasurements tag b) s = .next (s.pf1Reply .measurements tag []) := by
  rw [exec_getMeasurements]
  refine (spdm_answers h4).trans ?_
  rw [if_neg (by omega)]

end

theorem firmwareAnswers : FirmwareAnswers := by
  unfold FirmwareAnswers
  intro s
  refine ⟨fun fw hfw => ⟨fun hup hl => heartbeat_lapses hfw hup hl, fun tag hsec i => ?_⟩, rfl,
    fun tag addr => ⟨fun h => ⟨recovery_read_nothing h, recovery_write_nothing h⟩, fun g h => ⟨recovery_read h, recovery_write h⟩⟩,
    fun tag ctx addr die hd => ⟨fun ha => place_taken hd (Queues.submit_badAddress _ ha),
      fun g ha h56 hg hp hring => place_taken hd (Queues.submit_posts _ ha h56 hg hp rfl rfl hring)⟩,
    fun h4 tag => ⟨spdm_answers h4, spdm_answers h4, spdm_answers h4, spdm_answers h4, spdm_answers h4, fun n => ⟨_, spdm_answers h4⟩,
      fun b hlo hhi => ⟨_, measurements_answered tag h4 hlo hhi⟩, fun b hb => measurements_none tag h4 hb⟩⟩
  exact ⟨fun h => core_reloaded hfw hsec (reloadOk_iff.2 h), fun h => reload_refused hfw hsec fun h' => h (reloadOk_iff.1 h')⟩

/-- Settles O43: the requests answered, the requests held, and recovery with SPDM. -/
theorem firmwareAnswersRequests : Obligations.FirmwareAnswersRequests :=
  ⟨requestsAnswered, fun _ => ⟨fun _ _ _ hr h => request_held hr h, fun _ _ _ _ _ h0 h4 => load_held_for_sec h0 h4⟩, firmwareAnswers⟩

end Sys2Proof.FirmwareService
end

section
/-!
PROOF. How the MEM firmware ends a translation fault (R278, R293, R320, R361), and ATS invalidation.
-/
namespace Sys2Proof.FaultRepair
open Sys2Proof Sys2Proof.Machine Sys2Proof.Claims Sys2Proof.Laws Sys2Proof.MemoryAccess

section
variable {s : State} {k : Nat} {f : FaultRec} (hf : s.openFault k = some f)
include hf

/-- No reply within 16 watchdog units. -/
theorem fault_times_out (h : f.since + 16 * 1024 ≤ (s.core f.core).count) :
    exec (.faultRepairTimeout k) s = .next (s.deliverFault k f) := by
  rw [exec_faultRepairTimeout]
  refine runEvent_of ?_
  simp only [State.faultTimeout, bind, Option.bind, hf]
  exact if_pos h

/-- A reply to a hung core is held. -/
theorem reply_held (ok : Bool) (hst : f.st = .sysWait) (hup : s.fwUp 2 = false) : Held s (.faultRecordReply k ok) 10 := by
  intro hq
  rw [exec_faultRecordReply]
  refine runEvent_of ?_
  simp only [bind, Option.bind, hf, hst, beq_self_eq_true, if_true, hup, Bool.false_eq_true, if_false]
  exact if_pos hq

variable (hup : s.fwUp 2 = true)
include hup

theorem repair_completes (hv : s.nowValid f = true) : exec (.faultRepairComplete k) s = .next (s.repaired k f) := by
  rw [exec_faultRepairComplete]
  refine runEvent_of ?_
  simp only [bind, Option.bind, hf, hup, Bool.not_true, Bool.false_eq_true, if_false, hv, if_true]

theorem repair_retries (hv : s.nowValid f = false) (hst : f.st = .walking) :
    exec (.faultRepairComplete k) s = .next (s.retryFault k f) := by
  rw [exec_faultRepairComplete]
  refine runEvent_of ?_
  simp only [bind, Option.bind, hf, hup, Bool.not_true, Bool.false_eq_true, if_false, hv, hst, beq_self_eq_true, if_true]

theorem reply_taken (ok : Bool) (hst : f.st = .sysWait) :
    exec (.faultRecordReply k ok) s = .next (if ok then s.retryFault k f else s.deliverFault k f) := by
  rw [exec_faultRecordReply]
  refine runEvent_of ?_
  simp only [bind, Option.bind, hf, hst, beq_self_eq_true, if_true, hup]

theorem ats_found_nothing (hst : f.st = .atsWait) : exec (.atsTranslationCompletion k none) s = .next (s.setFault k f .priWait) := by
  rw [exec_atsTranslationCompletion]
  refine runEvent_of ?_
  simp only [bind, Option.bind, hf, hst, hup, beq_self_eq_true, Bool.and_self, if_true]

/-- The translation of a completion, in the ATC. -/
def atsEntry (f : FaultRec) (h : Nat) : AtcEntry :=
  { ctx := f.ctx, page := f.va.toNat % 2 ^ 56 / 65536, host := h / 65536 * 65536 }

/-- The state with a completion's translation in the place of the page's old one. -/
def cacheAts (s : State) (f : FaultRec) (h : Nat) : State :=
  { s with atc := atsEntry f h :: s.atc.filter fun (t : AtcEntry) => !(t.ctx == f.ctx && t.page == f.va.toNat % 2 ^ 56 / 65536) }

theorem ats_found (hst : f.st = .atsWait) (h : Nat) :
    exec (.atsTranslationCompletion k (some h)) s = .next ((cacheAts s f h).setFault k f .walking) := by
  rw [exec_atsTranslationCompletion]
  refine runEvent_of ?_
  simp only [bind, Option.bind, hf, hst, hup, beq_self_eq_true, Bool.and_self, if_true]
  rfl

theorem pri_answered (ok : Bool) (hst : f.st = .priWait) :
    exec (.priPageResponse k ok) s = .next (if ok then s.setFault k f .atsWait else s.deliverFault k f) := by
  rw [exec_priPageResponse]
  refine runEvent_of ?_
  simp only [bind, Option.bind, hf, hst, hup, beq_self_eq_true, Bool.and_self, if_true]

end

/-- An invalidation with no access open removes the pages it names. -/
theorem ats_invalidated {s : State} (ctx page n : Nat) (hp : s.pend = []) (hm : s.mqs = []) (ht : ∀ e ∈ s.teams, e.2.held = []) :
    exec (.atsInvalidateRequest ctx page n) s = .next { s with
      atc := s.atc.filter fun t => !(t.ctx == ctx && Nat.ble page t.page && Nat.blt t.page (page + n)) } := by
  have hheld (p : HeldWrite → Bool) : aany (fun _ t => t.held.any p) s.teams = false :=
    List.any_eq_false.2 fun e he => by simp [ht e he]
  rw [exec_atsInvalidateRequest]
  refine runEvent_of (if_neg ?_)
  rw [hheld, hp, hm]
  exact Bool.false_ne_true

/-- Settles O57: a fault's end by each of its causes, and the invalidation. -/
theorem faultsEnd : Obligations.FaultsEnd := by
  unfold Obligations.FaultsEnd
  intro s
  refine ⟨fun k f hf => ⟨fault_times_out hf, fun hup => ⟨repair_completes hf hup, repair_retries hf hup,
      fun hst => ⟨reply_taken hf hup false hst, reply_taken hf hup true hst⟩,
      fun hst => ⟨ats_found_nothing hf hup hst, fun h => ⟨_, ats_found hf hup hst h, List.mem_cons_self, alook_aset_same ..⟩⟩,
      fun hst => ⟨pri_answered hf hup true hst, pri_answered hf hup false hst⟩⟩,
    fun hst hup ok => reply_held hf ok hst hup⟩,
    fun ctx page n hp hm ht => ats_invalidated ctx page n hp hm ht⟩

end Sys2Proof.FaultRepair
end

section
/-!
PROOF. Dispatch (R260, R261), the completion of a decant and the release of a carved group (R284, R286, R114, R118), and the balancer (R160 to
R162).
-/
namespace Sys2Proof.Dispatching
open Sys2Proof Sys2Proof.Machine Sys2Proof.Claims Sys2Proof.Laws Sys2Proof.MemoryAccess Sys2Proof.DebugWindow

section
variable {s : State}

/-! ## Dispatch (R260, R261) -/

/-- What a pop leaves: the rest of the head record, and the die's turns. -/
def afterPop (s s1 : State) (core : Nat) (c : HeadRec × DieSt) : State :=
  let s2 := (s1.readHead s (dieOf core) c.1).takeHead (dieOf core) c.1 (s.popCount c.1)
  { s2 with dies := aset (dieOf core) { (s2.die (dieOf core) : DieSt) with prioN := c.2.prioN, lastR := c.2.lastR } s2.dies }

theorem dispatch_pops {core : Nat} {c : HeadRec × DieSt} {b : Option (List (Nat × Byte))} {s1 : State} (hfr : s.fw.frozen = false)
    (hc : core < Config.nCores) (hch : (s.die (dieOf core)).choose ((s.heads (dieOf core)).filter fun h => s.headOk core h) = some c)
    (hb : s.headBytes (dieOf core) c.1 = .ok b) (hp : s.popHead core c.1 b = some s1) :
    exec (.dispatchPop core) s =
      .next (if (s.liveObj c.1).isNone && !aany (fun _ g => g.launch == c.1.entry.launch) (afterPop s s1 core c).groups then
        ((afterPop s s1 core c).endLaunch c.1.entry.launch (dieOf core)).closeContext c.1.ctx else afterPop s s1 core c) := by
  have hlt : Nat.blt core Config.nCores = true := Nat.blt_eq ▸ hc
  rw [exec_dispatchPop]
  refine runEvent_of ?_
  simp only [hfr, hlt, Bool.not_true, Bool.or_self, Bool.false_eq_true, if_false, bind, Option.bind, hch, hb, hp]
  rfl

/-! ## Decants (R284, R286) -/

section
variable {die k : Nat} {e : DecEntry} (he : alook k s.decants = some e) (hd : e.die = die) (hst : e.st = .decanting)
  (hw : s.engWaits k = false)
include he hd hst hw

theorem decant_unreadable {s1 : State} (h : s.codeUncorrectable e = some s1) :
    exec (.decantComplete die k true) s = .next (s1.dropResidual k) := by
  rw [exec_decantComplete]
  refine runEvent_of ?_
  simp only [bind, Option.bind, he, hd, hst, hw, h, decide_true, beq_self_eq_true, Bool.not_false, Bool.and_self, if_true, Option.map]

theorem decant_refused (h : s.buildEntry e = .ok none) : exec (.decantComplete die k false) s = .next (s.dropResidual k) := by
  rw [exec_decantComplete]
  refine runEvent_of ?_
  simp only [bind, Option.bind, he, hd, hst, hw, h, decide_true, beq_self_eq_true, Bool.not_false, Bool.and_self, if_true, Bool.false_eq_true,
    if_false]

variable {o : DecOut} (h : s.buildEntry e = .ok (some o))
include h

theorem decant_no_room (hr : ((s.walksFor e.ctx die (s.entryPages e)).readCode e).roomFor die (e.built o).2 = none) :
    exec (.decantComplete die k false) s = .next (s.dropResidual k) := by
  rw [exec_decantComplete]
  refine runEvent_of ?_
  simp only [bind, Option.bind, he, hd, hst, hw, h, hr, decide_true, beq_self_eq_true, Bool.not_false, Bool.and_self, if_true,
    Bool.false_eq_true, if_false]

theorem decant_cached {s1 : State} (hr : ((s.walksFor e.ctx die (s.entryPages e)).readCode e).roomFor die (e.built o).2 = some s1) :
    exec (.decantComplete die k false) s = .next (if (e.built o).1.placed = true ∧ e.key.place = 255 then
      ({ s1 with decants := aset k (e.built o).1 s1.decants } : State).placeGroups k
      else { s1 with decants := aset k (e.built o).1 s1.decants }) := by
  rw [exec_decantComplete]
  refine runEvent_of ?_
  simp only [bind, Option.bind, he, hd, hst, hw, h, hr, decide_true, Bool.not_false, if_true, Bool.false_eq_true, if_false, Bool.and_eq_true,
    beq_iff_eq, and_self]

end

/-- Room found for n bytes is room within the cache (R286). -/
theorem roomFor_fits {die n : Nat} {s1 : State} (h : s.roomFor die n = some s1) : s1.cacheUsed die + n ≤ Config.decantBytes := by
  simp only [State.roomFor] at h
  split at h
  · cases h
  next hle =>
    obtain rfl := Option.some.inj h
    exact Nat.not_lt.1 hle

/-! ## Release (R114, R118) -/

theorem group_released {gid : Nat} {g : Group} {l : Launch} (hg : alook gid s.groups = some g) (hl : alook g.launch s.launches = some l)
    (hst : g.st = .carving) (hp : g.place = .bank g.place.core (s.core g.place.core).act) (hf : Free s g.place.core)
    (hr : s.residualsReady g = true) : exec (.groupRelease gid) s = .next { s with
      groups := aset gid { g with st := .running } s.groups
      teams := amap (fun _ t => if t.gid = gid ∧ t.st = .carved then
        t.enter (s.core g.place.core).point (s.classT g.place.core) (g.entryOf (Task.parse l.task) t.tix) else t) s.teams } := by
  have hplace : (g.place == .bank g.place.core (s.core g.place.core).act) = true := beq_iff_eq.2 hp
  rw [exec_groupRelease]
  refine runEvent_of ?_
  simp only [bind, Option.bind, hg, hl, hplace, held_false hf, hr]
  exact if_pos (by rw [hst]; rfl)

/-! ## The balancer (R160 to R162) -/

theorem entry_moved {ctx region die idx toDie : Nat} {q : RunQueue} {e : QEntry}
    (hq : (s.queues.find? fun q => q.ctx == ctx && q.region == region && q.die == die) = some q) (he : q.entries[idx]? = some e)
    (hne : die ≠ toDie) (hd : toDie < Config.nDies) (hr : s.region ctx region ≠ none) (hfr : s.fw.frozen = false) (hres : e.reserve = false)
    (hfit : s.queueFits ctx region toDie = true) (hring : s.ringHeld ctx region toDie = false) :
    let s1 : State := { s with queues := s.queues.map fun (r : RunQueue) =>
      if r.ctx == ctx && r.region == region && r.die == die then { r with entries := takeAt r.entries idx } else r }
    exec (.balancerQueueMove ctx region die idx toDie) s = .next ((s1.pushEntry ctx region toDie e false).dieEvent die 19 1) := by
  have hdie : (die != toDie) = true := bne_iff_ne.2 hne
  have hlt : Nat.blt toDie Config.nDies = true := Nat.blt_eq ▸ hd
  have hreg : (s.region ctx region).isSome = true := Option.isSome_iff_ne_none.2 hr
  rw [exec_balancerQueueMove]
  refine runEvent_of ?_
  simp only [bind, Option.bind, hq, he, hdie, hlt, hreg, hfr, hres, hfit, hring, Bool.not_false, Bool.and_self, if_true, Bool.false_eq_true,
    if_false]

section
variable {gid : Nat} {g : Group} (hg : alook gid s.groups = some g)
include hg

theorem group_marked (toCore : Nat) (hst : g.st = .running) (hres : g.resident = true) (hm : g.mark = none)
    (hmov : s.movable g toCore = true) : exec (.balancerMoveMark gid toCore) s =
      .next { s with groups := aset gid { g with mark := some (toCore, (s.core g.place.core).count) } s.groups } := by
  rw [exec_balancerMoveMark]
  refine runEvent_of ?_
  simp only [bind, Option.bind, hg]
  exact if_pos (by rw [hst, hres, hm, hmov]; rfl)

variable {m : Nat × Nat} (hm : g.mark = some m)
include hm

theorem group_swapped {s1 : State} (hres : g.resident = true) (hset : Settled s g.place.core)
    (hlate : ¬m.2 + 100 * Config.mhz (s.core g.place.core).point ≤ (s.core g.place.core).count) (hready : s.moveReady gid = true)
    (hmov : s.movable g m.1 = true) (hseat : s.canSeat gid g m.1 = true) (hmv : s.moveGroup gid g m.1 = some s1) :
    exec (.balancerMoveSwap gid) s = .next s1 := by
  obtain ⟨hmove, hswap, hckpt⟩ := hset
  have hl : (s.core g.place.core).moveLate m.2 = false := Bool.eq_false_iff.2 fun h => hlate (Nat.ble_eq ▸ h)
  rw [exec_balancerMoveSwap]
  refine runEvent_of ?_
  simp only [bind, Option.bind, hg, hm, hres, CoreSt.settled, CoreSt.still, hmove, hswap, hckpt, Option.isNone_none, hl, hready, hmov, hseat,
    hmv, Bool.not_false, Bool.and_self, if_true]

theorem move_times_out (hlate : m.2 + 100 * Config.mhz (s.core g.place.core).point ≤ (s.core g.place.core).count) :
    exec (.balancerMoveTimeout gid) s = .next (s.dropMark gid) := by
  have hl : (s.core g.place.core).moveLate m.2 = true := Nat.ble_eq ▸ hlate
  rw [exec_balancerMoveTimeout]
  refine runEvent_of ?_
  simp only [bind, Option.bind, hg, hm, hl, if_true]

end

end

/-- Settles O41: dispatch, decants, release, and the balancer's four steps. -/
theorem dispatchAndBalanceResult : Obligations.DispatchAndBalanceResult := by
  unfold Obligations.DispatchAndBalanceResult
  intro s
  refine ⟨fun core c b s1 hfr hc hch hb hp => dispatch_pops hfr hc hch hb hp,
    fun die k e he hd hst hw => ⟨fun s1 h => decant_unreadable he hd hst hw h, decant_refused he hd hst hw, fun o h => ?_⟩,
    fun gid g l hg hl hst hp hf hr => group_released hg hl hst hp hf hr,
    fun ctx region die idx toDie q e hq he hne hd hr hfr hres hfit hring => entry_moved hq he hne hd hr hfr hres hfit hring,
    fun gid g hg => ⟨fun toCore hst hres hm hmov => group_marked hg toCore hst hres hm hmov, fun m hm =>
      ⟨fun s1 hres hset hlate hready hmov hseat hmv => group_swapped hg hm hres hset hlate hready hmov hseat hmv, move_times_out hg hm⟩⟩⟩
  exact ⟨decant_no_room he hd hst hw h, fun s1 hr => ⟨roomFor_fits hr, decant_cached he hd hst hw h hr⟩⟩

end Sys2Proof.Dispatching
end

section
/-!
PROOF. What a step runs (R31, R62, R126, R319; log entries 1, 22, 27, 30): the head of the schedule, or the instruction of the agent that issues.
-/
namespace Sys2Proof.Steps
open Sys2Proof Sys2Proof.Machine Sys2Proof.Claims Sys2Proof.Laws

/-- A step of a part that is alive is its turn, with what follows from it. -/
theorem step_alive {s : State} (h : alive s = none) : step s = countStep (turn s) := by
  unfold step
  rw [h]

/-! ## The fetch changes no agent and no memory (R365) -/

theorem useTlb_rest (s : State) (ctx die va : Nat) :
    ∃ d k m l, s.useTlb ctx die va = { s with dies := d, kports := k, mports := m, tlb := l } := by
  unfold State.useTlb
  split
  · exact ⟨_, _, _, _, rfl⟩
  · obtain ⟨d, k, m, hw⟩ := walked_rest s ctx die va
    obtain ⟨l, hl⟩ := Traps.cache_rest (s.walked ctx die va) ctx va
    exact ⟨d, k, m, l, by rw [hl, hw]⟩

theorem walksFor_rest (ctx die : Nat) (vas : List W64) : ∀ s : State,
    ∃ d k m l, s.walksFor ctx die vas = { s with dies := d, kports := k, mports := m, tlb := l } := by
  unfold State.walksFor
  induction vas with
  | nil => exact fun s => ⟨_, _, _, _, rfl⟩
  | cons a r ih =>
    intro s
    rw [List.foldl_cons]
    split
    · obtain ⟨d, k, m, l, hu⟩ := useTlb_rest s ctx die a.toNat
      obtain ⟨d', k', m', l', hr⟩ := ih (s.useTlb ctx die a.toNat)
      exact ⟨d', k', m', l', by rw [hr, hu]⟩
    · exact ih s

theorem walks_then_requests_rest (s : State) (e : Env) (vas : List W64) (gs : List Target) :
    ∃ d k m l, (s.useAll e vas).sendReqs gs = { s with dies := d, kports := k, mports := m, tlb := l } := by
  obtain ⟨d, k, m, l, hw⟩ := walksFor_rest e.ctx e.die vas s
  obtain ⟨k', m', hs⟩ := sendReqs_rest gs { s with dies := d, kports := k, mports := m, tlb := l }
  exact ⟨d, k', m', l, by rw [State.useAll, hw, hs]⟩

theorem useFetch_rest (s : State) (e : Env) (t : Team) :
    ∃ d k m l, s.useFetch e t = { s with dies := d, kports := k, mports := m, tlb := l } := walks_then_requests_rest _ _ _ _

/-- What an agent's team is depends on the teams and the control threads. -/
theorem agent_congr {s s' : State} (ht : s'.teams = s.teams) (hc : s'.ctls = s.ctls) (a : Agent) : s'.agent a = s.agent a := by
  cases a with
  | none => rfl
  | host => rfl
  | peer => rfl
  | team k => exact congrArg (alook k) ht
  | ctl c x => exact congrArg (alook (ctlKey c x)) hc

/-- An agent that has a team is one of the part's own. -/
theorem inside_of_agent {s : State} {a : Agent} {t : Team} (h : s.agent a = some t) : a ≠ .none ∧ a.outside = false := by
  cases a with
  | none => cases h
  | host => cases h
  | peer => cases h
  | team k => exact ⟨Agent.noConfusion, rfl⟩
  | ctl c x => exact ⟨Agent.noConfusion, rfl⟩

theorem useFetch_cur (s : State) (e : Env) (t : Team) : (s.useFetch e t).cur = s.cur := by
  obtain ⟨d, k, m, l, h⟩ := useFetch_rest s e t
  rw [h]

theorem useFetch_mems (s : State) (e : Env) (t : Team) : mems (s.useFetch e t) = mems s := by
  obtain ⟨d, k, m, l, h⟩ := useFetch_rest s e t
  rw [h]
  rfl

theorem useFetch_agent (s : State) (e : Env) (t : Team) (a : Agent) : (s.useFetch e t).agent a = s.agent a := by
  obtain ⟨d, k, m, l, h⟩ := useFetch_rest s e t
  rw [h]
  exact agent_congr rfl rfl a

section
variable {s : State} {t : Team} (ha : s.agent s.cur = some t)

theorem readyToIssue_cur : (s.readyToIssue t).cur = s.cur := by
  refine (useFetch_cur ..).trans ?_
  split
  · rfl
  · exact setAgent_cur ..

theorem readyToIssue_memory : SameMemory s (s.readyToIssue t) := by
  refine RegisterFrames.sameMemory_of_mems ((useFetch_mems ..).trans ?_)
  split
  · rfl
  · exact setAgent_mems ..

include ha

/-- The agent stands in the original code where its residual has no copy. -/
theorem readyToIssue_agent : (s.readyToIssue t).agent s.cur = some (t.outOf s) := by
  refine (useFetch_agent ..).trans ?_
  split
  next heq => rw [heq, ha]
  · obtain ⟨hn, ho⟩ := inside_of_agent ha
    exact agent_setAgent s s.cur _ hn ho

/-! ## The issue (R31, R62; log entries 22, 27) -/

/-- An agent that is not able to issue, or whose fetch must wait, leaves the issue port. -/
theorem issue_leaves (h : s.canIssue s.cur = false ∨ s.fetchHeld (s.env s.cur) (t.outOf s) = true) :
    issue s = .next (s.rotate (s.env s.cur).core t.slot) := by
  have hno : (s.canIssue s.cur && !s.fetchHeld (s.env s.cur) (t.outOf s)) = false := by
    rcases h with h | h
    · rw [h, Bool.false_and]
    · rw [h, Bool.not_true, Bool.and_false]
  unfold issue
  simp only [ha, hno, Bool.false_eq_true, if_false]

theorem issue_goes (hc : s.canIssue s.cur = true) (hf : s.fetchHeld (s.env s.cur) (t.outOf s) = false) :
    issue s = issueNow (s.readyToIssue t) := by
  unfold issue
  simp only [ha, hc, hf, Bool.not_false, Bool.and_self, if_true]

/-- A word that cannot be issued takes its trap. -/
theorem issueNow_traps {x : Trap} (hw : issueWord s (s.env s.cur) t = .error x) :
    issueNow s = .next ((takeTrap s x).endIssue s.cur (s.env s.cur) t.slot 1 0) := by
  unfold issueNow
  simp only [ha, hw]

theorem issueNow_runs {i : Instr} (hw : issueWord s (s.env s.cur) t = .ok i) : issueNow s = issueInstr s (s.env s.cur) t i := by
  unfold issueNow
  simp only [ha, hw]

end

section
variable {s : State} {e : Env} {t : Team} {i : Instr}

/-- A long-latency instruction waits for room on its flag. -/
theorem issueInstr_waits (h : t.flagFull i = true) : issueInstr s e t i = .next s := if_pos h

theorem issueInstr_executes (h : t.flagFull i = false) (hi : ∀ die x y, i ≠ .evsel die x y) :
    issueInstr s e t i = s.unlessHeld e t i (exec i s) fun u => u.endIssue s.cur e t.slot (issueCost e t i) (passes e t i) := by
  unfold issueInstr
  rw [if_neg (by rw [h]; exact Bool.false_ne_true)]
  split
  next die x y => exact absurd rfl (hi die x y)
  next => rfl

/-- EVSEL is charged before it acts. -/
theorem issueInstr_evsel {die : Bool} {x y : Src} (h : t.flagFull (.evsel die x y) = false) : issueInstr s e t (.evsel die x y) =
    s.unlessHeld e t (.evsel die x y) (exec (.evsel die x y) (s.charge e 1 0)) fun u => u.rotate e.core t.slot := by
  unfold issueInstr
  rw [if_neg (by rw [h]; exact Bool.false_ne_true)]

end

/-! ## The word to issue (R126, R319) -/

section
variable {s : State} {e : Env} {t : Team} (hloop : t.loop = none)
include hloop

theorem codeWord_code {a : W64} {w : W32} (h : s.fetchWord e.ctx t.level a.toNat = .ok w) : s.codeWord e t (.code a) = .ok (some w) := by
  simp only [State.codeWord, hloop, State.wordAt, State.exitOf, h]

/-- Extension words that can be fetched are the words that follow. -/
theorem extWords_code : ∀ (ext : List W32) (a : W64),
    (∀ k x, ext[k]? = some x → s.fetchWord e.ctx t.level (a + BitVec.ofNat 64 (4 * k)).toNat = .ok x) →
    s.extWords e t (.code a) ext.length = .ok ext
  | [], _, _ => rfl
  | w :: r, a, h => by
    have hw : s.codeWord e t (.code a) = .ok (some w) := codeWord_code hloop (by simpa using h 0 w rfl)
    have hr : s.extWords e t (.code (a + BitVec.ofNat 64 4)) r.length = .ok r := extWords_code r _ fun k x hx => by
      have hnext := h (k + 1) x hx
      rwa [show a + BitVec.ofNat 64 (4 * (k + 1)) = a + BitVec.ofNat 64 4 + BitVec.ofNat 64 (4 * k) by
        rw [BitVec.add_assoc, ← BitVec.ofNat_add, Nat.mul_succ, Nat.add_comm]] at hnext
    simp only [List.length_cons, State.extWords, hw, Loc.plus, hr]

theorem issueWord_decoded {a : W64} {w : W32} {ext : List W32} {i : Instr} (hpc : t.pc = .code a) (hlen : (w :: ext).length = wordSpan w)
    (hfetch : ∀ k x, (w :: ext)[k]? = some x → s.fetchWord e.ctx t.level (a + BitVec.ofNat 64 (4 * k)).toNat = .ok x)
    (hin : t.clause.inside = true ∨ isHeader w = true) (hbrk : t.bpSkip = true ∨ breakAt (s.brkFor e t (isHeader w)) a = none)
    (hlong : longCheck t w = .ok ()) (hdec : decode (w :: ext) = .ok i) : issueWord s e t = .ok i := by
  have hw : s.codeWord e t (.code a) = .ok (some w) := codeWord_code hloop (by simpa using hfetch 0 w rfl)
  have hext : s.extWords e t (.code (a + BitVec.ofNat 64 4)) (wordSpan w - 1) = .ok ext := by
    rw [← hlen]
    refine extWords_code hloop ext _ fun k x hx => ?_
    have hnext := hfetch (k + 1) x hx
    rwa [show a + BitVec.ofNat 64 (4 * (k + 1)) = a + BitVec.ofNat 64 4 + BitVec.ofNat 64 (4 * k) by
      rw [BitVec.add_assoc, ← BitVec.ofNat_add, Nat.mul_succ, Nat.add_comm]] at hnext
  have hok : (t.clause.inside || isHeader w) = true := Bool.or_eq_true_iff.2 hin
  have hno : (if t.bpSkip then none else breakAt (s.brkFor e t (isHeader w)) (s.origPc t.gid (.code a))) = none := by
    rcases hbrk with h | h
    · rw [if_pos h]
    · split
      · rfl
      · exact h
  have hdecAt : decodeAt s e t w ext = .ok i := by
    unfold decodeAt
    rw [hdec]
  unfold issueWord
  simp only [hpc, hw, bind, Except.bind, hok, need_true, hno, Loc.plus, hext, hdecAt, hlong, hloop]

end

/-- In the original code an agent stands where it is. -/
theorem outOf_code {s : State} {t : Team} {a : W64} (h : t.pc = .code a) : t.outOf s = t := by
  unfold Team.outOf
  split
  · rw [h]
    show { t with pc := .code a } = t
    rw [← h]
  · rfl

/-- An instruction that nothing holds, or that must wait, as the outcome of its step. -/
theorem unlessHeld_next {s : State} {e : Env} {t : Team} {i : Instr} {o : Host.Outcome State Fault Refusal} {u : State} (k : State → State)
    (h : o = .next u) :
    s.unlessHeld e t i o k = .next (if s.sideHeld e t i || s.execHeld e t i u then s.rotate e.core t.slot else k u) := by
  rw [h, State.unlessHeld]

/-! ## The step -/

section
variable {s : State} {t : Team} (hl : alive s = none) (hag : s.agenda = []) (ha : s.agent s.cur = some t)
include hl hag ha

theorem step_leaves (h : s.canIssue s.cur = false ∨ s.fetchHeld (s.env s.cur) (t.outOf s) = true) :
    step s = countStep (.next (s.rotate (s.env s.cur).core t.slot)) := by
  rw [step_issue hl hag, issue_leaves ha h]

variable (hc : s.canIssue s.cur = true) (hf : s.fetchHeld (s.env s.cur) (t.outOf s) = false)
include hc hf

theorem step_issues : step s = countStep (issueNow (s.readyToIssue t)) := by
  rw [step_issue hl hag, issue_goes ha hc hf]

theorem step_traps {x : Trap} (hw : issueWord (s.readyToIssue t) ((s.readyToIssue t).env s.cur) (t.outOf s) = .error x) :
    step s = countStep (.next ((takeTrap (s.readyToIssue t) x).endIssue s.cur ((s.readyToIssue t).env s.cur) (t.outOf s).slot 1 0)) := by
  have hcur : (s.readyToIssue t).cur = s.cur := readyToIssue_cur
  have h := issueNow_traps (s := s.readyToIssue t) (by rw [hcur]; exact readyToIssue_agent ha) (by rw [hcur]; exact hw)
  rw [step_issues hl hag ha hc hf, h, hcur]

theorem step_runs {i : Instr} (hw : issueWord (s.readyToIssue t) ((s.readyToIssue t).env s.cur) (t.outOf s) = .ok i) :
    step s = countStep (issueInstr (s.readyToIssue t) ((s.readyToIssue t).env s.cur) (t.outOf s) i) := by
  have hcur : (s.readyToIssue t).cur = s.cur := readyToIssue_cur
  have h := issueNow_runs (s := s.readyToIssue t) (by rw [hcur]; exact readyToIssue_agent ha) (by rw [hcur]; exact hw)
  rw [step_issues hl hag ha hc hf, h, hcur]

end

/-- A step of the schedule runs what stands at its head (log entry 1). -/
theorem turn_other {s : State} {x : Turn} {r : List Turn} (h : s.agenda = x :: r) (he : ∀ i, x ≠ .event i) (ht : ∀ a, x ≠ .turn a) :
    turn s = .next (({ s with agenda := r } : State).outsideTurn x) := by
  unfold turn
  rw [h]
  cases x with
  | event i => exact absurd rfl (he i)
  | turn a => exact absurd rfl (ht a)
  | pass => rfl
  | outside => rfl
  | decay => rfl
  | elapse => rfl
  | beat => rfl
  | nameRing => rfl
  | takeRing => rfl
  | free => rfl
  | aperture => rfl
  | ptm => rfl

theorem turn_agent {s : State} {a : Agent} {r : List Turn} (h : s.agenda = .turn a :: r) : turn s = issue { s with agenda := r, cur := a } := by
  unfold turn
  rw [h]

/-- Settles O60: an agent that leaves the port, traps, waits or executes; and the schedule's head. -/
theorem stepRunsDecoded : Obligations.StepRunsDecoded := by
  unfold Obligations.StepRunsDecoded
  intro s hl
  refine ⟨fun t hag ha => ⟨step_leaves hl hag ha, fun hc hf => ⟨readyToIssue_cur, readyToIssue_agent ha, readyToIssue_memory,
      fun a hpc => outOf_code hpc, fun x hw => step_traps hl hag ha hc hf hw, fun i hw => ?_,
      fun a w ext i hpc hloop hlen hfetch hin hbrk hlong hdec => issueWord_decoded hloop hpc hlen hfetch hin hbrk hlong hdec⟩⟩,
    fun r => ⟨fun i h => step_event hl h, fun a h => by rw [step_alive hl, turn_agent h],
      fun c n h => by rw [step_alive hl, turn_other h (fun _ => Turn.noConfusion) (fun _ => Turn.noConfusion)]; rfl,
      fun x h he ht => by rw [step_alive hl, turn_other h he ht]⟩⟩
  have hrun := step_runs hl hag ha hc hf hw
  refine ⟨fun hfull => by rw [hrun, issueInstr_waits hfull], fun hroom => ⟨fun hi u hu => ?_, fun die x y hi u hu => ?_, fun hi =>
    ⟨fun f hx => ?_, fun f hx => ?_⟩⟩⟩
  · rw [hrun, issueInstr_executes hroom hi, unlessHeld_next _ hu, readyToIssue_cur]
  · subst hi
    rw [hrun, issueInstr_evsel hroom, unlessHeld_next _ hu]
  · rw [hrun, issueInstr_executes hroom hi, hx]; rfl
  · rw [hrun, issueInstr_executes hroom hi, hx]; rfl

end Sys2Proof.Steps
end

section
/-!
PROOF. Context images (R314, R315, R363), the keep store (R316), reset and boot (R60, R367), and the commit of REDUNDANT groups (R312, R313).
-/
namespace Sys2Proof.ContextImages
open Sys2Proof Sys2Proof.Machine Sys2Proof.Claims Sys2Proof.Laws Sys2Proof.MemoryAccess Sys2Proof.DebugWindow

/-! ## CKPT and its ends (R314, R315) -/

theorem ckpt_holds {s : State} {t : Team} {d : Reg} {a b : Src} (ha : s.agent s.cur = some t) (hctl : t.ctl = true)
    (hlv : t.level ≠ .program) (hs : Scalars t [a, b]) (hd : isScaDst d = true)
    (hr : Reached (s.bufLines (s.env s.cur) t (srcScalar (s.env s.cur) t a) 1)) :
    exec (.ckpt d a b) s = .next ((s.setAgent (s.env s.cur).ag { t with st := .waiting, wait := .ckpt (1 + a.words + b.words) }).modCore
      (s.env s.cur).core fun x => { x with ckpt := some {
        ctx := (s.env s.cur).ctx, d := d, addr := srcScalar (s.env s.cur) t a, size := (srcScalar (s.env s.cur) t b).toNat
        since := (s.core (s.env s.cur).core).count } }) := by
  rw [exec_ckpt]
  refine runState_ok ha ?_
  simp only [needCtl_ok hctl hlv, checkScalars_ok hs, needOperand, hd, need_true, bind, Except.bind, firstErr_none hr]

section
variable {s : State} {core : Nat} {k : CkptSt} {t : Team} (hk : (s.core core).ckpt = some k)
include hk

theorem ckpt_expires (h : k.since + s.wdogOf (.ctl core k.ctx) ≤ (s.core core).count) :
    exec (.ckptTimeout core) s = .next (s.endCkpt core k 2 0) := by
  rw [exec_ckptTimeout]
  refine runEvent_of ?_
  simp only [State.ckptTimeout, bind, Option.bind, hk]
  exact if_pos h

variable (ht : s.agent (.ctl core k.ctx) = some t) (hb : s.groupsBusy (s.ckptGroups core k.ctx) = false)
include ht hb

theorem image_too_large (h : k.size < s.imageSize (s.ckptGroups core k.ctx)) :
    exec (.ckptImageWrite core) s = .next (s.endCkpt core k 1 (s.imageSize (s.ckptGroups core k.ctx))) := by
  rw [exec_ckptImageWrite]
  refine runEvent_of ?_
  simp only [bind, Option.bind, hk, ht, hb, Bool.false_eq_true, if_false, h, if_true]

theorem image_written (h : s.imageSize (s.ckptGroups core k.ctx) ≤ k.size)
    (hh : s.linesHeld k.ctx (s.bufLines (s.env (.ctl core k.ctx)) t k.addr ((s.imageSize (s.ckptGroups core k.ctx) + 63) / 64)) = false) :
    exec (.ckptImageWrite core) s =
      .next (s.writeImage core k t (s.imageSize (s.ckptGroups core k.ctx)) (s.ckptGroups core k.ctx)) := by
  rw [exec_ckptImageWrite]
  refine runEvent_of ?_
  simp only [bind, Option.bind, hk, ht, hb, Bool.false_eq_true, if_false, Nat.not_lt.2 h, hh]

end

/-! ## Restores (R363) -/

section
variable {s : State} {core : Nat} {p : Tagged ImagePlace}

theorem restore_held {s1 : State} (hup : s.fwUp 1 = false) (hh : s.hold 8 (.imageRestore core p) = some s1) :
    exec (.imageRestore core p) s = .next s1 := by
  rw [exec_imageRestore]
  refine runEvent_of ?_
  simp only [hup, Bool.false_eq_true, if_false, hh]

variable (hup : s.fwUp 1 = true)
include hup

theorem restore_bad_image (h : s.imageCheck p.val = none) :
    exec (.imageRestore core p) s = .next (s.reply .restoreStatus none p.tag [1]) := by
  rw [exec_imageRestore]
  refine runEvent_of ?_
  simp only [hup, if_true, h]

/-- The context that an image's header names. -/
def imageCtx (bs : List Byte) : Nat := ((words64 (bs.take 64)).getD 2 0).toNat / 2 ^ 48

variable {bs : List Byte} (hbs : s.imageCheck p.val = some bs)
include hbs

/-- Refused without the image's context, or where no EMPTY bank takes it. -/
theorem restore_refused (h : alook (imageCtx bs) s.ctxs = none ∨ s.restoreImage core (imageCtx bs) bs = none) :
    exec (.imageRestore core p) s = .next (s.reply .restoreStatus none p.tag [1]) := by
  have hno : (if (alook (imageCtx bs) s.ctxs).isSome then s.restoreImage core (imageCtx bs) bs else none) = none := by
    rcases h with h | h
    · rw [h]; rfl
    · rw [h, ite_self]
  unfold imageCtx at hno
  rw [exec_imageRestore]
  refine runEvent_of ?_
  simp only [hup, if_true, hbs, hno]

theorem restore_fills {s1 : State} (hc : alook (imageCtx bs) s.ctxs ≠ none) (h : s.restoreImage core (imageCtx bs) bs = some s1) :
    exec (.imageRestore core p) s = .next (s1.reply .restoreStatus (some (imageCtx bs)) p.tag [0]) := by
  have hyes : (if (alook (imageCtx bs) s.ctxs).isSome then s.restoreImage core (imageCtx bs) bs else none) = some s1 := by
    rw [if_pos (Option.isSome_iff_ne_none.2 hc), h]
  unfold imageCtx at hyes
  rw [exec_imageRestore]
  refine runEvent_of ?_
  simp only [hup, if_true, hbs, hyes, imageCtx]

end

/-! ## The keep store (R316, R363) -/

/-- The bytes read from a place on are a string where each is its byte. -/
theorem getBytes_of {f : Nat → Byte} : ∀ {bs : List Byte} {a : Nat}, (∀ i < bs.length, f (a + i) = bs.getD i 0) → getBytes f a bs.length = bs
  | [], _, _ => rfl
  | b :: r, a, h => by
    have hb : f a = b := h 0 (Nat.succ_pos _)
    have hr : getBytes f (a + 1) r.length = r := getBytes_of fun i hi => by
      rw [Nat.add_assoc, Nat.add_comm 1 i]
      exact h (i + 1) (Nat.succ_lt_succ hi)
    rw [List.length_cons, getBytes, hb, hr]

theorem layKeeps_length : ∀ (off : Nat) (ds : List KeepData), (layKeeps off ds).length = ds.length
  | _, [] => rfl
  | off, (_, bs) :: r => congrArg (· + 1) (layKeeps_length (off + bs.length) r)

/-- The keep store with data put at its offsets. -/
def putKeeps (m : List (Nat × Byte)) (ks : List KeepData) : List (Nat × Byte) := ks.foldl (fun m e => putBytes m e.1.off e.2) m

/-- Data laid out from an offset on leaves every byte before it. -/
theorem putKeeps_before {a : Nat} : ∀ (ds : List KeepData) (off : Nat) (m : List (Nat × Byte)), a < off →
    sget (putKeeps m (layKeeps off ds)) a = sget m a
  | [], _, _, _ => rfl
  | (k, bs) :: r, off, m, h => by
    refine (putKeeps_before r (off + bs.length) (putBytes m off bs) (by omega)).trans ?_
    rw [sget_putBytes, if_neg (by omega)]

/-- Each piece of data stands at its offset. -/
theorem putKeeps_at {e : KeepData} {i : Nat} (hi : i < e.2.length) : ∀ (ds : List KeepData) (off : Nat) (m : List (Nat × Byte)) (j : Nat),
    (layKeeps off ds)[j]? = some e → sget (putKeeps m (layKeeps off ds)) (e.1.off + i) = e.2.getD i 0
  | [], _, _, _, h => by cases h
  | (k, bs) :: r, off, m, 0, h => by
    obtain rfl := Option.some.inj h
    change i < bs.length at hi
    refine (putKeeps_before r (off + bs.length) (putBytes m off bs) (by simpa using hi)).trans ?_
    rw [sget_putBytes, if_pos ⟨Nat.le_add_right .., by simpa using hi⟩, Nat.add_sub_cancel_left]
  | (k, bs) :: r, off, m, j + 1, h => putKeeps_at hi r (off + bs.length) (putBytes m off bs) j h

/-! ### The directory -/

theorem wordBytes_length (ws : List W64) : (wordBytes ws).length = 8 * ws.length := by
  unfold wordBytes
  induction ws with
  | nil => rfl
  | cons w r ih => rw [List.flatMap_cons, List.length_append, leBytes_length, ih, List.length_cons]; omega

/-- A directory entry takes 32 bytes. -/
theorem entry_length (k : KeepEntry) : (wordBytes k.words).length = 32 := wordBytes_length _

/-- The directory of the keep store, with its ending entry of zeros. -/
def directory (ks : List KeepData) : List Byte := (ks.flatMap fun e => wordBytes e.1.words) ++ List.replicate 32 0

theorem directory_length (ks : List KeepData) : (directory ks).length = 32 * (ks.length + 1) := by
  unfold directory
  rw [List.length_append, List.length_replicate]
  induction ks with
  | nil => rfl
  | cons e r ih => rw [List.flatMap_cons, List.length_append, entry_length, List.length_cons]; omega

/-- Entry j stands at byte 32 j of the directory. -/
theorem directory_entry {e : KeepData} {i : Nat} (hi : i < 32) : ∀ (ks : List KeepData) (j : Nat), ks[j]? = some e →
    (directory ks).getD (32 * j + i) 0 = (wordBytes e.1.words).getD i 0
  | [], _, h => by cases h
  | x :: r, 0, h => by
    obtain rfl := Option.some.inj h
    rw [directory, List.flatMap_cons, List.append_assoc, List.getD_append _ _ _ _ (by rw [entry_length]; omega), Nat.mul_zero, Nat.zero_add]
  | x :: r, j + 1, h => by
    rw [directory, List.flatMap_cons, List.append_assoc, List.getD_append_right _ _ _ _ (by rw [entry_length]; omega), entry_length,
      show 32 * (j + 1) + i - 32 = 32 * j + i by omega]
    exact directory_entry hi r j h

/-- The directory ends with 32 zero bytes. -/
theorem directory_end {i : Nat} (hi : i < 32) (ks : List KeepData) : (directory ks).getD (32 * ks.length + i) 0 = 0 := by
  have hlen := directory_length ks
  rw [directory, List.length_append, List.length_replicate] at hlen
  rw [directory, List.getD_append_right _ _ _ _ (by omega)]
  exact List.getD_replicate _ (by omega)

/-- The store that the loss of power leaves, by the data it is to keep. -/
def keptStore (ds : List KeepData) : List (Nat × Byte) :=
  putKeeps (putBytes [] 0 (directory (layKeeps (32 * (ds.length + 1)) ds))) (layKeeps (32 * (ds.length + 1)) ds)

/-- Below the data stands the directory. -/
theorem keptStore_directory (ds : List KeepData) {a : Nat} (h : a < 32 * (ds.length + 1)) :
    sget (keptStore ds) a = (directory (layKeeps (32 * (ds.length + 1)) ds)).getD a 0 := by
  refine (putKeeps_before ds _ _ h).trans ?_
  rw [sget_putBytes, directory_length, layKeeps_length, if_pos ⟨Nat.zero_le _, by omega⟩, Nat.sub_zero]

section
variable (ds : List KeepData)

theorem keptStore_entry {j : Nat} {e : KeepData} (h : (layKeeps (32 * (ds.length + 1)) ds)[j]? = some e) :
    getBytes (sget (keptStore ds)) (32 * j) 32 = wordBytes e.1.words := by
  have hj : j < ds.length := by
    rw [← layKeeps_length (32 * (ds.length + 1)) ds]
    exact (List.getElem?_eq_some_iff.1 h).1
  rw [← entry_length e.1]
  refine getBytes_of fun i hi => ?_
  rw [entry_length] at hi
  rw [entry_length, keptStore_directory ds (by omega), directory_entry hi _ _ h]

theorem keptStore_data {j : Nat} {e : KeepData} (h : (layKeeps (32 * (ds.length + 1)) ds)[j]? = some e) :
    getBytes (sget (keptStore ds)) e.1.off e.2.length = e.2 := getBytes_of fun _ hi => putKeeps_at hi _ _ _ _ h

theorem keptStore_end : getBytes (sget (keptStore ds)) (32 * ds.length) 32 = List.replicate 32 0 := by
  have hend := getBytes_of (f := sget (keptStore ds)) (bs := List.replicate 32 0) (a := 32 * ds.length) fun i hi => by
    rw [List.length_replicate] at hi
    have hz := directory_end hi (layKeeps (32 * (ds.length + 1)) ds)
    rw [layKeeps_length] at hz
    rw [keptStore_directory ds (by omega), hz, List.getD_replicate _ hi]
  rwa [List.length_replicate] at hend

end

/-- A state that has kept data and lost its power. -/
def lostPower (u : State) (ds : List KeepData) : State := { u with fw := { u.fw.writeKeep ds with powered := false } }

theorem lostPower_keep (u : State) (ds : List KeepData) :
    (lostPower u ds).fw.keep = (layKeeps (32 * (ds.length + 1)) ds).map fun e => e.1 := rfl

theorem lostPower_entry (u : State) (ds : List KeepData) {j : Nat} {e : KeepData} (h : (layKeeps (32 * (ds.length + 1)) ds)[j]? = some e) :
    getBytes (sget (lostPower u ds).fw.store) (32 * j) 32 = wordBytes e.1.words := keptStore_entry ds h

theorem lostPower_data (u : State) (ds : List KeepData) {j : Nat} {e : KeepData} (h : (layKeeps (32 * (ds.length + 1)) ds)[j]? = some e) :
    getBytes (sget (lostPower u ds).fw.store) e.1.off e.2.length = e.2 := keptStore_data ds h

theorem lostPower_end (u : State) (ds : List KeepData) :
    getBytes (sget (lostPower u ds).fw.store) (32 * ds.length) 32 = List.replicate 32 0 := keptStore_end ds

/-! ## Reset and boot (R60, R367) -/

/-- A boot succeeds exactly where every image verifies and none is below the fuse counter. -/
theorem bootStage_none {hash : BitVec 384} {counter : Nat} {sec : FwImage} {others : List FwImage} :
    bootStage hash counter sec others = none ↔ romOk sec hash = true ∧ others.length = 7 ∧
      (∀ i ∈ others, secOk i (Config.imageKeys sec.bytes) = true) ∧ ∀ i ∈ sec :: others, counter ≤ i.svn := by
  unfold bootStage
  split
  next h =>
    rw [Bool.not_eq_true'] at h
    simp [h]
  next hrom =>
    rw [Bool.not_eq_true', Bool.not_eq_false] at hrom
    split
    next h =>
      rw [Bool.or_eq_true, bne_iff_ne, List.any_eq_true] at h
      refine iff_of_false (by simp) fun ⟨_, hlen, hsec, _⟩ => ?_
      rcases h with h | ⟨i, hi, hbad⟩
      · exact h hlen
      · rw [hsec i hi] at hbad
        cases hbad
    next h =>
      rw [Bool.or_eq_true, not_or, bne_iff_ne, not_not, List.any_eq_true] at h
      obtain ⟨hlen, hbad⟩ := h
      have hsec : ∀ i ∈ others, secOk i (Config.imageKeys sec.bytes) = true := fun i hi =>
        eq_true_of_ne_false fun hno => hbad ⟨i, hi, by rw [hno]; rfl⟩
      split
      next h =>
        obtain ⟨i, hi, hlt⟩ := List.any_eq_true.1 h
        rw [Nat.blt_eq] at hlt
        exact iff_of_false (by simp) fun ⟨_, _, _, hsvn⟩ => Nat.not_le.2 hlt (hsvn i hi)
      next h =>
        refine iff_of_true rfl ⟨hrom, hlen, hsec, fun i hi => Nat.not_lt.1 fun hlt => h (List.any_eq_true.2 ⟨i, hi, ?_⟩)⟩
        rwa [Nat.blt_eq]

/-! ## The commit of a REDUNDANT pair (R312, R313) -/

/-- Stopping a team changes of another only its wait and the COUNT at which it began. -/
theorem stopTeam_other {s : State} {tid k : Nat} {t u : Team} {x : Trap} (ht : alook tid s.teams = some t) (hr : x.repair = false)
    (hk : k ≠ tid) (hu : alook k s.teams = some u) : ∃ w n, alook k (s.stopTeam tid x).teams = some { u with wait := w, since := n } := by
  rw [Traps.stopTeam_queued ht hr]
  refine recountPartner_team ?_
  rw [ctxEvent_teams, queueTrap_teams, trapWalk_teams]
  exact (alook_aset_ne hk _ _).trans hu

/-- A team that waits for nothing stays as it is when another is stopped. -/
theorem stopTeam_idle {s : State} {tid k : Nat} {t u : Team} {x : Trap} (ht : alook tid s.teams = some t) (hr : x.repair = false)
    (hk : k ≠ tid) (hu : alook k s.teams = some u) (hw : u.wait = .none) : alook k (s.stopTeam tid x).teams = some u := by
  rw [Traps.stopTeam_queued ht hr]
  refine recountPartner_idle ?_ hw
  rw [ctxEvent_teams, queueTrap_teams, trapWalk_teams]
  exact (alook_aset_ne hk _ _).trans hu

/-- A team stopped with REDUNDANCY, what it held discarded. -/
def StoppedRedundant (u : Team) : Prop :=
  u.wait = .none ∧ u.st = .stopped ∧ ∃ r, u.trap = some r ∧ r.cause = .redundancy ∧ u.held = []

section
variable {s : State} {tid : Nat} {t : Team} (ht : alook tid s.teams = some t) (hst : t.st ≠ .stopped) (pc : Loc) (count : Option Nat)
include ht hst

/-- The trap of a pair that does not agree. -/
def redundancyTrap (pc : Loc) (count : Option Nat) : Trap := { cause := .redundancy, pc := some pc, count := count }

/-- The state in which a team has discarded what it held. -/
def discarded (s : State) (tid : Nat) (t : Team) : State := { s with teams := aset tid { t with held := [] } s.teams }

theorem redundancyAt_eq : s.redundancyAt tid pc count = (discarded s tid t).stopTeam tid (redundancyTrap pc count) := by
  unfold State.redundancyAt
  rw [ht]
  exact if_neg hst

theorem redundancyAt_stops : ∃ u, alook tid (s.redundancyAt tid pc count).teams = some u ∧ StoppedRedundant u := by
  have hd : alook tid (discarded s tid t).teams = some { t with held := [] } := alook_aset_same ..
  obtain ⟨i, hi⟩ := Traps.inPass_rest (discarded s tid t) { t with held := [] } (redundancyTrap pc count)
  refine ⟨_, (congrArg (fun st : State => alook tid st.teams) (redundancyAt_eq ht hst pc count)).trans (Traps.stopTeam_team hd), rfl, rfl, _, rfl,
    ?_, rfl⟩
  rw [hi]
  rfl

theorem redundancyAt_other {k : Nat} {u : Team} (hk : k ≠ tid) (hu : alook k s.teams = some u) :
    ∃ w n, alook k (s.redundancyAt tid pc count).teams = some { u with wait := w, since := n } := by
  have hd : alook tid (discarded s tid t).teams = some { t with held := [] } := alook_aset_same ..
  rw [redundancyAt_eq ht hst]
  exact stopTeam_other hd rfl hk ((alook_aset_ne hk _ _).trans hu)

theorem redundancyAt_idle {k : Nat} {u : Team} (hk : k ≠ tid) (hu : alook k s.teams = some u) (hw : u.wait = .none) :
    alook k (s.redundancyAt tid pc count).teams = some u := by
  have hd : alook tid (discarded s tid t).teams = some { t with held := [] } := alook_aset_same ..
  rw [redundancyAt_eq ht hst]
  exact stopTeam_idle hd rfl hk ((alook_aset_ne hk _ _).trans hu) hw

end

/-- Both teams of a pair stand in the machine. -/
theorem pairAt_teams {s : State} {tid : Nat} {p : Pair} (h : s.pairAt tid = some p) :
    alook p.tid0 s.teams = some p.t0 ∧ alook p.tid1 s.teams = some p.t1 := by
  obtain ⟨t, ht, h⟩ := Option.bind_eq_some_iff.1 h
  obtain ⟨k, -, h⟩ := Option.bind_eq_some_iff.1 h
  obtain ⟨u, hu, h⟩ := Option.bind_eq_some_iff.1 h
  obtain rfl := Option.some.inj h
  split
  · exact ⟨ht, hu⟩
  · exact ⟨hu, ht⟩

/-- A team at a commit is WAITING. -/
theorem waiting_of_commit {t : Team} {i : Instr} (h : t.commitWait = some i) : t.st = .waiting := by
  unfold Team.commitWait at h
  split at h
  next hst _ => exact hst
  · cases h

section
variable {s : State} {p : Pair} {i : Instr} (h0 : p.t0.commitWait = some i) (hp : s.samePoint p i = true)

include hp in
/-- The partner stands at the same commit. -/
theorem partner_commits : p.t1.commitWait = some i := by
  rw [State.samePoint, Bool.and_eq_true, beq_iff_eq] at hp
  exact hp.1

include h0 hp

/-- Copies that do not agree both stop. -/
theorem pair_stops {tid : Nat} (hpair : s.pairAt tid = some p) (hne : p.tid0 ≠ p.tid1) : ∀ k, k = p.tid0 ∨ k = p.tid1 →
    ∃ u, alook k (s.redundancyStop p p.tid0 none).teams = some u ∧ StoppedRedundant u := by
  obtain ⟨ht0, ht1⟩ := pairAt_teams hpair
  have hst0 : p.t0.st ≠ .stopped := by rw [waiting_of_commit h0]; exact TeamSt.noConfusion
  have hst1 : p.t1.st ≠ .stopped := by rw [waiting_of_commit (partner_commits hp)]; exact TeamSt.noConfusion
  have hstop : s.redundancyStop p p.tid0 none =
      (s.redundancyAt p.tid0 p.t0.pc none).redundancyAt p.tid1 (s.placeIn p.t0.gid p.t1.gid p.t0.pc) none := by
    simp only [State.redundancyStop, if_true, ht0, ht1]
  obtain ⟨u0, hu0, hs0⟩ := redundancyAt_stops ht0 hst0 p.t0.pc none
  obtain ⟨w, n, hu1⟩ := redundancyAt_other ht0 hst0 p.t0.pc none hne.symm ht1
  rw [hstop]
  rintro k (rfl | rfl)
  · exact ⟨u0, redundancyAt_idle hu1 hst1 _ _ hne hu0 hs0.1, hs0⟩
  · exact redundancyAt_stops hu1 hst1 _ _

variable (hr0 : s.commitReady p.tid0 p.t0 i = true) (hr1 : s.commitReady p.tid1 p.t1 i = true) {tid : Nat} (hpair : s.pairAt tid = some p)
include hr0 hr1 hpair

theorem commit_compared : exec (.redundantCommitCompare tid) s = .next (if signature p.t0.held = signature p.t1.held then
    ((s.reached p i).releaseHeld p).commitBoth p i else s.redundancyStop p p.tid0 none) := by
  rw [exec_redundantCommitCompare]
  refine runEvent_of ?_
  simp only [bind, Option.bind, hpair, h0, hp, hr0, hr1, Bool.and_self, if_true]

end

theorem commit_expires {s : State} {tid : Nat} {p : Pair} {t : Team} {i : Instr} (hpair : s.pairAt tid = some p)
    (hw : Waits s tid t (.commit i none)) (hx : s.expired tid t.since = true) :
    exec (.redundantWaitTimeout tid) s = .next (s.redundancyStop p tid (some (s.expiry tid t.since))) := by
  obtain ⟨ht, hst, hwait⟩ := hw
  rw [exec_redundantWaitTimeout]
  refine runEvent_of ?_
  simp only [State.redundantTimeout, bind, Option.bind, ht, hpair, hst, hwait, hx, if_true]

/-! ## The obligation -/

theorem power_lost {s : State} (hq : s.quiet = true) :
    let s0 : State := { s with images := s.images.filter fun e => e.2.cellar || e.2.loc.isSome }
    let s1 := (List.range Config.nCores).foldl State.swapCoreOut s0
    let r := ((List.range Config.nCores).flatMap s1.coreImages).foldl State.keepImage (s1, [])
    let ds := r.2 ++ s1.keepData 0 s1.allKeeps
    let s' : State := { r.1 with fw := { r.1.fw.writeKeep ds with powered := false } }
    exec .powerLoss s = .next s' := runEvent_of (if_pos hq)

/-- Settles O40: CKPT, restores, the keep store, reset, and the REDUNDANT commit. -/
theorem imagesCommitsAndReset : Obligations.ImagesCommitsAndReset := by
  unfold Obligations.ImagesCommitsAndReset
  intro s
  refine ⟨fun t d a b ha hctl hlv hs hd hr => ckpt_holds ha hctl hlv hs hd hr,
    fun core k t hk ht => ⟨fun hb => ⟨image_too_large hk ht hb, image_written hk ht hb⟩, ckpt_expires hk⟩,
    fun core p => ⟨fun s1 => restore_held, restore_bad_image, fun bs hup hbs => ⟨fun h => restore_refused hup hbs (.inl h),
      fun h => restore_refused hup hbs (.inr h), fun s1 hc h => restore_fills hup hbs hc h⟩⟩,
    fun hq => ?_,
    fun sec others => ⟨bootStage s.part.keyHash (sget s.fw.svn 0).toNat sec others, rfl, bootStage_none⟩,
    fun tid p hpair => ⟨fun i h0 hp hr0 hr1 => ⟨fun heq => ?_, fun hne => ⟨?_, fun k hk => ?_⟩⟩,
      fun t i hw hx => commit_expires hpair hw hx⟩⟩
  · exact ⟨power_lost hq, rfl, lostPower_keep _ _, fun j e he => ⟨lostPower_entry _ _ he, lostPower_data _ _ he⟩, lostPower_end _ _⟩
  · exact (commit_compared h0 hp hr0 hr1 hpair).trans (congrArg Host.Outcome.next (if_pos heq))
  · exact (commit_compared h0 hp hr0 hr1 hpair).trans (congrArg Host.Outcome.next (if_neg hne))
  · obtain ⟨ht0, ht1⟩ := pairAt_teams hpair
    have hdiff : p.tid0 ≠ p.tid1 := fun h => hne (by rw [h] at ht0; rw [Option.some.inj (ht0.symm.trans ht1)])
    obtain ⟨u, hu, -, hst, r, hr, hcause, hheld⟩ := pair_stops h0 hp hpair hdiff k hk
    exact ⟨u, r, hu, hst, hr, hcause, hheld⟩

end Sys2Proof.ContextImages
end
